-- ==== Sys2Proof/Word.lean ====
section
/-!
DEFINITION. Sys2Proof/Word.lean: the words of the Xezel and the plainest operations on them.
Bits are numbered from 0, the least significant (R3); multi-byte values are little-endian (R4).
-/
namespace Sys2Proof

/-- One byte of memory. -/
abbrev Byte := BitVec 8

/-- A scalar token's value, a slot word, a full tag, a register (R12, R16, R73). -/
abbrev Word := BitVec 64

/-- A vector token's value (R16, R63). -/
abbrev Vec := BitVec 1024

/-- A flit of a ring: 256 data bits (R137). -/
abbrev Flit := BitVec 256

/-- A finite map from numbers to plain data, as a list in ascending order of its keys. -/
abbrev AMap (α : Type) := List (Nat × α)

end Sys2Proof
end

