-- ==== Sys2Proof/Config.lean ====
section
/-!
DEFINITION. Sys2Proof/Config.lean: what is fixed of the device, and the values the spec leaves open. An `opaque`
constant has no body: nothing can be proved of its value.
-/
namespace Sys2Proof.Config

/-- Bays of the device, in two dies of 10 bay-rows by 8 bay-columns (R1, R134). -/
def bays : Nat := 160
/-- Partitions (R308). -/
def parts : Nat := 32
/-- Loft slice of a bay in bytes, 24 MiB (R154). -/
def slice : Nat := 0x1800000
/-- Step between slices in the physical map (R334). -/
def sliceStep : Nat := 0x2000000
/-- First physical address of the loft by region position (R334). -/
def loftByPos : Nat := 0x1000000000000
/-- First physical address of the loft by bay number (R334). -/
def loftByBay : Nat := 0x2000000000000
/-- LPDDR bytes, 768 GiB (R334). -/
def lpddr : Nat := 0xC000000000
/-- First physical address of the host window (R334). -/
def hostWin : Nat := 0x8000000000000
/-- Size of the physical space (R334). -/
def phys : Nat := 0x10000000000000
/-- Elements of a bay (R11). -/
def elements : Nat := 128
/-- Sets an issue queue holds (R17). -/
def issueSets : Nat := 16
/-- Matching-store entries, parking buffers and frame-table rows of an element (R11). -/
def matchEnts : Nat := 64
def parkBufs : Nat := 16
def frameRows : Nat := 128
/-- Wave-buffer entries of a bay (R11). -/
def waveEnts : Nat := 512
/-- Hitches a gate serves (R11). -/
def gateHitches : Nat := 32
/-- Entry-buffer places and accumulation records of a gate (R11). -/
def entryPlaces : Nat := 64
def accRecords : Nat := 16
/-- Scalar places of a gate's replay store (R389). -/
def replayPlaces : Nat := 512
/-- Near-store bytes of a memory node (R155). -/
def nodeBytes : Nat := 0x40000
/-- Guard registers, deferred-reader entries of a node, reduction buffers (R178, R188, R233). -/
def guardRegs : Nat := 32
def readersPerNode : Nat := 256
def redBufs : Nat := 16
/-- TLB entries and walks at once of a translation node (R340). -/
def tlbEnts : Nat := 1024
def walks : Nat := 32
/-- Held seeds of a partition (R318). -/
def heldSeeds : Nat := 4096
/-- Event records that may wait (R347). -/
def eventsWaiting : Nat := 256
/-- Poison-directory entries of an LPDDR channel (R380). -/
def poisonDir : Nat := 4096

/-- A free value: the n-th value the spec leaves open (log 4). -/
opaque freeWord : Nat → Word
/-- Which candidate moves when the state names none (log 3). -/
opaque freePick : Nat → Nat
/-- What a byte of LPDDR or host memory that nothing has written holds (R404; log 2). -/
opaque powerOnByte : Nat → Byte
/-- Cycles that the clock of a bay, by its number, runs between two happenings (R9; log 6). -/
opaque ticks : Nat → Nat → Nat
/-- The XTS key pair of the partition created as number n (R375; log 7). -/
opaque xtsKey1 : Nat → BitVec 256
opaque xtsKey2 : Nat → BitVec 256
/-- The two seeds of the ML-KEM-1024 key pair of the enclave partition created as number n (R376; log 7). -/
opaque kemSeed : Nat → BitVec 256
opaque kemReject : Nat → BitVec 256
/-- The seed of the device's ML-DSA-87 identity key pair, derived from a fused secret, and what a signature draws (R378; log 7). -/
opaque identitySeed : BitVec 256
opaque signRnd : Nat → BitVec 256
/-- The words of Gwynlin's certificate of the identity key (R378; log 7). -/
opaque certificate : Nat → Word
/-- A firmware stage: its image, its ML-DSA-87 signature and its security version (R378). -/
structure Stage where
  image : List Byte
  sig   : List Byte
  svn   : Nat
  deriving DecidableEq, Repr, Inhabited
/-- The ROM image, the firmware stages, the Gwynlin key whose digest is fused, and the fused minimum security version (R378; log 7). -/
opaque romImage : List Byte
opaque stages : List Stage
opaque gwynlinKey : List Byte
opaque minSvn : Nat
/-- Running firmware security version (R378). -/
opaque fwSvn : Word
/-- Does the far end's binding name a splice channel (R319; log 8)? Arguments: port, channel, binding word, step. -/
opaque farEndNames : Nat → Nat → Word → Nat → Bool

end Sys2Proof.Config
end

