-- ==== Sys2Proof/Syntax.lean ====
section
/-!
DEFINITION. Sys2Proof/Syntax.lean: the fields of slot words, the tokens and packets that travel, and `Instr`: one
constructor for each row of spec/opcode_table.json, the 139 slot instructions (03_encodings.md) and the 105 whole
steps of the machine (95_what_each_step_holds.md).
-/
namespace Sys2Proof

/-- The sixteen TY codes in the order of their numbers (R75). -/
inductive Ty where
  | s8 | n8 | s16 | n16 | s32 | n32 | s64 | n64 | f16 | bf16 | f32 | e4m3 | e5m2 | q4 | b1 | v
  deriving DecidableEq, Repr, Inhabited

/-- PM (R74); code 11 is no mode. -/
inductive Pm where
  | always | ifTrue | ifFalse
  deriving DecidableEq, Repr, Inhabited

/-- RND and ARND (R56): nearest even, toward zero, toward minus infinity, toward plus infinity. -/
inductive Rnd where
  | rn | rz | rd | ru
  deriving DecidableEq, Repr, Inhabited

/-- ORD (R81). -/
inductive MemOrd where
  | plain | acq | rel | ar
  deriving DecidableEq, Repr, Inhabited

/-- SCOPE (R82); codes 6 and 7 are no scope. -/
inductive Scope where
  | inst | bay | rgn | dev | tnt | sys
  deriving DecidableEq, Repr, Inhabited

/-- TOP (R83); codes 110 and 111 are no operation. -/
inductive TagOp where
  | same | inc | push | pop | set | popinc
  deriving DecidableEq, Repr, Inhabited

/-- ISL (R84); code 11 is no island. -/
inductive Isl where
  | mx | sn | ss
  deriving DecidableEq, Repr, Inhabited

/-- A target: SE 10:7, SLOT 6:2, PORT 1:0; 0x7FF is no target (R76). -/
abbrev Target := BitVec 11

/-- The common part of a slot word less its OP (R73). -/
structure Common where
  pm : Pm
  w  : Bool
  ty : Ty
  t0 : Target
  t1 : Target
  deriving DecidableEq, Repr, Inhabited

/-- Form A, bits 26:0 (R79). -/
structure FormA where
  im    : Bool
  rnd   : Rnd
  sat   : Bool
  aux7  : BitVec 7
  imm16 : BitVec 16
  deriving DecidableEq, Repr, Inhabited

/-- Form X, bits 26:0 (R83). -/
structure FormX where
  pos   : BitVec 7
  gate  : BitVec 3
  hnum  : BitVec 5
  entry : BitVec 3
  top   : TagOp
  field : BitVec 3
  exn   : BitVec 3
  deriving DecidableEq, Repr, Inhabited

/-- Form M, bits 26:0 (R81). `lo8` is OFF8, or on an atomic ARND, XSAT and OFF5. -/
structure FormM where
  site  : BitVec 8
  lsid  : BitVec 5
  ord   : MemOrd
  scope : Scope
  nf    : Bool
  lo8   : BitVec 8
  deriving DecidableEq, Repr, Inhabited

/-- Form I, bits 26:0 (R84). -/
structure FormI where
  isl   : Isl
  iport : BitVec 4
  rcp   : BitVec 10
  aux11 : BitVec 11
  deriving DecidableEq, Repr, Inhabited

/-- Form S, bits 26:0 (R85). -/
structure FormS where
  sreg  : BitVec 12
  imm15 : BitVec 15
  deriving DecidableEq, Repr, Inhabited

/-- The value of a token, by the network it travels on: scalar, vector or control (R16, R131). -/
inductive Val where
  | sc  (v : Word)
  | vec (v : Vec)
  | ct  (v : BitVec 1)
  deriving DecidableEq, Repr

/-- A token less its tag and target: value, null bit (R16, R20), poison mark (R140, R380). -/
structure Token where
  val : Val
  nul : Bool
  poi : Bool
  deriving DecidableEq, Repr

/-- A token inside a span on its way to a slot port: target bay element, slot and port, local tag (R15, R133),
and the element it comes from (R132). Source 128 and above is no element: 128 + g is gate g, 136 + n is node n,
144 and above an island or the range unit. -/
structure TokMsg where
  bay  : Nat
  el   : Nat
  slot : Nat
  port : Nat
  ctx  : Nat
  gate : Nat
  ix   : Nat
  src  : Nat
  tok  : Token
  deriving DecidableEq, Repr

/-- A token between hitches: target gate, hitch and entry on a bay, full tag (R16, R138). `chan` is the region
position that sent it over a channel of the bay graph (R358), none when it did not cross bays; `src` its source on the
bay, numbered as in `TokMsg` (R132). -/
structure EntMsg where
  bay   : Nat
  gate  : Nat
  hnum  : Nat
  entry : Nat
  ctx   : Nat
  tag   : Word
  tok   : Token
  chan  : Option Nat
  src   : Nat
  deriving DecidableEq, Repr

/-- A packet of the rings or of the memory fabric: header flit (R138), payload flits, poison mark of the payload
(R140), the virtual channel it is held in (R142), the payload bytes that are poisoned (R380: poison travels with the data it
marks), and ARND and XSAT of an atomic (R81, R195), for which R182's body has no place (log 14). -/
structure Packet where
  hdr : Flit
  pay : List Flit
  poi : Bool
  vc  : Nat
  marks : List Nat
  xf  : BitVec 3
  deriving DecidableEq, Repr, Inhabited

/-- Row or column ring (R134). -/
inductive Ring where
  | row | col
  deriving DecidableEq, Repr, Inhabited

/-- A direction of a ring link, or the bridge port of a bridge stop (R134). -/
inductive Dir where
  | cw | ccw | bridge
  deriving DecidableEq, Repr, Inhabited

/-- One end of a link: the bay of the stop, its ring, the direction of travel. For a packet that arrives it names
the input port; for one that is sent, the output link. -/
structure LinkEnd where
  bay  : Nat
  ring : Ring
  dir  : Dir
  deriving DecidableEq, Repr, Inhabited

/-- What a stop finds in a flit of an arriving packet (R140). -/
inductive FlitErr where
  | none | corrected | bad
  deriving DecidableEq, Repr, Inhabited

/-- What a scrubber finds in a unit (R381). -/
inductive UnitErr where
  | clean | corrected | uncorrectable
  deriving DecidableEq, Repr, Inhabited

/-- The classes of credits (R144). -/
inductive CreditClass where
  | vc0 | vc1 | vc2 | vc3
  deriving DecidableEq, Repr, Inhabited

/-- Where a partial of a group load is: at a stop's combine unit, or at the requester (R232). -/
inductive PartPlace where
  | stop (e : LinkEnd)
  | requester (bay : Nat)
  deriving DecidableEq, Repr

/-- A configuration word a bay's scrubber finds wrong (R355): LOC 0 to 3, the place within it (element and
number, gate with context and number, or site), and whether it corrects. -/
structure ConfigErr where
  loc : Nat
  idx : Nat
  correctable : Bool
  deriving DecidableEq, Repr, Inhabited

/-- A posted write to a launch or seed port: its size, whether it starts at the port, its bytes (R308). -/
structure PortWrite where
  size    : Nat
  aligned : Bool
  data    : BitVec 1280
  deriving DecidableEq, Repr, Inhabited

/-- A frame that reaches splice port `port`: header flit (R320), tile bytes, poison mark. -/
structure SpliceFrame where
  port : Nat
  hdr  : Flit
  data : List Byte
  poi  : Bool
  deriving DecidableEq, Repr, Inhabited

/-- An access over the Zahorn link by function `fn` (0 to 31 a partition's, 32 the physical function's, R308):
a read of `len` bytes, or a write of `data` (R316). -/
structure HostAccess where
  fn    : Nat
  write : Bool
  addr  : Nat
  len   : Nat
  data  : List Byte
  deriving DecidableEq, Repr, Inhabited

/-- How a driver ends a launch: with an FCMD on a fault (R353), or by its number (R327; log 91). -/
inductive EndCmd where
  | fault (cmd : Word)
  | launch (hseq : Nat)
  deriving DecidableEq, Repr

/-- One constructor for each row of the table: the slot instructions with their encoded fields, then the steps with
what they happen to. -/
inductive Instr where
  /-- ADD (R100): Adds ports A and B in TY, wrapping or saturating, and sends the sum to T0 and T1. -/
  | add (c : Common) (f : FormA)
  /-- SUB (R100): Subtracts port B from port A in TY, wrapping or saturating. -/
  | sub (c : Common) (f : FormA)
  /-- NEG (R100): Negates port A in TY, wrapping or saturating. -/
  | neg (c : Common) (f : FormA)
  /-- ABS (R100): Gives the absolute value of a signed operand, wrapping or saturating. -/
  | abs (c : Common) (f : FormA)
  /-- MIN (R100): Gives the lesser of ports A and B in TY. -/
  | min (c : Common) (f : FormA)
  /-- MAX (R100): Gives the greater of ports A and B in TY. -/
  | max (c : Common) (f : FormA)
  /-- MUL (R100): Multiplies ports A and B in TY, wrapping or saturating. -/
  | mul (c : Common) (f : FormA)
  /-- MULH (R100): Gives the high w bits of the exact 2w-bit product. -/
  | mulh (c : Common) (f : FormA)
  /-- MAD (R100): Computes a × b + c in TY, wrapping or saturating. -/
  | mad (c : Common) (f : FormA)
  /-- DIV (R101): Divides with truncation toward zero, with defined results for a zero divisor and for overflow. -/
  | div (c : Common) (f : FormA)
  /-- REM (R101): Gives the remainder of truncating division, with defined edge cases. -/
  | rem (c : Common) (f : FormA)
  /-- AND (R100): Gives the bitwise AND of ports A and B. -/
  | and (c : Common) (f : FormA)
  /-- OR (R100): Gives the bitwise OR of ports A and B. -/
  | or (c : Common) (f : FormA)
  /-- XOR (R100): Gives the bitwise XOR of ports A and B. -/
  | xor (c : Common) (f : FormA)
  /-- ANDN (R100): Gives a AND NOT b. -/
  | andn (c : Common) (f : FormA)
  /-- NOT (R100): Gives the bitwise complement of port A. -/
  | not (c : Common) (f : FormA)
  /-- SHL (R100): Shifts left by b mod w, wrapping or saturating. -/
  | shl (c : Common) (f : FormA)
  /-- SHR (R100): Shifts right logically by b mod w. -/
  | shr (c : Common) (f : FormA)
  /-- SAR (R100): Shifts right arithmetically by b mod w. -/
  | sar (c : Common) (f : FormA)
  /-- ROL (R100): Rotates left by b mod w. -/
  | rol (c : Common) (f : FormA)
  /-- CLZ (R100): Counts the leading zero bits. -/
  | clz (c : Common) (f : FormA)
  /-- CTZ (R100): Counts the trailing zero bits. -/
  | ctz (c : Common) (f : FormA)
  /-- POPC (R100): Counts the one bits. -/
  | popc (c : Common) (f : FormA)
  /-- BREV (R100): Reverses the bit order within w bits. -/
  | brev (c : Common) (f : FormA)
  /-- BFX (R100): Extracts a bit field and extends it. -/
  | bfx (c : Common) (f : FormA)
  /-- BFI (R100): Inserts the low bits of port B into a bit field of port A. -/
  | bfi (c : Common) (f : FormA)
  /-- SEL (R100): Selects port A or port B under the b1 at port C. -/
  | sel (c : Common) (f : FormA)
  /-- CEQ (R100): Gives the b1 result of a = b. -/
  | ceq (c : Common) (f : FormA)
  /-- CNE (R100): Gives the b1 result of a ≠ b. -/
  | cne (c : Common) (f : FormA)
  /-- CLT (R100): Gives the b1 result of a < b. -/
  | clt (c : Common) (f : FormA)
  /-- CLE (R100): Gives the b1 result of a ≤ b. -/
  | cle (c : Common) (f : FormA)
  /-- CVI (R106): Converts between integer types by R58. -/
  | cvi (c : Common) (f : FormA)
  /-- ADSC (R100): Computes a + b × 2^ℓ, wrapping or saturating. -/
  | adsc (c : Common) (f : FormA)
  /-- FADD (R102): Adds two floats with one rounding. -/
  | fadd (c : Common) (f : FormA)
  /-- FSUB (R102): Subtracts two floats with one rounding. -/
  | fsub (c : Common) (f : FormA)
  /-- FMUL (R102): Multiplies two floats with one rounding. -/
  | fmul (c : Common) (f : FormA)
  /-- FMA (R102): Computes a × b + c with one rounding. -/
  | fma (c : Common) (f : FormA)
  /-- FNMA (R102): Computes −(a × b) + c with one rounding. -/
  | fnma (c : Common) (f : FormA)
  /-- FMIN (R102): Selects the lesser float by R54. -/
  | fmin (c : Common) (f : FormA)
  /-- FMAX (R102): Selects the greater float by R54. -/
  | fmax (c : Common) (f : FormA)
  /-- FABS (R102): Clears the sign bit. -/
  | fabs (c : Common) (f : FormA)
  /-- FNEG (R102): Inverts the sign bit. -/
  | fneg (c : Common) (f : FormA)
  /-- FDIV (R103): Divides floats, correctly rounded. -/
  | fdiv (c : Common) (f : FormA)
  /-- FSQRT (R103): Takes the square root, correctly rounded. -/
  | fsqrt (c : Common) (f : FormA)
  /-- FRSQ (R103): Takes the reciprocal square root, correctly rounded. -/
  | frsq (c : Common) (f : FormA)
  /-- FRCP (R103): Takes the reciprocal, correctly rounded. -/
  | frcp (c : Common) (f : FormA)
  /-- FEXP2 (R103): Computes 2^a, correctly rounded. -/
  | fexp2 (c : Common) (f : FormA)
  /-- FLOG2 (R103): Computes log2 a, correctly rounded. -/
  | flog2 (c : Common) (f : FormA)
  /-- FCEQ (R102): Gives the b1 result of float equality. -/
  | fceq (c : Common) (f : FormA)
  /-- FCLT (R102): Gives the b1 result of float less-than. -/
  | fclt (c : Common) (f : FormA)
  /-- FCLE (R102): Gives the b1 result of float less-or-equal. -/
  | fcle (c : Common) (f : FormA)
  /-- FCUN (R102): Gives b1 true when either operand is NaN. -/
  | fcun (c : Common) (f : FormA)
  /-- FCVT (R106): Converts between float formats. -/
  | fcvt (c : Common) (f : FormA)
  /-- FCVI (R106): Converts a float to an integer type. -/
  | fcvi (c : Common) (f : FormA)
  /-- ICVF (R106): Converts an integer to a float format. -/
  | icvf (c : Common) (f : FormA)
  /-- FRINT (R102): Rounds a float to an integral value in RND. -/
  | frint (c : Common) (f : FormA)
  /-- FSCAL (R102): Computes a × 2^b with one rounding. -/
  | fscal (c : Common) (f : FormA)
  /-- FCLASS (R105): Returns a one-hot class of the float operand. -/
  | fclass (c : Common) (f : FormA)
  /-- FPK (R107): Converts f32 sources to a narrower format and packs them. -/
  | fpk (c : Common) (f : FormA)
  /-- LPERM (R108): Permutes the lanes of port A by the indices in port B. -/
  | lperm (c : Common) (f : FormA)
  /-- LBCAST (R108): Broadcasts a scalar into every lane. -/
  | lbcast (c : Common) (f : FormA)
  /-- LEXT (R108): Extracts one lane as a scalar. -/
  | lext (c : Common) (f : FormA)
  /-- LINS (R108): Replaces one lane with a scalar. -/
  | lins (c : Common) (f : FormA)
  /-- LRED (R109): Reduces the lanes by the index tree, or linearly under NBV 1, and sends the void bit. -/
  | lred (c : Common) (f : FormA)
  /-- LSCAN (R109): Delivers every prefix reduction of the lanes. -/
  | lscan (c : Common) (f : FormA)
  /-- LCMPR (R110): Compresses the masked lanes to a dense layout and sends their count. -/
  | lcmpr (c : Common) (f : FormA)
  /-- LEXPD (R110): Expands dense lanes into the masked positions and sends the count. -/
  | lexpd (c : Common) (f : FormA)
  /-- LROT (R108): Rotates the lanes. -/
  | lrot (c : Common) (f : FormA)
  /-- LZIP (R108): Interleaves half of the lanes of A and B. -/
  | lzip (c : Common) (f : FormA)
  /-- LUNZIP (R108): De-interleaves the lanes of A and B. -/
  | lunzip (c : Common) (f : FormA)
  /-- LQ4 (R111): Quantises blocks of 32 values into q4 codes and scale bytes. -/
  | lq4 (c : Common) (f : FormA)
  /-- MOV (R115): Copies port A to T0 and T1. -/
  | mov (c : Common) (f : FormA)
  /-- MOV4 (R115): Copies port A to T0, T1 and the four targets of a route word. -/
  | mov4 (c : Common) (f : FormA)
  /-- CONST (R115): On its trigger, sends a shifted immediate constant. -/
  | const (c : Common) (f : FormA)
  /-- STEER (R115): Sends port A to T0 or T1 under a b1, optionally nulling the other path. -/
  | steer (c : Common) (f : FormA)
  /-- GATE (R115): Passes port A to both targets when the b1 is 1, else nulls or sends nothing. -/
  | gate (c : Common) (f : FormA)
  /-- NULL (R115): On its trigger, sends a null to each target. -/
  | null (c : Common) (f : FormA)
  /-- SYNC (R115): Passes port A once its trigger ports have arrived. -/
  | sync (c : Common) (f : FormA)
  /-- COUNT (R121): Once lower instances of the strand are done, counts contributions to a key and sends the count and done bit, updating the record at commit. -/
  | count (c : Common) (f : FormA)
  /-- FOLD (R122): Once lower instances are done, adds a leaf to the key's index-tree record and sends the prefix and done bit, updating at commit. -/
  | fold (c : Common) (f : FormA)
  /-- INCF (R117): Reads its own tag and sends field i + 1, or the tag with it, faulting on overflow. -/
  | incf (c : Common) (f : FormA)
  /-- PUSHF (R117): Sends its own tag with a new innermost field holding b. -/
  | pushf (c : Common) (f : FormA)
  /-- POPF (R117): Sends its own tag with the last field removed. -/
  | popf (c : Common) (f : FormA)
  /-- SETF (R117): Sends its own tag with field i set to b. -/
  | setf (c : Common) (f : FormA)
  /-- GETF (R117): Sends field i of its own tag, or the whole tag. -/
  | getf (c : Common) (f : FormA)
  /-- ORDJ (R115): Joins order arcs and sends a b1 of value 1. -/
  | ordj (c : Common) (f : FormA)
  /-- EXIT (R125): Counts as the instance's exit and gives its tokens under the new tag to the gate until commit. -/
  | exit (c : Common) (f : FormX)
  /-- CALL (R126): Gives tokens under the new tag to the gate for delivery at commit, without counting as an exit. -/
  | call (c : Common) (f : FormX)
  /-- RET (R127): Counts as the exit and returns port A to the hitch named by the link value, or ends the strand when END is set. -/
  | ret (c : Common) (f : FormX)
  /-- DISCARD (R128): Makes its instance discarding, so that its effects are dropped at settlement. -/
  | discard (c : Common) (f : FormX)
  /-- KGET (R129): Returns a keep register, in SEQ mode after lower instances of the strand holding it in their mask are done. -/
  | kget (c : Common) (f : FormX)
  /-- KPUT (R129): Places a keep-register value, or its null, in the wave buffer for commit. -/
  | kput (c : Common) (f : FormX)
  /-- LD (R186): Checks the access, then at issue reads through its site, overlays lower wave entries and delivers the value and done. -/
  | ld (c : Common) (f : FormM)
  /-- ST (R187): Checks the access and places its bytes in the wave buffer, to take effect at commit. -/
  | st (c : Common) (f : FormM)
  /-- LDV (R186): Loads a 128-byte vector through its site, or the next ZSKIP units. -/
  | ldv (c : Common) (f : FormM)
  /-- STV (R187): Places a 128-byte vector store in the wave buffer. -/
  | stv (c : Common) (f : FormM)
  /-- LDG (R224): Issues a group load: checks members and policy and sends member reads. -/
  | ldg (c : Common) (f : FormM)
  /-- STG (R227): Issues a group store: checks members, performs release actions and sends member writes. -/
  | stg (c : Common) (f : FormM)
  /-- LDO (R188): Reads a write-once word at its home, queuing as a deferred reader when it is empty. -/
  | ldo (c : Common) (f : FormM)
  /-- STO (R188): Places a write-once store, checked and performed at the home at commit. -/
  | sto (c : Common) (f : FormM)
  /-- SFLUSH (R189): At commit writes back every DIRTY buffer of its site at SCOPE. -/
  | sflush (c : Common) (f : FormM)
  /-- SINV (R190): Empties the FULL buffers of its site and optionally delivers the start token. -/
  | sinv (c : Common) (f : FormM)
  /-- SREL (R190): Frees the earliest-filled buffer of a STREAM site, waiting for one if needed. -/
  | srel (c : Common) (f : FormM)
  /-- SDEPTH (R191): Delivers the site's live depth DEP. -/
  | sdepth (c : Common) (f : FormM)
  /-- FENCE (R192): Performs acquire actions after lower operations, release actions at commit, or both. -/
  | fence (c : Common) (f : FormM)
  /-- XLAT (R193): Translates a virtual address and delivers the physical address or a fault code without faulting. -/
  | xlat (c : Common) (f : FormM)
  /-- AADD (R195): Atomically adds at the home and returns the old value. -/
  | aadd (c : Common) (f : FormM)
  /-- AMIN (R195): Atomically keeps the lesser value at the home. -/
  | amin (c : Common) (f : FormM)
  /-- AMAX (R195): Atomically keeps the greater value at the home. -/
  | amax (c : Common) (f : FormM)
  /-- AAND (R195): Atomic bitwise AND at the home. -/
  | aand (c : Common) (f : FormM)
  /-- AOR (R195): Atomic bitwise OR at the home. -/
  | aor (c : Common) (f : FormM)
  /-- AXOR (R195): Atomic bitwise XOR at the home. -/
  | axor (c : Common) (f : FormM)
  /-- AXCH (R195): Atomic exchange at the home. -/
  | axch (c : Common) (f : FormM)
  /-- ACAS (R195): Atomic compare-and-swap at the home. -/
  | acas (c : Common) (f : FormM)
  /-- AINC (R195): Atomic wrapping increment bounded by b. -/
  | ainc (c : Common) (f : FormM)
  /-- ADEC (R195): Atomic wrapping decrement bounded by b. -/
  | adec (c : Common) (f : FormM)
  /-- FAADD (R195): Atomic f32 add at the home, rounded in ARND. -/
  | faadd (c : Common) (f : FormM)
  /-- MMA (R238): Sends a matrix multiply command with a block tag to a matrix port and pins the instance. -/
  | mma (c : Common) (f : FormI)
  /-- MMAQ (R238): Sends a q4 matrix multiply command to a matrix port. -/
  | mmaq (c : Common) (f : FormI)
  /-- ACLR (R238): Sends a command that clears an accumulator tile. -/
  | aclr (c : Common) (f : FormI)
  /-- ADRN (R238): Sends a drain command with a steering value. -/
  | adrn (c : Common) (f : FormI)
  /-- SCOPY (R238): Sends a streamer copy pipeline command. -/
  | scopy (c : Common) (f : FormI)
  /-- SGATH (R238): Sends a streamer gather pipeline command. -/
  | sgath (c : Common) (f : FormI)
  /-- SSCAT (R238): Sends a streamer scatter pipeline command. -/
  | sscat (c : Common) (f : FormI)
  /-- STRN (R238): Sends a streamer transpose pipeline command. -/
  | strn (c : Common) (f : FormI)
  /-- SLAY (R238): Sends a streamer layout-change pipeline command. -/
  | slay (c : Common) (f : FormI)
  /-- SPEER (R257): Sends a copy pipeline command with one end on a splice channel. -/
  | speer (c : Common) (f : FormI)
  /-- SSTOP (R258): Sends a stop command through the port's reserved slot. -/
  | sstop (c : Common) (f : FormI)
  /-- RNGSET (R266): Sets the range unit's current range and chunk size. -/
  | rngset (c : Common) (f : FormS)
  /-- RNGNEXT (R266): Takes the next chunk of the remaining range. -/
  | rngnext (c : Common) (f : FormS)
  /-- RNGSTEAL (R266): When the range is empty, sends a STEAL to a neighbour and delivers what is granted. -/
  | rngsteal (c : Common) (f : FormS)
  /-- SEED (R269): After device-scope release actions, sends a seed token to a launch's seed port or the held-seed store and returns a status. -/
  | seed (c : Common) (f : FormS)
  /-- TRAP (R270): Freezes its instance and raises the TRAP fault with its code and value. -/
  | trap (c : Common) (f : FormS)
  /-- BRK (R271): Holds its set and requests a precise stop, or acts as mov when BRKEN is 0. -/
  | brk (c : Common) (f : FormS)
  /-- SRD (R274): Reads a system register to T0 and T1. -/
  | srd (c : Common) (f : FormS)
  /-- SWR (R274): Writes a system register when it fires and sends done. -/
  | swr (c : Common) (f : FormS)
  /-- MARK (R272): Writes a MARK record into the trace stream and passes its value on. -/
  | mark (c : Common) (f : FormS)
  /-- HALT (R273): Holds a request to end its own launch, applied when its instance commits. -/
  | halt (c : Common) (f : FormS)
  /-- PROBE (R274): Sends a PROBE packet to a region position and delivers the reply. -/
  | probe (c : Common) (f : FormS)
  /-- TOKEN_ARRIVE (R17): A token reaches a slot port and waits in a frame entry or completes a matched set for the issue queue. -/
  | tokenArrive (m : TokMsg)
  /-- WAITHIST_SPILL (R399): A histogram counter about to pass 0xFFFF spills all eight counters of its slot by aadd and clears them. -/
  | waithistSpill (bay ctx el slot : Nat)
  /-- GATE_ENTRY_TOKEN (R28): A token reaches a hitch entry and goes to the live instance of its tag, raises a repeated-entry fault, or waits in the entry buffer. -/
  | gateEntryToken (m : EntMsg)
  /-- ADMIT (R29): The gate takes the lowest pending tag once LIM, an IX and every resource allow, writing the tag and releasing its entry tokens. -/
  | admitTag (bay gate ctx hnum : Nat)
  /-- SETTLE (R31): An instance's in-flight count reaches zero; waiting operands are cleared and it is discarded, made ready, or frozen. -/
  | settle (bay gate ix : Nat)
  /-- COMMIT (R32): A ready instance whose lower tags are done applies its wave entries, delivers held tokens and frees its resources. -/
  | commit (bay gate ix : Nat)
  /-- LIM_UPDATE (R37): After 64 counted replies the gate moves LIM one step toward the latency-derived target. -/
  | limUpdate (bay gate ctx hnum : Nat)
  /-- QUIESCENCE_WAVE (R39): The origin starts a quiescence wave, sending QUERY to every position, when a bay reports a pending admission. -/
  | quiescenceWave (part hseq : Nat)
  /-- QUERY (R357): A bay receives QUERY and answers QREPLY with its idle, pending, frozen and fire-sum state. -/
  | query (bay : Nat) (p : Packet)
  /-- QREPLY (R357): The origin receives a QREPLY and, when the wave is whole, judges quiescence or a stalled cut. -/
  | qreply (bay : Nat) (p : Packet)
  /-- LAUNCH_COMPLETE (R43): Once no token is outstanding, commands are retired, store sites flushed and seeds accepted, the launch completes and its record is written. -/
  | launchComplete (part hseq : Nat)
  /-- PACKET_ARRIVE (R140): A packet reaches a stop input port; errors are corrected, poisoned or cause a drop, and packets for the bay are ejected. -/
  | packetArrive (at_ : LinkEnd) (p : Packet) (errs : List FlitErr)
  /-- PACKET_SEND (R143): A stop chooses a VC with room for the whole packet, reserves its slots, marks congested requests and sends the header. -/
  | packetSend (out : LinkEnd)
  /-- CREDIT_RETURN (R144): A credit returns to the sender and restores one unit of its count. -/
  | creditReturn (dst : LinkEnd) (cls : CreditClass)
  /-- BOUNDARY_TOKEN_SEND (R149): The boundary element sends a queued control token across the bridge. -/
  | boundaryTokenSend (bay : Nat)
  /-- MREQ (R182): A memory request reaches its home unit and is performed there in arrival order per granule. -/
  | mreq (home : Nat) (p : Packet)
  /-- MREP (R183): A memory reply reaches its requester and delivers its value, acknowledgement or fault. -/
  | mrep (bay : Nat) (p : Packet)
  /-- FILL_DATA_ARRIVE (R164): Fill data arrives; sibling writes overlay it, the buffer becomes FULL and waiting accesses are served. -/
  | fillDataArrive (bay site buf : Nat) (p : Packet)
  /-- STREAM_FETCH (R167): A STREAM or ZSKIP site fetches the next pattern line once its next buffer is EMPTY and DEP allows. -/
  | streamFetch (bay site : Nat)
  /-- DEP_UPDATE (R174): After 64 fills the node moves DEP one step toward the latency-derived target. -/
  | depUpdate (bay site : Nat)
  /-- GREAD (R231): A member home receives a group read and answers with a level-0 GPART. -/
  | gread (home : Nat) (p : Packet)
  /-- GPART (R232): A partial reaches a stop's combine unit or the requester's reduction buffer and is merged when its sibling is present. -/
  | gpart (at_ : PartPlace) (p : Packet)
  /-- GWRITE (R231): A member home receives a group write, performs it and answers GACK. -/
  | gwrite (home : Nat) (p : Packet)
  /-- GACK (R231): The requester receives a member write acknowledgement. -/
  | gack (bay : Nat) (p : Packet)
  /-- LDG_RESULT (R224): When every member read is answered, the ldg applies the policy, reduces by the tree and delivers result and status. -/
  | ldgResult (bay buf : Nat)
  /-- STG_DONE (R227): When every member write is acknowledged, the stg sends its done and status tokens. -/
  | stgDone (bay buf : Nat)
  /-- ISLAND_COMMAND_ACCEPT (R235): A command token takes a free slot of its island port. -/
  | islandCommandAccept (bay isl port : Nat)
  /-- MMA_EXECUTE (R243): At the head of its port, once its feed tiles of the block tag are present, the island accumulates into the tile and frees the tiles. -/
  | mmaExecute (bay port : Nat)
  /-- ACLR_EXECUTE (R244): At the head of its port the island clears the accumulator tile. -/
  | aclrExecute (bay port : Nat)
  /-- DRAIN_EXECUTE (R246): At the head of its port the island converts the tile and sends the image to the steered route. -/
  | drainExecute (bay port : Nat)
  /-- PIPELINE_START (R250): At the head of its port a pipeline binds its destination, delivering a start token or waiting for the feed. -/
  | pipelineStart (bay isl port : Nat)
  /-- TILE_READ (R250): Holding notice t, the streamer reads the source lines of tile t. -/
  | tileRead (bay isl port : Nat)
  /-- TILE_ARRIVE (R250): A tile lands in its destination and the streamer sends its tile token. -/
  | tileArrive (bay isl port : Nat)
  /-- PIPELINE_END (R250): After the last tile arrives, the streamer sends done and retires the command. -/
  | pipelineEnd (bay isl port : Nat)
  /-- INDEX_LIST_READ (R252): A gather or scatter reads its whole index list once at the head of its port. -/
  | indexListRead (bay isl port : Nat)
  /-- SSTOP_EXECUTE (R258): sstop ends every pipeline its port accepted before it, then completes. -/
  | sstopExecute (bay isl port : Nat)
  /-- SPLICE_TILE (R320): A TILE frame arrives at a splice port and the stream port writes it. -/
  | spliceTile (f : SpliceFrame)
  /-- SPLICE_NOTICE (R320): A NOTICE frame arrives and lets the sender move the next tile. -/
  | spliceNotice (f : SpliceFrame)
  /-- SPLICE_READ (R320): A READ frame arrives and the stream port reads the tile in its own space. -/
  | spliceRead (f : SpliceFrame)
  /-- SPLICE_DONE (R320): A DONE frame arrives, confirming the tiles performed at the far end. -/
  | spliceDone (f : SpliceFrame)
  /-- STEAL (R266): A victim's range unit receives a STEAL, gives away the upper half and answers GRANT. -/
  | steal (bay : Nat) (p : Packet)
  /-- GRANT (R266): A thief's range unit receives a GRANT and replaces its range. -/
  | grant (bay : Nat) (p : Packet)
  /-- PROBE_REQUEST (R274): A far bay receives PROBE, reads the register indivisibly and answers PREPLY. -/
  | probeRequest (bay : Nat) (p : Packet)
  /-- PREPLY (R274): The prober receives PREPLY and delivers the value. -/
  | preply (bay : Nat) (p : Packet)
  /-- LAUNCH_RECORD_WRITE (R315): A launch-port write is sequenced, checked and queued or refused. -/
  | launchRecordWrite (part : Nat) (w : PortWrite)
  /-- PRIORITY_CHANGE (R332): A launch record with CFG 0xFFFF_FFFF changes its target's priority. -/
  | priorityChange (part : Nat) (w : PortWrite)
  /-- SEED_WRITE (R317): A seed-port write is sequenced, checked and delivered or held. -/
  | seedWrite (part port : Nat) (w : PortWrite)
  /-- LINK_DOWN (R309): The Zahorn link goes down and every write in flight is lost. -/
  | linkDown
  /-- LINK_UP (R309): The link returns; LINK_LOSS is logged, LOSSCNT and EPOCH rise, and unperformed records are written again. -/
  | linkUp
  /-- RECORD_WRITE (R347): A created record is written to its ring once the ring has room. -/
  | recordWrite (part dseq : Nat)
  /-- SPLICE_BINDING_WRITE (R319): A channel binding register write binds or unbinds a channel, which becomes UP when both ends name each other. -/
  | spliceBindingWrite (port chan : Nat) (v : Word)
  /-- LOAD (R323): An LDCMD LOAD reads the object, translates it if needed, checks it and installs it into a context. -/
  | load (part : Nat) (cmd : Word)
  /-- LOAD_COMPLETE (R323): A load finishes and LDSTAT reports its status. -/
  | loadComplete (part : Nat)
  /-- UNLOAD (R323): An LDCMD UNLOAD frees the context on every bay of the partition. -/
  | unload (part : Nat) (cmd : Word)
  /-- SELECT_LAUNCH (R328): With no launch selected, the distributor selects the first eligible READY launch of the highest priority. -/
  | selectLaunch (part : Nat)
  /-- BIND (R329): The selected launch binds to the first fitting rectangle within quota, restoring its image, or marks lower launches for pre-emption. -/
  | bind (part : Nat)
  /-- CFG (R357): A bay receives CFG once its tables are installed and answers CFGACK. -/
  | cfg (bay : Nat) (p : Packet)
  /-- CFGACK (R357): The origin receives CFGACK; when all are in, the launch is BOUND and held seeds are released. -/
  | cfgack (bay : Nat) (p : Packet)
  /-- TURN_NOTICE (R331): A bay sends a turn notice to the origin after every 2^24 fires of the launch. -/
  | turnNotice (bay ctx : Nat)
  /-- TURN (R331): The origin receives a TURN packet; at 256 the turn ends and equal-priority marking is decided. -/
  | turn (bay : Nat) (p : Packet)
  /-- MARKER (R360): A bay receives a cut marker; on the first it stops and counts channel tokens, and ingress ports stop. -/
  | marker (bay : Nat) (p : Packet)
  /-- SNAPSHOT (R360): Once pinned instances and outstanding work are done, the bay saves its state and sends markers with SENT. -/
  | snapshot (bay ctx : Nat)
  /-- BAY_SAVE_COMPLETE (R360): When every channel's count matches and returned replies are taken back, the bay sends SAVED. -/
  | baySaveComplete (bay ctx : Nat)
  /-- SAVED (R360): The origin receives SAVED; when all are in, it sends LSAVE. -/
  | saved (bay : Nat) (p : Packet)
  /-- LSAVE (R360): A bay receives LSAVE, writes its loft and deferred-reader parts and answers LSAVED. -/
  | lsave (bay : Nat) (p : Packet)
  /-- LSAVED (R360): The origin receives LSAVED; when all are in, the image is complete and the launch READY. -/
  | lsaved (bay : Nat) (p : Packet)
  /-- CANCEL (R362): A bay receives CANCEL, places recorded tokens, answers readers and restarts firing. -/
  | cancel (bay : Nat) (p : Packet)
  /-- FCMD_RESUME (R354): FCMD RESUME ends a fault and retries or continues the frozen work. -/
  | fcmdResume (part : Nat) (cmd : Word)
  /-- FCMD_DISCARD (R354): FCMD DISCARD drops an unpinned frozen instance. -/
  | fcmdDiscard (part : Nat) (cmd : Word)
  /-- FCMD_END (R354): FCMD END ends the launch with status ENDED. The driver's own end of a launch (R327) is the
  other form of `cmd`: the spec gives no register for it (log 91). -/
  | fcmdEnd (part : Nat) (cmd : EndCmd)
  /-- FCMD_ZFILL (R353): FCMD ZFILL resumes a GATHER_INDEX fault by zero-filling the row. -/
  | fcmdZfill (part : Nat) (cmd : Word)
  /-- TRANSLATE (R341): A translation node walks the tables, sets A and D by compare-exchange, parks on M and fills the TLB. -/
  | translate (bay id : Nat)
  /-- SHOOTDOWN_INVAL (R343): SHOOTCMD INVAL starts removing TLB entries of the range. -/
  | shootdownInval (part : Nat) (cmd : Word)
  /-- SHOOTDOWN_FLUSH (R343): SHOOTCMD FLUSH also writes back and empties buffers of the range. -/
  | shootdownFlush (part : Nat) (cmd : Word)
  /-- SHOOTDOWN_MIGRATE (R343): SHOOTCMD MIGRATE also writes back DIRTY buffers of the range. -/
  | shootdownMigrate (part : Nat) (cmd : Word)
  /-- SHOOTDOWN_COMPLETE (R343): When every bay is done, SHOOTDONE takes SSEQ and parked walks restart. -/
  | shootdownComplete (part : Nat)
  /-- CONFIG_SCRUB (R355): Every 2^24 cycles a bay scrubs configuration words, poisoning uncorrectable ones. -/
  | configScrub (bay : Nat) (found : List ConfigErr)
  /-- LOFT_SCRUB (R381): The loft scrubber reads and corrects each slice word every 2^32 cycles. -/
  | loftScrub (bay off : Nat) (err : UnitErr)
  /-- LPDDR_SCRUB (R381): Each LPDDR controller reads and corrects each sector every 8 hours. -/
  | lpddrScrub (addr : Nat) (err : UnitErr)
  /-- ECC_CORRECTED_INTERVAL (R382): At the end of a 2^24-cycle interval the summed corrections at a location are logged. -/
  | eccCorrectedInterval (loc idx : Nat)
  /-- PCTL_WRITE (R372): A PCTL write creates or tears down a partition when allowed. -/
  | pctlWrite (part : Nat) (v : Word)
  /-- BAYS_WRITE (R372): A BAYS write changes the partition's bays when allowed, zeroising bays of an enclave. -/
  | baysWrite (part k : Nat) (v : Word)
  /-- ZEROISE_COMPLETE (R374): When every affected bay has finished, ZBUSY clears. -/
  | zeroiseComplete (part : Nat)
  /-- SCOPEPOL_WRITE (R373): A SCOPEPOL write sets the scope policy for later launches, refused for an illegal MAXS. -/
  | scopepolWrite (part : Nat) (v : Word)
  /-- DBGCTL_WRITE (R373): A DBGCTL write sets BRKEN, refused in an enclave without VALBRK. -/
  | dbgctlWrite (part : Nat) (v : Word)
  /-- UNSEAL (R376): A SEALCMD write decapsulates, decrypts and writes a sealed blob, checking its digest. -/
  | unsealBlob (part : Nat) (v : Word)
  /-- ATTEST (R378): An ATTADDR write reads a nonce, snapshots, signs and writes back a report. -/
  | attest (part : Nat) (v : Word)
  /-- BOOT (R378): Power-on boot measures and checks firmware and zeroes on-die storage. -/
  | boot
  /-- TEMP_SAMPLE (R384): A new temperature reading may fire or re-arm the thermal alarm. -/
  | tempSample (bay : Nat) (reading : BitVec 32)
  /-- VOLTAGE_DROOP (R384): A droop below DROOPMV raises DROOPCNT and may log DROOP_ALARM. -/
  | voltageDroop (bay depth : Nat)
  /-- PROCESS_INTERVAL (R384): Each 2^16-cycle interval updates PROCNOW and may log PROCESS_ALARM. -/
  | processInterval (bay : Nat) (count : BitVec 32)
  /-- DIEOP_WRITE (R385): A DIEOP write starts a change of the die's operating point. -/
  | dieopWrite (die : Nat) (v : Word)
  /-- OPERATING_POINT_SETTLED (R385): The die finishes its change of operating point and BUSY clears. -/
  | operatingPointSettled (die : Nat)
  /-- PRECISE_STOP_COMPLETE (R390): When all instances but the break instance are free or frozen, the region freezes and BREAK is queued. -/
  | preciseStopComplete (part hseq : Nat)
  /-- TRACE_SESSION_OPEN (R392): Writing TBCTL OPEN = 1 opens a trace session and BEGIN records are written. -/
  | traceSessionOpen (part ctx : Nat) (v : Word)
  /-- TRACE_SESSION_CLOSE (R392): Writing OPEN = 0 closes the session with an END record. -/
  | traceSessionClose (part ctx : Nat) (v : Word)
  /-- TRACE_RECORD_WRITE (R395): The origin's trace writer appends an arriving record in idle cycles, padding or losing as needed. -/
  | traceRecordWrite (part ctx : Nat)
  /-- CQRESET (R397): A CQRESET write ends the masked contexts' launches, drops their seeds and ends their faults. -/
  | cqreset (part : Nat) (v : Word)
  /-- TRACE_RESET_END (R397): After the region's trace queues drain, the writer writes END with RESET and closes the session. -/
  | traceResetEnd (part ctx : Nat)
  /-- REGISTER_WRITE (R347): A write to a register with no behaviour of its own stores its value, dropped if a zero field is set. -/
  | registerWrite (off : Nat) (v : Word)
  /-- SPLICE_LINK_DOWN (R319): A splice port's link goes down, its channels become LOST and LINK_LOSS is recorded. -/
  | spliceLinkDown (port : Nat)
  /-- SPLICE_LINK_UP (R319): A splice port's link comes back and its LOST channels return to WAITING. -/
  | spliceLinkUp (port : Nat)
  /-- BRIDGE_LINK_DOWN (R222): A die-to-die bridge raises LINK_LOSS, making members on the other die ABSENT. -/
  | bridgeLinkDown (col : Nat)
  /-- HOST_MEMORY_ACCESS (R316): A host or physical-function read or write of device memory arrives over the Zahorn link and is performed at its home. -/
  | hostMemoryAccess (a : HostAccess)
  /-- MARK_OFFLINE (R324): The driver marks a bay offline or back online, changing binding fit and making member accesses answer ABSENT. -/
  | markOffline (bay : Nat) (off : Bool)
  deriving DecidableEq, Repr

end Sys2Proof
end

