-- ==== Sys2Proof/WellFormed.lean ====
section
/-!
DEFINITION. Sys2Proof/WellFormed.lean: what the loader checks of one slot word by itself (R74, R75, R77, R79 to R85
and the member tables of the instruction chapters). The checks that look at the hitch, the span, the sites, the
recipes or the region stand with the loader in Sys2Proof/Machine/LoadCheck.lean.
-/
namespace Sys2Proof

/-- The number of a TY code (R75). -/
def Ty.code : Ty → BitVec 4
  | .s8 => 0x0 | .n8 => 0x1 | .s16 => 0x2 | .n16 => 0x3 | .s32 => 0x4 | .n32 => 0x5 | .s64 => 0x6 | .n64 => 0x7
  | .f16 => 0x8 | .bf16 => 0x9 | .f32 => 0xA | .e4m3 => 0xB | .e5m2 => 0xC | .q4 => 0xD | .b1 => 0xE | .v => 0xF

/-- The signed integer types (R47). -/
def Ty.signed : Ty → Bool
  | .s8 | .s16 | .s32 | .s64 => true
  | _ => false

/-- s8 to n64 (R47). -/
def Ty.isSized : Ty → Bool
  | .s8 | .n8 | .s16 | .n16 | .s32 | .n32 | .s64 | .n64 => true
  | _ => false

/-- s8 to n32. -/
def Ty.isTo32 : Ty → Bool
  | .s8 | .n8 | .s16 | .n16 | .s32 | .n32 => true
  | _ => false

/-- f16, bf16, f32: the types of the float family (R57). -/
def Ty.isFloat : Ty → Bool
  | .f16 | .bf16 | .f32 => true
  | _ => false

/-- The five floating-point formats (R51). -/
def Ty.isFmt : Ty → Bool
  | .f16 | .bf16 | .f32 | .e4m3 | .e5m2 => true
  | _ => false

/-- s64 and n64, which have no vector lane layout (R98). -/
def Ty.is64 : Ty → Bool
  | .s64 | .n64 => true
  | _ => false

/-- Type set INT (R100). -/
def Ty.inInt (t : Ty) : Bool := t.isSized || t == .v

/-- Type set INT+ (R100). -/
def Ty.inIntPlus (t : Ty) : Bool := t.inInt || t == .b1

/-- Type set LANE (R108). -/
def Ty.inLane (t : Ty) : Bool := t.isTo32 || t.isFmt || t == .v

/-- Type set LDT (R185). -/
def Ty.inLdt (t : Ty) : Bool := t != .q4 && t != .b1

/-- The element types of a group descriptor (R219). -/
def Ty.inEty (t : Ty) : Bool := t.isTo32 || t.isFmt

/-- Width in bits of a type in a lane or a scalar; v is n64 as a scalar and n32 in a lane (R47, R50, R51, R59). -/
def Ty.width (t : Ty) (vector : Bool) : Nat :=
  match t with
  | .s8 | .n8 | .e4m3 | .e5m2 => 8
  | .s16 | .n16 | .f16 | .bf16 => 16
  | .s32 | .n32 | .f32 => 32
  | .s64 | .n64 => 64
  | .q4 => 4
  | .b1 => 1
  | .v => if vector then 32 else 64

/-- Number of lanes of a vector token of this type (R63, R98). -/
def Ty.lanes (t : Ty) : Nat := 1024 / t.width true

/-- Access size in bytes of a scalar access (R75); q4 and b1 have none. -/
def Ty.size : Ty → Nat
  | .s8 | .n8 | .e4m3 | .e5m2 => 1
  | .s16 | .n16 | .f16 | .bf16 => 2
  | .s32 | .n32 | .f32 => 4
  | .s64 | .n64 | .v => 8
  | .q4 | .b1 => 0

/-- "No target" (R76). -/
def noTarget : Target := 0x7FF#11

/-- Both target fields unused (R76). -/
def Common.noTargets (c : Common) : Bool := c.t0 == noTarget && c.t1 == noTarget

/-- W = 0 and TY ignored (R75). -/
def Common.plain (c : Common) : Bool := !c.w && c.ty == .v

/-- The zero bits R80 asks of an immediate of this type. -/
def immOk (t : Ty) (imm : BitVec 16) : Bool :=
  match t with
  | .e4m3 | .e5m2 => imm.toNat < 256
  | .b1 => imm.toNat < 2
  | .q4 => false
  | _ => true

/-- Port B of Form A: IM only where it is allowed, IMM16 zero without it, the immediate as R80 asks. -/
def FormA.immWf (f : FormA) (t : Ty) (allowed : Bool) : Bool :=
  if f.im then allowed && immOk t f.imm16 else f.imm16 == 0

/-- No rounding and no saturation field (R79). -/
def FormA.noRound (f : FormA) : Bool := f.rnd == .rn && !f.sat

/-- A member of the integer family whose AUX7 is zero (R100). -/
def intWf (c : Common) (f : FormA) (types : Ty → Bool) (im sat : Bool) : Bool :=
  types c.ty && f.rnd == .rn && (sat || !f.sat) && f.aux7 == 0 && f.immWf c.ty im && !(c.w && c.ty.is64)

/-- bfx and bfi (R100): ℓ in AUX7, k in IMM16. -/
def fieldWf (c : Common) (f : FormA) : Bool :=
  c.ty.inInt && f.noRound && !f.im && !(c.w && c.ty.is64) &&
  f.aux7.toNat < 64 && 0 < f.imm16.toNat && f.imm16.toNat < 128 &&
  f.aux7.toNat + f.imm16.toNat ≤ c.ty.width c.w

/-- adsc (R100): ℓ in AUX7. -/
def adscWf (c : Common) (f : FormA) : Bool :=
  c.ty.inInt && f.rnd == .rn && f.aux7.toNat < c.ty.width c.w && f.aux7.toNat < 64 &&
  f.immWf c.ty true && !(c.w && c.ty.is64)

/-- The type a code names (R75). -/
def Ty.ofCode (n : BitVec 4) : Ty :=
  match n.toNat with
  | 0 => .s8 | 1 => .n8 | 2 => .s16 | 3 => .n16 | 4 => .s32 | 5 => .n32 | 6 => .s64 | 7 => .n64
  | 8 => .f16 | 9 => .bf16 | 10 => .f32 | 11 => .e4m3 | 12 => .e5m2 | 13 => .q4 | 14 => .b1 | _ => .v

/-- The source type of a conversion, AUX7[3:0] (R106). -/
def FormA.srcTy (f : FormA) : Ty := Ty.ofCode (f.aux7.extractLsb' 0 4)

/-- PART, AUX7[6:4] (R106). -/
def FormA.part (f : FormA) : Nat := (f.aux7.extractLsb' 4 3).toNat

/-- A conversion (R106): the sets of source and destination types, and PART below the ratio of the widths. -/
def cvtWf (c : Common) (f : FormA) (src dst : Ty → Bool) (rnd sat : Bool) : Bool :=
  src f.srcTy && dst c.ty && (rnd || f.rnd == .rn) && (sat || !f.sat) && !f.im && f.imm16 == 0 &&
  (if c.w then
     !f.srcTy.is64 && !c.ty.is64 &&
     f.part < max (f.srcTy.width true) (c.ty.width true) / min (f.srcTy.width true) (c.ty.width true)
   else f.part == 0)

/-- A member of the float family other than the conversions and fpk (R102). -/
def fltWf (c : Common) (f : FormA) (im rnd sat : Bool) : Bool :=
  c.ty.isFloat && (rnd || f.rnd == .rn) && (sat || !f.sat) && f.aux7 == 0 && f.immWf c.ty im

/-- fpk (R107). -/
def fpkWf (c : Common) (f : FormA) : Bool :=
  (c.ty == .f16 || c.ty == .bf16 || c.ty == .e4m3 || c.ty == .e5m2) && !f.im && f.imm16 == 0 &&
  (if c.w && c.ty.width true == 8 then f.aux7.toNat < 2 else f.aux7 == 0)

/-- A lane instruction that neither rounds nor takes an immediate operand (R108): `aux` bounds AUX7. -/
def laneWf (c : Common) (f : FormA) (types : Ty → Bool) (aux : Nat) : Bool :=
  c.w && types c.ty && f.noRound && !f.im && f.aux7.toNat < aux

/-- lext and lins name a lane in IMM16 (R108). -/
def laneIdxWf (c : Common) (f : FormA) : Bool :=
  laneWf c f (fun t => t.inLane || t == .q4 || t == .b1) 1 && f.imm16.toNat < c.ty.lanes

/-- OPSEL (R109). -/
def FormA.opsel (f : FormA) : Nat := (f.aux7.extractLsb' 0 3).toNat

/-- MSK (R109, R122). -/
def FormA.msk (f : FormA) : Bool := f.aux7.getLsbD 3

/-- WIDE (R109). -/
def FormA.wide (f : FormA) : Bool := f.aux7.getLsbD 4

/-- The types an operation of R109 takes, and the rounding and saturation it may name. `long` adds s64 and n64 (R122). -/
def reduceWf (t : Ty) (f : FormA) (long : Bool) : Bool :=
  let ints := t.isTo32 || (long && t.is64)
  (if f.opsel < 3 then ints || t.isFloat
   else if f.opsel < 6 then ints || t == .v
   else false) &&
  (f.rnd == .rn || (f.opsel == 0 && t.isFloat)) &&
  (!f.sat || (f.opsel == 0 && ints))

/-- lred and lscan (R109). -/
def lredWf (c : Common) (f : FormA) (wide : Bool) : Bool :=
  c.w && !f.im && f.imm16 == 0 && f.aux7.toNat < 32 && reduceWf c.ty f false &&
  (!f.wide || (wide && c.ty != .f32))

/-- lq4 (R111). -/
def lq4Wf (c : Common) (f : FormA) : Bool :=
  c.w && c.ty.isFloat && !f.sat && !f.im && f.imm16 == 0 && f.aux7.toNat < 64 &&
  (c.ty == .f32 || (f.aux7.extractLsb' 3 3).toNat ≤ 6)

/-- A member of the token family that ignores TY (R114, R115). -/
def tokWf (c : Common) (f : FormA) (vector : Bool) (aux : Nat) : Bool :=
  c.ty == .v && (vector || !c.w) && f.noRound && !f.im && f.imm16 == 0 && f.aux7.toNat < aux

/-- const (R115). -/
def constWf (c : Common) (f : FormA) : Bool :=
  c.ty != .q4 && !(c.w && c.ty.is64) && f.noRound && !f.im && immOk c.ty f.imm16 && f.aux7.toNat < 4 &&
  (f.aux7 == 0 || c.ty.inInt)

/-- FIELD and WHOLE of the tag instructions (R117). -/
def FormA.tagField (f : FormA) : Nat := (f.aux7.extractLsb' 0 3).toNat
def FormA.whole (f : FormA) : Bool := f.aux7.getLsbD 3

/-- getf and incf (R117); no layout has an eighth field (R12). -/
def tagReadWf (c : Common) (f : FormA) (getf : Bool) : Bool :=
  !c.w && f.noRound && !f.im && f.imm16 == 0 && f.aux7.toNat < 16 && f.tagField < 7 &&
  c.ty == (if f.whole then .n64 else .n32) && !(getf && f.whole && f.tagField != 0)

/-- pushf, popf and setf (R117). -/
def tagBuildWf (c : Common) (f : FormA) (im : Bool) (aux : Nat) : Bool :=
  !c.w && c.ty == .n64 && f.noRound && f.immWf .n64 im && f.aux7.toNat < aux

/-- count (R121). -/
def countWf (c : Common) (f : FormA) : Bool :=
  !c.w && c.ty == .n32 && f.noRound && f.aux7 == 0 && f.immWf .n32 true

/-- fold (R122); n is IMM16 itself when IM = 1. -/
def foldWf (c : Common) (f : FormA) : Bool :=
  !c.w && f.aux7.toNat < 16 && (f.im || f.imm16 == 0) && reduceWf c.ty f true

/-- exit and call (R83, R123). -/
def exitWf (c : Common) (f : FormX) (exn : Bool) : Bool :=
  c.plain && c.noTargets && (f.top == .inc || f.top == .set || f.field == 0) && f.field.toNat < 7 && (exn || f.exn == 0)

/-- ret (R127). -/
def retWf (c : Common) (f : FormX) : Bool :=
  c.plain && c.noTargets && f.pos == 0 && f.gate == 0 && f.hnum == 0 && f.entry == 0 && f.field == 0 &&
  (f.top == .pop || f.top == .popinc)

/-- discard (R128), kget and kput (R129): `keep` says HID[5:0] names a register, `targets` that T0 and T1 are used. -/
def keepWf (c : Common) (f : FormX) (keep targets : Bool) : Bool :=
  c.plain && (targets || c.noTargets) && f.pos == 0 && f.gate.toNat < 2 && (keep || (f.gate == 0 && f.hnum == 0)) &&
  f.entry == 0 && f.field == 0 && f.exn == 0 && f.top == .same

/-- SCOPE is zero with plain order (R82). -/
def FormM.scopeOk (f : FormM) : Bool := f.ord != .plain || f.scope == .inst

/-- ld, ldv, ldo and st, stv, sto (R185). -/
def accessWf (c : Common) (f : FormM) (vector store : Bool) : Bool :=
  c.w == vector && (if vector then c.ty != .b1 else c.ty.inLdt) && !f.nf && f.scopeOk &&
  (f.ord == .plain || f.ord == (if store then MemOrd.rel else MemOrd.acq))

/-- ldg and stg (R223). -/
def groupWf (c : Common) (f : FormM) (store : Bool) : Bool :=
  c.ty.inEty && !f.nf && f.site == 0 && f.scopeOk &&
  (f.ord == .plain || (f.ord == (if store then MemOrd.rel else MemOrd.acq) && f.scope != .inst && f.scope != .bay))

/-- sflush, sinv and srel (R185): `flags` bounds OFF8, `named` lets SCOPE be named. -/
def siteWf (c : Common) (f : FormM) (flags : Nat) (named : Bool) : Bool :=
  c.plain && f.ord == .plain && (named || f.scope == .inst) && !f.nf && f.lo8.toNat < flags

/-- ARND and XSAT, bits 7:6 and 5 of an atomic (R81). -/
def FormM.arnd (f : FormM) : BitVec 2 := f.lo8.extractLsb' 6 2
def FormM.xsat (f : FormM) : Bool := f.lo8.getLsbD 5

/-- An atomic (R195). -/
def atomWf (c : Common) (f : FormM) (types : Ty → Bool) (rnd sat : Bool) : Bool :=
  !c.w && types c.ty && (rnd || f.arnd == 0) && (sat || !f.xsat)

/-- An island command (R84, R238): the islands that take it, whether it names a recipe, its AUX11. -/
def islandWf (c : Common) (f : FormI) (matrix rcp aux : Bool) : Bool :=
  c.plain && f.iport.toNat < 4 && ((f.isl == .mx) == matrix) && (rcp || f.rcp == 0) && aux

/-- The system registers srd reads (R274). -/
def sregRead (n : Nat) : Bool :=
  n < 8 || n == 0x10 || n == 0x11 || (0x20 ≤ n && n < 0x23) || (0x30 ≤ n && n < 0x33) || n == 0x40 || n == 0x41 ||
  n == 0x50 || n == 0x51 || (0x60 ≤ n && n < 0x68)

/-- The system registers swr writes (R274). -/
def sregWrite (n : Nat) : Bool := n == 0x22 || (0x60 ≤ n && n < 0x68)

/-- The system registers probe reads (R274). -/
def sregProbe (n : Nat) : Bool :=
  n == 0x20 || n == 0x21 || n == 0x30 || n == 0x31 || n == 0x40 || n == 0x41 || (0x60 ≤ n && n < 0x68)

/-- A work or system instruction with W = 0 and TY = 0xF (R263). -/
def sysWf (c : Common) (sreg imm : Bool) : Bool := c.plain && sreg && imm

/-- The types of an integer atomic (R195). -/
def atomInt (t : Ty) : Bool := t == .s32 || t == .n32 || t == .s64 || t == .n64
def atomNat (t : Ty) : Bool := t == .n32 || t == .n64
def atomRaw (t : Ty) : Bool := t == .n32 || t == .n64 || t == .v

/-- The word of a slot instruction is one the loader accepts by itself. A step of the machine has no word. -/
def Instr.wf : Instr → Bool
  | .add c f | .sub c f | .mul c f | .shl c f => intWf c f Ty.inInt true true
  | .neg c f => intWf c f Ty.inInt false true
  | .abs c f => intWf c f (fun t => t.isSized && t.signed) false true
  | .min c f | .max c f | .mulh c f | .div c f | .rem c f | .shr c f | .sar c f | .rol c f =>
    intWf c f Ty.inInt true false
  | .mad c f => intWf c f Ty.inInt true true
  | .and c f | .or c f | .xor c f | .andn c f => intWf c f Ty.inIntPlus true false
  | .not c f => intWf c f Ty.inIntPlus false false
  | .clz c f | .ctz c f | .popc c f | .brev c f => intWf c f Ty.inInt false false
  | .bfx c f | .bfi c f => fieldWf c f
  | .sel c f => intWf c f (fun _ => true) true false
  | .ceq c f | .cne c f => intWf c f Ty.inIntPlus true false
  | .clt c f | .cle c f => intWf c f Ty.inInt true false
  | .cvi c f => cvtWf c f Ty.isSized Ty.isSized false true
  | .adsc c f => adscWf c f
  | .fadd c f | .fsub c f | .fmul c f | .fma c f | .fnma c f | .fdiv c f => fltWf c f true true true
  | .fmin c f | .fmax c f | .fceq c f | .fclt c f | .fcle c f | .fcun c f => fltWf c f true false false
  | .fabs c f | .fneg c f | .fclass c f => fltWf c f false false false
  | .fsqrt c f | .frsq c f | .frcp c f | .fexp2 c f | .flog2 c f | .fscal c f => fltWf c f false true true
  | .frint c f => fltWf c f false true false
  | .fcvt c f => cvtWf c f Ty.isFmt Ty.isFmt true true
  | .fcvi c f => cvtWf c f Ty.isFmt Ty.isSized true true
  | .icvf c f => cvtWf c f Ty.isSized Ty.isFmt true true
  | .fpk c f => fpkWf c f
  | .lperm c f | .lbcast c f | .lcmpr c f | .lexpd c f => laneWf c f Ty.inLane 1 && f.imm16 == 0
  | .lzip c f | .lunzip c f => laneWf c f Ty.inLane 2 && f.imm16 == 0
  | .lext c f | .lins c f => laneIdxWf c f
  | .lred c f => lredWf c f true
  | .lscan c f => lredWf c f false
  | .lrot c f => c.w && c.ty.inLane && f.noRound && f.aux7 == 0 && (f.im || f.imm16 == 0)
  | .lq4 c f => lq4Wf c f
  | .mov c f | .null c f => tokWf c f true 1
  | .mov4 c f => tokWf c f true 8
  | .const c f => constWf c f
  | .steer c f | .gate c f | .sync c f => tokWf c f true 2
  | .ordj c f => tokWf c f false 2
  | .count c f => countWf c f
  | .fold c f => foldWf c f
  | .incf c f => tagReadWf c f false
  | .getf c f => tagReadWf c f true
  | .pushf c f => tagBuildWf c f true 32
  | .popf c f => tagBuildWf c f false 1
  | .setf c f => tagBuildWf c f true 7
  | .exit c f => exitWf c f true
  | .call c f => exitWf c f false
  | .ret c f => retWf c f
  | .discard c f => keepWf c f false false
  | .kget c f => keepWf c f true true
  | .kput c f => keepWf c f true false
  | .ld c f | .ldo c f => accessWf c f false false
  | .st c f | .sto c f => accessWf c f false true
  | .ldv c f => accessWf c f true false
  | .stv c f => accessWf c f true true
  | .ldg c f => groupWf c f false
  | .stg c f => groupWf c f true
  | .sflush c f | .srel c f => siteWf c f 1 true
  | .sinv c f => siteWf c f 2 false
  | .sdepth c f =>
    !c.w && c.ty == .n32 && f.ord == .plain && f.scope == .inst && !f.nf && f.lsid == 0 && f.lo8 == 0
  | .fence c f => c.plain && f.ord != .plain && !f.nf && f.site == 0 && f.lo8 == 0
  | .xlat c f =>
    !c.w && c.ty == .n64 && f.ord == .plain && f.scope == .inst && !f.nf && f.lsid == 0 && f.site == 0 && f.lo8.toNat < 2
  | .aadd c f => atomWf c f atomInt false true
  | .amin c f | .amax c f => atomWf c f atomInt false false
  | .aand c f | .aor c f | .axor c f | .ainc c f | .adec c f => atomWf c f atomNat false false
  | .axch c f | .acas c f => atomWf c f atomRaw false false
  | .faadd c f => atomWf c f (· == .f32) true true
  | .mma c f | .mmaq c f => islandWf c f true true (f.aux11 == 0)
  | .aclr c f => islandWf c f true false (f.aux11.toNat < 4)
  | .adrn c f => islandWf c f true true (f.aux11.toNat < 2)
  | .scopy c f | .sgath c f | .strn c f | .slay c f => islandWf c f false true (f.aux11.toNat < 2)
  | .sscat c f => islandWf c f false true (f.aux11 == 1)
  | .speer c f => islandWf c f false true (!f.aux11.getLsbD 1 && (!f.aux11.getLsbD 0 || f.aux11.getLsbD 2))
  | .sstop c f => islandWf c f false false (f.aux11 == 0)
  | .rngset c f => sysWf c (f.sreg == 0) (f.imm15 != 0)
  | .rngnext c f => sysWf c (f.sreg == 0) (f.imm15 == 0)
  | .rngsteal c f => sysWf c (f.sreg == 0) (f.imm15.toNat < 4)
  | .seed c f => c.ty == .v && f.imm15 == 0
  | .trap c f | .brk c f | .mark c f => sysWf c (f.sreg == 0) true
  | .srd c f => sysWf c (sregRead f.sreg.toNat) (f.imm15 == 0)
  | .swr c f => !c.w && sregWrite f.sreg.toNat && (c.ty == .v || (c.ty == .n64 && f.imm15 == 0))
  | .halt c f => sysWf c (f.sreg == 0) c.noTargets
  | .probe c f => sysWf c (sregProbe f.sreg.toNat) (f.imm15 == 0)
  | .tokenArrive _ | .waithistSpill _ _ _ _ | .gateEntryToken _ | .admitTag _ _ _ _ | .settle _ _ _ | .commit _ _ _ |
    .limUpdate _ _ _ _ | .quiescenceWave _ _ | .query _ _ | .qreply _ _ | .launchComplete _ _ | .packetArrive _ _ _ |
    .packetSend _ | .creditReturn _ _ | .boundaryTokenSend _ | .mreq _ _ | .mrep _ _ | .fillDataArrive _ _ _ _ |
    .streamFetch _ _ | .depUpdate _ _ | .gread _ _ | .gpart _ _ | .gwrite _ _ | .gack _ _ | .ldgResult _ _ |
    .stgDone _ _ | .islandCommandAccept _ _ _ | .mmaExecute _ _ | .aclrExecute _ _ | .drainExecute _ _ |
    .pipelineStart _ _ _ | .tileRead _ _ _ | .tileArrive _ _ _ | .pipelineEnd _ _ _ | .indexListRead _ _ _ |
    .sstopExecute _ _ _ | .spliceTile _ | .spliceNotice _ | .spliceRead _ | .spliceDone _ | .steal _ _ |
    .grant _ _ | .probeRequest _ _ | .preply _ _ | .launchRecordWrite _ _ | .priorityChange _ _ |
    .seedWrite _ _ _ | .linkDown | .linkUp | .recordWrite _ _ | .spliceBindingWrite _ _ _ | .load _ _ |
    .loadComplete _ | .unload _ _ | .selectLaunch _ | .bind _ | .cfg _ _ | .cfgack _ _ | .turnNotice _ _ |
    .turn _ _ | .marker _ _ | .snapshot _ _ | .baySaveComplete _ _ | .saved _ _ | .lsave _ _ | .lsaved _ _ |
    .cancel _ _ | .fcmdResume _ _ | .fcmdDiscard _ _ | .fcmdEnd _ _ | .fcmdZfill _ _ | .translate _ _ |
    .shootdownInval _ _ | .shootdownFlush _ _ | .shootdownMigrate _ _ | .shootdownComplete _ | .configScrub _ _ |
    .loftScrub _ _ _ | .lpddrScrub _ _ | .eccCorrectedInterval _ _ | .pctlWrite _ _ | .baysWrite _ _ _ |
    .zeroiseComplete _ | .scopepolWrite _ _ | .dbgctlWrite _ _ | .unsealBlob _ _ | .attest _ _ | .boot |
    .tempSample _ _ | .voltageDroop _ _ | .processInterval _ _ | .dieopWrite _ _ | .operatingPointSettled _ |
    .preciseStopComplete _ _ | .traceSessionOpen _ _ _ | .traceSessionClose _ _ _ | .traceRecordWrite _ _ |
    .cqreset _ _ | .traceResetEnd _ _ | .registerWrite _ _ | .spliceLinkDown _ | .spliceLinkUp _ |
    .bridgeLinkDown _ | .hostMemoryAccess _ | .markOffline _ _ => true

/-- Well-formedness as a proposition. -/
abbrev WellFormed (i : Instr) : Prop := i.wf = true

end Sys2Proof
end

