-- ==== Sys2Proof/Decode.lean ====
section
/-!
DEFINITION. Sys2Proof/Decode.lean: slot words read (R73 to R91) and, after that, written. Decoding is total: every
64-bit word, and every list of bytes, is an instruction or is refused by name.
-/
namespace Sys2Proof

/-- Why a slot word is no instruction: fewer than eight bytes; the empty slot (R78); an unassigned opcode (R91); PM 11
(R74); SCOPE 6 or 7, TOP 110 or 111, ISL 11 (R82 to R84); a field the member's entry does not allow (R77). -/
inductive DecodeError where
  | short | empty | opcode | pm | code | field
  deriving DecidableEq, Repr

/-- PM (R74). -/
def decodePm (b : BitVec 2) : Option Pm :=
  match b.toNat with
  | 0 => some .always | 1 => some .ifTrue | 2 => some .ifFalse | _ => none

/-- RND (R56). -/
def decodeRnd (b : BitVec 2) : Rnd :=
  match b.toNat with
  | 0 => .rn | 1 => .rz | 2 => .rd | _ => .ru

/-- ORD (R81). -/
def decodeOrd (b : BitVec 2) : MemOrd :=
  match b.toNat with
  | 0 => .plain | 1 => .acq | 2 => .rel | _ => .ar

/-- SCOPE (R82). -/
def decodeScope (b : BitVec 3) : Option Scope :=
  match b.toNat with
  | 0 => some .inst | 1 => some .bay | 2 => some .rgn | 3 => some .dev | 4 => some .tnt | 5 => some .sys | _ => none

/-- TOP (R83). -/
def decodeTop (b : BitVec 3) : Option TagOp :=
  match b.toNat with
  | 0 => some .same | 1 => some .inc | 2 => some .push | 3 => some .pop | 4 => some .set | 5 => some .popinc
  | _ => none

/-- ISL (R84). -/
def decodeIsl (b : BitVec 2) : Option Isl :=
  match b.toNat with
  | 0 => some .mx | 1 => some .sn | 2 => some .ss | _ => none

/-- OP (R73). -/
def wordOp (w : Word) : BitVec 8 := w.extractLsb' 56 8

/-- The common part (R73). -/
def decodeCommon (w : Word) : Option Common :=
  (decodePm (w.extractLsb' 54 2)).map fun pm =>
    { pm := pm, w := w.getLsbD 53, ty := Ty.ofCode (w.extractLsb' 49 4)
      t0 := w.extractLsb' 38 11, t1 := w.extractLsb' 27 11 }

/-- Form A (R79). -/
def decodeA (b : BitVec 27) : FormA :=
  { im := b.getLsbD 26, rnd := decodeRnd (b.extractLsb' 24 2), sat := b.getLsbD 23
    aux7 := b.extractLsb' 16 7, imm16 := b.extractLsb' 0 16 }

/-- Form X (R83). -/
def decodeX (b : BitVec 27) : Option FormX :=
  (decodeTop (b.extractLsb' 6 3)).map fun top =>
    { pos := b.extractLsb' 20 7, gate := b.extractLsb' 17 3, hnum := b.extractLsb' 12 5
      entry := b.extractLsb' 9 3, top := top, field := b.extractLsb' 3 3, exn := b.extractLsb' 0 3 }

/-- Form M (R81). -/
def decodeM (b : BitVec 27) : Option FormM :=
  (decodeScope (b.extractLsb' 9 3)).map fun scope =>
    { site := b.extractLsb' 19 8, lsid := b.extractLsb' 14 5, ord := decodeOrd (b.extractLsb' 12 2)
      scope := scope, nf := b.getLsbD 8, lo8 := b.extractLsb' 0 8 }

/-- Form I (R84). -/
def decodeI (b : BitVec 27) : Option FormI :=
  (decodeIsl (b.extractLsb' 25 2)).map fun isl =>
    { isl := isl, iport := b.extractLsb' 21 4, rcp := b.extractLsb' 11 10, aux11 := b.extractLsb' 0 11 }

/-- Form S (R85). -/
def decodeS (b : BitVec 27) : FormS :=
  { sreg := b.extractLsb' 15 12, imm15 := b.extractLsb' 0 15 }

/-- The members of Form A by opcode (R90). -/
def opA (op : Nat) : Option (Common → FormA → Instr) :=
  match op with
  | 0x01 => some .add | 0x02 => some .sub | 0x03 => some .neg | 0x04 => some .abs | 0x05 => some .min
  | 0x06 => some .max | 0x07 => some .mul | 0x08 => some .mulh | 0x09 => some .mad | 0x0A => some .div
  | 0x0B => some .rem | 0x0C => some .and | 0x0D => some .or | 0x0E => some .xor | 0x0F => some .andn
  | 0x10 => some .not | 0x11 => some .shl | 0x12 => some .shr | 0x13 => some .sar | 0x14 => some .rol
  | 0x15 => some .clz | 0x16 => some .ctz | 0x17 => some .popc | 0x18 => some .brev | 0x19 => some .bfx
  | 0x1A => some .bfi | 0x1B => some .sel | 0x1C => some .ceq | 0x1D => some .cne | 0x1E => some .clt
  | 0x1F => some .cle | 0x20 => some .cvi | 0x21 => some .adsc | 0x40 => some .fadd | 0x41 => some .fsub
  | 0x42 => some .fmul | 0x43 => some .fma | 0x44 => some .fnma | 0x45 => some .fmin | 0x46 => some .fmax
  | 0x47 => some .fabs | 0x48 => some .fneg | 0x49 => some .fdiv | 0x4A => some .fsqrt | 0x4B => some .frsq
  | 0x4C => some .frcp | 0x4D => some .fexp2 | 0x4E => some .flog2 | 0x4F => some .fceq | 0x50 => some .fclt
  | 0x51 => some .fcle | 0x52 => some .fcun | 0x53 => some .fcvt | 0x54 => some .fcvi | 0x55 => some .icvf
  | 0x56 => some .frint | 0x57 => some .fscal | 0x58 => some .fclass | 0x59 => some .fpk | 0x60 => some .lperm
  | 0x61 => some .lbcast | 0x62 => some .lext | 0x63 => some .lins | 0x64 => some .lred | 0x65 => some .lscan
  | 0x66 => some .lcmpr | 0x67 => some .lexpd | 0x68 => some .lrot | 0x69 => some .lzip | 0x6A => some .lunzip
  | 0x6B => some .lq4 | 0x70 => some .mov | 0x71 => some .mov4 | 0x72 => some .const | 0x73 => some .steer
  | 0x74 => some .gate | 0x75 => some .null | 0x76 => some .sync | 0x77 => some .count | 0x78 => some .fold
  | 0x79 => some .incf | 0x7A => some .pushf | 0x7B => some .popf | 0x7C => some .setf | 0x7D => some .getf
  | 0x7E => some .ordj
  | _ => none

/-- The members of Form X by opcode (R90). -/
def opX (op : Nat) : Option (Common → FormX → Instr) :=
  match op with
  | 0x80 => some .exit | 0x81 => some .call | 0x82 => some .ret | 0x83 => some .discard | 0x84 => some .kget
  | 0x85 => some .kput
  | _ => none

/-- The members of Form M by opcode (R90). -/
def opM (op : Nat) : Option (Common → FormM → Instr) :=
  match op with
  | 0x88 => some .ld | 0x89 => some .st | 0x8A => some .ldv | 0x8B => some .stv | 0x8C => some .ldg
  | 0x8D => some .stg | 0x8E => some .ldo | 0x8F => some .sto | 0x90 => some .sflush | 0x91 => some .sinv
  | 0x92 => some .srel | 0x93 => some .sdepth | 0x94 => some .fence | 0x95 => some .xlat | 0x96 => some .aadd
  | 0x97 => some .amin | 0x98 => some .amax | 0x99 => some .aand | 0x9A => some .aor | 0x9B => some .axor
  | 0x9C => some .axch | 0x9D => some .acas | 0x9E => some .ainc | 0x9F => some .adec | 0xA0 => some .faadd
  | _ => none

/-- The members of Form I by opcode (R90). -/
def opI (op : Nat) : Option (Common → FormI → Instr) :=
  match op with
  | 0xB0 => some .mma | 0xB1 => some .mmaq | 0xB2 => some .aclr | 0xB3 => some .adrn | 0xB4 => some .scopy
  | 0xB5 => some .sgath | 0xB6 => some .sscat | 0xB7 => some .strn | 0xB8 => some .slay | 0xB9 => some .speer
  | 0xBA => some .sstop
  | _ => none

/-- The members of Form S by opcode (R90). -/
def opS (op : Nat) : Option (Common → FormS → Instr) :=
  match op with
  | 0xC8 => some .rngset | 0xC9 => some .rngnext | 0xCA => some .rngsteal | 0xCB => some .seed | 0xD8 => some .trap
  | 0xD9 => some .brk | 0xDA => some .srd | 0xDB => some .swr | 0xDC => some .mark | 0xDD => some .halt
  | 0xDE => some .probe
  | _ => none
/-- The instruction of an opcode and a form part; the form follows from the opcode's range (R79). -/
def decodeBody (c : Common) (op : Nat) (b : BitVec 27) : Except DecodeError Instr :=
  if op < 0x80 then
    match opA op with
    | none => .error .opcode
    | some k => .ok (k c (decodeA b))
  else if op < 0x88 then
    match opX op with
    | none => .error .opcode
    | some k =>
      match decodeX b with
      | none => .error .code
      | some f => .ok (k c f)
  else if op < 0xB0 then
    match opM op with
    | none => .error .opcode
    | some k =>
      match decodeM b with
      | none => .error .code
      | some f => .ok (k c f)
  else if op < 0xC8 then
    match opI op with
    | none => .error .opcode
    | some k =>
      match decodeI b with
      | none => .error .code
      | some f => .ok (k c f)
  else
    match opS op with
    | none => .error .opcode
    | some k => .ok (k c (decodeS b))

/-- Is this opcode assigned (R91)? -/
def opAssigned (op : Nat) : Bool :=
  if op < 0x80 then (opA op).isSome
  else if op < 0x88 then (opX op).isSome
  else if op < 0xB0 then (opM op).isSome
  else if op < 0xC8 then (opI op).isSome
  else (opS op).isSome

/-- The instruction of a slot word. -/
def decodeWord (w : Word) : Except DecodeError Instr :=
  if w = 0 then .error .empty
  else if !opAssigned (wordOp w).toNat then .error .opcode
  else
    match decodeCommon w with
    | none => .error .pm
    | some c =>
      match decodeBody c (wordOp w).toNat (w.extractLsb' 0 27) with
      | .error e => .error e
      | .ok i => if i.wf then .ok i else .error .field

/-- The value of a list of bytes, the first byte the least significant (R4). -/
def leNat : List Byte → Nat
  | [] => 0
  | b :: bs => b.toNat + 256 * leNat bs

/-- The first `n` bytes of a number, least significant first (R4). -/
def leBytes : Nat → Nat → List Byte
  | 0, _ => []
  | n + 1, v => BitVec.ofNat 8 v :: leBytes n (v / 256)

/-- The instruction at the start of a list of bytes, with what follows it. -/
def decodeBytes (bs : List Byte) : Except DecodeError (Instr × List Byte) :=
  if bs.length < 8 then .error .short
  else
    match decodeWord (BitVec.ofNat 64 (leNat (bs.take 8))) with
    | .error e => .error e
    | .ok i => .ok (i, bs.drop 8)

/-- The instruction whose bits are `w`, numbered from the least significant, of which `nbits` are given and the
rest are zero: its bytes, laid out little-endian (R4), decoded. -/
def decodeTableWord (nbits w : Nat) : Option Instr :=
  match decodeBytes (leBytes 8 (w % 2 ^ Nat.min nbits 64)) with
  | .error _ => none
  | .ok (i, _) => some i

/-! ## Writing slot words -/

/-- PM (R74). -/
def Pm.code : Pm → BitVec 2
  | .always => 0 | .ifTrue => 1 | .ifFalse => 2

/-- RND (R56). -/
def Rnd.code : Rnd → BitVec 2
  | .rn => 0 | .rz => 1 | .rd => 2 | .ru => 3

/-- ORD (R81). -/
def MemOrd.code : MemOrd → BitVec 2
  | .plain => 0 | .acq => 1 | .rel => 2 | .ar => 3

/-- SCOPE (R82). -/
def Scope.code : Scope → BitVec 3
  | .inst => 0 | .bay => 1 | .rgn => 2 | .dev => 3 | .tnt => 4 | .sys => 5

/-- TOP (R83). -/
def TagOp.code : TagOp → BitVec 3
  | .same => 0 | .inc => 1 | .push => 2 | .pop => 3 | .set => 4 | .popinc => 5

/-- ISL (R84). -/
def Isl.code : Isl → BitVec 2
  | .mx => 0 | .sn => 1 | .ss => 2

/-- The form part of a slot word. -/
inductive Body where
  | a (f : FormA)
  | x (f : FormX)
  | m (f : FormM)
  | i (f : FormI)
  | s (f : FormS)
  deriving DecidableEq, Repr

/-- The 27 bits of a form part (R79, R81, R83 to R85). -/
def Body.bits : Body → BitVec 27
  | .a f => BitVec.ofBool f.im ++ f.rnd.code ++ BitVec.ofBool f.sat ++ f.aux7 ++ f.imm16
  | .x f => f.pos ++ f.gate ++ f.hnum ++ f.entry ++ f.top.code ++ f.field ++ f.exn
  | .m f => f.site ++ f.lsid ++ f.ord.code ++ f.scope.code ++ BitVec.ofBool f.nf ++ f.lo8
  | .i f => f.isl.code ++ f.iport ++ f.rcp ++ f.aux11
  | .s f => f.sreg ++ f.imm15

/-- An instruction taken apart: opcode, common part, form part. -/
structure Parts where
  op : BitVec 8
  c  : Common
  b  : Body
  deriving DecidableEq, Repr

/-- The parts of a slot instruction; a step of the machine has none. -/
def Instr.parts : Instr → Option Parts
  | .add c f => some ⟨0x01, c, .a f⟩ | .sub c f => some ⟨0x02, c, .a f⟩ | .neg c f => some ⟨0x03, c, .a f⟩
  | .abs c f => some ⟨0x04, c, .a f⟩ | .min c f => some ⟨0x05, c, .a f⟩ | .max c f => some ⟨0x06, c, .a f⟩
  | .mul c f => some ⟨0x07, c, .a f⟩ | .mulh c f => some ⟨0x08, c, .a f⟩ | .mad c f => some ⟨0x09, c, .a f⟩
  | .div c f => some ⟨0x0A, c, .a f⟩ | .rem c f => some ⟨0x0B, c, .a f⟩ | .and c f => some ⟨0x0C, c, .a f⟩
  | .or c f => some ⟨0x0D, c, .a f⟩ | .xor c f => some ⟨0x0E, c, .a f⟩ | .andn c f => some ⟨0x0F, c, .a f⟩
  | .not c f => some ⟨0x10, c, .a f⟩ | .shl c f => some ⟨0x11, c, .a f⟩ | .shr c f => some ⟨0x12, c, .a f⟩
  | .sar c f => some ⟨0x13, c, .a f⟩ | .rol c f => some ⟨0x14, c, .a f⟩ | .clz c f => some ⟨0x15, c, .a f⟩
  | .ctz c f => some ⟨0x16, c, .a f⟩ | .popc c f => some ⟨0x17, c, .a f⟩ | .brev c f => some ⟨0x18, c, .a f⟩
  | .bfx c f => some ⟨0x19, c, .a f⟩ | .bfi c f => some ⟨0x1A, c, .a f⟩ | .sel c f => some ⟨0x1B, c, .a f⟩
  | .ceq c f => some ⟨0x1C, c, .a f⟩ | .cne c f => some ⟨0x1D, c, .a f⟩ | .clt c f => some ⟨0x1E, c, .a f⟩
  | .cle c f => some ⟨0x1F, c, .a f⟩ | .cvi c f => some ⟨0x20, c, .a f⟩ | .adsc c f => some ⟨0x21, c, .a f⟩
  | .fadd c f => some ⟨0x40, c, .a f⟩ | .fsub c f => some ⟨0x41, c, .a f⟩ | .fmul c f => some ⟨0x42, c, .a f⟩
  | .fma c f => some ⟨0x43, c, .a f⟩ | .fnma c f => some ⟨0x44, c, .a f⟩ | .fmin c f => some ⟨0x45, c, .a f⟩
  | .fmax c f => some ⟨0x46, c, .a f⟩ | .fabs c f => some ⟨0x47, c, .a f⟩ | .fneg c f => some ⟨0x48, c, .a f⟩
  | .fdiv c f => some ⟨0x49, c, .a f⟩ | .fsqrt c f => some ⟨0x4A, c, .a f⟩ | .frsq c f => some ⟨0x4B, c, .a f⟩
  | .frcp c f => some ⟨0x4C, c, .a f⟩ | .fexp2 c f => some ⟨0x4D, c, .a f⟩ | .flog2 c f => some ⟨0x4E, c, .a f⟩
  | .fceq c f => some ⟨0x4F, c, .a f⟩ | .fclt c f => some ⟨0x50, c, .a f⟩ | .fcle c f => some ⟨0x51, c, .a f⟩
  | .fcun c f => some ⟨0x52, c, .a f⟩ | .fcvt c f => some ⟨0x53, c, .a f⟩ | .fcvi c f => some ⟨0x54, c, .a f⟩
  | .icvf c f => some ⟨0x55, c, .a f⟩ | .frint c f => some ⟨0x56, c, .a f⟩ | .fscal c f => some ⟨0x57, c, .a f⟩
  | .fclass c f => some ⟨0x58, c, .a f⟩ | .fpk c f => some ⟨0x59, c, .a f⟩ | .lperm c f => some ⟨0x60, c, .a f⟩
  | .lbcast c f => some ⟨0x61, c, .a f⟩ | .lext c f => some ⟨0x62, c, .a f⟩ | .lins c f => some ⟨0x63, c, .a f⟩
  | .lred c f => some ⟨0x64, c, .a f⟩ | .lscan c f => some ⟨0x65, c, .a f⟩ | .lcmpr c f => some ⟨0x66, c, .a f⟩
  | .lexpd c f => some ⟨0x67, c, .a f⟩ | .lrot c f => some ⟨0x68, c, .a f⟩ | .lzip c f => some ⟨0x69, c, .a f⟩
  | .lunzip c f => some ⟨0x6A, c, .a f⟩ | .lq4 c f => some ⟨0x6B, c, .a f⟩ | .mov c f => some ⟨0x70, c, .a f⟩
  | .mov4 c f => some ⟨0x71, c, .a f⟩ | .const c f => some ⟨0x72, c, .a f⟩ | .steer c f => some ⟨0x73, c, .a f⟩
  | .gate c f => some ⟨0x74, c, .a f⟩ | .null c f => some ⟨0x75, c, .a f⟩ | .sync c f => some ⟨0x76, c, .a f⟩
  | .count c f => some ⟨0x77, c, .a f⟩ | .fold c f => some ⟨0x78, c, .a f⟩ | .incf c f => some ⟨0x79, c, .a f⟩
  | .pushf c f => some ⟨0x7A, c, .a f⟩ | .popf c f => some ⟨0x7B, c, .a f⟩ | .setf c f => some ⟨0x7C, c, .a f⟩
  | .getf c f => some ⟨0x7D, c, .a f⟩ | .ordj c f => some ⟨0x7E, c, .a f⟩
  | .exit c f => some ⟨0x80, c, .x f⟩ | .call c f => some ⟨0x81, c, .x f⟩ | .ret c f => some ⟨0x82, c, .x f⟩
  | .discard c f => some ⟨0x83, c, .x f⟩ | .kget c f => some ⟨0x84, c, .x f⟩ | .kput c f => some ⟨0x85, c, .x f⟩
  | .ld c f => some ⟨0x88, c, .m f⟩ | .st c f => some ⟨0x89, c, .m f⟩ | .ldv c f => some ⟨0x8A, c, .m f⟩
  | .stv c f => some ⟨0x8B, c, .m f⟩ | .ldg c f => some ⟨0x8C, c, .m f⟩ | .stg c f => some ⟨0x8D, c, .m f⟩
  | .ldo c f => some ⟨0x8E, c, .m f⟩ | .sto c f => some ⟨0x8F, c, .m f⟩ | .sflush c f => some ⟨0x90, c, .m f⟩
  | .sinv c f => some ⟨0x91, c, .m f⟩ | .srel c f => some ⟨0x92, c, .m f⟩ | .sdepth c f => some ⟨0x93, c, .m f⟩
  | .fence c f => some ⟨0x94, c, .m f⟩ | .xlat c f => some ⟨0x95, c, .m f⟩ | .aadd c f => some ⟨0x96, c, .m f⟩
  | .amin c f => some ⟨0x97, c, .m f⟩ | .amax c f => some ⟨0x98, c, .m f⟩ | .aand c f => some ⟨0x99, c, .m f⟩
  | .aor c f => some ⟨0x9A, c, .m f⟩ | .axor c f => some ⟨0x9B, c, .m f⟩ | .axch c f => some ⟨0x9C, c, .m f⟩
  | .acas c f => some ⟨0x9D, c, .m f⟩ | .ainc c f => some ⟨0x9E, c, .m f⟩ | .adec c f => some ⟨0x9F, c, .m f⟩
  | .faadd c f => some ⟨0xA0, c, .m f⟩
  | .mma c f => some ⟨0xB0, c, .i f⟩ | .mmaq c f => some ⟨0xB1, c, .i f⟩ | .aclr c f => some ⟨0xB2, c, .i f⟩
  | .adrn c f => some ⟨0xB3, c, .i f⟩ | .scopy c f => some ⟨0xB4, c, .i f⟩ | .sgath c f => some ⟨0xB5, c, .i f⟩
  | .sscat c f => some ⟨0xB6, c, .i f⟩ | .strn c f => some ⟨0xB7, c, .i f⟩ | .slay c f => some ⟨0xB8, c, .i f⟩
  | .speer c f => some ⟨0xB9, c, .i f⟩ | .sstop c f => some ⟨0xBA, c, .i f⟩
  | .rngset c f => some ⟨0xC8, c, .s f⟩ | .rngnext c f => some ⟨0xC9, c, .s f⟩
  | .rngsteal c f => some ⟨0xCA, c, .s f⟩ | .seed c f => some ⟨0xCB, c, .s f⟩ | .trap c f => some ⟨0xD8, c, .s f⟩
  | .brk c f => some ⟨0xD9, c, .s f⟩ | .srd c f => some ⟨0xDA, c, .s f⟩ | .swr c f => some ⟨0xDB, c, .s f⟩
  | .mark c f => some ⟨0xDC, c, .s f⟩ | .halt c f => some ⟨0xDD, c, .s f⟩ | .probe c f => some ⟨0xDE, c, .s f⟩
  | .tokenArrive _ | .waithistSpill _ _ _ _ | .gateEntryToken _ | .admitTag _ _ _ _ | .settle _ _ _ | .commit _ _ _ |
    .limUpdate _ _ _ _ | .quiescenceWave _ _ | .query _ _ | .qreply _ _ | .launchComplete _ _ | .packetArrive _ _ _ |
    .packetSend _ | .creditReturn _ _ | .boundaryTokenSend _ | .mreq _ _ | .mrep _ _ | .fillDataArrive _ _ _ _ |
    .streamFetch _ _ | .depUpdate _ _ | .gread _ _ | .gpart _ _ | .gwrite _ _ | .gack _ _ | .ldgResult _ _ |
    .stgDone _ _ | .islandCommandAccept _ _ _ | .mmaExecute _ _ | .aclrExecute _ _ | .drainExecute _ _ |
    .pipelineStart _ _ _ | .tileRead _ _ _ | .tileArrive _ _ _ | .pipelineEnd _ _ _ | .indexListRead _ _ _ |
    .sstopExecute _ _ _ | .spliceTile _ | .spliceNotice _ | .spliceRead _ | .spliceDone _ | .steal _ _ |
    .grant _ _ | .probeRequest _ _ | .preply _ _ | .launchRecordWrite _ _ | .priorityChange _ _ |
    .seedWrite _ _ _ | .linkDown | .linkUp | .recordWrite _ _ | .spliceBindingWrite _ _ _ | .load _ _ |
    .loadComplete _ | .unload _ _ | .selectLaunch _ | .bind _ | .cfg _ _ | .cfgack _ _ | .turnNotice _ _ |
    .turn _ _ | .marker _ _ | .snapshot _ _ | .baySaveComplete _ _ | .saved _ _ | .lsave _ _ | .lsaved _ _ |
    .cancel _ _ | .fcmdResume _ _ | .fcmdDiscard _ _ | .fcmdEnd _ _ | .fcmdZfill _ _ | .translate _ _ |
    .shootdownInval _ _ | .shootdownFlush _ _ | .shootdownMigrate _ _ | .shootdownComplete _ | .configScrub _ _ |
    .loftScrub _ _ _ | .lpddrScrub _ _ | .eccCorrectedInterval _ _ | .pctlWrite _ _ | .baysWrite _ _ _ |
    .zeroiseComplete _ | .scopepolWrite _ _ | .dbgctlWrite _ _ | .unsealBlob _ _ | .attest _ _ | .boot |
    .tempSample _ _ | .voltageDroop _ _ | .processInterval _ _ | .dieopWrite _ _ | .operatingPointSettled _ |
    .preciseStopComplete _ _ | .traceSessionOpen _ _ _ | .traceSessionClose _ _ _ | .traceRecordWrite _ _ |
    .cqreset _ _ | .traceResetEnd _ _ | .registerWrite _ _ | .spliceLinkDown _ | .spliceLinkUp _ |
    .bridgeLinkDown _ | .hostMemoryAccess _ | .markOffline _ _ => none
/-- The word of an opcode, a common part and a form part (R73). -/
def Parts.word (p : Parts) : Word :=
  p.op ++ p.c.pm.code ++ BitVec.ofBool p.c.w ++ p.c.ty.code ++ p.c.t0 ++ p.c.t1 ++ p.b.bits

/-- The slot word of an instruction, none for a step of the machine. -/
def encode (i : Instr) : Option Word := i.parts.map Parts.word

/-- Is this a slot instruction? -/
def Instr.isSlot (i : Instr) : Bool := i.parts.isSome

/-- The common part of a slot instruction. -/
def Instr.common (i : Instr) : Option Common := i.parts.map Parts.c

end Sys2Proof
end

