-- ==== Sys2Proof/Machine/State.lean ====
section
/-!
DEFINITION. Sys2Proof/Machine/State.lean: everything the spec gives the Xezel to remember, as plain data, and the state
after power-on. Storage that is sparse is a list of numbered entries in ascending order; an entry that is not listed is
at its reset value. The counts the spec derives from other state (an instance's in-flight count, free rows and entries,
a context's outstanding-token count) are computed from it in Sys2Proof/Machine/Ops.lean and Machine/Quiesce.lean.
-/
namespace Sys2Proof.Machine

/-! ## Elements -/

/-- A matched set (R17): the slot, its instance, the operands at ports A, B, C and P, the bay's cycle count when its
first operand was placed (R398). -/
structure MSet where
  el    : Nat
  slot  : Nat
  gate  : Nat
  ix    : Nat
  ctx   : Nat
  a     : Option Token
  b     : Option Token
  c     : Option Token
  p     : Option Token
  since : Nat
  deriving DecidableEq, Repr

/-- An operand waiting in a frame entry, and a parking buffer if it is a vector (R17). -/
structure WaitTok where
  slot  : Nat
  port  : Nat
  tok   : Token
  since : Nat
  deriving DecidableEq, Repr

/-- The states of a frame-table row other than FREE (R35). -/
inductive RowSt where
  | empty | partly | cleared
  deriving DecidableEq, Repr

/-- A frame-table row (R35). -/
structure Row where
  gate : Nat
  ix   : Nat
  st   : RowSt
  ents : List WaitTok
  deriving DecidableEq, Repr

/-! A vector token, a feed tile, a hitch header and a site-table entry are used whole: the mark kept for one is that of any of its 64-bit
units (R379), and no rule tells the units apart. -/

/-- A slot: its word (R73), poison mark (R355), the context, hitch and span element it belongs to (R18), and the eight
wait-histogram counters (R398). -/
structure SlotCell where
  word   : Word
  poison : Bool
  owned  : Bool
  ctx    : Nat
  gate   : Nat
  hnum   : Nat
  se     : Nat
  hist   : List Nat
  deriving DecidableEq, Repr

/-- A slot after power-on (R404). -/
def SlotCell.reset : SlotCell := ⟨0, false, false, 0, 0, 0, 0, []⟩

/-- A route word (R89). -/
structure RouteCell where
  word   : Word
  poison : Bool
  owner  : Option Nat
  deriving DecidableEq, Repr

/-- An element: slots, route words, frame table with its matching-store entries and parking buffers, issue queue, and
the count, fold and kget sets that wait with their frame row (R11, R17, R24, R120). -/
structure Element where
  slots  : AMap SlotCell
  routes : AMap RouteCell
  rows   : List Row
  issue  : List MSet
  wait   : List MSet
  deriving DecidableEq, Repr

def Element.reset : Element := ⟨[], [], [], [], []⟩

/-! ## Gates -/

/-- A node of an index tree: a value in the accumulation type, none for a void (R65). -/
abbrev Partial := Option Word

/-- An accumulation record (R118): key, slot, n or N, indices applied, the partial of each tree level or, under
NBV 1, one running value at level 0; `own` says it is its context's reserved record. -/
structure AccRec where
  ctx    : Nat
  key    : Word
  el     : Nat
  slot   : Nat
  own    : Bool
  n      : Nat
  cnt    : Nat
  levels : List (Option Partial)
  deriving DecidableEq, Repr

/-- A count or fold update held for commit (R120). -/
structure RecUpd where
  acc  : AccRec
  done : Bool
  deriving DecidableEq, Repr

/-- A token the gate holds until commit (R125): 0 for exit and ret, 1 for call; the slot that gave it; its target by
region position. -/
structure Held where
  call  : Bool
  se    : Nat
  slot  : Nat
  pos   : Nat
  gate  : Nat
  hnum  : Nat
  entry : Nat
  tag   : Word
  tok   : Token
  deriving DecidableEq, Repr

/-- What a memory operation of the wave does once it is issued (R184); the last four are placed in the wave buffer. -/
inductive OpKind where
  | load | ldo | atomic | ldg | stg | sinv | srel
  | fence (acq rel : Bool) | store (once : Bool) | sflush | srelStore
  deriving DecidableEq, Repr

/-- Where an operation stands: it waits for its turn in the wave (R184, R202); it has been issued; it is performed, or
placed. -/
inductive OpSt where
  | waiting | issued | done
  deriving DecidableEq, Repr

/-- A memory operation of an instance: the slot word's fields it needs, its operands, the cycle it was issued in (R37). -/
structure MemOp where
  kind  : OpKind
  el    : Nat
  slot  : Nat
  lsid  : Nat
  c     : Common
  f     : FormM
  op    : Nat
  ea    : Nat
  b     : Token
  cmp   : Word
  scope : Nat
  st    : OpSt
  since : Nat
  deriving DecidableEq, Repr

/-- The states of an instance other than FREE (R34). -/
inductive InstSt where
  | live | ready | frozen
  deriving DecidableEq, Repr

/-- What a frozen instance does on RESUME (R354). -/
inductive Again where
  | none
  | fire (m : MSet)
  | op (lsid : Nat)
  | commit
  | settle
  | multi
  | enter (gate ix : Nat) (m : EntMsg)
  | trap (m : MSet)
  deriving DecidableEq, Repr

/-- A reply kept with a frozen instance until it goes on (R352): the packet of a memory access, or the code and details of a group access
whose policy it broke (R225). -/
inductive Reply where
  | mem (p : Packet)
  | group (code : Nat) (d0 d1 d2 : Word)
  deriving DecidableEq, Repr

/-- An instance-table entry (R29 to R34). `keepSnap` and `keepPoi` are the keep registers of its strand at admission, and those that were
poisoned (R24, R380). `applied` and `wr` say how far a commit has come: one more than the entries applied; the
write of the next one at its home is left to issue (false), or to be performed (true). -/
structure Inst where
  hnum      : Nat
  ctx       : Nat
  tag       : Word
  st        : InstSt
  prev      : InstSt
  pinned    : Bool
  discard   : Bool
  shared    : Bool
  replayed  : Bool
  arrived   : List Nat
  exit      : Option Nat
  endStrand : Bool
  popTo     : Option Nat
  stores    : List Nat
  keeps     : List Nat
  fired     : List Nat
  ops       : List MemOp
  held      : List Held
  updates   : List RecUpd
  keepSnap  : AMap Word
  keepPoi   : List Nat
  replies   : List (Nat × Reply)
  again     : Again
  fault     : Option Nat
  dropLsid  : Option Nat
  halt      : Option Nat
  applied   : Nat
  wr        : Option Bool
  deriving DecidableEq, Repr

/-- A hitch installed in a gate: its header (R86), poison mark, context, span on bay elements, block of instance indices,
frame descriptors (R88), wave-buffer need, LIM with its measurement (R37), and what the loader knows of its slots. `means`
holds the means formed whose step of LIM is not yet taken. -/
structure HitchCfg where
  words  : List Word
  poison : Bool
  ctx    : Nat
  ixBase : Nat
  frames : List (Nat × Nat)
  slotAt : List Nat
  nw     : Nat
  lsids  : List Nat
  mem    : Bool
  lim    : Nat
  latCnt : Nat
  latSum : Nat
  means  : List Nat
  deriving DecidableEq, Repr

/-- A hitch gate (R11): hitches, instance table, entry buffer, accumulation records, replay store (R389). -/
structure Gate where
  hitches : AMap HitchCfg
  insts   : AMap Inst
  ents    : List EntMsg
  recs    : List AccRec
  replay  : List (Nat × EntMsg)
  deriving DecidableEq, Repr

def Gate.reset : Gate := ⟨[], [], [], [], []⟩

/-! ## Memory engines -/

/-- Kinds of wave-buffer entries (R32, R187, R189, R190, R192). -/
inductive WaveKind where
  | store (once : Bool) | keep | flush | fence | srel
  deriving DecidableEq, Repr

/-- A wave-buffer entry (R11, R367); `poi`: its poisoned bytes, none listed when there is none (R379). -/
structure WaveEnt where
  gate  : Nat
  ix    : Nat
  kind  : WaveKind
  lsid  : Nat
  nul   : Bool
  site  : Nat
  addr  : Nat
  data  : List Byte
  poi   : List Bool
  ord   : MemOrd
  scope : Nat
  zskip : Bool
  el    : Nat
  slot  : Nat
  deriving DecidableEq, Repr

/-- The states of a site buffer (R164). A DIRTY buffer with `left` above 0 has a fill outstanding beside. -/
inductive BufSt where
  | empty | filling | full | dirty
  deriving DecidableEq, Repr

/-- An access that waits in a site: its instance and operation. -/
structure Waiter where
  gate : Nat
  ix   : Nat
  lsid : Nat
  deriving DecidableEq, Repr

/-- A site buffer (R164). `filled`: it holds the bytes of its line; `valid`: the bytes commits wrote; `dirty`: those of
them not yet performed at the home; `overlay`: bytes a
sibling's commits recorded while it was FILLING, poisoned ones marked (R177); `drop`: an sinv or acquire empties it when its data arrives
(R190, R181), `only`: after an acquire, the accesses that still wait for them; `left`: pieces of the fill not yet arrived; `poi`:
poisoned bytes (R175); `order`: place in fill order; `used`: recency; `place`: which line of the pattern it is (R167); `units`: ZSKIP
units already returned (R169); `merged`: a sibling's fill serves it (R165). -/
structure SiteBuf where
  st     : BufSt
  line   : Nat
  data   : List Byte
  valid  : List Bool
  dirty  : List Bool
  filled : Bool
  poi    : List Bool
  overlay : List (Nat × Byte × Bool)
  drop   : Bool
  only   : Option (List Waiter)
  left   : Nat
  since  : Nat
  order  : Nat
  used   : Nat
  place  : Nat
  units  : Nat
  merged : Bool
  deriving DecidableEq, Repr

/-- A site-table entry with its engine (R157, R164 to R176). `seq` stamps buffers; `line` is the next line of the
pattern; `means` as in a hitch (R174); `lastIdx`, `zdone` and `zpart` are a ZSKIP store site's last index, lines completed, and lines
beyond those whose gaps are zero at the home already (R170); `stopped` and `stopBack` are the faults its fill and write-back engines
stand under (R175). -/
structure Site where
  q0     : Word
  q1     : Word
  q2     : Word
  q3     : Word
  poison : Bool
  ctx    : Nat
  isStore : Bool
  fed    : Bool
  dep    : Nat
  latCnt : Nat
  latSum : Nat
  means  : List Nat
  bufs   : List SiteBuf
  seq    : Nat
  lifeOpen : Bool
  key    : Nat
  started : Bool
  line   : Nat
  lastIdx : Option Nat
  zdone  : Nat
  zpart  : List Nat
  stopped : Option Nat
  stopBack : Option Nat
  waiters : List Waiter
  srels  : List Waiter
  deriving DecidableEq, Repr

/-- A guard register (R178): context, site, window, address space, class. -/
structure Guard where
  ctx  : Nat
  site : Nat
  base : Nat
  size : Nat
  phys : Bool
  cls  : Nat
  deriving DecidableEq, Repr

/-- What a memory request is for, at its requester: a piece of a fill, an operation, a write of a commit or of a buffer, a piece of a
streamer's tile, a write of an island. -/
inductive ReqFor where
  | fill (site buf off len : Nat)
  | op (gate ix lsid : Nat)
  | store (gate ix : Nat)
  | back (site buf : Nat)
  | tile (isl port idx off : Nat)
  | land (isl port : Nat)
  | nothing
  deriving DecidableEq, Repr

/-- A memory request (R182): its requester unit and number, its home, the packet it is sent as, whether it has been
sent, what it is for, the cycle it was issued at, whether it waits as a deferred reader (R188), whether what it is for is gone, and the
virtual address it was translated from. -/
structure Req where
  unit  : Nat
  rqid  : Nat
  home  : Nat
  pkt   : Packet
  sent  : Bool
  goal  : ReqFor
  since : Nat
  ctx   : Nat
  deferred : Bool
  dead  : Bool
  va    : Option Nat
  deriving DecidableEq, Repr

/-- The congestion window of a requester (R151). -/
structure Win where
  win   : Nat
  run   : Nat
  hmark : Nat
  next  : Nat
  deriving DecidableEq, Repr

/-- A fresh window (R151). -/
def Win.reset : Win := ⟨64, 0, 0, 0⟩

/-- What waits for a translation (R340): a fill, an operation, a write of a commit, of a buffer or of an island, an xlat, a spill of a
slot's counters (R399). -/
inductive XFor where
  | fill (site buf : Nat)
  | op (gate ix lsid : Nat)
  | store (gate ix : Nat)
  | back (site buf : Nat)
  | land (isl port : Nat)
  | xlat (el slot gate ix : Nat) (c : Common)
  | spill (el slot : Nat)
  deriving DecidableEq, Repr

/-- A translation asked of the bay's translation node: parked on a migrating page (R346), or held with a stopped engine (R175). -/
structure XReq where
  id     : Nat
  ctx    : Nat
  va     : Nat
  write  : Bool
  goal   : XFor
  parked : Bool
  held   : Bool
  deriving DecidableEq, Repr

/-- A TLB entry (R340): partition, page base and size in bytes, the leaf entry, its recency. -/
structure TlbEnt where
  part : Nat
  base : Nat
  size : Nat
  pte  : Word
  used : Nat
  deriving DecidableEq, Repr

/-- A deferred reader at a home node (R188): slice offset of the word, the request it answers, the virtual address it was translated
from (R344). -/
structure Reader where
  node : Nat
  ctx  : Nat
  off  : Nat
  req  : Packet
  va   : Option Nat
  deriving DecidableEq, Repr

/-- A partial in a reduction buffer (R232): first position, level, lanes or void, omitted positions. -/
structure GPartial where
  lo    : Nat
  lvl   : Nat
  val   : Option (List Word)
  omask : BitVec 64
  deriving DecidableEq, Repr

/-- A reduction buffer (R233): the ldg or stg it serves, its address, the region's bays by position, the descriptor, the member states at
issue, what has been answered; `dead`: its instance is gone, and it is free once its members have answered. -/
structure RedBuf where
  store   : Bool
  gate    : Nat
  ix      : Nat
  lsid    : Nat
  ctx     : Nat
  va      : Nat
  map     : List Nat
  g0      : Word
  g1      : Word
  g2      : Word
  desc    : Nat
  off     : Nat
  members : BitVec 64
  absent  : BitVec 64
  pend    : BitVec 64
  poisoned : BitVec 64
  gone    : BitVec 64
  parts   : List GPartial
  dead    : Bool
  since   : Nat
  deriving DecidableEq, Repr

/-! ## Islands -/

/-- An island command (R235, R238): its word, operands, the instance that sent it with its tag, whether it is stopped
by an sstop (R258). -/
structure IslCmd where
  op    : Nat
  c     : Common
  f     : FormI
  el    : Nat
  slot  : Nat
  ctx   : Nat
  gate  : Nat
  ix    : Nat
  tag   : Word
  a     : Word
  b     : Word
  cc    : Word
  stop  : Bool
  deriving DecidableEq, Repr

/-- A tile of a streamer between its read and its arrival (R250), or a row or token of a drain's image (R246): index, bytes,
poisoned bytes, mask of rows zero-filled or skipped, of a scatter each row's place in the table; pieces of its read not yet answered,
pieces of its write issued. -/
structure Tile where
  idx  : Nat
  data : List Byte
  poi  : List Bool
  zmask : Nat
  rows : List Nat
  left : Nat
  sent : Nat
  deriving DecidableEq, Repr

/-- The running pipeline of a streamer port (R250): next tile to read, tiles arrived, the index list, and its read under way (R252),
tiles under way, zero-filled or skipped rows, rows the driver ordered zero-filled (R353); with a peer (R320) the frames it sent, those
confirmed, notices received. A drain that sends or writes its image holds the rest of it as tiles (R246); `asked` is one more than the
index of the last token it sent. -/
structure Pipe where
  next    : Nat
  arrived : Nat
  index   : Option (List (Nat × Bool))
  listing : Option Tile
  tiles   : List Tile
  zeroed  : Nat
  zfill   : List Nat
  asked   : Nat
  confirmed : Nat
  notices : Nat
  deriving DecidableEq, Repr

/-- A streamer or matrix command port (R234, R235): commands waiting in the network, accepted commands, the running
pipeline, commands completed, the faults that stall its source (or any other generator but the destination's) and its destination
(R259). -/
structure IslPort where
  net   : List IslCmd
  queue : List IslCmd
  run   : Option Pipe
  done  : Nat
  stall : Option Nat
  stallDst : Option Nat
  deriving DecidableEq, Repr

def IslPort.reset : IslPort := ⟨[], [], none, 0, none, none⟩

/-- A tile slot of a feed port in use (R242): the context it was fed for, block tag, bytes. -/
structure FeedTile where
  ctx  : Nat
  tag  : Nat
  data : List Byte
  poi  : Bool
  deriving DecidableEq, Repr

/-- An accumulator tile: its nonzero words by row × 128 + column, the poisoned words (R69, R234). -/
structure AccTile where
  words : AMap (BitVec 32)
  poi   : List Nat
  deriving DecidableEq, Repr

/-! ## Network stops -/

/-- The free-slot counts a sender keeps for one downstream port (R144). -/
structure Counts where
  shfree  : Nat
  v0held  : Nat
  escfree : Nat
  trfree  : Nat
  deriving DecidableEq, Repr

/-- All slots free (R141, R144). -/
def Counts.reset : Counts := ⟨16, 0, 5, 5⟩

/-- A ring stop: input port of each direction and of the bridge, turn queue, injection queue (R141, R149), the packets the bay's units
hold until that queue has room, the records its trace source holds (R153, R395), the counts of each output, the round-robin pointer of
each output (R145). -/
structure Stop where
  inCw    : List Packet
  inCcw   : List Packet
  inBr    : List Packet
  turn    : List Packet
  inject  : List Packet
  units   : List Packet
  trace   : List Packet
  outCw   : Counts
  outCcw  : Counts
  outBr   : Counts
  rrCw    : Nat
  rrCcw   : Nat
  rrBr    : Nat
  deriving DecidableEq, Repr

def Stop.reset : Stop := ⟨[], [], [], [], [], [], [], Counts.reset, Counts.reset, Counts.reset, 0, 0, 0⟩

/-! ## Contexts on a bay -/

/-- A trace record on its way (R393): 64 or 128 bytes as words W0 to W7 or W15. -/
abbrev TraceRec := List Word

/-- The bay's part in a pre-emption cut (R360). -/
structure Cut where
  wseq     : Nat
  stopped  : Bool
  snapped  : Bool
  marks    : List (Nat × Nat)
  saved    : Bool
  deriving DecidableEq, Repr

/-- A token recorded on a channel after the snapshot (R360). -/
structure ChanTok where
  src : Nat
  msg : EntMsg
  deriving DecidableEq, Repr

/-- A seed port's entry of the SEED section (R283). -/
structure SeedEnt where
  pos   : Nat
  gate  : Nat
  hnum  : Nat
  entry : Nat
  deriving DecidableEq, Repr

/-- A token that a comparator holds (R388, R390): the comparator's number, the bay's clock when the token came. -/
structure HeldTok where
  msg : TokMsg
  cmp : Nat
  at_ : Nat
  deriving DecidableEq, Repr

/-- A context on a bay: what the loader installs for it (R322, R402), what binding gives it (R324, R335, R274), and what
its launch has made of it. `wrong`: the configuration words the loader's read-back found uncorrectable (R355). -/
structure CtxRt where
  part     : Nat
  handle   : Nat
  strBase  : Nat
  strCnt   : Nat
  nbv      : Nat
  rowDir   : Nat
  colDir   : Nat
  bayWin   : Nat
  siteBase : Nat
  recipes  : AMap (List Word)
  reserved : AMap Nat
  tiles    : List Nat
  ports    : List (Nat × Nat)
  chansOut : List Nat
  chansIn  : List Nat
  bound    : Option Nat
  position : Nat
  rows     : Nat
  cols     : Nat
  map      : List Nat
  rngCur   : Word
  rngHi    : Word
  rngChunk : Nat
  user     : AMap Word
  waitHist : Word
  fires    : Nat
  since    : Nat
  fireStart : Nat
  frozen   : Bool
  stopRun  : Bool
  brkInst  : Option (Nat × Nat)
  heldTok  : Option HeldTok
  heldSet  : Option (MSet × Nat)
  halted   : Bool
  sent     : AMap Nat
  rcvd     : AMap Nat
  cut      : Option Cut
  recorded : List ChanTok
  presValid : List Nat
  dirty    : List Nat
  wrong    : List ConfigErr
  clamped  : List (Nat × Nat)
  omitted  : List (Nat × Nat)
  trSeq    : Nat
  trLost   : Nat
  trFires  : Nat
  scopePol : Nat
  deriving DecidableEq, Repr

/-- A comparator's five registers (R387). -/
structure Comparator where
  ctl     : Word
  tagMask : Word
  tagVal  : Word
  valMask : Word
  valVal  : Word
  deriving DecidableEq, Repr

/-- The health monitors of a bay (R383, R384). -/
structure Monitor where
  temp     : BitVec 32
  tempThr  : BitVec 32
  tempHys  : BitVec 32
  armed    : Bool
  droopCnt : BitVec 32
  droopCfg : BitVec 32
  droopAt  : BitVec 32
  procNow  : BitVec 32
  procMin  : BitVec 32
  deriving DecidableEq, Repr

/-- The monitors after power-on: TEMPTHR and TEMPHYS as R383 gives them. DESIGN CHOICE (log 1): the other registers,
whose reset the spec does not state, are zero; the alarm is armed. -/
def Monitor.reset : Monitor := ⟨0, 0x5A0, 0x50, true, 0, 0, 0, 0, 0⟩

/-! ## Bays -/

/-- A bay (R11). `turns` is, of each island, the port whose head command comes first in its round robin (R235). -/
structure Bay where
  elems   : AMap Element
  gates   : AMap Gate
  wave    : List WaveEnt
  keep    : AMap (AMap Word)
  keepPoi : List Nat
  sites   : AMap Site
  guards  : List Guard
  pres    : List Nat
  readers : List Reader
  noReply : List Nat
  tlb     : List TlbEnt
  tlbSeq  : Nat
  xreqs   : List XReq
  xnext   : Nat
  reqs    : List Req
  wins    : AMap Win
  reds    : AMap RedBuf
  acc     : AMap AccTile
  feeds   : AMap (List FeedTile)
  feedBy  : AMap (Nat × Nat)
  ports   : AMap IslPort
  turns   : AMap Nat
  steals  : List (MSet × Common × Nat)
  probes  : List (MSet × Common × Nat)
  rowStop : Stop
  colStop : Stop
  boundary : List Packet
  ctxs    : AMap CtxRt
  cmps    : AMap Comparator
  mon     : Monitor
  zero    : Bool
  clk     : Nat
  deriving DecidableEq, Repr

/-- A bay after power-on (R404, R151, R141). -/
def Bay.reset : Bay :=
  { elems := [], gates := [], wave := [], keep := [], keepPoi := [], sites := [], guards := [], pres := [], readers := []
    noReply := [], tlb := [], tlbSeq := 0, xreqs := [], xnext := 0, reqs := [], wins := [], reds := [], acc := []
    feeds := [], feedBy := [], ports := [], turns := [], steals := [], probes := [], rowStop := Stop.reset, colStop := Stop.reset
    boundary := [], ctxs := [], cmps := [], mon := Monitor.reset, zero := false, clk := 0 }

/-! ## Partitions -/

/-- A record's header fields and details (R348 to R350), less DSEQ. -/
structure RecBody where
  code  : Nat
  frz   : Nat
  bay   : Option Nat
  pos   : Option Nat
  ctx   : Nat
  gate  : Nat
  hnum  : Nat
  ix    : Nat
  elem  : Option Nat
  slot  : Nat
  tag   : Word
  lseq  : Nat
  cyc   : Nat
  d0    : Word
  d1    : Word
  d2    : Word
  d3    : Word
  deriving DecidableEq, Repr

/-- A completion record's fields (R333), less DSEQ. -/
structure CompBody where
  notify   : Nat
  fires    : Nat
  preempts : Nat
  origin   : Nat
  prio     : Nat
  nbv      : Nat
  cfg      : Nat
  seeds    : Nat
  cause    : Nat
  status   : Nat
  hseq     : Nat
  deriving DecidableEq, Repr

/-- A record the device has created for the host (R312). -/
inductive RecKind where
  | fault (r : RecBody)
  | event (r : RecBody) (lost : Nat)
  | comp (r : CompBody)
  deriving DecidableEq, Repr

/-- A created record with its DSEQ, kept until it has been performed at the host (R312). -/
structure OutRec where
  dseq : Nat
  kind : RecKind
  deriving DecidableEq, Repr

/-- What an outstanding fault froze (R351): an instance, a region, a site engine, an island generator. -/
inductive FaultAt where
  | inst (bay gate ix : Nat)
  | region (hseq : Nat) (brk : Bool)
  | engine (bay site : Nat) (back : Bool)
  | island (bay isl port : Nat) (dst : Bool)
  | restore (hseq : Nat)
  deriving DecidableEq, Repr

/-- An outstanding fault (R349, R353); `full`: it is the stall of a full poison directory, which ends when an entry frees (R380). -/
structure OutFault where
  dseq : Nat
  body : RecBody
  unit : FaultAt
  full : Bool
  deriving DecidableEq, Repr

/-- A held seed (R318): HSEQ of the host's write, none from a seed instruction. -/
structure HeldSeed where
  lseq : Nat
  hseq : Option Nat
  port : Nat
  tag  : Word
  tok  : Token
  deriving DecidableEq, Repr

/-- The states of a launch (R327). -/
inductive LaunchSt where
  | queued | ready | selected | binding | held | bound | saving | finished
  deriving DecidableEq, Repr

/-- A quiescence wave (R357): number, replies so far, and the summary of the wave before it. -/
structure Wave where
  wseq    : Nat
  replies : List (Nat × BitVec 4 × Nat)
  deriving DecidableEq, Repr

/-- What one whole wave found (R40, R362). -/
structure WaveSum where
  idle  : Bool
  frz   : Bool
  stall : Bool
  pend  : Bool
  fires : Nat
  deriving DecidableEq, Repr

/-- A saved loft granule (R367): number, whether it carries presence bits, its listed bytes by offset, its present words,
its poisoned words. -/
structure Granule where
  num  : Nat
  once : Bool
  data : List (Nat × Byte)
  pres : List Nat
  poi  : List Nat
  deriving DecidableEq, Repr

/-- One position's part of an image (R361): the bay at its snapshot, with only what belongs to the context; its loft
granules and readers. -/
structure BayImage where
  bay      : Bay
  granules : List Granule
  readers  : List Reader
  deriving DecidableEq, Repr

/-- An image of a pre-empted launch (R364, R365): its place in the image area, its length, the
origin at the save, its positions. -/
structure Image where
  off      : Nat
  len      : Nat
  origin   : Nat
  bays     : AMap BayImage
  deriving DecidableEq, Repr

/-- A launch of a partition (R315, R326 to R333). `roomFor`: the selected launch it was last pre-empted for (R329). `brk`: the BREAK
record of a precise stop under way, `quiet`: two waves found no fire in it (R390). -/
structure Launch where
  hseq     : Nat
  cfg      : Nat
  ctx      : Nat
  prio     : Nat
  rows     : Nat
  cols     : Nat
  waits    : List Nat
  seedCnt  : Nat
  notify   : Nat
  st       : LaunchSt
  everBound : Bool
  origin   : Nat
  boundAt  : Nat
  acks     : List Nat
  fires    : Nat
  seeds    : Nat
  preempts : Nat
  marked   : Bool
  toTail   : Bool
  roomFor  : Option Nat
  cancelled : Bool
  turns    : Nat
  wseq     : Nat
  wave     : Option Wave
  lastSum  : Option WaveSum
  cutNo    : Nat
  savedBy  : List Nat
  lsavedBy : List Nat
  halt     : Option Nat
  scopePol : Nat
  image    : Option Image
  brk      : Option RecBody
  quiet    : Bool
  deriving DecidableEq, Repr

/-- A hitch of a checked object (R278 to R281): its place, header words, slots and route words by span element and
number. -/
structure ObjHitch where
  pos    : Nat
  gate   : Nat
  hnum   : Nat
  words  : List Word
  slots  : List (Nat × Nat × Word)
  routes : List (Nat × Nat × Word)
  deriving DecidableEq, Repr

/-- A site record (R282): number, position or 0xFF for every one, Q0 to Q3. -/
structure ObjSite where
  no  : Nat
  pos : Nat
  q   : List Word
  deriving DecidableEq, Repr

/-- What a checked object installs (R275 to R283). -/
structure Obj where
  nbv     : Nat
  rowDir  : Nat
  colDir  : Nat
  rows    : Nat
  cols    : Nat
  strCnt  : Nat
  hitches : List ObjHitch
  sites   : List ObjSite
  recipes : AMap (List Word)
  groups  : AMap (List Word)
  seeds   : List SeedEnt
  deriving DecidableEq, Repr

/-- The runs a configuration holds on each bay of its partition (R402): first place and length of its slots by element,
sites, keep-file rows and recipes, and of each hitch's block of instance indices by 32 × gate + hnum. -/
structure Runs where
  slots   : AMap (Nat × Nat)
  sites   : Nat × Nat
  keep    : Nat × Nat
  recipes : Nat × Nat
  ix      : AMap (Nat × Nat)
  deriving DecidableEq, Repr

/-- A loaded configuration of a partition (R322, R378): its context, the checked object, its runs, the group descriptor
entries the driver paired with its numbers, the digests. -/
structure Loaded where
  handle : Nat
  ctx    : Nat
  obj    : Obj
  runs   : Runs
  gds    : AMap Nat
  dig    : BitVec 512
  feham  : BitVec 512
  deriving DecidableEq, Repr

/-- A load under way (R323): command, its outcome, and the configuration it installed. -/
structure LoadJob where
  cseq   : Nat
  status : Nat
  err    : Word
  cfg    : Option Loaded
  deriving DecidableEq, Repr

/-- A shootdown under way (R343). -/
structure Shoot where
  sseq   : Nat
  kind   : Nat
  base   : Nat
  npg    : Nat
  deriving DecidableEq, Repr

/-- A trace buffer's control block and writer (R392, R395, R397). Records of a bay lost since its last one kept: `owedQ` at the writer's
full queue, `owed` at the full buffer; `closing`: the session ends when its records are written, true after CQRESET; `since`: one more
than the cycle of the last TRACE_LOST, by the clock of `sinceBay`, `logged`: losses it told of. -/
structure TraceBuf where
  base  : Word
  size  : Word
  ctl   : Word
  wptr  : Nat
  lost  : Nat
  queue : List TraceRec
  owedQ : AMap Nat
  owed  : AMap Nat
  closing : Option Bool
  since : Nat
  sinceBay : Nat
  logged : Nat
  deriving DecidableEq, Repr

/-- A partition: its registers, its link state, its distributor and record unit. `granted`: the runs of LPDDR granted to it (R193, R341),
none while nothing is known to be withheld; the spec gives no register that grants (log 93). `gdAnswer`: the descriptor entries the
driver answers a load with, in order (R282, log 28). `parked`: addresses at which walks of agents that have no bay are parked (R346). -/
structure Part where
  bays0   : Word
  bays1   : Word
  bays2   : Word
  pctl    : Word
  zbusy   : Bool
  epochNo : Nat
  sealSrc : Word
  sealDst : Word
  sealSeq : Nat
  sealSt  : Nat
  scopePol : Nat
  dbgctl  : Bool
  quota   : Nat
  troot   : Word
  granted : Option (List (Nat × Nat))
  gdtBase : Word
  gdAnswer : List Nat
  shootVa : Word
  shootDone : Nat
  shootStat : Nat
  shoot   : Option Shoot
  parked  : List Nat
  fqBase  : Word
  fqCons  : Nat
  fqProd  : Nat
  eqBase  : Word
  eqCons  : Nat
  eqProd  : Nat
  fcStat  : Word
  lostEv  : Nat
  imgBase : Word
  imgSize : Word
  ldAddr  : Word
  ldLen   : Word
  ldHandle : Word
  ldBayWin : Word
  ldStat  : Word
  ldErr   : Word
  job     : Option LoadJob
  configs : AMap Loaded
  hacc    : Nat
  hdup    : Nat
  hgapCnt : Nat
  hgapSeq : Nat
  refSeq  : Nat
  refCause : Nat
  lossCnt : Nat
  epoch   : Nat
  hbad    : Nat
  dnext   : Nat
  dlComp  : Nat
  dlFault : Nat
  dlEvent : Nat
  records : List OutRec
  faults  : List OutFault
  launches : List Launch
  seeds   : List HeldSeed
  bindNo  : Nat
  trace   : AMap TraceBuf
  deriving DecidableEq, Repr

/-- A partition after power-on: EN = 0. DESIGN CHOICE (log 1): registers whose reset the spec does not state are zero;
those it states are set when the partition is created (R310 to R313, R373). -/
def Part.reset : Part :=
  { bays0 := 0, bays1 := 0, bays2 := 0, pctl := 0, zbusy := false, epochNo := 0, sealSrc := 0, sealDst := 0, sealSeq := 0
    sealSt := 0, scopePol := 5, dbgctl := false, quota := 0, troot := 0, granted := none, gdtBase := 0, gdAnswer := [], shootVa := 0
    shootDone := 0, shootStat := 0, shoot := none, parked := [], fqBase := 0, fqCons := 0, fqProd := 0, eqBase := 0, eqCons := 0
    eqProd := 0, fcStat := 0, lostEv := 0, imgBase := 0, imgSize := 0, ldAddr := 0, ldLen := 0, ldHandle := 0
    ldBayWin := 0, ldStat := 0, ldErr := 0, job := none, configs := [], hacc := 0, hdup := 0, hgapCnt := 0, hgapSeq := 0
    refSeq := 0, refCause := 0, lossCnt := 0, epoch := 0, hbad := 0, dnext := 1, dlComp := 0, dlFault := 0, dlEvent := 0
    records := [], faults := [], launches := [], seeds := [], bindNo := 0, trace := [] }

/-! ## The device -/

/-- A splice channel's binding register (R319); `lost`: its link went down; `up`: the far end's binding names it. -/
structure Chan where
  en    : Bool
  owner : Nat
  dev   : Nat
  port  : Nat
  chan  : Nat
  lost  : Bool
  up    : Bool
  deriving DecidableEq, Repr

/-- A correction counter of a location (R382): LOC, index, the bay that reports, corrections not yet logged, the reporting bay's
clock when the interval began. -/
structure EccCnt where
  loc   : Nat
  idx   : Nat
  bay   : Option Nat
  more  : Nat
  since : Nat
  deriving DecidableEq, Repr

/-- An operating-point change (R385). -/
structure DieOp where
  op   : Nat
  busy : Bool
  deriving DecidableEq, Repr

/-- Boot (R378): not yet run, running with the measurement, or stopped at a stage. -/
inductive BootSt where
  | off
  | up (m : BitVec 512)
  | failed (stage : Nat)
  deriving DecidableEq, Repr

/-- Where an error lies (R379): a buffer of a site; a register of the keep file; an operand in a frame entry, in an issue set, or in a set
that waits with its row, with its parking buffer; a unit of a wave entry; a unit of an accumulator tile; a tile of a feed port; a flit on
an in-bay link, by the place of its token among the happenings under way; a loft word or an LPDDR sector, by its address, that an access
reads. -/
inductive UpsetAt where
  | buffer (bay site buf : Nat)
  | keep (bay row reg : Nat)
  | entry (bay el gate ix slot port : Nat)
  | operand (bay el place port : Nat)
  | waiting (bay el place port : Nat)
  | unit (addr : Nat)
  | wave (bay place unit : Nat)
  | acc (bay tile unit : Nat)
  | feed (bay feed place : Nat)
  | flit (place : Nat)
  | nowhere
  deriving DecidableEq, Repr

/-- An error of a store or an in-bay link, and whether the code corrects it. -/
structure Upset where
  place : UpsetAt
  fixed : Bool
  deriving DecidableEq, Repr

/-- The whole device. -/
structure State where
  /-- Memory by address: LPDDR at its physical address, the loft of bay b at the address R334 gives it by bay number,
  host memory of function n above (see `hostKey`). Addresses rise; no entry equals what an unlisted address reads as. -/
  mem       : List Host.Cell
  /-- Poisoned units: 8-byte loft words and 32-byte LPDDR sectors, by the address of their first byte (R380). -/
  poison    : List Nat
  /-- Sectors the LPDDR packages report as uncorrectable (R380). -/
  pkgBad    : List Nat
  bays      : AMap Bay
  parts     : AMap Part
  /-- The physical function's record queues, pair 32 (R347). -/
  pf        : Part
  boot      : BootSt
  link      : Nat
  devnum    : BitVec 20
  chans     : AMap Chan
  spliceDown : List Nat
  spliceDrop : AMap Nat
  spliceOut : List SpliceFrame
  bridgeLost : List Nat
  offline   : List Nat
  dieop     : AMap DieOp
  ecc       : List EccCnt
  zeroQ     : List (Nat × Nat)
  /-- The model's own (log 3, log 4): happenings under way, what the outside will do, which candidate moves next, flit
  errors the links will make, errors the stores and in-bay links will make as time passes, what the read-backs of the coming loads will
  find on each bay, the matched set being fired, the free-value counter. -/
  flight    : List Instr
  inputs    : List Instr
  picks     : List Nat
  flitErrs  : List FlitErr
  upsets    : List Upset
  readBack  : List (List (Nat × ConfigErr))
  fire      : Option (Nat × MSet)
  freeCtr   : Nat
  deriving DecidableEq, Repr

/-- The device at power-on, before boot (R404, R378): storage is written zero by the boot firmware, and reads as zero.
DESIGN CHOICE (log 1): the links are up, no channel is bound, DEVNUM is zero, no bay is offline. -/
def State.reset : State :=
  { mem := [], poison := [], pkgBad := [], bays := [], parts := [], pf := Part.reset, boot := .off, link := 0, devnum := 0
    chans := [], spliceDown := [], spliceDrop := [], spliceOut := [], bridgeLost := [], offline := [], dieop := [], ecc := []
    zeroQ := [], flight := [], inputs := [], picks := [], flitErrs := [], upsets := [], readBack := [], fire := none, freeCtr := 0 }

/-- Why a step stops with a fault of the model. No meaning and no step raises one: every fault of the spec is a next
state with a record (R347 to R352). Safe. -/
inductive Fault where
  /-- Raised by nothing: the machine never ends work on its own (R2). Safe. -/
  | ended
  deriving DecidableEq, Repr

/-- Why a step has no meaning. -/
inductive Refusal where
  /-- An arm of `exec` whose instruction has no meaning yet. Safe. -/
  | notModelled (mnemonic : String)
  deriving DecidableEq, Repr

end Sys2Proof.Machine
end

