-- ==== Sys2Proof/Machine/Ops.lean ====
section
/-!
DEFINITION. Sys2Proof/Machine/Ops.lean: the named operations over the state: numbered lists, accessors, memory, poison,
records, and taking a fault (R347 to R352) with the return from it.
-/
namespace Sys2Proof.Machine

open Sys2Proof

/-! ## Numbered lists -/

/-- The entry numbered `k`. -/
def AMap.get? {α : Type} : AMap α → Nat → Option α
  | [], _ => none
  | (j, x) :: m, k => if j = k then some x else AMap.get? m k

/-- The entry numbered `k`, or `d`. -/
def AMap.getD {α : Type} (m : AMap α) (k : Nat) (d : α) : α := (AMap.get? m k).getD d

/-- Put an entry, keeping the numbers in ascending order. -/
def AMap.set {α : Type} : AMap α → Nat → α → AMap α
  | [], k, v => [(k, v)]
  | (j, x) :: m, k, v =>
    if k < j then (k, v) :: (j, x) :: m
    else if k = j then (k, v) :: m
    else (j, x) :: AMap.set m k v

/-- Take an entry out. -/
def AMap.erase {α : Type} (m : AMap α) (k : Nat) : AMap α := m.filter (fun e => e.1 != k)

/-- Replace an entry if it is there. -/
def AMap.upd {α : Type} (m : AMap α) (k : Nat) (f : α → α) : AMap α :=
  m.map fun e => if e.1 = k then (e.1, f e.2) else e

/-- The numbers of a list. -/
def AMap.keys {α : Type} (m : AMap α) : List Nat := m.map (·.1)

/-- A list with a number put in, without repeats, ascending. -/
def insertNat (k : Nat) : List Nat → List Nat
  | [] => [k]
  | j :: l => if k < j then k :: j :: l else if k = j then j :: l else j :: insertNat k l

/-- Replace the element at a place of a list. -/
def setAt {α : Type} : List α → Nat → α → List α
  | [], _, _ => []
  | _ :: l, 0, v => v :: l
  | x :: l, n + 1, v => x :: setAt l n v

/-- Change the element at a place of a list. -/
def modAt {α : Type} : List α → Nat → (α → α) → List α
  | [], _, _ => []
  | x :: l, 0, f => f x :: l
  | x :: l, n + 1, f => x :: modAt l n f

/-- Take out the element at a place of a list. -/
def dropAt {α : Type} : List α → Nat → List α
  | [], _ => []
  | _ :: l, 0 => l
  | x :: l, n + 1 => x :: dropAt l n

/-- The place of the first element that passes. -/
def placeOf {α : Type} (p : α → Bool) : List α → Nat → Option Nat
  | [], _ => none
  | x :: l, n => if p x then some n else placeOf p l (n + 1)

/-- The first element with a number greater than or equal to 0 in ascending order of a key: a stable insertion sort. -/
def insertBy {α : Type} (key : α → Nat) (x : α) : List α → List α
  | [] => [x]
  | y :: l => if key x < key y then x :: y :: l else y :: insertBy key x l

def sortBy {α : Type} (key : α → Nat) (l : List α) : List α := l.foldl (fun acc x => insertBy key x acc) []

/-! ## Accessors -/

/-- The key of a hitch in its gate: its context and number. Two contexts never hold one number of a gate (R11). -/
def hKey (ctx h : Nat) : Nat := 32 * ctx + h % 32

namespace State

def bay (s : State) (b : Nat) : Bay := AMap.getD s.bays b Bay.reset
def setBay (s : State) (b : Nat) (v : Bay) : State := { s with bays := AMap.set s.bays b v }
def modBay (s : State) (b : Nat) (f : Bay → Bay) : State := s.setBay b (f (s.bay b))

def gate (s : State) (b g : Nat) : Gate := AMap.getD (s.bay b).gates g Gate.reset
def modGate (s : State) (b g : Nat) (f : Gate → Gate) : State :=
  s.modBay b fun y => { y with gates := AMap.set y.gates g (f (AMap.getD y.gates g Gate.reset)) }

def elem (s : State) (b e : Nat) : Element := AMap.getD (s.bay b).elems e Element.reset
def modElem (s : State) (b e : Nat) (f : Element → Element) : State :=
  s.modBay b fun y => { y with elems := AMap.set y.elems e (f (AMap.getD y.elems e Element.reset)) }

def inst? (s : State) (b g ix : Nat) : Option Inst := AMap.get? (s.gate b g).insts ix
def modInst (s : State) (b g ix : Nat) (f : Inst → Inst) : State :=
  s.modGate b g fun y => { y with insts := AMap.upd y.insts ix f }

def hitch? (s : State) (b g ctx h : Nat) : Option HitchCfg := AMap.get? (s.gate b g).hitches (hKey ctx h)
def modHitch (s : State) (b g ctx h : Nat) (f : HitchCfg → HitchCfg) : State :=
  s.modGate b g fun y => { y with hitches := AMap.upd y.hitches (hKey ctx h) f }

def ctx? (s : State) (b c : Nat) : Option CtxRt := AMap.get? (s.bay b).ctxs c
def modCtx (s : State) (b c : Nat) (f : CtxRt → CtxRt) : State :=
  s.modBay b fun y => { y with ctxs := AMap.upd y.ctxs c f }

def site? (s : State) (b k : Nat) : Option Site := AMap.get? (s.bay b).sites k
def modSite (s : State) (b k : Nat) (f : Site → Site) : State :=
  s.modBay b fun y => { y with sites := AMap.upd y.sites k f }

/-- The queue pair 32 is the physical function's (R347). -/
def part (s : State) (n : Nat) : Part := if n = Config.parts then s.pf else AMap.getD s.parts n Part.reset
def modPart (s : State) (n : Nat) (f : Part → Part) : State :=
  if n = Config.parts then { s with pf := f s.pf }
  else { s with parts := AMap.set s.parts n (f (AMap.getD s.parts n Part.reset)) }

def launch? (s : State) (n h : Nat) : Option Launch := (s.part n).launches.find? (·.hseq == h)
def modLaunch (s : State) (n h : Nat) (f : Launch → Launch) : State :=
  s.modPart n fun p => { p with launches := p.launches.map fun l => if l.hseq == h then f l else l }

def port (s : State) (b isl p : Nat) : IslPort := AMap.getD (s.bay b).ports (4 * isl + p) IslPort.reset
def modPort (s : State) (b isl p : Nat) (f : IslPort → IslPort) : State :=
  s.modBay b fun y => { y with ports := AMap.set y.ports (4 * isl + p) (f (AMap.getD y.ports (4 * isl + p) IslPort.reset)) }

/-- Put a happening under way. -/
def send (s : State) (i : Instr) : State := { s with flight := s.flight ++ [i] }

/-- A free value (log 4): the next one, and the counter advanced. -/
def fresh (s : State) : Word × State := (Config.freeWord s.freeCtr, { s with freeCtr := s.freeCtr + 1 })

end State

/-! ## Bits of words -/

/-- Bits `lo + n − 1 : lo` of a word, as a number. -/
def bits {w : Nat} (v : BitVec w) (lo n : Nat) : Nat := (v.extractLsb' lo n).toNat

/-- Are these bits all zero? -/
def bitsZero {w : Nat} (v : BitVec w) (lo n : Nat) : Bool := bits v lo n == 0

/-- A word from a number. -/
def word (n : Nat) : Word := BitVec.ofNat 64 n

/-- Bit `i` of a number. -/
def natBit (n i : Nat) : Bool := n.testBit i

/-- The places of the bits set in a word. -/
def setBits {w : Nat} (v : BitVec w) : List Nat := (List.range w).filter fun i => v.getLsbD i

/-- Bits from the low end, as a number. -/
def ofBits (l : List Bool) : Nat := l.foldr (fun b n => 2 * n + b.toNat) 0

/-- A word with the given bits set. -/
def wordOfBits (l : List Nat) : Word := l.foldl (fun v i => v ||| (1#64 <<< i)) 0

/-! ## Memory -/

/-- Is this address on the die, in a loft slice (R334)? -/
def onDie (a : Nat) : Bool := Config.loftByBay ≤ a && a < Config.loftByBay + Config.bays * Config.sliceStep

/-- Is this address in LPDDR (R334)? -/
def inLpddr (a : Nat) : Bool := a < Config.lpddr

/-- The key of a byte of host memory of function `fn`. -/
def hostKey (fn a : Nat) : Nat := Config.phys * (fn + 1) + a

/-- The key of a byte of bay `b`'s loft slice (R334). -/
def loftKey (b o : Nat) : Nat := Config.loftByBay + b * Config.sliceStep + o

/-- Is an address in the slice of a bay? -/
def inSlice (b a : Nat) : Bool := loftKey b 0 ≤ a && a < loftKey b 0 + Config.slice

/-- What an address that is not listed holds: zero on the die (R404, R374), nothing known elsewhere (log 2). -/
def unlisted (a : Nat) : Option Byte := if onDie a then some 0 else none

/-- The bytes of memory in their one form: addresses rising, no entry that reads as an unlisted one. -/
def memWf : List Host.Cell → Bool
  | [] => true
  | [(a, v)] => some v != unlisted a
  | (a, v) :: (b, w) :: m => some v != unlisted a && a < b && memWf ((b, w) :: m)

/-- The listed byte of an address. -/
def memGet? : List Host.Cell → Nat → Option Byte
  | [], _ => none
  | (a, v) :: m, k => if a = k then some v else memGet? m k

/-- Put a byte where it belongs. -/
def memPut : List Host.Cell → Nat → Byte → List Host.Cell
  | [], k, v => [(k, v)]
  | (a, x) :: m, k, v =>
    if k < a then (k, v) :: (a, x) :: m
    else if k = a then (k, v) :: m
    else (a, x) :: memPut m k v

/-- Take an address off the list. -/
def memDrop : List Host.Cell → Nat → List Host.Cell
  | [], _ => []
  | (a, x) :: m, k => if k = a then m else (a, x) :: memDrop m k

/-- Write one byte. -/
def memSet (m : List Host.Cell) (k : Nat) (v : Byte) : List Host.Cell :=
  if some v = unlisted k then memDrop m k else memPut m k v

/-- The memory keeps its form. -/
abbrev Memory.wf (s : State) : Bool := memWf s.mem

/-- Read one byte. -/
def State.byte (s : State) (a : Nat) : Byte :=
  match memGet? s.mem a with
  | some v => v
  | none => (unlisted a).getD (Config.powerOnByte a)

/-- Read bytes. -/
def State.readBytes (s : State) (a n : Nat) : List Byte := (List.range n).map fun i => s.byte (a + i)

/-- Read a little-endian word (R4). -/
def State.readWord (s : State) (a : Nat) : Word := word (leNat (s.readBytes a 8))

/-- Write one byte. -/
def State.setByte (s : State) (a : Nat) (v : Byte) : State := { s with mem := memSet s.mem a v }

/-- The first byte of the protected unit of an address, and the unit's size: 8 bytes on the die, 32 in LPDDR (R379). -/
def unitSize (a : Nat) : Nat := if onDie a then 8 else 32
def unitOf (a : Nat) : Nat := a / unitSize a * unitSize a

/-- Does a read of these bytes take a poisoned unit (R380)? -/
def State.poisoned (s : State) (a n : Nat) : Bool :=
  (List.range n).any fun i => s.poison.contains (unitOf (a + i)) || s.pkgBad.contains (unitOf (a + i))

/-- The LPDDR channel of an address (R403). -/
def channelOf (a : Nat) : Nat := a / 256 % 96

/-- Entries of a channel's poison directory in use (R380). -/
def State.dirUsed (s : State) (ch : Nat) : Nat := (s.poison.filter fun u => inLpddr u && channelOf u == ch).length

/-- Does the fault that stops an engine or a generator stop it still? The stall of a full poison directory ends when an entry of its
channel frees (R380). -/
def State.stopStands (s : State) (n : Nat) (d : Option Nat) : Bool :=
  d.any fun d => !((s.part n).faults.any fun f => f.dseq == d && f.full && s.dirUsed (channelOf f.body.d1.toNat) < Config.poisonDir)

/-- The addresses of bytes written one after another. -/
def putBytes : List Host.Cell → Nat → List Byte → List Host.Cell
  | m, _, [] => m
  | m, a, b :: bs => putBytes (memSet m a b) (a + 1) bs

/-- Units a write touches, and those it covers whole. -/
def unitsTouched (a n : Nat) : List Nat := ((List.range n).map fun i => unitOf (a + i)).eraseDups
def unitsCovered (a n : Nat) : List Nat :=
  (unitsTouched a n).filter fun u => a ≤ u && u + unitSize u ≤ a + n

/-- Write bytes at a home. A whole unit loses its mark, a partial write leaves it; a poisoned write marks what it
touches (R380). Host memory holds no marks. -/
def State.writeBytes (s : State) (a : Nat) (bs : List Byte) (poi : Bool) : State :=
  let n := bs.length
  let cov := if a < Config.phys then unitsCovered a n else []
  let s := { s with mem := putBytes s.mem a bs, pkgBad := s.pkgBad.filter fun u => !cov.contains u }
  if poi && a < Config.phys then
    { s with poison := (unitsTouched a n).foldl (fun l u => insertNat u l) s.poison }
  else { s with poison := s.poison.filter fun u => !cov.contains u }

/-! ## Bays, regions -/

/-- The global bay-row and bay-column of a bay (R324). -/
def bayRow (b : Nat) : Nat := b / 8
def bayCol (b : Nat) : Nat := b % 8
/-- The die of a bay (R134). -/
def dieOf (b : Nat) : Nat := b / 80

/-- The partition a bay belongs to, of those with EN = 1 (R371, R372). -/
def Part.en (p : Part) : Bool := p.pctl.getLsbD 63
/-- Enclave: ENCL ends, and its keys are destroyed, with EN (R372, R375). -/
def Part.encl (p : Part) : Bool := p.pctl.getLsbD 63 && p.pctl.getLsbD 62
def Part.valBrk (p : Part) : Bool := p.pctl.getLsbD 61
def Part.valCap (p : Part) : Bool := p.pctl.getLsbD 60
def Part.tenant (p : Part) : Nat := bits p.pctl 44 16
def Part.hasBay (p : Part) (b : Nat) : Bool :=
  if b < 64 then p.bays0.getLsbD b else if b < 128 then p.bays1.getLsbD (b - 64) else p.bays2.getLsbD (b - 128)
def Part.bayList (p : Part) : List Nat := (List.range Config.bays).filter p.hasBay

def State.ownerOf (s : State) (b : Nat) : Option Nat :=
  (s.parts.find? fun e => e.2.en && e.2.hasBay b).map (·.1)

/-- Are values of the partition's program hidden from debug and trace (R377)? -/
def Part.hidesBrk (p : Part) : Bool := p.encl && !p.valBrk
def Part.hidesCap (p : Part) : Bool := p.encl && !p.valCap

/-- DBGCTL.BRKEN as it reads (R373, R377). -/
def Part.brkEn (p : Part) : Bool := p.dbgctl && !p.hidesBrk

/-- The bay at a region position, through the slice map (R335). -/
def CtxRt.bayAt (c : CtxRt) (pos : Nat) : Option Nat := if pos < c.rows * c.cols then c.map[pos]? else none

/-- Region positions of a context (R324). -/
def CtxRt.npos (c : CtxRt) : Nat := c.rows * c.cols

/-- The bays of a launch's region: those where its context is bound to it. -/
def State.regionBays (s : State) (part ctx hseq : Nat) : List Nat :=
  (s.bays.filter fun e =>
    match AMap.get? e.2.ctxs ctx with
    | some c => c.part == part && c.bound == some hseq
    | none => false).map (·.1)

/-- The origin bay of a context's region: the bay of position 0 (R324). -/
def CtxRt.origin (c : CtxRt) : Nat := c.map.headD 0

/-! ## Hitches and tags -/

/-- Word n of a hitch header (R86). -/
def HitchCfg.w (h : HitchCfg) (n : Nat) : Word := h.words.getD n 0
def HitchCfg.mode (h : HitchCfg) : Nat := bits (h.w 0) 62 2
def HitchCfg.seq (h : HitchCfg) : Bool := h.mode == 0 || h.mode == 2
def HitchCfg.dmin (h : HitchCfg) : Nat := bits (h.w 0) 54 8 + 1
def HitchCfg.dmax (h : HitchCfg) : Nat := bits (h.w 0) 46 8 + 1
def HitchCfg.spanLen (h : HitchCfg) : Nat := bits (h.w 0) 42 4 + 1
def HitchCfg.entries (h : HitchCfg) : Nat := bits (h.w 0) 39 3 + 1
def HitchCfg.depth (h : HitchCfg) : Nat := bits (h.w 0) 36 3
/-- Width of field i (R13, R86). -/
def HitchCfg.width (h : HitchCfg) (i : Nat) : Nat := bits (h.w 0) (31 - 5 * i) 5 + 1
def HitchCfg.widths (h : HitchCfg) : List Nat := (List.range h.depth).map h.width
def HitchCfg.storeMask (h : HitchCfg) : List Nat := setBits ((h.w 1).extractLsb' 32 32)
def HitchCfg.entNet (h : HitchCfg) (i : Nat) : Nat := bits (h.w 1) (16 + 2 * i) 2
def HitchCfg.exitMask (h : HitchCfg) : List Nat := setBits ((h.w 1).extractLsb' 8 8)
def HitchCfg.keepMask (h : HitchCfg) : List Nat := setBits (h.w 2)
def HitchCfg.entTarget (h : HitchCfg) (i : Nat) : Target :=
  if i < 4 then (h.w 3).extractLsb' (11 * i) 11 else (h.w 4).extractLsb' (11 * (i - 4)) 11
def HitchCfg.spanEl (h : HitchCfg) (j : Nat) : Nat :=
  if j < 8 then bits (h.w 5) (7 * j) 7 else bits (h.w 6) (7 * (j - 8)) 7
def HitchCfg.span (h : HitchCfg) : List Nat := (List.range h.spanLen).map h.spanEl

/-- The lowest bit of field i of a layout (R13). -/
def fieldLo (ws : List Nat) (i : Nat) : Nat := 58 - (ws.take (i + 1)).foldl (· + ·) 0

/-- Field i of a tag. -/
def tagField (ws : List Nat) (t : Word) (i : Nat) : Nat := bits t (fieldLo ws i) (ws.getD i 0)

/-- A word with a run of its bits replaced. -/
def putBits (t : Word) (lo n v : Nat) : Word :=
  (t &&& ~~~(BitVec.ofNat 64 (2 ^ n - 1) <<< lo)) ||| (BitVec.ofNat 64 (v % 2 ^ n) <<< lo)

/-- A tag with field i replaced. -/
def tagPut (ws : List Nat) (t : Word) (i v : Nat) : Word := putBits t (fieldLo ws i) (ws.getD i 0) v

/-- A tag with its DEPTH replaced (R12). -/
def tagDepth (t : Word) (d : Nat) : Word := putBits t 58 3 d
def tagCtx (t : Word) : Nat := bits t 61 3
def tagPutCtx (t : Word) (c : Nat) : Word := putBits t 61 3 c

/-- Bits 57:0, by which tags of one layout compare (R14). -/
def tagOrd (t : Word) : Nat := bits t 0 58

/-- Does a tag follow a layout (R13, R42)? -/
def tagFits (ws : List Nat) (t : Word) : Bool :=
  bits t 58 3 == ws.length && bitsZero t 0 (58 - ws.foldl (· + ·) 0)

/-- The value of field 0, the strand; none at depth 0 (R22). -/
def strandOf (ws : List Nat) (t : Word) : Option Nat := if ws.isEmpty then none else some (tagField ws t 0)

/-! ## Slots and spans -/

/-- Where tokens come from on a bay, beside elements 0 to 127 (R132): gates, memory nodes, island ports, the translation node,
the ring stops, the seed port. -/
def gateSrc (g : Nat) : Nat := 128 + g
def nodeSrc (n : Nat) : Nat := 136 + n
def islSrc (isl p : Nat) : Nat := 144 + 4 * isl + p
/-- The first source of island tokens that came into being under a region freeze, 64 above the others (R351). -/
def heldSrc : Nat := 208
def xlatSrc : Nat := 160
def ringSrc : Nat := 161
def seedSrc : Nat := 162

def targetSe (t : Target) : Nat := bits t 7 4
def targetSlot (t : Target) : Nat := bits t 2 5
def targetPort (t : Target) : Nat := bits t 0 2

/-- The installed slot of an element (R280). -/
def State.slot (s : State) (b e k : Nat) : SlotCell := AMap.getD (s.elem b e).slots k SlotCell.reset

/-- A token to a target of an instance's span: the sender turns the span element into the bay element (R132); an installed
target names the installed slot (R280). Nothing goes to 0x7FF (R76). -/
def State.sendTarget (s : State) (b g ix : Nat) (hn ctx : Nat) (src : Nat) (t : Target) (k : Token) : State :=
  if t = noTarget then s
  else
    match s.hitch? b g ctx hn with
    | none => s
    | some h =>
      s.send (.tokenArrive
        { bay := b, el := h.spanEl (targetSe t), slot := targetSlot t, port := targetPort t
          ctx := ctx, gate := g, ix := ix, src := src, tok := k })

/-- A scalar, control and vector token, and a null of a network. -/
def scTok (v : Word) : Token := ⟨.sc v, false, false⟩
def ctTok (b : Bool) : Token := ⟨.ct (BitVec.ofBool b), false, false⟩
def vecTok (v : Vec) : Token := ⟨.vec v, false, false⟩
def nullOn (v : Val) : Token :=
  match v with
  | .sc _ => ⟨.sc 0, true, false⟩
  | .vec _ => ⟨.vec 0, true, false⟩
  | .ct _ => ⟨.ct 0, true, false⟩

/-- The network of a token: 0 scalar, 1 vector, 2 control (R86). -/
def valNet : Val → Nat
  | .sc _ => 0 | .vec _ => 1 | .ct _ => 2

/-- The value of a token read as a scalar; bits 63:0 of a vector. -/
def valWord : Val → Word
  | .sc v => v
  | .vec v => v.setWidth 64
  | .ct v => v.setWidth 64

/-- The value of a token read as a vector. -/
def valVec : Val → Vec
  | .sc v => v.setWidth 1024
  | .vec v => v
  | .ct v => v.setWidth 1024

/-- The value of a token read as b1. -/
def valBit (v : Val) : Bool := (valWord v).getLsbD 0

/-! ## Records -/

/-- A record's fields when nothing applies (R348). -/
def RecBody.blank (code frz : Nat) : RecBody :=
  { code := code, frz := frz, bay := none, pos := none, ctx := 0, gate := 0, hnum := 0, ix := 0, elem := none, slot := 0
    tag := 0, lseq := 0, cyc := 0, d0 := 0, d1 := 0, d2 := 0, d3 := 0 }

/-- The record fields of an instance on a bay (R348). -/
def State.recOf (s : State) (b ctx : Nat) (code frz : Nat) : RecBody :=
  match s.ctx? b ctx with
  | none => { RecBody.blank code frz with bay := some b, ctx := ctx, cyc := (s.bay b).clk }
  | some c =>
    { RecBody.blank code frz with
      bay := some b, pos := some c.position, ctx := ctx, lseq := c.bound.getD 0, cyc := (s.bay b).clk - c.since }

/-- Events of a partition waiting to be written (R347). -/
def Part.waitingEvents (p : Part) : Nat :=
  (p.records.filter fun r => match r.kind with | .event _ _ => true | _ => false).length

/-- Create a record: it takes the next DSEQ (R312). -/
def Part.create (p : Part) (k : RecKind) : Part :=
  { p with records := p.records ++ [⟨p.dnext, k⟩], dnext := (p.dnext + 1) % 2 ^ 32 }

/-- Log an event: dropped and counted when 256 wait (R347); else it carries LOST and clears it. -/
def Part.event (p : Part) (r : RecBody) : Part :=
  if Config.eventsWaiting ≤ p.waitingEvents then { p with lostEv := p.lostEv + 1 }
  else { p.create (.event r (Nat.min p.lostEv 255)) with lostEv := 0 }

/-- Log an event with the partition a bay belongs to, and a copy with the physical function (R382). -/
def State.eventFor (s : State) (b : Option Nat) (r : RecBody) : State :=
  let s := match b with
    | none => s
    | some b =>
      match s.ownerOf b with
      | none => s
      | some n => s.modPart n (·.event r)
  { s with pf := s.pf.event { r with pos := r.pos, bay := b } }

/-- Data values that R377 hides in fault records: ILLEGAL_SLOT D2, BREAK D1, TAG_OVERFLOW D2. -/
def hideValues (p : Part) (r : RecBody) : RecBody :=
  if p.hidesCap then
    if r.code = 0x01 || r.code = 0x02 then { r with d2 := 0 }
    else if r.code = 0x31 then { r with d1 := 0 }
    else r
  else r

/-- Create a fault record and note the fault outstanding (R349). -/
def State.fault (s : State) (n : Nat) (r : RecBody) (u : FaultAt) (full : Bool := false) : State :=
  s.modPart n fun p => { p.create (.fault (hideValues p r)) with faults := p.faults ++ [⟨p.dnext, r, u, full⟩] }

/-- The DSEQ the next fault of a partition takes. -/
def State.nextDseq (s : State) (n : Nat) : Nat := (s.part n).dnext

/-- The partition of a context on a bay. -/
def State.partOf (s : State) (b ctx : Nat) : Nat := ((s.ctx? b ctx).map (·.part)).getD Config.parts

/-! ## Taking a fault, and the return from it -/

/-- Freeze an instance (R34, R351): the record is queued, the instance keeps what it had and what it will do on RESUME.
An instance that is frozen already raises nothing (R352). -/
def State.takeFault (s : State) (b g ix : Nat) (code : Nat) (elem : Option Nat) (slot : Nat) (d : Word × Word × Word × Word)
    (again : Again) : State :=
  match s.inst? b g ix with
  | none => s
  | some i =>
    if i.st = .frozen then s
    else
      let n := s.partOf b i.ctx
      let r := { s.recOf b i.ctx code 1 with
        gate := g, hnum := i.hnum, ix := ix, elem := elem, slot := slot, tag := i.tag
        d0 := d.1, d1 := d.2.1, d2 := d.2.2.1, d3 := d.2.2.2 }
      let dseq := s.nextDseq n
      let s := s.fault n r (.inst b g ix)
      s.modInst b g ix fun i => { i with st := .frozen, prev := i.st, fault := some dseq, again := again }

/-- The return from it: the instance is in the state before the freeze (R34). -/
def State.unfreeze (s : State) (b g ix : Nat) : State :=
  s.modInst b g ix fun i => if i.st = .frozen then { i with st := i.prev, fault := none, again := .none } else i

/-- Freeze a region (R351): on every bay of the launch, for the context. -/
def State.freezeRegion (s : State) (part ctx hseq : Nat) (v : Bool) : State :=
  (s.regionBays part ctx hseq).foldl (fun s b => s.modCtx b ctx fun c => { c with frozen := v }) s

/-- Raise a fault that freezes a region (R349 FRZ 10). -/
def State.takeRegionFault (s : State) (b ctx : Nat) (r : RecBody) : State :=
  match s.ctx? b ctx with
  | none => s
  | some c =>
    match c.bound with
    | none => s
    | some h => (s.fault c.part r (.region h false)).freezeRegion c.part ctx h true

/-- Stop an address generator of a site (R175): its fill engine, or its write-back engine, stands still under its fault. -/
def State.stopEngine (s : State) (b site ctx : Nat) (back : Bool) (r : RecBody) (full : Bool := false) : State :=
  match s.site? b site with
  | none => s
  | some x =>
    if (if back then x.stopBack else x.stopped).isSome then s
    else
      let n := s.partOf b ctx
      let dseq := s.nextDseq n
      (s.fault n r (.engine b site back) full).modSite b site fun x =>
        if back then { x with stopBack := some dseq } else { x with stopped := some dseq }

/-- Stall a generator of an island port, its destination's or another (R259): one record per stalled generator. TAG is the command's
(R348). -/
def State.stallIsland (s : State) (b isl port : Nat) (k : IslCmd) (dst : Bool) (code : Nat) (d : Word × Word × Word × Word)
    (full : Bool := false) : State :=
  let q := s.port b isl port
  if (if dst then q.stallDst else q.stall).isSome then s
  else
    let n := s.partOf b k.ctx
    let r := { s.recOf b k.ctx code 3 with tag := k.tag, d0 := d.1, d1 := d.2.1, d2 := d.2.2.1, d3 := d.2.2.2 }
    let dseq := s.nextDseq n
    (s.fault n r (.island b isl port dst) full).modPort b isl port fun q =>
      if dst then { q with stallDst := some dseq } else { q with stall := some dseq }

/-! ## What is under way for an instance -/

/-- Is an instance discarded when it settles: it is discarding and not pinned (R33, R34)? -/
def Inst.discards (i : Inst) : Bool := i.discard && !i.pinned

/-- Is this slot set of the instance? -/
def MSet.of (m : MSet) (g ix : Nat) : Bool := m.gate == g && m.ix == ix

/-- Tokens that an accepted island command still owes its instance (R236). -/
def IslCmd.owed (k : IslCmd) : Nat := (if k.c.t0 = noTarget then 0 else 1) + (if k.c.t1 = noTarget then 0 else 1)

/-- Has every lower LSID that the hitch bears fired (R184)? -/
def lowerFired (h : HitchCfg) (i : Inst) (lsid : Nat) : Bool :=
  h.lsids.all fun l => lsid ≤ l || i.fired.contains l

/-- Units an operation of the wave adds to the in-flight count: it has been issued and is not done, or it waits for
another reason than a lower LSID that has not fired (R30, R184). -/
def opUnits (h : HitchCfg) (i : Inst) (o : MemOp) : Nat :=
  match o.st with
  | .done => 0
  | .issued => 1
  | .waiting => if lowerFired h i o.lsid then 1 else 0

/-- The in-flight count of an instance (R29, R30, R236): computed from where its tokens, requests and commands are. -/
def State.inflight (s : State) (b g ix : Nat) : Nat :=
  match s.inst? b g ix with
  | none => 0
  | some i =>
    match s.hitch? b g i.ctx i.hnum with
    | none => 0
    | some h =>
      let y := s.bay b
      let toks := (s.flight.filter fun f =>
        match f with
        | .tokenArrive m => m.bay == b && m.gate == g && m.ix == ix
        | _ => false).length
      let sets := y.elems.foldl (fun n e =>
        n + (e.2.issue.filter (·.of g ix)).length + (e.2.wait.filter (·.of g ix)).length) 0
      let ops := i.ops.foldl (fun n o => n + opUnits h i o) 0
      let xl := (y.xreqs.filter fun x =>
        match x.goal with
        | .xlat _ _ g' ix' _ => g' == g && ix' == ix
        | _ => false).length
      let isl := y.ports.foldl (fun n p =>
        n + (p.2.net.filter fun k => k.gate == g && k.ix == ix).length +
          (p.2.queue.filter fun k => k.gate == g && k.ix == ix).foldl (fun n k => n + k.owed) 0) 0
      let work := (y.steals.filter fun e => e.1.of g ix).length + (y.probes.filter fun e => e.1.of g ix).length
      let held := y.ctxs.foldl (fun n e =>
        n + (match e.2.heldTok with | some t => if t.msg.gate == g && t.msg.ix == ix then 1 else 0 | none => 0)
          + (match e.2.heldSet with | some (m, _) => if m.of g ix then 1 else 0 | none => 0)) 0
      toks + sets + (h.entries - i.arrived.length) + ops + xl + isl + work + held

/-- Live instances of a hitch with a lower tag and the same field 0 (R24, R32, R202): none left? -/
def State.lowerDone (s : State) (b g ix : Nat) : Bool :=
  match s.inst? b g ix with
  | none => true
  | some i =>
    match s.hitch? b g i.ctx i.hnum with
    | none => true
    | some h =>
      (s.gate b g).insts.all fun e =>
        e.1 == ix || e.2.ctx != i.ctx || e.2.hnum != i.hnum || strandOf h.widths e.2.tag != strandOf h.widths i.tag ||
          tagOrd i.tag ≤ tagOrd e.2.tag

/-- The same, of those that hold keep register `r` in their mask: all instances of one hitch hold the same mask. -/
def State.keepReady (s : State) (b g ix r : Nat) : Bool :=
  match s.inst? b g ix with
  | none => true
  | some i =>
    match s.hitch? b g i.ctx i.hnum with
    | none => true
    | some h => !h.seq || h.mode == 2 || !h.keepMask.contains r || s.lowerDone b g ix

end Sys2Proof.Machine
end

