-- ==== Sys2Proof/Machine/Numbers.lean ====
section
/-!
DEFINITION. Sys2Proof/Machine/Numbers.lean: integers brought to a width (R47 to R50), floating-point values, rounding
(R51 to R58) and q4 codes (R59 to R62).
-/
namespace Sys2Proof.Machine

open Sys2Proof

/-! ## Integers -/

/-- The least and greatest value of an integer type of width `w` (R47). -/
def intMin (sg : Bool) (w : Nat) : Int := if sg then -(2 ^ (w - 1) : Nat) else 0
def intMax (sg : Bool) (w : Nat) : Int := if sg then (2 ^ (w - 1) : Nat) - 1 else (2 ^ w : Nat) - 1

/-- An exact value modulo 2^w, as a pattern. -/
def wrapTo (w : Nat) (x : Int) : Nat := (x % (2 ^ w : Nat)).toNat

/-- A pattern of width `w` read as an integer of the type (R48, R50). -/
def readInt (sg : Bool) (w : Nat) (p : Nat) : Int :=
  let p := p % 2 ^ w
  if sg && 2 ^ (w - 1) ≤ p then (p : Int) - (2 ^ w : Nat) else p

/-- sat (R49), as a pattern. -/
def satTo (sg : Bool) (w : Nat) (x : Int) : Nat :=
  wrapTo w (if intMax sg w < x then intMax sg w else if x < intMin sg w then intMin sg w else x)

/-- An exact integer result brought to its type (R49). -/
def narrow (sg sat : Bool) (w : Nat) (x : Int) : Nat := if sat then satTo sg w x else wrapTo w x

/-- A scalar result of width `w` in 64 bits: sign-extended for s types, else zero-extended (R48). -/
def extendRes (t : Ty) (w : Nat) (p : Nat) : Word :=
  if t.signed then BitVec.ofInt 64 (readInt true w p) else word (p % 2 ^ w)

/-! ## Floating-point values -/

/-- A floating-point value: NaN, an infinity, or `m × 2^e` with its sign; `m = 0` is a signed zero. -/
inductive FV where
  | nan
  | inf (neg : Bool)
  | fin (neg : Bool) (m : Nat) (e : Int)
  deriving DecidableEq, Repr

/-- A format (R51, R52): mantissa and exponent bits, bias, code of the largest finite value, has it an infinity, NaN
output. -/
structure Fmt where
  mb  : Nat
  eb  : Nat
  bias : Nat
  top : Nat
  inf : Bool
  nan : Nat
  deriving DecidableEq, Repr

def fmtF32 : Fmt := ⟨23, 8, 127, 0x7F7FFFFF, true, 0x7FC00000⟩
def fmtF16 : Fmt := ⟨10, 5, 15, 0x7BFF, true, 0x7E00⟩
def fmtBf16 : Fmt := ⟨7, 8, 127, 0x7F7F, true, 0x7FC0⟩
def fmtE4m3 : Fmt := ⟨3, 4, 7, 0x7E, false, 0x7F⟩
def fmtE5m2 : Fmt := ⟨2, 5, 15, 0x7B, true, 0x7E⟩

/-- The format of a type; f32 for what is no float. -/
def fmtOf : Ty → Fmt
  | .f16 => fmtF16 | .bf16 => fmtBf16 | .e4m3 => fmtE4m3 | .e5m2 => fmtE5m2 | _ => fmtF32

def Fmt.width (f : Fmt) : Nat := 1 + f.eb + f.mb

/-- The code of the positive infinity, where there is one. -/
def Fmt.infCode (f : Fmt) : Nat := (2 ^ f.eb - 1) * 2 ^ f.mb

/-- A code with its sign bit. -/
def Fmt.withSign (f : Fmt) (neg : Bool) (c : Nat) : Nat := if neg then c + 2 ^ (f.eb + f.mb) else c

/-- The value of a code (R51, R52). -/
def Fmt.decode (f : Fmt) (p : Nat) : FV :=
  let p := p % 2 ^ f.width
  let neg := natBit p (f.eb + f.mb)
  let c := p % 2 ^ (f.eb + f.mb)
  let e := c / 2 ^ f.mb
  let m := c % 2 ^ f.mb
  if f.inf && e == 2 ^ f.eb - 1 then (if m = 0 then .inf neg else .nan)
  else if !f.inf && c == f.nan then .nan
  else if e = 0 then .fin neg m (1 - (f.bias : Int) - f.mb)
  else .fin neg (m + 2 ^ f.mb) ((e : Int) - f.bias - f.mb)

/-- The overflow value of R56: largest finite or infinity, the NaN code of the sign in e4m3. -/
def Fmt.overflow (f : Fmt) (neg : Bool) (mode : Rnd) (sat : Bool) : Nat :=
  let toInf := !sat && (mode == .rn || (mode == .rd && neg) || (mode == .ru && !neg))
  f.withSign neg (if toInf then (if f.inf then f.infCode else f.nan) else f.top)

/-- Does a magnitude `n` with remainder `rem` of `2^k` round up (R56)? -/
def roundUp (mode : Rnd) (neg : Bool) (n rem half : Nat) : Bool :=
  match mode with
  | .rn => half < rem || (rem == half && rem != 0 && n % 2 == 1)
  | .rz => false
  | .rd => neg && rem != 0
  | .ru => !neg && rem != 0

/-- A magnitude `m × 2^e` as a whole number of `2^q`, with its remainder and half of what the remainder is a part of;
far below the grid only that the remainder is small and not zero matters. -/
def onGrid (m : Nat) (e q : Int) : Nat × Nat × Nat :=
  if q ≤ e then (m * 2 ^ (e - q).toNat, 0, 1)
  else
    let k := (q - e).toNat
    if Nat.log2 m + 2 < k then (0, if m = 0 then 0 else 1, 2)
    else (m / 2 ^ k, m % 2 ^ k, 2 ^ (k - 1))

/-- round (R56): the code of an exact value. An infinite value keeps its sign, and goes to the largest finite or the NaN
code in e4m3. -/
def Fmt.round (f : Fmt) (x : FV) (mode : Rnd) (sat : Bool) : Nat :=
  match x with
  | .nan => f.nan
  | .inf neg => if f.inf then f.withSign neg f.infCode else f.withSign neg (if sat then f.top else f.nan)
  | .fin neg m e =>
    if m = 0 then f.withSign neg 0
    else
      let low : Int := 1 - (f.bias : Int) - f.mb
      let q := max ((Nat.log2 m : Int) + e - f.mb) low
      let (n, rem, half) := onGrid m e q
      let n := if roundUp mode neg n rem half then n + 1 else n
      let c := (q - low).toNat * 2 ^ f.mb + n
      if f.top < c then f.overflow neg mode sat else f.withSign neg c

/-- Under NBV 1 a subnormal f16 or bf16 result of a rounding is a zero of its sign (R72 item 1). -/
def flush (nbv : Nat) (t : Ty) (p : Nat) : Nat :=
  if nbv == 1 && (t == .f16 || t == .bf16) then
    let f := fmtOf t
    let c := p % 2 ^ (f.eb + f.mb)
    if c < 2 ^ f.mb then f.withSign (natBit p (f.eb + f.mb)) 0 else p
  else p

/-- round into a float type under an NBV. -/
def roundTo (nbv : Nat) (t : Ty) (mode : Rnd) (sat : Bool) (x : FV) : Nat := flush nbv t ((fmtOf t).round x mode sat)

def FV.isNan : FV → Bool
  | .nan => true
  | _ => false

def FV.neg : FV → Bool
  | .nan => false
  | .inf n => n
  | .fin n _ _ => n

def FV.isZero : FV → Bool
  | .fin _ 0 _ => true
  | _ => false

def FV.isInf : FV → Bool
  | .inf _ => true
  | _ => false

def FV.flip : FV → FV
  | .nan => .nan
  | .inf n => .inf (!n)
  | .fin n m e => .fin (!n) m e

/-- A finite value as an integer multiple of `2^e` for an `e` at or below its own. -/
def scaled (neg : Bool) (m : Nat) (e low : Int) : Int :=
  let v : Int := (m * 2 ^ (e - low).toNat : Nat)
  if neg then -v else v

/-- An integer multiple of `2^e`; an exact zero takes the sign given. -/
def ofScaled (x : Int) (e : Int) (zeroNeg : Bool) : FV :=
  if x = 0 then .fin zeroNeg 0 e else .fin (x < 0) x.natAbs e

/-- Exact sum (R54, R104): an exact zero of addends of unlike signs is −0 in mode rd only. -/
def FV.add (x y : FV) (mode : Rnd) : FV :=
  match x, y with
  | .nan, _ => .nan
  | _, .nan => .nan
  | .inf a, .inf b => if a = b then .inf a else .nan
  | .inf a, _ => .inf a
  | _, .inf b => .inf b
  | .fin n m e, .fin n' m' e' =>
    let low := min e e'
    ofScaled (scaled n m e low + scaled n' m' e' low) low (if n = n' then n else mode == .rd)

/-- Exact product (R104). -/
def FV.mul (x y : FV) : FV :=
  match x, y with
  | .nan, _ => .nan
  | _, .nan => .nan
  | .inf a, y => if y.isZero then .nan else .inf (a != y.neg)
  | x, .inf b => if x.isZero then .nan else .inf (x.neg != b)
  | .fin n m e, .fin n' m' e' => .fin (n != n') (m * m') (e + e')

/-- Quotient bits of `m / m'` to far below any format, with a last bit that says whether something remains. -/
def quotient (m m' : Nat) : Nat × Int :=
  let k := 192 + Nat.log2 m'
  let num := m * 2 ^ k
  (2 * (num / m') + (if num % m' = 0 then 0 else 1), -(k : Int) - 1)

/-- Quotient (R103, R104). -/
def FV.div (x y : FV) : FV :=
  match x, y with
  | .nan, _ => .nan
  | _, .nan => .nan
  | .inf a, .inf _ => if a then .nan else .nan
  | .inf a, y => .inf (a != y.neg)
  | .fin n _ _, .inf b => .fin (n != b) 0 0
  | .fin n m e, .fin n' m' e' =>
    if m' = 0 then (if m = 0 then .nan else .inf (n != n'))
    else
      let (q, k) := quotient m m'
      .fin (n != n') q (e - e' + k)

/-- Integer square root, bit by bit from `2^k`. -/
def isqrtFrom : Nat → Nat → Nat → Nat
  | 0, _, r => r
  | k + 1, n, r =>
    let r' := r + 2 ^ k
    isqrtFrom k n (if r' * r' ≤ n then r' else r)

def isqrt (n : Nat) : Nat := isqrtFrom (Nat.log2 n / 2 + 1) n 0

/-- Square root (R103, R104). -/
def FV.sqrt (x : FV) : FV :=
  match x with
  | .nan => .nan
  | .inf n => if n then .nan else .inf false
  | .fin n m e =>
    if m = 0 then .fin n 0 0
    else if n then .nan
    else
      let (m, e) := if e % 2 = 0 then (m, e) else (2 * m, e - 1)
      let v := m * 2 ^ 256
      let r := isqrt v
      .fin false (2 * r + (if r * r = v then 0 else 1)) (e / 2 - 129)

/-- Reciprocal square root (R103, R104): of ±0 the infinity of its sign. -/
def FV.rsqrt (x : FV) : FV :=
  match x with
  | .nan => .nan
  | .inf n => if n then .nan else .fin false 0 0
  | .fin n m e =>
    if m = 0 then .inf n
    else if n then .nan
    else
      let (m, e) := if e % 2 = 0 then (m, e) else (2 * m, e - 1)
      let k := 256 + 2 * Nat.log2 m
      let num := 2 ^ (2 * k)
      let t := num / m
      let r := isqrt t
      .fin false (2 * r + (if r * r = t && num % m = 0 then 0 else 1)) (-(e / 2) - k - 1)

/-- Order of values (R54), −0 equal to +0; false when either is NaN. -/
def FV.cmpVal (x : FV) : Option Int := -- the sign of an infinity far outside, for comparison only
  match x with
  | .nan => none
  | .inf n => some (if n then -2 else 2)
  | .fin n m _ => some (if m = 0 then 0 else if n then -1 else 1)

def FV.lt (x y : FV) : Bool :=
  match x, y with
  | .nan, _ => false
  | _, .nan => false
  | .fin n m e, .fin n' m' e' => scaled n m e (min e e') < scaled n' m' e' (min e e')
  | x, y => (x.cmpVal.getD 0) < (y.cmpVal.getD 0)

def FV.eq (x y : FV) : Bool := !x.isNan && !y.isNan && !x.lt y && !y.lt x

def FV.le (x y : FV) : Bool := x.lt y || x.eq y

/-- Does fmin take the first operand (R54)? −0 is below +0. -/
def FV.minFirst (x y : FV) : Bool := x.lt y || (x.eq y && (x.neg || !y.neg))

/-- A finite value rounded to an integer in a mode (R58). -/
def toIntegral (neg : Bool) (m : Nat) (e : Int) (mode : Rnd) : Int :=
  let (n, rem, half) := onGrid m e 0
  let n := if roundUp mode neg n rem half then n + 1 else n
  if neg then -(n : Int) else n

/-- A float value to an integer type (R58): NaN is 0 under SAT, else the out-of-range value. -/
def floatToInt (t : Ty) (mode : Rnd) (sat : Bool) (x : FV) : Nat :=
  let w := t.width false
  let lo := intMin t.signed w
  let hi := intMax t.signed w
  let out (neg : Bool) : Nat :=
    if sat then wrapTo w (if neg then lo else hi) else wrapTo w (if t.signed then lo else hi)
  match x with
  | .nan => if sat then 0 else out false
  | .inf n => out n
  | .fin n m e =>
    -- a value of 2^70 or more is out of range of every type
    if 70 < (Nat.log2 m : Int) + e then out n
    else
      let v := toIntegral n m e mode
      if hi < v || v < lo then out n else wrapTo w v

/-- An exact integer as a value. -/
def ofInt (x : Int) : FV := .fin (x < 0) x.natAbs 0

/-- frint (R102): an integral value in the same format; ±0 and infinities unchanged; a result of zero keeps the sign of
the operand (R54). -/
def FV.rint (x : FV) (mode : Rnd) : FV :=
  match x with
  | .nan => .nan
  | .inf n => .inf n
  | .fin n m e => if 0 ≤ e then .fin n m e else .fin n (toIntegral n m e mode).natAbs 0

/-- The class of a float operand (R105). -/
def fclass (f : Fmt) (p : Nat) : Nat :=
  match f.decode p with
  | .nan => 2 ^ 8
  | .inf n => if n then 1 else 2 ^ 7
  | .fin n m _ =>
    let sub := m < 2 ^ f.mb
    if m = 0 then (if n then 2 ^ 3 else 2 ^ 4)
    else if sub then (if n then 2 ^ 2 else 2 ^ 5)
    else (if n then 2 ^ 1 else 2 ^ 6)

/-! ## 2^x and log2 x, to far below any format -/

/-- Bits of the fixed-point numbers below. -/
def fixP : Nat := 400

/-- ln 2 in units of 2^−400: the sum of 1 / (k × 2^k). -/
def ln2Sum : Nat → Nat
  | 0 => 0
  | k + 1 => ln2Sum k + 2 ^ fixP / ((k + 1) * 2 ^ (k + 1))

def ln2 : Nat := ln2Sum 410

/-- The exponential series: the terms after the k-th, each `y / k` times the one before, in units of 2^−400. -/
def expSum : Nat → Nat → Nat → Nat → Nat → Nat
  | 0, _, _, _, acc => acc
  | n + 1, k, term, y, acc =>
    let t := term * y / (k * 2 ^ fixP)
    expSum n (k + 1) t y (acc + t)

/-- The atanh series: the terms `z^(2k+1) / (2k+1)`, in units of 2^−400. -/
def atanhSum : Nat → Nat → Nat → Nat → Nat → Nat
  | 0, _, _, _, acc => acc
  | n + 1, k, pw, zz, acc => atanhSum n (k + 1) (pw * zz / 2 ^ fixP) zz (acc + pw / (2 * k + 1))

/-- 2^x (R103, R104). The series stops within 2^−380 of the exact value, which is irrational unless x is an integer and
lies farther than that from every rounding boundary of the formats. -/
def FV.exp2 (x : FV) : FV :=
  match x with
  | .nan => .nan
  | .inf n => if n then .fin false 0 0 else .inf false
  | .fin n m e =>
    if m = 0 then .fin false 1 0
    else if 40 < (Nat.log2 m : Int) + e then .fin false 1 (if n then -(2 ^ 40 : Nat) else (2 ^ 40 : Nat))
    else if 0 ≤ e then .fin false 1 (scaled n m e 0)
    else
      let d : Nat := 2 ^ (-e).toNat
      let v : Int := if n then -(m : Int) else m
      let i := v / d
      let frac := (v % d).toNat
      if frac = 0 then .fin false 1 i
      else
        let y := frac * ln2 / d
        let r := expSum 130 1 (2 ^ fixP) y (2 ^ fixP)
        .fin false (2 * r + 1) (i - fixP - 1)

/-- log2 x (R103, R104), the same way. -/
def FV.log2 (x : FV) : FV :=
  match x with
  | .nan => .nan
  | .inf n => if n then .nan else .inf false
  | .fin n m e =>
    if m = 0 then .inf true
    else if n then .nan
    else
      let l := Nat.log2 m
      if m = 2 ^ l then ofInt ((l : Int) + e)
      else
        let z := (m - 2 ^ l) * 2 ^ fixP / (m + 2 ^ l)
        let s := 2 * atanhSum 135 0 z (z * z / 2 ^ fixP) 0
        let t : Int := ((l : Int) + e) * (2 ^ fixP : Nat) + (s * 2 ^ fixP / ln2 : Nat)
        if 0 ≤ t then .fin false (2 * t.toNat + 1) (-(fixP : Int) - 1)
        else .fin true (2 * t.natAbs - 1) (-(fixP : Int) - 1)

/-! ## q4 -/

/-- The magnitudes of a TYPE's codes 0 to 7 in halves, for TYPE 01, 10, 11 (R61). -/
def q4Mags (ty : Nat) : List Nat :=
  if ty = 1 then [0, 1, 2, 3, 4, 6, 8, 12] else if ty = 2 then [0, 2, 4, 8, 16, 32, 64, 128]
  else [0, 2, 4, 6, 8, 12, 16, 24]

/-- Does a TYPE read its codes as two's complement (R61, R72 item 3)? -/
def q4Int (nbv ty : Nat) : Bool := ty == 0 || (ty == 3 && nbv == 1)

/-- The value of a code in halves (R61). -/
def q4Decode (nbv ty c : Nat) : Int :=
  if q4Int nbv ty then readInt true 4 c * (if ty = 0 then 2 else 4)
  else
    let m : Int := (q4Mags ty).getD (c % 8) 0
    if natBit c 3 then -m else m

/-- The codes of a TYPE from the least value to the greatest, less the second zero. -/
def q4Codes (nbv ty : Nat) : List Nat :=
  if q4Int nbv ty then [8, 9, 10, 11, 12, 13, 14, 15, 0, 1, 2, 3, 4, 5, 6, 7]
  else [15, 14, 13, 12, 11, 10, 9, 0, 1, 2, 3, 4, 5, 6, 7]

/-- Is this code the one a tie goes to (R62)? -/
def q4Even (c : Nat) : Bool :=
  c % 2 == 0

/-- Choose between the neighbours `lo ≤ t < hi` of a value, all in units of `2^e` halves (R62, R56). -/
def q4Pick (mode : Rnd) (t lo hi : Int) (cl ch : Nat) : Nat :=
  if t = lo then cl
  else
    match mode with
    | .rd => cl
    | .ru => ch
    | .rz => if t < 0 then ch else cl
    | .rn =>
      if 2 * t < lo + hi then cl else if lo + hi < 2 * t then ch else if q4Even cl then cl else ch

/-- The code of a value among the codes in ascending order of their values; `u` is the unit of one half. -/
def q4Scan (nbv ty : Nat) (mode : Rnd) (t u : Int) : List Nat → Nat
  | [] => 0
  | [c] => c
  | c :: d :: l =>
    if t < q4Decode nbv ty c * u then c
    else if t < q4Decode nbv ty d * u then q4Pick mode t (q4Decode nbv ty c * u) (q4Decode nbv ty d * u) c d
    else q4Scan nbv ty mode t u (d :: l)

/-- q4_encode (R62) of an exact value. -/
def q4Encode (nbv ty : Nat) (mode : Rnd) (x : FV) : Nat :=
  match x with
  | .nan => 0
  | .inf n => if n then (q4Codes nbv ty).headD 0 else (q4Codes nbv ty).getLastD 0
  | .fin n m e =>
    -- in units of 2^low, with low at or below −1, one half is 2^(−1 − low)
    let low := min e (-1)
    if 60 < (Nat.log2 m : Int) + e then (if n then (q4Codes nbv ty).headD 0 else (q4Codes nbv ty).getLastD 0)
    else q4Scan nbv ty mode (scaled n m e low) (2 ^ (-1 - low).toNat : Nat) (q4Codes nbv ty)

/-- ceil(log2(amax / d)) for a positive finite amax and a positive d: the least k with amax ≤ d × 2^k. -/
def ceilLog2Ratio (m : Nat) (e : Int) (d : Nat) : Int :=
  let k0 : Int := (Nat.log2 m : Int) + e - Nat.log2 d - 1
  let fits (k : Int) : Bool :=
    if e ≤ k then m ≤ d * 2 ^ (k - e).toNat else m * 2 ^ (e - k).toNat ≤ d
  if fits k0 then k0 else if fits (k0 + 1) then k0 + 1 else k0 + 2

/-- A scale exponent: clamp(ceil(log2(amax / d)) + 31, 0, 63), 0 for amax = 0, 63 for infinity (R111, R246). -/
def scaleExp (amax : FV) (d : Nat) : Nat :=
  match amax with
  | .nan => 0
  | .inf _ => 63
  | .fin _ m e =>
    if m = 0 then 0
    else
      let k := ceilLog2Ratio m e d + 31
      if k < 0 then 0 else if 63 < k then 63 else k.toNat

/-- A value times 2^k. -/
def FV.scale (x : FV) (k : Int) : FV :=
  match x with
  | .fin n m e => .fin n m (e + k)
  | y => y

/-- The greatest magnitude of values that are no NaN; zero if there is none (R111, R246). -/
def amaxOf (xs : List FV) : FV :=
  xs.foldl (fun a x =>
    match x with
    | .nan => a
    | .inf _ => .inf false
    | .fin _ m e => if a.lt (.fin false m e) then .fin false m e else a) (.fin false 0 0)

end Sys2Proof.Machine
end

