-- ==== Sys2Proof/Machine/Operands.lean ====
section
/-!
DEFINITION. Sys2Proof/Machine/Operands.lean: the operand forms: immediates (R80), lanes (R63, R98), the ports a slot
uses (R17), and the firing of a slot: poisoned operands (R140), nulls and predicates (R20), results (R131).
-/
namespace Sys2Proof.Machine

open Sys2Proof

/-! ## Lanes -/

/-- Lane j of width w (R63). -/
def lane (v : Vec) (w j : Nat) : Nat := bits v (w * j) w

/-- The lanes of a vector. -/
def lanesOf (w : Nat) (v : Vec) : List Nat := (List.range (1024 / w)).map (lane v w)

/-- A vector of lanes of width w, lane 0 first; missing lanes are zero. -/
def ofLanes (w : Nat) (l : List Nat) : Vec := BitVec.ofNat 1024 (l.foldr (fun x n => n * 2 ^ w + x % 2 ^ w) 0)

/-- The bytes of a vector in memory (R63). -/
def vecBytes (v : Vec) : List Byte := leBytes 128 v.toNat
def bytesVec (l : List Byte) : Vec := BitVec.ofNat 1024 (leNat l)

/-! ## Immediates -/

/-- imm_value (R80). -/
def immValue (t : Ty) (imm : BitVec 16) : Word :=
  match t with
  | .s8 | .s16 | .s32 | .s64 => imm.signExtend 64
  | .n8 | .n16 | .n32 | .n64 | .v => imm.zeroExtend 64
  | .f16 | .bf16 => imm.zeroExtend 64
  | .f32 => (imm.zeroExtend 64) <<< 16
  | .e4m3 | .e5m2 => (imm.extractLsb' 0 8).zeroExtend 64
  | .b1 => (imm.extractLsb' 0 1).zeroExtend 64
  | .q4 => 0

/-- A token that is not there: the slot does not use the port. -/
def noTok : Token := ⟨.sc 0, false, false⟩

/-- The pattern at a port: the low `w` bits of a scalar, lane j of a vector. -/
def patAt (vector : Bool) (w j : Nat) (k : Option Token) : Nat :=
  match k with
  | none => 0
  | some t => if vector then lane (valVec t.val) w j else (valWord t.val).toNat % 2 ^ w

/-- The pattern of port B, or of the immediate (R80, R96). -/
def patB (c : Common) (f : FormA) (w j : Nat) (k : Option Token) : Nat :=
  if f.im then (immValue c.ty f.imm16).toNat % 2 ^ w else patAt c.w w j k

/-! ## The firing of a slot -/

/-- The tokens of a matched set. -/
def MSet.toks (m : MSet) : List Token := [m.a, m.b, m.c, m.p].filterMap id

/-- Does the predicate agree with PM (R74)? -/
def predOk (c : Common) (m : MSet) : Bool :=
  let p := (m.p.map fun t => valBit t.val).getD false
  match c.pm with
  | .always => true
  | .ifTrue => p
  | .ifFalse => !p

/-- D0 of a fault by LOC and index (R349, R350). -/
def locWord (loc idx : Nat) : Word := word (loc * 2 ^ 56 + idx)

/-- D0 to D3 of an LPDDR error at an address (R350). -/
def lpddrLoc (a : Nat) : Word × Word × Word × Word := (locWord 0xA (a / 0x10000), word a, 0, 0)

/-- The hitch of a slot that fires, by number. -/
def hnumOf (s : State) (b : Nat) (m : MSet) : Nat := (s.slot b m.el m.slot).hnum

/-- Send a token to a target of the firing slot. -/
def sendTo (s : State) (b : Nat) (m : MSet) (t : Target) (k : Token) : State :=
  s.sendTarget b m.gate m.ix (hnumOf s b m) m.ctx m.el t k

/-- Send a value to both targets. -/
def deliver (c : Common) (v : Val) (b : Nat) (m : MSet) (s : State) : State :=
  sendTo (sendTo s b m c.t0 ⟨v, false, false⟩) b m c.t1 ⟨v, false, false⟩

/-- Send two values. -/
def deliver2 (c : Common) (v w : Val) (b : Nat) (m : MSet) (s : State) : State :=
  sendTo (sendTo s b m c.t0 ⟨v, false, false⟩) b m c.t1 ⟨w, false, false⟩

/-- Send a null to each target, on the networks of the results (R20). -/
def sendNulls (c : Common) (v w : Val) (b : Nat) (m : MSet) (s : State) : State :=
  sendTo (sendTo s b m c.t0 (nullOn v)) b m c.t1 (nullOn w)

/-- A slot that raises a fault keeps the set it fired on (R351) and fires again on RESUME (R354). -/
def slotFault (code : Nat) (d : Word × Word × Word × Word) (b : Nat) (m : MSet) (s : State) : State :=
  s.takeFault b m.gate m.ix code (some m.el) m.slot d (.fire m)

/-- What any slot does when it fires: a poisoned operand raises ECC_POISON before anything else (R20, R140), a null
operand or a predicate that disagrees with PM takes the null path (R20), else the slot does its work. A slot that holds
no set does nothing. The poison of a token is located in the store that held it, LOC 0x6 (log 9). -/
def fireSlot (c : Common) (onNull go : Nat → MSet → State → State) (s : State) : State :=
  match s.fire with
  | none => s
  | some (b, m) =>
    let s := { s with fire := none }
    if m.toks.any (·.poi) then slotFault 0x20 (locWord 6 m.el, 0, 0, 0) b m s
    else if m.toks.any (·.nul) || !predOk c m then onNull b m s
    else go b m s

/-- The outcome of a meaning that always has a next state. -/
abbrev Res := Host.Outcome State Fault Refusal

/-- A slot whose results at T0 and T1 are values of its operands alone. -/
def fireVals (c : Common) (v : Nat → MSet → State → Val × Val) (n0 n1 : Val) (s : State) : Res :=
  .next (fireSlot c (sendNulls c n0 n1) (fun b m s => let r := v b m s; deliver2 c r.1 r.2 b m s) s)

/-- A zero of the network a result travels on: vector with W = 1, control for b1, else scalar (R131). -/
def zeroVal (vector b1 : Bool) : Val := if vector then .vec 0 else if b1 then .ct 0 else .sc 0

/-- NBV of a context on a bay (R71). -/
def nbvOf (s : State) (b ctx : Nat) : Nat := ((s.ctx? b ctx).map (·.nbv)).getD 2

/-! ## Ports -/

/-- A, and B unless the immediate takes its place. -/
def portsAB (f : FormA) : List Nat := if f.im then [0] else [0, 1]
def portsABC (f : FormA) : List Nat := if f.im then [0, 2] else [0, 1, 2]

/-- The ports an instruction uses, port P aside; `k` is the number of entry ports of an exit or call (R17, R123). -/
def portsOf (k : Nat) : Instr → List Nat
  | .add _ f | .sub _ f | .min _ f | .max _ f | .mul _ f | .mulh _ f | .div _ f | .rem _ f | .and _ f | .or _ f
  | .xor _ f | .andn _ f | .shl _ f | .shr _ f | .sar _ f | .rol _ f | .ceq _ f | .cne _ f | .clt _ f | .cle _ f
  | .adsc _ f | .fadd _ f | .fsub _ f | .fmul _ f | .fmin _ f | .fmax _ f | .fdiv _ f | .fceq _ f | .fclt _ f
  | .fcle _ f | .fcun _ f | .count _ f | .pushf _ f | .setf _ f | .lrot _ f => portsAB f
  | .mad _ f | .sel _ f | .fma _ f | .fnma _ f => portsABC f
  | .neg _ _ | .abs _ _ | .not _ _ | .clz _ _ | .ctz _ _ | .popc _ _ | .brev _ _ | .bfx _ _ | .cvi _ _ | .fabs _ _
  | .fneg _ _ | .fsqrt _ _ | .frsq _ _ | .frcp _ _ | .fexp2 _ _ | .flog2 _ _ | .fcvt _ _ | .fcvi _ _ | .icvf _ _
  | .frint _ _ | .fclass _ _ | .lbcast _ _ | .lext _ _ | .mov _ _ | .mov4 _ _ | .const _ _ | .null _ _ | .incf _ _
  | .popf _ _ | .getf _ _ => [0]
  | .bfi _ _ | .fscal _ _ | .lperm _ _ | .lins _ _ | .lcmpr _ _ | .lexpd _ _ | .lzip _ _ | .lunzip _ _ | .steer _ _
  | .gate _ _ => [0, 1]
  | .fpk c f => if c.w && c.ty.width true == 8 && f.aux7.getLsbD 0 then [0, 1, 2] else [0, 1]
  | .lred _ f | .lscan _ f => if f.msk then [0, 1] else [0]
  | .lq4 _ f => if f.aux7.getLsbD 2 then [0, 1, 2] else [0]
  | .sync _ f | .ordj _ f => if f.aux7.getLsbD 0 then [0, 1, 2] else [0, 1]
  | .fold _ f => [0] ++ (if f.im then [] else [1]) ++ (if f.msk then [2] else [])
  | .exit _ _ | .call _ _ => List.range k
  | .ret _ _ => [0, 2]
  | .discard _ _ | .kget _ _ | .kput _ _ => [0]
  | .ld _ _ | .ldv _ _ | .ldg _ _ | .ldo _ _ | .sflush _ _ | .sinv _ _ | .srel _ _ | .sdepth _ _ | .fence _ _
  | .xlat _ _ => [0]
  | .st _ _ | .stv _ _ | .stg _ _ | .sto _ _ => [0, 1]
  | .acas _ _ => [0, 1, 2]
  | .aadd _ _ | .amin _ _ | .amax _ _ | .aand _ _ | .aor _ _ | .axor _ _ | .axch _ _ | .ainc _ _ | .adec _ _
  | .faadd _ _ => [0, 1]
  | .mma _ _ | .mmaq _ _ | .aclr _ _ | .sstop _ _ => [0]
  | .adrn _ f => if f.aux11.getLsbD 0 then [0, 1] else [0]
  | .scopy _ f | .strn _ f | .slay _ f => if f.aux11.getLsbD 0 then [0, 1] else [0]
  | .sgath _ f => if f.aux11.getLsbD 0 then [0, 1, 2] else [0, 1]
  | .sscat _ _ => [0, 1, 2]
  | .speer _ f => if f.aux11.getLsbD 0 then [0, 1, 2] else [0, 1]
  | .rngset _ _ => [0, 1]
  | .seed _ _ => [0, 1, 2]
  | .rngnext _ _ | .rngsteal _ _ | .trap _ _ | .brk _ _ | .srd _ _ | .swr _ _ | .mark _ _ | .halt _ _ | .probe _ _ => [0]
  | _ => []

/-- All the ports a slot uses, P with PM 01 and 10 (R17, R74). -/
def usedPorts (k : Nat) (i : Instr) : List Nat :=
  portsOf k i ++ (match i.common with
    | some c => if c.pm = .always then [] else [3]
    | none => [])

end Sys2Proof.Machine
end

