-- ==== Sys2Proof/Machine/IntOps.lean ====
section
/-!
DEFINITION. Sys2Proof/Machine/IntOps.lean: the integer and logic family, 0x01 to 0x21 (R96 to R101, R106).
-/
namespace Sys2Proof.Machine

open Sys2Proof

/-- The value of lane results or of one scalar result (R48, R98, R131). -/
def resultVal (c : Common) (op : Nat → Nat) : Val :=
  let w := c.ty.width c.w
  if c.w then .vec (ofLanes w ((List.range (1024 / w)).map op))
  else if c.ty = .b1 then .ct (BitVec.ofNat 1 (op 0))
  else .sc (extendRes c.ty w (op 0))

/-- The value of a comparison: b1, or a b1 vector (R50, R98). -/
def boolVal (c : Common) (op : Nat → Bool) : Val :=
  if c.w then .vec (ofLanes 1 ((List.range (1024 / c.ty.width true)).map fun j => (op j).toNat))
  else .ct (BitVec.ofBool (op 0))

/-- The patterns a lane of an integer member reads. -/
structure Pats where
  w : Nat
  a : Nat
  b : Nat
  c : Nat
  deriving DecidableEq, Repr

/-- The patterns of lane j (R98, R100). -/
def patsOf (c : Common) (f : FormA) (m : MSet) (j : Nat) : Pats :=
  let w := c.ty.width c.w
  ⟨w, patAt c.w w j m.a, patB c f w j m.b, patAt c.w w j m.c⟩

/-- A member of class BITS or CMP with a result in TY: the pattern of its exact result (R100). -/
def fireBits (c : Common) (f : FormA) (op : Pats → Nat) (s : State) : Res :=
  let z := zeroVal c.w (c.ty == .b1)
  fireVals c (fun _ m _ => let v := resultVal c fun j => op (patsOf c f m j); (v, v)) z z s

/-- A member of class WRAP: its exact result, brought to TY (R49, R100). -/
def fireWrap (c : Common) (f : FormA) (op : Pats → Int) (s : State) : Res :=
  fireBits c f (fun p => narrow c.ty.signed f.sat p.w (op p)) s

/-- A comparison (R100). -/
def fireCmp (c : Common) (f : FormA) (op : Pats → Bool) (s : State) : Res :=
  let z := zeroVal c.w true
  fireVals c (fun _ m _ => let v := boolVal c fun j => op (patsOf c f m j); (v, v)) z z s

/-- The operand values read in TY (R100). -/
def Pats.ia (p : Pats) (c : Common) : Int := readInt c.ty.signed p.w p.a
def Pats.ib (p : Pats) (c : Common) : Int := readInt c.ty.signed p.w p.b
def Pats.ic (p : Pats) (c : Common) : Int := readInt c.ty.signed p.w p.c

/-- The shift amount s := ub mod w (R100). -/
def Pats.sh (p : Pats) : Nat := p.b % p.w

/-- div (R101). -/
def divPat (w : Nat) (a b : Int) : Nat :=
  if b = 0 then 2 ^ w - 1 else wrapTo w (Int.tdiv a b)

/-- rem (R101). -/
def remPat (w : Nat) (a b : Int) : Nat := if b = 0 then wrapTo w a else wrapTo w (a - b * Int.tdiv a b)

/-- Leading zeros, trailing zeros, ones, and the reversal of `w` bits. -/
def clzPat (w a : Nat) : Nat := if a = 0 then w else w - 1 - Nat.log2 a
def ctzPat (w a : Nat) : Nat := ((List.range w).find? fun i => natBit a i).getD w
def popPat (w a : Nat) : Nat := ((List.range w).filter fun i => natBit a i).length
def revPat (w a : Nat) : Nat := ofBits ((List.range w).map fun i => natBit a (w - 1 - i))

/-- ADD (R100). -/
def execAdd (c : Common) (f : FormA) (s : State) : Res := fireWrap c f (fun p => p.ia c + p.ib c) s
/-- SUB (R100). -/
def execSub (c : Common) (f : FormA) (s : State) : Res := fireWrap c f (fun p => p.ia c - p.ib c) s
/-- NEG (R100). -/
def execNeg (c : Common) (f : FormA) (s : State) : Res := fireWrap c f (fun p => -(p.ia c)) s
/-- ABS (R100). -/
def execAbs (c : Common) (f : FormA) (s : State) : Res := fireWrap c f (fun p => ((p.ia c).natAbs : Int)) s
/-- MIN (R100). -/
def execMin (c : Common) (f : FormA) (s : State) : Res :=
  fireBits c f (fun p => if p.ib c < p.ia c then p.b else p.a) s
/-- MAX (R100). -/
def execMax (c : Common) (f : FormA) (s : State) : Res :=
  fireBits c f (fun p => if p.ia c < p.ib c then p.b else p.a) s
/-- MUL (R100). -/
def execMul (c : Common) (f : FormA) (s : State) : Res := fireWrap c f (fun p => p.ia c * p.ib c) s
/-- MULH (R100): the floor of the product over 2^w. -/
def execMulh (c : Common) (f : FormA) (s : State) : Res :=
  fireBits c f (fun p => wrapTo p.w (Int.fdiv (p.ia c * p.ib c) (2 ^ p.w : Nat))) s
/-- MAD (R100). -/
def execMad (c : Common) (f : FormA) (s : State) : Res := fireWrap c f (fun p => p.ia c * p.ib c + p.ic c) s
/-- DIV (R101). -/
def execDiv (c : Common) (f : FormA) (s : State) : Res :=
  fireBits c f (fun p => divPat p.w (p.ia c) (p.ib c)) s
/-- REM (R101). -/
def execRem (c : Common) (f : FormA) (s : State) : Res := fireBits c f (fun p => remPat p.w (p.ia c) (p.ib c)) s
/-- AND (R100). -/
def execAnd (c : Common) (f : FormA) (s : State) : Res := fireBits c f (fun p => p.a &&& p.b) s
/-- OR (R100). -/
def execOr (c : Common) (f : FormA) (s : State) : Res := fireBits c f (fun p => p.a ||| p.b) s
/-- XOR (R100). -/
def execXor (c : Common) (f : FormA) (s : State) : Res := fireBits c f (fun p => p.a ^^^ p.b) s
/-- ANDN (R100). -/
def execAndn (c : Common) (f : FormA) (s : State) : Res := fireBits c f (fun p => p.a &&& (2 ^ p.w - 1 - p.b)) s
/-- NOT (R100). -/
def execNot (c : Common) (f : FormA) (s : State) : Res := fireBits c f (fun p => 2 ^ p.w - 1 - p.a) s
/-- SHL (R100). -/
def execShl (c : Common) (f : FormA) (s : State) : Res := fireWrap c f (fun p => p.ia c * (2 ^ p.sh : Nat)) s
/-- SHR (R100). -/
def execShr (c : Common) (f : FormA) (s : State) : Res := fireBits c f (fun p => p.a / 2 ^ p.sh) s
/-- SAR (R100). -/
def execSar (c : Common) (f : FormA) (s : State) : Res :=
  fireBits c f (fun p => wrapTo p.w (Int.fdiv (readInt true p.w p.a) (2 ^ p.sh : Nat))) s
/-- ROL (R100). -/
def execRol (c : Common) (f : FormA) (s : State) : Res :=
  fireBits c f (fun p => (p.a * 2 ^ p.sh + p.a / 2 ^ (p.w - p.sh)) % 2 ^ p.w) s
/-- CLZ (R100). -/
def execClz (c : Common) (f : FormA) (s : State) : Res := fireBits c f (fun p => clzPat p.w p.a) s
/-- CTZ (R100). -/
def execCtz (c : Common) (f : FormA) (s : State) : Res := fireBits c f (fun p => ctzPat p.w p.a) s
/-- POPC (R100). -/
def execPopc (c : Common) (f : FormA) (s : State) : Res := fireBits c f (fun p => popPat p.w p.a) s
/-- BREV (R100). -/
def execBrev (c : Common) (f : FormA) (s : State) : Res := fireBits c f (fun p => revPat p.w p.a) s

/-- ℓ := AUX7[5:0] and k := IMM16[6:0] (R100). -/
def fieldLow (f : FormA) : Nat := bits f.aux7 0 6
def fieldLen (f : FormA) : Nat := bits f.imm16 0 7

/-- BFX (R100). -/
def execBfx (c : Common) (f : FormA) (s : State) : Res :=
  fireBits c f (fun p => wrapTo p.w (readInt c.ty.signed (fieldLen f) (p.a / 2 ^ fieldLow f))) s
/-- BFI (R100). -/
def execBfi (c : Common) (f : FormA) (s : State) : Res :=
  fireBits c f (fun p =>
    let l := fieldLow f
    let k := fieldLen f
    p.a % 2 ^ l + p.b % 2 ^ k * 2 ^ l + p.a / 2 ^ (l + k) * 2 ^ (l + k)) s
/-- SEL (R100): C is a b1, or a b1 vector whose bit j selects lane j. -/
def execSel (c : Common) (f : FormA) (s : State) : Res :=
  let z := zeroVal c.w (c.ty == .b1)
  fireVals c (fun _ m _ =>
    let v := resultVal c fun j =>
      let p := patsOf c f m j
      if patAt c.w 1 j m.c = 1 then p.a else p.b
    (v, v)) z z s
/-- CEQ (R100). -/
def execCeq (c : Common) (f : FormA) (s : State) : Res := fireCmp c f (fun p => p.a == p.b) s
/-- CNE (R100). -/
def execCne (c : Common) (f : FormA) (s : State) : Res := fireCmp c f (fun p => p.a != p.b) s
/-- CLT (R100). -/
def execClt (c : Common) (f : FormA) (s : State) : Res := fireCmp c f (fun p => p.ia c < p.ib c) s
/-- CLE (R100). -/
def execCle (c : Common) (f : FormA) (s : State) : Res := fireCmp c f (fun p => p.ia c ≤ p.ib c) s
/-- ADSC (R100): a + b × 2^ℓ. -/
def execAdsc (c : Common) (f : FormA) (s : State) : Res :=
  fireWrap c f (fun p => p.ia c + p.ib c * (2 ^ fieldLow f : Nat)) s

/-- A conversion from the type AUX7 names to TY, scalar or by lanes with PART (R106). -/
def convVal (c : Common) (f : FormA) (conv : Nat → Nat) (m : MSet) : Val :=
  let ws := f.srcTy.width c.w
  let wd := c.ty.width c.w
  if !c.w then .sc (extendRes c.ty wd (conv (patAt false ws 0 m.a)))
  else
    let nd := 1024 / wd
    let ns := 1024 / ws
    if ws ≤ wd then
      .vec (ofLanes wd ((List.range nd).map fun j => conv (patAt true ws (f.part * nd + j) m.a)))
    else
      .vec (ofLanes wd ((List.range nd).map fun j =>
        if f.part * ns ≤ j && j < (f.part + 1) * ns then conv (patAt true ws (j - f.part * ns) m.a) else 0))

/-- CVI (R58, R106). -/
def execCvi (c : Common) (f : FormA) (s : State) : Res :=
  let z := zeroVal c.w false
  fireVals c (fun _ m _ =>
    let v := convVal c f
      (fun p => narrow c.ty.signed f.sat (c.ty.width c.w) (readInt f.srcTy.signed (f.srcTy.width c.w) p)) m
    (v, v)) z z s

end Sys2Proof.Machine
end

