-- ==== Sys2Proof/Machine/Flags.lean ====
section
/-!
DEFINITION. Sys2Proof/Machine/Flags.lean: the device has no condition flags and no floating-point flags (R53); a
comparison's result is a b1 token. Here stand the selections by order that min and max of every kind share (R54, R65).
-/
namespace Sys2Proof.Machine

open Sys2Proof

/-- fmin of two codes: the canonical NaN if either is NaN; −0 is below +0 (R54). -/
def floatMin (g : Fmt) (p q : Nat) : Nat :=
  let x := g.decode p
  let y := g.decode q
  if x.isNan || y.isNan then g.nan else if x.minFirst y then p else q

/-- fmax of two codes (R54). -/
def floatMax (g : Fmt) (p q : Nat) : Nat :=
  let x := g.decode p
  let y := g.decode q
  if x.isNan || y.isNan then g.nan else if x.minFirst y then q else p

/-- min and max of two integer patterns. -/
def intMinPat (sg : Bool) (w p q : Nat) : Nat := if readInt sg w q < readInt sg w p then q else p
def intMaxPat (sg : Bool) (w p q : Nat) : Nat := if readInt sg w p < readInt sg w q then q else p

end Sys2Proof.Machine
end

