-- ==== Sys2Proof/Machine/Tree.lean ====
section
/-!
DEFINITION. Sys2Proof/Machine/Tree.lean: the index tree of every reduction (R65 to R68) and the linear chain of NBV 1
(R72). A node is the pattern of a value in the result format, none for a void.
-/
namespace Sys2Proof.Machine

open Sys2Proof

/-- A reduction: OPSEL (R109), source type and width, result type and width, rounding mode, SAT, NBV. -/
structure Red where
  op  : Nat
  src : Ty
  sw  : Nat
  ty  : Ty
  w   : Nat
  rnd : Rnd
  sat : Bool
  nbv : Nat
  deriving DecidableEq, Repr

/-- The result type of WIDE = 1 (R109). -/
def wideTy : Ty → Ty
  | .f16 | .bf16 => .f32
  | .s8 | .s16 => .s32
  | .n8 | .n16 => .n32
  | .s32 => .s64
  | .n32 | .v => .n64
  | t => t

/-- widen: a leaf converted exactly into the result format (R65); a NaN is the canonical one (R53, R219). -/
def Red.widen (r : Red) (p : Nat) : Nat :=
  if r.src.isFmt && ((fmtOf r.src).decode p).isNan then (fmtOf r.ty).nan
  else if r.src = r.ty then p % 2 ^ r.sw
  else if r.ty.isFloat then (fmtOf r.ty).round ((fmtOf r.src).decode p) .rn false
  else wrapTo r.w (readInt r.src.signed r.sw p)

/-- combine: the operation applied once, brought to the result format (R65). -/
def Red.combine (r : Red) (p q : Nat) : Nat :=
  match r.op with
  | 0 =>
    if r.ty.isFloat then
      roundTo r.nbv r.ty r.rnd r.sat (((fmtOf r.ty).decode p).add ((fmtOf r.ty).decode q) r.rnd)
    else narrow r.ty.signed r.sat r.w (readInt r.ty.signed r.w p + readInt r.ty.signed r.w q)
  | 1 => if r.ty.isFloat then floatMin (fmtOf r.ty) p q else intMinPat r.ty.signed r.w p q
  | 2 => if r.ty.isFloat then floatMax (fmtOf r.ty) p q else intMaxPat r.ty.signed r.w p q
  | 3 => p &&& q
  | 4 => p ||| q
  | _ => p ^^^ q

/-- identity (R66). -/
def Red.identity (r : Red) : Nat :=
  match r.op with
  | 1 => if r.ty.isFloat then (fmtOf r.ty).infCode else wrapTo r.w (intMax r.ty.signed r.w)
  | 2 => if r.ty.isFloat then (fmtOf r.ty).withSign true (fmtOf r.ty).infCode else wrapTo r.w (intMin r.ty.signed r.w)
  | 3 => 2 ^ r.w - 1
  | _ => 0

/-- The node rule of R65: a void child passes the other through. -/
def joinNode {α : Type} (f : α → α → α) (a b : Option α) : Option α :=
  match a, b with
  | none, b => b
  | a, none => a
  | some x, some y => some (f x y)

/-- One level of the tree; a node without a sibling passes through, as beside a padding void. -/
def treeLevel {α : Type} (f : α → α → α) : List (Option α) → List (Option α)
  | a :: b :: l => joinNode f a b :: treeLevel f l
  | l => l

/-- Levels up to the root; 64 are enough for every reduction (R65). -/
def treeUp {α : Type} (f : α → α → α) : Nat → List (Option α) → Option α
  | 0, l => l.headD none
  | n + 1, l => treeUp f n (treeLevel f l)

/-- tree_reduce before its identity (R65). -/
def treeReduce {α : Type} (f : α → α → α) (l : List (Option α)) : Option α := treeUp f 64 l

/-- linear_reduce before its identity (R72). -/
def linearReduce {α : Type} (f : α → α → α) (l : List (Option α)) : Option α := l.foldl (joinNode f) none

/-- The leaves of values with presence bits. -/
def Red.leaves (r : Red) (vs : List Nat) (present : Nat → Bool) : List (Option Nat) :=
  (List.range vs.length).map fun i => if present i then some (r.widen (vs.getD i 0)) else none

/-- The reduction of lred: linear under NBV 1 (R72, R109). Value and void bit. -/
def Red.reduce (r : Red) (vs : List Nat) (present : Nat → Bool) : Nat × Bool :=
  let l := r.leaves vs present
  match if r.nbv = 1 then linearReduce r.combine l else treeReduce r.combine l with
  | none => (r.identity, true)
  | some x => (x, false)

/-- Prefix k of a scan (R68). -/
def Red.prefixAt (r : Red) (vs : List Nat) (present : Nat → Bool) (k : Nat) : Nat :=
  (treeReduce r.combine (r.leaves vs fun i => i ≤ k && present i)).getD r.identity

end Sys2Proof.Machine
end

