-- ==== Sys2Proof/Machine/TokenOps.lean ====
section
/-!
DEFINITION. Sys2Proof/Machine/TokenOps.lean: the token and tag family without count and fold, 0x70 to 0x76 and 0x79 to
0x7E (R113 to R117).
-/
namespace Sys2Proof.Machine

open Sys2Proof

/-- The value at port A with the network it came on (R131). -/
def valA (m : MSet) : Val := (m.a.map (·.val)).getD (.sc 0)

/-- Nulls to both targets on the network of port A. -/
def nullsAsA (c : Common) (b : Nat) (m : MSet) (s : State) : State := sendNulls c (valA m) (valA m) b m s

/-- Copy port A to both targets. -/
def fireCopy (c : Common) (s : State) : Res :=
  .next (fireSlot c (nullsAsA c) (fun b m s => deliver c (valA m) b m s) s)

/-- MOV (R115). -/
def execMov (c : Common) (_f : FormA) (s : State) : Res := fireCopy c s

/-- The four targets of a route word (R89). -/
def RouteCell.targets (r : RouteCell) : List Target := (List.range 4).map fun i => r.word.extractLsb' (11 * i) 11

/-- The route word a slot reads; with no word installed every target is 0x7FF (R281). -/
def routeOf (s : State) (b el n : Nat) : RouteCell :=
  (AMap.get? (s.elem b el).routes n).getD ⟨(BitVec.allOnes 44).zeroExtend 64, false, none⟩

/-- A token to T0, T1 and the targets of the route word of mov4; a poisoned route word faults the slot (R115, R355). -/
def sendRouted (c : Common) (f : FormA) (k : Token) (b : Nat) (m : MSet) (s : State) : State :=
  let n := bits f.aux7 0 3
  let r := routeOf s b m.el n
  if r.poison then slotFault 0x20 (locWord 1 m.el, 0, 0, 0) b m s
  else ([c.t0, c.t1] ++ r.targets).foldl (fun s t => sendTo s b m t k) s

/-- MOV4 (R115): a null fire sends a null to every target (R20). -/
def execMov4 (c : Common) (f : FormA) (s : State) : Res :=
  .next (fireSlot c (fun b m s => sendRouted c f (nullOn (valA m)) b m s)
    (fun b m s => sendRouted c f ⟨valA m, false, false⟩ b m s) s)

/-- The constant of a const slot: imm_value × 2^(16 × SH) mod 2^64, in every lane with W = 1 (R115). R48 extends a result from the width of
its type; what R115 writes out is followed for a scalar constant (log 102). -/
def constVal (c : Common) (f : FormA) : Val :=
  let x := immValue c.ty f.imm16 <<< (16 * bits f.aux7 0 2)
  if c.w then
    let w := c.ty.width true
    .vec (ofLanes w ((List.range (1024 / w)).map fun _ => x.toNat % 2 ^ w))
  else if c.ty = .b1 then .ct (x.setWidth 1)
  else .sc x

/-- CONST (R115). -/
def execConst (c : Common) (f : FormA) (s : State) : Res :=
  let z := zeroVal c.w (c.ty == .b1)
  fireVals c (fun _ _ _ => (constVal c f, constVal c f)) z z s

/-- STEER (R115). -/
def execSteer (c : Common) (f : FormA) (s : State) : Res :=
  .next (fireSlot c (nullsAsA c) (fun b m s =>
    let nul := f.aux7.getLsbD 0
    let p := (m.b.map fun t => valBit t.val).getD false
    let yes := if p then c.t0 else c.t1
    let no := if p then c.t1 else c.t0
    let s := sendTo s b m yes ⟨valA m, false, false⟩
    if nul then sendTo s b m no (nullOn (valA m)) else s) s)

/-- GATE (R115). -/
def execGate (c : Common) (f : FormA) (s : State) : Res :=
  .next (fireSlot c (nullsAsA c) (fun b m s =>
    if (m.b.map fun t => valBit t.val).getD false then deliver c (valA m) b m s
    else if f.aux7.getLsbD 0 then nullsAsA c b m s
    else s) s)

/-- NULL (R115): a null to each target, of the width W gives. -/
def execNull (c : Common) (_f : FormA) (s : State) : Res :=
  let z := zeroVal c.w false
  .next (fireSlot c (sendNulls c z z) (sendNulls c z z) s)

/-- SYNC (R115). -/
def execSync (c : Common) (_f : FormA) (s : State) : Res := fireCopy c s

/-- ORDJ (R115). -/
def execOrdj (c : Common) (_f : FormA) (s : State) : Res :=
  fireVals c (fun _ _ _ => (.ct 1, .ct 1)) (.ct 0) (.ct 0) s

/-- The tag of the instance a slot fires in, and the widths of its layout (R117). -/
def ownTag (s : State) (b : Nat) (m : MSet) : Word := ((s.inst? b m.gate m.ix).map (·.tag)).getD 0
def ownWidths (s : State) (b : Nat) (m : MSet) : List Nat :=
  match s.inst? b m.gate m.ix with
  | none => []
  | some i => ((s.hitch? b m.gate i.ctx i.hnum).map (·.widths)).getD []

/-- TAG_OVERFLOW details: field, width, value (R349). -/
def overflowOf (i w v : Nat) : Word × Word × Word × Word := (word i, word w, word v, 0)

/-- A slot that computes a tag value or a field from its own tag: a word to both targets, or TAG_OVERFLOW with nothing
sent (R38, R117). -/
def fireTag (c : Common) (v : Word → List Nat → MSet → Except (Word × Word × Word × Word) Word) (s : State) : Res :=
  .next (fireSlot c (sendNulls c (.sc 0) (.sc 0)) (fun b m s =>
    match v (ownTag s b m) (ownWidths s b m) m with
    | .error d => slotFault 0x02 d b m s
    | .ok x => deliver c (.sc x) b m s) s)

/-- Port B as n32, or the immediate. -/
def fieldOperand (c : Common) (f : FormA) (m : MSet) : Nat :=
  if f.im then (immValue c.ty f.imm16).toNat % 2 ^ 32 else patAt false 32 0 m.b

/-- INCF (R117). -/
def execIncf (c : Common) (f : FormA) (s : State) : Res :=
  fireTag c (fun t ws _ =>
    let i := f.tagField
    let v := tagField ws t i
    if v + 1 = 2 ^ ws.getD i 0 then .error (overflowOf i (ws.getD i 0) v)
    else .ok (if f.whole then tagPut ws t i (v + 1) else word (v + 1))) s
/-- PUSHF (R117). -/
def execPushf (c : Common) (f : FormA) (s : State) : Res :=
  fireTag c (fun t ws m =>
    let wn := bits f.aux7 0 5 + 1
    let v := fieldOperand c f m
    if 2 ^ wn ≤ v then .error (overflowOf ws.length wn v)
    else .ok (tagDepth (tagPut (ws ++ [wn]) t ws.length v) (ws.length + 1))) s
/-- POPF (R117). -/
def execPopf (c : Common) (_f : FormA) (s : State) : Res :=
  fireTag c (fun t ws _ => .ok (tagDepth (tagPut ws t (ws.length - 1) 0) (ws.length - 1))) s
/-- SETF (R117). -/
def execSetf (c : Common) (f : FormA) (s : State) : Res :=
  fireTag c (fun t ws m =>
    let i := f.tagField
    let v := fieldOperand c f m
    if 2 ^ ws.getD i 0 ≤ v then .error (overflowOf i (ws.getD i 0) v)
    else .ok (tagPut ws t i v)) s
/-- GETF (R117). -/
def execGetf (c : Common) (f : FormA) (s : State) : Res :=
  fireTag c (fun t ws _ => .ok (if f.whole then t else word (tagField ws t f.tagField))) s

end Sys2Proof.Machine
end

