-- ==== Sys2Proof/Machine/HitchOps.lean ====
section
/-!
DEFINITION. Sys2Proof/Machine/HitchOps.lean: count and fold (R118 to R122), and the hitch-control family, 0x80 to 0x85
(R123 to R129).
-/
namespace Sys2Proof.Machine

open Sys2Proof

/-! ## Accumulation records -/

/-- The key of a contribution: the instance's tag with its innermost field zero (R119). -/
def recKey (ws : List Nat) (t : Word) : Word := tagPut ws t (ws.length - 1) 0

/-- Its index: the innermost field (R119). -/
def recIndex (ws : List Nat) (t : Word) : Nat := tagField ws t (ws.length - 1)

/-- Is this the record of a slot and key (R118)? -/
def AccRec.isFor (a : AccRec) (ctx : Nat) (key : Word) (el slot : Nat) : Bool :=
  a.ctx == ctx && a.key == key && a.el == el && a.slot == slot

/-- Is the context's reserved record free? Is a shared record free (R118)? `held` is how many records resident contexts
have reserved at the gate. -/
def Gate.ownRecFree (g : Gate) (ctx : Nat) : Bool := !(g.recs.any fun a => a.own && a.ctx == ctx)
def Gate.sharedRecFree (g : Gate) (held : Nat) : Bool :=
  (g.recs.filter fun a => !a.own).length + held < Config.accRecords

/-- Keys of a context's reserved parts (R11, R402): by element rows, entries and parking buffers; wave-buffer entries; by gate
entry-buffer places and accumulation records. -/
def rowKey (e : Nat) : Nat := e
def entKey (e : Nat) : Nat := 128 + e
def parkKey (e : Nat) : Nat := 256 + e
def waveKey : Nat := 384
def placeKey (g : Nat) : Nat := 392 + g
def recordKey (g : Nat) : Nat := 400 + g

/-- What the resident contexts of a bay have reserved of one part. -/
def Bay.reservedSum (y : Bay) (k : Nat) : Nat := y.ctxs.foldl (fun n e => n + AMap.getD e.2.reserved k 0) 0

/-- May a count or fold set fire (R120)? -/
def State.recReady (s : State) (b : Nat) (m : MSet) : Bool :=
  let g := s.gate b m.gate
  let key := recKey (ownWidths s b m) (ownTag s b m)
  s.lowerDone b m.gate m.ix &&
    (g.recs.any (·.isFor m.ctx key m.el m.slot) || g.ownRecFree m.ctx ||
      g.sharedRecFree ((s.bay b).reservedSum (recordKey m.gate)))

/-- Keep a matched set with its frame row until it may fire (R24, R120). -/
def waitSet (b : Nat) (m : MSet) (s : State) : State :=
  s.modElem b m.el fun e => { e with wait := e.wait ++ [m] }

/-- The record of a firing set, created now if there is none (R118): in the context's own record, or a shared one. -/
def takeRec (n : Nat) (b : Nat) (m : MSet) (s : State) : AccRec × State :=
  let g := s.gate b m.gate
  let key := recKey (ownWidths s b m) (ownTag s b m)
  match g.recs.find? (·.isFor m.ctx key m.el m.slot) with
  | some a => (a, s)
  | none =>
    let a : AccRec := ⟨m.ctx, key, m.el, m.slot, g.ownRecFree m.ctx, max n 1, 0, []⟩
    (a, s.modGate b m.gate fun g => { g with recs := g.recs ++ [a] })

/-- Hold a record update for commit (R120). -/
def holdUpd (u : RecUpd) (b : Nat) (m : MSet) (s : State) : State :=
  s.modInst b m.gate m.ix fun i => { i with updates := i.updates ++ [u] }

/-- A count or fold slot: a set that may not fire waits, whatever its operands (R120); then it fires as any slot does. -/
def fireRec (c : Common) (n0 : Val) (go : Nat → MSet → State → State) (s : State) : Res :=
  match s.fire with
  | none => .next s
  | some (b, m) =>
    if s.recReady b m then .next (fireSlot c (sendNulls c n0 (.ct 0)) go s) else .next (waitSet b m { s with fire := none })

/-- COUNT (R121). -/
def execCount (c : Common) (f : FormA) (s : State) : Res :=
  fireRec c (.sc 0) (fun b m s =>
    let r := takeRec (fieldOperand c f m) b m s
    let n := r.1.cnt + 1
    let fin := n == r.1.n
    deliver2 c (.sc (word (n % 2 ^ 32))) (.ct (BitVec.ofBool fin)) b m
      (holdUpd ⟨{ r.1 with cnt := n }, fin⟩ b m r.2)) s

/-- push_leaf: a node joins the full levels below it, lower index left (R122). -/
def pushNode (f : Word → Word → Word) : List (Option Partial) → Partial → List (Option Partial)
  | [], x => [some x]
  | none :: l, x => some x :: l
  | some y :: l, x => none :: pushNode f l (joinNode f y x)

/-- Voids for skipped indices. -/
def pushVoids (f : Word → Word → Word) : Nat → List (Option Partial) → List (Option Partial)
  | 0, l => l
  | n + 1, l => pushVoids f n (pushNode f l none)

/-- prefix (R122). -/
def prefixOf (f : Word → Word → Word) (l : List (Option Partial)) : Partial :=
  l.foldl (fun acc x =>
    match x with
    | none => acc
    | some y => joinNode f y acc) none

/-- The levels of a record with a leaf at index j put in; under NBV 1 one running value (R122, R72). -/
def foldPush (nbv : Nat) (f : Word → Word → Word) (l : List (Option Partial)) (skip : Nat) (x : Partial) :
    List (Option Partial) :=
  if nbv = 1 then [some (joinNode f (prefixOf f l) x)] else pushNode f (pushVoids f skip l) x

/-- The reduction of a fold slot (R122). -/
def foldRed (c : Common) (f : FormA) (nbv : Nat) : Red :=
  ⟨f.opsel, c.ty, c.ty.width false, c.ty, c.ty.width false, f.rnd, f.sat, nbv⟩

/-- FOLD (R122). -/
def execFold (c : Common) (f : FormA) (s : State) : Res :=
  fireRec c (.sc 0) (fun b m s =>
    let nbv := nbvOf s b m.ctx
    let r := foldRed c f nbv
    let comb (x y : Word) : Word := word (r.combine x.toNat y.toNat)
    let j := recIndex (ownWidths s b m) (ownTag s b m)
    let n := if f.im then f.imm16.toNat else patAt false 32 0 m.b
    let q := takeRec n b m s
    let a := q.1
    let out (x : Partial) : Val := .sc (extendRes c.ty r.w (match x with | some v => v.toNat | none => r.identity))
    if j < a.cnt || a.n ≤ j then deliver2 c (out (prefixOf comb a.levels)) (.ct 0) b m q.2
    else
      let here := !f.msk || (m.c.map fun t => valBit t.val).getD false
      let leaf : Partial := if here then some (word (r.widen (patAt false r.sw 0 m.a))) else none
      let ls := foldPush nbv comb a.levels (j - a.cnt) leaf
      let fin := j + 1 == a.n
      deliver2 c (out (prefixOf comb ls)) (.ct (BitVec.ofBool fin)) b m
        (holdUpd ⟨{ a with cnt := j + 1, levels := ls }, fin⟩ b m q.2)) s

/-! ## Exits, calls, returns -/

/-- Form the new tag (R124); an error is TAG_OVERFLOW's details. `a` is port A's value for SET. -/
def newTag (ws : List Nat) (t : Word) (top : TagOp) (i : Nat) (a : Word) : Except (Word × Word × Word × Word) Word :=
  let d := ws.length
  match top with
  | .same => .ok t
  | .inc =>
    let v := tagField ws t i
    if v + 1 = 2 ^ ws.getD i 0 then .error (overflowOf i (ws.getD i 0) v) else .ok (tagPut ws t i (v + 1))
  | .push => .ok (tagDepth t (d + 1))
  | .pop => .ok (tagDepth (tagPut ws t (d - 1) 0) (d - 1))
  | .set =>
    let v := a.toNat % 2 ^ 32
    if 2 ^ ws.getD i 0 ≤ v then .error (overflowOf i (ws.getD i 0) v) else .ok (tagPut ws t i v)
  | .popinc =>
    let v := tagField ws t (d - 2)
    if v + 1 = 2 ^ ws.getD (d - 2) 0 then .error (overflowOf (d - 2) (ws.getD (d - 2) 0) v)
    else .ok (tagPut ws (tagDepth (tagPut ws t (d - 1) 0) (d - 1)) (d - 2) (v + 1))

/-- The hitch of a context at a region position (R83), as the loader installed it. -/
def State.hitchAt (s : State) (b ctx pos g h : Nat) : Option HitchCfg :=
  match (s.ctx? b ctx).bind (·.bayAt pos) with
  | none => none
  | some t => s.hitch? t g ctx h

/-- A value on the network an entry names (R86, R123). -/
def onNet (net : Nat) (v : Val) : Val :=
  if net = 1 then .vec (valVec v) else if net = 2 then .ct (BitVec.ofBool (valBit v)) else .sc (valWord v)

/-- Where held tokens go in the gate's order: exit or ret first, then calls by span element and slot (R125). -/
def Held.order (h : Held) : Nat := if h.call then 1 + 32 * h.se + h.slot else 0

/-- Give tokens to the gate until commit (R125). -/
def holdTokens (hs : List Held) (b : Nat) (m : MSet) (s : State) : State :=
  s.modInst b m.gate m.ix fun i => { i with held := sortBy Held.order (i.held ++ hs) }

/-- Count as the exit of the instance, or raise HITCH_MULTIEXIT (R31, R125, R176). -/
def countExit (f : FormX) (endS : Bool) (depth : Nat) (hs : List Held) (b : Nat) (m : MSet) (s : State) : State :=
  match (s.inst? b m.gate m.ix).bind (·.exit) with
  | some e => s.takeFault b m.gate m.ix 0x05 (some m.el) m.slot (word e, word f.exn.toNat, 0, 0) .multi
  | none =>
    (s.modInst b m.gate m.ix fun i =>
      { i with exit := some f.exn.toNat, endStrand := endS,
               popTo := if f.top = .pop ∨ f.top = .popinc then some (depth - 1) else none })
    |> holdTokens hs b m

/-- The tokens of an exit or call for the entries from ENTRY on (R123). -/
def exitTokens (call : Bool) (f : FormX) (h : HitchCfg) (tag : Word) (se : Nat) (m : MSet) : List Held :=
  let k := min 3 (h.entries - f.entry.toNat)
  (List.range k).map fun i =>
    let e := f.entry.toNat + i
    let t := ([m.a, m.b, m.c].getD i none).getD noTok
    ⟨call, se, m.slot, f.pos.toNat, f.gate.toNat, f.hnum.toNat, e, tag, ⟨onNet (h.entNet e) t.val, false, false⟩⟩

/-- Does a counted exit already stand, so that this one is a second exit? A second exit faults before its tag. -/
def secondExit (s : State) (b : Nat) (m : MSet) : Bool := ((s.inst? b m.gate m.ix).bind (·.exit)).isSome

/-- An exit or call: the new tag, then the tokens (R124 to R126). -/
def fireExit (call : Bool) (c : Common) (f : FormX) (s : State) : Res :=
  .next (fireSlot c (fun _ _ s => s) (fun b m s =>
    if !call && secondExit s b m then countExit f false 0 [] b m s
    else
      let ws := ownWidths s b m
      match newTag ws (ownTag s b m) f.top f.field.toNat (valWord (valA m)) with
      | .error d => slotFault 0x02 d b m s
      | .ok t =>
        let hs := match s.hitchAt b m.ctx f.pos.toNat f.gate.toNat f.hnum.toNat with
          | none => []
          | some h => exitTokens call f h t (s.slot b m.el m.slot).se m
        if call then holdTokens hs b m s else countExit f false ws.length hs b m s) s)

/-- EXIT (R125). -/
def execExit (c : Common) (f : FormX) (s : State) : Res := fireExit false c f s
/-- CALL (R126). -/
def execCall (c : Common) (f : FormX) (s : State) : Res := fireExit true c f s

/-- The check of a link value with END = 0 (R127). The width of port A is scalar or vector; a control token counts as
scalar (R131). -/
def linkOk (s : State) (b : Nat) (m : MSet) (link : Word) : Option HitchCfg :=
  let pos := bits link 11 7
  match s.hitchAt b m.ctx pos (bits link 8 3) (bits link 3 5) with
  | none => none
  | some h =>
    let e := bits link 0 3
    if bitsZero link 18 13 && e < h.entries && h.widths == (ownWidths s b m).dropLast &&
        ((valNet (valA m) == 1) == (h.entNet e == 1)) then some h
    else none

/-- RET (R127). -/
def execRet (c : Common) (f : FormX) (s : State) : Res :=
  .next (fireSlot c (fun _ _ s => s) (fun b m s =>
    if secondExit s b m then countExit f false 0 [] b m s
    else
      let ws := ownWidths s b m
      let link := ((m.c.map fun t => valWord t.val).getD 0) &&& 0xFFFFFFFF#64
      match newTag ws (ownTag s b m) f.top f.field.toNat (valWord (valA m)) with
      | .error d => slotFault 0x02 d b m s
      | .ok t =>
        if link.getLsbD 31 then countExit f true ws.length [] b m s
        else
          match linkOk s b m link with
          | none => slotFault 0x01 ((s.slot b m.el m.slot).word, 6, link, 0) b m s
          | some h =>
            let e := bits link 0 3
            countExit f false ws.length
              [⟨false, (s.slot b m.el m.slot).se, m.slot, bits link 11 7, bits link 8 3, bits link 3 5, e, t,
                ⟨onNet (h.entNet e) (valA m), false, false⟩⟩] b m s) s)

/-- DISCARD (R128). -/
def execDiscard (c : Common) (_f : FormX) (s : State) : Res :=
  .next (fireSlot c (fun _ _ s => s) (fun b m s =>
    s.modInst b m.gate m.ix fun i => { i with discard := true }) s)

/-! ## Keep registers -/

/-- The register a kget or kput names: HID[5:0] (R83, R129). -/
def keepRegOf (f : FormX) : Nat := (f.gate.toNat % 2) * 32 + f.hnum.toNat

/-- The keep-file row of an instance's strand, if this bay is its home; else KEEP_CONFLICT's details (R22, R23). -/
def keepRow (s : State) (b : Nat) (m : MSet) (r : Nat) : Except (Word × Word × Word × Word) Nat :=
  match s.ctx? b m.ctx with
  | none => .error (word r, 0, 0, 0)
  | some c =>
    match strandOf (ownWidths s b m) (ownTag s b m) with
    | none => .error (word r, 0, 0, 0)
    | some st =>
      let home := st / max c.strCnt 1
      if home = c.position && home < c.npos then .ok (c.strBase + st % max c.strCnt 1)
      else .error (word r, word home, 0, 0)

/-- A keep register (R22). -/
def Bay.keepReg (y : Bay) (row r : Nat) : Word := AMap.getD (AMap.getD y.keep row []) r 0

/-- A value goes to both targets, poisoned if its register is (R380). -/
def deliverPoi (c : Common) (v : Val) (poi : Bool) (b : Nat) (m : MSet) (s : State) : State :=
  sendTo (sendTo s b m c.t0 ⟨v, false, poi⟩) b m c.t1 ⟨v, false, poi⟩

/-- KGET (R129): in SEQ mode it waits for lower instances (R24); elsewhere it returns what was committed at admission. -/
def execKget (c : Common) (f : FormX) (s : State) : Res :=
  .next (fireSlot c (sendNulls c (.sc 0) (.sc 0)) (fun b m s =>
    let r := keepRegOf f
    match keepRow s b m r with
    | .error d => slotFault 0x06 d b m s
    | .ok row =>
      let mode := ((s.inst? b m.gate m.ix).bind fun i => s.hitch? b m.gate i.ctx i.hnum).map (·.mode)
      if mode = some 0 then
        if s.keepReady b m.gate m.ix r then
          deliverPoi c (.sc ((s.bay b).keepReg row r)) ((s.bay b).keepPoi.contains (64 * row + r)) b m s
        else waitSet b m s
      else
        let i := s.inst? b m.gate m.ix
        deliverPoi c (.sc ((i.map fun i => AMap.getD i.keepSnap r 0).getD 0)) (i.any fun i => i.keepPoi.contains r) b m s) s)

/-- Place a keep entry in the wave buffer, and complete the register in the keep-write mask (R129). -/
def putKeep (f : FormX) (nul : Bool) (v : Word) (b : Nat) (m : MSet) (s : State) : State :=
  let e : WaveEnt :=
    { gate := m.gate, ix := m.ix, kind := .keep, lsid := (keepRegOf f), nul := nul, site := 0, addr := 0
      data := leBytes 8 v.toNat, poi := [], ord := .plain, scope := 0, zskip := false, el := m.el, slot := m.slot }
  (s.modBay b fun y => { y with wave := y.wave ++ [e] }).modInst b m.gate m.ix fun i =>
    { i with keeps := insertNat (keepRegOf f) i.keeps }

/-- KPUT (R129): a null or a predicate that disagrees nulls the register. -/
def execKput (c : Common) (f : FormX) (s : State) : Res :=
  .next (fireSlot c (putKeep f true 0) (fun b m s =>
    match keepRow s b m (keepRegOf f) with
    | .error d => slotFault 0x06 d b m s
    | .ok _ => putKeep f false (valWord (valA m)) b m s) s)

end Sys2Proof.Machine
end

