-- ==== Sys2Proof/Machine/Crypto.lean ====
section
/-!
DEFINITION. Sys2Proof/Machine/Crypto.lean: SHA3-512 with the functions of its family that the lattice schemes use (FIPS 202), and
AES-256-XTS (FIPS 197, IEEE Std 1619), standards that R375, R376 and R378 name. Multi-byte values are
little-endian (R4): byte i of a key or digest is its bits 8i + 7 : 8i.
-/
namespace Sys2Proof.Machine

open Sys2Proof

/-! ## SHA3-512 and its kin -/

/-- Rotation offsets of the lanes x + 5y. -/
def keccakRot : List Nat :=
  [0, 1, 62, 28, 27, 36, 44, 6, 55, 20, 3, 10, 43, 25, 39, 41, 45, 15, 21, 8, 18, 2, 61, 56, 14]

/-- Round constants. -/
def keccakRc : List Word :=
  [0x1, 0x8082, 0x800000000000808A, 0x8000000080008000, 0x808B, 0x80000001, 0x8000000080008081, 0x8000000000008009] ++
  [0x8A, 0x88, 0x80008009, 0x8000000A, 0x8000808B, 0x800000000000008B, 0x8000000000008089, 0x8000000000008003] ++
  [0x8000000000008002, 0x8000000000000080, 0x800A, 0x800000008000000A, 0x8000000080008081, 0x8000000000008080] ++
  [0x80000001, 0x8000000080008008]

/-- One round: theta, rho, pi, chi, iota. -/
def keccakRound (a : List Word) (rc : Word) : List Word :=
  let at' (l : List Word) (i : Nat) : Word := l.getD i 0
  let c := (List.range 5).map fun x => at' a x ^^^ at' a (x + 5) ^^^ at' a (x + 10) ^^^ at' a (x + 15) ^^^ at' a (x + 20)
  let d := (List.range 5).map fun x => at' c ((x + 4) % 5) ^^^ (at' c ((x + 1) % 5)).rotateLeft 1
  let t := (List.range 25).map fun i => (at' a i ^^^ at' d (i % 5)).rotateLeft (keccakRot.getD i 0)
  -- pi: lane (x, y) takes lane (x + 3y, x)
  let b := (List.range 25).map fun i => let x := i % 5; let y := i / 5; at' t ((x + 3 * y) % 5 + 5 * x)
  let e := (List.range 25).map fun i =>
    let x := i % 5; let y := i / 5
    at' b i ^^^ (~~~(at' b ((x + 1) % 5 + 5 * y)) &&& at' b ((x + 2) % 5 + 5 * y))
  (at' e 0 ^^^ rc) :: e.drop 1

def keccakF (a : List Word) : List Word := keccakRc.foldl keccakRound a

/-- Take in one block of at most 200 bytes. -/
def keccakAbsorb (a : List Word) (blk : List Byte) : List Word :=
  keccakF ((List.range 25).map fun i => a.getD i 0 ^^^ BitVec.ofNat 64 (leNat ((blk.drop (8 * i)).take 8)))

def keccakBlocks (rate : Nat) : Nat → List Byte → List Word → List Word
  | 0, _, a => a
  | n + 1, l, a => keccakBlocks rate n (l.drop rate) (keccakAbsorb a (l.take rate))

/-- Give out blocks. -/
def keccakSqueeze (rate : Nat) : Nat → List Word → List Byte
  | 0, _ => []
  | n + 1, a => (a.flatMap fun w => leBytes 8 w.toNat).take rate ++ keccakSqueeze rate n (keccakF a)

/-- A sponge on a byte string: `rate` bytes a block, the suffix with the first bit of padding, `n` bytes out. -/
def sponge (rate : Nat) (suffix : Byte) (m : List Byte) (n : Nat) : List Byte :=
  let k := m.length / rate + 1
  let pad := k * rate - m.length
  let tail : List Byte := if pad = 1 then [suffix ||| 0x80] else suffix :: List.replicate (pad - 2) 0 ++ [0x80]
  (keccakSqueeze rate ((n + rate - 1) / rate) (keccakBlocks rate k (m ++ tail) (List.replicate 25 0))).take n

/-- The SHA3-512 digest of a byte string, 64 bytes. -/
def sha3 (m : List Byte) : List Byte := sponge 72 0x06 m 64

def sha3_256 (m : List Byte) : List Byte := sponge 136 0x06 m 32
def shake128 (m : List Byte) (n : Nat) : List Byte := sponge 168 0x1F m n
def shake256 (m : List Byte) (n : Nat) : List Byte := sponge 136 0x1F m n

/-- The digest as a number. -/
def sha3Val (m : List Byte) : BitVec 512 := BitVec.ofNat 512 (leNat (sha3 m))

/-! ## AES-256 -/

/-- Multiplication in the field of AES. -/
def gfMul (a b : Byte) : Byte :=
  ((List.range 8).foldl (fun (acc : Byte × Byte) i =>
    (if b.getLsbD i then acc.1 ^^^ acc.2 else acc.1,
     (acc.2 <<< 1) ^^^ (if acc.2.getLsbD 7 then 0x1B else 0))) ((0 : Byte), a)).1

/-- The inverse, a^254; zero for zero. -/
def gfInv (a : Byte) : Byte :=
  let p2 := gfMul a a
  let p4 := gfMul p2 p2
  let p8 := gfMul p4 p4
  let p16 := gfMul p8 p8
  let p32 := gfMul p16 p16
  let p64 := gfMul p32 p32
  let p128 := gfMul p64 p64
  gfMul p2 (gfMul p4 (gfMul p8 (gfMul p16 (gfMul p32 (gfMul p64 p128)))))

def subByte (a : Byte) : Byte :=
  let x := gfInv a
  x ^^^ x.rotateLeft 1 ^^^ x.rotateLeft 2 ^^^ x.rotateLeft 3 ^^^ x.rotateLeft 4 ^^^ 0x63

def invSubByte (y : Byte) : Byte := gfInv (y.rotateLeft 1 ^^^ y.rotateLeft 3 ^^^ y.rotateLeft 6 ^^^ 0x05)

/-- Bytes of two lists added. -/
def xorBytes (a b : List Byte) : List Byte := List.zipWith (· ^^^ ·) a b

/-- The next word of the key schedule after n words, newest first. -/
def keyWord (n : Nat) (ws : List (List Byte)) : List Byte :=
  let t := ws.headD []
  let t := if n % 8 = 0 then
      xorBytes ((t.drop 1 ++ t.take 1).map subByte)
        [(List.range (n / 8 - 1)).foldl (fun r _ => gfMul r 2) (1 : Byte), 0, 0, 0]
    else if n % 8 = 4 then t.map subByte else t
  xorBytes t (ws.getD 7 [])

def keyWords : Nat → Nat → List (List Byte) → List (List Byte)
  | 0, _, ws => ws
  | k + 1, n, ws => keyWords k (n + 1) (keyWord n ws :: ws)

/-- The fifteen round keys of a 32-byte key. -/
def roundKeys (key : List Byte) : List (List Byte) :=
  let w0 := ((List.range 8).map fun i => (key.drop (4 * i)).take 4).reverse
  let ws := (keyWords 52 8 w0).reverse
  (List.range 15).map fun r => ((ws.drop (4 * r)).take 4).flatten

/-- MixColumns by the given row. -/
def mixCols (row : List Byte) (s : List Byte) : List Byte :=
  (List.range 16).map fun i =>
    let c := i / 4 * 4
    let r := i % 4
    (List.range 4).foldl (fun acc k => acc ^^^ gfMul (row.getD ((k + 4 - r) % 4) 0) (s.getD (c + k) 0)) (0 : Byte)

def shiftRows (s : List Byte) : List Byte := (List.range 16).map fun i => s.getD ((i + 4 * (i % 4)) % 16) 0
def invShiftRows (s : List Byte) : List Byte := (List.range 16).map fun i => s.getD ((i + 12 * (i % 4)) % 16) 0

/-- Encrypt one block of 16 bytes. -/
def aesEnc (rk : List (List Byte)) (p : List Byte) : List Byte :=
  let s := (List.range 13).foldl (fun s r =>
    xorBytes (mixCols [2, 3, 1, 1] (shiftRows (s.map subByte))) (rk.getD (r + 1) [])) (xorBytes p (rk.headD []))
  xorBytes (shiftRows (s.map subByte)) (rk.getD 14 [])

/-- Decrypt one block of 16 bytes. -/
def aesDec (rk : List (List Byte)) (c : List Byte) : List Byte :=
  let s := (List.range 13).foldl (fun s r =>
    mixCols [14, 11, 13, 9] (xorBytes ((invShiftRows s).map invSubByte) (rk.getD (13 - r) []))) (xorBytes c (rk.getD 14 []))
  xorBytes ((invShiftRows s).map invSubByte) (rk.headD [])

/-! ## XTS on a sector of 32 bytes -/

/-- The tweak of block 1 from that of block 0: times x in the field of 2^128. -/
def xtsNext (t : List Byte) : List Byte :=
  let v := BitVec.ofNat 128 (leNat t)
  leBytes 16 ((v <<< 1) ^^^ (if v.getLsbD 127 then 0x87 else 0)).toNat

/-- One 32-byte data unit with a block cipher direction; the tweak is a number, little-endian. -/
def xtsUnit (dec : Bool) (k1 k2 : BitVec 256) (tweak : Nat) (d : List Byte) : List Byte :=
  let rk1 := roundKeys (leBytes 32 k1.toNat)
  let rk2 := roundKeys (leBytes 32 k2.toNat)
  let t0 := aesEnc rk2 (leBytes 16 tweak)
  let t1 := xtsNext t0
  let f := if dec then aesDec rk1 else aesEnc rk1
  xorBytes (f (xorBytes (d.take 16) t0)) t0 ++ xorBytes (f (xorBytes ((d.drop 16).take 16) t1)) t1

end Sys2Proof.Machine
end

