-- ==== Sys2Proof/Machine/Translate.lean ====
section
/-!
DEFINITION. Sys2Proof/Machine/Translate.lean: physical addresses (R334, R335, R403), the page-table walk and the TLB (R336
to R341), and reads and writes of bytes at their home, encrypted where R375 says so.
-/
namespace Sys2Proof.Machine

open Sys2Proof

/-! ## Physical addresses -/

/-- Where a translated byte lies: key in memory, bay of its home unit (160 outside the loft), physical address, memory
kind (0 loft, 1 LPDDR, 2 host), PTE KIND, group index, and the partition whose keys encrypt it (R375). -/
structure Loc where
  key  : Nat
  home : Nat
  pa   : Nat
  mem  : Nat
  kind : Nat
  gdi  : Nat
  enc  : Option Nat
  deriving DecidableEq, Repr

/-- The memory behind a physical address of a launch: its key, home and kind; none raises XLAT_PERM (R334, R335). -/
def locOf (part : Nat) (c : CtxRt) (pa : Nat) : Option (Nat × Nat × Nat) :=
  if pa < Config.lpddr then some (pa, Config.bays, 1)
  else if Config.loftByPos ≤ pa && pa < Config.loftByPos + 128 * Config.sliceStep then
    let o := (pa - Config.loftByPos) % Config.sliceStep
    if o < Config.slice then
      (c.bayAt ((pa - Config.loftByPos) / Config.sliceStep)).map fun b => (loftKey b o, b, 0)
    else none
  else if Config.hostWin ≤ pa && pa < Config.phys then some (hostKey part (pa - Config.hostWin), Config.bays, 2)
  else none

/-- Page size of SIZE (R337). -/
def pageBytes (size : Nat) : Nat :=
  if size = 0 then 0x10000 else if size = 1 then 0x200000 else if size = 2 then 0x2000000 else 0x20000000

/-! ## Entries (R337) -/

def pteV (e : Word) : Bool := e.getLsbD 63
def pteKind (e : Word) : Nat := bits e 61 2
def pteSize (e : Word) : Nat := bits e 59 2
def pteR (e : Word) : Bool := e.getLsbD 58
def pteW (e : Word) : Bool := e.getLsbD 57
def pteD (e : Word) : Bool := e.getLsbD 55
def pteM (e : Word) : Bool := e.getLsbD 54
def pteE (e : Word) : Bool := e.getLsbD 53
def pteT (e : Word) : Bool := e.getLsbD 52
/-- The base an entry points at: physical bits 51:16. -/
def pteBase (e : Word) : Nat := bits e 16 36 * 0x10000
def pteGdi (e : Word) : Nat := bits e 0 12

/-- A pointer entry: V, T and PFN only. -/
def pointerOk (e : Word) : Bool := pteV e && pteT e && bitsZero e 53 10 && bitsZero e 0 16

/-- What an access needs of a page (R340): permissions, the kinds of page that serve it (R186 to R188, R216) and the memory behind it
(R161), if it names one. -/
structure Need where
  read  : Bool
  write : Bool
  kinds : List Nat
  mem   : Option Nat
  deriving DecidableEq, Repr

def needR : Need := ⟨true, false, [0], none⟩
def needW : Need := ⟨false, true, [0], none⟩
def needRW : Need := ⟨true, true, [0], none⟩

/-- The range of a shootdown: does it hold a byte of a run (R343)? -/
def Shoot.covers (k : Shoot) (a n : Nat) : Bool :=
  k.npg == 0 || (k.base < a + n && a < k.base + k.npg * 0x10000)

/-- Does a FLUSH or MIGRATE shootdown under way ask for the write-back of an address? Such a write-back does not park on
M = 1: it is performed before the copy (R213, R343; log 13). -/
def Part.draining (p : Part) (a : Nat) : Bool := p.shoot.any fun k => k.kind != 0 && k.covers a 1

/-- Is a run of LPDDR granted to a partition (R193, R341; log 93)? -/
def Part.grants (p : Part) (a n : Nat) : Bool := p.granted.all fun l => l.any fun r => r.1 ≤ a && a + n ≤ r.1 + r.2

/-- The fields of a leaf that R337 and R338 fix, but for permission and range; its LPDDR is granted (R341). -/
def leafOk (p : Part) (e : Word) : Bool :=
  (pteKind e == 1 || !inLpddr (pteBase e) || p.grants (pteBase e) (pageBytes (pteSize e))) &&
  !pteT e && pteKind e != 3 && bitsZero e 12 4 &&
  (if pteKind e = 1 then bits e 16 36 == 0 else pteGdi e == 0) &&
  pteBase e % pageBytes (pteSize e) == 0 &&
  (!pteE e || (p.encl && inLpddr (pteBase e) && pteKind e != 1)) &&
  (pteKind e != 2 || (Config.loftByPos ≤ pteBase e && pteBase e < Config.loftByPos + 128 * Config.sliceStep))

/-- Permission (R340). -/
def leafAllows (e : Word) (n : Need) : Bool := (!n.read || pteR e) && (!n.write || pteW e)

/-- The location a leaf gives an address; a GROUP page names no memory (R216). -/
def leafLoc (part : Nat) (c : CtxRt) (e : Word) (va : Nat) : Option Loc :=
  if pteKind e = 1 then some ⟨0, Config.bays, 0, 3, 1, pteGdi e, none⟩
  else
    let pa := pteBase e + va % pageBytes (pteSize e)
    (locOf part c pa).map fun l =>
      ⟨l.1, l.2.1, pa, l.2.2, pteKind e, 0, if pteE e then some part else none⟩

/-- Does a location serve an access: the page's kind, the memory behind it? -/
def Need.served (n : Need) (l : Loc) : Bool := n.kinds.contains l.kind && n.mem.all (· == l.mem)

/-- What a translation comes to: a location, with A, D and the TLB brought up to date; a fault with its walk level (2
root, 1 L1, 0 L0, 3 a kind or range error; log 10); a poisoned table entry; a walk that parks (R346); no walk is free (R340). -/
inductive Xlat where
  | ok (l : Loc) (s : State)
  | fault (code level : Nat)
  | poison (addr : Nat)
  | park
  | busy

/-- Codes of XLAT_MISS and XLAT_PERM. -/
def xMiss : Nat := 0x10
def xPerm : Nat := 0x11

/-! ## The TLB (R340) -/

/-- Install an entry, with least-recently-used replacement. -/
def tlbInstall (y : Bay) (part va : Nat) (e : Word) : Bay :=
  let size := pageBytes (pteSize e)
  let base := va / size * size
  let l := y.tlb.filter fun t => !(t.part == part && t.base == base && t.size == size)
  let oldest := l.foldl (fun m t => min m t.used) y.tlbSeq
  let l := if Config.tlbEnts ≤ l.length then (dropAt l ((placeOf (fun t : TlbEnt => t.used == oldest) l 0).getD 0)) else l
  { y with tlb := l ++ [⟨part, base, size, e, y.tlbSeq⟩], tlbSeq := y.tlbSeq + 1 }

/-- The entry that serves an access: one with D = 0 serves reads only (R341). -/
def tlbHit (y : Bay) (part va : Nat) (write : Bool) : Option TlbEnt :=
  y.tlb.find? fun t => t.part == part && t.base ≤ va && va < t.base + t.size && (!write || pteD t.pte)

/-- Note a use. -/
def tlbTouch (y : Bay) (t : TlbEnt) : Bay :=
  { y with tlb := y.tlb.map fun u => if u = t then { u with used := y.tlbSeq } else u, tlbSeq := y.tlbSeq + 1 }

/-! ## The walk (R341) -/

/-- Find the leaf that governs an address: its own address and value, or how the walk ends. -/
def findLeaf (s : State) (p : Part) (va : Nat) : Except (Nat × Nat) (Nat × Word) :=
  if !p.troot.getLsbD 0 then .error (xMiss, 2)
  else
    let a := bits p.troot 20 32 * 0x100000 + 8 * (va / 2 ^ 39 % 2 ^ 17)
    let e := s.readWord a
    if s.poisoned a 8 then .error (0x20, a)
    else if !pteV e then .error (xMiss, 2)
    else if !pointerOk e then .error (xPerm, 2)
    else
      let a := pteBase e + 8 * (va / 2 ^ 29 % 2 ^ 10)
      let e := s.readWord a
      if s.poisoned a 8 then .error (0x20, a)
      else if !pteV e then .error (xMiss, 1)
      else if !pteT e then (if pteSize e = 3 then .ok (a, e) else .error (xPerm, 1))
      else if !pointerOk e then .error (xPerm, 1)
      else
        let i := va / 2 ^ 16 % 2 ^ 13
        let a := pteBase e + 8 * i
        let f := s.readWord a
        if s.poisoned a 8 then .error (0x20, a)
        else if !pteV f then .error (xMiss, 0)
        else if pteT f || pteSize f = 3 then .error (xPerm, 0)
        else
          let run := if pteSize f = 1 then 32 else if pteSize f = 2 then 512 else 1
          let a := pteBase e + 8 * (i - i % run)
          let h := s.readWord a
          if s.poisoned a 8 then .error (0x20, a)
          else if !pteV h || pteSize h != pteSize f then .error (xPerm, 0)
          else .ok (a, h)

/-- Walks that a translation node has under way between steps: those parked on a migrating page (R340, R346). -/
def Bay.walks (y : Bay) : Nat := (y.xreqs.filter (·.parked)).length

/-- The level of a leaf. -/
def leafLevel (e : Word) : Nat := if pteSize e = 3 then 1 else 0

/-- Translate an address for an access on a bay: TLB, else the walk, which checks the leaf, sets A and D by compare-exchange and fills
the TLB. The step is one, so the exchange never fails. `back`: the access is a write-back; one that a shootdown asks for passes M = 1 and
leaves nothing in the TLB (log 13). -/
def translateVa (s : State) (b ctx va : Nat) (n : Need) (back : Bool := false) : Xlat :=
  match s.ctx? b ctx with
  | none => .fault xMiss 2
  | some c =>
    let p := s.part c.part
    let y := s.bay b
    if !p.troot.getLsbD 0 then .fault xMiss 2
    else if 2 ^ 56 ≤ va then .fault xPerm 3
    else
      let served (e : Word) (go : Loc → Xlat) : Xlat :=
        if !leafAllows e n then .fault xPerm (leafLevel e)
        else
          match leafLoc c.part c e va with
          | none => .fault xPerm 3
          | some l => if n.served l then go l else .fault xPerm 3
      match tlbHit y c.part va n.write with
      | some t => served t.pte fun l => .ok l (s.setBay b (tlbTouch y t))
      | none =>
        if Config.walks ≤ y.walks then .busy
        else
          match findLeaf s p va with
          | .error (0x20, a) => .poison a
          | .error (c, l) => .fault c l
          | .ok (a, e) =>
            if !leafOk p e then .fault xPerm (leafLevel e)
            else served e fun l =>
              if pteM e && !(back && p.draining va) then .park
              else
                let want := e ||| (1#64 <<< 56) ||| (if n.write then 1#64 <<< 55 else 0)
                let s := if want = e then s else s.writeBytes a (leBytes 8 want.toNat) false
                .ok l (if pteM e then s else s.modBay b fun y => tlbInstall y c.part va want)

/-- Translate for a site: physical for PHYS (R193), else by the tables. -/
def translateFor (s : State) (b ctx va : Nat) (phys : Bool) (n : Need) (back : Bool := false) : Xlat :=
  if phys then
    match s.ctx? b ctx with
    | none => .fault xMiss 2
    | some c =>
      match locOf c.part c va with
      | none => .fault xPerm 3
      | some l =>
        let l : Loc := ⟨l.1, l.2.1, va, l.2.2, 0, 0, none⟩
        if n.served l then .ok l s else .fault xPerm 3
  else translateVa s b ctx va n back

/-! ## Bytes at their home -/

/-- The tweak of a sector: physical address bits 51:5 (R375). -/
def sectorTweak (a : Nat) : Nat := a / 32

/-- One sector as the program sees it. -/
def plainSector (s : State) (part a : Nat) : List Byte :=
  let n := (s.part part).epochNo
  xtsUnit true (Config.xtsKey1 n) (Config.xtsKey2 n) (sectorTweak a) (s.readBytes (a / 32 * 32) 32)

/-- Read bytes at their home. -/
def homeRead (s : State) (enc : Option Nat) (key n : Nat) : List Byte :=
  match enc with
  | none => s.readBytes key n
  | some part =>
    let lo := key / 32
    let hi := (key + n - 1) / 32
    ((((List.range (hi + 1 - lo)).flatMap fun k => plainSector s part (32 * (lo + k))).drop (key % 32)).take n)

/-- Write bytes of one sector, encrypted. -/
def writeSector (s : State) (part key : Nat) (bs : List Byte) : State :=
  let n := (s.part part).epochNo
  let a := key / 32 * 32
  let p := plainSector s part a
  let q := p.take (key - a) ++ bs ++ p.drop (key - a + bs.length)
  { s with mem := putBytes s.mem a (xtsUnit false (Config.xtsKey1 n) (Config.xtsKey2 n) (sectorTweak a) q) }

/-- Write bytes sector by sector; fuel is one more than the sectors. -/
def writeSectors : Nat → State → Nat → Nat → List Byte → State
  | 0, s, _, _, _ => s
  | k + 1, s, part, key, bs =>
    if bs.isEmpty then s
    else
      let n := 32 - key % 32
      writeSectors k (writeSector s part key (bs.take n)) part (key + n) (bs.drop n)

/-- Write bytes at their home; `poi` lists the bytes that carry poison (R380). -/
def homeWrite (s : State) (enc : Option Nat) (key : Nat) (bs : List Byte) (poi : List Bool) : State :=
  let marks := (List.range bs.length).filter fun i => poi.getD i false
  let t := s.writeBytes key bs false
  let t := match enc with
    | none => t
    | some part => writeSectors (bs.length / 32 + 2) { t with mem := s.mem } part key bs
  if key < Config.phys then
    { t with poison := marks.foldl (fun l i => insertNat (unitOf (key + i)) l) t.poison }
  else t

end Sys2Proof.Machine
end

