-- ==== Sys2Proof/Machine/Layout.lean ====
section
/-!
DEFINITION. Sys2Proof/Machine/Layout.lean: the fields of a site-table entry (R157 to R161), lines (R158, R163), patterns
(R167), guard registers (R178) and the checks of an access when its slot fires (R179).
-/
namespace Sys2Proof.Machine

open Sys2Proof

/-! ## Fields (R157) -/

def Site.wbase (x : Site) : Nat := bits x.q0 14 50 * 64
def Site.shp (x : Site) : Nat := bits x.q0 8 6
def Site.alias (x : Site) : Nat := bits x.q0 4 4
def Site.node (x : Site) : Nat := bits x.q0 1 3
def Site.phys (x : Site) : Bool := x.q0.getLsbD 0
def Site.wsize (x : Site) : Nat := bits x.q1 30 34 * 64
def Site.lineLen (x : Site) : Nat := (bits x.q1 24 6 + 1) * 64
def Site.shape (x : Site) : Nat := bits x.q1 22 2
def Site.fill (x : Site) : Nat := bits x.q1 19 3
def Site.mode (x : Site) : Nat := bits x.q1 17 2
def Site.src (x : Site) : Nat := bits x.q1 15 2
def Site.wb (x : Site) : Bool := x.q1.getLsbD 14
def Site.start (x : Site) : Bool := x.q1.getLsbD 13
def Site.life (x : Site) : Nat := bits x.q1 11 2
def Site.lfield (x : Site) : Nat := bits x.q1 8 3
def Site.dmin (x : Site) : Nat := bits x.q2 58 6 + 1
def Site.dmax (x : Site) : Nat := bits x.q2 52 6 + 1
/-- Pattern counts and strides; STEP0 is not a field. -/
def Site.cnt (x : Site) (d : Nat) : Nat := bits x.q2 (40 - 12 * d) 12 + 1
def Site.str (x : Site) (d : Nat) : Int := ((x.q3.extractLsb' (16 * d) 16).toInt) * 64
def Site.rowStep (x : Site) : Nat := bits x.q3 0 16 * 4
def Site.rows (x : Site) : Nat := if x.shape = 1 then x.shp + 1 else 1
def Site.rowLen (x : Site) : Nat := x.lineLen / x.rows

/-- The fills of R159 and modes of R160 by name. -/
def Site.isStream (x : Site) : Bool := x.fill == 1
def Site.isPreload (x : Site) : Bool := x.fill == 2
def Site.isZskip (x : Site) : Bool := x.fill == 3
def Site.isNofill (x : Site) : Bool := x.fill == 4
def Site.streamMode (x : Site) : Bool := x.mode == 0
def Site.ordered (x : Site) : Bool := x.mode == 2

/-! ## Lines (R163) -/

/-- The line of an address: its base; none when the byte lies in no line. -/
def Site.lineOf (x : Site) (a : Nat) : Option Nat :=
  let o := a - x.wbase
  if x.shape = 1 then
    let rs := x.rowStep
    let rl := x.rowLen
    if rs / rl * rl ≤ o % rs then none
    else some (x.wbase + o / rs / x.rows * x.rows * rs + o % rs / rl * rl)
  else some (x.wbase + o / x.lineLen * x.lineLen)

/-- The address of byte `i` of the line at `base`. -/
def Site.byteAt (x : Site) (base i : Nat) : Nat :=
  if x.shape = 1 then base + i / x.rowLen * x.rowStep + i % x.rowLen else base + i

/-- The place in the line at `base` of an address, if the line holds it. -/
def Site.offsetIn (x : Site) (base a : Nat) : Option Nat :=
  if a < base then none
  else if x.shape = 1 then
    let r := (a - base) / x.rowStep
    let o := (a - base) % x.rowStep
    if r < x.rows && o < x.rowLen then some (r * x.rowLen + o) else none
  else if a < base + x.lineLen then some (a - base) else none

/-- Cut a run of bytes into pieces that lie in one 64-byte granule each: address, place in the line, length (log 11). -/
def cutRun : Nat → Nat → Nat → Nat → List (Nat × Nat × Nat)
  | 0, _, _, _ => []
  | k + 1, a, o, n =>
    if n = 0 then []
    else
      let m := min n (64 - a % 64)
      (a, o, m) :: cutRun k (a + m) (o + m) (n - m)

/-- The pieces of the line at `base`. -/
def Site.pieces (x : Site) (base : Nat) : List (Nat × Nat × Nat) :=
  (List.range x.rows).flatMap fun r => cutRun 70 (base + r * x.rowStep) (r * x.rowLen) x.rowLen

/-- Lines of a pattern (R167). -/
def Site.patternLen (x : Site) : Nat := x.cnt 0 * x.cnt 1 * x.cnt 2 * x.cnt 3

/-- The base of line n of the pattern, taken modulo 2^64. -/
def Site.patternAt (x : Site) (n : Nat) : Nat :=
  let i0 := n % x.cnt 0
  let i1 := n / x.cnt 0 % x.cnt 1
  let i2 := n / (x.cnt 0 * x.cnt 1) % x.cnt 2
  let i3 := n / (x.cnt 0 * x.cnt 1 * x.cnt 2)
  let step0 : Int := if x.shape = 1 then x.rowLen else x.lineLen
  wrapTo 64 ((x.wbase : Int) + i0 * step0 + i1 * x.str 1 + i2 * x.str 2 + i3 * x.str 3)

/-- Does the line at `base` lie within the window? -/
def Site.lineInside (x : Site) (base : Nat) : Bool :=
  x.wbase ≤ base && x.byteAt base (x.lineLen - 1) < x.wbase + x.wsize

/-- The lines that begin in the window in ascending order (R163, R168): the last one, or the last band's, may reach beyond it. -/
def Site.windowLines (x : Site) : List Nat :=
  let up (n m : Nat) : Nat := (n + m - 1) / m
  if x.shape = 1 then
    let rs := x.rowStep
    (((List.range (up x.wsize (rs * x.rows))).flatMap fun k =>
      (List.range (rs / x.rowLen)).map fun j => x.wbase + k * x.rows * rs + j * x.rowLen)).filter (· < x.wbase + x.wsize)
  else (List.range (up x.wsize x.lineLen)).map fun k => x.wbase + k * x.lineLen

/-! ## Checks at the fire (R178, R179) -/

/-- The first guard register that a run of bytes hits (R178). -/
def guardHit (y : Bay) (ctx site : Nat) (x : Site) (a n : Nat) : Option Guard :=
  y.guards.find? fun g =>
    g.ctx == ctx && g.phys == x.phys && a < g.base + g.size && g.base < a + n &&
      !(g.site == site) && !(x.alias != 0 && g.cls == x.alias)

/-- Does any byte of a line hit a guard register? -/
def lineGuard (y : Bay) (ctx site : Nat) (x : Site) (base : Nat) : Option Guard :=
  ((List.range x.rows).findSome? fun r => guardHit y ctx site x (base + r * x.rowStep) x.rowLen)

/-- Lanes of a ZSKIP token: unit index and value, skipped lanes left out (R169, R170). -/
def zskipPairs (v : Vec) : List (Nat × Nat) :=
  let l := lanesOf 32 v
  ((List.range 16).map fun j => (l.getD (16 + j) 0, l.getD j 0)).filter fun p => p.1 != 0xFFFFFFFF

/-- The first unit of a ZSKIP token, by address, whose bytes hit a guard register (R178). -/
def zskipGuard (y : Bay) (ctx k : Nat) (x : Site) (v : Vec) : Option (Nat × Guard) :=
  (zskipPairs v).findSome? fun p =>
    let a := x.wbase + 4 * p.1
    if a + 4 ≤ x.wbase + x.wsize then (guardHit y ctx k x a 4).map fun g => (a, g) else none

/-- Site number as the program names it (R81). -/
def siteNo (c : CtxRt) (k : Nat) : Nat := k - c.siteBase

/-- The check of an access: the fault code and details of the first failure. -/
def accessCheck (y : Bay) (c : CtxRt) (ctx k : Nat) (x : Site) (a n : Nat) (vector store : Bool) :
    Option (Nat × (Word × Word × Word × Word)) :=
  let no := siteNo c k
  let d : Word × Word × Word × Word := (word a, word no, word n, 0)
  let last := a + n - 1
  if a < x.wbase || x.wbase + x.wsize ≤ last || (x.lineOf a).isNone || (x.lineOf last).isNone then some (0x12, d)
  else if a % (if vector then 32 else n) != 0 || x.lineOf a != x.lineOf last ||
      (x.shape == 1 && (a - x.wbase) / x.rowStep != (last - x.wbase) / x.rowStep) then some (0x14, d)
  else if store then
    match guardHit y ctx k x a n with
    | some g => some (0x13, (word a, word no, word n, word (siteNo c g.site)))
    | none => none
  else none

end Sys2Proof.Machine
end

