-- ==== Sys2Proof/Machine/Packets.lean ====
section
/-!
DEFINITION. Sys2Proof/Machine/Packets.lean: packet headers and bodies (R138, R139, R182, R183, R231, R268, R356), the
header checks (R139, R140), and how a packet is put into the rings or handed to its bay (R134, R135).
-/
namespace Sys2Proof

open Sys2Proof.Machine

/-! ## Headers (R138) -/

def Packet.kind (p : Packet) : Nat := bits p.hdr 252 4
def Packet.len (p : Packet) : Nat := bits p.hdr 249 3
def Packet.mark (p : Packet) : Bool := p.hdr.getLsbD 248
def Packet.echo (p : Packet) : Bool := p.hdr.getLsbD 247
def Packet.dl (p : Packet) : Bool := p.hdr.getLsbD 246
def Packet.nul (p : Packet) : Bool := p.hdr.getLsbD 245
def Packet.net (p : Packet) : Nat := bits p.hdr 243 2
def Packet.dst (p : Packet) : Nat := bits p.hdr 235 8
def Packet.src (p : Packet) : Nat := bits p.hdr 227 8
def Packet.ctx (p : Packet) : Nat := bits p.hdr 224 3
/-- A field of the body. -/
def Packet.body (p : Packet) (lo n : Nat) : Nat := bits p.hdr lo n

/-- A run of header bits replaced. -/
def flitPut (h : Flit) (lo n v : Nat) : Flit :=
  (h &&& ~~~(BitVec.ofNat 256 (2 ^ n - 1) <<< lo)) ||| (BitVec.ofNat 256 (v % 2 ^ n) <<< lo)

def Packet.setMark (p : Packet) : Packet := { p with hdr := flitPut p.hdr 248 1 1 }
def Packet.setDl (p : Packet) (b : Bool) : Packet := { p with hdr := flitPut p.hdr 246 1 b.toNat }

/-- The payload as bytes, 32 a flit. -/
def Packet.bytes (p : Packet) : List Byte := p.pay.flatMap fun f => leBytes 32 f.toNat

/-- Is it a request for R150: MREQ, GREAD, GWRITE? -/
def Packet.isReq (p : Packet) : Bool := p.kind == 1 || (p.kind == 3 && (p.body 220 4 == 0 || p.body 220 4 == 2))

def Packet.setRqid (p : Packet) (q : Nat) : Packet := { p with hdr := flitPut p.hdr 188 12 q }
def Packet.rqid (p : Packet) : Nat := p.body 188 12
def Packet.unit (p : Packet) : Nat := p.body 200 4

/-- Which of the first `n` bytes of a reply's payload are poisoned. -/
def Packet.badBytes (p : Packet) (n : Nat) : List Bool := (List.range n).map fun i => p.poi || p.marks.contains i

end Sys2Proof

namespace Sys2Proof.Machine

open Sys2Proof

/-- Bytes as payload flits. -/
def payFlits (bs : List Byte) : List Flit :=
  (List.range ((bs.length + 31) / 32)).map fun i => BitVec.ofNat 256 (leNat ((bs.drop (32 * i)).take 32))

/-- A packet: kind, destination, source, context, body, payload bytes. -/
def mkPacket (kind dst src ctx body : Nat) (bs : List Byte) (poi : Bool) : Packet :=
  let pay := payFlits bs
  { hdr := BitVec.ofNat 256 (kind * 2 ^ 252 + (1 + pay.length) * 2 ^ 249 + dst % 256 * 2 ^ 235 + src % 256 * 2 ^ 227 +
      ctx % 8 * 2 ^ 224 + body % 2 ^ 224)
    pay := pay, poi := poi, vc := 0, marks := [], xf := 0 }

/-- Place a field in a body. -/
def fieldAt (lo n v : Nat) : Nat := v % 2 ^ n * 2 ^ lo

/-- A TOKEN packet (R138). -/
def tokenPacket (src : Nat) (m : EntMsg) : Packet :=
  let net := valNet m.tok.val
  let body := fieldAt 221 3 m.gate + fieldAt 216 5 m.hnum + fieldAt 213 3 m.entry + fieldAt 64 64 m.tag.toNat +
    (if net = 1 then 0 else (valWord m.tok.val).toNat)
  let p := mkPacket 0 m.bay src m.ctx body (if net = 1 then vecBytes (valVec m.tok.val) else []) m.tok.poi
  { p with hdr := flitPut (flitPut p.hdr 245 1 m.tok.nul.toNat) 243 2 net }

/-- The token of a TOKEN packet; `chan` is the region position it came from, when it crossed bays. -/
def tokenOf (p : Packet) (chan : Option Nat) : EntMsg :=
  let v : Val := if p.net = 1 then .vec (bytesVec p.bytes) else if p.net = 2 then .ct (BitVec.ofNat 1 (p.body 0 1))
    else .sc (word (p.body 0 64))
  { bay := p.dst, gate := p.body 221 3, hnum := p.body 216 5, entry := p.body 213 3, ctx := p.ctx
    tag := word (p.body 64 64), tok := ⟨v, p.nul, p.poi⟩, chan := chan, src := ringSrc }

/-! ## Packets under way -/

/-- Every packet in a stop. -/
def Stop.packets (t : Stop) : List Packet := t.inCw ++ t.inCcw ++ t.inBr ++ t.turn ++ t.inject ++ t.units

/-- The packets that are under way in the networks. -/
def State.packets (s : State) : List Packet :=
  (s.bays.flatMap fun e => e.2.rowStop.packets ++ e.2.colStop.packets ++ e.2.boundary) ++
    s.flight.filterMap fun i => match i with | .packetArrive _ p _ => some p | _ => none

/-! ## Header checks (R139, R140) -/

/-- Zero fields and codes of each kind's body. An MREQ with a SCOPE or SIZEM1 that R182 does not have, and a control token with VALUE bits
63:1 not zero, are rejected with the rest (log 104). -/
def bodyOk (p : Packet) : Bool :=
  match p.kind with
  | 0 => p.body 128 85 == 0 && p.net != 3 && p.body 125 3 == p.ctx &&
      (if p.net = 1 then p.len == 5 && p.body 0 64 == 0 else p.len == 1 && (p.net != 2 || p.body 1 63 == 0))
  | 1 => p.body 220 4 < 5 && p.body 200 4 < 12 && p.body 128 5 == 0 && p.body 133 3 < 6 &&
      (if p.body 220 4 = 1 || p.body 220 4 = 4 then p.len == 1 + (p.body 204 8 + 1 + 31) / 32 else p.len == 1) &&
      p.body 204 8 < 128 && (p.body 220 4 == 2 || p.body 64 64 == 0) &&
      ((p.body 220 4 == 2 && p.body 216 4 == 0xD) || p.body 0 64 == 0)
  | 2 => p.body 220 4 < 3 && p.body 204 16 == 0 && p.body 128 60 == 0 && p.body 0 64 == 0
  | 3 =>
    let gop := p.body 220 4
    let part := gop == 1
    let w := p.body 210 1 == 1
    gop < 4 && p.body 68 4 < 3 && p.body 64 4 == 0 && (part || p.body 200 3 == 0) && (gop == 0 || gop == 2 || p.body 136 52 == 0) &&
      (((part || gop == 2) && !w) || p.body 0 64 == 0) && p.len == (if (part || gop == 2) && w then 5 else 1)
  | 4 => p.body 220 4 < 10 && p.body 192 8 == 0 && p.body 0 128 == 0 && p.len == 1
  | 5 => p.body 0 224 == 0 && (p.len == 3 || p.len == 5)
  | 6 =>
    let wop := p.body 220 4
    wop < 4 && p.body 128 80 == 0 && p.len == 1 && (2 ≤ wop || p.body 208 12 == 0) && (wop == 1 || wop == 3 || p.body 64 64 == 0) &&
      (wop == 1 || p.body 0 64 == 0)
  | _ => false

/-- Does a header name a packet (R139)? -/
def headerOk (p : Packet) : Bool :=
  p.kind < 7 && 1 ≤ p.len && p.len ≤ 5 && p.len == 1 + p.pay.length && p.dst < Config.bays && p.src < Config.bays &&
  (p.kind == 0 || (!p.nul && p.net == 0)) && bodyOk p

/-! ## Memory requests and replies (R182, R183) -/

/-- An MREQ body without its RQID. -/
def mreqBody (opc aop aty size unit pa scope : Nat) (opb cmp : Word) : Nat :=
  fieldAt 220 4 opc + fieldAt 216 4 aop + fieldAt 212 4 aty + fieldAt 204 8 (size - 1) + fieldAt 200 4 unit +
  fieldAt 136 52 pa + fieldAt 133 3 scope + fieldAt 64 64 opb.toNat + fieldAt 0 64 cmp.toNat

/-- The reply to a request: STAT, OLD, read data; ECHO copies MARK (R150). -/
def mrepOf (q : Packet) (stat : Nat) (old : Word) (bs : List Byte) (poi : Bool) : Packet :=
  let p := mkPacket 2 q.src q.dst q.ctx
    (fieldAt 220 4 stat + fieldAt 200 4 q.unit + fieldAt 188 12 q.rqid + fieldAt 64 64 old.toNat) bs poi
  { p with hdr := flitPut p.hdr 247 1 q.mark.toNat }

/-- The reply to a read: STAT POISON when some of the bytes are poisoned, and which (R183, R380). -/
def mrepRead (q : Packet) (bs : List Byte) (marks : List Nat) : Packet :=
  { mrepOf q (!marks.isEmpty).toNat 0 bs false with marks := marks }

/-- A WAVE packet (R356). -/
def wavePacket (wop dst src ctx wseq pos : Nat) (flags firesum sent : Nat) : Packet :=
  mkPacket 4 dst src ctx (fieldAt 220 4 wop + fieldAt 212 8 wseq + fieldAt 205 7 pos + fieldAt 200 5 flags +
    fieldAt 160 32 firesum + fieldAt 128 32 sent) [] false

/-- A WORK packet (R268). -/
def workPacket (wop dst src ctx sreg : Nat) (lo hi : Word) : Packet :=
  mkPacket 6 dst src ctx (fieldAt 220 4 wop + fieldAt 208 12 sreg + fieldAt 64 64 lo.toNat + fieldAt 0 64 hi.toNat)
    [] false

/-! ## Delivery and injection -/

/-- The position a packet's source has in the region of its context, as the destination bay knows it. -/
def State.posOf (s : State) (b ctx src : Nat) : Option Nat :=
  (s.ctx? b ctx).bind fun c => placeOf (· == src) (c.map.take c.npos) 0

/-- The happening a packet is at its destination bay. TRACE packets go to the trace writer's queue instead (R395). -/
def eventOf (s : State) (b : Nat) (p : Packet) : Option Instr :=
  match p.kind with
  | 0 => some (.gateEntryToken (tokenOf p (s.posOf b p.ctx p.src)))
  | 1 => some (.mreq b p)
  | 2 => some (.mrep b p)
  | 3 => some (match p.body 220 4 with
      | 0 => .gread b p
      | 1 => .gpart (.requester b) p
      | 2 => .gwrite b p
      | _ => .gack b p)
  | 4 => match p.body 220 4 with
      | 0 => some (.query b p)
      | 1 => some (.qreply b p)
      | 2 => some (.cfg b p)
      | 3 => some (.cfgack b p)
      | 4 => some (.turn b p)
      | 5 => some (.marker b p)
      | 6 => some (.saved b p)
      | 7 => some (.cancel b p)
      | 8 => some (.lsave b p)
      | _ => some (.lsaved b p)
  | 6 => match p.body 220 4 with
      | 0 => some (.steal b p)
      | 1 => some (.grant b p)
      | 2 => some (.probeRequest b p)
      | _ => some (.preply b p)
  | _ => none

/-- The words of a trace record from its packet. -/
def traceWords (p : Packet) : TraceRec :=
  let bs := p.bytes
  (List.range (bs.length / 8)).map fun i => word (leNat ((bs.drop (8 * i)).take 8))

/-- The trace buffer of a context of a partition. -/
def Part.tbuf (p : Part) (ctx : Nat) : TraceBuf := AMap.getD p.trace ctx ⟨0, 0, 0, 0, 0, [], [], [], none, 0, 0, 0⟩
def TraceBuf.isOpen (t : TraceBuf) : Bool := t.ctl.getLsbD 63
def Part.setTbuf (p : Part) (ctx : Nat) (t : TraceBuf) : Part := { p with trace := AMap.set p.trace ctx t }

/-- Records of a source bay that the writer owes it a LOST record for: more lost at the full queue, or at the full buffer (R395). -/
def TraceBuf.oweQ (t : TraceBuf) (src k : Nat) : TraceBuf := { t with owedQ := AMap.set t.owedQ src (AMap.getD t.owedQ src 0 + k) }
def TraceBuf.owe (t : TraceBuf) (src k : Nat) : TraceBuf := { t with owed := AMap.set t.owed src (AMap.getD t.owed src 0 + k) }

/-- A trace record is lost (R395): it counts in TBLOST, and TRACE_LOST is logged at most once every 2^24 cycles of the origin
bay that told of the last. `f` notes what the writer owes. -/
def State.loseTrace (s : State) (n ctx o : Nat) (f : TraceBuf → TraceBuf) : State :=
  let now := (s.bay o).clk
  s.modPart n fun p =>
    let t := f (p.tbuf ctx)
    let t := { t with lost := (t.lost + 1) % 2 ^ 32 }
    if t.since = 0 ∨ t.since + 2 ^ 24 ≤ (s.bay t.sinceBay).clk + 1 then
      (p.setTbuf ctx { t with since := now + 1, sinceBay := o, logged := t.lost }).event { RecBody.blank 0x83 0 with
        bay := some o, ctx := ctx, cyc := now, d0 := word (t.lost - t.logged), d1 := word (8 * n + ctx) }
    else p.setTbuf ctx t

/-- A record's words: W0 to W3 (R393), then what the kind says, as 8 or 16 words. -/
def traceRecord (seq kind : Nat) (cyc w2 tag : Word) (body : List Word) : TraceRec :=
  let n := if body.length ≤ 4 then 8 else 16
  let w0 := word (seq % 0x10000 * 2 ^ 48 + n / 8 * 2 ^ 40 + kind * 2 ^ 32 + 0xC3A55A3C)
  let l := [w0, cyc, w2, tag] ++ body
  l ++ List.replicate (n - l.length) 0

/-- The LOST record the writer puts before a source's next record: it takes the SEQ of the record lost last (log 75). -/
def owedRecord (r : TraceRec) (k : Nat) : TraceRec :=
  let w2 := r.getD 2 0
  traceRecord (bits (r.getD 0 0) 48 16 + 0xFFFF) 7 (r.getD 1 0) (putBits w2 11 28 0) 0 [word k]

/-- A source's record with the LOST record for the k before it that were lost. -/
def withLost (r : TraceRec) (k : Nat) : List TraceRec := if k = 0 then [r] else [owedRecord r k, r]

/-- Hand a packet to its bay: a trace record joins the writer's queue of 256, behind the LOST record it owes, or is lost there; one that
comes after its session is dropped (R395). -/
def State.handOver (s : State) (b : Nat) (p : Packet) : State :=
  match eventOf s b p with
  | some i => s.send i
  | none =>
    let n := s.partOf b p.ctx
    let t := (s.part n).tbuf p.ctx
    let rs := withLost (traceWords p) (AMap.getD t.owedQ p.src 0)
    if !t.isOpen then s
    else if 256 < t.queue.length + rs.length then s.loseTrace n p.ctx b (·.oweQ p.src 1)
    else s.modPart n fun q => q.setTbuf p.ctx { t with queue := t.queue ++ rs, owedQ := AMap.erase t.owedQ p.src }

/-- Flits in a local queue. -/
def queueFlits (l : List Packet) : Nat := l.foldl (fun n p => n + p.len) 0

/-- Fill a queue of 10 flits with the packets that wait for it, in order (R141). -/
def fillQueue : List Packet → List Packet → List Packet × List Packet
  | q, [] => (q, [])
  | q, p :: ps => if queueFlits q + p.len ≤ 10 then fillQueue (q ++ [p]) ps else (q, p :: ps)

/-- The injection queue takes what the bay's units hold, as far as its 10 flits go (R141). -/
def Stop.refill (t : Stop) : Stop :=
  let q := fillQueue t.inject t.units
  { t with inject := q.1, units := q.2 }

/-- A packet given to a stop by the bay's units, or by its trace source. -/
def Stop.take (t : Stop) (p : Packet) : Stop :=
  if p.kind = 5 then { t with trace := t.trace ++ [p] } else { t with units := t.units ++ [p] }.refill

/-- Is a packet at a bay a control token whose next hop is the bridge: one for the boundary element (R149)? -/
def forBoundary (b : Nat) (p : Packet) : Bool :=
  p.kind == 0 && p.net == 2 && bayCol b == bayCol p.dst && dieOf b != dieOf p.dst && bayRow b % 10 == 9

/-- Put a packet into a bay's stop for its way (R135), or hand it over when it stays on the bay. -/
def State.emit (s : State) (p : Packet) : State :=
  let b := p.src
  if p.dst = b then s.handOver b p
  else s.modBay b fun y =>
    if forBoundary b p && y.colStop.inject.isEmpty then { y with boundary := y.boundary ++ [p] }
    else if bayCol b = bayCol p.dst then { y with colStop := y.colStop.take p }
    else { y with rowStop := y.rowStop.take p }

/-- Send a memory request or reply: over the rings between bays, over the memory fabric to and from LPDDR and host
windows (R182). Homes 160 and 161 are the memory fabric's, 161 for encrypted sectors (R375). -/
def State.sendReq (s : State) (home : Nat) (p : Packet) : State :=
  if Config.bays ≤ home then s.send (.mreq home p) else s.emit p
def State.sendRep (s : State) (home : Nat) (p : Packet) : State :=
  if Config.bays ≤ home then s.send (.mrep p.dst p) else s.emit p

end Sys2Proof.Machine
end

