-- ==== Sys2Proof/Machine/Sites.lean ====
section
/-!
DEFINITION. Sys2Proof/Machine/Sites.lean: site buffers and their engines (R164 to R177), release and acquire actions
(R181), lives (R176), requests and their windows (R151, R182).
-/
namespace Sys2Proof.Machine

open Sys2Proof

/-! ## Buffers -/

/-- An EMPTY buffer. -/
def emptyBuf : SiteBuf :=
  { st := .empty, line := 0, data := [], valid := [], dirty := [], filled := false, poi := [], overlay := [], drop := false
    only := none, left := 0, since := 0, order := 0, used := 0, place := 0, units := 0, merged := false }

/-- Buffers in use (R174). -/
def Site.inUse (x : Site) : Nat := (x.bufs.filter fun u => u.st != .empty).length

/-- The buffer that holds or awaits a line. -/
def Site.bufOf (x : Site) (base : Nat) : Option Nat := placeOf (fun u : SiteBuf => u.st != .empty && u.line == base) x.bufs 0

/-- Does a FULL or DIRTY buffer hold these bytes? -/
def SiteBuf.has (u : SiteBuf) (o n : Nat) : Bool :=
  (u.st == .full || u.st == .dirty) && (u.filled || (List.range n).all fun i => u.valid.getD (o + i) false)

/-- Does it serve an access with them? Bytes of a fill from before an acquire serve only what waited for it then (R206; log 12). -/
def SiteBuf.serves (u : SiteBuf) (w : Waiter) (o n : Nat) : Bool :=
  ({ u with filled := u.filled && u.only.all (·.contains w) } : SiteBuf).has o n

/-- A buffer whose contents are dropped: with a fill outstanding it is emptied when the data has arrived (R164, R190). -/
def emptied (u : SiteBuf) : SiteBuf := if u.left = 0 then emptyBuf else { u with st := .filling, drop := true }

/-- A buffer taken for a line: FILLING or written, by `st`. -/
def newBuf (st : BufSt) (base len stamp clk left : Nat) : SiteBuf :=
  { emptyBuf with
    st := st, line := base, data := List.replicate len 0, valid := List.replicate len false
    dirty := List.replicate len false, poi := List.replicate len false, left := left, since := clk, order := stamp
    used := stamp }

/-- Change one buffer. -/
def modBuf (s : State) (b k i : Nat) (f : SiteBuf → SiteBuf) : State :=
  s.modSite b k fun x => { x with bufs := setAt x.bufs i (f (x.bufs.getD i emptyBuf)) }

/-- Mark a buffer used: recency (R165). -/
def touchBuf (s : State) (b k i : Nat) : State :=
  s.modSite b k fun x =>
    { x with bufs := setAt x.bufs i { x.bufs.getD i emptyBuf with used := x.seq }, seq := x.seq + 1 }

/-- The buffer a miss takes: an EMPTY one, else the first FULL by recency, else the first DIRTY so (R165); in MODE STREAM the first
by the order in which their fills were issued, FULL before DIRTY as R165 has it (R166; log 88). No fill beyond DEP buffers (R174): with
more in use than a lowered DEP allows, no buffer is replaced either, and a miss waits (log 88). -/
def pickBuf (x : Site) : Option Nat :=
  let key (u : SiteBuf) : Nat := if x.streamMode then u.order else u.used
  let least (st : BufSt) : Option Nat :=
    let us := x.bufs.filter fun u => u.st == st && u.left == 0
    match us.map key with
    | [] => none
    | a :: l => placeOf (fun u : SiteBuf => u.st == st && u.left == 0 && key u == l.foldl min a) x.bufs 0
  let cap := if x.isPreload then x.dmax else x.dep
  if x.inUse < cap then placeOf (fun u : SiteBuf => u.st == .empty) x.bufs 0
  else if cap < x.inUse || x.isPreload then none
  else (least .full).orElse fun _ => least .dirty

/-! ## Writes at home -/

/-- Note the 64 KiB granules a write reaches, for the context, at the home bay (R361). -/
def noteDirty (s : State) (ctx : Nat) (l : Loc) (n : Nat) : State :=
  if l.mem = 0 then
    let o := l.key - loftKey l.home 0
    s.modCtx l.home ctx fun c => { c with dirty := insertNat ((o + n - 1) / 0x10000) (insertNat (o / 0x10000) c.dirty) }
  else s

/-- The runs of set bits of a mask from place `o` on, `n` places: place and length. -/
def runsOf (mask : List Bool) (o n : Nat) : List (Nat × Nat) :=
  (List.range n).foldr (fun i acc =>
    if mask.getD (o + i) false then
      match acc with
      | (p, m) :: l => if p = o + i + 1 then (o + i, m + 1) :: l else (o + i, 1) :: (p, m) :: l
      | [] => [(o + i, 1)]
    else acc) []

/-- The tag of the oldest access that waits in a site (R175). -/
def waiterTag (s : State) (b : Nat) (x : Site) : Word :=
  match x.waiters with
  | [] => 0
  | w :: _ => ((s.inst? b w.gate w.ix).map (·.tag)).getD 0

/-- Stop an engine of a site with a fault record (R175). -/
def engineFault (s : State) (b k : Nat) (back : Bool) (code : Nat) (d : Word × Word × Word × Word) (full : Bool := false) : State :=
  match s.site? b k with
  | none => s
  | some x =>
    s.stopEngine b k x.ctx back { s.recOf b x.ctx code 3 with
      tag := waiterTag s b x, d0 := d.1, d1 := d.2.1, d2 := d.2.2.1, d3 := d.2.2.2 } full

/-! ## Requests (R151, R182) -/

/-- The window of a request: its site's fill engine, or its unit. -/
def Req.winKey (r : Req) : Nat :=
  match r.goal with
  | .fill k _ _ _ => k
  | _ => 256 + r.unit

/-- Does a request write? -/
def Req.writes (r : Req) : Bool := r.pkt.body 220 4 == 1 || r.pkt.body 220 4 == 4

/-- Requests out under a window. -/
def outUnder (y : Bay) (key : Nat) : Nat := (y.reqs.filter fun r => r.sent && r.winKey == key).length

/-- The first RQID from `q` on that no outstanding request of the unit has. -/
def freeRqid (y : Bay) (unit : Nat) : Nat → Nat → Nat
  | 0, q => q % 4096
  | n + 1, q => if y.reqs.any fun r => r.sent && r.unit == unit && r.rqid == q % 4096 then freeRqid y unit n (q + 1) else q % 4096

/-- Do two requests of a bay reach one granule, and one of them writes it? An ldo holds nothing back: it waits for the very sto (R188). -/
def Req.crosses (r q : Req) : Bool :=
  let lo (r : Req) : Nat := r.pkt.body 136 52 / 64
  let hi (r : Req) : Nat := (r.pkt.body 136 52 + r.pkt.body 204 8) / 64
  let ldo (r : Req) : Bool := r.pkt.body 220 4 == 3
  (r.writes || q.writes) && !ldo r && !ldo q && r.home == q.home && lo r ≤ hi q && lo q ≤ hi r

/-- Send one request if its window has room: it takes the next number (R151). A bay's own writes of a granule stay in order, and in order
with its reads of it (R201; log 89). -/
def sendOne (s : State) (b i : Nat) : State :=
  let y := s.bay b
  match y.reqs[i]? with
  | none => s
  | some r =>
    let w := AMap.getD y.wins r.winKey Win.reset
    if r.sent || w.win ≤ outUnder y r.winKey || (y.reqs.take i).any r.crosses then s
    else
      let q := freeRqid y r.unit 64 (AMap.getD y.wins (256 + r.unit) Win.reset).next
      let r := { r with sent := true, rqid := q, pkt := r.pkt.setRqid q }
      let s := s.modBay b fun y =>
        let wu := AMap.getD y.wins (256 + r.unit) Win.reset
        { y with reqs := setAt y.reqs i r, wins := AMap.set y.wins (256 + r.unit) { wu with next := (q + 1) % 4096 } }
      s.sendReq r.home r.pkt

/-- Send what the windows let out, in order (R152). -/
def pumpReqs (s : State) (b : Nat) : State := (List.range (s.bay b).reqs.length).foldl (fun s i => sendOne s b i) s

/-- Queue a request and send what may go. -/
def issueReq (s : State) (b : Nat) (r : Req) : State :=
  pumpReqs (s.modBay b fun y => { y with reqs := y.reqs ++ [r] }) b

/-- The window after a reply (R151). -/
def winReply (w : Win) (q next : Nat) (echo : Bool) : Win :=
  if echo then
    if (q + 4096 - w.hmark) % 4096 < 2048 then { w with win := max (w.win / 2) 1, run := 0, hmark := next } else w
  else if w.run + 1 = w.win then { w with win := min (w.win + 1) 64, run := 0 }
  else { w with run := w.run + 1 }

/-- Close an answered request: its window, and the requests that may go now. -/
def closeReq (s : State) (b : Nat) (r : Req) (echo : Bool) : State :=
  let s := s.modBay b fun y =>
    let next := (AMap.getD y.wins (256 + r.unit) Win.reset).next
    let w := AMap.getD y.wins r.winKey Win.reset
    { y with
      reqs := y.reqs.filter fun q => !(q.sent && q.ctx == r.ctx && q.unit == r.unit && q.rqid == r.rqid)
      wins := AMap.set y.wins r.winKey (winReply w r.rqid next echo) }
  pumpReqs s b

/-- Is this request the one a packet names: context, unit and number? -/
def Req.isOf (r : Req) (p : Packet) : Bool := r.sent && r.ctx == p.ctx && r.unit == p.unit && r.rqid == p.rqid

/-- The request a reply answers. -/
def reqOf (y : Bay) (p : Packet) : Option Req := y.reqs.find? fun r => r.isOf p

/-- Home of a location: 161 when its sectors are encrypted. -/
def Loc.homeNo (l : Loc) : Nat := if l.enc.isSome then Config.bays + 1 else l.home

/-- The request packet to a location. -/
def reqPacket (b ctx : Nat) (l : Loc) (opc aop aty size unit scope : Nat) (opb cmp : Word) (bs : List Byte := []) : Packet :=
  mkPacket 1 (if l.home < Config.bays then l.home else b) b ctx (mreqBody opc aop aty size unit l.pa scope opb cmp) bs false

/-- Ask the translation node (R340). -/
def askXlat (s : State) (b ctx va : Nat) (write : Bool) (goal : XFor) : State :=
  s.modBay b fun y => { y with xreqs := y.xreqs ++ [⟨y.xnext, ctx, va, write, goal, false, false⟩], xnext := y.xnext + 1 }

/-! ## Writes (R175, R183, R187) -/

/-- The sectors of LPDDR that a write of bytes from `key` on would enter in a poison directory (R380). -/
def newSectors (s : State) (key : Nat) (poi : List Bool) : List Nat :=
  (((List.range poi.length).filter fun i => poi.getD i false).map fun i => unitOf (key + i)).eraseDups.filter fun u =>
    inLpddr u && !s.poison.contains u

/-- The sectors that writes under way will enter. -/
def sectorsOnWay (s : State) : List Nat :=
  s.bays.flatMap fun e => (e.2.reqs.filter fun r => r.pkt.body 220 4 == 1 && !r.pkt.marks.isEmpty).flatMap fun r =>
    newSectors s (r.pkt.body 136 52) ((List.range (r.pkt.body 204 8 + 1)).map fun i => r.pkt.marks.contains i)

/-- The first sector of a poisoned write that finds its channel's directory full (R380). -/
def dirBlocks (s : State) (key : Nat) (poi : List Bool) : Option Nat :=
  let us := newSectors s key poi
  let out := sectorsOnWay s
  (us.zipIdx.find? fun e =>
    let ch := channelOf e.1
    Config.poisonDir ≤ s.dirUsed ch + ((out ++ us.take e.2).eraseDups.filter fun u => u != e.1 && channelOf u == ch).length).map (·.1)

/-- What an attempt to write comes to: its request is on its way; a fault of its translation, with the walk's level;
a poisoned table entry; a sector for which the poison directory has no room (R380); it waits. -/
inductive Wr where
  | done (s : State)
  | fault (code level : Nat)
  | bad (addr : Nat)
  | full (sector : Nat)
  | wait (s : State)

/-- A write waits for a migration (R346): it parks in its translation node. -/
def parkWrite (s : State) (b ctx va : Nat) (g : XFor) : State :=
  s.modBay b fun y => { y with xreqs := y.xreqs ++ [⟨y.xnext, ctx, va, true, g, true, false⟩], xnext := y.xnext + 1 }

/-- Is a write parked, other than for a shootdown that asks for it (log 13)? -/
def writeParked (s : State) (b ctx va : Nat) (g : XFor) (back : Bool) : Bool :=
  (s.bay b).xreqs.any (fun q => q.parked && q.goal == g) && !(back && ((s.ctx? b ctx).any fun c => (s.part c.part).draining va))

/-- Write bytes of one granule at their home by a request (R172, R182); the packet carries which of the bytes are poisoned. `back` is a
write-back. -/
def writeRun (s : State) (b ctx unit va scope : Nat) (phys : Bool) (n : Need) (bs : List Byte) (poi : List Bool) (goal : ReqFor) (g : XFor)
    (back : Bool := false) : Wr :=
  if writeParked s b ctx va g back then .wait s
  else
    match translateFor s b ctx va phys n back with
    | .park => .wait (parkWrite s b ctx va g)
    | .busy => .wait s
    | .fault c l => .fault c l
    | .poison a => .bad a
    | .ok l s =>
      match dirBlocks s l.key poi with
      | some u => .full u
      | none =>
        .done (issueReq s b
          { unit := unit, rqid := 0, home := l.homeNo
            pkt := { reqPacket b ctx l 1 0 0 bs.length unit scope 0 0 bs with marks := (List.range bs.length).filter fun i => poi.getD i false }
            sent := false, goal := goal, since := (s.bay b).clk, ctx := ctx, deferred := false, dead := false
            va := if phys then none else some va })

/-- The details of a site's write that ends so: code, D0 to D3 (R175, R350), whether the poison directory is full. -/
def Wr.details (va : Nat) (no : Nat) : Wr → Option (Nat × (Word × Word × Word × Word) × Bool)
  | .fault c l => some (c, (word va, word no, word l, 0), false)
  | .bad a => some (0x20, lpddrLoc a, false)
  | .full a => some (0x20, lpddrLoc a, true)
  | .done _ | .wait _ => none

/-- What a site's write asks of its page: writable, of kind NORMAL, of the site's memory (R161, R187). -/
def writeNeed (x : Site) : Need := { needW with mem := some x.src }

/-- Clear a run of a mask. -/
def clearRun (mask : List Bool) (o n : Nat) : List Bool := (List.range mask.length).map fun i => mask.getD i false && !(o ≤ i && i < o + n)

/-- Requests of a buffer's writes outstanding. -/
def backsOut (y : Bay) (k i : Nat) : Nat := (y.reqs.filter fun r => r.goal == .back k i).length

/-- Write back dirty runs of a buffer (R164, R171); false when the engine is stopped or must wait. Runs already issued stay so. -/
def writeRuns (b k i scope : Nat) : List (Nat × Nat × Nat) → State → Bool × State
  | [], s => (true, s)
  | (va, o, n) :: rs, s =>
    match s.site? b k with
    | none => (true, s)
    | some x =>
      let u := x.bufs.getD i emptyBuf
      let no := k - ((s.ctx? b x.ctx).map (·.siteBase)).getD 0
      let r := writeRun s b x.ctx x.node va scope x.phys (writeNeed x) ((u.data.drop o).take n) ((u.poi.drop o).take n) (.back k i)
        (.back k i) true
      match r with
      | .wait s => (false, s)
      | .done s => writeRuns b k i scope rs (modBuf s b k i fun u => { u with dirty := clearRun u.dirty o n })
      | r => (false, ((r.details va no).map fun d => engineFault s b k true d.1 d.2.1 d.2.2).getD s)

/-- The runs of a mask over a line's places, by address, place and length. -/
def Site.runsIn (x : Site) (line : Nat) (mask : List Bool) : List (Nat × Nat × Nat) :=
  (x.pieces line).flatMap fun p => (runsOf mask p.2.1 p.2.2).map fun r => (p.1 + (r.1 - p.2.1), r.1, r.2)

/-- A buffer all of whose bytes are performed is FULL, or FILLING while a fill is outstanding (R164). -/
def settledBack (out : Nat) (u : SiteBuf) : SiteBuf :=
  if u.st == .dirty && out == 0 && !u.dirty.any id then { u with st := if u.left = 0 then .full else .filling } else u

/-- Settle a buffer whose writes are acknowledged (R183). -/
def backDone (s : State) (b k i : Nat) : State := modBuf s b k i (settledBack (backsOut (s.bay b) k i))

/-- Write back one DIRTY buffer; true once all of it is performed. -/
def writeBack (s : State) (b k i : Nat) (scope : Nat := 1) : Bool × State :=
  match s.site? b k with
  | none => (true, s)
  | some x =>
    let u := x.bufs.getD i emptyBuf
    if u.st != .dirty then (true, s)
    else if s.stopStands (s.partOf b x.ctx) x.stopBack then (false, s)
    else
      let q := writeRuns b k i scope (x.runsIn u.line u.dirty) (s.modSite b k fun x => { x with stopBack := none })
      let s := backDone q.2 b k i
      (q.1 && !((s.site? b k).any fun x => (x.bufs.getD i emptyBuf).st == .dirty), s)

/-- Write back every DIRTY buffer of a site that passes; all are tried. -/
def writeBackSite (s : State) (b k : Nat) (p : Site → SiteBuf → Bool) (scope : Nat := 1) : Bool × State :=
  match s.site? b k with
  | none => (true, s)
  | some x =>
    (List.range x.bufs.length).foldl (fun (r : Bool × State) i =>
      if (x.bufs.getD i emptyBuf).st == .dirty && p x (x.bufs.getD i emptyBuf) then
        let q := writeBack r.2 b k i scope
        (r.1 && q.1, q.2)
      else r) (true, s)

/-- Sites of a context on a bay. -/
def sitesOf (s : State) (b ctx : Nat) : List Nat := ((s.bay b).sites.filter (·.2.ctx == ctx)).map (·.1)

/-- Release actions at a scope (R181): every DIRTY buffer of every WB = 1 store site of the context on the bay is written back. True when
all are performed. -/
def releaseActions (s : State) (b ctx scope : Nat) : Bool × State :=
  (sitesOf s b ctx).foldl (fun r k =>
    let q := writeBackSite r.2 b k (fun x _ => x.isStore && x.wb) scope
    (r.1 && q.1, q.2)) (true, s)

/-- An acquire on one site's buffers: FULL ones EMPTY, DIRTY ones keep the written bytes; a fill under way serves only
what already waits for it (log 12). -/
def acquireBuf (ws : List Waiter) (u : SiteBuf) : SiteBuf :=
  match u.st with
  | .full => if u.left = 0 then emptyBuf else { emptied u with only := some (u.only.getD ws) }
  | .dirty => if u.left = 0 then { u with filled := false } else { u with filled := false, drop := true, only := some (u.only.getD ws) }
  | .filling => { u with drop := true, only := some (u.only.getD ws) }
  | .empty => u

/-- Acquire actions (R181): RANDOM sites of the context, PRELOAD aside, at scopes from bay on. -/
def acquireActions (s : State) (b ctx scope : Nat) : State :=
  if scope = 0 then s
  else
    (sitesOf s b ctx).foldl (fun s k =>
      s.modSite b k fun x => if x.mode == 1 && !x.isPreload then { x with bufs := x.bufs.map (acquireBuf x.waiters) } else x) s

/-! ## Fills under way -/

/-- The translations of a site's fills are held with the stopped engine, or asked for again (R175). -/
def holdFills (s : State) (b k : Nat) (p : Nat → Bool) (v : Bool) : State :=
  s.modBay b fun y => { y with xreqs := y.xreqs.map fun q =>
    match q.goal with
    | .fill k' i => if k' = k ∧ p i then { q with held := v } else q
    | _ => q }

/-- A fill meets a fault: the engine stops, and the fill waits with it (R175). -/
def fillFault (s : State) (b k i : Nat) (code : Nat) (d : Word × Word × Word × Word) : State :=
  holdFills (engineFault s b k false code d) b k (· == i) true

/-! ## Fills (R164, R165, R177) -/

/-- Sibling sites of a class (R177). -/
def siblings (s : State) (b k : Nat) (x : Site) : List (Nat × Site) :=
  if x.alias = 0 then []
  else (s.bay b).sites.filter fun e => e.1 != k && e.2.ctx == x.ctx && e.2.alias == x.alias && e.2.node == x.node

/-- Two sites cut their windows into like lines. -/
def sameLines (x y : Site) : Bool :=
  x.lineLen == y.lineLen && x.rows == y.rows && (x.rows == 1 || x.rowStep == y.rowStep)

/-- A sibling's whole copy of a line (R165). -/
def siblingCopy (s : State) (b k : Nat) (x : Site) (base : Nat) : Option SiteBuf :=
  (siblings s b k x).findSome? fun e =>
    if sameLines x e.2 then (e.2.bufOf base).bind fun i =>
      let u := e.2.bufs.getD i emptyBuf
      if u.has 0 x.lineLen && !u.drop then some u else none
    else none

/-- Is a sibling's fill of the line under way (R165)? -/
def siblingFilling (s : State) (b k : Nat) (x : Site) (base : Nat) : Bool :=
  (siblings s b k x).any fun e => sameLines x e.2 && ((e.2.bufOf base).any fun i =>
    let u := e.2.bufs.getD i emptyBuf
    u.left != 0 && !u.merged && !u.drop)

/-- Written bytes that siblings hold of a line, as overlay (R177). -/
def siblingBytes (s : State) (b k : Nat) (x : Site) (base : Nat) : List (Nat × Byte × Bool) :=
  (siblings s b k x).flatMap fun e => e.2.bufs.flatMap fun u =>
    if u.st == .full || u.st == .dirty then
      (List.range u.valid.length).filterMap fun i =>
        if u.valid.getD i false then
          (x.offsetIn base (e.2.byteAt u.line i)).map fun o => (o, u.data.getD i 0, u.poi.getD i false)
        else none
    else []

/-- The data of a fill placed in a buffer: bytes a commit wrote stay. -/
def placeData (u : SiteBuf) (o : Nat) (bs : List Byte) (poi : List Bool) : SiteBuf :=
  let inside (i : Nat) : Bool := o ≤ i && i < o + bs.length && !u.valid.getD i false
  { u with
    data := (List.range u.data.length).map fun i => if inside i then bs.getD (i - o) 0 else u.data.getD i 0
    poi := (List.range u.data.length).map fun i => if inside i then poi.getD (i - o) false else u.poi.getD i false }

/-- Does a run of places hold a place's whole 8-byte unit? -/
def wholeUnit (hit : Nat → Bool) (i : Nat) : Bool := (List.range 8).all fun j => hit (i / 8 * 8 + j)

/-- Record a sibling's bytes against a fill (R177): of a place the last is kept; a part of a unit leaves the mark of what it is put over
(R380). -/
def recordHits (l : List (Nat × Byte × Bool)) (hits : List (Nat × Byte × Bool)) : List (Nat × Byte × Bool) :=
  let hit (i : Nat) : Bool := hits.any (·.1 == i)
  (l.filter fun e => !hit e.1) ++ hits.map fun h => (h.1, h.2.1, h.2.2 || (!wholeUnit hit h.1 && l.any fun e => e.1 == h.1 && e.2.2))

/-- The overlay put over a fill's data (R164, R177): a sibling's bytes that came after the buffer's own written ones replace them too. -/
def placeOverlay (u : SiteBuf) : SiteBuf :=
  let at_ (i : Nat) : Option (Byte × Bool) := ((u.overlay.filter fun e => e.1 == i).getLast?.map (·.2))
  { u with
    data := (List.range u.data.length).map fun i => ((at_ i).map (·.1)).getD (u.data.getD i 0)
    poi := (List.range u.data.length).map fun i =>
      (u.poi.getD i false && !wholeUnit (fun j => (at_ j).isSome) i) || (at_ i).any (·.2)
    overlay := [] }

/-- A fill is whole: the buffer is FULL, or stays DIRTY with all its bytes. -/
def fillWhole (u : SiteBuf) : SiteBuf :=
  let u := placeOverlay u
  { u with st := if u.st = .filling then .full else u.st, filled := true, left := 0, merged := false }

/-- Count a latency; the 64th ends a batch, whose mean is formed (R174). -/
def Site.count (x : Site) (d : Nat) : Site :=
  if x.latCnt + 1 < 64 then { x with latCnt := x.latCnt + 1, latSum := x.latSum + d }
  else { x with latCnt := 0, latSum := 0, means := x.means ++ [(x.latSum + d) / (x.latCnt + 1)] }

/-- Count a fill's latency for DEP (R174). -/
def countFill (s : State) (b k : Nat) (since : Nat) : State := s.modSite b k fun x => x.count ((s.bay b).clk - since)

/-- End the fill of a buffer, and of siblings' buffers merged with it (R165). -/
def endFill (s : State) (b k i : Nat) : State :=
  match s.site? b k with
  | none => s
  | some x =>
    let u := fillWhole (x.bufs.getD i emptyBuf)
    let s := countFill (modBuf s b k i fun _ => u) b k u.since
    (siblings s b k x).foldl (fun s e =>
      if sameLines x e.2 then
        match e.2.bufOf u.line with
        | none => s
        | some j =>
          let v := e.2.bufs.getD j emptyBuf
          if v.merged then
            countFill (modBuf s b e.1 j fun v =>
              fillWhole { placeData v 0 u.data [] with
                poi := (List.range v.poi.length).map fun n => if v.valid.getD n false then v.poi.getD n false else u.poi.getD n false })
              b e.1 v.since
          else s
      else s) s

/-- Start the fill of a line in a buffer that is already set to await it (R165, R175, R178): a guard register hit stops
the engine; a sibling's copy, or its fill under way, serves it; a site fed by a streamer waits for its tile (R249); else
the line is translated. -/
def startFill (s : State) (b k i base : Nat) : State :=
  match s.site? b k with
  | none => s
  | some x =>
    let no := k - ((s.ctx? b x.ctx).map (·.siteBase)).getD 0
    match lineGuard (s.bay b) x.ctx k x base with
    | some g =>
      fillFault (askXlat s b x.ctx base false (.fill k i)) b k i 0x13
        (word base, word no, word x.lineLen, word (g.site - ((s.ctx? b x.ctx).map (·.siteBase)).getD 0))
    | none =>
      match siblingCopy s b k x base with
      | some v =>
        endFill (modBuf s b k i fun u =>
          { placeData u 0 v.data [] with
            poi := (List.range u.poi.length).map fun n => if u.valid.getD n false then u.poi.getD n false else v.poi.getD n false }) b k i
      | none =>
        if siblingFilling s b k x base then modBuf s b k i fun u => { u with merged := true }
        else
          let s := modBuf s b k i fun u => { u with overlay := siblingBytes s b k x base }
          if x.fed then s else askXlat s b x.ctx base false (.fill k i)

/-- Take a buffer for a line, of the pattern's place `n`, and start its fill. -/
def takeFill (s : State) (b k i base : Nat) (n : Nat := 0) : State :=
  match s.site? b k with
  | none => s
  | some x =>
    let left := if x.fed then 1 else (x.pieces base).length
    startFill (s.modSite b k fun x =>
      { x with bufs := setAt x.bufs i { newBuf .filling base x.lineLen x.seq (s.bay b).clk left with place := n }, seq := x.seq + 1 }) b k i base

/-- Fills are allowed: START is satisfied and the engine runs (R173, R175). -/
def Site.mayFill (x : Site) : Bool := (!x.start || x.started) && x.stopped.isNone

/-- Fetch the lines of a PRELOAD window that no buffer holds (R168, R190). -/
def preload (s : State) (b k : Nat) : State :=
  match s.site? b k with
  | none => s
  | some x =>
    if x.isPreload && x.lifeOpen && x.mayFill then
      x.windowLines.foldl (fun s base =>
        match s.site? b k with
        | none => s
        | some x =>
          if (x.bufOf base).isSome then s
          else
            match placeOf (fun u : SiteBuf => u.st == .empty) x.bufs 0 with
            | none => s
            | some i => takeFill s b k i base) s
    else s

/-! ## Lives (R176) -/

/-- The key of a life for an instance's tag. -/
def Site.lifeKey (x : Site) (ws : List Nat) (t : Word) : Nat :=
  if x.life = 0 then tagOrd t / 2 ^ fieldLo ws x.lfield
  else if x.life = 1 then tagField ws t 0
  else 0

/-- Must an access with this key wait? -/
def Site.lifeBars (x : Site) (key : Nat) : Bool := x.life < 2 && x.lifeOpen && x.key != key

/-- Open a life with its key; a PRELOAD window is fetched. -/
def openLife (s : State) (b k key : Nat) : State :=
  match s.site? b k with
  | none => s
  | some x =>
    if x.lifeOpen then s
    else preload (s.modSite b k fun x => { x with lifeOpen := true, key := key }) b k

/-! ## Stores into buffers -/

/-- Bytes a commit writes, put into a buffer from place `o` on: what siblings recorded of these bytes before is past (R177). A whole 8-byte
unit loses its poison mark (R380). -/
def putStore (u : SiteBuf) (o : Nat) (bs : List Byte) (dirty : Bool) : SiteBuf :=
  let inside (i : Nat) : Bool := o ≤ i && i < o + bs.length
  { u with
    data := (List.range u.data.length).map fun i => if inside i then bs.getD (i - o) 0 else u.data.getD i 0
    valid := (List.range u.valid.length).map fun i => inside i || u.valid.getD i false
    dirty := (List.range u.dirty.length).map fun i => if inside i then dirty || u.dirty.getD i false else u.dirty.getD i false
    poi := (List.range u.poi.length).map fun i =>
      u.poi.getD i false && !(inside (i / 8 * 8) && inside (i / 8 * 8 + 7))
    overlay := u.overlay.filter fun e => !inside e.1 }

/-- Poisoned bytes of a buffer, from place `o` on. -/
def SiteBuf.mark (u : SiteBuf) (o : Nat) (poi : List Bool) : SiteBuf :=
  if poi.any id then
    { u with poi := (List.range u.data.length).map fun i => u.poi.getD i false || (o ≤ i && poi.getD (i - o) false) }
  else u

/-- directory_update (R177): the bytes go into every sibling buffer that holds them, FULL or DIRTY, and are recorded
against those FILLING. A whole 8-byte unit of a sibling's copy loses its poison mark (R380), and poisoned bytes carry theirs. -/
def directoryUpdate (s : State) (b k : Nat) (va : Nat) (bs : List Byte) (poi : List Bool) : State :=
  match s.site? b k with
  | none => s
  | some x =>
    (siblings s b k x).foldl (fun s e =>
      s.modSite b e.1 fun y =>
        { y with bufs := y.bufs.map fun u =>
            let hits := (List.range bs.length).filterMap fun i =>
              (y.offsetIn u.line (va + i)).map fun o => (o, bs.getD i 0, poi.getD i false)
            match u.st with
            | .empty => u
            | .filling => { u with overlay := recordHits u.overlay hits }
            | _ =>
              let at_ (i : Nat) : Option (Byte × Bool) := (hits.find? fun h => h.1 == i).map (·.2)
              { u with
                data := (List.range u.data.length).map fun i => ((at_ i).map (·.1)).getD (u.data.getD i 0)
                valid := if y.isZskip then u.valid else (List.range u.valid.length).map fun i => (at_ i).isSome || u.valid.getD i false
                poi := if u.poi.any id || poi.any id then (List.range u.data.length).map fun i =>
                    (u.poi.getD i false && !wholeUnit (fun j => (at_ j).isSome) i) || (at_ i).any (·.2)
                  else u.poi
                overlay := if u.left = 0 then [] else recordHits u.overlay hits } }) s

/-- A NOFILL store site in MODE STREAM writes a line back as soon as every byte of it is valid (R171), be it a commit through the site or
through a sibling of its class that made it so. -/
def wholeLines (s : State) (b k : Nat) : State :=
  match s.site? b k with
  | none => s
  | some x =>
    ((k, x) :: siblings s b k x).foldl (fun s e =>
      if e.2.isNofill && e.2.streamMode then
        (List.range e.2.bufs.length).foldl (fun s i =>
          if (((s.site? b e.1).map fun y => y.bufs.getD i emptyBuf).getD emptyBuf).valid.all id then (writeBack s b e.1 i).2 else s) s
      else s) s

/-! ## Zeros of a ZSKIP store site (R170) -/

/-- Bytes of a buffer's line that no commit has written become zero; what the line has beyond the window stays out. -/
def zeroLine (s : State) (b k i : Nat) : State :=
  match s.site? b k with
  | none => s
  | some x =>
    let u := x.bufs.getD i emptyBuf
    if x.zpart.contains u.line then s
    else
      let gap := (List.range x.lineLen).map fun j => !u.valid.getD j false && x.byteAt u.line j < x.wbase + x.wsize
      (x.runsIn u.line gap).foldl (fun s r =>
        let zs : List Byte := List.replicate r.2.2 0
        wholeLines (directoryUpdate (modBuf s b k i fun u => { putStore u r.2.1 zs true with st := .dirty }) b k r.1 zs []) b k)
        (s.modSite b k fun x => { x with zpart := insertNat u.line x.zpart })

/-- Get a buffer free for a new line: its index, after writing back a DIRTY one; none when the access waits. -/
def freeBuf (s : State) (b k : Nat) : Option Nat × State :=
  match (s.site? b k).bind fun x => (pickBuf x).map fun i => (x, i) with
  | none => (none, s)
  | some (x, i) =>
    let s := if x.isZskip && x.isStore && (x.bufs.getD i emptyBuf).st != .empty then zeroLine s b k i else s
    let q := writeBack s b k i
    if q.1 then (some i, q.2) else (none, q.2)

/-- A buffer for a store's line: the one that holds it, or a free one (R164). -/
def storeBuf (s : State) (b k base : Nat) : Option Nat × State :=
  match (s.site? b k).bind fun x => x.bufOf base with
  | some i => (some i, s)
  | none =>
    match freeBuf s b k with
    | (none, s) => (none, s)
    | (some i, s) =>
      (some i, s.modSite b k fun x =>
        { x with bufs := setAt x.bufs i (newBuf .full base x.lineLen x.seq (s.bay b).clk 0), seq := x.seq + 1 })

/-- Complete one line of a ZSKIP store site with zeros and write it back; a line completed before has only what came since to write.
With `keep` its buffer stays FULL (R189). -/
def zskipLine (s : State) (b k base scope : Nat) (keep : Bool) : Bool × State :=
  match s.site? b k with
  | none => (true, s)
  | some x =>
    if x.zpart.contains base && (x.bufOf base).isNone then (true, s)
    else
      match storeBuf s b k base with
      | (none, s) => (false, s)
      | (some i, s) =>
        let q := writeBack (zeroLine s b k i) b k i scope
        if q.1 && !keep then (true, modBuf q.2 b k i emptied) else q

/-- Complete and write back every line up to the last index (R170, R189). -/
def zskipComplete (s : State) (b k scope : Nat) : Bool × State :=
  match s.site? b k with
  | none => (true, s)
  | some x =>
    match x.lastIdx with
    | none => (true, s)
    | some i =>
      ((x.windowLines.drop x.zdone).takeWhile (· ≤ x.wbase + 4 * i)).foldl (fun r base =>
        let q := zskipLine r.2 b k base scope true
        (r.1 && q.1, q.2)) (true, s)

/-! ## The end of a life (R176) -/

/-- Fills that waited for a read of another site, which has gone, are asked for (R165). -/
def remerge (s : State) (b ctx : Nat) : State :=
  (sitesOf s b ctx).foldl (fun s k =>
    (List.range (((s.site? b k).map (·.bufs.length)).getD 0)).foldl (fun s i =>
      match s.site? b k with
      | none => s
      | some x =>
        let u := x.bufs.getD i emptyBuf
        if u.merged && u.left != 0 && !siblingFilling s b k x u.line then
          startFill (modBuf s b k i fun u => { u with merged := false, left := (x.pieces u.line).length }) b k i u.line
        else s) s) s

/-- Forget the fills under way of a site: their replies are dropped. -/
def forgetFills (s : State) (b k : Nat) : State :=
  let mine (r : Req) : Bool := match r.goal with | .fill k' _ _ _ => k' == k | _ => false
  s.modBay b fun y =>
    { y with
      reqs := (y.reqs.filter fun r => !(mine r && !r.sent)).map fun r => if mine r then { r with dead := true } else r
      xreqs := y.xreqs.filter fun q => match q.goal with | .fill k' _ => k' != k | _ => true }

/-- End the life of a site: write-backs at device scope, every buffer EMPTY, START re-armed, the pattern restarted.
False when a write-back cannot complete; the life is then still open. -/
def endLife (s : State) (b k : Nat) : Bool × State :=
  match s.site? b k with
  | none => (true, s)
  | some x =>
    if !x.lifeOpen && x.inUse == 0 then (true, s)
    else
      let z := if x.isZskip && x.isStore then zskipComplete s b k 3 else (true, s)
      let q := writeBackSite z.2 b k (fun _ _ => true) 3
      if z.1 && q.1 then
        (true, remerge ((forgetFills q.2 b k).modSite b k fun x =>
          { x with
            bufs := x.bufs.map fun _ => emptyBuf, lifeOpen := false, started := false, line := 0, lastIdx := none, zdone := 0
            zpart := [] }) b x.ctx)
      else (false, q.2)

end Sys2Proof.Machine
end

