-- ==== Sys2Proof/Machine/MemOps.lean ====
section
/-!
DEFINITION. Sys2Proof/Machine/MemOps.lean: the memory family, 0x88 to 0x95 without ldg and stg (R184 to R193): checks at the
fire, wave issue, and how a site serves an access.
-/
namespace Sys2Proof.Machine

open Sys2Proof

/-! ## Operations of an instance -/

def Scope.code : Scope → Nat
  | .inst => 0 | .bay => 1 | .rgn => 2 | .dev => 3 | .tnt => 4 | .sys => 5

/-- Change one operation. -/
def modOp (s : State) (b g ix lsid : Nat) (f : MemOp → MemOp) : State :=
  s.modInst b g ix fun i => { i with ops := i.ops.map fun o => if o.lsid = lsid then f o else o }

def Inst.op? (i : Inst) (lsid : Nat) : Option MemOp := i.ops.find? (·.lsid == lsid)

def opOf (s : State) (b : Nat) (w : Waiter) : Option MemOp := (s.inst? b w.gate w.ix).bind (·.op? w.lsid)

/-- The installed number of the site an operation names (R81). -/
def siteOf (s : State) (b ctx : Nat) (f : FormM) : Nat := ((s.ctx? b ctx).map (·.siteBase)).getD 0 + f.site.toNat

/-- An instance's tag and the widths of its layout. -/
def tagOf (s : State) (b g ix : Nat) : Word := ((s.inst? b g ix).map (·.tag)).getD 0
def widthsOf (s : State) (b g ix : Nat) : List Nat :=
  match s.inst? b g ix with
  | none => []
  | some i => ((s.hitch? b g i.ctx i.hnum).map (·.widths)).getD []
def ctxOf (s : State) (b g ix : Nat) : Nat := ((s.inst? b g ix).map (·.ctx)).getD 0

/-- Does an operation carry an acquire (R184)? -/
def MemOp.acq (o : MemOp) : Bool :=
  match o.kind with
  | .load | .ldo | .ldg => o.f.ord == .acq
  | .atomic => o.f.ord == .acq || o.f.ord == .ar
  | .fence a _ => a
  | _ => false

/-- Is it held back until lower instances of the strand are done (R202)? -/
def MemOp.inTurn (o : MemOp) : Bool :=
  match o.kind with
  | .load | .ldo | .ldg | .stg | .atomic => true
  | _ => false

/-- Is it placed in the wave buffer (R184)? -/
def MemOp.placed (o : MemOp) : Bool :=
  match o.kind with
  | .store _ | .sflush | .srelStore => true
  | .fence _ r => r
  | _ => false

/-- Send an operation's results from node `n`'s place (R132). -/
def opSend (s : State) (b g ix : Nat) (o : MemOp) (v0 v1 : Token) : State :=
  let hn := ((s.inst? b g ix).map (·.hnum)).getD 0
  let src := nodeSrc (((s.site? b (siteOf s b (ctxOf s b g ix) o.f)).map (·.node)).getD 0)
  let ctx := ctxOf s b g ix
  (s.sendTarget b g ix hn ctx src o.c.t0 v0).sendTarget b g ix hn ctx src o.c.t1 v1

/-- An operation is done: its tokens go. -/
def opDone (s : State) (b g ix : Nat) (o : MemOp) (v0 v1 : Token) : State :=
  opSend (modOp s b g ix o.lsid fun o => { o with st := .done }) b g ix o v0 v1

/-- Count a latency; the 64th ends a batch, whose mean is formed (R37). -/
def HitchCfg.count (h : HitchCfg) (d : Nat) : HitchCfg :=
  if h.latCnt + 1 < 64 then { h with latCnt := h.latCnt + 1, latSum := h.latSum + d }
  else { h with latCnt := 0, latSum := 0, means := h.means ++ [(h.latSum + d) / (h.latCnt + 1)] }

/-- A value-bearing reply is delivered: the gate counts its latency (R37). -/
def countReply (s : State) (b g ix : Nat) (o : MemOp) : State :=
  match s.inst? b g ix with
  | none => s
  | some i =>
    s.modHitch b g i.ctx i.hnum fun h => h.count ((s.bay b).clk - o.since)

/-- An operation is done with a value. -/
def opValue (s : State) (b g ix : Nat) (o : MemOp) (v0 v1 : Token) : State :=
  opDone (countReply s b g ix o) b g ix o v0 v1

/-- An operation faults: it will be issued again on RESUME (R354). -/
def opFault (s : State) (b g ix : Nat) (o : MemOp) (code : Nat) (d : Word × Word × Word × Word) : State :=
  (modOp s b g ix o.lsid fun o => { o with st := .waiting }).takeFault b g ix code (some o.el) o.slot d (.op o.lsid)

/-! ## Loads -/

/-- The lanes of a ZSKIP store entry: unit index and value. -/
def zskipLanes (e : WaveEnt) : List (Nat × Nat) := zskipPairs (bytesVec e.data)

/-- The byte a placed store will write at an address of its site's address space, and whether it is poisoned (R186): of a ZSKIP store that
of its lanes. -/
def WaveEnt.byte? (e : WaveEnt) (x : Site) (a : Nat) : Option (Byte × Bool) :=
  match e.kind with
  | .store _ =>
    if e.nul then none
    else if e.zskip then
      ((zskipLanes e).find? fun l => x.wbase + 4 * l.1 ≤ a && a < x.wbase + 4 * l.1 + 4).map fun l =>
        ((leBytes 4 l.2).getD (a - (x.wbase + 4 * l.1)) 0, e.poi.any id)
    else if e.addr ≤ a && a < e.addr + e.data.length then some (e.data.getD (a - e.addr) 0, e.poi.getD (a - e.addr) false)
    else none
  | _ => none

/-- The byte of the highest lower LSID that wrote an address, and whether it is poisoned (R186). Addresses are compared within one address
space: a placed store through a PHYS site reaches no load through a virtual one, nor the reverse (log 100). -/
def waveByte (s : State) (b g ix lsid : Nat) (phys : Bool) (a : Nat) : Option (Byte × Bool) :=
  let hits := (s.bay b).wave.filterMap fun e =>
    if e.gate == g && e.ix == ix && e.lsid < lsid then
      ((s.site? b e.site).filter fun x => x.phys == phys).bind fun x => (e.byte? x a).map fun v => (e.lsid, v)
    else none
  match hits with
  | [] => none
  | h :: l => some (l.foldl (fun m e => if m.1 < e.1 then e else m) h).2

/-- A value from the bytes of an access (R48, R63). -/
def loadVal (c : Common) (bs : List Byte) : Val :=
  if c.w then .vec (bytesVec bs) else .sc (extendRes c.ty (8 * c.ty.size) (leNat bs))

/-- LOC and index of a poisoned byte read (R350, R382). -/
def poisonLoc (x : Site) (a : Nat) : Word := locWord (if x.src = 0 then 0x9 else 0xA) (a / 0x10000)

/-- A load's bytes are there: poison faults it; else acquire actions, then the value and done (R186, R175). -/
def finishLoad (s : State) (b : Nat) (x : Site) (w : Waiter) (o : MemOp) (bs : List Byte) (poi : List Bool) : State :=
  let ov (i : Nat) : Option (Byte × Bool) := waveByte s b w.gate w.ix o.lsid x.phys (o.ea + i)
  if (List.range bs.length).any fun i => poi.getD i false && (ov i).isNone then
    opFault s b w.gate w.ix o 0x20 (poisonLoc x o.ea, word o.ea, 0, 0)
  else if (List.range bs.length).any fun i => (ov i).any (·.2) then opFault s b w.gate w.ix o 0x20 (locWord 7 0, word o.ea, 0, 0)
  else
    let bs' := (List.range bs.length).map fun i => ((ov i).map (·.1)).getD (bs.getD i 0)
    let ctx := ctxOf s b w.gate w.ix
    let s := if o.acq then acquireActions s b ctx o.scope else s
    opValue s b w.gate w.ix o ⟨loadVal o.c bs', false, false⟩ (ctTok true)

/-- Take a waiter out of its site. -/
def dropWaiter (s : State) (b k : Nat) (w : Waiter) : State :=
  s.modSite b k fun x => { x with waiters := x.waiters.filter fun v => v != w }

/-- Let an access of a site wait in it. -/
def addWaiter (s : State) (b k : Nat) (w : Waiter) : State := s.modSite b k fun x => { x with waiters := x.waiters ++ [w] }

/-- Is an instance frozen? -/
def frozenInst (s : State) (b g ix : Nat) : Bool := (s.inst? b g ix).any fun i => i.st == .frozen

/-- The units of a ZSKIP load site's buffer that are kept and not yet returned: those not zero, and those of which a byte is poisoned
(R169, R175). -/
def keptUnits (x : Site) (u : SiteBuf) : List Nat :=
  (List.range (x.lineLen / 4)).filter fun n =>
    u.units ≤ n && (((u.data.drop (4 * n)).take 4).any (· != 0) || ((u.poi.drop (4 * n)).take 4).any id)

/-- The kept units of a ZSKIP load site in pattern order: buffer, unit in its line; FULL buffers up to the first that is
still FILLING (R169). -/
def zskipUnits (x : Site) : List (Nat × Nat) :=
  let order := sortBy (fun i => (x.bufs.getD i emptyBuf).order)
    ((List.range x.bufs.length).filter fun i => (x.bufs.getD i emptyBuf).st != .empty)
  let ready := order.takeWhile fun i => (x.bufs.getD i emptyBuf).st == .full
  ready.flatMap fun i => (keptUnits x (x.bufs.getD i emptyBuf)).map fun n => (i, n)

/-- Has the pattern of the site been fetched to its end? -/
def Site.patternOver (x : Site) : Bool := x.patternLen ≤ x.line && !(x.bufs.any fun u => u.st == .filling)

/-- Give a ZSKIP buffer back once its kept units have been returned, at once if it has none (R169). -/
def zskipTrim (x : Site) : Site :=
  { x with bufs := x.bufs.map fun u => if u.st == .full && (keptUnits x u).isEmpty then emptyBuf else u }

/-- Serve an ldv of a ZSKIP site: the next 16 kept units, or what is left once the pattern ends (R169). With fewer in the DEP buffers and
more to come the ldv waits, and they keep their units (log 105). -/
def serveZskip (s : State) (b k : Nat) (x : Site) (w : Waiter) (o : MemOp) : State :=
  let us := (zskipUnits x).take 16
  if us.length < 16 && !x.patternOver then s
  else
    let bytes (e : Nat × Nat) : List Byte := (((x.bufs.getD e.1 emptyBuf).data.drop (4 * e.2)).take 4)
    let bad := us.any fun e => (((x.bufs.getD e.1 emptyBuf).poi.drop (4 * e.2)).take 4).any id
    if bad then
      if frozenInst s b w.gate w.ix then s
      else opFault (dropWaiter s b k w) b w.gate w.ix o 0x20 (poisonLoc x o.ea, word x.wbase, 0, 0)
    else
      let vals := us.map fun e => leNat (bytes e)
      let idxs := us.map fun e => (x.byteAt (x.bufs.getD e.1 emptyBuf).line (4 * e.2) - x.wbase) / 4
      let pad := List.replicate (16 - us.length)
      let v := ofLanes 32 (vals ++ pad 0 ++ idxs ++ pad 0xFFFFFFFF)
      let s := (dropWaiter s b k w).modSite b k fun x => zskipTrim (us.foldl (fun x e =>
        { x with bufs := setAt x.bufs e.1 { x.bufs.getD e.1 emptyBuf with units := e.2 + 1 } }) x)
      let s := if o.acq then acquireActions s b (ctxOf s b w.gate w.ix) o.scope else s
      opValue s b w.gate w.ix o ⟨.vec v, false, false⟩ (ctTok true)

/-- Serve a load from the buffers of its site, or see to it that its line is fetched (R165 to R168). -/
def serveOrFetch (s : State) (b k : Nat) (x : Site) (w : Waiter) (o : MemOp) : State :=
  let n := if o.c.w then 128 else o.c.ty.size
  let base := (x.lineOf o.ea).getD 0
  let off := (x.offsetIn base o.ea).getD 0
  match x.bufOf base with
  | some i =>
    let u := x.bufs.getD i emptyBuf
    if u.serves w off n then
      let poi := (u.poi.drop off).take n
      if poi.any id && frozenInst s b w.gate w.ix then s
      else finishLoad (touchBuf (dropWaiter s b k w) b k i) b x w o ((u.data.drop off).take n) poi
    else if u.left != 0 || u.drop || !x.mayFill then s
    else startFill (modBuf s b k i fun u => { u with left := (x.pieces base).length, since := (s.bay b).clk }) b k i base
  | none =>
    if x.isStream then
      if (List.range x.patternLen).any fun j => x.line ≤ j && x.patternAt j == base then s
      else
        let no := k - ((s.ctx? b x.ctx).map (·.siteBase)).getD 0
        if frozenInst s b w.gate w.ix then s
        else opFault (dropWaiter s b k w) b w.gate w.ix o 0x12 (word o.ea, word no, word n, 0)
    else if x.isPreload || !x.mayFill then s
    else
      match freeBuf s b k with
      | (none, s) => s
      | (some i, s) => takeFill s b k i base

/-- Serve a load, and again at once when a sibling's copy has just filled its line (R165). -/
def serveBuffered (s : State) (b k : Nat) (x : Site) (w : Waiter) (o : MemOp) : State :=
  let s := serveOrFetch s b k x w o
  match s.site? b k with
  | none => s
  | some y =>
    let base := (x.lineOf o.ea).getD 0
    let off := (x.offsetIn base o.ea).getD 0
    if y.waiters.contains w && (y.bufOf base).any fun i => (y.bufs.getD i emptyBuf).serves w off (if o.c.w then 128 else o.c.ty.size)
    then serveOrFetch s b k y w o
    else s

/-! ## Stores, placed -/

/-- The wave-buffer entry of an operation in the store mask. -/
def waveEnt (o : MemOp) (g ix k : Nat) (kind : WaveKind) (data : List Byte) (zskip : Bool) : WaveEnt :=
  { gate := g, ix := ix, kind := kind, lsid := o.lsid, nul := false, site := k, addr := o.ea, data := data, poi := []
    ord := o.f.ord, scope := o.scope, zskip := zskip, el := o.el, slot := o.slot }

/-- Place an entry: it counts for the store mask, and its done tokens go (R184). -/
def placeEnt (s : State) (b g ix : Nat) (o : MemOp) (e : WaveEnt) : State :=
  let s := s.modBay b fun y => { y with wave := y.wave ++ [e] }
  let s := s.modInst b g ix fun i => { i with stores := insertNat o.lsid i.stores }
  opDone s b g ix o (ctTok true) (ctTok true)

/-- The bytes a store writes. -/
def storeBytes (c : Common) (k : Token) : List Byte :=
  if c.w then vecBytes (valVec k.val) else leBytes c.ty.size ((valWord k.val).toNat)

/-! ## Serving a site -/

/-- Requests an ORDERED site has outstanding: translations and requests of its operations (R172). -/
def orderedOut (s : State) (b k : Nat) : Nat :=
  let of' (g ix lsid : Nat) : Bool :=
    (opOf s b ⟨g, ix, lsid⟩).any fun o => siteOf s b (ctxOf s b g ix) o.f == k
  ((s.bay b).xreqs.filter fun q => match q.goal with | .op g ix l => of' g ix l | _ => false).length +
  ((s.bay b).reqs.filter fun q => match q.goal with | .op g ix l => of' g ix l | _ => false).length

/-- The memory node of a slice offset (R172). -/
def nodeOf (o : Nat) : Nat := o / 64 % 8

/-- Is the word at a slice offset present for a context (R188)? -/
def present (y : Bay) (ctx o : Nat) : Bool :=
  ((AMap.get? y.ctxs ctx).any fun c => c.presValid.contains (o / 0x10000)) && y.pres.contains (o / 32)

/-- Would an ldo of the word at a slice offset find every entry of its node's list taken (R188)? -/
def listFull (y : Bay) (ctx o : Nat) : Bool :=
  !present y ctx o && Config.readersPerNode ≤ (y.readers.filter fun r => r.node == nodeOf o).length

/-- What an operation asks of its page: permissions (R340), kind (R186, R188, R216), the site's memory (R161). -/
def MemOp.need (o : MemOp) (mem : Option Nat) : Need :=
  match o.kind with
  | .atomic => { needRW with kinds := [0, 2], mem := mem }
  | .stg => { needW with kinds := [1] }
  | .ldg => { needR with kinds := [1] }
  | .ldo => { needR with kinds := [2], mem := mem }
  | _ => { needR with mem := mem }

/-- Must an ldo wait in its site for an entry of its word's list (R188)? -/
def ldoWaits (s : State) (b : Nat) (x : Site) (o : MemOp) : Bool :=
  o.kind == .ldo &&
    match translateFor s b x.ctx o.ea x.phys (o.need (some x.src)) with
    | .ok l _ => listFull (s.bay l.home) x.ctx (l.key - loftKey l.home 0)
    | _ => false

/-- Try to serve a waiting access: its life must be the open one (R176). -/
def serveWaiter (s : State) (b k : Nat) (w : Waiter) : State :=
  match s.site? b k, opOf s b w with
  | some x, some o =>
    let key := x.lifeKey (widthsOf s b w.gate w.ix) (tagOf s b w.gate w.ix)
    if x.lifeBars key then s
    else
      let s := openLife s b k key
      match s.site? b k with
      | none => s
      | some x =>
        match o.kind with
        | .store once =>
          placeEnt (dropWaiter s b k w) b w.gate w.ix o
            (waveEnt o w.gate w.ix k (.store once) (storeBytes o.c o.b) x.isZskip)
        | _ =>
          if x.ordered then
            if orderedOut s b k < x.dep && !ldoWaits s b x o then
              askXlat (dropWaiter s b k w) b x.ctx o.ea (o.kind == .atomic) (.op w.gate w.ix w.lsid)
            else s
          else if x.isZskip then serveZskip s b k x w o
          else serveBuffered s b k x w o
  | _, _ => dropWaiter s b k w

/-- The buffer of least fill order that is FULL or FILLING. -/
def firstFilled (x : Site) (p : SiteBuf → Bool) : Option Nat :=
  match (x.bufs.filter p).map (·.order) with
  | [] => none
  | a :: l => placeOf (fun u : SiteBuf => p u && u.order == l.foldl min a) x.bufs 0

/-- A waiting srel of a load site frees the earliest buffer once it is FULL (R190). -/
def serveSrel (s : State) (b k : Nat) (w : Waiter) (first : Bool) : State :=
  match s.site? b k, opOf s b w with
  | some x, some o =>
    let cand := if first then (firstFilled x fun u => u.st == .full) else firstFilled x fun u => u.st == .full || u.st == .filling
    match cand with
    | some i =>
      if (x.bufs.getD i emptyBuf).st = .full then
        let s := (modBuf s b k i emptied).modSite b k fun x => { x with srels := x.srels.filter fun v => v != w }
        opDone s b w.gate w.ix o (ctTok true) (ctTok true)
      else s
    | none => s
  | _, _ => s.modSite b k fun x => { x with srels := x.srels.filter fun v => v != w }

/-- sinv on a site: FULL buffers EMPTY, FILLING ones on arrival; STRT gives the start token; a PRELOAD window is fetched
again (R173, R190). A life that is open takes the start token, whatever key opened it (log 105). -/
def doSinv (s : State) (b k key : Nat) (strt : Bool) : State :=
  let s := s.modSite b k fun x =>
    { x with bufs := x.bufs.map fun u =>
        if u.st == .full then emptied u else if u.st == .filling then { u with drop := true } else u }
  let s := if strt then openLife (s.modSite b k fun x => { x with started := true }) b k key else s
  preload s b k

/-! ## Wave issue (R184) -/

/-- Two loads of one instance through one site that share a byte are performed in LSID order (R201). -/
def sharesByte (o p : MemOp) : Bool :=
  let n (q : MemOp) : Nat := if q.c.w then 128 else max q.c.ty.size 1
  p.lsid < o.lsid && p.st != .done && p.kind == .load && o.kind == .load && p.f.site == o.f.site &&
    p.ea < o.ea + n o && o.ea < p.ea + n p

/-- Does a lower operation of the wave stand before the issue of a higher one: it has not been issued, a store-mask entry until it is
placed; or it has an acquire and is not performed (R184)? -/
def MemOp.bars (p : MemOp) : Bool := p.st == .waiting || ((p.acq || p.placed) && p.st != .done)

/-- May an operation be issued: lower LSIDs have fired and have been issued, in order (R184, R192, R201, R202)? -/
def opReady (s : State) (b g ix : Nat) (o : MemOp) : Bool :=
  match s.inst? b g ix with
  | none => false
  | some i =>
    match s.hitch? b g i.ctx i.hnum with
    | none => false
    | some h =>
      o.st == .waiting && i.st != .frozen && lowerFired h i o.lsid &&
      !(i.ops.any fun p => p.lsid < o.lsid && p.bars) &&
      !(i.ops.any fun p => sharesByte o p) &&
      (!(o.inTurn && h.seq) || s.lowerDone b g ix) &&
      (match o.kind with
        | .fence true _ => i.ops.all fun p => o.lsid ≤ p.lsid || p.st == .done
        | _ => true)

/-- A reduction buffer that is free (R233). -/
def freeRed (y : Bay) : Option Nat := (List.range Config.redBufs).find? fun n => (AMap.get? y.reds n).isNone

/-- Reduction buffers promised to group accesses whose translation is under way. -/
def redsPromised (s : State) (b : Nat) : Nat :=
  ((s.bay b).xreqs.filter fun r =>
    match r.goal with
    | .op g ix l => (opOf s b ⟨g, ix, l⟩).any fun p => p.kind == .ldg || p.kind == .stg
    | _ => false).length

/-- Issue an operation. -/
def issueOp (s : State) (b g ix : Nat) (o : MemOp) : State :=
  let ctx := ctxOf s b g ix
  let k := siteOf s b ctx o.f
  let w : Waiter := ⟨g, ix, o.lsid⟩
  let out (s : State) : State := modOp s b g ix o.lsid fun o => { o with st := .issued, since := (s.bay b).clk }
  match o.kind with
  | .load | .ldo | .store _ =>
    serveWaiter (addWaiter (out s) b k w) b k w
  | .atomic =>
    let q := if o.f.ord = .rel || o.f.ord = .ar then releaseActions s b ctx o.scope else (true, s)
    if q.1 then serveWaiter (addWaiter (out q.2) b k w) b k w else q.2
  | .ldg | .stg =>
    if redsPromised s b + (s.bay b).reds.length < Config.redBufs
    then askXlat (out s) b ctx o.ea (o.kind == .stg) (.op g ix o.lsid) else s
  | .sinv =>
    let key := ((s.site? b k).map fun x => x.lifeKey (widthsOf s b g ix) (tagOf s b g ix)).getD 0
    opDone (doSinv s b k key (o.f.lo8.getLsbD 0)) b g ix o (ctTok true) (ctTok true)
  | .srel =>
    let s := serveSrel (out s) b k w true
    if (opOf s b w).any fun o => o.st == .issued then s.modSite b k fun x => { x with srels := x.srels ++ [w] } else s
  | .fence a r =>
    let s := if a then acquireActions s b ctx o.scope else s
    if r then placeEnt s b g ix o (waveEnt o g ix 0 .fence [] false) else opDone s b g ix o (ctTok true) (ctTok true)
  | .sflush => placeEnt s b g ix o (waveEnt o g ix k .flush [] false)
  | .srelStore => placeEnt s b g ix o (waveEnt o g ix k .srel [] false)

/-- Issue what an instance may issue, lowest LSID first; at most its 32 LSIDs. -/
def pumpInst (b g ix : Nat) : Nat → State → State
  | 0, s => s
  | n + 1, s =>
    match (s.inst? b g ix).bind fun i => (sortBy MemOp.lsid i.ops).find? fun o => opReady s b g ix o with
    | none => s
    | some o =>
      let t := issueOp s b g ix o
      if (opOf t b ⟨g, ix, o.lsid⟩).any (fun p => p.st == .waiting) then t else pumpInst b g ix n t

/-- Serve what waits in the sites of a bay, and issue what may be issued. -/
def kickOnce (b : Nat) (s : State) : State :=
  let s := (s.bay b).sites.foldl (fun s e =>
    let s := e.2.waiters.foldl (fun s w => serveWaiter s b e.1 w) s
    e.2.srels.foldl (fun s w => serveSrel s b e.1 w false) s) s
  (s.bay b).gates.foldl (fun s e =>
    e.2.insts.foldl (fun s j => if j.2.ops.any (fun o => o.st == .waiting) then pumpInst b e.1 j.1 32 s else s) s) s

/-- What is left to serve or issue: waiters, srels and waiting operations. -/
def kickLoad (y : Bay) : Nat :=
  y.sites.foldl (fun n e => n + e.2.waiters.length + e.2.srels.length) 0 +
  y.gates.foldl (fun n e => e.2.insts.foldl (fun n j => n + (j.2.ops.filter fun o => o.st == .waiting).length) n) 0

/-- Repeat while something moves. -/
def kickBay (b : Nat) : Nat → State → State
  | 0, s => s
  | n + 1, s =>
    let k := kickLoad (s.bay b)
    if k = 0 then s
    else
      let t := kickOnce b s
      if kickLoad (t.bay b) = k then t else kickBay b n t

/-- Serve and issue on a bay until nothing moves. -/
def kick (s : State) (b : Nat) : State := kickBay b 64 s

/-- Does an ldo wait in a site of a bay? -/
def ldoKept (s : State) (b : Nat) : Bool :=
  (s.bay b).sites.any fun e => e.2.waiters.any fun w => (opOf s b w).any (·.kind == .ldo)

/-- Entries of a home's deferred-reader lists may have come free: the ldos that wait in their sites are tried again (R188). -/
def kickLdos (s : State) : State := (s.bays.map (·.1)).foldl (fun s b => if ldoKept s b then kick s b else s) s

/-! ## The fire of a memory slot -/

/-- The scope at which an operation is performed (R212): an error is SCOPE_FAULT's details; a clamp is logged once a slot
and launch. -/
def scopeOf (s : State) (b : Nat) (m : MSet) (sc : Nat) : Except (Word × Word × Word × Word) (Nat × State) :=
  match s.ctx? b m.ctx with
  | none => .ok (sc, s)
  | some c =>
    let maxs := c.scopePol % 8
    if sc ≤ maxs then .ok (sc, s)
    else if natBit c.scopePol 3 then .error (word sc, word maxs, 0, 0)
    else if c.clamped.contains (m.el, m.slot) then .ok (maxs, s)
    else
      let r := { s.recOf b m.ctx 0x80 0 with
        gate := m.gate, hnum := hnumOf s b m, ix := m.ix, elem := some m.el, slot := m.slot
        tag := ownTag s b m, d0 := word sc, d1 := word maxs }
      .ok (maxs, (s.modPart c.part (·.event r)).modCtx b m.ctx fun c => { c with clamped := (m.el, m.slot) :: c.clamped })

/-- Pin an instance (R33). -/
def pinInst (b : Nat) (m : MSet) (s : State) : State := s.modInst b m.gate m.ix fun i => { i with pinned := true }

/-- Note that an LSID has fired (R184). -/
def noteFired (lsid : Nat) (b : Nat) (m : MSet) (s : State) : State :=
  s.modInst b m.gate m.ix fun i => { i with fired := insertNat lsid i.fired }

/-- A null fire: the LSID is produced as a null, with a null entry in the store mask; nulls go to the targets (R20, R184). -/
def nullOp (c : Common) (f : FormM) (kind : OpKind) (n0 n1 : Val) (b : Nat) (m : MSet) (s : State) : State :=
  let o : MemOp := ⟨kind, m.el, m.slot, f.lsid.toNat, c, f, 0, 0, noTok, 0, 0, .done, 0⟩
  let s := if kind = .atomic ∨ kind = .stg then pinInst b m s else s
  let s := noteFired o.lsid b m s
  let s :=
    if o.placed then
      (s.modBay b fun y => { y with wave := y.wave ++ [{ waveEnt o m.gate m.ix 0 .fence [] false with nul := true }] }).modInst
        b m.gate m.ix fun i => { i with stores := insertNat o.lsid i.stores }
    else s
  kick (sendNulls c n0 n1 b m s) b

/-- The effective address: port A plus the signed offset in units of the access size, modulo 2^64 (R81). -/
def effAddr (m : MSet) (off : Int) (size : Nat) : Nat := wrapTo 64 ((valWord (valA m)).toNat + off * size)

/-- An operation of the wave fires: policy (R212), the site entry's poison (R355), the access check (R179), of which a ZSKIP site has only
the alias check of its stores' units (R170, R178); then it takes its place in wave order. `chk` is size, vector and store of a checked
access. -/
def fireOp (c : Common) (f : FormM) (kind : OpKind) (op : Nat) (pol named : Bool) (off : Int)
    (chk : Option (Nat × Bool × Bool)) (n0 n1 : Val) (s : State) : Res :=
  .next (fireSlot c (nullOp c f kind n0 n1) (fun b m s =>
    match if pol then scopeOf s b m (Scope.code f.scope) else .ok (Scope.code f.scope, s) with
    | .error d => slotFault 0x19 d b m s
    | .ok (sc, s) =>
      let k := siteOf s b m.ctx f
      let site := if named then s.site? b k else none
      if site.any (·.poison) then slotFault 0x20 (locWord 3 ((site.map (·.node)).getD 0), 0, 0, 0) b m s
      else
        let size := (chk.map (·.1)).getD 1
        let ea := effAddr m off size
        let bad : Option (Nat × (Word × Word × Word × Word)) := match chk, site, s.ctx? b m.ctx with
          | some (n, v, st), some x, some cx =>
            if !x.isZskip then accessCheck (s.bay b) cx m.ctx k x ea n v st
            else if st then
              (zskipGuard (s.bay b) m.ctx k x (valVec (m.b.getD noTok).val)).map fun e =>
                (0x13, (word e.1, word (siteNo cx k), 4, word (siteNo cx e.2.site)))
            else none
          | _, _, _ => none
        match bad with
        | some (code, d) => slotFault code d b m s
        | none =>
          let o : MemOp := ⟨kind, m.el, m.slot, f.lsid.toNat, c, f, op, ea, m.b.getD noTok,
            (m.c.map fun t => valWord t.val).getD 0, sc, .waiting, 0⟩
          let s := if kind = .atomic ∨ kind = .stg then pinInst b m s else s
          kick ((noteFired o.lsid b m s).modInst b m.gate m.ix fun i => { i with ops := i.ops ++ [o] }) b) s)

/-- OFF8 as a signed number. -/
def off8 (f : FormM) : Int := f.lo8.toInt
/-- OFF5 of an atomic. -/
def off5 (f : FormM) : Int := (f.lo8.extractLsb' 0 5).toInt

/-- A load or store of scalars or vectors. -/
def fireAccess (c : Common) (f : FormM) (kind : OpKind) (op : Nat) (store : Bool) (s : State) : Res :=
  fireOp c f kind op (f.ord != .plain) true (off8 f) (some (if c.w then 128 else c.ty.size, c.w, store))
    (if store then .ct 0 else zeroVal c.w false) (.ct 0) s

/-- LD (R186). -/
def execLd (c : Common) (f : FormM) (s : State) : Res := fireAccess c f .load 0x88 false s
/-- ST (R187). -/
def execSt (c : Common) (f : FormM) (s : State) : Res := fireAccess c f (.store false) 0x89 true s
/-- LDV (R186). -/
def execLdv (c : Common) (f : FormM) (s : State) : Res := fireAccess c f .load 0x8A false s
/-- STV (R187). -/
def execStv (c : Common) (f : FormM) (s : State) : Res := fireAccess c f (.store false) 0x8B true s
/-- LDO (R188). -/
def execLdo (c : Common) (f : FormM) (s : State) : Res := fireAccess c f .ldo 0x8E false s
/-- STO (R188). -/
def execSto (c : Common) (f : FormM) (s : State) : Res := fireAccess c f (.store true) 0x8F true s
/-- SFLUSH (R189). -/
def execSflush (c : Common) (f : FormM) (s : State) : Res := fireOp c f .sflush 0x90 true true 0 none (.ct 0) (.ct 0) s
/-- SINV (R190). -/
def execSinv (c : Common) (f : FormM) (s : State) : Res := fireOp c f .sinv 0x91 false true 0 none (.ct 0) (.ct 0) s

/-- Is the site of a firing slot a store site (R156)? -/
def firesStoreSite (f : FormM) (s : State) : Bool :=
  match s.fire with
  | some (b, m) => (s.site? b (siteOf s b m.ctx f)).any (·.isStore)
  | none => false

/-- SREL (R190): a store-mask entry on a store site. -/
def execSrel (c : Common) (f : FormM) (s : State) : Res :=
  fireOp c f (if firesStoreSite f s then .srelStore else .srel) 0x92 true true 0 none (.ct 0) (.ct 0) s

/-- SDEPTH (R191). -/
def execSdepth (c : Common) (f : FormM) (s : State) : Res :=
  fireVals c (fun b m s =>
    let v : Val := .sc (word (((s.site? b (siteOf s b m.ctx f)).map (·.dep)).getD 0))
    (v, v)) (.sc 0) (.sc 0) s

/-- FENCE (R192). -/
def execFence (c : Common) (f : FormM) (s : State) : Res :=
  fireOp c f (.fence (f.ord == .acq || f.ord == .ar) (f.ord == .rel || f.ord == .ar)) 0x94 true false 0 none (.ct 0) (.ct 0) s

/-- XLAT (R193): a translation is asked for; it has no place in the wave. -/
def execXlat (c : Common) (f : FormM) (s : State) : Res :=
  .next (fireSlot c (sendNulls c (.sc 0) (.sc 0)) (fun b m s =>
    askXlat s b m.ctx (valWord (valA m)).toNat (f.lo8.getLsbD 0) (.xlat m.el m.slot m.gate m.ix c)) s)

end Sys2Proof.Machine
end

