-- ==== Sys2Proof/Machine/AtomicOps.lean ====
section
/-!
DEFINITION. Sys2Proof/Machine/AtomicOps.lean: the atomics, 0x96 to 0xA0 (R194 to R197): their fire, and the value the home
writes.
-/
namespace Sys2Proof.Machine

open Sys2Proof

/-- The rounding mode and saturation of an atomic (R81). -/
def atomRnd (f : FormM) : Rnd := decodeRnd f.arnd
def atomSat (f : FormM) : Bool := f.xsat

/-- atomic_op (R195): the pattern the home writes, of width `w`. -/
def atomicNew (op : Nat) (t : Ty) (rnd : Rnd) (sat : Bool) (old b c : Nat) : Nat :=
  let w := t.width false
  let io := readInt t.signed w old
  let ib := readInt t.signed w b
  let b := b % 2 ^ w
  match op with
  | 0x96 => narrow t.signed sat w (io + ib)
  | 0x97 => if ib < io then b else old
  | 0x98 => if io < ib then b else old
  | 0x99 => old &&& b
  | 0x9A => old ||| b
  | 0x9B => old ^^^ b
  | 0x9C => b
  | 0x9D => if old = c % 2 ^ w then b else old
  | 0x9E => if b ≤ old then 0 else old + 1
  | 0x9F => if old = 0 ∨ b < old then b else old - 1
  | _ => fmtF32.round ((fmtF32.decode old).add (fmtF32.decode b) rnd) rnd sat

/-- The fire of an atomic: it pins its instance and takes its place in wave order (R33, R184). -/
def fireAtomic (c : Common) (f : FormM) (op : Nat) (s : State) : Res :=
  fireOp c f .atomic op true true (off5 f) (some (c.ty.size, false, false)) (.sc 0) (.ct 0) s

/-- AADD (R195). -/
def execAadd (c : Common) (f : FormM) (s : State) : Res := fireAtomic c f 0x96 s
/-- AMIN (R195). -/
def execAmin (c : Common) (f : FormM) (s : State) : Res := fireAtomic c f 0x97 s
/-- AMAX (R195). -/
def execAmax (c : Common) (f : FormM) (s : State) : Res := fireAtomic c f 0x98 s
/-- AAND (R195). -/
def execAand (c : Common) (f : FormM) (s : State) : Res := fireAtomic c f 0x99 s
/-- AOR (R195). -/
def execAor (c : Common) (f : FormM) (s : State) : Res := fireAtomic c f 0x9A s
/-- AXOR (R195). -/
def execAxor (c : Common) (f : FormM) (s : State) : Res := fireAtomic c f 0x9B s
/-- AXCH (R195). -/
def execAxch (c : Common) (f : FormM) (s : State) : Res := fireAtomic c f 0x9C s
/-- ACAS (R195). -/
def execAcas (c : Common) (f : FormM) (s : State) : Res := fireAtomic c f 0x9D s
/-- AINC (R195). -/
def execAinc (c : Common) (f : FormM) (s : State) : Res := fireAtomic c f 0x9E s
/-- ADEC (R195). -/
def execAdec (c : Common) (f : FormM) (s : State) : Res := fireAtomic c f 0x9F s
/-- FAADD (R195, R197). -/
def execFaadd (c : Common) (f : FormM) (s : State) : Res := fireAtomic c f 0xA0 s

end Sys2Proof.Machine
end

