-- ==== Sys2Proof/Machine/Errors.lean ====
section
/-!
DEFINITION. Sys2Proof/Machine/Errors.lean: logging of corrected and deferred errors (R382, R350), and the scrubbers (R355,
R381, R382).
-/
namespace Sys2Proof.Machine

open Sys2Proof

/-- The number of a location among all bays: its index with the bay that reports. -/
def eccKey (idx : Nat) (bay : Option Nat) : Nat := 256 * idx + (match bay with | none => 0 | some b => b + 1)
def EccCnt.key (e : EccCnt) : Nat := eccKey e.idx e.bay

/-- Log an error event: the bay's partition and the physical function (R382). -/
def logEcc (s : State) (code loc idx : Nat) (bay : Option Nat) (addr n : Nat) : State :=
  let r := { RecBody.blank code 0 with
    bay := bay, cyc := (bay.map fun b => (s.bay b).clk).getD 0, d0 := locWord loc idx, d1 := word addr, d2 := word n }
  s.eventFor bay r

/-- Have the 2^24 cycles of the reporting bay passed (R382)? An LPDDR controller has no bay whose cycles the rule counts: its interval
may end at any time (log 96). -/
def EccCnt.over (e : EccCnt) (s : State) : Bool := e.bay.all fun b => e.since + 2 ^ 24 ≤ (s.bay b).clk

/-- The interval of a location ends; what was added up is logged (R382). -/
def endInterval (s : State) (e : EccCnt) : State :=
  let s := { s with ecc := s.ecc.filter fun x => !(x.loc == e.loc && x.key == e.key) }
  if e.more = 0 then s else logEcc s 0x81 e.loc e.idx e.bay 0 e.more

/-- A location corrects an error: the first is logged at once, later ones are added up while the interval runs (R382). -/
def eccCorrected (s : State) (loc idx : Nat) (bay : Option Nat) (addr : Nat) : State :=
  let now := (bay.map fun b => (s.bay b).clk).getD 0
  let first (s : State) : State := logEcc { s with ecc := s.ecc ++ [⟨loc, idx, bay, 0, now⟩] } 0x81 loc idx bay addr 1
  match s.ecc.find? fun e => e.loc == loc && e.key == eccKey idx bay with
  | none => first s
  | some e =>
    if bay.isSome && e.over s then first (endInterval s e)
    else
      { s with ecc := s.ecc.map fun e =>
          if e.loc == loc && e.key == eccKey idx bay then { e with more := e.more + 1 } else e }

/-- A uncorrectable unit is left for its consumer (R355, R381). -/
def eccDeferred (s : State) (loc idx : Nat) (bay : Option Nat) (addr : Nat) : State := logEcc s 0x82 loc idx bay addr 0

/-- ECC_CORRECTED_INTERVAL (R382). -/
def execEccCorrectedInterval (loc idx : Nat) (s : State) : Res :=
  .next (match s.ecc.find? fun e => e.loc == loc && e.key == idx with
  | none => s
  | some e => if e.over s then endInterval s e else s)

/-- Poison one configuration word (R355). -/
def poisonConfig (s : State) (b : Nat) (e : ConfigErr) : State :=
  match e.loc with
  | 0 => s.modElem b (e.idx / 32) fun x => { x with slots := AMap.upd x.slots (e.idx % 32) fun c => { c with poison := true } }
  | 1 => s.modElem b (e.idx / 32) fun x => { x with routes := AMap.upd x.routes (e.idx % 32) fun c => { c with poison := true } }
  | 2 => s.modHitch b (e.idx / 256) (e.idx % 256 / 32) (e.idx % 32) fun h => { h with poison := true }
  | _ => s.modSite b e.idx fun x => { x with poison := true }

/-- The index of the location a configuration word lies in: element, gate or node (R382). -/
def configIndex (s : State) (b : Nat) (e : ConfigErr) : Nat :=
  if e.loc = 3 then ((s.site? b e.idx).map fun x => bits x.q0 1 3).getD 0 else if e.loc = 2 then e.idx / 256 else e.idx / 32

/-- CONFIG_SCRUB (R355): the bay's scrubber finds these words wrong. -/
def execConfigScrub (b : Nat) (found : List ConfigErr) (s : State) : Res :=
  .next (found.foldl (fun s e =>
    if e.correctable then eccCorrected s e.loc (configIndex s b e) (some b) 0
    else eccDeferred (poisonConfig s b e) e.loc (configIndex s b e) (some b) 0) s)

/-- What the read-back of a load finds on a bay (R355): it is logged; the context keeps the words that are wrong, and they are poisoned
wherever the loader's tables put them. -/
def noteReadBack (s : State) (b ctx : Nat) (e : ConfigErr) : State :=
  if e.correctable then eccCorrected s e.loc (configIndex s b e) (some b) 0
  else eccDeferred (s.modCtx b ctx fun c => { c with wrong := c.wrong ++ [e] }) e.loc (configIndex s b e) (some b) 0

/-! ## Errors of the other stores and of the in-bay links (R379) -/

def poisonTok (t : Token) : Token := { t with poi := true }

/-- A matched set with the operand of a port poisoned. -/
def MSet.poisonPort (m : MSet) (port : Nat) : MSet :=
  match port with
  | 0 => { m with a := m.a.map poisonTok }
  | 1 => { m with b := m.b.map poisonTok }
  | 2 => { m with c := m.c.map poisonTok }
  | _ => { m with p := m.p.map poisonTok }

/-- The token under way that a happening is. -/
def poisonFlit : Instr → Instr
  | .tokenArrive m => .tokenArrive { m with tok := poisonTok m.tok }
  | .gateEntryToken m => .gateEntryToken { m with tok := poisonTok m.tok }
  | i => i

/-- LOC, index, bay and address of an error (R350, R382; the indices are the model's, log 92): none where nothing is stored. -/
def upsetLoc (s : State) : UpsetAt → Option (Nat × Nat × Option Nat × Nat)
  | .buffer b k _ => (s.site? b k).map fun x => (0x4, bits x.q0 1 3, some b, 0)
  | .keep b row _ => some (0x5, row, some b, 0)
  | .entry b e _ _ _ _ | .operand b e _ _ | .waiting b e _ _ => some (0x6, e, some b, 0)
  | .wave b _ _ => some (0x7, 0, some b, 0)
  | .acc b t _ => some (0x8, t, some b, 0)
  | .feed b f _ => some (0x8, 4 + f, some b, 0)
  | .unit a =>
    if a < Config.lpddr then some (0xA, a / 0x10000, none, unitOf a)
    else
      let b := (a - Config.loftByBay) / Config.sliceStep
      if b < Config.bays ∧ inSlice b a then some (0x9, a / 0x10000, some b, unitOf a) else none
  | .flit n =>
    match s.flight[n]? with
    | some (.tokenArrive m) => some (0xB, m.el, some m.bay, 0)
    | some (.gateEntryToken m) => some (0xB, 128 + m.gate, some m.bay, 0)
    | _ => none
  | .nowhere => none

/-- An uncorrectable error: the unit is poisoned; of a buffer, its line (R175); of a flit, the token it carries (R140). -/
def poisonAt (s : State) : UpsetAt → State
  | .buffer b k i => s.modSite b k fun x =>
      { x with bufs := modAt x.bufs i fun u => if u.st == .empty then u else { u with poi := List.replicate u.data.length true } }
  | .keep b row r => s.modBay b fun y => { y with keepPoi := insertNat (64 * row + r) y.keepPoi }
  | .entry b e g ix slot port => s.modElem b e fun z => { z with rows := z.rows.map fun r =>
      if r.gate = g ∧ r.ix = ix then
        { r with ents := r.ents.map fun w => if w.slot = slot ∧ w.port = port then { w with tok := poisonTok w.tok } else w }
      else r }
  | .operand b e n port => s.modElem b e fun z => { z with issue := modAt z.issue n fun m => m.poisonPort port }
  | .waiting b e n port => s.modElem b e fun z => { z with wait := modAt z.wait n fun m => m.poisonPort port }
  | .unit a =>
    if inLpddr a then { s with pkgBad := insertNat (unitOf a) s.pkgBad } else { s with poison := insertNat (unitOf a) s.poison }
  | .wave b n k => s.modBay b fun y => { y with wave := modAt y.wave n fun w =>
      { w with poi := (List.range w.data.length).map fun i => w.poi.getD i false || i / 8 == k } }
  | .acc b t k => s.modBay b fun y => { y with acc := (y.acc.map fun a =>
      if a.1 = t then (a.1, { a.2 with poi := insertNat (2 * k) (insertNat (2 * k + 1) a.2.poi) }) else a) }
  | .feed b f n => s.modBay b fun y => { y with feeds := (y.feeds.map fun a =>
      if a.1 = f then (a.1, modAt a.2 n fun t => { t with poi := true }) else a) }
  | .flit n => { s with flight := modAt s.flight n poisonFlit }
  | .nowhere => s

/-- A store or an in-bay link makes an error. One in a loft word or a sector is met by an access that reads it or by a scrub, whichever is
first: until then it shows nothing, so it may stand from any step on. -/
def upset (s : State) (u : Upset) : State :=
  match upsetLoc s u.place with
  | none => s
  | some l => if u.fixed then eccCorrected s l.1 l.2.1 l.2.2.1 l.2.2.2 else poisonAt s u.place

/-- The next error that is to come. -/
def nextUpset (s : State) : State :=
  match s.upsets with
  | [] => s
  | u :: us => upset { s with upsets := us } u

/-! ## Scrubbers (R381) -/

/-- Does a request write some of the `n` bytes of LPDDR or of a slice from `a` on? -/
def writesAt (p : Packet) (a n : Nat) : Bool :=
  let pa := p.body 136 52
  let lo := if pa < Config.lpddr then pa else loftKey p.dst (pa % Config.sliceStep)
  let m := if p.kind = 1 then p.body 204 8 + 1 else if p.body 210 1 = 1 then 128 else (Ty.ofCode (BitVec.ofNat 4 (p.body 212 4))).size
  ((p.kind == 1 && (p.body 220 4 == 1 || p.body 220 4 == 2 || p.body 220 4 == 4)) || (p.kind == 3 && p.body 220 4 == 2)) &&
    pa < Config.hostWin && lo < a + n && a < lo + m

/-- The requests that are not answered yet, and the group writes under way. -/
def State.asked (s : State) : List Packet :=
  (s.bays.flatMap fun e => e.2.reqs.map (·.pkt)) ++ (s.packets.filter fun p => p.kind == 3) ++
    s.flight.filterMap fun i => match i with | .gwrite _ p => some p | _ => none

/-- Is a unit under a pending write? A scrubber skips it until its next pass. -/
def writePending (s : State) (a n : Nat) : Bool := s.asked.any fun p => writesAt p a n

/-- LOFT_SCRUB (R381). -/
def execLoftScrub (b off : Nat) (err : UnitErr) (s : State) : Res :=
  .next (if Config.slice ≤ off ∨ Config.bays ≤ b ∨ writePending s (loftKey b (off / 8 * 8)) 8 then s
  else
    let a := loftKey b (off / 8 * 8)
    match err with
    | .clean => s
    | .corrected => eccCorrected s 0x9 (a / 0x10000) (some b) a
    | .uncorrectable => eccDeferred { s with poison := insertNat a s.poison } 0x9 (a / 0x10000) (some b) a)

/-- LPDDR_SCRUB (R381): the package keeps reporting an uncorrectable sector. No bay reports it. -/
def execLpddrScrub (addr : Nat) (err : UnitErr) (s : State) : Res :=
  .next (if Config.lpddr ≤ addr ∨ writePending s (addr / 32 * 32) 32 then s
  else
    let a := addr / 32 * 32
    match err with
    | .clean => s
    | .corrected => eccCorrected s 0xA (a / 0x10000) none a
    | .uncorrectable => eccDeferred { s with pkgBad := insertNat a s.pkgBad } 0xA (a / 0x10000) none a)

end Sys2Proof.Machine
end

