-- ==== Sys2Proof/Machine/RidgeOps.lean ====
section
/-!
DEFINITION. Sys2Proof/Machine/RidgeOps.lean: ldg and stg, 0x8C and 0x8D (R216 to R231): their fire, the group descriptor, and
their issue once the window's address is translated.
-/
namespace Sys2Proof.Machine

open Sys2Proof

/-- LDG (R223, R224): it takes its place in wave order; no site is named. -/
def execLdg (c : Common) (f : FormM) (s : State) : Res :=
  let z := zeroVal c.w false
  fireOp c f .ldg 0x8C (f.ord != .plain) false (off8 f) (some (c.ty.size, c.w, false)) z (.sc 0) s

/-- STG (R223, R227): it pins its instance. -/
def execStg (c : Common) (f : FormM) (s : State) : Res :=
  fireOp c f .stg 0x8D (f.ord != .plain) false (off8 f) (some (c.ty.size, c.w, true)) (.ct 0) (.sc 0) s

/-! ## Descriptors (R217 to R220) -/

/-- A group descriptor. -/
structure GDesc where
  g0 : Word
  g1 : Word
  g2 : Word
  g3 : Word
  deriving DecidableEq, Repr

def GDesc.gvBase (d : GDesc) : Nat := bits d.g1 24 40 * 0x10000
def GDesc.len (d : GDesc) : Nat := (bits d.g1 0 9 + 1) * 0x10000
def GDesc.op (d : GDesc) : Nat := bits d.g2 60 4
def GDesc.ety (d : GDesc) : Ty := Ty.ofCode (d.g2.extractLsb' 56 4)
def GDesc.asat (d : GDesc) : Bool := d.g2.getLsbD 55
def GDesc.omit (d : GDesc) : Bool := d.g2.getLsbD 54
def GDesc.slBase (d : GDesc) : Nat := bits d.g2 0 9 * 0x10000

/-- The accumulation type of an element type (R219). -/
def accTy (t : Ty) : Ty := if t.isFloat || t.isFmt then .f32 else if t.signed then .s32 else .n32

/-- The checks of R220. -/
def GDesc.ok (d : GDesc) : Bool :=
  d.op < 7 && d.ety.inEty && !(4 ≤ d.op && (accTy d.ety == .f32)) &&
  bitsZero d.g1 9 15 && bits d.g1 0 9 < 384 && bitsZero d.g2 9 45 && d.g3 == 0 &&
  !(d.asat && (accTy d.ety == .f32 || d.op != 1)) &&
  bits d.g2 0 9 + bits d.g1 0 9 + 1 ≤ 384

/-- Address of a descriptor table entry (R216). -/
def gdAddr (p : Part) (gdi : Nat) : Nat := bits p.gdtBase 16 36 * 0x10000 + 32 * gdi

def readGDesc (s : State) (a : Nat) : GDesc := ⟨s.readWord a, s.readWord (a + 8), s.readWord (a + 16), s.readWord (a + 24)⟩

/-- The reduction a window forms (R219): RND 00. -/
def ridgeRed (op : Nat) (t : Ty) (asat : Bool) : Red :=
  ⟨op - 1, t, 8 * t.size, accTy t, 32, .rn, asat, 2⟩

/-- Bytes of one member's access (R223). -/
def memberBytes (store : Bool) (c : Common) : Nat :=
  if !c.w then c.ty.size else if store then 128 else 32 * c.ty.size

/-- Is position p of a context ABSENT on this bay's reckoning (R222)? -/
def memberAbsent (s : State) (b : Nat) (cx : CtxRt) (p : Nat) : Bool :=
  match cx.bayAt p with
  | none => true
  | some t => s.offline.contains t || (dieOf t != dieOf b && s.bridgeLost.contains (bayCol t))

/-- The lowest position of a mask. -/
def lowestPos (m : BitVec 64) : Nat := ((List.range 64).find? fun p => m.getLsbD p).getD 0

/-- A group request (R231). -/
def groupRequest (gop : Nat) (d : GDesc) (w : Bool) (b ctx buf t p off : Nat) (value : Word) (bs : List Byte) : Packet :=
  mkPacket 3 t b ctx
    (fieldAt 220 4 gop + fieldAt 216 4 d.op + fieldAt 212 4 d.ety.code.toNat + fieldAt 211 1 d.asat.toNat +
      fieldAt 210 1 w.toNat + fieldAt 203 6 p + fieldAt 188 12 buf +
      fieldAt 136 52 (Config.loftByPos + p * Config.sliceStep + off) + value.toNat) bs false

/-- What group_translate finds: a descriptor and an offset, or a fault (R216, R220, R221, R223). -/
def groupTranslate (s : State) (o : MemOp) (p : Part) (gdi : Nat) :
    Except (Nat × (Word × Word × Word × Word)) (GDesc × Nat) :=
  let a := gdAddr p gdi
  let n := memberBytes (o.kind == .stg) o.c
  let perm : Nat × (Word × Word × Word × Word) := (xPerm, (word o.ea, 0xFF, 3, 0))
  let d := readGDesc s a
  if s.poisoned a 32 then .error (0x20, lpddrLoc a)
  else if !d.ok || (o.kind == .ldg && d.op == 0) || d.ety != o.c.ty then .error perm
  else if o.ea < d.gvBase || d.gvBase + d.len < o.ea + n then .error perm
  else if o.ea % (if o.kind = .stg ∧ o.c.w then 32 else n) ≠ 0 then .error (0x14, (word o.ea, 0xFF, word n, 0))
  else .ok (d, o.ea - d.gvBase)

/-- Send the member requests of a buffer, ascending (R224, R227). -/
def sendMembers (s : State) (b ctx buf : Nat) (d : GDesc) (o : MemOp) (cx : CtxRt) (off : Nat) (members : BitVec 64) : State :=
  let store := o.kind == .stg
  let value : Word := if store && !o.c.w then word ((valWord o.b.val).toNat % 2 ^ (8 * o.c.ty.size)) else 0
  let bs := if store && o.c.w then vecBytes (valVec o.b.val) else []
  (setBits members).foldl (fun s p =>
    match cx.bayAt p with
    | none => s
    | some t => s.emit (groupRequest (if store then 2 else 0) d o.c.w b ctx buf t p (d.slBase + off) value bs)) s

/-- Put an operation back to be issued again by a later change. -/
def opAgain (s : State) (b g ix lsid : Nat) : State := modOp s b g ix lsid fun o => { o with st := .waiting }

/-- Issue a group access whose window address is translated: member states (R222), STRICT (R225), release actions, the
member requests, a reduction buffer (R233). -/
def groupIssue (s : State) (b g ix : Nat) (o : MemOp) (gdi : Nat) : State :=
  let ctx := ctxOf s b g ix
  match s.ctx? b ctx with
  | none => s
  | some cx =>
    match groupTranslate s o (s.part cx.part) gdi with
    | .error (code, d) => opFault s b g ix o code d
    | .ok (d, off) =>
      let absent := BitVec.ofNat 64 (ofBits ((List.range 64).map fun p => d.g0.getLsbD p && memberAbsent s b cx p))
      let members := d.g0 &&& ~~~absent
      if !d.omit && absent != 0 then
        opFault s b g ix o 0x17 (word (lowestPos absent), word off, word gdi, 0)
      else
        let q := if o.kind = .stg ∧ o.f.ord = .rel then releaseActions s b ctx o.scope else (true, s)
        match q.1, freeRed (q.2.bay b) with
        | true, some buf =>
          let r : RedBuf :=
            { store := o.kind == .stg, gate := g, ix := ix, lsid := o.lsid, ctx := ctx, va := o.ea, map := cx.map, g0 := d.g0, g1 := d.g1, g2 := d.g2
              desc := gdi, off := off, members := members, absent := absent, pend := members, poisoned := 0, gone := 0
              parts := [], dead := false, since := (s.bay b).clk }
          sendMembers (q.2.modBay b fun y => { y with reds := AMap.set y.reds buf r }) b ctx buf d o cx off members
        | _, _ => opAgain q.2 b g ix o.lsid

end Sys2Proof.Machine
end

