-- ==== Sys2Proof/Machine/NetEvents.lean ====
section
/-!
DEFINITION. Sys2Proof/Machine/NetEvents.lean: the ring networks (R134 to R153): PACKET_ARRIVE, PACKET_SEND, CREDIT_RETURN,
BOUNDARY_TOKEN_SEND, and the combine units (R232).
-/
namespace Sys2Proof.Machine

open Sys2Proof

/-! ## Rings (R134 to R136) -/

/-- Stops of a ring. -/
def ringLen : Ring → Nat
  | .row => 8
  | .col => 10

/-- The stop of a bay on a ring. -/
def stopNo (ring : Ring) (b : Nat) : Nat :=
  match ring with
  | .row => bayCol b
  | .col => bayRow b % 10

/-- The bay of stop k on the ring of bay b. -/
def bayOfStop (ring : Ring) (b k : Nat) : Nat :=
  match ring with
  | .row => bayRow b * 8 + k
  | .col => dieOf b * 80 + k * 8 + bayCol b

/-- The bay of a bridge stop's partner. -/
def acrossBridge (b : Nat) : Nat := if b < 80 then b + 80 else b - 80

/-- The next bay from b. -/
def nextBay (ring : Ring) (dir : Dir) (b : Nat) : Nat :=
  let n := ringLen ring
  match dir with
  | .cw => bayOfStop ring b ((stopNo ring b + 1) % n)
  | .ccw => bayOfStop ring b ((stopNo ring b + n - 1) % n)
  | .bridge => acrossBridge b

/-- The bay that feeds the input port of a direction. -/
def prevBay (ring : Ring) (dir : Dir) (b : Nat) : Nat :=
  match dir with
  | .cw => nextBay ring .ccw b
  | .ccw => nextBay ring .cw b
  | .bridge => acrossBridge b

/-- Does the hop out of b cross the dateline (R134)? -/
def crossesDateline (ring : Ring) (dir : Dir) (b : Nat) : Bool :=
  match dir with
  | .cw => stopNo ring b + 1 == ringLen ring
  | .ccw => stopNo ring b == 0
  | .bridge => false

/-- The direction code of a context on a ring, as the packet's bays hold it (R136). -/
def dirCode (s : State) (ring : Ring) (p : Packet) : Nat :=
  match (s.ctx? p.src p.ctx).orElse fun _ => s.ctx? p.dst p.ctx with
  | none => 0
  | some c => match ring with
    | .row => c.rowDir
    | .col => c.colDir

/-- The direction on entering a ring at stop `k` for stop `t`. -/
def enterDir (code n k t : Nat) : Dir :=
  let f := (t + n - k) % n
  if code = 1 then .cw else if code = 2 then .ccw else if f ≤ n - f then .cw else .ccw

/-- Where a packet at a stop goes: it is home, it turns into the column ring, or it leaves by an output. `came` is the
direction it travels in on this ring, none when it enters here (R135). -/
inductive Way where
  | eject
  | turn
  | out (d : Dir)
  deriving DecidableEq, Repr

def wayOf (s : State) (ring : Ring) (b : Nat) (came : Option Dir) (p : Packet) : Way :=
  let go (t : Nat) : Way := .out (came.getD (enterDir (dirCode s ring p) (ringLen ring) (stopNo ring b) t))
  match ring with
  | .row => if bayCol b != bayCol p.dst then go (bayCol p.dst) else if p.dst = b then .eject else .turn
  | .col =>
    if dieOf b = dieOf p.dst then (if p.dst = b then .eject else go (bayRow p.dst % 10))
    else if stopNo .col b = 9 then .out .bridge
    else go 9

/-! ## Ports and counts -/

def State.stopAt (s : State) (ring : Ring) (b : Nat) : Stop :=
  match ring with
  | .row => (s.bay b).rowStop
  | .col => (s.bay b).colStop

def State.modStop (s : State) (ring : Ring) (b : Nat) (f : Stop → Stop) : State :=
  s.modBay b fun y => match ring with
    | .row => { y with rowStop := f y.rowStop }
    | .col => { y with colStop := f y.colStop }

def Stop.port (t : Stop) : Dir → List Packet
  | .cw => t.inCw
  | .ccw => t.inCcw
  | .bridge => t.inBr

def Stop.setPort (t : Stop) (d : Dir) (l : List Packet) : Stop :=
  match d with
  | .cw => { t with inCw := l }
  | .ccw => { t with inCcw := l }
  | .bridge => { t with inBr := l }

def Stop.counts (t : Stop) : Dir → Counts
  | .cw => t.outCw
  | .ccw => t.outCcw
  | .bridge => t.outBr

def Stop.setCounts (t : Stop) (d : Dir) (c : Counts) : Stop :=
  match d with
  | .cw => { t with outCw := c }
  | .ccw => { t with outCcw := c }
  | .bridge => { t with outBr := c }

def Stop.rr (t : Stop) : Dir → Nat
  | .cw => t.rrCw
  | .ccw => t.rrCcw
  | .bridge => t.rrBr

def Stop.setRr (t : Stop) (d : Dir) (n : Nat) : Stop :=
  match d with
  | .cw => { t with rrCw := n }
  | .ccw => { t with rrCcw := n }
  | .bridge => { t with rrBr := n }

/-- The direction of travel a packet keeps that waits in an input port; none when it came over the bridge. -/
def portCame : Dir → Option Dir
  | .cw => some .cw
  | .ccw => some .ccw
  | .bridge => none

/-- Reserve the slots of a packet (R144). -/
def Counts.reserve (c : Counts) (vc n : Nat) : Counts :=
  if vc = 0 then { c with shfree := c.shfree - n, v0held := c.v0held + n }
  else if vc = 1 then { c with shfree := c.shfree - n }
  else if vc = 2 then { c with escfree := c.escfree - n }
  else { c with trfree := c.trfree - n }

/-- One credit (R144); a count does not leave its range. -/
def Counts.credit (c : Counts) : CreditClass → Counts
  | .vc0 => { c with shfree := min 16 (c.shfree + 1), v0held := c.v0held - 1 }
  | .vc1 => { c with shfree := min 16 (c.shfree + 1) }
  | .vc2 => { c with escfree := min 5 (c.escfree + 1) }
  | .vc3 => { c with trfree := min 5 (c.trfree + 1) }

/-- choose (R143): the channel at the downstream port, none to wait. -/
def chooseVc (c : Counts) (dl crossing : Bool) (len : Nat) : Option Nat :=
  if dl || crossing then (if len ≤ c.shfree then some 1 else none)
  else if len ≤ c.shfree && c.v0held + len ≤ 11 then some 0
  else if len ≤ c.escfree then some 2
  else none

/-- Room for a packet that keeps its channel over a bridge (R148). -/
def bridgeVc (c : Counts) (vc len : Nat) : Option Nat :=
  if vc = 0 then (if len ≤ c.shfree && c.v0held + len ≤ 11 then some 0 else none)
  else if vc = 1 then (if len ≤ c.shfree then some 1 else none)
  else (if len ≤ c.escfree then some 2 else none)

/-- The channel a packet would take out of a stop; a trace packet takes trace slots only (R142). -/
def outVc (t : Stop) (ring : Ring) (b : Nat) (d : Dir) (p : Packet) : Option Nat :=
  let c := t.counts d
  if p.kind = 5 then (if p.len ≤ c.trfree then some 3 else none)
  else if d = .bridge then bridgeVc c p.vc p.len
  else chooseVc c p.dl (crossesDateline ring d b) p.len

/-- Shared flits an input port holds (R150). -/
def sharedFlits (l : List Packet) : Nat := l.foldl (fun n p => if p.vc < 2 then n + p.len else n) 0

/-- MARK, as a request leaves the port it waited in (R150). -/
def markLeaving (l : List Packet) (p : Packet) : Packet := if p.isReq && 12 < sharedFlits l then p.setMark else p

def creditOf (vc : Nat) : CreditClass := if vc = 0 then .vc0 else if vc = 1 then .vc1 else if vc = 2 then .vc2 else .vc3

/-- Return the credits of a packet that leaves an input port (R144). -/
def returnCredits (s : State) (ring : Ring) (b : Nat) (d : Dir) (p : Packet) : State :=
  (List.range p.len).foldl (fun s _ => s.send (.creditReturn ⟨prevBay ring d b, ring, d⟩ (creditOf p.vc))) s

/-- The place of the first packet of a channel in a port. -/
def headOf (l : List Packet) (vc : Nat) : Option Nat := placeOf (fun p : Packet => p.vc == vc) l 0

/-- A packet that enters a ring (R135). -/
def enterRing (p : Packet) : Packet := { p.setDl false with vc := if p.kind = 5 then 3 else 0 }

/-- The head of a channel of an input port leaves it without a link where it can: it is ejected, joins the turn queue while its 10 flits
have room (R141), or goes to the boundary element (R149). A TRACE packet turns from its trace slots (R153). -/
def settleHead (ring : Ring) (b : Nat) (d : Dir) (s : State) (vc : Nat) : State :=
  let l := (s.stopAt ring b).port d
  match headOf l vc with
  | none => s
  | some i =>
    let p := l.getD i default
    let q := markLeaving l p
    let gone (s : State) : State := returnCredits (s.modStop ring b fun t => t.setPort d (dropAt l i)) ring b d p
    match wayOf s ring b (portCame d) p with
    | .eject => gone (s.handOver b q)
    | .turn =>
      if vc ≠ 3 && queueFlits (s.stopAt .col b).turn + p.len ≤ 10 then
        gone (s.modStop .col b fun t => { t with turn := t.turn ++ [enterRing q] })
      else s
    | .out _ => if forBoundary b p then gone (s.modBay b fun y => { y with boundary := y.boundary ++ [q] }) else s

/-- The heads of the turn queue and of the injection queue of a column stop go to the boundary element where that is their way. -/
def settleQueues (s : State) (b : Nat) : State :=
  let t := s.stopAt .col b
  let mine (l : List Packet) : List Packet := (l.head?.filter (forBoundary b)).toList
  let ts := mine t.turn
  let is := mine t.inject
  (s.modBay b fun y => { y with boundary := y.boundary ++ ts ++ is }).modStop .col b fun t =>
    { t with turn := t.turn.drop ts.length, inject := t.inject.drop is.length }.refill

/-- Settle the heads of a bay's stops as far as it goes. -/
def settle (s : State) (b : Nat) : State :=
  (List.range ((s.stopAt .row b).packets.length + (s.stopAt .col b).packets.length)).foldl (fun s _ =>
    let port (s : State) (e : Ring × Dir) : State := [0, 1, 2, 3].foldl (settleHead e.1 b e.2) s
    settleQueues ([(Ring.row, Dir.cw), (.row, .ccw), (.col, .cw), (.col, .ccw), (.col, .bridge)].foldl port s) b) s

/-! ## Arrival (R140) -/

/-- The index of a link location: stop, ring and direction. -/
def linkIndex (e : LinkEnd) : Nat :=
  e.bay * 8 + (match e.ring with | .row => 0 | .col => 4) + (match e.dir with | .cw => 0 | .ccw => 1 | .bridge => 2)

def linkLoc (e : LinkEnd) : Nat := if e.dir = .bridge then 0xD else 0xC

/-- A dropped packet is named on the physical function's queue (R140). -/
def dropRecord (s : State) (e : LinkEnd) (p : Packet) : State :=
  let r := { RecBody.blank 0x20 0 with
    bay := some e.bay, cyc := (s.bay e.bay).clk, d0 := locWord 0xC (linkIndex e)
    d2 := word (p.ctx + p.src * 256 + p.dst * 65536) }
  { s with pf := s.pf.create (.fault r) }

/-- A packet has passed its checks: it waits in its port behind those of its channel (R146), and goes as far as it can. The bay takes
what is for it without bound (log 79). -/
def takeIn (s : State) (e : LinkEnd) (p : Packet) : State :=
  let p := if e.dir = .bridge then p.setDl false else p
  settle (s.modStop e.ring e.bay fun t => t.setPort e.dir (t.port e.dir ++ [p])) e.bay

/-- A packet whose payload flits of the given numbers are forwarded with a poison mark (R140): of the bytes of memory that a request or a
reply carries, the 32 of each flit are marked; any other packet carries one value, and that is. -/
def strike (p : Packet) (bad : List Nat) : Packet :=
  if bad.isEmpty then p
  else if p.kind = 1 ∨ p.kind = 2 ∨ (p.kind = 3 ∧ p.body 220 4 = 2) then
    { p with marks := p.marks ++ bad.flatMap fun k => (List.range 32).map fun i => 32 * k + i }
  else { p with poi := true }

/-- Each flit that a stop corrects counts (R140, R382). -/
def countFlits (s : State) (e : LinkEnd) (errs : List FlitErr) : State :=
  errs.foldl (fun s f => if f = .corrected then eccCorrected s (linkLoc e) (linkIndex e) (some e.bay) 0 else s) s

/-- PACKET_ARRIVE (R140): `errs` is what the stop finds in each flit of the packet, its header first. -/
def execPacketArrive (e : LinkEnd) (p : Packet) (errs : List FlitErr) (s : State) : Res :=
  .next (
    let s := countFlits s e errs
    if errs.headD .none = .bad || !headerOk p then returnCredits (dropRecord s e p) e.ring e.bay e.dir p
    else takeIn s e (strike p ((List.range p.pay.length).filter fun k => errs.getD (k + 1) .none = .bad)))

/-! ## Sending (R143, R145, R153) -/

/-- Where a packet to be sent waits. -/
inductive From where
  | port (d : Dir) (i : Nat)
  | turn
  | inject
  | boundary
  | turning (d : Dir) (i : Nat)
  | trace
  deriving DecidableEq, Repr

/-- The head of channel `vc` in a port, if its way is output `d` and it can go. -/
def portCand (s : State) (ring : Ring) (b : Nat) (d : Dir) (vc : Nat) (pd : Dir) : Option (From × Packet × Nat) :=
  let t := s.stopAt ring b
  match headOf (t.port pd) vc with
  | none => none
  | some i =>
    let p := (t.port pd).getD i default
    if wayOf s ring b (portCame pd) p = .out d && !forBoundary b p then (outVc t ring b d p).map fun v => (.port pd i, p, v) else none

/-- The head of a queue, if its way is output `d` and it can go. -/
def queueCand (s : State) (ring : Ring) (b : Nat) (d : Dir) (f : From) (l : List Packet) : Option (From × Packet × Nat) :=
  match l with
  | [] => none
  | p :: _ =>
    let p := if f = .turn then p else enterRing p
    if wayOf s ring b none p = .out d && !forBoundary b p then (outVc (s.stopAt ring b) ring b d p).map fun v => (f, p, v) else none

/-- The first head of a channel over the ports; the order of the ports is the model's (log 79). -/
def firstHead (s : State) (ring : Ring) (b : Nat) (d : Dir) (vc : Nat) : Option (From × Packet × Nat) :=
  [Dir.cw, Dir.ccw, Dir.bridge].findSome? (portCand s ring b d vc)

/-- The head of the boundary element's queue, for the bridge: it goes as a VC0 head does (R149). -/
def boundaryCand (s : State) (ring : Ring) (b : Nat) (d : Dir) : Option (From × Packet × Nat) :=
  if ring = .col ∧ d = .bridge then
    (s.bay b).boundary.head?.bind fun p => (bridgeVc (s.stopAt .col b).outBr 0 p.len).map fun v => (.boundary, p, v)
  else none

/-- A TRACE packet at the head of a row port's trace slots that turns to an output of the column ring (R153). -/
def turningCand (s : State) (ring : Ring) (b : Nat) (d : Dir) : Option (From × Packet × Nat) :=
  if ring = .col then
    [Dir.cw, Dir.ccw].findSome? fun pd =>
      let l := (s.stopAt .row b).port pd
      (headOf l 3).bind fun i =>
        let p := l.getD i default
        if wayOf s .row b (portCame pd) p = .turn ∧ wayOf s .col b none (enterRing p) = .out d then
          (outVc (s.stopAt .col b) .col b d p).map fun v => (.turning pd i, p, v)
        else none
  else none

/-- The round-robin choice among the VC0 head, the turn queue and the injection queue, from class `k` on, with the
class chosen. -/
def roundRobin (s : State) (ring : Ring) (b : Nat) (d : Dir) (k : Nat) : Option (Nat × (From × Packet × Nat)) :=
  let t := s.stopAt ring b
  [k % 3, (k + 1) % 3, (k + 2) % 3].findSome? fun j =>
    (match j with
      | 0 => (boundaryCand s ring b d).orElse fun _ => firstHead s ring b d 0
      | 1 => queueCand s ring b d .turn t.turn
      | _ => queueCand s ring b d .inject t.inject).map fun c => (j, c)

/-- The packet an output takes next (R145): source, packet, channel, round-robin class. -/
def nextOut (s : State) (ring : Ring) (b : Nat) (d : Dir) : Option (From × Packet × Nat × Option Nat) :=
  let t := s.stopAt ring b
  ((firstHead s ring b d 2).map fun c => (c.1, c.2.1, c.2.2, none))
  |>.orElse (fun _ => (firstHead s ring b d 1).map fun c => (c.1, c.2.1, c.2.2, none))
  |>.orElse (fun _ => (roundRobin s ring b d (t.rr d)).map fun e => (e.2.1, e.2.2.1, e.2.2.2, some e.1))
  |>.orElse (fun _ => (firstHead s ring b d 3).map fun c => (c.1, c.2.1, c.2.2, none))
  |>.orElse (fun _ => (turningCand s ring b d).map fun c => (c.1, c.2.1, c.2.2, none))
  |>.orElse (fun _ => (queueCand s ring b d .trace t.trace).map fun c => (c.1, c.2.1, c.2.2, none))

/-- Take a packet from where it waits; a port gets its slots back. -/
def takeFrom (s : State) (ring : Ring) (b : Nat) (f : From) (p : Packet) : Packet × State :=
  match f with
  | .port pd i =>
    let l := (s.stopAt ring b).port pd
    (markLeaving l p, returnCredits (s.modStop ring b fun t => t.setPort pd (dropAt l i)) ring b pd p)
  | .turn => (p, s.modStop ring b fun t => { t with turn := t.turn.tail })
  | .inject => (p, s.modStop ring b fun t => { t with inject := t.inject.tail }.refill)
  | .boundary => (p, s.modBay b fun y => { y with boundary := y.boundary.tail })
  | .turning pd i =>
    let l := (s.stopAt .row b).port pd
    (enterRing p, returnCredits (s.modStop .row b fun t => t.setPort pd (dropAt l i)) .row b pd p)
  | .trace => (p, s.modStop ring b fun t => { t with trace := t.trace.tail })

/-- What a link does to the flits of the packet that crosses it (R140): nothing unless the state says so. -/
def linkError (s : State) (n : Nat) : List FlitErr × State := (s.flitErrs.take n, { s with flitErrs := s.flitErrs.drop n })

/-- Put a packet on a link: slots are reserved downstream, and it arrives there (R143, R144). -/
def launchPacket (s : State) (e : LinkEnd) (p : Packet) (vc : Nat) : State :=
  let s := s.modStop e.ring e.bay fun t => t.setCounts e.dir ((t.counts e.dir).reserve vc p.len)
  let p := { (if crossesDateline e.ring e.dir e.bay then p.setDl true else p) with vc := vc }
  let q := linkError s p.len
  q.2.send (.packetArrive ⟨nextBay e.ring e.dir e.bay, e.ring, e.dir⟩ p q.1)

/-- Send what an output takes next on its link; the round robin goes on from its class. -/
def sendNext (s : State) (e : LinkEnd) (f : From) (p : Packet) (vc : Nat) (k : Option Nat) : State :=
  let q := takeFrom s e.ring e.bay f p
  let s := match k with
    | none => q.2
    | some j => q.2.modStop e.ring e.bay fun t => t.setRr e.dir ((j + 1) % 3)
  settle (launchPacket s e q.1 vc) e.bay

/-- PACKET_SEND (R143, R145): what the output takes next, unless the boundary element sends it. -/
def execPacketSend (e : LinkEnd) (s : State) : Res :=
  .next (match nextOut s e.ring e.bay e.dir with
  | none | some (.boundary, _) => s
  | some (f, p, vc, k) => sendNext s e f p vc k)

/-- CREDIT_RETURN (R144). -/
def execCreditReturn (e : LinkEnd) (c : CreditClass) (s : State) : Res :=
  .next (s.modStop e.ring e.bay fun t => t.setCounts e.dir ((t.counts e.dir).credit c))

/-- BOUNDARY_TOKEN_SEND (R149): the bridge takes the head of the boundary element's queue. -/
def execBoundaryTokenSend (b : Nat) (s : State) : Res :=
  .next (match nextOut s .col b .bridge with
  | some (.boundary, p, vc, k) => sendNext s ⟨b, .col, .bridge⟩ .boundary p vc k
  | _ => s)

/-! ## Combine units (R232) -/

/-- Do two packets carry sibling partials of one reduction? -/
def siblingsAt (p q : Packet) : Bool :=
  p.kind == 3 && q.kind == 3 && p.body 220 4 == 1 && q.body 220 4 == 1 && p.dst == q.dst && p.ctx == q.ctx &&
  p.rqid == q.rqid && p.body 200 3 == q.body 200 3 &&
  (let n := 2 ^ p.body 200 3
   let lo := min (p.body 203 6) (q.body 203 6)
   lo % (2 * n) == 0 && max (p.body 203 6) (q.body 203 6) == lo + n) &&
  (p.body 68 4 == 0 || q.body 68 4 == 0 || p.body 68 4 == q.body 68 4)

/-- The lanes of a partial. -/
def gpartVal (p : Packet) : Option (List Word) :=
  if p.body 209 1 = 1 then none
  else if p.body 210 1 = 1 then some ((lanesOf 32 (bytesVec p.bytes)).map word)
  else some [word (p.body 0 32)]

/-- The node rule on lanes. -/
def joinLanes (r : Red) : Option (List Word) → Option (List Word) → Option (List Word) :=
  joinNode fun x y => (List.range x.length).map fun i => word (r.combine (x.getD i 0).toNat (y.getD i 0).toNat)

/-- The reduction a GROUP packet names. -/
def packetRed (p : Packet) : Red := ridgeRed (p.body 216 4) (Ty.ofCode (BitVec.ofNat 4 (p.body 212 4))) (p.body 211 1 == 1)

/-- A GPART packet with a value put in. -/
def gpartPacket (dst src ctx op ety asat w rqid lo lvl stat : Nat) (v : Option (List Word)) (omask : Nat) : Packet :=
  let l := v.getD []
  mkPacket 3 dst src ctx
    (fieldAt 220 4 1 + fieldAt 216 4 op + fieldAt 212 4 ety + fieldAt 211 1 asat + fieldAt 210 1 w +
      fieldAt 209 1 (if v.isNone then 1 else 0) + fieldAt 203 6 lo + fieldAt 200 3 lvl + fieldAt 188 12 rqid +
      fieldAt 72 64 omask + fieldAt 68 4 stat + (if w = 1 then 0 else (l.headD 0).toNat % 2 ^ 32))
    (if w = 1 then vecBytes (ofLanes 32 (l.map (·.toNat))) else []) false

/-- The merged packet: it keeps the channel and the ECHO of the one it replaces (log 71), and takes the merging stop's bay as SRC. -/
def mergeParts (b : Nat) (p q : Packet) : Packet :=
  let lo := if p.body 203 6 < q.body 203 6 then p else q
  let hi := if p.body 203 6 < q.body 203 6 then q else p
  let m := gpartPacket p.dst b p.ctx (p.body 216 4) (p.body 212 4) (p.body 211 1) (p.body 210 1) p.rqid (lo.body 203 6)
    (p.body 200 3 + 1) (max (p.body 68 4) (q.body 68 4)) (joinLanes (packetRed p) (gpartVal lo) (gpartVal hi))
    (lo.body 72 64 ||| hi.body 72 64)
  { m with hdr := flitPut m.hdr 246 2 (bits p.hdr 246 2), vc := p.vc, poi := p.poi || q.poi }

/-- The place of a sibling of `p` in the input queues of a stop. -/
def siblingIn (t : Stop) (skip : Dir) (i : Nat) (p : Packet) : Option (Dir × Nat) :=
  [Dir.cw, Dir.ccw, Dir.bridge].findSome? fun d =>
    (placeOf (fun e : Packet × Nat => siblingsAt p e.1 && !(d == skip && e.2 == i)) ((t.port d).zipIdx) 0).map fun j => (d, j)

/-- A combine unit merges a waiting partial with its sibling; nothing without one. -/
def combineAt (s : State) (e : LinkEnd) (p : Packet) : State :=
  let t := s.stopAt e.ring e.bay
  match placeOf (fun q => q == p) (t.port e.dir) 0 with
  | none => s
  | some i =>
    match siblingIn t e.dir i p with
    | none => s
    | some (d, j) =>
      let q := (t.port d).getD j default
      let t := t.setPort e.dir (setAt (t.port e.dir) i (mergeParts e.bay p q))
      settle (returnCredits (s.modStop e.ring e.bay fun _ => t.setPort d (dropAt (t.port d) j)) e.ring e.bay d q) e.bay

end Sys2Proof.Machine
end

