-- ==== Sys2Proof/Machine/Trace.lean ====
section
/-!
DEFINITION. Sys2Proof/Machine/Trace.lean: trace records (R392 to R395) and the start of a precise stop (R388 to R390).
-/
namespace Sys2Proof.Machine

open Sys2Proof

/-! ## Records -/

/-- Is a kind of record wanted of a context on a bay: bit 7 FIRE, 6 ISLAND, 5 SETTLE, 4 ADMIT; none for the others? -/
def traceWants (s : State) (b ctx : Nat) (bit : Option Nat) : Bool :=
  let t := (s.part (s.partOf b ctx)).tbuf ctx
  t.isOpen && t.closing.isNone && ((s.ctx? b ctx).any fun c => c.bound.isSome) && (match bit with | none => true | some k => t.ctl.getLsbD k)

/-- Where a record comes from: element, context-relative slot, gate, hitch, index. -/
structure TraceAt where
  el   : Nat
  slot : Nat
  gate : Nat
  hnum : Nat
  ix   : Nat
  tag  : Word
  deriving DecidableEq, Repr

def noPlace : TraceAt := ⟨0, 0, 0, 0, 0, 0⟩

/-- W2 (R393). -/
def traceW2 (b ctx pos : Nat) (p : TraceAt) : Word :=
  word (pos % 128 * 2 ^ 39 + p.slot % 32 * 2 ^ 34 + p.ix % 256 * 2 ^ 26 + p.hnum % 32 * 2 ^ 21 + p.gate % 8 * 2 ^ 18 +
    p.el % 128 * 2 ^ 11 + ctx % 8 * 2 ^ 8 + b % 256)

/-- Records that a bay still holds to be sent: at most 32 (R395). -/
def traceHeld (y : Bay) (b : Nat) : Nat := ((y.rowStop.trace ++ y.colStop.trace).filter fun p => p.src == b).length

/-- The bytes of words. -/
def wordsBytes (l : List Word) : List Byte := l.flatMap fun w => leBytes 8 w.toNat

/-- One record goes to the origin as a TRACE packet (R395). -/
def sendTrace (s : State) (b ctx : Nat) (c : CtxRt) (r : TraceRec) : State :=
  s.emit { mkPacket 5 c.origin b ctx 0 (wordsBytes r) false with vc := 3 }

/-- A bay makes a record. It takes a SEQ; with its queue full it is lost and counted, and the next one kept is preceded by
a LOST record (R395). -/
def putTrace (s : State) (b ctx kind : Nat) (p : TraceAt) (body : List Word) : State :=
  match s.ctx? b ctx with
  | none => s
  | some c =>
    let cyc := word ((s.bay b).clk - c.since)
    let full := 32 ≤ traceHeld (s.bay b) b + (if c.trLost = 0 then 0 else 1)
    if full then
      (s.modCtx b ctx fun c => { c with trSeq := c.trSeq + 1, trLost := c.trLost + 1 }).loseTrace c.part ctx c.origin id
    else
      let n := if c.trLost = 0 then 0 else 1
      let s := if c.trLost = 0 then s
        else sendTrace s b ctx c (traceRecord c.trSeq 7 cyc (traceW2 b ctx c.position noPlace) 0 [word c.trLost])
      let s := s.modCtx b ctx fun c => { c with trSeq := c.trSeq + n + 1, trLost := 0 }
      sendTrace s b ctx c (traceRecord (c.trSeq + n) kind cyc (traceW2 b ctx c.position p) p.tag body)

/-- A value as a record shows it (R377, R394). -/
def traceValue (s : State) (b ctx : Nat) (v : Word) : Word := if (s.part (s.partOf b ctx)).hidesCap then 0 else v

/-- The place of a slot's record about an instance; the slot number is context-relative (R393). -/
def traceSlotAt (s : State) (b ctx el slot gate ix : Nat) (tag : Word) : TraceAt :=
  let c := s.slot b el slot
  let base := ((s.hitch? b gate ctx c.hnum).map fun x => x.slotAt.getD c.se 0).getD 0
  ⟨el, slot - base, gate, c.hnum, ix, tag⟩

/-- The place of a matched set. -/
def traceAtOf (s : State) (b : Nat) (m : MSet) : TraceAt := traceSlotAt s b m.ctx m.el m.slot m.gate m.ix (ownTag s b m)

/-- A record about an instance. -/
def traceInst (s : State) (b g ix kind bit : Nat) (body : List Word) : State :=
  match s.inst? b g ix with
  | none => s
  | some i => if traceWants s b i.ctx (some bit) then putTrace s b i.ctx kind ⟨0, 0, g, i.hnum, ix, i.tag⟩ body else s

/-- An ISLAND record: 0 accepted, 1 retired (R394). -/
def traceIsland (s : State) (b : Nat) (k : IslCmd) (what : Nat) : State :=
  if traceWants s b k.ctx (some 6) then
    putTrace s b k.ctx 5 (traceSlotAt s b k.ctx k.el k.slot k.gate k.ix k.tag)
      [word (what + (match k.f.isl with | .mx => 0 | .sn => 1 | .ss => 2) * 4 + k.f.iport.toNat * 16 + k.f.rcp.toNat * 256)]
  else s

/-! ## Precise stops -/

/-- Is a stop running, or the region frozen, on this bay's reckoning (R388, R391)? -/
def stopBars (c : CtxRt) : Bool := c.stopRun || c.frozen

/-- Discard what a stop discards on one bay: every unpinned LIVE instance of the context but the break instance (R390). -/
def stopBay (ctx : Nat) (brk : Option (Nat × Nat)) (s : State) (b : Nat) : State :=
  let s := s.modCtx b ctx fun c => { c with stopRun := true, brkInst := brk }
  s.modBay b fun y =>
    { y with gates := y.gates.map fun e =>
        (e.1, { e.2 with insts := e.2.insts.map fun j =>
          if j.2.ctx == ctx && j.2.st == .live && !j.2.pinned && !(brk == some (e.1, j.1)) then
            (j.1, { j.2 with discard := true, replayed := !j.2.discard })
          else j }) }

/-- Begin a precise stop of a context's region: the BREAK record waits until it is complete (R390). -/
def beginStop (s : State) (b ctx g ix : Nat) (r : RecBody) : State :=
  match s.ctx? b ctx with
  | none => s
  | some c =>
    match c.bound with
    | none => s
    | some h =>
      let s := (s.regionBays c.part ctx h).foldl (fun s t => stopBay ctx (if t = b then some (g, ix) else none) s t) s
      s.modLaunch c.part h fun l => { l with brk := some r, quiet := false, wave := none, lastSum := none }

end Sys2Proof.Machine
end

