-- ==== Sys2Proof/Machine/IslandOps.lean ====
section
/-!
DEFINITION. Sys2Proof/Machine/IslandOps.lean: the island commands, 0xB0 to 0xBA (R234 to R238): a slot that fires sends its
command to its port; the islands do the rest (Sys2Proof/Machine/IslandEvents.lean).
-/
namespace Sys2Proof.Machine

open Sys2Proof

/-- Is an instruction of an instance that R33 pins held back by a lower instance of its strand (R202)? -/
def heldBack (s : State) (b : Nat) (m : MSet) : Bool :=
  match (s.inst? b m.gate m.ix).bind fun i => s.hitch? b m.gate i.ctx i.hnum with
  | none => false
  | some h => h.seq && !s.lowerDone b m.gate m.ix

def Isl.code : Isl → Nat
  | .mx => 0 | .sn => 1 | .ss => 2

/-- The scalar a command takes from a port (R234). -/
def portWord (k : Option Token) : Word := (k.map fun t => valWord t.val).getD 0

/-- An instruction that R33 pins: a null pins all the same; held back it waits with its frame row. -/
def firePinned (c : Common) (n0 n1 : Val) (go : Nat → MSet → State → State) (s : State) : Res :=
  .next (fireSlot c (fun b m s => sendNulls c n0 n1 b m (pinInst b m s)) (fun b m s =>
    if heldBack s b m then waitSet b m s else go b m (pinInst b m s)) s)

/-- An island command: it goes to its port (R235, R236). `n1` is the network of T1. -/
def fireIsland (op : Nat) (c : Common) (f : FormI) (n1 : Val) (s : State) : Res :=
  firePinned c (.ct 0) n1 (fun b m s =>
    let k : IslCmd :=
      { op := op, c := c, f := f, el := m.el, slot := m.slot, ctx := m.ctx, gate := m.gate, ix := m.ix, tag := ownTag s b m
        a := portWord m.a, b := portWord m.b, cc := portWord m.c, stop := false }
    s.modPort b (Isl.code f.isl) f.iport.toNat fun q => { q with net := q.net ++ [k] }) s

/-- MMA (R243). -/
def execMma (c : Common) (f : FormI) (s : State) : Res := fireIsland 0xB0 c f (.ct 0) s
/-- MMAQ (R243). -/
def execMmaq (c : Common) (f : FormI) (s : State) : Res := fireIsland 0xB1 c f (.ct 0) s
/-- ACLR (R244). -/
def execAclr (c : Common) (f : FormI) (s : State) : Res := fireIsland 0xB2 c f (.ct 0) s
/-- ADRN (R246). -/
def execAdrn (c : Common) (f : FormI) (s : State) : Res := fireIsland 0xB3 c f (.ct 0) s
/-- SCOPY (R250). -/
def execScopy (c : Common) (f : FormI) (s : State) : Res := fireIsland 0xB4 c f (.ct 0) s
/-- SGATH (R252): T1 is the zero-filled count, a scalar. -/
def execSgath (c : Common) (f : FormI) (s : State) : Res := fireIsland 0xB5 c f (.sc 0) s
/-- SSCAT (R252): T1 is the skipped count. -/
def execSscat (c : Common) (f : FormI) (s : State) : Res := fireIsland 0xB6 c f (.sc 0) s
/-- STRN (R255). -/
def execStrn (c : Common) (f : FormI) (s : State) : Res := fireIsland 0xB7 c f (.ct 0) s
/-- SLAY (R256). -/
def execSlay (c : Common) (f : FormI) (s : State) : Res := fireIsland 0xB8 c f (.ct 0) s
/-- SPEER (R257). -/
def execSpeer (c : Common) (f : FormI) (s : State) : Res := fireIsland 0xB9 c f (.ct 0) s
/-- SSTOP (R258). -/
def execSstop (c : Common) (f : FormI) (s : State) : Res := fireIsland 0xBA c f (.ct 0) s

end Sys2Proof.Machine
end

