-- ==== Sys2Proof/Machine/Seeds.lean ====
section
/-!
DEFINITION. Sys2Proof/Machine/Seeds.lean: seeds to a launch, from the host and from seed slots (R42, R269, R317, R318).
-/
namespace Sys2Proof.Machine

open Sys2Proof

/-- A hitch of an object as a header. -/
def ObjHitch.cfg (o : ObjHitch) : HitchCfg :=
  { words := o.words, poison := false, ctx := 0, ixBase := 0, frames := [], slotAt := [], nw := 0, lsids := [], mem := false
    lim := 0, latCnt := 0, latSum := 0, means := [] }

/-- The hitch of an object at a place. -/
def Obj.hitchAt (o : Obj) (pos g h : Nat) : Option ObjHitch :=
  o.hitches.find? fun x => x.pos == pos && x.gate == g && x.hnum == h

/-- The configuration of a launch. -/
def Part.loadedOf (p : Part) (l : Launch) : Option Loaded := (p.configs.find? fun e => e.2.handle == l.cfg).map (·.2)

/-- May a launch take seeds: neither completed nor halted (R269, R314)? -/
def Launch.takesSeeds (l : Launch) : Bool := l.st != .finished && l.halt.isNone

/-- The seed port of a configuration with the header of its hitch. -/
def Loaded.seedPort (c : Loaded) (k : Nat) : Option (SeedEnt × HitchCfg) :=
  (c.obj.seeds[k]?).bind fun e => (c.obj.hitchAt e.pos e.gate e.hnum).map fun h => (e, h.cfg)

/-- Does a seed follow the entry's layout and network (R42)? -/
def seedFits (e : SeedEnt) (h : HitchCfg) (tag : Word) (vector : Bool) : Bool :=
  tagFits h.widths tag && ((h.entNet e.entry == 1) == vector)

/-- The entry token of a seed (R317): the context is set by the hardware. -/
def seedToken (s : State) (n : Nat) (l : Launch) (e : SeedEnt) (h : HitchCfg) (tag : Word) (k : Token) : Option EntMsg :=
  match s.regionBays n l.ctx l.hseq with
  | [] => none
  | b :: _ => ((s.ctx? b l.ctx).bind (·.bayAt e.pos)).map fun t =>
    { bay := t, gate := e.gate, hnum := e.hnum, entry := e.entry, ctx := l.ctx, tag := tagPutCtx tag l.ctx
      tok := { k with val := onNet (h.entNet e.entry) k.val }, chan := none, src := seedSrc }

/-- Send a seed to its entry. -/
def deliverSeed (s : State) (n : Nat) (l : Launch) (port : Nat) (tag : Word) (k : Token) : State :=
  match ((s.part n).loadedOf l).bind (·.seedPort port) with
  | none => s
  | some (e, h) =>
    match seedToken s n l e h tag k with
    | none => s
    | some m => s.send (.gateEntryToken m)

/-- Is a seed delivered at once: the configuration-complete wave has crossed and the launch is not being saved (R318)? -/
def Launch.seedsOpen (l : Launch) : Bool := l.st == .bound

/-- Take an accepted seed: deliver it or hold it. -/
def takeSeed (s : State) (n : Nat) (l : Launch) (hseq : Option Nat) (port : Nat) (tag : Word) (k : Token) : State :=
  if l.seedsOpen then deliverSeed s n l port tag k
  else s.modPart n fun p => { p with seeds := p.seeds ++ [⟨l.hseq, hseq, port, tag, k⟩] }

/-- Release the held seeds of a launch in ascending HSEQ, those of seed slots after them (R318). -/
def releaseSeeds (s : State) (n : Nat) (l : Launch) : State :=
  let own := (s.part n).seeds.filter fun x => x.lseq == l.hseq
  let host := sortBy (fun x : HeldSeed => (x.hseq.getD 0 + 2 ^ 32 - l.hseq) % 2 ^ 32) (own.filter fun x => x.hseq.isSome)
  let s := s.modPart n fun p => { p with seeds := p.seeds.filter fun x => x.lseq != l.hseq }
  (host ++ own.filter fun x => x.hseq.isNone).foldl (fun s x => deliverSeed s n l x.port x.tag x.tok) s

end Sys2Proof.Machine
end

