-- ==== Sys2Proof/Machine/WorkOps.lean ====
section
/-!
DEFINITION. Sys2Proof/Machine/WorkOps.lean: the work family, 0xC8 to 0xCB: the range unit and seed (R263 to R269).
-/
namespace Sys2Proof.Machine

open Sys2Proof

/-- RNGSET (R266). -/
def execRngset (c : Common) (f : FormS) (s : State) : Res :=
  firePinned c (.ct 0) (.ct 0) (fun b m s =>
    let a := portWord m.a
    let h := portWord m.b
    let s := s.modCtx b m.ctx fun x =>
      { x with rngCur := a, rngHi := if h.toNat < a.toNat then a else h, rngChunk := f.imm15.toNat }
    deliver c (.ct 1) b m s) s

/-- The remaining range. -/
def CtxRt.rngLeft (x : CtxRt) : Nat := x.rngHi.toNat - x.rngCur.toNat

/-- RNGNEXT (R266). -/
def execRngnext (c : Common) (_f : FormS) (s : State) : Res :=
  firePinned c (.sc 0) (.sc 0) (fun b m s =>
    match s.ctx? b m.ctx with
    | none => deliver2 c (.sc 0) (.sc 0) b m s
    | some x =>
      let n := min x.rngChunk x.rngLeft
      deliver2 c (.sc x.rngCur) (.sc (word n)) b m (s.modCtx b m.ctx fun x => { x with rngCur := x.rngCur + word n })) s

/-- The neighbour's position within the region (R267): NBR 0 and 1 along the row, 2 and 3 along the column. -/
def neighbour (x : CtxRt) (nbr : Nat) : Option Nat :=
  let r := x.position / max x.cols 1
  let k := x.position % max x.cols 1
  if nbr < 2 then
    if x.cols < 2 then none else some (r * x.cols + (if nbr = 0 then k + 1 else k + x.cols - 1) % x.cols)
  else
    if x.rows < 2 then none else some ((if nbr = 2 then r + 1 else r + x.rows - 1) % x.rows * x.cols + k)

/-- RNGSTEAL (R266): one STEAL is sent; the GRANT of that bay delivers the count (R265). T1's done goes with it. -/
def execRngsteal (c : Common) (f : FormS) (s : State) : Res :=
  firePinned c (.sc 0) (.ct 0) (fun b m s =>
    match s.ctx? b m.ctx with
    | none => deliver2 c (.sc 0) (.ct 1) b m s
    | some x =>
      if 0 < x.rngLeft || x.rngChunk = 0 then deliver2 c (.sc 0) (.ct 1) b m s
      else
        match (neighbour x (f.imm15.toNat % 4)).bind x.bayAt with
        | none => deliver2 c (.sc 0) (.ct 1) b m s
        | some t =>
          (s.modBay b fun y => { y with steals := y.steals ++ [(m, c, t)] }).emit (workPacket 0 t b m.ctx 0 0 0)) s

/-- The launch a seed slot names: its own for 0xFFFF_FFFF (R269). -/
def seedTarget (s : State) (b : Nat) (m : MSet) (sel : Nat) : Option Launch :=
  match s.ctx? b m.ctx with
  | none => none
  | some x => s.launch? x.part (if sel = 0xFFFFFFFF then x.bound.getD 0 else sel)

/-- The status of a seed and, when it is accepted, its launch (R269). -/
def seedStatus (s : State) (n : Nat) (l : Option Launch) (port : Nat) (tag : Word) (vector : Bool) : Nat :=
  match l.filter (·.takesSeeds) with
  | none => 1
  | some l =>
    match ((s.part n).loadedOf l).bind (·.seedPort port) with
    | none => 3
    | some (e, h) =>
      if !seedFits e h tag vector then 2
      else if !l.seedsOpen && Config.heldSeeds ≤ (s.part n).seeds.length then 4
      else 0

/-- SEED (R269): the release actions at device scope come first; the slot waits while they cannot complete. -/
def execSeed (c : Common) (f : FormS) (s : State) : Res :=
  firePinned c (.ct 0) (.sc 0) (fun b m s =>
    match releaseActions s b m.ctx 3 with
    | (false, s) => waitSet b m s
    | (true, s) =>
      let n := s.partOf b m.ctx
      let l := seedTarget s b m ((portWord m.c).toNat % 2 ^ 32)
      let tag := portWord m.b
      let st := seedStatus s n l f.sreg.toNat tag c.w
      let s := match l with
        | some l => if st = 0 then takeSeed s n l none f.sreg.toNat tag ⟨valA m, false, false⟩ else s
        | none => s
      deliver2 c (.ct 1) (.sc (word st)) b m s) s

end Sys2Proof.Machine
end

