-- ==== Sys2Proof/Machine/SystemOps.lean ====
section
/-!
DEFINITION. Sys2Proof/Machine/SystemOps.lean: the system family, 0xD8 to 0xDE (R270 to R274), and the system registers.
-/
namespace Sys2Proof.Machine

open Sys2Proof

/-! ## System registers (R274) -/

/-- Free instance indices in the block of a hitch. -/
def ixFree (g : Gate) (ctx hn : Nat) (h : HitchCfg) : Nat := h.dmax - (g.insts.filter fun e => e.2.ctx == ctx && e.2.hnum == hn).length

/-- TRACECTL (R274): bit 0 session open, bit 1 value capture allowed. -/
def traceCtl (p : Part) (ctx : Nat) : Nat := (p.tbuf ctx).isOpen.toNat + 2 * (!p.hidesCap).toNat

/-- A register that every context of a bay has, by its number; the two of the issuing hitch aside. -/
def bayReg (s : State) (b ctx : Nat) (c : CtxRt) (sreg : Nat) : Word :=
  let p := s.part c.part
  if 0x60 ≤ sreg ∧ sreg < 0x68 then AMap.getD c.user (sreg - 0x60) 0
  else
    match sreg with
    | 0x00 => word ctx
    | 0x01 => word c.part
    | 0x02 => word c.nbv
    | 0x03 => word c.scopePol
    | 0x04 => word c.bayWin
    | 0x05 => word c.position
    | 0x06 => word (c.rows * 256 + c.cols)
    | 0x07 => word (c.strBase * 256 + c.strCnt)
    | 0x20 => word c.fires
    | 0x21 => word ((s.bay b).clk - c.since)
    | 0x22 => c.waitHist
    | 0x30 => c.rngCur
    | 0x31 => c.rngHi
    | 0x32 => word c.rngChunk
    | 0x40 => (s.bay b).mon.temp.signExtend 64
    | 0x41 => (s.bay b).mon.droopCnt.zeroExtend 64
    | 0x50 => word p.brkEn.toNat
    | 0x51 => word (traceCtl p ctx)
    | _ => 0

/-- What srd reads: LOOPDEPTH and TAGFREE are of the issuing hitch. -/
def readReg (s : State) (b : Nat) (m : MSet) (sreg : Nat) : Word :=
  match s.ctx? b m.ctx with
  | none => 0
  | some c =>
    let hn := hnumOf s b m
    match s.hitch? b m.gate m.ctx hn with
    | none => bayReg s b m.ctx c sreg
    | some h =>
      if sreg = 0x10 then word h.lim
      else if sreg = 0x11 then word (ixFree (s.gate b m.gate) m.ctx hn h)
      else bayReg s b m.ctx c sreg

/-- swr (R274): WAITHIST and USER0 to USER7. -/
def writeReg (c : CtxRt) (sreg : Nat) (v : Word) : CtxRt :=
  if sreg = 0x22 then { c with waitHist := v }
  else if 0x60 ≤ sreg ∧ sreg < 0x68 then { c with user := AMap.set c.user (sreg - 0x60) v }
  else c

/-! ## The slots -/

/-- TRAP (R270): the instance freezes; the slot delivers a on RESUME. -/
def execTrap (c : Common) (f : FormS) (s : State) : Res :=
  .next (fireSlot c (sendNulls c (.sc 0) (.sc 0)) (fun b m s =>
    s.takeFault b m.gate m.ix 0x30 (some m.el) m.slot (word f.imm15.toNat, portWord m.a, 0, 0) (.trap m)) s)

/-- BRK (R271): with BRKEN it holds its set and begins a precise stop; else, and while a stop runs, it acts as mov. -/
def execBrk (c : Common) (f : FormS) (s : State) : Res :=
  .next (fireSlot c (sendNulls c (.sc 0) (.sc 0)) (fun b m s =>
    match s.ctx? b m.ctx with
    | none => deliver c (valA m) b m s
    | some x =>
      if !(s.part x.part).brkEn || stopBars x then deliver c (valA m) b m s
      else
        let r := { s.recOf b m.ctx 0x31 2 with
          gate := m.gate, hnum := hnumOf s b m, ix := m.ix, elem := some m.el, slot := m.slot, tag := ownTag s b m
          d0 := word f.imm15.toNat, d1 := portWord m.a }
        beginStop (s.modCtx b m.ctx fun x => { x with heldSet := some (m, f.imm15.toNat) }) b m.ctx m.gate m.ix r) s)

/-- SRD (R274). -/
def execSrd (c : Common) (f : FormS) (s : State) : Res :=
  fireVals c (fun b m s => let v : Val := .sc (readReg s b m f.sreg.toNat); (v, v)) (.sc 0) (.sc 0) s

/-- SWR (R274): it pins its instance. -/
def execSwr (c : Common) (f : FormS) (s : State) : Res :=
  firePinned c (.ct 0) (.ct 0) (fun b m s =>
    let v := if c.ty = .v then word f.imm15.toNat else portWord m.a
    deliver c (.ct 1) b m (s.modCtx b m.ctx fun x => writeReg x f.sreg.toNat v)) s

/-- MARK (R272): its result travels on the scalar network (R131). -/
def execMark (c : Common) (f : FormS) (s : State) : Res :=
  .next (fireSlot c (sendNulls c (.sc 0) (.sc 0)) (fun b m s =>
    let s :=
      if traceWants s b m.ctx none then
        putTrace s b m.ctx 6 (traceAtOf s b m) [word f.imm15.toNat, traceValue s b m.ctx (portWord m.a)]
      else s
    deliver c (.sc (portWord m.a)) b m s) s)

/-- HALT (R273): the gate holds the request until commit. -/
def execHalt (c : Common) (f : FormS) (s : State) : Res :=
  .next (fireSlot c (sendNulls c (.sc 0) (.sc 0)) (fun b m s =>
    s.modInst b m.gate m.ix fun i => { i with halt := some (i.halt.getD f.imm15.toNat) }) s)

/-- PROBE (R274): a PROBE goes to the position's bay; outside the region a null is delivered. -/
def execProbe (c : Common) (f : FormS) (s : State) : Res :=
  .next (fireSlot c (sendNulls c (.sc 0) (.sc 0)) (fun b m s =>
    match (s.ctx? b m.ctx).bind (·.bayAt ((portWord m.a).toNat % 2 ^ 32)) with
    | none => sendNulls c (.sc 0) (.sc 0) b m s
    | some t =>
      (s.modBay b fun y => { y with probes := y.probes ++ [(m, c, f.sreg.toNat)] }).emit
        (workPacket 2 t b m.ctx f.sreg.toNat 0 0)) s)

end Sys2Proof.Machine
end

