-- ==== Sys2Proof/Machine/GateOps.lean ====
section
/-!
DEFINITION. Sys2Proof/Machine/GateOps.lean: what gates and elements do with instances: entry buffers and admission resources
(R26 to R29), placing tokens in frames (R17, R35), the wait histogram (R398, R399), freeing an instance (R32, R34), halt (R273).
-/
namespace Sys2Proof.Machine

open Sys2Proof

/-! ## Pools (R11, R26, R28) -/

/-- Places of the entry buffer that a context uses. -/
def Gate.placesOf (g : Gate) (ctx : Nat) : Nat := (g.ents.filter fun m => m.ctx == ctx).length

/-- Is there a place for a new-tag token of a context: one of its reserved places, or a shared one (R28)? -/
def entryRoom (y : Bay) (gi ctx : Nat) : Bool :=
  let g := AMap.getD y.gates gi Gate.reset
  let own (c : Nat) : Nat := AMap.getD ((AMap.get? y.ctxs c).map (·.reserved) |>.getD []) (placeKey gi) 0
  let past := (List.range 8).foldl (fun n c => n + (g.placesOf c - own c)) 0
  g.placesOf ctx < own ctx || past + y.reservedSum (placeKey gi) < Config.entryPlaces

/-- What an instance of a hitch takes: part and amount (R26). -/
def HitchCfg.needs (h : HitchCfg) : List (Nat × Nat) :=
  ((List.range h.spanLen).flatMap fun j =>
    let f := h.frames.getD j (0, 0)
    [(rowKey (h.spanEl j), 1), (entKey (h.spanEl j), f.1), (parkKey (h.spanEl j), f.2)]) ++ [(waveKey, h.nw)]

/-- Capacity of a pooled part. -/
def partCap (k : Nat) : Nat :=
  if k < 128 then Config.frameRows else if k < 256 then Config.matchEnts else if k < 384 then Config.parkBufs
  else Config.waveEnts

/-- Shared amounts that live instances have taken of a part. -/
def sharedTaken (y : Bay) (k : Nat) : Nat :=
  y.gates.foldl (fun n g => g.2.insts.foldl (fun n i =>
    if i.2.shared then
      match AMap.get? g.2.hitches (hKey i.2.ctx i.2.hnum) with
      | none => n
      | some h => n + ((h.needs.filter fun e => e.1 == k).foldl (fun n e => n + e.2) 0)
    else n) n) 0

/-- Does the shared pool hold all that an instance needs (R26)? -/
def sharedFits (y : Bay) (h : HitchCfg) : Bool :=
  h.needs.all fun e =>
    let want := (h.needs.filter fun f => f.1 == e.1).foldl (fun n f => n + f.2) 0
    y.reservedSum e.1 + sharedTaken y e.1 + want ≤ partCap e.1

/-! ## Debugging copies (R389) -/

/-- Is a comparator of a context enabled on a bay (R387)? -/
def cmpOn (y : Bay) (ctx : Nat) : Bool := y.cmps.any fun e => e.2.ctl.getLsbD 63 && bits e.2.ctl 60 3 == ctx

/-- Is debugging of a context's region enabled (R389)? -/
def debugOn (s : State) (b ctx : Nat) : Bool :=
  match s.ctx? b ctx with
  | none => false
  | some c =>
    (s.part c.part).brkEn ||
      (match c.bound with
        | none => false
        | some h => (s.regionBays c.part ctx h).any fun t => cmpOn (s.bay t) ctx)

/-- Scalar places of a token in the replay store. -/
def tokPlaces (k : Token) : Nat := if valNet k.val = 1 then 5 else 1
def Gate.replayUsed (g : Gate) : Nat := g.replay.foldl (fun n e => n + tokPlaces e.2.tok) 0

/-! ## Entry tokens (R28, R29) -/

/-- An entry token meets its live instance: it goes on to the span, or is a repeated one (R28); of an instance that a stop has
closed it is kept as a copy (R390). -/
def enterToken (s : State) (b g ix : Nat) (m : EntMsg) : State :=
  match s.inst? b g ix with
  | none => s
  | some i =>
    match s.hitch? b g i.ctx i.hnum with
    | none => s
    | some h =>
      let copy (s : State) : State := s.modGate b g fun y => { y with replay := y.replay ++ [(ix, m)] }
      if i.discard && i.replayed then copy s
      else if i.arrived.contains m.entry then
        s.takeFault b g ix 0x05 none 0 (word (i.exit.getD 0), 0xFF, 0, 0) .multi
      else
        if valNet m.tok.val != h.entNet m.entry then
          s.takeFault b g ix 0x01 none 0 (0, 5, valWord m.tok.val, 0) (.enter g ix m)
        else
          let s := s.modInst b g ix fun i => { i with arrived := insertNat m.entry i.arrived }
          let s := if debugOn s b i.ctx then copy s else s
          s.sendTarget b g ix i.hnum i.ctx (gateSrc g) (h.entTarget m.entry) m.tok

/-- The live instance of a hitch with a tag. -/
def liveWith (g : Gate) (ctx hn : Nat) (tag : Word) : Option Nat :=
  (g.insts.find? fun e => e.2.ctx == ctx && e.2.hnum == hn && e.2.tag == tag).map (·.1)

/-- Can the gate take an entry token now (R28)? -/
def entryTakes (s : State) (m : EntMsg) : Bool :=
  (liveWith (s.gate m.bay m.gate) m.ctx m.hnum m.tag).isSome || (s.ctx? m.bay m.ctx).any (·.halted) ||
    (s.ctx? m.bay m.ctx).isNone || entryRoom (s.bay m.bay) m.gate m.ctx

/-- Give an entry token to its gate (R28): pending tags are dropped once the launch has halted (R273). -/
def takeEntry (s : State) (m : EntMsg) : State :=
  match liveWith (s.gate m.bay m.gate) m.ctx m.hnum m.tag with
  | some ix => enterToken s m.bay m.gate ix m
  | none =>
    match s.ctx? m.bay m.ctx with
    | none => s
    | some c => if c.halted then s else s.modGate m.bay m.gate fun g => { g with ents := g.ents ++ [m] }

/-! ## Admission (R29) -/

/-- The lowest pending tag of a hitch, none while the gate holds none. -/
def lowestPending (g : Gate) (ctx hn : Nat) : Option Word :=
  match (g.ents.filter fun m => m.ctx == ctx && m.hnum == hn).map (·.tag) with
  | [] => none
  | t :: l => some (l.foldl (fun a t => if tagOrd t < tagOrd a then t else a) t)

/-- Live instances of a hitch. -/
def liveCount (g : Gate) (ctx hn : Nat) : Nat := (g.insts.filter fun e => e.2.ctx == ctx && e.2.hnum == hn).length

/-- The lowest free index of a hitch's block. -/
def freeIx (g : Gate) (h : HitchCfg) : Option Nat :=
  ((List.range h.dmax).map (h.ixBase + ·)).find? fun ix => (AMap.get? g.insts ix).isNone

/-- Do gates of a context take tags on a bay: it is bound, not frozen, stopped, halted or cut (R351, R390, R273, R360)? -/
def CtxRt.admits (c : CtxRt) : Bool :=
  c.bound.isSome && !c.frozen && !c.stopRun && !c.halted && !(c.cut.any (·.stopped))

/-- May the gate take the lowest pending tag of a hitch (R29, R389)? -/
def canAdmit (s : State) (b g ctx hn : Nat) : Bool :=
  match s.hitch? b g ctx hn with
  | none => false
  | some h =>
    let y := s.gate b g
    match lowestPending y h.ctx hn, s.ctx? b h.ctx with
    | some t, some c =>
      let toks := y.ents.filter fun m => m.ctx == h.ctx && m.hnum == hn && m.tag == t
      c.admits && (h.poison || (liveCount y ctx hn < h.lim && (freeIx y h).isSome &&
        (liveCount y ctx hn < h.dmin || sharedFits (s.bay b) h) &&
        (!debugOn s b h.ctx || y.replayUsed + toks.foldl (fun n m => n + tokPlaces m.tok) 0 ≤ Config.replayPlaces)))
    | _, _ => false

/-- A new instance (R29). -/
def newInst (hn ctx : Nat) (tag : Word) (shared : Bool) (keeps : AMap Word) (poi : List Nat) : Inst :=
  { hnum := hn, ctx := ctx, tag := tag, st := .live, prev := .live, pinned := false, discard := false, shared := shared
    replayed := false, arrived := [], exit := none, endStrand := false, popTo := none, stores := [], keeps := [], fired := []
    ops := [], held := [], updates := [], keepSnap := keeps, keepPoi := poi, replies := [], again := .none, fault := none, dropLsid := none
    halt := none, applied := 0, wr := none }

/-- The keep registers of a tag's strand as they stand (R24), and which of them are poisoned (R380). -/
def keepNow (y : Bay) (c : CtxRt) (ws : List Nat) (t : Word) : AMap Word × List Nat :=
  match strandOf ws t with
  | none => ([], [])
  | some st =>
    let row := c.strBase + st % max c.strCnt 1
    (AMap.getD y.keep row [], (List.range 64).filter fun r => y.keepPoi.contains (64 * row + r))

/-! ## Frames (R17, R35) -/

/-- The instruction of an installed slot; none for a word that names none. -/
def slotInstr (c : SlotCell) : Option Instr :=
  match decodeWord c.word with
  | .ok i => some i
  | .error _ => none

/-- Entry ports of an exit or call: those of its target hitch from ENTRY on, at most 3 (R123). -/
def exitPorts (s : State) (b ctx : Nat) : Instr → Nat
  | .exit _ f | .call _ f =>
    match s.hitchAt b ctx f.pos.toNat f.gate.toNat f.hnum.toNat with
    | none => 1
    | some h => min 3 (h.entries - f.entry.toNat)
  | _ => 1

/-- Ports an installed slot uses; a word that names no instruction waits for nothing. -/
def slotPorts (s : State) (b ctx : Nat) (c : SlotCell) : List Nat :=
  match slotInstr c with
  | none => []
  | some i => usedPorts (exitPorts s b ctx i) i

/-- A matched set of the operands of a slot. -/
def setOf (m : TokMsg) (since : Nat) (l : List (Nat × Token)) : MSet :=
  let at_ (p : Nat) : Option Token := (l.find? fun e => e.1 == p).map (·.2)
  { el := m.el, slot := m.slot, gate := m.gate, ix := m.ix, ctx := m.ctx, a := at_ 0, b := at_ 1, c := at_ 2, p := at_ 3
    since := since }

/-- The bucket of a waiting time (R398). -/
def bucketOf (w : Nat) : Nat := if w = 0 then 0 else min 7 (w.log2 / 2)

/-- A set of two or more ports completes after a wait of w cycles: one more in its bucket (R398); a counter past 0xFFFF asks for a
spill (R399). -/
def countWait (s : State) (m : TokMsg) (w : Nat) : State :=
  let k := bucketOf w
  let c := s.slot m.bay m.el m.slot
  let h := (List.range 8).map fun i => c.hist.getD i 0 + (if i = k then 1 else 0)
  let s := s.modElem m.bay m.el fun e => { e with slots := AMap.set e.slots m.slot { c with hist := h } }
  if 0xFFFF < h.getD k 0 then s.send (.waithistSpill m.bay m.ctx m.el m.slot) else s

/-- The sets of an issue queue that count against its 16 places: those of frozen instances stand aside (R351). -/
def issueLoad (s : State) (b e : Nat) : Nat :=
  ((s.elem b e).issue.filter fun m => !frozenInst s b m.gate m.ix).length

/-- Place an entry token now; one the gate has no place for stays in the network. -/
def placeEntry (s : State) (m : EntMsg) : State := if entryTakes s m then takeEntry s m else s.send (.gateEntryToken m)

/-- Put a token that came at cycle `at_` into its frame entry, or complete its set (R17). One that a break held came before it is placed:
its set counts the wait to its coming, for a break alters no count (R398). -/
def placeToken (s : State) (m : TokMsg) (at_ : Nat) : State :=
  let c := s.slot m.bay m.el m.slot
  let ports := slotPorts s m.bay m.ctx c
  let join (x : MSet) (s : State) : State := s.modElem m.bay m.el fun e => { e with issue := e.issue ++ [x] }
  let now := (s.bay m.bay).clk
  if ports.length ≤ 1 then join (setOf m now [(m.port, m.tok)]) s
  else
    let row := (s.elem m.bay m.el).rows.find? fun r => r.gate == m.gate && r.ix == m.ix
    let mine := (row.map fun r => r.ents.filter fun w => w.slot == m.slot && w.port != m.port).getD []
    let since := (mine.map (·.since)).foldl min at_
    let last := (mine.map (·.since)).foldl max at_
    if ports.all fun p => p == m.port || mine.any (·.port == p) then
      let s := s.modElem m.bay m.el fun e =>
        { e with rows := e.rows.map fun r =>
            if r.gate == m.gate && r.ix == m.ix then
              let l := r.ents.filter fun w => w.slot != m.slot
              { r with ents := l, st := if l.isEmpty then .empty else .partly }
            else r }
      countWait (join (setOf m since ((m.port, m.tok) :: mine.map fun w => (w.port, w.tok))) s) m (last - since)
    else
      s.modElem m.bay m.el fun e =>
        { e with rows := e.rows.map fun r =>
            if r.gate == m.gate && r.ix == m.ix then { r with ents := r.ents ++ [⟨m.slot, m.port, m.tok, now⟩], st := .partly }
            else r }

/-! ## The wait histogram's spill (R399) -/

/-- What a spill comes to: it is performed; its translation fails; it waits, parked on a migrating page or for a free walk. -/
inductive Spill where
  | done (s : State)
  | fail
  | wait (parked : Bool)

/-- The 64-bit adds of a spill, each an address and a count, at device scope; nothing is written unless every one translates. A poisoned
word stays poisoned. -/
def spillAdds (b ctx : Nat) : List (Nat × Nat) → State → Spill
  | [], s => .done s
  | (va, n) :: l, s =>
    match translateVa s b ctx va { needRW with kinds := [0, 2] } with
    | .ok k t =>
      let old := leNat (homeRead t k.enc k.key 8)
      spillAdds b ctx l
        (noteDirty (homeWrite t k.enc k.key (leBytes 8 (old + n)) (List.replicate 8 (t.poisoned k.key 8))) ctx k 8)
    | .park => .wait true
    | .busy => .wait false
    | .fault _ _ | .poison _ => .fail

/-- Add the counters of a slot to its spill block and clear them; they stay, at most 0xFFFF, when there is no block, its words are not
aligned (log 97), or one does not translate. A spill that waits for its translation stands at the translation node (R340, R346), and the
slot counts on. False while it waits. -/
def spillSlot (s : State) (b ctx el slot : Nat) : Bool × State :=
  let c := s.slot b el slot
  let keep (s : State) (h : List Nat) : State :=
    s.modElem b el fun e => { e with slots := AMap.upd e.slots slot fun c => { c with hist := h } }
  let clamp := keep s (c.hist.map fun n => min n 0xFFFF)
  match s.ctx? b ctx with
  | none => (true, clamp)
  | some x =>
    let va := x.waitHist.toNat + (el * 32 + slot) * 64
    if (s.bay b).xreqs.any (fun q => q.goal == .spill el slot) then (false, s)
    else if x.waitHist = 0 ∨ c.hist.all (· == 0) ∨ va % 8 ≠ 0 then (true, clamp)
    else
      match spillAdds b ctx ((List.range 8).map fun i => (va + 8 * i, c.hist.getD i 0)) s with
      | .done t => (true, keep t [])
      | .fail => (true, clamp)
      | .wait true => (false, parkWrite s b ctx va (.spill el slot))
      | .wait false => (false, askXlat s b ctx va true (.spill el slot))

/-- Spill every slot of a context on a bay with a nonzero counter (R399); true once none waits. -/
def spillAll (ctx : Nat) (r : Bool × State) (b : Nat) : Bool × State :=
  (r.2.bay b).elems.foldl (fun r e =>
    e.2.slots.foldl (fun r k =>
      if k.2.owned && k.2.ctx == ctx && k.2.hist.any (· != 0) then
        let q := spillSlot r.2 b ctx e.1 k.1
        (r.1 && q.1, q.2)
      else r) r) r

/-! ## Ends of instances -/

/-- Take an instance out of the accesses that an acquire left bytes of a fill for (R206). -/
def SiteBuf.forget (u : SiteBuf) (g ix : Nat) : SiteBuf :=
  { u with only := u.only.map fun l => l.filter fun w => !(w.gate == g && w.ix == ix) }

/-- Give back what an instance holds: its rows, wave-buffer entries, replay copies and index (R32). -/
def freeInst (s : State) (b g ix : Nat) : State :=
  s.modBay b fun y =>
    { y with
      sites := y.sites.map fun e => (e.1, { e.2 with bufs := e.2.bufs.map (·.forget g ix) })
      elems := y.elems.map fun e => (e.1, { e.2 with rows := e.2.rows.filter fun r => !(r.gate == g && r.ix == ix) })
      wave := y.wave.filter fun w => !(w.gate == g && w.ix == ix)
      gates := AMap.upd y.gates g fun z =>
        { z with insts := AMap.erase z.insts ix, replay := z.replay.filter fun e => e.1 != ix } }

/-- Clear the waiting operands of an instance (R31, R35). -/
def clearRows (s : State) (b g ix : Nat) : State :=
  s.modBay b fun y =>
    { y with elems := y.elems.map fun e =>
        (e.1, { e.2 with rows := e.2.rows.map fun r => if r.gate == g && r.ix == ix then { r with st := .cleared, ents := [] } else r }) }

/-- What a request is for, of an instance. -/
def Req.of (r : Req) (g ix : Nat) : Bool :=
  match r.goal with
  | .op g' ix' _ | .store g' ix' => g' == g && ix' == ix
  | _ => false

/-- Drop all that is under way for an instance: tokens, sets, waiting accesses, translations; requests out and reduction buffers are
forgotten, what its commit has written is written. -/
def purgeInst (s : State) (b g ix : Nat) : State :=
  let s := { s with flight := s.flight.filter fun f =>
      match f with
      | .tokenArrive m => !(m.bay == b && m.gate == g && m.ix == ix)
      | _ => true }
  s.modBay b fun y =>
    { y with
      elems := y.elems.map fun e =>
        (e.1, { e.2 with issue := e.2.issue.filter fun m => !m.of g ix, wait := e.2.wait.filter fun m => !m.of g ix })
      sites := y.sites.map fun e =>
        (e.1, { e.2 with
          waiters := e.2.waiters.filter fun w => !(w.gate == g && w.ix == ix)
          srels := e.2.srels.filter fun w => !(w.gate == g && w.ix == ix) })
      xreqs := y.xreqs.filter fun q =>
        match q.goal with
        | .op g' ix' _ | .store g' ix' | .xlat _ _ g' ix' _ => !(g' == g && ix' == ix)
        | _ => true
      reqs := (y.reqs.filter fun r => r.sent || r.writes || !r.of g ix).map fun r => if r.of g ix then { r with dead := true } else r
      reds := y.reds.map fun r => if r.2.gate == g && r.2.ix == ix then (r.1, { r.2 with dead := true }) else r
      steals := y.steals.filter fun e => !e.1.of g ix
      probes := y.probes.filter fun e => !e.1.of g ix }

/-- A discard: entries and held tokens are dropped and everything is freed; a precise stop's copies are pending again
(R34, R390), unless the launch has halted (R273). -/
def discardInst (s : State) (b g ix : Nat) : State :=
  match s.inst? b g ix with
  | none => s
  | some i =>
    let s := traceInst s b g ix 3 5 [word (1 + (i.exit.getD 0) * 4)]
    let back := if i.replayed && !(s.ctx? b i.ctx).any (·.halted) then ((s.gate b g).replay.filter fun e => e.1 == ix).map (·.2) else []
    kick ((freeInst s b g ix).modGate b g fun y => { y with ents := y.ents ++ back }) b

/-! ## Halt (R273) -/

/-- Is an instance LIVE, or FROZEN out of LIVE? -/
def Inst.alive (i : Inst) : Bool := i.st == .live || (i.st == .frozen && i.prev == .live)

/-- Close what a halt closes on one bay: every instance that has not settled and is not pinned is discarding (R34). One that pins
itself after that is not discarded at its settlement (R33). -/
def haltBay (ctx : Nat) (s : State) (b : Nat) : State :=
  let s := s.modCtx b ctx fun c => { c with halted := true }
  s.modBay b fun y =>
    { y with
      gates := y.gates.map fun e =>
        (e.1, { e.2 with
          ents := e.2.ents.filter fun m => m.ctx != ctx
          insts := e.2.insts.map fun j =>
            if j.2.ctx == ctx && j.2.alive && !j.2.pinned then (j.1, { j.2 with discard := true }) else j })
      ports := y.ports.map fun p => (p.1, { p.2 with queue := p.2.queue.map fun k => if k.ctx == ctx then { k with stop := true } else k }) }

/-- The first halt of a launch commits; a later one has no effect. -/
def haltLaunch (s : State) (n ctx hseq code : Nat) : State :=
  if (s.launch? n hseq).any fun l => l.halt.isNone then
    (s.regionBays n ctx hseq).foldl (haltBay ctx) (s.modLaunch n hseq fun l => { l with halt := some code })
  else s

end Sys2Proof.Machine
end

