-- ==== Sys2Proof/Machine/CommitOps.lean ====
section
/-!
DEFINITION. Sys2Proof/Machine/CommitOps.lean: what a commit applies, entry by entry (R32, R169 to R171, R187 to R192), the
ends of lives (R176) and the tokens held until commit (R125).
-/
namespace Sys2Proof.Machine

open Sys2Proof

/-! ## Presence of write-once words (R188) -/

/-- Set a word present: the first sto of a launch in a granule clears the granule first. -/
def setPresent (y : Bay) (ctx o : Nat) : Bay :=
  let gr := o / 0x10000
  let valid := (AMap.get? y.ctxs ctx).any fun c => c.presValid.contains gr
  let pres := if valid then y.pres else y.pres.filter fun w => w / 2048 != gr
  { y with pres := insertNat (o / 32) pres, ctxs := AMap.upd y.ctxs ctx fun c => { c with presValid := insertNat gr c.presValid } }

/-- The bytes an ldo asked for, from its word. -/
def readerBytes (s : State) (home : Nat) (q : Packet) : List Byte :=
  s.readBytes (loftKey home (q.body 136 52 % Config.sliceStep)) (q.body 204 8 + 1)

/-- Answer one deferred reader. -/
def answerReader (s : State) (home : Nat) (r : Reader) : State :=
  let key := loftKey home (r.req.body 136 52 % Config.sliceStep)
  let n := r.req.body 204 8 + 1
  s.sendRep home (mrepOf r.req (s.poisoned key n).toNat (word (leNat (readerBytes s home r.req))) [] false)

/-- Answer the queued readers of a word in queue order; during a cut they stay (R360). -/
def answerReaders (s : State) (home ctx o : Nat) : State :=
  if (s.bay home).noReply.contains ctx then s
  else
    let mine (r : Reader) : Bool := r.ctx == ctx && r.off / 32 == o / 32
    let rs := (s.bay home).readers.filter mine
    rs.foldl (fun s r => answerReader s home r)
      (s.modBay home fun y => { y with readers := y.readers.filter fun r => !mine r })

/-! ## The check before anything is applied (R170, R188) -/

/-- What applying one entry comes to: done; a fault of the instance; it waits. -/
inductive Ap where
  | done (s : State)
  | stop (code el slot : Nat) (d : Word × Word × Word × Word) (s : State)
  | wait (s : State)

/-- The entries of an instance: stores by LSID, then keeps by register (R32). -/
def entriesOf (s : State) (b g ix : Nat) : List WaveEnt :=
  let l := (s.bay b).wave.filter fun e => e.gate == g && e.ix == ix
  sortBy WaveEnt.lsid (l.filter fun e => e.kind != .keep) ++ sortBy WaveEnt.lsid (l.filter fun e => e.kind == .keep)

/-- The site number of an entry as the program names it. -/
def entSite (s : State) (b : Nat) (e : WaveEnt) : Nat :=
  e.site - (((s.site? b e.site).bind fun x => (s.ctx? b x.ctx).map (·.siteBase)).getD 0)

/-- What an sto asks of its page (R161, R188). -/
def onceNeed (x : Site) : Need := ⟨false, true, [2], some x.src⟩

/-- Where an sto's word lies, and the state its translation leaves; none where its site is gone. -/
def stoPlace (s : State) (b : Nat) (e : WaveEnt) : Except Ap (Option Loc × State) :=
  match s.site? b e.site with
  | none => .ok (none, s)
  | some x =>
    let g : XFor := .store e.gate e.ix
    if writeParked s b x.ctx e.addr g false then .error (.wait s)
    else
      match translateFor s b x.ctx e.addr x.phys (onceNeed x) with
      | .park => .error (.wait (parkWrite s b x.ctx e.addr g))
      | .busy => .error (.wait s)
      | .fault c l => .error (.stop c e.el e.slot (word e.addr, word (entSite s b e), word l, 0) s)
      | .poison a => .error (.stop 0x20 e.el e.slot (lpddrLoc a) s)
      | .ok l s => .ok (some l, s)

/-- The word of a location: home bay and slice offset. -/
def Loc.onceWord (l : Loc) : Nat × Nat := (l.home, (l.key - loftKey l.home 0) / 32 * 32)

/-- Is an entry a store that takes effect? -/
def WaveEnt.live (e : WaveEnt) (once : Bool) : Bool := !e.nul && e.kind == .store once

/-- The words of the stos that a bay has under way for a context. -/
def stosOut (y : Bay) (ctx : Nat) : List (Nat × Nat) :=
  (y.reqs.filter fun r => r.ctx == ctx && r.pkt.body 220 4 == 4).map fun r =>
    (r.home, r.pkt.body 136 52 % Config.sliceStep / 32 * 32)

/-- Words that other instances of a context in its region have been granted by this check and have still to write: the home answers for
them as for words that are present. -/
def grantedWords (s : State) (b ctx g ix : Nat) : List (Nat × Nat) :=
  match (s.ctx? b ctx).bind fun c => c.bound.map fun h => (c.part, h) with
  | none => []
  | some (n, h) =>
    (s.regionBays n ctx h).flatMap fun t =>
      stosOut (s.bay t) ctx ++ ((s.bay t).wave.filter fun e =>
        e.live true && !(t == b && e.gate == g && e.ix == ix) &&
          (s.inst? t e.gate e.ix).any fun i => i.ctx == ctx && i.applied != 0).filterMap fun e =>
        match stoPlace s t e with
        | .ok p => p.1.map (·.onceWord)
        | .error _ => none

/-- ONCE_REWRITE (R188): every sto of an instance against its word and against the sto before it; `seen` are the words taken. -/
def onceCheck (s : State) (b : Nat) : List WaveEnt → List (Nat × Nat) → Ap
  | [], _ => .done s
  | e :: es, seen =>
    match stoPlace s b e with
    | .error r => r
    | .ok (none, s) => onceCheck s b es seen
    | .ok (some l, s) =>
      let p := l.onceWord
      let ctx := ((s.site? b e.site).map (·.ctx)).getD 0
      if present (s.bay p.1) ctx p.2 || seen.contains p then
        .stop 0x16 e.el e.slot (word (e.addr / 32 * 32), word (entSite s b e), 0, 0) s
      else onceCheck s b es (p :: seen)

/-- The first index that does not ascend, lies beyond the window, or is of a unit that lies in no line (R163). -/
def badIndex (x : Site) : Option Nat → List (Nat × Nat) → Option Nat
  | _, [] => none
  | last, (i, _) :: l =>
    if last.any (fun p => i ≤ p) || x.wsize < 4 * i + 4 || (x.lineOf (x.wbase + 4 * i)).isNone then some i else badIndex x (some i) l

/-- SITE_RANGE of ZSKIP store entries (R170), over all entries of an instance. -/
def zskipCheck (s : State) (b : Nat) (es : List WaveEnt) : Ap :=
  let bad (k : Nat) : Option (WaveEnt × Nat) :=
    match s.site? b k with
    | none => none
    | some x =>
      let mine := es.filter fun e => e.site == k
      match badIndex x x.lastIdx (mine.flatMap zskipLanes), mine with
      | some i, e :: _ => some (e, x.wbase + 4 * i)
      | _, _ => none
  match (es.map (·.site)).eraseDups.findSome? bad with
  | none => .done s
  | some (e, a) => .stop 0x12 e.el e.slot (word a, word (entSite s b e), 4, 0) s

/-- All that is checked first. -/
def commitCheck (s : State) (b : Nat) (es : List WaveEnt) : Ap :=
  let sto := es.filter fun e => e.live true
  let granted := match sto with
    | [] => []
    | e :: _ => grantedWords s b (ctxOf s b e.gate e.ix) e.gate e.ix
  match onceCheck s b sto granted with
  | .done s => zskipCheck s b (es.filter fun e => e.live false && e.zskip)
  | r => r

/-! ## One entry -/

/-- Writes of an instance's commit that are not acknowledged (R183). -/
def writesOut (y : Bay) (g ix : Nat) : Nat := (y.reqs.filter fun r => r.goal == .store g ix).length

/-- How far the entry at hand has come: none, its buffer written, its write issued. -/
def setWr (s : State) (e : WaveEnt) (b : Nat) (v : Option Bool) : State := s.modInst b e.gate e.ix fun i => { i with wr := v }
def wrOf (s : State) (b : Nat) (e : WaveEnt) : Option Bool := (s.inst? b e.gate e.ix).bind (·.wr)

/-- Write a word once at its home (R188): its other bytes are zero, it is present, its queued readers are answered. -/
def performOnce (s : State) (home ctx o : Nat) (bs : List Byte) (poi : List Bool) : State :=
  let w := o / 32 * 32
  let l : Loc := ⟨loftKey home w, home, 0, 0, 2, 0, none⟩
  let inside (i : Nat) : Bool := o % 32 ≤ i && i < o % 32 + bs.length
  let s := homeWrite s none l.key ((List.range 32).map fun i => if inside i then bs.getD (i - o % 32) 0 else 0)
    ((List.range 32).map fun i => inside i && poi.getD (i - o % 32) false)
  answerReaders ((noteDirty s ctx l 32).modBay home fun y => setPresent y ctx w) home ctx w

/-- The poisoned bytes of an entry, from place `o` on. -/
def WaveEnt.marks (e : WaveEnt) (o n : Nat) : List Bool := (List.range n).map fun i => e.poi.getD (o + i) false

/-- The scope at which an entry's write is performed: its own for a release, else bay (R187). -/
def WaveEnt.at (e : WaveEnt) : Nat := if e.ord = .rel then e.scope else 1

/-- Issue the writes of a run of an entry's bytes, of which `poi` are poisoned, granule by granule; a full poison directory stalls the
site's write engine (R380). -/
def issueRun (b : Nat) (x : Site) (e : WaveEnt) (bs : List Byte) (poi : List Bool) : List (Nat × Nat × Nat) → State → Ap
  | [], s => .done s
  | p :: ps, s =>
    let g : XFor := .store e.gate e.ix
    let r := writeRun s b x.ctx x.node p.1 e.at x.phys (writeNeed x) ((bs.drop p.2.1).take p.2.2) ((poi.drop p.2.1).take p.2.2)
      (.store e.gate e.ix) g
    match r with
    | .done s => issueRun b x e bs poi ps s
    | .wait s => .wait s
    | .full a => .wait (engineFault s b e.site true 0x20 (lpddrLoc a) true)
    | r => match r.details p.1 (entSite s b e) with
      | some d => .stop d.1 e.el e.slot d.2.1 s
      | none => .done s

/-- Perform bytes of an entry at their home (R187). -/
def performRun (s : State) (b : Nat) (x : Site) (e : WaveEnt) (a : Nat) (bs : List Byte) (poi : List Bool) : Ap :=
  issueRun b x e bs poi (cutRun (bs.length / 64 + 2) a 0 bs.length) s

/-- Send an sto to its home (R182, R188). -/
def performSto (s : State) (b : Nat) (x : Site) (e : WaveEnt) : Ap :=
  match stoPlace s b e with
  | .error r => r
  | .ok (none, s) => .done s
  | .ok (some l, s) =>
    .done (issueReq s b
      { unit := x.node, rqid := 0, home := l.homeNo
        pkt := { reqPacket b x.ctx l 4 0 0 e.data.length x.node e.at 0 0 e.data with
          marks := (List.range e.data.length).filter fun i => e.poi.getD i false }
        sent := false, goal := .store e.gate e.ix, since := (s.bay b).clk, ctx := x.ctx, deferred := false, dead := false
        va := if x.phys then none else some e.addr })

/-- After a write is issued: a release waits until it is performed (R187). -/
def performed (b : Nat) (e : WaveEnt) (r : Ap) : Ap :=
  match r with
  | .done s =>
    if e.ord != .rel then .done (setWr s e b none)
    else if writesOut (s.bay b) e.gate e.ix = 0 then .done (setWr s e b none)
    else .wait (setWr s e b (some true))
  | r => r

/-- A buffer takes an entry's bytes, with the siblings (R177, R187), and lines that have become whole are written back (R171); DIRTY, or
FULL when they go to the home at once. The access opens a life if none is open (R176). -/
def bufferBytes (s : State) (b k g ix a : Nat) (bs : List Byte) (poi : List Bool) (dirty : Bool) : Option State :=
  let key := ((s.site? b k).map fun x => x.lifeKey (widthsOf s b g ix) (tagOf s b g ix)).getD 0
  let s := openLife s b k key
  match s.site? b k with
  | none => some s
  | some x =>
    let base := (x.lineOf a).getD 0
    match storeBuf s b k base with
    | (none, _) => none
    | (some i, s) =>
      let o := (x.offsetIn base a).getD 0
      let s := touchBuf (modBuf s b k i fun u =>
        let u := (putStore u o bs dirty).mark o poi
        { u with st := if dirty || u.st == .dirty then .dirty else if u.st == .filling then .filling else .full }) b k i
      some (wholeLines (directoryUpdate s b k a bs poi) b k)

/-- The state in which a buffer was sought and none is free yet. -/
def seekBuf (s : State) (b k a : Nat) : State := (storeBuf s b k (((s.site? b k).bind fun x => x.lineOf a).getD 0)).2

/-- A buffered store (R187): the buffer and the siblings, then the home for a release or WB = 0. -/
def applyBuffered (s : State) (b : Nat) (x : Site) (e : WaveEnt) : Ap :=
  let now := e.ord == .rel || !x.wb
  let home (s : State) : Ap := performed b e (performRun s b x e e.addr e.data (e.marks 0 e.data.length))
  match wrOf s b e with
  | some false => home s
  | _ =>
    match bufferBytes s b e.site e.gate e.ix e.addr e.data (e.marks 0 e.data.length) (!now) with
    | none => .wait (seekBuf s b e.site e.addr)
    | some s => if now then home (setWr s e b (some false)) else .done s

/-- A store to the home alone (R172, R188). -/
def applyHome (s : State) (b : Nat) (x : Site) (e : WaveEnt) (once : Bool) : Ap :=
  performed b e (if once then performSto s b x e else performRun s b x e e.addr e.data (e.marks 0 e.data.length))

/-- Complete the lines that end before an address; at most as many as the window has (R170). -/
def zskipLines (b k a scope : Nat) : Nat → State → Bool × State
  | 0, s => (true, s)
  | n + 1, s =>
    match s.site? b k with
    | none => (true, s)
    | some x =>
      match x.windowLines[x.zdone]? with
      | none => (true, s)
      | some base =>
        if a ≤ x.byteAt base (x.lineLen - 1) then (true, s)
        else
          let q := zskipLine s b k base scope false
          if q.1 then
            zskipLines b k a scope n (q.2.modSite b k fun x => { x with zdone := x.zdone + 1, zpart := x.zpart.filter (· != base) })
          else q

/-- Apply one lane of a ZSKIP store: the lines before it are completed, the buffer and the siblings take it, then the home for a release
or WB = 0. A lane applied before is left alone, or has its write to issue. -/
def zskipLane (s : State) (b : Nat) (e : WaveEnt) (idx v : Nat) : Ap :=
  match s.site? b e.site with
  | none => .done s
  | some x =>
    let a := x.wbase + 4 * idx
    let now := e.ord == .rel || !x.wb
    let poi := List.replicate 4 (e.poi.any id)
    let home (s : State) : Ap :=
      match performRun s b x e a (leBytes 4 v) poi with
      | .done s => .done (setWr s e b none)
      | r => r
    if x.lastIdx.any (fun l => idx ≤ l) then
      if x.lastIdx = some idx ∧ wrOf s b e = some false then home s else .done s
    else
      let q := zskipLines b e.site a e.at (x.windowLines.length + 1) s
      if !q.1 then .wait q.2
      else
        match bufferBytes q.2 b e.site e.gate e.ix a (leBytes 4 v) poi (!now) with
        | none => .wait (seekBuf q.2 b e.site a)
        | some s =>
          let s := s.modSite b e.site fun x => { x with lastIdx := some idx }
          if now then home (setWr s e b (some false)) else .done s

/-- The lanes of a ZSKIP store entry, in order. -/
def zskipAll (b : Nat) (e : WaveEnt) : List (Nat × Nat) → State → Ap
  | [], s => .done s
  | p :: ps, s =>
    match zskipLane s b e p.1 p.2 with
    | .done s => zskipAll b e ps s
    | r => r

/-- A ZSKIP store entry (R170, R187). -/
def applyZskip (s : State) (b : Nat) (e : WaveEnt) : Ap := performed b e (zskipAll b e (zskipLanes e) s)

def ofTry (r : Bool × State) : Ap := if r.1 then .done r.2 else .wait r.2

/-- Apply a store (R187): a release comes after every lower entry is performed and after its release actions; one whose write is out only
waits for it. -/
def applyStore (s : State) (b ctx : Nat) (e : WaveEnt) (once : Bool) : Ap :=
  if wrOf s b e = some true then
    if writesOut (s.bay b) e.gate e.ix = 0 then .done (setWr s e b none) else .wait s
  else if e.ord = .rel ∧ writesOut (s.bay b) e.gate e.ix ≠ 0 then .wait s
  else
    let q := if e.ord = .rel ∧ wrOf s b e = none then releaseActions s b ctx e.scope else (true, s)
    if !q.1 then .wait q.2
    else
      match q.2.site? b e.site with
      | none => .done q.2
      | some x =>
        if e.zskip then applyZskip q.2 b e
        else if once || x.ordered then applyHome q.2 b x e once
        else applyBuffered q.2 b x e

/-- Apply one entry (R32, R187 to R192). An srel that finds no buffer of its store site FULL or DIRTY has nothing to write back and does
nothing (log 105). -/
def applyEnt (s : State) (b : Nat) (e : WaveEnt) : Ap :=
  if e.nul then .done s
  else
    let ctx := ((s.site? b e.site).map (·.ctx)).getD (ctxOf s b e.gate e.ix)
    match e.kind with
    | .store once => applyStore s b ctx e once
    | .flush =>
      let z := if (s.site? b e.site).any fun x => x.isZskip && x.isStore then zskipComplete s b e.site e.scope else (true, s)
      let q := writeBackSite z.2 b e.site (fun _ _ => true) e.scope
      ofTry (z.1 && q.1, q.2)
    | .fence =>
      if writesOut (s.bay b) e.gate e.ix ≠ 0 then .wait s else ofTry (releaseActions s b (ctxOf s b e.gate e.ix) e.scope)
    | .srel =>
      match (s.site? b e.site).bind fun x => firstFilled x fun u => u.st == .full || u.st == .dirty with
      | none => .done s
      | some i =>
        let s := if (s.site? b e.site).any fun x => x.isZskip && x.isStore then zeroLine s b e.site i else s
        let q := writeBack s b e.site i e.scope
        if q.1 then .done (modBuf q.2 b e.site i emptied) else .wait q.2
    | .keep =>
      let ws := widthsOf s b e.gate e.ix
      match s.ctx? b ctx, strandOf ws (tagOf s b e.gate e.ix) with
      | some c, some st =>
        let row := c.strBase + st % max c.strCnt 1
        .done (s.modBay b fun y =>
          { y with
            keep := AMap.set y.keep row (AMap.set (AMap.getD y.keep row []) e.lsid (word (leNat e.data)))
            keepPoi := if e.poi.any id then insertNat (64 * row + e.lsid) y.keepPoi
              else y.keepPoi.filter fun n => n != 64 * row + e.lsid })
      | _, _ => .done s

/-- Apply the entries from the `applied` count on (R32, R354). -/
def applyAll (b g ix : Nat) : List WaveEnt → State → Ap
  | [], s => .done s
  | e :: es, s =>
    match applyEnt s b e with
    | .done s => applyAll b g ix es (s.modInst b g ix fun i => { i with applied := i.applied + 1 })
    | r => r

/-! ## After the entries -/

/-- Does a commit end the life of a site: an INSTANCE life whose field it removes, a STRAND life whose strand it ends (R44, R176)? -/
def Inst.endsLife (i : Inst) (ws : List Nat) (x : Site) : Bool :=
  x.ctx == i.ctx && x.lifeOpen && x.key == x.lifeKey ws i.tag &&
    ((x.life == 0 && i.popTo == some x.lfield) || (x.life == 1 && i.endStrand))

/-- The bays whose sites a commit may end: its own; all of its region where it ends the strand. -/
def endingBays (s : State) (b : Nat) (i : Inst) : List Nat :=
  match i.endStrand, (s.ctx? b i.ctx).bind fun c => c.bound.map fun h => (c.part, h) with
  | true, some (n, h) => insertNat b (s.regionBays n i.ctx h)
  | _, _ => [b]

/-- The sites whose life a commit ends, by bay and number: INSTANCE lives on its own bay (R44, R176). -/
def endingSites (s : State) (b g ix : Nat) : List (Nat × Nat) :=
  match s.inst? b g ix with
  | none => []
  | some i =>
    let ws := widthsOf s b g ix
    (endingBays s b i).flatMap fun t =>
      ((s.bay t).sites.filter fun e => i.endsLife ws e.2 && (t == b || e.2.life == 1)).map fun e => (t, e.1)

/-- End lives; false while one cannot end. -/
def endLives (s : State) (ks : List (Nat × Nat)) : Bool × State :=
  ks.foldl (fun r k => let q := endLife r.2 k.1 k.2; (r.1 && q.1, q.2)) (true, s)

/-- Apply a record update (R120): a completed record is freed. -/
def applyUpdate (s : State) (b g : Nat) (u : RecUpd) : State :=
  s.modGate b g fun y =>
    { y with recs :=
        if u.done then y.recs.filter fun a => !a.isFor u.acc.ctx u.acc.key u.acc.el u.acc.slot
        else y.recs.map fun a => if a.isFor u.acc.ctx u.acc.key u.acc.el u.acc.slot then { u.acc with own := a.own } else a }

/-- Deliver one token between hitches (R125): on the bay, or as a TOKEN packet over a channel of the bay graph (R358). -/
def deliverEntry (s : State) (b ctx pos : Nat) (m : EntMsg) : State :=
  match (s.ctx? b ctx).bind (·.bayAt pos) with
  | none => s
  | some t =>
    if t = b then s.send (.gateEntryToken { m with bay := b })
    else
      (s.modCtx b ctx fun c => { c with sent := AMap.set c.sent pos (AMap.getD c.sent pos 0 + 1) }).emit
        (tokenPacket b { m with bay := t })

/-- A held token leaves its gate. -/
def deliverHeld (s : State) (b g ctx : Nat) (h : Held) : State :=
  deliverEntry s b ctx h.pos
    { bay := b, gate := h.gate, hnum := h.hnum, entry := h.entry, ctx := ctx, tag := h.tag, tok := h.tok, chan := none
      src := gateSrc g }

/-- The end of a commit: record updates, held tokens unless the launch has halted, halt, everything freed. -/
def finishCommit (s : State) (b g ix : Nat) : State :=
  match s.inst? b g ix with
  | none => s
  | some i =>
    let s := i.updates.foldl (fun s u => applyUpdate s b g u) s
    let s := match i.halt, s.ctx? b i.ctx with
      | some code, some c => haltLaunch s c.part i.ctx (c.bound.getD 0) code
      | _, _ => s
    let s := if (s.ctx? b i.ctx).any (·.halted) then s else i.held.foldl (fun s h => deliverHeld s b g i.ctx h) s
    let s := traceInst s b g ix 3 5 [word (i.exit.getD 0 * 4)]
    kick (freeInst s b g ix) b

/-- A commit stops: the instance freezes READY and goes on from there (R187, R188, R354). -/
def commitFault (s : State) (b g ix code el slot : Nat) (d : Word × Word × Word × Word) : State :=
  s.takeFault b g ix code (some el) slot d .commit

/-- COMMIT (R32): tokens leave once every write of the instance has been performed (R187, R203). What waits on another bay for a life that
it ends is let go (R176). -/
def commitInst (s : State) (b g ix : Nat) : State :=
  match s.inst? b g ix with
  | none => s
  | some i =>
    let es := entriesOf s b g ix
    let start : Ap :=
      if i.applied = 0 then
        match commitCheck s b es with
        | .done s => .done (s.modInst b g ix fun i => { i with applied := 1 })
        | r => r
      else .done s
    match start with
    | .wait s => s
    | .stop c el sl d s => commitFault s b g ix c el sl d
    | .done s =>
      match applyAll b g ix (es.drop ((((s.inst? b g ix).map (·.applied)).getD 1) - 1)) s with
      | .wait s => s
      | .stop c el sl d s => commitFault s b g ix c el sl d
      | .done s =>
        if writesOut (s.bay b) g ix ≠ 0 then s
        else
          let ks := endingSites s b g ix
          let q := endLives s ks
          if q.1 then ((ks.map (·.1)).eraseDups.filter (· != b)).foldl kick (finishCommit q.2 b g ix) else q.2

end Sys2Proof.Machine
end

