-- ==== Sys2Proof/Machine/GateEvents.lean ====
section
/-!
DEFINITION. Sys2Proof/Machine/GateEvents.lean: the steps of elements and gates: TOKEN_ARRIVE, WAITHIST_SPILL,
GATE_ENTRY_TOKEN, ADMIT, SETTLE, COMMIT, LIM_UPDATE (R17 to R37).
-/
namespace Sys2Proof.Machine

open Sys2Proof

/-! ## Tokens -/

/-- The comparator that matches a token (R388); a null, whose value bits are zero, only with VALMASK zero. -/
def cmpMatch (s : State) (m : TokMsg) : Option Nat :=
  ((s.bay m.bay).cmps.find? fun e =>
    let k := e.2
    k.ctl.getLsbD 63 && bits k.ctl 60 3 == m.ctx && bits k.ctl 53 7 == m.el && bits k.ctl 48 5 == m.slot &&
    bits k.ctl 46 2 == m.port && (tagOf s m.bay m.gate m.ix &&& k.tagMask) == k.tagVal &&
    (!m.tok.nul || k.valMask == 0) && (valWord m.tok.val &&& k.valMask) == k.valVal).map (·.1)

/-- Hold a matching token and begin the stop (R388, R390). -/
def holdToken (s : State) (m : TokMsg) (k : Nat) : State :=
  let r := { s.recOf m.bay m.ctx 0x31 2 with
    gate := m.gate, hnum := ((s.inst? m.bay m.gate m.ix).map (·.hnum)).getD 0, ix := m.ix, elem := some m.el, slot := m.slot
    tag := tagOf s m.bay m.gate m.ix, d0 := word (k + 0x8000), d1 := valWord m.tok.val }
  beginStop (s.modCtx m.bay m.ctx fun c => { c with heldTok := some ⟨m, k, (s.bay m.bay).clk⟩ }) m.bay m.ctx m.gate m.ix r

/-- A token at an empty slot is dropped and the region of its context freezes (R78). -/
def emptySlot (s : State) (m : TokMsg) : State :=
  s.takeRegionFault m.bay m.ctx { s.recOf m.bay m.ctx 0x01 2 with
    elem := some m.el, slot := m.slot, d0 := 0, d1 := 3, d2 := word (m.ctx * 256 + m.ix) }

/-- A token reaches its slot: it is dropped there, held for a comparator, or placed (R17, R78, R388). -/
def arriveToken (s : State) (m : TokMsg) : State :=
  if (s.slot m.bay m.el m.slot).word = 0 then emptySlot s m
  else
    match (s.ctx? m.bay m.ctx).filter (fun c => !stopBars c) |>.bind fun _ => cmpMatch s m with
    | some k => holdToken s m k
    | none => placeToken s m (s.bay m.bay).clk

/-- TOKEN_ARRIVE (R17): with the issue queue full the token stays in the network. -/
def execTokenArrive (m : TokMsg) (s : State) : Res :=
  .next (if Config.issueSets ≤ issueLoad s m.bay m.el then { s with flight := .tokenArrive m :: s.flight } else arriveToken s m)

/-- WAITHIST_SPILL (R399). -/
def execWaithistSpill (b ctx el slot : Nat) (s : State) : Res := .next (spillSlot s b ctx el slot).2

/-- GATE_ENTRY_TOKEN (R28): a token that crossed a channel is counted as received (R358); after the bay's snapshot it is
recorded on its channel (R360); with no place for it, it stays in the network. -/
def execGateEntryToken (m : EntMsg) (s : State) : Res :=
  .next (
    let snapped := ((s.ctx? m.bay m.ctx).bind (·.cut)).any (·.snapped)
    let count (s : State) : State :=
      match m.chan with
      | none => s
      | some a => s.modCtx m.bay m.ctx fun c => { c with rcvd := AMap.set c.rcvd a (AMap.getD c.rcvd a 0 + 1) }
    match m.chan, snapped with
    | some a, true => (count s).modCtx m.bay m.ctx fun c => { c with recorded := c.recorded ++ [⟨a, m⟩] }
    | _, _ => if entryTakes s m then takeEntry (count s) m else { s with flight := .gateEntryToken m :: s.flight })

/-! ## Instances -/

/-- A poisoned hitch header: the region freezes, naming the lowest pending tag (R355). -/
def headerPoison (s : State) (b g hn : Nat) (h : HitchCfg) (t : Word) : State :=
  s.takeRegionFault b h.ctx { s.recOf b h.ctx 0x20 2 with
    gate := g, hnum := hn, tag := t, d0 := locWord 2 g }

/-- Take an instance in: index, rows, its entry tokens (R26, R29). -/
def admitTag (s : State) (b g hn : Nat) (h : HitchCfg) (c : CtxRt) (t : Word) (ix : Nat) : State :=
  let y := s.gate b g
  let mine (m : EntMsg) : Bool := m.ctx == h.ctx && m.hnum == hn && m.tag == t
  let shared := h.dmin ≤ liveCount y h.ctx hn
  let keep := keepNow (s.bay b) c h.widths t
  let s := s.modGate b g fun z =>
    { z with
      insts := AMap.set z.insts ix (newInst hn h.ctx t shared keep.1 keep.2)
      ents := z.ents.filter fun m => !mine m }
  let s := h.span.foldl (fun s e => s.modElem b e fun x => { x with rows := x.rows ++ [⟨g, ix, .empty, []⟩] }) s
  let s := traceInst s b g ix 2 4 [word h.lim]
  (y.ents.filter mine).foldl (fun s m => enterToken s b g ix m) s

/-- ADMIT (R29). -/
def execAdmitTag (b g ctx hn : Nat) (s : State) : Res :=
  .next (
    if !canAdmit s b g ctx hn then s
    else
      match s.hitch? b g ctx hn with
      | none => s
      | some h =>
        match lowestPending (s.gate b g) h.ctx hn, s.ctx? b h.ctx, freeIx (s.gate b g) h with
        | some t, some c, ix =>
          if h.poison then headerPoison s b g hn h t
          else
            match ix with
            | none => s
            | some ix => admitTag s b g hn h c t ix
        | _, _, _ => s)

/-- Has an instance settled: it is LIVE and its in-flight count is zero (R31)? Entry tokens that have not come are not waited for
of what a precise stop or a halt discards (log 20). -/
def settles (s : State) (b g ix : Nat) : Bool :=
  match s.inst? b g ix with
  | none => false
  | some i =>
    let missing := match s.hitch? b g i.ctx i.hnum with
      | none => 0
      | some h => if i.discards && (i.replayed || (s.ctx? b i.ctx).any (·.halted)) then h.entries - i.arrived.length else 0
    i.st == .live && s.inflight b g ix == missing

/-- The lowest LSID whose operation still waits for a lower one to fire (R184). -/
def droppedLsid (i : Inst) : Option Nat :=
  match (i.ops.filter fun o => o.st == .waiting).map (·.lsid) with
  | [] => none
  | a :: l => some (l.foldl min a)

/-- The outcome of settlement (R31, R184). -/
def settleInst (s : State) (b g ix : Nat) : State :=
  match s.inst? b g ix with
  | none => s
  | some i =>
    match s.hitch? b g i.ctx i.hnum with
    | none => s
    | some h =>
      let s := clearRows s b g ix
      if i.discards then discardInst s b g ix
      else
        let noStore := h.storeMask.filter fun l => !i.stores.contains l
        let noKeep := h.keepMask.filter fun r => !i.keeps.contains r
        let drop := (droppedLsid i).orElse fun _ => i.dropLsid
        if drop.isNone && i.exit.isSome && noStore.isEmpty && noKeep.isEmpty then
          s.modInst b g ix fun i => { i with st := .ready }
        else
          let s := s.modInst b g ix fun i =>
            { i with ops := i.ops.filter fun o => o.st != .waiting, dropLsid := drop }
          s.takeFault b g ix 0x04 none 0
            (wordOfBits noStore, wordOfBits noKeep, word i.exit.isSome.toNat, word (drop.getD 0xFF)) .settle

/-- SETTLE (R31). -/
def execSettle (b g ix : Nat) (s : State) : Res := .next (if settles s b g ix then settleInst s b g ix else s)

/-- May an instance commit: it is READY, in turn (R32), and no write of it is out that has not been acknowledged (R183)? -/
def mayCommit (s : State) (b g ix : Nat) : Bool :=
  match s.inst? b g ix with
  | none => false
  | some i =>
    match s.hitch? b g i.ctx i.hnum with
    | none => false
    | some h => i.st == .ready && (!h.seq || s.lowerDone b g ix) && writesOut (s.bay b) g ix == 0

/-- COMMIT (R32). -/
def execCommit (b g ix : Nat) (s : State) : Res := .next (if mayCommit s b g ix then commitInst s b g ix else s)

/-- One step of a live limit toward its target (R37, R174). -/
def stepToward (cur want lo hi : Nat) : Nat :=
  let w := min (max want lo) hi
  if cur < w then cur + 1 else if w < cur then cur - 1 else cur

/-- LIM_UPDATE (R37): LIM takes its step for the mean of 64 replies. -/
def execLimUpdate (b g ctx hn : Nat) (s : State) : Res :=
  .next (s.modHitch b g ctx hn fun h =>
    match h.means with
    | [] => h
    | l :: r => { h with lim := if h.mem then stepToward h.lim ((l + 15) / 16) h.dmin h.dmax else h.lim, means := r })

end Sys2Proof.Machine
end

