-- ==== Sys2Proof/Machine/MemEvents.lean ====
section
/-!
DEFINITION. Sys2Proof/Machine/MemEvents.lean: memory requests at their home and replies at their requester (R172, R182, R183,
R188, R195), fills (R164), and the site engines: STREAM_FETCH (R167), DEP_UPDATE (R174).
-/
namespace Sys2Proof.Machine

open Sys2Proof

/-! ## At the home (R172) -/

/-- Where a request's bytes lie: key, memory kind, the partition whose keys encrypt them. -/
def homeLoc (s : State) (home : Nat) (p : Packet) : Loc :=
  let pa := p.body 136 52
  let n := s.partOf p.src p.ctx
  let enc := if home = Config.bays + 1 then some n else none
  if pa < Config.lpddr then ⟨pa, home, pa, 1, 0, 0, enc⟩
  else if pa < Config.hostWin then ⟨loftKey home (pa % Config.sliceStep), home, pa, 0, 0, 0, none⟩
  else ⟨hostKey n (pa - Config.hostWin), home, pa, 2, 0, 0, none⟩

/-- ARND and XSAT of an atomic's packet (log 14). -/
def packetRnd (p : Packet) : Rnd := decodeRnd (p.xf.extractLsb' 1 2)
def packetSat (p : Packet) : Bool := p.xf.getLsbD 0

/-- An atomic at its home (R195): poisoned bytes give POISON and stay (log 15). -/
def homeAtomic (s : State) (home : Nat) (l : Loc) (n : Nat) (p : Packet) : State :=
  let t := Ty.ofCode (BitVec.ofNat 4 (p.body 212 4))
  let op := if p.body 216 4 = 0 then 0xA0 else 0x90 + p.body 216 4
  let old := leNat (homeRead s l.enc l.key n)
  if s.poisoned l.key n then s.sendRep home (mrepOf p 1 0 [] false)
  else
    let new := atomicNew op t (packetRnd p) (packetSat p) old (p.body 64 64) (p.body 0 64)
    (noteDirty (homeWrite s l.enc l.key (leBytes n new) []) p.ctx l n).sendRep home (mrepOf p 0 (word old) [] false)

/-- An ldo that finds its node's list full goes back to its site, where it waits until an entry frees (R188). -/
def bounceLdo (s : State) (p : Packet) : State :=
  match reqOf (s.bay p.src) p with
  | none => s
  | some r =>
    let b := p.src
    let s := pumpReqs (s.modBay b fun y => { y with reqs := y.reqs.filter fun q => !q.isOf p }) b
    match r.goal with
    | .op g ix l =>
      match opOf s b ⟨g, ix, l⟩ with
      | none => s
      | some o => addWaiter s b (siteOf s b r.ctx o.f) ⟨g, ix, l⟩
    | _ => s

/-- An ldo at its home (R188): a present word answers; an empty one queues the reader, or goes back while its node's list is
full. A request its bay no longer waits for is answered at once. -/
def homeLdo (s : State) (home : Nat) (l : Loc) (n : Nat) (p : Packet) : State :=
  let o := l.key - loftKey home 0
  let y := s.bay home
  if present y p.ctx o then
    s.sendRep home (mrepOf p (s.poisoned l.key n).toNat (word (leNat (s.readBytes l.key n))) [] false)
  else if (reqOf (s.bay p.src) p).all (·.dead) then s.sendRep home (mrepOf p 0 0 [] false)
  else if listFull y p.ctx o then bounceLdo s p
  else
    let va := (reqOf (s.bay p.src) p).bind (·.va)
    (s.modBay home fun y => { y with readers := y.readers ++ [⟨nodeOf o, p.ctx, o, p, va⟩] }).modBay p.src fun y =>
      { y with reqs := y.reqs.map fun r => if r.isOf p then { r with deferred := true } else r }

/-- MREQ (R182): performed at the home in the order of arrival. -/
def execMreq (home : Nat) (p : Packet) (s : State) : Res :=
  .next (
    let l := homeLoc s home p
    let n := p.body 204 8 + 1
    match p.body 220 4 with
    | 0 => s.sendRep home (mrepRead p (homeRead s l.enc l.key n) ((List.range n).filter fun i => s.poisoned (l.key + i) 1))
    | 1 =>
      (noteDirty (homeWrite s l.enc l.key (p.bytes.take n) (p.badBytes n)) p.ctx l n).sendRep home
        (mrepOf p 0 0 [] false)
    | 2 => homeAtomic s home l n p
    | 3 => homeLdo s home l n p
    | _ => kickLdos
      ((performOnce s home p.ctx (l.key - loftKey home 0) (p.bytes.take n) (p.badBytes n)).sendRep home (mrepOf p 0 0 [] false)))

/-! ## Pieces of a streamer's read (R250) -/

/-- Bytes put over those from place `o` on. -/
def overlay {α : Type} (l : List α) (o : Nat) (bs : List α) : List α := l.take o ++ bs ++ l.drop (o + bs.length)

/-- A piece of a tile's read arrives. -/
def Tile.takePiece (t : Tile) (o : Nat) (bs : List Byte) (poi : List Bool) : Tile :=
  { t with data := overlay t.data o bs, poi := overlay t.poi o poi, left := t.left - 1 }

/-- An index list whose read is whole is held (R252). -/
def Pipe.listed (x : Pipe) : Pipe :=
  match x.listing with
  | some t =>
    if t.left != 0 then x
    else
      { x with
        listing := none
        index := some ((List.range (t.data.length / 4)).map fun i =>
          (leNat ((t.data.drop (4 * i)).take 4), ((t.poi.drop (4 * i)).take 4).any id)) }
  | none => x

/-- Bytes of a read take their place: in the index list (number 0), in tile n - 1. -/
def Pipe.takePiece (n o : Nat) (bs : List Byte) (poi : List Bool) (x : Pipe) : Pipe :=
  if n = 0 then Pipe.listed { x with listing := x.listing.map fun t => t.takePiece o bs poi }
  else { x with tiles := x.tiles.map fun t => if t.idx + 1 = n then t.takePiece o bs poi else t }

/-- The same on a port. -/
def placePiece (s : State) (b isl p n o : Nat) (bs : List Byte) (poi : List Bool) : State :=
  s.modPort b isl p fun q => { q with run := q.run.map (Pipe.takePiece n o bs poi) }

/-! ## At the requester (R183) -/

/-- Has a reply a fault or poison? -/
def badReply (p : Packet) : Bool := p.body 220 4 != 0 || p.poi || !p.marks.isEmpty

/-- The reply of an operation through an ORDERED site (R186, R188, R195, R352); that of a deferred ldo is not counted (R37). -/
def opReply (s : State) (b g ix : Nat) (o : MemOp) (p : Packet) (deferred : Bool := false) : State :=
  let ctx := ctxOf s b g ix
  match s.site? b (siteOf s b ctx o.f) with
  | none => s
  | some x =>
    if p.body 220 4 = 2 then
      opFault s b g ix o (p.body 64 8) (word o.ea, word o.f.site.toNat, 3, 0)
    else
      match o.kind with
      | .load =>
        let n := if o.c.w then 128 else o.c.ty.size
        finishLoad s b x ⟨g, ix, o.lsid⟩ o (p.bytes.take n) (p.badBytes n)
      | _ =>
        if badReply p then opFault s b g ix o 0x20 (poisonLoc x o.ea, word o.ea, 0, 0)
        else
          let s := if o.acq then acquireActions s b ctx o.scope else s
          let s := if deferred then s else countReply s b g ix o
          opDone s b g ix o ⟨.sc (extendRes o.c.ty (8 * o.c.ty.size) (p.body 64 64)), false, false⟩ (ctTok true)

/-- A reply after the bay's snapshot to a deferred ldo: the reader goes back to the head of its word's list (R360). -/
def returnReader (s : State) (r : Req) : State :=
  let o := r.pkt.body 136 52 % Config.sliceStep
  s.modBay r.home fun y => { y with readers := ⟨nodeOf o, r.ctx, o, r.pkt, r.va⟩ :: y.readers }

/-- Has the bay taken its snapshot in a cut of a context? -/
def snapped (s : State) (b ctx : Nat) : Bool := ((s.ctx? b ctx).bind (·.cut)).any (·.snapped)

/-- MREP (R183): fill data goes on to its buffer; a fault or poison for a frozen instance is kept with it (R352). -/
def execMrep (b : Nat) (p : Packet) (s : State) : Res :=
  .next (match reqOf (s.bay b) p with
  | none => s
  | some r =>
    if r.dead then closeReq s b r p.echo
    else
    match r.goal with
    | .fill k i _ _ => s.send (.fillDataArrive b k i p)
    | .nothing | .store _ _ | .land _ _ => closeReq s b r p.echo
    | .tile isl q n o =>
      let m := r.pkt.body 204 8 + 1
      placePiece (closeReq s b r p.echo) b isl q n o (p.bytes.take m) (p.badBytes m)
    | .back k i => kick (backDone (closeReq s b r p.echo) b k i) b
    | .op g ix l =>
      if r.deferred && snapped s b r.ctx then returnReader s r
      else
        let s := closeReq s b r p.echo
        match opOf s b ⟨g, ix, l⟩ with
        | none => s
        | some o =>
          if badReply p && frozenInst s b g ix then
            s.modInst b g ix fun i => { i with replies := i.replies ++ [(l, .mem p)] }
          else kick (opReply s b g ix o p r.deferred) b)

/-! ## Fills -/

/-- What an sinv or acquire has left to be emptied is EMPTY once its data has arrived (R181, R190). -/
def dropped (u : SiteBuf) : SiteBuf :=
  if u.drop && u.left == 0 then (if u.st = .dirty then { u with filled := false, drop := false, only := none } else emptyBuf) else u

/-- After fills have ended on a bay: buffers to be emptied are, ZSKIP buffers with nothing to return too (R169), and the preloads that an
sinv reopened go on (R190). The data that ends a fill has served all that waited by then, what came after the sinv too (log 12). -/
def dropFilled (s : State) (b : Nat) : State :=
  let s := s.modBay b fun y => { y with sites := y.sites.map fun e =>
    let x := { e.2 with bufs := e.2.bufs.map dropped }
    (e.1, if x.isZskip && !x.isStore then zskipTrim x else x) }
  (s.bay b).sites.foldl (fun s e => preload s b e.1) s

/-- Fills have ended on a bay: what waits is served, buffers to be emptied are, and what that lets go is served (R164). -/
def fillsEnded (s : State) (b : Nat) : State := kick (dropFilled (kick s b) b) b

/-- Data is in a buffer: when it is the last piece the buffer is FULL and what waits is served (R164). -/
def fillPiece (s : State) (b k i o : Nat) (bs : List Byte) (poi : List Bool) : State :=
  let s := modBuf s b k i fun u => { placeData u o bs poi with left := u.left - 1 }
  if ((s.site? b k).any fun x => (x.bufs.getD i emptyBuf).left == 0) then
    fillsEnded (endFill s b k i) b
  else s

/-- FILL_DATA_ARRIVE (R164): a translation fault at the home stops the engine (R175). -/
def execFillDataArrive (b k i : Nat) (p : Packet) (s : State) : Res :=
  .next (match reqOf (s.bay b) p with
  | none => s
  | some r =>
    if r.dead then closeReq s b r p.echo
    else
    match r.goal, s.site? b k with
    | .fill _ _ o n, some x =>
      if p.body 220 4 = 2 then
        let u := x.bufs.getD i emptyBuf
        fillFault (askXlat (closeReq s b r p.echo) b x.ctx u.line false (.fill k i)) b k i (p.body 64 8)
          (word u.line, word (k - ((s.ctx? b x.ctx).map (·.siteBase)).getD 0), 3, 0)
      else fillPiece (closeReq s b r p.echo) b k i o (p.bytes.take n) (p.badBytes n)
    | _, _ => closeReq s b r p.echo)

/-- The ring's next buffer (R167). -/
def Site.ringNext (x : Site) : Nat := x.line % max 1 x.bufs.length

/-- Can a site fetch its next pattern line (R167): the ring's next buffer is EMPTY, DEP allows it, and the line is not more than DEP lines
ahead of the oldest FULL buffer? A ZSKIP site that an stv names fetches nothing (log 90). -/
def canStream (x : Site) : Bool :=
  (x.isStream || (x.isZskip && !x.isStore)) && x.lifeOpen && x.mayFill && x.line < x.patternLen && x.inUse < x.dep &&
    (x.bufs.getD x.ringNext emptyBuf).st == .empty && x.bufs.all fun u => u.st != .full || x.line ≤ u.place + x.dep

/-- STREAM_FETCH (R167): a line outside the window stops the engine; a sibling's copy ends the fill at once (R165). -/
def execStreamFetch (b k : Nat) (s : State) : Res :=
  .next (match s.site? b k with
  | none => s
  | some x =>
    if !canStream x then s
    else
      let base := x.patternAt x.line
      if !x.lineInside base then
        engineFault s b k false 0x12 (word base, word (k - ((s.ctx? b x.ctx).map (·.siteBase)).getD 0), word x.lineLen, 0)
      else
        let t := takeFill (s.modSite b k fun x => { x with line := x.line + 1 }) b k x.ringNext base x.line
        if ((t.site? b k).any fun y => (y.bufs.getD x.ringNext emptyBuf).left == 0) then fillsEnded t b else t)

/-- Is a site due its depth step? -/
def depDue (x : Site) : Bool := !x.means.isEmpty

/-- DEP_UPDATE (R174): DEP takes its step for the mean of 64 fills. -/
def execDepUpdate (b k : Nat) (s : State) : Res :=
  .next (s.modSite b k fun x =>
    match x.means with
    | [] => x
    | l :: r => { x with dep := stepToward x.dep ((l + 31) / 32) x.dmin x.dmax, means := r })

end Sys2Proof.Machine
end

