-- ==== Sys2Proof/Machine/TransEvents.lean ====
section
/-!
DEFINITION. Sys2Proof/Machine/TransEvents.lean: TRANSLATE (R340, R341, R346) and shootdowns (R343, R344).
-/
namespace Sys2Proof.Machine

open Sys2Proof

/-! ## TRANSLATE -/

/-- Take a translation off its node. -/
def dropXreq (s : State) (b id : Nat) : State :=
  s.modBay b fun y => { y with xreqs := y.xreqs.filter fun q => q.id != id }

/-- A walk that meets M = 1 waits for a shootdown (R346). -/
def parkXreq (s : State) (b id : Nat) : State :=
  s.modBay b fun y => { y with xreqs := y.xreqs.map fun q => if q.id = id then { q with parked := true } else q }

/-- What translating the pieces of a line comes to. -/
inductive Pieces where
  | ok (l : List (Loc × (Nat × Nat × Nat))) (s : State)
  | stop (code : Nat) (d : Word × Word × Word × Word)
  | park
  | busy

/-- Translate the pieces of a line (R175): pages of kind NORMAL, of the site's memory (R161). -/
def translatePieces (b no : Nat) (x : Site) : List (Nat × Nat × Nat) → State → Pieces
  | [], s => .ok [] s
  | p :: ps, s =>
    match translateFor s b x.ctx p.1 x.phys { needR with mem := some x.src } with
    | .park => .park
    | .busy => .busy
    | .fault c l => .stop c (word p.1, word no, word l, 0)
    | .poison a => .stop 0x20 (lpddrLoc a)
    | .ok l s =>
      match translatePieces b no x ps s with
      | .ok ls s => .ok ((l, p) :: ls) s
      | r => r

/-- The fill of a buffer is translated: one READ for each piece. A fault stops the engine, and the translation waits with
it (R175, R178). -/
def xlatFill (s : State) (b id k i : Nat) : State :=
  match s.site? b k with
  | none => dropXreq s b id
  | some x =>
    let u := x.bufs.getD i emptyBuf
    let base := ((s.ctx? b x.ctx).map (·.siteBase)).getD 0
    let no := k - base
    match lineGuard (s.bay b) x.ctx k x u.line with
    | some g => fillFault s b k i 0x13 (word u.line, word no, word x.lineLen, word (g.site - base))
    | none =>
      match translatePieces b no x (x.pieces u.line) s with
      | .park => parkXreq s b id
      | .busy => s
      | .stop c d => fillFault s b k i c d
      | .ok ls s =>
        let s := modBuf (dropXreq s b id) b k i fun u => { u with left := ls.length }
        ls.foldl (fun s e =>
          issueReq s b
            { unit := x.node, rqid := 0, home := e.1.homeNo
              pkt := reqPacket b x.ctx e.1 0 0 0 e.2.2.2 x.node 1 0 0
              sent := false, goal := .fill k i e.2.2.1 e.2.2.2, since := (s.bay b).clk, ctx := x.ctx, deferred := false
              dead := false, va := if x.phys then none else some e.2.1 }) s

/-- The request of an operation through an ORDERED site. -/
def opRequest (s : State) (b g ix : Nat) (o : MemOp) (x : Site) (ctx : Nat) (l : Loc) : Req :=
  let size := if o.c.w then 128 else o.c.ty.size
  let pkt := match o.kind with
    | .atomic =>
      reqPacket b ctx l 2 (o.op % 16) o.c.ty.code.toNat size x.node o.scope (valWord o.b.val) (if o.op = 0x9D then o.cmp else 0)
    | .ldo => reqPacket b ctx l 3 0 0 size x.node o.scope 0 0
    | _ => reqPacket b ctx l 0 0 0 size x.node o.scope 0 0
  { unit := x.node, rqid := 0, home := l.homeNo, pkt := { pkt with xf := if o.kind = .atomic then o.f.lo8.extractLsb' 5 3 else 0 }
    sent := false, goal := .op g ix o.lsid, since := (s.bay b).clk, ctx := ctx, deferred := false, dead := false
    va := if x.phys then none else some o.ea }

/-- An operation is translated (R179, R194). -/
def xlatOp (s : State) (b id g ix : Nat) (o : MemOp) : State :=
  let ctx := ctxOf s b g ix
  let group := o.kind == .ldg || o.kind == .stg
  let site := s.site? b (siteOf s b ctx o.f)
  let no : Word := if group then 0xFF else word o.f.site.toNat
  let phys := !group && (site.map (·.phys)).getD false
  match translateFor s b ctx o.ea phys (o.need (if group then none else site.map (·.src))) with
  | .park => parkXreq s b id
  | .busy => s
  | .fault c l => opFault (dropXreq s b id) b g ix o c (word o.ea, no, word l, 0)
  | .poison a => opFault (dropXreq s b id) b g ix o 0x20 (lpddrLoc a)
  | .ok l s =>
    let s := dropXreq s b id
    if group then groupIssue s b g ix o l.gdi
    else
      match site with
      | none => s
      | some x =>
        if o.kind == .atomic && o.f.nf && !(l.mem == 0 && l.home == b) then
          opFault s b g ix o 0x15 (word o.ea, no, 0, 0)
        else issueReq s b (opRequest s b g ix o x ctx l)

/-- xlat (R193): the address and a null, or a null and the code. The code of a walk that meets a poisoned entry is not
stated (log 16). -/
def xlatValue (s : State) (b id g ix va : Nat) (wr : Bool) (ctx : Nat) (c : Common) : State :=
  let hn := ((s.inst? b g ix).map (·.hnum)).getD 0
  let out (s : State) (v w : Token) : State :=
    ((dropXreq s b id).sendTarget b g ix hn ctx xlatSrc c.t0 v).sendTarget b g ix hn ctx xlatSrc c.t1 w
  let bad (s : State) (code : Word) : State := out s (nullOn (.sc 0)) (scTok code)
  match translateVa s b ctx va { (if wr then needW else needR) with kinds := [0, 2] } with
  | .park => parkXreq s b id
  | .busy => s
  | .fault code _ => bad s (word code)
  | .poison _ => let f := s.fresh; bad f.2 (f.1 &&& 0xFFFFFFFF)
  | .ok l s => out s (scTok (word l.pa)) (nullOn (.sc 0))

/-- TRANSLATE (R341). A parked write that starts again is translated when it is tried again. -/
def execTranslate (b id : Nat) (s : State) : Res :=
  .next (match (s.bay b).xreqs.find? fun q => q.id == id with
  | none => s
  | some q =>
    if q.parked || q.held then s
    else
      match q.goal with
      | .fill k i => xlatFill s b id k i
      | .op g ix l =>
        match opOf s b ⟨g, ix, l⟩ with
        | none => dropXreq s b id
        | some o => kick (xlatOp s b id g ix o) b
      | .store _ _ | .land _ _ => kick (dropXreq s b id) b
      | .back k _ => kick (wholeLines (dropXreq s b id) b k) b
      | .xlat _ _ g ix c => xlatValue s b id g ix q.va q.write q.ctx c
      | .spill el slot => (spillSlot (dropXreq s b id) b q.ctx el slot).2)

/-! ## Shootdowns (R343) -/

/-- Contexts of a partition on a bay. -/
def Bay.ctxsOf (y : Bay) (n : Nat) : List Nat := (y.ctxs.filter fun e => e.2.part == n).map (·.1)

/-- Does a line of a site lie in the range? PHYS sites are left alone (R193). -/
def lineHit (k : Shoot) (x : Site) (line : Nat) : Bool := !x.phys && (x.pieces line).any fun p => k.covers p.1 p.2.2

/-- Remove the TLB entries of a range. -/
def tlbShoot (y : Bay) (n : Nat) (k : Shoot) : Bay :=
  { y with tlb := y.tlb.filter fun t => !(t.part == n && k.covers t.base t.size) }

/-- Write back what FLUSH and MIGRATE write back on one bay; then the entries go. -/
def shootBay (n : Nat) (k : Shoot) (r : Bool × State) (b : Nat) : Bool × State :=
  let cs := (r.2.bay b).ctxsOf n
  let ks := ((r.2.bay b).sites.filter fun e => cs.contains e.2.ctx).map (·.1)
  let q := if k.kind = 0 then r else
    ks.foldl (fun r i => let q := writeBackSite r.2 b i (fun x u => lineHit k x u.line) 3; (r.1 && q.1, q.2)) r
  (q.1, q.2.modBay b fun y => tlbShoot y n k)

/-- The bays that hold a context. -/
def State.bayNos (s : State) : List Nat := s.bays.map (·.1)

/-- Bring a shootdown forward on every bay; true when the write-backs are done. -/
def shootOn (s : State) (n : Nat) : Bool × State :=
  match (s.part n).shoot with
  | none => (false, s)
  | some k => s.bayNos.foldl (shootBay n k) (true, s)

/-- Was a request translated for bytes in the range? A deferred reader is left aside (R344). -/
def reqHit (k : Shoot) (r : Req) : Bool := !r.deferred && r.va.any fun a => k.covers a (r.pkt.body 204 8 + 1)

/-- Is every access of the partition to the range performed? -/
def accessesDone (s : State) (n : Nat) (k : Shoot) : Bool :=
  s.bays.all fun e =>
    let cs := e.2.ctxsOf n
    !(e.2.reqs.any fun r => cs.contains r.ctx && reqHit k r) &&
    !(e.2.reds.any fun r => cs.contains r.2.ctx && k.covers r.2.va 128)

/-- A deferred-reader list holds a reader of a word in the range (R344). -/
def onceWaits (s : State) (n : Nat) (k : Shoot) : Bool :=
  s.bays.any fun e =>
    let cs := e.2.ctxsOf n
    e.2.readers.any fun r => cs.contains r.ctx && r.va.any fun a => k.covers (a / 32 * 32) 32

/-- Does an image hold a line of the range (R344)? -/
def imageHolds (k : Shoot) (i : Image) : Bool :=
  i.bays.any fun e => e.2.bay.sites.any fun x => x.2.bufs.any fun u =>
    (u.st == .full || u.st == .dirty) && lineHit k x.2 u.line

/-- May a shootdown complete? -/
def shootReady (s : State) (n : Nat) : Bool :=
  match (s.part n).shoot with
  | none => false
  | some k => let q := shootOn s n; q.1 && accessesDone q.2 n k

/-- FLUSH empties FULL buffers of the range. -/
def flushFull (n : Nat) (k : Shoot) (s : State) (b : Nat) : State :=
  let cs := (s.bay b).ctxsOf n
  s.modBay b fun y =>
    { y with sites := y.sites.map fun e =>
        if cs.contains e.2.ctx then
          (e.1, { e.2 with bufs := e.2.bufs.map fun u => if u.st == .full && lineHit k e.2 u.line then emptied u else u })
        else e }

/-- Parked walks of the partition start again. -/
def unpark (n : Nat) (s : State) (b : Nat) : State :=
  let cs := (s.bay b).ctxsOf n
  s.modBay b fun y =>
    { y with xreqs := y.xreqs.map fun q => if cs.contains q.ctx then { q with parked := false } else q }

/-- SHOOTDOWN_COMPLETE (R343). -/
def execShootdownComplete (n : Nat) (s : State) : Res :=
  .next (match (s.part n).shoot with
  | none => s
  | some k =>
    let q := shootOn s n
    if q.1 && accessesDone q.2 n k then
      let s := q.2
      let once := onceWaits s n k
      let img := (s.part n).launches.any fun l => l.image.any fun i => imageHolds k i
      let s := if k.kind = 1 then s.bayNos.foldl (flushFull n k) s else s
      let s := s.modPart n fun p =>
        { p with shoot := none, parked := [], shootDone := k.sseq, shootStat := once.toNat + 2 * img.toNat }
      let s := s.bayNos.foldl (unpark n) s
      s.bayNos.foldl kick s
    else q.2)

/-- A SHOOTCMD write: dropped unless SSEQ is the next, the zero field is zero and no shootdown runs. -/
def shootStart (opn n : Nat) (cmd : Word) (s : State) : State :=
  let p := s.part n
  let sseq := bits cmd 32 32
  if sseq != (p.shootDone + 1) % 2 ^ 32 || bits cmd 28 4 != 0 || bits cmd 26 2 != opn || p.shoot.isSome ||
      Config.parts ≤ n then s
  else (shootOn (s.modPart n fun p => { p with shoot := some ⟨sseq, opn, p.shootVa.toNat, bits cmd 0 26⟩ }) n).2

/-- SHOOTDOWN_INVAL (R343). -/
def execShootdownInval (n : Nat) (cmd : Word) (s : State) : Res := .next (shootStart 0 n cmd s)
/-- SHOOTDOWN_FLUSH (R343). -/
def execShootdownFlush (n : Nat) (cmd : Word) (s : State) : Res := .next (shootStart 1 n cmd s)
/-- SHOOTDOWN_MIGRATE (R343). -/
def execShootdownMigrate (n : Nat) (cmd : Word) (s : State) : Res := .next (shootStart 2 n cmd s)

end Sys2Proof.Machine
end

