-- ==== Sys2Proof/Machine/IslandMath.lean ====
section
/-!
DEFINITION. Sys2Proof/Machine/IslandMath.lean: recipes (R239 to R256), the matrix island's arithmetic (R69, R70, R243), the
images of drains (R246), the tiles of transposes and layouts (R255, R256).
-/
namespace Sys2Proof.Machine

open Sys2Proof

/-! ## Recipes -/

/-- A recipe: its four words (R239). -/
structure Recipe where
  c0 : Word
  c1 : Word
  c2 : Word
  c3 : Word
  deriving DecidableEq, Repr

def Recipe.of (l : List Word) : Recipe := ⟨l.getD 0 0, l.getD 1 0, l.getD 2 0, l.getD 3 0⟩
def Recipe.kind (r : Recipe) : Nat := bits r.c0 60 4

/-- MMA (R241). -/
def Recipe.m (r : Recipe) : Nat := bits r.c0 53 7 + 1
def Recipe.n (r : Recipe) : Nat := bits r.c0 46 7 + 1
def Recipe.k (r : Recipe) : Nat := 32 * (bits r.c0 43 3 + 1)
def Recipe.tya (r : Recipe) : Ty := Ty.ofCode (r.c0.extractLsb' 39 4)
def Recipe.tyb (r : Recipe) : Ty := Ty.ofCode (r.c0.extractLsb' 35 4)
def Recipe.mmaAcc (r : Recipe) : Nat := bits r.c0 33 2
def Recipe.ovw (r : Recipe) : Bool := r.c0.getLsbD 32

/-- DRAIN (R245). -/
def Recipe.drainAcc (r : Recipe) : Nat := bits r.c0 44 2
def Recipe.fmt (r : Recipe) : Nat := bits r.c0 42 2
def Recipe.sat (r : Recipe) : Bool := r.c0.getLsbD 41
def Recipe.clr (r : Recipe) : Bool := r.c0.getLsbD 40
/-- Route entry e of a drain. -/
def Recipe.route (r : Recipe) (e : Nat) : Nat :=
  (r.c1.toNat + r.c2.toNat * 2 ^ 64 + r.c3.toNat * 2 ^ 128) / 2 ^ (24 * e) % 2 ^ 24

/-- COPY, GATHER, TRN, LAY (R248, R251). -/
def Recipe.dk (r : Recipe) : Nat := bits r.c0 58 2
def Recipe.dsite (r : Recipe) : Nat := bits r.c0 50 8
def Recipe.lineLen (r : Recipe) : Nat := 16 * (bits r.c0 42 8 + 1)
def Recipe.tileLines (r : Recipe) : Nat := bits r.c0 34 8 + 1
def Recipe.tok (r : Recipe) : Nat := bits r.c0 10 24
def Recipe.cnt (r : Recipe) (d : Nat) : Nat := bits r.c1 (52 - 12 * d) 12 + 1
def Recipe.str (r : Recipe) (d : Nat) : Int := (r.c2.extractLsb' (64 - 16 * d) 16).toInt * 16
def Recipe.lines (r : Recipe) : Nat := r.cnt 0 * r.cnt 1 * r.cnt 2 * r.cnt 3
def Recipe.mstr (r : Recipe) : Nat := bits r.c2 (if r.kind = 4 then 32 else 0) 16 * 16

/-- GATHER (R251). -/
def Recipe.nidx (r : Recipe) : Nat := bits r.c1 54 10 + 1
def Recipe.isite (r : Recipe) : Nat := bits r.c1 46 8
def Recipe.oor (r : Recipe) : Bool := r.c1.getLsbD 45
def Recipe.trows (r : Recipe) : Nat := bits r.c1 13 32
def Recipe.tstr (r : Recipe) : Nat := bits r.c2 48 16 * 16

/-- TRN and LAY (R255, R256). -/
def Recipe.es (r : Recipe) : Nat := bits r.c3 62 2
def Recipe.sl (r : Recipe) : Nat := bits r.c3 60 2
def Recipe.dl (r : Recipe) : Nat := bits r.c3 58 2
def Recipe.pos (r : Recipe) : Nat := bits r.c3 51 7 + 1
def Recipe.chans (r : Recipe) : Nat := bits r.c3 41 10 + 1

/-- Tiles of a pipeline; the last of a gather may be short (log 17). -/
def Recipe.tileCount (r : Recipe) : Nat :=
  if r.kind = 4 then (r.nidx + r.tileLines - 1) / r.tileLines else r.lines / r.tileLines

/-- The address of source line i (R248). -/
def Recipe.lineAt (r : Recipe) (base i : Nat) : Nat :=
  let i0 := i % r.cnt 0
  let i1 := i / r.cnt 0 % r.cnt 1
  let i2 := i / (r.cnt 0 * r.cnt 1) % r.cnt 2
  let i3 := i / (r.cnt 0 * r.cnt 1 * r.cnt 2)
  wrapTo 64 ((base : Int) + i0 * (r.lineLen : Int) + i1 * r.str 1 + i2 * r.str 2 + i3 * r.str 3)

/-! ## Route entries (R240) -/

def routeKind (e : Nat) : Nat := e / 2 ^ 22 % 4
def routePos (e : Nat) : Nat := e / 2 ^ 15 % 128
def routeGate (e : Nat) : Nat := e / 2 ^ 12 % 8
def routeHnum (e : Nat) : Nat := e / 2 ^ 7 % 32
def routeEnt (e : Nat) : Nat := e / 2 ^ 4 % 8
def routeFld (e : Nat) : Nat := e % 8
def routeStride (e : Nat) : Nat := e / 2 ^ 6 % 2 ^ 16 * 16

/-! ## Matrix arithmetic -/

/-- Group size (R69). -/
def groupSize (t : Ty) : Nat := if t = .f16 ∨ t = .bf16 then 8 else 32

/-- Bytes of n elements of an operand type; q4 codes lie two to a byte. -/
def operandBytes (t : Ty) (n : Nat) : Nat := if t = .q4 then n / 2 else n * t.size

/-- dec (R243): the exact value of element i of a tile. -/
def matElem (nbv : Nat) (t : Ty) (data scal : List Byte) (i : Nat) : FV :=
  if t = .q4 then
    let b := (data.getD (i / 2) 0).toNat
    let c := if i % 2 = 0 then b % 16 else b / 16
    let sb := (scal.getD (i / 32) 0).toNat
    let v := q4Decode nbv (sb / 64) c
    .fin (v < 0) v.natAbs (-1 + (sb % 64 : Int) - 31)
  else
    let p := leNat ((data.drop (i * t.size)).take t.size)
    if t.isFloat || t.isFmt then (fmtOf t).decode p else ofInt (readInt t.signed 8 p)

/-- A product; of integers and q4 codes a zero is +0 (R69). -/
def matMul (t : Ty) (x y : FV) : FV :=
  let p := x.mul y
  if p.isZero && !(t.isFloat || t.isFmt) then .fin false 0 0 else p

/-- S_g: the exact sum of the products of a group (R69, R70). -/
def groupSum (t : Ty) (xs ys : List FV) : FV :=
  match xs.zip ys with
  | [] => .fin false 0 0
  | (x, y) :: l => l.foldl (fun a p => a.add (matMul t p.1 p.2) .rn) (matMul t x y)

/-- accumulate (R69): the f32 word after the groups. -/
def accumulate (ovw : Bool) (old : Nat) : List FV → Nat
  | [] => old
  | s :: l =>
    let first := if ovw then fmtF32.round s .rn false else fmtF32.round ((fmtF32.decode old).add s .rn) .rn false
    l.foldl (fun acc s => fmtF32.round ((fmtF32.decode acc).add s .rn) .rn false) first

/-- The new word at row m and column n. -/
def matWord (nbv : Nat) (r : Recipe) (a b sa sb : List Byte) (old m n : Nat) : Nat :=
  let g := groupSize r.tya
  let row (t : Ty) (d s : List Byte) (i k : Nat) : List FV := (List.range g).map fun j => matElem nbv t d s (i * r.k + k * g + j)
  accumulate r.ovw old ((List.range (r.k / g)).map fun k => groupSum r.tya (row r.tya a sa m k) (row r.tyb b sb n k))

/-- A word of an accumulator tile. -/
def AccTile.at' (t : AccTile) (i : Nat) : Nat := (AMap.getD t.words i 0).toNat
def AccTile.put (t : AccTile) (i v : Nat) : AccTile :=
  { t with words := if v % 2 ^ 32 = 0 then AMap.erase t.words i else AMap.set t.words i (BitVec.ofNat 32 v) }

/-- The places of an M × N corner. -/
def corner (m n : Nat) : List Nat := (List.range m).flatMap fun i => (List.range n).map fun j => 128 * i + j

/-- Is the whole 64-bit unit of a word within the corner of a recipe (R379)? -/
def Recipe.coversUnit (r : Recipe) (i : Nat) : Bool :=
  let inside (j : Nat) : Bool := j / 128 < r.m && j % 128 < r.n
  inside (i / 2 * 2) && inside (i / 2 * 2 + 1)

/-- An mma on a tile: words outside the corner keep their values; a unit that is overwritten whole loses its poison mark (R380). -/
def matTile (nbv : Nat) (r : Recipe) (a b sa sb : List Byte) (t : AccTile) : AccTile :=
  let t := (corner r.m r.n).foldl (fun t i => t.put i (matWord nbv r a b sa sb (t.at' i) (i / 128) (i % 128))) t
  if r.ovw then { t with poi := t.poi.filter fun i => !r.coversUnit i } else t

/-! ## Drains (R246) -/

/-- Bytes of a drained value. -/
def drainSize (fmt : Nat) : Nat := if fmt = 0 then 4 else if fmt = 1 then 2 else 1

/-- A row of the image with its scale byte. -/
def drainRow (nbv : Nat) (r : Recipe) (t : AccTile) (m : Nat) : List Byte × Nat :=
  let ws := (List.range r.n).map fun n => t.at' (128 * m + n)
  let xs := ws.map fmtF32.decode
  let e := if r.fmt = 2 then scaleExp (amaxOf xs) 448 else 0
  let out (x : FV) (w : Nat) : Nat :=
    if r.fmt = 0 then w
    else if r.fmt = 1 then roundTo nbv .bf16 .rn r.sat x
    else fmtE4m3.round (x.scale (31 - (e : Int))) .rn r.sat
  ((xs.zip ws).flatMap fun p => leBytes (drainSize r.fmt) (out p.1 p.2), e)

/-- The image: rows, then with FMT 10 the row of scale bytes. -/
def drainImage (nbv : Nat) (r : Recipe) (t : AccTile) : List (List Byte) :=
  let rows := (List.range r.m).map (drainRow nbv r t)
  rows.map (·.1) ++ (if r.fmt = 2 then [rows.map fun p => BitVec.ofNat 8 p.2] else [])

/-- Is a word of row m poisoned? The scale row carries the poison of every row. -/
def drainPoison (r : Recipe) (t : AccTile) (m : Nat) : Bool :=
  t.poi.any fun i => i % 128 < r.n && (if m < r.m then i / 128 == m else decide (i / 128 < r.m))

/-- The vector tokens of an ENTRY route: index, bytes, poison (R246). -/
def drainTokens (r : Recipe) (t : AccTile) (image : List (List Byte)) : List Tile :=
  let cpr := (r.n * drainSize r.fmt + 127) / 128
  (image.zipIdx).flatMap fun e =>
    let p := drainPoison r t e.2
    if e.2 = r.m then [⟨r.m * cpr, e.1, [p], 0, [], 0, 0⟩]
    else (List.range cpr).map fun k => ⟨e.2 * cpr + k, (e.1.drop (128 * k)).take 128, [p], 0, [], 0, 0⟩

/-! ## Tiles of transposes and layouts -/

/-- A byte or a code with its poison mark. -/
abbrev Atom := Nat × Bool

def atomsOf (bs : List Byte) (poi : List Bool) : List Atom := bs.zipIdx.map fun e => (e.1.toNat, poi.getD e.2 false)

/-- The codes of a list of bytes, low half first (R59). -/
def halves (l : List Atom) : List Atom := l.flatMap fun a => [(a.1 % 16, a.2), (a.1 / 16, a.2)]

/-- Codes joined to bytes. -/
def joinHalves : List Atom → List Atom
  | a :: b :: l => (a.1 % 16 + 16 * (b.1 % 16), a.2 || b.2) :: joinHalves l
  | [a] => [(a.1 % 16, a.2)]
  | [] => []

/-- A tile of Rt lines of Ct elements as Ct lines of Rt (R255). -/
def transposeAtoms (k rt ct : Nat) (l : List Atom) : List Atom :=
  (List.range ct).flatMap fun c => (List.range rt).flatMap fun r => (l.drop ((r * ct + c) * k)).take k

/-- Elements of a layout of P positions and C channels (R64, R256). -/
def layoutLen (d p c : Nat) : Nat := if d = 0 then p * ((c + 31) / 32) * 32 else p * c

/-- The element of position i and channel j in a layout. -/
def layoutAt (d p c i j : Nat) : Nat :=
  if d = 0 then (i * ((c + 31) / 32) + j / 32) * 32 + j % 32 else if d = 1 then i * c + j else j * p + i

/-- The position and channel of element e of a layout; none for padding. -/
def layoutOf (d p c e : Nat) : Option (Nat × Nat) :=
  if d = 0 then
    let b := (c + 31) / 32
    let j := e / 32 % b * 32 + e % 32
    if j < c then some (e / 32 / b, j) else none
  else if d = 1 then some (e / c, e % c)
  else some (e % p, e / p)

/-- A tile in another layout (R256): padding is written as zero. -/
def layoutAtoms (k sl dl p c : Nat) (l : List Atom) : List Atom :=
  (List.range (layoutLen dl p c)).flatMap fun e =>
    match layoutOf dl p c e with
    | none => List.replicate k (0, false)
    | some (i, j) => (l.drop (layoutAt sl p c i j * k)).take k

/-- What a streamer makes of a tile's source bytes. -/
def tileAtoms (r : Recipe) (l : List Atom) : List Atom :=
  if r.kind = 5 then
    let k := 2 ^ r.es
    transposeAtoms k r.tileLines (r.lineLen / k) l
  else if r.kind = 6 then
    if r.es = 3 then joinHalves (layoutAtoms 1 r.sl r.dl r.pos r.chans (halves l))
    else layoutAtoms (2 ^ r.es) r.sl r.dl r.pos r.chans l
  else l

/-- Lines of an output tile, for a stride: a layout's output is one line (log 17). -/
def Recipe.outLines (r : Recipe) : Nat :=
  if r.kind = 5 then r.lineLen / 2 ^ r.es else if r.kind = 6 then 1 else r.tileLines

/-- Bytes of an output tile. -/
def Recipe.outBytes (r : Recipe) : Nat :=
  if r.kind = 6 then
    let n := layoutLen r.dl r.pos r.chans
    if r.es = 3 then (n + 1) / 2 else n * 2 ^ r.es
  else r.tileLines * r.lineLen

end Sys2Proof.Machine
end

