-- ==== Sys2Proof/Machine/IslandEvents.lean ====
section
/-!
DEFINITION. Sys2Proof/Machine/IslandEvents.lean: the steps of the islands (R234 to R262): acceptance, the matrix island, the
streamer pipelines, sstop, and the splice channels they use (R257, R319, R320).
-/
namespace Sys2Proof.Machine

open Sys2Proof

/-! ## Splice channels (R319, R320) -/

/-- The number of a channel. -/
def chanKey (port chan : Nat) : Nat := 16 * port + chan

/-- A channel's register word, STATE aside. -/
def Chan.word (c : Chan) : Word :=
  BitVec.ofNat 64 (c.en.toNat * 2 ^ 63 + c.owner * 2 ^ 58 + c.dev * 2 ^ 38 + c.port * 2 ^ 34 + c.chan * 2 ^ 30)

/-- STATE of a channel: 0 UNBOUND, 1 WAITING, 2 UP, 3 LOST. -/
def chanState (s : State) (port chan : Nat) : Nat :=
  match AMap.get? s.chans (chanKey port chan) with
  | none => 0
  | some c =>
    if !c.en then 0 else if c.lost then 3 else if c.up then 2 else 1

/-- The header flit of a frame out of a channel (R320). -/
def frameHeader (s : State) (port chan kind tile addr : Nat) : Flit :=
  let c := AMap.getD s.chans (chanKey port chan) ⟨false, 0, 0, 0, 0, false, false⟩
  BitVec.ofNat 256 (c.dev * 2 ^ 236 + s.devnum.toNat * 2 ^ 216 + c.port * 2 ^ 212 + c.chan * 2 ^ 208 + port * 2 ^ 204 +
    chan * 2 ^ 200 + kind * 2 ^ 196 + tile % 2 ^ 32 * 2 ^ 164 + addr % 2 ^ 64 * 2 ^ 100)

/-- Send a frame. -/
def sendFrame (s : State) (port chan kind tile addr : Nat) (data : List Byte) (poi : Bool) : State :=
  { s with spliceOut := s.spliceOut ++ [⟨port, frameHeader s port chan kind tile addr, data, poi⟩] }

/-! ## Commands at the head of their port -/

def headCmd (s : State) (b isl p : Nat) : Option IslCmd := (s.port b isl p).queue.head?

/-- The recipe of a command. -/
def cmdRecipe (s : State) (b : Nat) (k : IslCmd) : Recipe :=
  Recipe.of (AMap.getD (((s.ctx? b k.ctx).map (·.recipes)).getD []) k.f.rcp.toNat [])

/-- The widths of the layout of a command's hitch. -/
def cmdWidths (s : State) (b : Nat) (k : IslCmd) : List Nat :=
  ((s.hitch? b k.gate k.ctx (s.slot b k.el k.slot).hnum).map (·.widths)).getD []

/-- Does a cut hold the streamers of a context still (R359)? -/
def cutPaused (s : State) (b ctx : Nat) : Bool := (s.ctx? b ctx).any fun c => c.cut.any (·.stopped)

/-- Is the region of a context frozen on a bay, so that tokens its islands owe wait (R351)? In a cut they go (R363). -/
def owesWait (s : State) (b ctx : Nat) : Bool := (s.ctx? b ctx).any fun c => c.frozen && !(c.cut.any (·.stopped))

/-- The source of an island token that comes into being now (R132, R351). -/
def islFrom (s : State) (b ctx isl p : Nat) : Nat := if owesWait s b ctx then islSrc isl p + 64 else islSrc isl p

/-- Stall a generator of a command's port with an operand fault (R259): TILES are the tiles a streamer's pipeline has had arrive, or the
commands completed on the port. -/
def islandStall (s : State) (b isl p : Nat) (k : IslCmd) (cause gen addr line : Nat) : State :=
  let q := s.port b isl p
  let tiles := if isl = 0 then q.done else (q.run.map (·.arrived)).getD q.done
  s.stallIsland b isl p k (gen == 1) 0x21
    (word (cause * 2 ^ 60 + isl * 2 ^ 58 + p * 2 ^ 54 + k.f.rcp.toNat * 2 ^ 44 + gen * 2 ^ 41), word addr,
      word (tiles % 2 ^ 32 * 2 ^ 32 + line % 2 ^ 16 * 2 ^ 16), k.tag)

/-- A GATHER_INDEX fault (R253, R259). -/
def indexStall (s : State) (b isl p : Nat) (k : IslCmd) (pos val row : Nat) (poi : Bool) : State :=
  let q := s.port b isl p
  s.stallIsland b isl p k false 0x22
    (word (isl * 2 ^ 58 + p * 2 ^ 54 + k.f.rcp.toNat * 2 ^ 44 + 2 * 2 ^ 41), word (pos * 2 ^ 32 + val % 2 ^ 32),
      word (((q.run.map (·.arrived)).getD 0) % 2 ^ 32 * 2 ^ 32 + row % 2 ^ 16 * 2 ^ 16 + poi.toNat), k.tag)

/-- A generator meets the poisoned entry of its site (R355). -/
def siteStall (s : State) (b isl p : Nat) (k : IslCmd) (dst : Bool) (x : Site) : State :=
  s.stallIsland b isl p k dst 0x20 (locWord 3 x.node, 0, 0, 0)

/-- Is the destination's generator stalled still? -/
def dstStalled (s : State) (b isl p : Nat) (k : IslCmd) : Bool := s.stopStands (s.partOf b k.ctx) (s.port b isl p).stallDst

/-- Send the tokens a command owes: done, and what T1 receives (R236, R250). -/
def cmdTokens (s : State) (b isl p : Nat) (k : IslCmd) (v1 : Val) : State :=
  let hn := (s.slot b k.el k.slot).hnum
  let src := islFrom s b k.ctx isl p
  (s.sendTarget b k.gate k.ix hn k.ctx src k.c.t0 ⟨.ct 1, false, false⟩).sendTarget b k.gate k.ix hn k.ctx src k.c.t1 ⟨v1, false, false⟩

/-- The head command of a port retires; reads still out for it are dropped when they are answered. -/
def retire (s : State) (b isl p : Nat) (k : IslCmd) (v1 : Val) : State :=
  let s := s.modPort b isl p fun q => { q with queue := q.queue.tail, run := none, done := q.done + 1, stall := none, stallDst := none }
  let s := s.modBay b fun y => { y with
    reqs := y.reqs.map fun r => match r.goal with
      | .tile i q _ _ => if i = isl ∧ q = p then { r with dead := true } else r
      | _ => r
    xreqs := y.xreqs.filter fun q => q.goal != .land isl p && q.goal != .land isl (p + 4) }
  traceIsland (cmdTokens s b isl p k v1) b k 1

/-- Send a token of a route as an exit would: the command's tag with field FLD set (R240). -/
def routeToken (s : State) (b isl p : Nat) (k : IslCmd) (e idx : Nat) (v : Val) (poi : Bool) : State :=
  if routeKind e != 1 then s
  else
    deliverEntry s b k.ctx (routePos e)
      { bay := b, gate := routeGate e, hnum := routeHnum e, entry := routeEnt e, ctx := k.ctx
        tag := tagPut (cmdWidths s b k) k.tag (routeFld e) idx, tok := ⟨v, false, poi⟩, chan := none, src := islFrom s b k.ctx isl p }

/-- Must a token of a route wait at its island: it goes to another bay of a frozen region (R351)? -/
def routeWaits (s : State) (b : Nat) (k : IslCmd) (e : Nat) : Bool :=
  routeKind e == 1 && owesWait s b k.ctx && ((s.ctx? b k.ctx).bind (·.bayAt (routePos e))) != some b

/-- An island has served a port: the turn is the next one's (R235). -/
def served (s : State) (b isl p : Nat) : State := s.modBay b fun y => { y with turns := AMap.set y.turns isl ((p + 1) % 4) }

/-! ## Acceptance (R235, R258) -/

/-- The command of a port's network that can be accepted next. -/
def acceptNo (q : IslPort) : Option Nat :=
  let room := (q.queue.filter fun k => k.op != 0xBA).length < 8
  let spare := !(q.queue.any fun k => k.op == 0xBA)
  match q.net with
  | [] => none
  | k :: _ =>
    if k.op = 0xBA then (if spare then some 0 else none)
    else if room then some 0
    else if spare then placeOf (fun k : IslCmd => k.op == 0xBA) q.net 0
    else none

/-- ISLAND_COMMAND_ACCEPT (R235): an sstop ends what its port accepted before it (R258); a halt ends pipelines (R273). -/
def execIslandCommandAccept (b isl p : Nat) (s : State) : Res :=
  .next (match acceptNo (s.port b isl p) with
  | none => s
  | some i =>
    match (s.port b isl p).net[i]? with
    | none => s
    | some k =>
      let k := { k with stop := k.stop || (isl != 0 && (s.ctx? b k.ctx).any (·.halted)) }
      let s := s.modPort b isl p fun q =>
        { q with
          net := dropAt q.net i
          queue := (if k.op = 0xBA then q.queue.map fun j => { j with stop := true } else q.queue) ++ [k] }
      traceIsland s b k 0)

/-! ## The matrix island -/

/-- The feed tile of a tag, the oldest. -/
def feedTile (s : State) (b ctx f tag : Nat) : Option FeedTile :=
  (AMap.getD (s.bay b).feeds f []).find? fun t => t.ctx == ctx && t.tag == tag

/-- The feeds an mma reads, with their tiles' sizes (R242). -/
def mmaFeeds (r : Recipe) (q4 : Bool) : List (Nat × Nat) :=
  [(0, operandBytes r.tya (r.m * r.k)), (1, operandBytes r.tyb (r.n * r.k))] ++
    (if q4 then [(2, r.m * r.k / 32), (3, r.n * r.k / 32)] else [])

/-- Feeds an mma at the head waits for. -/
def mmaLacks (s : State) (b : Nat) (k : IslCmd) : List Nat :=
  ((mmaFeeds (cmdRecipe s b k) (k.op == 0xB1)).map (·.1)).filter fun f => (feedTile s b k.ctx f (k.a.toNat % 2 ^ 32)).isNone

/-- Take the consumed tiles out of their slots. -/
def dropTiles (s : State) (b ctx tag : Nat) (fs : List Nat) : State :=
  fs.foldl (fun s f => s.modBay b fun y =>
    let l := AMap.getD y.feeds f []
    { y with feeds := AMap.set y.feeds f (match placeOf (fun t : FeedTile => t.ctx == ctx && t.tag == tag) l 0 with
      | some i => dropAt l i
      | none => l) }) s

/-- MMA_EXECUTE (R243): both instructions. -/
def execMmaExecute (b p : Nat) (s : State) : Res :=
  .next (match headCmd s b 0 p with
  | none => s
  | some k =>
    if (k.op != 0xB0 && k.op != 0xB1) || (s.port b 0 p).stall.isSome || !(mmaLacks s b k).isEmpty then s
    else
      let s := served s b 0 p
      let r := cmdRecipe s b k
      let tag := k.a.toNat % 2 ^ 32
      let fs := mmaFeeds r (k.op == 0xB1)
      let tile (f : Nat) : FeedTile := (feedTile s b k.ctx f tag).getD ⟨0, 0, [], false⟩
      match fs.find? fun f => (tile f.1).data.length != f.2 with
      | some f => islandStall s b 0 p k 4 (3 + f.1) 0 0
      | none =>
        match fs.find? fun f => (tile f.1).poi with
        | some f => islandStall s b 0 p k 6 (3 + f.1) 0 0
        | none =>
          let s := s.modBay b fun y =>
            { y with
              acc := AMap.set y.acc r.mmaAcc
                (matTile (nbvOf s b k.ctx) r (tile 0).data (tile 1).data (tile 2).data (tile 3).data
                  (AMap.getD y.acc r.mmaAcc ⟨[], []⟩)) }
          retire (dropTiles s b k.ctx tag (fs.map (·.1))) b 0 p k (.ct 1))

/-- ACLR_EXECUTE (R244). -/
def execAclrExecute (b p : Nat) (s : State) : Res :=
  .next (match headCmd s b 0 p with
  | none => s
  | some k =>
    if k.op != 0xB2 then s
    else
      retire ((served s b 0 p).modBay b fun y => { y with acc := AMap.set y.acc (k.f.aux11.toNat % 4) ⟨[], []⟩ }) b 0 p k (.ct 1))

/-! ## Memory of the islands (R250) -/

/-- CAUSE of a translation fault. -/
def xCause (code : Nat) : Nat := if code = xMiss then 0 else 1

/-- UNIT of an island (R182). -/
def islUnit (isl : Nat) : Nat := 9 + isl

/-- What translating the pieces of a read comes to; the state holds what was translated. -/
inductive Io where
  | ok (l : List (Loc × (Nat × Nat × Nat))) (s : State)
  | stop (cause addr line : Nat) (s : State)
  | poison (addr : Nat) (s : State)
  | wait (s : State)

/-- Does a walk of a port's source (or, with `dst`, destination) wait for a migration (R346)? -/
def ioParked (s : State) (b isl p : Nat) (dst : Bool) : Bool :=
  (s.bay b).xreqs.any fun q => q.parked && q.goal == .land isl (if dst then p + 4 else p)

/-- Translate the pieces of a read, lines of `len` bytes, in order. -/
def ioTranslate (b isl p : Nat) (k : IslCmd) (phys : Bool) (len : Nat) : List (Nat × Nat × Nat) → State → Io
  | [], s => .ok [] s
  | q :: qs, s =>
    match translateFor s b k.ctx q.1 phys needR with
    | .park => .wait (parkWrite s b k.ctx q.1 (.land isl p))
    | .busy => .wait s
    | .fault c _ => .stop (xCause c) q.1 (q.2.1 / len) s
    | .poison a => .poison a s
    | .ok l s =>
      match ioTranslate b isl p k phys len qs s with
      | .ok ls s => .ok ((l, q) :: ls) s
      | r => r

/-- The state an island read that does not start leaves, its generator stalled if it met a fault. -/
def Io.stopped (b isl p : Nat) (k : IslCmd) (gen : Nat) : Io → State
  | .ok _ s | .wait s => s
  | .stop c a n s => islandStall s b isl p k c gen a n
  | .poison a s => s.stallIsland b isl p k false 0x20 (lpddrLoc a)

/-- Issue the translated reads of the index list or of a tile, each by a request to its home (R182, R250). -/
def issueReads (b isl p : Nat) (k : IslCmd) (phys : Bool) (n : Nat) (ls : List (Loc × (Nat × Nat × Nat))) (s : State) : State :=
  ls.foldl (fun s e =>
    issueReq s b
      { unit := islUnit isl, rqid := 0, home := e.1.homeNo
        pkt := reqPacket b k.ctx e.1 0 0 0 e.2.2.2 (islUnit isl) 3 0 0
        sent := false, goal := .tile isl p n e.2.2.1, since := (s.bay b).clk, ctx := k.ctx, deferred := false, dead := false
        va := if phys then none else some e.2.1 }) s

/-- Issue the writes of a tile at the head of its port, from the piece its last one reached on: address, place in the tile, length. A stop
keeps the rest, and names the line of the tile, or the row of a drain's image (R259). -/
def writePieces (b isl p : Nat) (k : IslCmd) (len : Nat) (t : Tile) : List (Nat × Nat × Nat) → State → State
  | [], s => s
  | q :: qs, s =>
    let mark : XFor := .land isl (p + 4)
    match writeRun s b k.ctx (islUnit isl) q.1 3 false needW ((t.data.drop q.2.1).take q.2.2) ((t.poi.drop q.2.1).take q.2.2)
      (.land isl p) mark with
    | .wait s => s
    | .done s =>
      writePieces b isl p k len t qs (s.modPort b isl p fun q => { q with
        stallDst := none
        run := q.run.map fun x => { x with tiles := match x.tiles with
          | u :: l => { u with sent := u.sent + 1 } :: l
          | [] => [] } })
    | .fault c _ => islandStall s b isl p k (xCause c) 1 q.1 (if isl = 0 then t.idx else q.2.1 / len)
    | .bad a => s.stallIsland b isl p k true 0x20 (lpddrLoc a)
    | .full a => s.stallIsland b isl p k true 0x20 (lpddrLoc a) true

/-- Issue what is left of the writes of the first tile under way: true once all of them are. -/
def writeTile (s : State) (b isl p : Nat) (k : IslCmd) (len : Nat) (t : Tile) (ps : List (Nat × Nat × Nat)) : Bool × State :=
  let s := writePieces b isl p k len t (ps.drop t.sent) s
  (((s.port b isl p).run.bind (·.tiles.head?)).any (fun u => ps.length ≤ u.sent), s)

/-- Is a write of a port still to be acknowledged? -/
def landOut (s : State) (b isl p : Nat) : Bool := (s.bay b).reqs.any fun r => r.goal == .land isl p && !r.dead

/-- Is a read of a port still to be answered? -/
def readOut (s : State) (b isl p : Nat) : Bool :=
  (s.bay b).reqs.any fun r => !r.dead && (match r.goal with | .tile i q _ _ => i == isl && q == p | _ => false)

/-- The first tile under way of a port. -/
def headTile (s : State) (b isl p : Nat) : Option Tile := (s.port b isl p).run.bind (·.tiles.head?)

/-! ## Drains (R246, R262) -/

/-- Set the drained words to +0. -/
def drainClear (s : State) (b : Nat) (r : Recipe) : State :=
  if r.clr then
    s.modBay b fun y =>
      let t := AMap.getD y.acc r.drainAcc ⟨[], []⟩
      { y with
        acc := AMap.set y.acc r.drainAcc
          { words := t.words.filter fun e => !(e.1 / 128 < r.m && e.1 % 128 < r.n)
            poi := t.poi.filter fun i => !r.coversUnit i } }
  else s

/-- A pipeline that starts. -/
def newPipe : Pipe :=
  { next := 0, arrived := 0, index := none, listing := none, tiles := [], zeroed := 0, zfill := [], asked := 0, confirmed := 0, notices := 0 }

/-- The route entry a drain's steering names. -/
def drainRoute (s : State) (b : Nat) (k : IslCmd) : Nat := (cmdRecipe s b k).route (k.a.toNat % 2 ^ 32)

/-- Is the last token a drain sent still on its way to its entry buffer, on the bay or in the rings (R262)? -/
def tokenOut (s : State) (b : Nat) (k : IslCmd) (x : Pipe) : Bool :=
  let e := drainRoute s b k
  let tag := tagPut (cmdWidths s b k) k.tag (routeFld e) (x.asked - 1)
  let it (m : EntMsg) : Bool :=
    m.ctx == k.ctx && m.gate == routeGate e && m.hnum == routeHnum e && m.entry == routeEnt e && m.tag == tag &&
      ((s.ctx? b k.ctx).bind (·.bayAt (routePos e))) == some m.bay
  x.asked != 0 && (s.flight.any (fun f => match f with | .gateEntryToken m => it m | _ => false) ||
    s.packets.any fun p => p.kind == 0 && it (tokenOf p none))

/-- The rows a drain writes to memory, as tiles (R246). -/
def drainRows (r : Recipe) (t : AccTile) (image : List (List Byte)) : List Tile :=
  image.zipIdx.map fun x => ⟨x.2, x.1, List.replicate x.1.length (drainPoison r t x.2), 0, [], 0, 0⟩

/-- The start of a drain: it reads its whole tile. -/
def drainStart (s : State) (b p : Nat) (k : IslCmd) : State :=
  let r := cmdRecipe s b k
  let e := drainRoute s b k
  if 8 ≤ k.a.toNat % 2 ^ 32 || (routeKind e == 2 && !k.f.aux11.getLsbD 0) then islandStall s b 0 p k 5 7 0 0
  else if routeKind e = 2 ∧ k.b.toNat % 16 ≠ 0 then islandStall s b 0 p k 2 1 k.b.toNat 0
  else
    let t := AMap.getD (s.bay b).acc r.drainAcc ⟨[], []⟩
    let image := drainImage (nbvOf s b k.ctx) r t
    s.modPort b 0 p fun q => { q with run := some { newPipe with
      tiles := if routeKind e = 1 then drainTokens r t image else if routeKind e = 2 then drainRows r t image else [] } }

/-- The pieces of a drain's row in memory. -/
def rowPieces (s : State) (b : Nat) (k : IslCmd) (t : Tile) : List (Nat × Nat × Nat) :=
  cutRun (t.data.length / 64 + 2) ((k.b.toNat + t.idx * routeStride (drainRoute s b k)) % 2 ^ 64) 0 t.data.length

/-- Drop the first tile under way of a port. -/
def dropTile (s : State) (b isl p : Nat) : State :=
  s.modPort b isl p fun q => { q with run := q.run.map fun x => { x with tiles := x.tiles.tail } }

/-- The end of a drain: its image is delivered or performed; the drained words are cleared (R246). -/
def drainEnd (s : State) (b p : Nat) (k : IslCmd) : State := retire (drainClear s b (cmdRecipe s b k)) b 0 p k (.ct 1)

/-- Can a drain move: it starts; its last token has its place; a row can be written, or is acknowledged? -/
def drainReady (s : State) (b p : Nat) : Bool :=
  (headCmd s b 0 p).any fun k =>
    k.op == 0xB3 && (s.port b 0 p).stall.isNone && !dstStalled s b 0 p k &&
      (match (s.port b 0 p).run with
        | none => true
        | some x =>
          if routeKind (drainRoute s b k) = 1 then
            !tokenOut s b k x && (x.tiles.isEmpty || !routeWaits s b k (drainRoute s b k))
          else if x.tiles.isEmpty then !landOut s b 0 p
          else !ioParked s b 0 p true)

/-- DRAIN_EXECUTE (R246): it starts; it sends the next token of its image, one at a time, or writes the next row; it ends. -/
def execDrainExecute (b p : Nat) (s : State) : Res :=
  .next (match headCmd s b 0 p with
  | none => s
  | some k =>
    if !drainReady s b p then s
    else
      let s := served s b 0 p
      match (s.port b 0 p).run with
      | none => drainStart s b p k
      | some x =>
        match x.tiles with
        | [] => drainEnd s b p k
        | t :: _ =>
          if routeKind (drainRoute s b k) = 1 then
            let s := (dropTile s b 0 p).modPort b 0 p fun q => { q with run := q.run.map fun x => { x with asked := t.idx + 1 } }
            routeToken s b 0 p k (drainRoute s b k) t.idx (.vec (bytesVec t.data)) (t.poi.any id)
          else
            let q := writeTile s b 0 p k t.data.length t (rowPieces s b k t)
            if q.1 then dropTile q.2 b 0 p else q.2)

/-! ## Pipelines (R248 to R257) -/

/-- Is a command a pipeline? -/
def isPipe (op : Nat) : Bool := 0xB4 ≤ op && op ≤ 0xB9

/-- speer's port, channel and direction (R238). -/
def speerPort (k : IslCmd) : Nat := k.f.aux11.toNat / 128 % 16
def speerChan (k : IslCmd) : Nat := k.f.aux11.toNat / 8 % 16
def speerIn (k : IslCmd) : Bool := k.op == 0xB9 && k.f.aux11.getLsbD 2
def speerOut (k : IslCmd) : Bool := k.op == 0xB9 && !k.f.aux11.getLsbD 2

/-- Is the channel of a speer up and its own (R257, R321)? -/
def speerUp (s : State) (b : Nat) (k : IslCmd) : Bool :=
  k.op != 0xB9 ||
    (chanState s (speerPort k) (speerChan k) == 2 &&
      ((AMap.get? s.chans (chanKey (speerPort k) (speerChan k))).map (·.owner)) == some (s.partOf b k.ctx))

/-- The destination operand: port B, C for sgath, sscat and speer (R238). -/
def destOp (k : IslCmd) : Nat := (if k.op = 0xB5 ∨ k.op = 0xB6 ∨ k.op = 0xB9 then k.cc else k.b).toNat

/-- The site a pipeline feeds. -/
def destSite (s : State) (b : Nat) (k : IslCmd) : Nat := ((s.ctx? b k.ctx).map (·.siteBase)).getD 0 + (cmdRecipe s b k).dsite

/-- The life key of a pipeline's start token. -/
def startKey (s : State) (b : Nat) (k : IslCmd) (x : Site) : Nat := x.lifeKey (cmdWidths s b k) k.tag

/-- May a pipeline start: its destination is free? -/
def destFree (s : State) (b : Nat) (k : IslCmd) : Bool :=
  let r := cmdRecipe s b k
  if r.dk = 0 then (s.site? b (destSite s b k)).all fun x => !x.lifeBars (startKey s b k x)
  else if r.dk = 1 then (AMap.get? (s.bay b).feedBy (r.dsite % 4)).isNone
  else true

/-- Can the head pipeline of a port start? One that an sstop has ended starts to end, though it stands stalled (R258). -/
def startReady (s : State) (b isl p : Nat) : Bool :=
  match headCmd s b isl p with
  | none => false
  | some k =>
    isPipe k.op && (s.port b isl p).run.isNone &&
      (k.stop || ((s.port b isl p).stall.isNone && (s.port b isl p).stallDst.isNone && destFree s b k && !cutPaused s b k.ctx))

/-- PIPELINE_START (R250): a pipeline that was stopped in the queue moves no tile (R258). -/
def execPipelineStart (b isl p : Nat) (s : State) : Res :=
  .next (match headCmd s b isl p with
  | none => s
  | some k =>
    if !startReady s b isl p then s
    else
      let s := served s b isl p
      let r := cmdRecipe s b k
      let go (s : State) : State := s.modPort b isl p fun q => { q with run := some newPipe }
      if k.stop then go s
      else if r.kind != 4 && k.a.toNat % 16 != 0 then islandStall s b isl p k 2 0 k.a.toNat 0
      else if !speerUp s b k then islandStall s b isl p k 7 (if speerIn k then 0 else 1) k.b.toNat 0
      else if r.dk = 0 then
        let n := destSite s b k
        match s.site? b n with
        | none => go s
        | some x =>
          if x.poison then siteStall s b isl p k true x
          else
          let key := startKey s b k x
          go (kick (openLife (s.modSite b n fun x => { x with started := true }) b n key) b)
      else if r.dk = 1 then go (s.modBay b fun y => { y with feedBy := AMap.set y.feedBy (r.dsite % 4) (isl, p) })
      else go s)

/-- Is the index list to be read? -/
def indexReady (s : State) (b isl p : Nat) : Bool :=
  match headCmd s b isl p, (s.port b isl p).run with
  | some k, some x =>
    (k.op == 0xB5 || k.op == 0xB6) && x.index.isNone && x.listing.isNone && !k.stop && (s.port b isl p).stall.isNone &&
      !ioParked s b isl p false && !cutPaused s b k.ctx
  | _, _ => false

/-- INDEX_LIST_READ (R252). -/
def execIndexListRead (b isl p : Nat) (s : State) : Res :=
  .next (match headCmd s b isl p with
  | none => s
  | some k =>
    if !indexReady s b isl p then s
    else
      let s := served s b isl p
      let r := cmdRecipe s b k
      let n := ((s.ctx? b k.ctx).map (·.siteBase)).getD 0 + r.isite
      match s.site? b n with
      | none => s
      | some x =>
        let a := k.b.toNat
        let n := 4 * r.nidx
        if x.poison then siteStall s b isl p k false x
        else if a < x.wbase || x.wbase + x.wsize < a + 4 * r.nidx then islandStall s b isl p k 3 2 a 0
        else if a % 4 != 0 then islandStall s b isl p k 2 2 a 0
        else
          match ioTranslate b isl p k x.phys n (cutRun (n / 64 + 2) a 0 n) s with
          | .ok ls s =>
            issueReads b isl p k x.phys 0 ls (s.modPort b isl p fun q => { q with run := q.run.map fun x =>
              { x with listing := some ⟨0, List.replicate n 0, List.replicate n false, 0, [], ls.length, 0⟩ } })
          | r => r.stopped b isl p k 2)

/-- The FILLING buffer of a fed site that waits for tile t. -/
def fedBuf (x : Site) (t : Nat) : Option Nat :=
  placeOf (fun u : SiteBuf => (u.st == .filling || u.st == .dirty) && u.left != 0 && u.line == x.patternAt t) x.bufs 0

/-- Does a pipeline hold notice t (R250)? -/
def noticeHeld (s : State) (b : Nat) (k : IslCmd) (x : Pipe) : Bool :=
  let r := cmdRecipe s b k
  if r.dk = 0 then (s.site? b (destSite s b k)).any fun y => x.next < y.line && (fedBuf y x.next).isSome
  else if r.dk = 1 then (AMap.getD (s.bay b).feeds (r.dsite % 4) []).length + x.tiles.length < 4
  else true

/-- Can the running pipeline of a port read its next tile? -/
def readReady (s : State) (b isl p : Nat) : Bool :=
  match headCmd s b isl p, (s.port b isl p).run with
  | some k, some x =>
    isPipe k.op && !k.stop && (s.port b isl p).stall.isNone && !dstStalled s b isl p k && !ioParked s b isl p false &&
      !cutPaused s b k.ctx &&
      x.next < (cmdRecipe s b k).tileCount && ((cmdRecipe s b k).kind != 4 || x.index.isSome) && noticeHeld s b k x &&
      (!speerIn k || x.asked == x.next)
  | _, _ => false

/-- Put a read tile under way. -/
def holdTile (s : State) (b isl p : Nat) (t : Tile) : State :=
  s.modPort b isl p fun q => { q with run := q.run.map fun x => { x with tiles := x.tiles ++ [t], next := x.next + 1 } }

/-- The rows of tile t of a gather: place in the tile, index position, index, poison. -/
def gatherRows (r : Recipe) (l : List (Nat × Bool)) (t : Nat) : List (Nat × Nat × Nat × Bool) :=
  (((l.zipIdx).drop (t * r.tileLines)).take r.tileLines).zipIdx.map fun e => (e.2, e.1.2, e.1.1.1, e.1.1.2)

/-- Read a tile of lines of `len` bytes, each by its address and its place in the tile (R250). -/
def readLines (s : State) (b isl p : Nat) (k : IslCmd) (len : Nat) (as : List (Nat × Nat)) (t : Tile) : State :=
  match ioTranslate b isl p k false len (as.flatMap fun a => cutRun (len / 64 + 2) a.1 a.2 len) s with
  | .ok ls s => issueReads b isl p k false (t.idx + 1) ls (holdTile s b isl p { t with left := ls.length })
  | r => r.stopped b isl p k 0

/-- A tile of some bytes, all zero, before its read. -/
def blankTile (idx n zmask : Nat) (rows : List Nat) : Tile := ⟨idx, List.replicate n 0, List.replicate n false, zmask, rows, 0, 0⟩

/-- Read tile t of a gather or scatter (R252, R253). -/
def readGather (s : State) (b isl p : Nat) (k : IslCmd) (r : Recipe) (x : Pipe) : State :=
  let rows := gatherRows r (x.index.getD []) x.next
  let out (e : Nat × Nat × Nat × Bool) : Bool := r.trows ≤ e.2.2.1
  let forced (e : Nat × Nat × Nat × Bool) : Bool := x.zfill.contains e.2.1
  match rows.find? fun e => e.2.2.2 || (out e && !r.oor && !forced e) with
  | some e => indexStall s b isl p k e.2.1 e.2.2.1 e.1 e.2.2.2
  | none =>
    let mask := rows.foldl (fun m e => if out e then m + 2 ^ e.1 else m) 0
    let blank := blankTile x.next (rows.length * r.lineLen) mask
    if k.op = 0xB6 then
      readLines s b isl p k r.lineLen (rows.map fun e => ((k.a.toNat + e.2.1 * r.lineLen) % 2 ^ 64, e.1 * r.lineLen))
        (blank (rows.map fun e => e.2.2.1))
    else
      readLines s b isl p k r.lineLen ((rows.filter fun e => !out e).map fun e => ((k.a.toNat + e.2.2.1 * r.tstr) % 2 ^ 64, e.1 * r.lineLen))
        (blank [])

/-- Read tile t of a copy, transpose or layout change (R248, R255, R256). -/
def readCopy (s : State) (b isl p : Nat) (k : IslCmd) (r : Recipe) (x : Pipe) : State :=
  readLines s b isl p k r.lineLen
    ((List.range r.tileLines).map fun i => (r.lineAt k.a.toNat (x.next * r.tileLines + i), i * r.lineLen))
    (blankTile x.next (r.tileLines * r.lineLen) 0 [])

/-- A read tile as it goes to its destination (R255, R256). -/
def Tile.shaped (r : Recipe) (t : Tile) : Tile :=
  let l := tileAtoms r (atomsOf t.data t.poi)
  { t with data := l.map fun a => BitVec.ofNat 8 a.1, poi := l.map (·.2) }

/-- Ask the far end for tile t (R257): READ, and the notice for it. The data part of a READ says how many bytes (log 18). -/
def askTile (s : State) (b isl p : Nat) (k : IslCmd) (r : Recipe) (x : Pipe) : State :=
  let n := r.tileLines * r.lineLen
  let s := s.modPort b isl p fun q => { q with run := q.run.map fun x => { x with asked := x.asked + 1 } }
  let s := sendFrame s (speerPort k) (speerChan k) 2 x.next (k.b.toNat + x.next * n) (List.replicate n 0) false
  sendFrame s (speerPort k) (speerChan k) 1 x.next 0 [] false

/-- TILE_READ (R250). -/
def execTileRead (b isl p : Nat) (s : State) : Res :=
  .next (match headCmd s b isl p, (s.port b isl p).run with
  | some k, some x =>
    if !readReady s b isl p then s
    else
      let s := served s b isl p
      let r := cmdRecipe s b k
      if !speerUp s b k then islandStall s b isl p k 7 0 k.b.toNat 0
      else if speerIn k then askTile s b isl p k r x
      else if r.kind = 4 then readGather s b isl p k r x
      else readCopy s b isl p k r x
  | _, _ => s)

/-! ## Arrival -/

/-- Bytes of a line of a tile at its destination. -/
def outLen (r : Recipe) (t : Tile) : Nat :=
  t.data.length / max (if r.kind = 4 then t.data.length / r.lineLen else r.outLines) 1

/-- A tile's lines at a MEM or PEER destination: address, place in the tile (R248, R250). -/
def tileLinesAt (r : Recipe) (base : Nat) (t : Tile) : List (Nat × Nat) :=
  let len := outLen r t
  let stride := if r.mstr = 0 then len else r.mstr
  (List.range (t.data.length / max len 1)).map fun i => ((base + (t.idx * r.outLines + i) * stride) % 2 ^ 64, i * len)

/-- A scatter's rows in the table, those skipped left out (R252). -/
def scatterLines (r : Recipe) (base : Nat) (t : Tile) : List (Nat × Nat) :=
  ((t.rows.zipIdx).filter fun e => !natBit t.zmask e.2).map fun e => ((base + e.1 * r.tstr) % 2 ^ 64, e.2 * r.lineLen)

/-- The pieces a tile is written to memory in: address, place in the tile, length. -/
def tilePieces (k : IslCmd) (r : Recipe) (t : Tile) : List (Nat × Nat × Nat) :=
  (if k.op = 0xB6 then scatterLines r (destOp k) t else tileLinesAt r (destOp k) t).flatMap fun a =>
    cutRun (outLen r t / 64 + 2) a.1 a.2 (outLen r t)

/-- Frames of a tile to a peer: one when its lines lie one after another, else one a line (log 18). -/
def peerFrames (r : Recipe) (base : Nat) (t : Tile) : List (Nat × List Byte × List Bool) :=
  if r.mstr = 0 ∨ r.mstr = r.lineLen then [((base + t.idx * t.data.length) % 2 ^ 64, t.data, t.poi)]
  else (tileLinesAt r base t).map fun a => (a.1, (t.data.drop a.2).take (outLen r t), (t.poi.drop a.2).take (outLen r t))

/-- The tile's bytes become FULL in their buffer (R164, R250). -/
def fedArrive (s : State) (b n : Nat) (t : Tile) : State :=
  match s.site? b n with
  | none => s
  | some x =>
    match fedBuf x t.idx with
    | none => s
    | some i =>
      let s := modBuf s b n i fun u =>
        let v := placeData u 0 t.data []
        { v with poi := (List.range v.poi.length).map fun j => if v.valid.getD j false then v.poi.getD j false else t.poi.getD j false }
      fillsEnded (endFill s b n i) b

/-- Ones among the first bits of a mask. -/
def maskCount (m : Nat) : Nat := ((List.range 32).filter fun i => natBit m i).length

/-- A tile has arrived: it leaves the pipeline, and its token goes (R250, R252). -/
def tileDone (s : State) (b isl p : Nat) (k : IslCmd) (r : Recipe) (t : Tile) : State :=
  let s := (dropTile s b isl p).modPort b isl p fun q =>
    { q with run := q.run.map fun x => { x with arrived := x.arrived + 1, zeroed := x.zeroed + maskCount t.zmask } }
  routeToken s b isl p k r.tok t.idx (.sc (word (t.idx + (if k.op = 0xB5 then t.zmask * 2 ^ 32 else 0)))) false

/-- Can the first tile under way arrive, or be sent on to the peer? -/
def arriveReady (s : State) (b isl p : Nat) : Bool :=
  match headCmd s b isl p, (s.port b isl p).run with
  | some k, some x =>
    match x.tiles with
    | [] => false
    | t :: _ =>
      let r := cmdRecipe s b k
      isPipe k.op && t.left == 0 && !dstStalled s b isl p k && !routeWaits s b k r.tok &&
        (if r.dk = 3 then
          let n := (peerFrames r k.b.toNat (t.shaped r)).length
          x.asked ≤ t.idx * n || (t.idx + 1) * n ≤ x.confirmed
        else if r.dk = 2 then
          !ioParked s b isl p true && (decide (t.sent < (tilePieces k r (t.shaped r)).length) || !landOut s b isl p)
        else true)
  | _, _ => false

/-- TILE_ARRIVE (R250): at a site, in a feed slot, in memory, or across a channel, whose DONE completes it. -/
def execTileArrive (b isl p : Nat) (s : State) : Res :=
  .next (match headCmd s b isl p, (s.port b isl p).run with
  | some k, some x =>
    if !arriveReady s b isl p then s
    else
      match x.tiles with
      | [] => s
      | t :: _ =>
        let r := cmdRecipe s b k
        let t := t.shaped r
        match r.dk with
        | 0 => tileDone (fedArrive s b (destSite s b k) t) b isl p k r t
        | 1 =>
          let f := r.dsite % 4
          tileDone (s.modBay b fun y =>
            { y with
              feeds := AMap.set y.feeds f
                (AMap.getD y.feeds f [] ++ [⟨k.ctx, (destOp k + t.idx) % 2 ^ 32, t.data, t.poi.any id⟩]) }) b isl p k r t
        | 2 =>
          let q := writeTile s b isl p k (outLen r t) t (tilePieces k r t)
          if q.1 && !landOut q.2 b isl p then tileDone q.2 b isl p k r t else q.2
        | _ =>
          let fs := peerFrames r k.b.toNat t
          if (t.idx + 1) * fs.length ≤ x.confirmed then tileDone s b isl p k r t
          else if !speerUp s b k then islandStall s b isl p k 7 1 k.b.toNat 0
          else
            let s := fs.foldl (fun s f => sendFrame s (speerPort k) (speerChan k) 0 t.idx f.1 f.2.1 (f.2.2.any id)) s
            s.modPort b isl p fun q =>
              { q with run := q.run.map fun x => { x with asked := (t.idx + 1) * fs.length, confirmed := t.idx * fs.length } }
  | _, _ => s)

/-! ## Ends -/

/-- Does a generator of a port stand stalled for its channel (R257)? -/
def chanStalled (s : State) (b isl p : Nat) (k : IslCmd) : Bool :=
  let q := s.port b isl p
  (s.part (s.partOf b k.ctx)).faults.any fun f =>
    (q.stall == some f.dseq || q.stallDst == some f.dseq) && f.body.code == 0x21 && bits f.body.d0 60 4 == 7

/-- May the head pipeline of a port end: all its tiles have arrived, or it was stopped and nothing is under way (R258)? A stopped speer
whose channel is not up, or which stands stalled for it, ends with the tiles it holds (R319), once no read or write of it is out (R210).
-/
def endReady (s : State) (b isl p : Nat) : Bool :=
  match headCmd s b isl p, (s.port b isl p).run with
  | some k, some x =>
    isPipe k.op &&
      ((x.tiles.isEmpty && x.listing.isNone &&
          (x.arrived == (cmdRecipe s b k).tileCount || (k.stop && (!speerIn k || x.asked == x.next)))) ||
        (k.stop && k.op == 0xB9 && (!speerUp s b k || chanStalled s b isl p k) && !landOut s b isl p && !readOut s b isl p))
  | _, _ => false

/-- PIPELINE_END (R250): T1 of a gather or scatter receives the rows zero-filled or skipped. -/
def execPipelineEnd (b isl p : Nat) (s : State) : Res :=
  .next (match headCmd s b isl p, (s.port b isl p).run with
  | some k, some x =>
    if !endReady s b isl p then s
    else
      let s := s.modBay b fun y => { y with feedBy := y.feedBy.filter fun e => e.2 != (isl, p) }
      retire s b isl p k (if k.op = 0xB5 ∨ k.op = 0xB6 then .sc (word x.zeroed) else .ct 1)
  | _, _ => s)

/-- SSTOP_EXECUTE (R258). -/
def execSstopExecute (b isl p : Nat) (s : State) : Res :=
  .next (match headCmd s b isl p with
  | none => s
  | some k => if k.op = 0xBA then retire (served s b isl p) b isl p k (.ct 1) else s)

end Sys2Proof.Machine
end

