-- ==== Sys2Proof/Machine/SpliceEvents.lean ====
section
/-!
DEFINITION. Sys2Proof/Machine/SpliceEvents.lean: accesses by agents that have no bay (R316, R321), the splice frames (R320,
R321), the channels' bindings and links (R319).
-/
namespace Sys2Proof.Machine

open Sys2Proof

/-! ## Translation without a bay -/

/-- The memory behind a physical address for an agent that has no region: loft by position is not mapped for it. -/
def locBare (part pa : Nat) : Option (Nat × Nat) :=
  if pa < Config.lpddr then some (pa, 1)
  else if Config.hostWin ≤ pa && pa < Config.phys then some (hostKey part (pa - Config.hostWin), 2)
  else none

/-- A walk of an agent that has no bay parks until a shootdown completes (R346). -/
def parkBare (s : State) (n va : Nat) : State := s.modPart n fun p => { p with parked := insertNat va p.parked }

/-- A translation through a partition's root (R321): the walk of R341, with no TLB and no slice map. -/
def translatePart (s : State) (n va : Nat) (need : Need) : Xlat :=
  if 2 ^ 56 ≤ va then .fault xPerm 3
  else if (s.part n).parked.contains va then .park
  else
    let p := s.part n
    match findLeaf s p va with
    | .error (0x20, a) => .poison a
    | .error (c, l) => .fault c l
    | .ok (a, e) =>
      if !leafOk p e || !leafAllows e need || pteKind e == 1 then .fault xPerm 0
      else
        let pa := pteBase e + va % pageBytes (pteSize e)
        match locBare n pa with
        | none => .fault xPerm 3
        | some l =>
          if pteM e then .park
          else
            let want := e ||| (1#64 <<< 56) ||| (if need.write then 1#64 <<< 55 else 0)
            .ok ⟨l.1, Config.bays, pa, l.2, pteKind e, 0, if pteE e then some n else none⟩
              (if want = e then s else s.writeBytes a (leBytes 8 want.toNat) false)

/-- What an access through a partition's root comes to: bytes read with their poison, a fault, or a wait for a migration. -/
inductive Via where
  | ok (bs : List Byte) (poi : List Bool) (s : State)
  | bad (s : State)
  | wait (s : State)

/-- Its state. -/
def Via.state : Via → State
  | .ok _ _ s | .bad s | .wait s => s

/-- Read a run of bytes through a partition's root. -/
def partRead (n : Nat) : List (Nat × Nat × Nat) → State → Via
  | [], s => .ok [] [] s
  | p :: ps, s =>
    match translatePart s n p.1 needR with
    | .park | .busy => .wait (parkBare s n p.1)
    | .fault _ _ | .poison _ => .bad s
    | .ok l s =>
      match partRead n ps s with
      | .ok bs poi s =>
        .ok (homeRead s l.enc l.key p.2.2 ++ bs) ((List.range p.2.2).map (fun i => s.poisoned (l.key + i) 1) ++ poi) s
      | r => r

/-- Write a run of bytes through a partition's root; poisoned bytes wait while their poison directory is full (R380). -/
def partWrite (n : Nat) (bs : List Byte) (poi : Bool) : List (Nat × Nat × Nat) → State → Via
  | [], s => .ok [] [] s
  | p :: ps, s =>
    match translatePart s n p.1 needW with
    | .park | .busy => .wait (parkBare s n p.1)
    | .fault _ _ | .poison _ => .bad s
    | .ok l t =>
      let q := List.replicate p.2.2 poi
      if (dirBlocks t l.key q).isSome then .wait s
      else partWrite n bs poi ps (homeWrite t l.enc l.key ((bs.drop p.2.1).take p.2.2) q)

/-- The pieces of a run. -/
def runPieces (va n : Nat) : List (Nat × Nat × Nat) := cutRun (n / 64 + 2) va 0 n

/-! ## Frames (R320) -/

/-- A field of a frame's header. -/
def frameField (f : SpliceFrame) (lo n : Nat) : Nat := bits f.hdr lo n
def frameAddr (f : SpliceFrame) : Nat := frameField f 100 64
def frameTile (f : SpliceFrame) : Nat := frameField f 164 32
def frameChan (f : SpliceFrame) : Nat := frameField f 208 4

/-- Is a frame of a kind for an UP channel of its port, from that channel's far end? -/
def frameOk (s : State) (kind : Nat) (f : SpliceFrame) : Bool :=
  frameField f 236 20 == s.devnum.toNat && frameField f 212 4 == f.port && chanState s f.port (frameChan f) == 2 &&
  frameField f 196 4 == kind &&
  (match AMap.get? s.chans (chanKey f.port (frameChan f)) with
    | none => false
    | some c => frameField f 216 20 == c.dev && frameField f 204 4 == c.port && frameField f 200 4 == c.chan)

/-- Take a frame that passes; another is dropped and counted. -/
def withFrame (kind : Nat) (f : SpliceFrame) (go : State → State) (s : State) : Res :=
  .next (if frameOk s kind f then go s
    else { s with spliceDrop := AMap.set s.spliceDrop f.port (AMap.getD s.spliceDrop f.port 0 + 1) })

/-- The owner of a frame's channel. -/
def frameOwner (s : State) (f : SpliceFrame) : Nat :=
  ((AMap.get? s.chans (chanKey f.port (frameChan f))).map (·.owner)).getD Config.parts

/-- The streamer ports of the device. -/
def streamerPorts (s : State) : List (Nat × Nat × Nat) :=
  s.bayNos.flatMap fun b => [1, 2].flatMap fun i => (List.range 4).map fun p => (b, i, p)

/-- The running speer of a channel and direction: bay, island, port. -/
def speerOn (s : State) (port chan : Nat) (inward : Bool) : Option (Nat × Nat × Nat) :=
  (streamerPorts s).find? fun e =>
    (s.port e.1 e.2.1 e.2.2).run.isSome &&
      (headCmd s e.1 e.2.1 e.2.2).any fun k =>
        k.op == 0xB9 && speerPort k == port && speerChan k == chan && speerIn k == inward

/-- Change the running pipeline of a port. -/
def modPipe (s : State) (e : Nat × Nat × Nat) (f : Pipe → Pipe) : State :=
  s.modPort e.1 e.2.1 e.2.2 fun q => { q with run := q.run.map f }

/-- SPLICE_TILE (R320, R321): the tile this device asked for; else the stream port writes it, and answers DONE, with the
mark of a fault for a REMOTE cause (log 18). -/
def execSpliceTile (f : SpliceFrame) (s : State) : Res :=
  withFrame 0 f (fun s =>
    let mine := (speerOn s f.port (frameChan f) true).filter fun e =>
      ((s.port e.1 e.2.1 e.2.2).run).any fun x => x.next < x.asked && x.next % 2 ^ 32 == frameTile f
    match mine with
    | some e =>
      let t := (((s.port e.1 e.2.1 e.2.2).run).map (·.next)).getD 0
      holdTile s e.1 e.2.1 e.2.2 ⟨t, f.data, List.replicate f.data.length f.poi, 0, [], 0, 0⟩
    | none =>
      match partWrite (frameOwner s f) f.data f.poi (runPieces (frameAddr f) f.data.length) s with
      | .ok _ _ s => sendFrame s f.port (frameChan f) 3 (frameTile f) 0 [] false
      | .wait s => { s with inputs := .spliceTile f :: s.inputs }
      | .bad s => sendFrame s f.port (frameChan f) 3 (frameTile f) 0 [] true) s

/-- SPLICE_NOTICE (R320). -/
def execSpliceNotice (f : SpliceFrame) (s : State) : Res :=
  withFrame 1 f (fun s =>
    match speerOn s f.port (frameChan f) false with
    | none => s
    | some e => modPipe s e fun x => { x with notices := x.notices + 1 }) s

/-- SPLICE_READ (R320, R321): the answering TILE carries the address that was read. -/
def execSpliceRead (f : SpliceFrame) (s : State) : Res :=
  withFrame 2 f (fun s =>
    match partRead (frameOwner s f) (runPieces (frameAddr f) f.data.length) s with
    | .ok bs poi s => sendFrame s f.port (frameChan f) 0 (frameTile f) (frameAddr f) bs (poi.any id)
    | .wait s => { s with inputs := .spliceRead f :: s.inputs }
    | .bad s => sendFrame s f.port (frameChan f) 3 (frameTile f) 0 [] true) s

/-- A speer must send or ask again once its stall ends. -/
def speerAgain (s : State) (e : Nat × Nat × Nat) (inward : Bool) : State :=
  modPipe s e fun x => { x with asked := if inward then x.next else 0 }

/-- SPLICE_DONE (R320): the sender counts it; the mark of a fault is a REMOTE cause (R257). -/
def execSpliceDone (f : SpliceFrame) (s : State) : Res :=
  withFrame 3 f (fun s =>
    let stallBy (e : Nat × Nat × Nat) (inward : Bool) : State :=
      match headCmd s e.1 e.2.1 e.2.2 with
      | none => s
      | some k =>
        islandStall (speerAgain s e inward) e.1 e.2.1 e.2.2 k 8 (if inward then 0 else 1) k.b.toNat 0
    match speerOn s f.port (frameChan f) false with
    | some e => if f.poi then stallBy e false else modPipe s e fun x => { x with confirmed := x.confirmed + 1 }
    | none =>
      match speerOn s f.port (frameChan f) true with
      | some e => if f.poi then stallBy e true else s
      | none => s) s

/-! ## Bindings and links (R319) -/

/-- A pipeline whose channel has stopped being UP for it stalls (R257, R319). -/
def chanBroken (s : State) (port chan : Nat) : State :=
  [false, true].foldl (fun s inward =>
    match speerOn s port chan inward with
    | none => s
    | some e =>
      match headCmd s e.1 e.2.1 e.2.2 with
      | none => s
      | some k =>
        islandStall (speerAgain s e inward) e.1 e.2.1 e.2.2 k 7 (if inward then 0 else 1) k.b.toNat 0) s

/-- SPLICE_BINDING_WRITE (R319): a write with a zero field set is dropped, and one that binds the channel to a partition with EN = 0 is
refused (R372); STATE is not written. The channel waits for its far end. -/
def execSpliceBindingWrite (port chan : Nat) (v : Word) (s : State) : Res :=
  .next (if bits v 0 28 != 0 || 16 ≤ port || 16 ≤ chan || (v.getLsbD 63 && !(s.part (bits v 58 5)).en) then s
  else
    let c : Chan := { en := v.getLsbD 63, owner := bits v 58 5, dev := bits v 38 20, port := bits v 34 4,
                      chan := bits v 30 4, lost := s.spliceDown.contains port, up := false }
    chanBroken { s with chans := AMap.set s.chans (chanKey port chan) c } port chan)

/-- A LINK_LOSS record: it freezes nothing. -/
def lossRecord (link cnt : Nat) : RecBody := { RecBody.blank 0x40 0 with d0 := word link, d1 := word cnt }

/-- Record a loss with the partitions concerned and the physical function (log 19). -/
def linkLoss (s : State) (link : Nat) (ns : List Nat) : State :=
  let s := ns.foldl (fun s n => s.modPart n fun p => p.create (.fault (lossRecord link p.lossCnt))) s
  { s with pf := s.pf.create (.fault (lossRecord link s.pf.lossCnt)) }

/-- Partitions that own a bound channel of a port. -/
def chanOwners (s : State) (port : Nat) : List Nat :=
  ((s.chans.filter fun e => e.1 / 16 == port && e.2.en).map (·.2.owner)).eraseDups

/-- SPLICE_LINK_DOWN (R319). -/
def execSpliceLinkDown (port : Nat) (s : State) : Res :=
  .next (if 16 ≤ port || s.spliceDown.contains port then s
  else
    let s := { s with
      spliceDown := insertNat port s.spliceDown
      chans := s.chans.map fun e => if e.1 / 16 = port then (e.1, { e.2 with lost := true, up := false }) else e }
    let s := linkLoss s (1 + port) (chanOwners s port)
    (List.range 16).foldl (fun s c => chanBroken s port c) s)

/-- SPLICE_LINK_UP (R319): its LOST channels are WAITING. -/
def execSpliceLinkUp (port : Nat) (s : State) : Res :=
  .next { s with
    spliceDown := s.spliceDown.filter fun p => p != port
    chans := s.chans.map fun e => if e.1 / 16 = port then (e.1, { e.2 with lost := false }) else e }

end Sys2Proof.Machine
end

