-- ==== Sys2Proof/Machine/Launches.lean ====
section
/-!
DEFINITION. Sys2Proof/Machine/Launches.lean: what every end of a launch and every binding shares (R43, R273, R324 to R333,
R354): a context's part of a bay, empty or taken apart, and completion records.
-/
namespace Sys2Proof.Machine

open Sys2Proof

/-! ## A context's part of a bay -/

/-- The state a fresh binding gives a context, its installed fields kept (R358, R361, R274; log 1). -/
def CtxRt.clear (c : CtxRt) : CtxRt :=
  { c with
    bound := none, position := 0, rows := 0, cols := 0, map := [], rngCur := 0, rngHi := 0, rngChunk := 0, user := []
    waitHist := 0, fires := 0, since := 0, fireStart := 0, frozen := false, stopRun := false, brkInst := none
    heldTok := none, heldSet := none, halted := false, sent := [], rcvd := [], cut := none, recorded := [], presValid := []
    clamped := [], omitted := [], trSeq := 0, trLost := 0, trFires := 0 }

/-- A site as a binding finds it (R164, R174, R173). -/
def Site.fresh (x : Site) : Site :=
  { x with
    dep := x.dmin, latCnt := 0, latSum := 0, means := [], bufs := List.replicate x.dmax emptyBuf, seq := 0, lifeOpen := false, key := 0
    started := false, line := 0, lastIdx := none, zdone := 0, zpart := [], stopped := none, stopBack := none, waiters := [], srels := [] }

/-- The limit a hitch starts with (R37). -/
def HitchCfg.fresh (h : HitchCfg) : HitchCfg := { h with lim := if h.mem then h.dmin else h.dmax, latCnt := 0, latSum := 0, means := [] }

/-- The ports of a context as keys. -/
def CtxRt.portKeys (c : CtxRt) : List Nat := c.ports.map fun p => 4 * p.1 + p.2

/-- Instances of a context in a gate. -/
def Gate.instsOf (g : Gate) (ctx : Nat) : AMap Inst := g.insts.filter fun e => e.2.ctx == ctx

/-- A gate without a context's instances, tokens and copies; its limits start again. Accumulation records stay until the
context is unloaded (R118). -/
def Gate.without (g : Gate) (ctx : Nat) : Gate :=
  let mine := (g.instsOf ctx).map (·.1)
  { g with
    hitches := g.hitches.map fun e => if e.2.ctx = ctx then (e.1, e.2.fresh) else e
    insts := g.insts.filter fun e => e.2.ctx != ctx
    ents := g.ents.filter fun m => m.ctx != ctx
    replay := g.replay.filter fun e => !mine.contains e.1 }

/-- An element without a context's rows and sets; its slots' counters are zero. -/
def Element.without (e : Element) (ctx : Nat) (ixs : List (Nat × Nat)) : Element :=
  { e with
    slots := e.slots.map fun k => if k.2.owned && k.2.ctx == ctx then (k.1, { k.2 with hist := [] }) else k
    rows := e.rows.filter fun r => !ixs.contains (r.gate, r.ix)
    issue := e.issue.filter fun m => m.ctx != ctx
    wait := e.wait.filter fun m => m.ctx != ctx }

/-- Instances of a context on a bay: gate and index. -/
def Bay.ixsOf (y : Bay) (ctx : Nat) : List (Nat × Nat) := y.gates.flatMap fun g => (g.2.instsOf ctx).map fun e => (g.1, e.1)

/-- A bay without what a launch made of a context; requests that have been sent are forgotten when they are answered, those of
deferred readers at once, since the readers go too; writes issued go on. -/
def Bay.without (y : Bay) (ctx : Nat) : Bay :=
  let c := AMap.get? y.ctxs ctx
  let keys := (c.map (·.portKeys)).getD []
  let ixs := y.ixsOf ctx
  let row (k : Nat) : Bool := c.any fun c => c.strBase ≤ k && k < c.strBase + c.strCnt
  { y with
    elems := y.elems.map fun e => (e.1, e.2.without ctx ixs)
    gates := y.gates.map fun g => (g.1, g.2.without ctx)
    wave := y.wave.filter fun w => !ixs.contains (w.gate, w.ix)
    keep := y.keep.filter fun e => !row e.1
    keepPoi := y.keepPoi.filter fun n => !row (n / 64)
    sites := y.sites.map fun e => if e.2.ctx = ctx then (e.1, e.2.fresh) else e
    readers := y.readers.filter fun r => r.ctx != ctx
    noReply := y.noReply.filter fun k => k != ctx
    xreqs := y.xreqs.filter fun q => q.ctx != ctx
    reqs := (y.reqs.filter fun r => r.ctx != ctx || r.writes || (r.sent && !r.deferred)).map fun r =>
      if r.ctx = ctx then { r with dead := true, deferred := false } else r
    reds := y.reds.map fun r => if r.2.ctx = ctx then (r.1, { r.2 with dead := true }) else r
    feeds := y.feeds.map fun f => (f.1, f.2.filter fun t => t.ctx != ctx)
    feedBy := y.feedBy.filter fun f => !keys.contains (4 * f.2.1 + f.2.2)
    ports := y.ports.filter fun p => !keys.contains p.1
    steals := y.steals.filter fun e => e.1.ctx != ctx
    probes := y.probes.filter fun e => e.1.ctx != ctx
    ctxs := AMap.upd y.ctxs ctx CtxRt.clear }

/-- A bay without a context's accumulation records: they are unloaded (R323), or saved with an image (R118). -/
def Bay.withoutRecs (y : Bay) (ctx : Nat) : Bay :=
  { y with gates := y.gates.map fun g => (g.1, { g.2 with recs := g.2.recs.filter fun a => a.ctx != ctx }) }

/-- Is something under way to a bay for a context? -/
def goesTo (b ctx : Nat) (i : Instr) : Bool :=
  match i with
  | .tokenArrive m => m.bay == b && m.ctx == ctx
  | .gateEntryToken m => m.bay == b && m.ctx == ctx
  | .waithistSpill b' c _ _ => b' == b && c == ctx
  | _ => false

/-- Free a context on a bay, and with it entries of its deferred-reader lists (R188). -/
def freeCtx (ctx : Nat) (s : State) (b : Nat) : State :=
  kickLdos { s.modBay b (·.without ctx) with flight := s.flight.filter fun i => !goesTo b ctx i }

/-- Is a TOKEN packet of a context under way to a bay? -/
def tokensOnWay (s : State) (b ctx : Nat) : Bool := s.packets.any fun p => p.kind == 0 && p.dst == b && p.ctx == ctx

/-! ## Launches of a partition -/

/-- The bays of a launch's region by position. -/
def State.regionMap (s : State) (n : Nat) (l : Launch) : List Nat :=
  match s.regionBays n l.ctx l.hseq with
  | [] => []
  | b :: _ => ((s.ctx? b l.ctx).map fun c => c.map.take c.npos).getD []

/-- Is a WAIT satisfied (R326)? -/
def Part.waitDone (p : Part) (w : Nat) : Bool :=
  match p.launches.find? fun l => l.hseq == w with
  | some l => l.st == .finished
  | none => true

/-- Launches whose last wait is satisfied are READY (R327). -/
def Part.refreshReady (p : Part) : Part :=
  { p with launches := p.launches.map fun l =>
      if l.st == .queued && l.waits.all p.waitDone then { l with st := .ready } else l }

/-- NBV of a launch (R333): 0 if it was never bound. -/
def Part.nbvOf (p : Part) (l : Launch) : Nat := if l.everBound then ((p.loadedOf l).map (·.obj.nbv)).getD 0 else 0

/-- Its completion record (R333). -/
def Part.compOf (p : Part) (l : Launch) (status cause : Nat) : CompBody :=
  { notify := l.notify, fires := l.fires, preempts := l.preempts, origin := l.origin, prio := l.prio, nbv := p.nbvOf l
    cfg := l.cfg, seeds := l.seeds, cause := cause, status := status, hseq := l.hseq }

/-- A launch of a partition changed. -/
def Part.modLaunch (p : Part) (h : Nat) (f : Launch → Launch) : Part :=
  { p with launches := p.launches.map fun l => if l.hseq == h then f l else l }

/-- A launch is DONE: its record is created, its image freed, its held seeds and outstanding faults end, waits on it are
satisfied (R327, R333, R354). -/
def Part.finish (p : Part) (h status cause : Nat) : Part :=
  match p.launches.find? fun l => l.hseq == h with
  | none => p
  | some l =>
    let p := { p.create (.comp (p.compOf l status cause)) with
      faults := p.faults.filter fun f => f.body.lseq != h || f.body.frz == 0
      seeds := p.seeds.filter fun x => x.lseq != h }
    (p.modLaunch h fun l => { l with st := .finished, image := none, brk := none, quiet := false, wave := none, marked := false })
      |>.refreshReady

/-- Fires of the context in its region since binding (R361). -/
def regionFires (s : State) (n : Nat) (l : Launch) : Nat :=
  (s.regionBays n l.ctx l.hseq).foldl (fun t b => t + ((s.ctx? b l.ctx).map (·.fires)).getD 0) 0

/-- Free a launch's context on the bays of its region, its fires added to FIRES (R333). -/
def unbind (s : State) (n : Nat) (l : Launch) : State :=
  let f := regionFires s n l
  (s.regionBays n l.ctx l.hseq).foldl (freeCtx l.ctx) (s.modLaunch n l.hseq fun l => { l with fires := l.fires + f })

/-! ## Completion (R43) -/

/-- Is anything of a context outstanding on a bay (R43)? An instance that lives has not ended its work. -/
def outstanding (s : State) (b ctx : Nat) : Bool :=
  let y := s.bay b
  let c := AMap.get? y.ctxs ctx
  let keys := (c.map (·.portKeys)).getD []
  s.flight.any (goesTo b ctx) || tokensOnWay s b ctx ||
  y.gates.any (fun g => g.2.ents.any (·.ctx == ctx) || g.2.insts.any (·.2.ctx == ctx)) ||
  y.reqs.any (·.ctx == ctx) || y.xreqs.any (·.ctx == ctx) || y.reds.any (·.2.ctx == ctx) ||
  y.ports.any (fun p => keys.contains p.1 && !(p.2.net.isEmpty && p.2.queue.isEmpty))

/-- May a launch complete, but for the flush of its sites: bound, not frozen, nothing outstanding, its seeds accepted or a
halt committed (R43, R273)? -/
def completes (s : State) (n : Nat) (l : Launch) : Bool :=
  let bs := s.regionBays n l.ctx l.hseq
  l.st == .bound && (l.halt.isSome || l.seedCnt ≤ l.seeds) &&
  bs.all fun b => !outstanding s b l.ctx && (s.ctx? b l.ctx).all fun c => !c.frozen && !c.stopRun

/-- End the life of every site of a context on a bay: its store sites are flushed (R43, R176). -/
def endSites (ctx : Nat) (r : Bool × State) (b : Nat) : Bool × State :=
  let q := endLives r.2 ((sitesOf r.2 b ctx).map (b, ·))
  (r.1 && q.1, q.2)

/-- The end of a launch: its counters spilled, of an ended launch those whose translation waits for nothing (log 97), the context freed,
the completion record (R399, R333). -/
def endOf (s : State) (n h status cause : Nat) : State :=
  match s.launch? n h with
  | none => s
  | some l =>
    (unbind ((s.regionBays n l.ctx h).foldl (spillAll l.ctx) (true, s)).2 n l).modPart n fun p => p.finish h status cause

/-- LAUNCH_COMPLETE (R43, R273, R399): once the sites are flushed and the counters spilled; status HALT with its code after a halt. -/
def execLaunchComplete (n h : Nat) (s : State) : Res :=
  .next (match s.launch? n h with
  | none => s
  | some l =>
    if !completes s n l then s
    else
      let bs := s.regionBays n l.ctx h
      let q := bs.foldl (spillAll l.ctx) (bs.foldl (endSites l.ctx) (true, s))
      if q.1 then endOf q.2 n h l.halt.isSome.toNat (l.halt.getD 0) else q.2)

/-! ## The driver's end (R354) -/

/-- The state of a result that is a next state. -/
def nextOf (s : State) (r : Res) : State := match r with | .next t => t | _ => s

/-- Commands of a context owe nothing more; those not accepted are dropped (R354). -/
def disown (ctx : Nat) (y : Bay) : Bay :=
  { y with ports := y.ports.map fun p =>
      (p.1, { p.2 with
        net := p.2.net.filter fun k => k.ctx != ctx
        queue := p.2.queue.map fun k =>
          if k.ctx = ctx then { k with stop := true, c := { k.c with t0 := noTarget, t1 := noTarget } } else k }) }

/-- Finish a drain of an ended launch: its tokens are dropped, its rows go to memory (R354). -/
def finishDrain (s : State) (b p : Nat) (k : IslCmd) : State :=
  let s := if (s.port b 0 p).run.isNone then drainStart s b p k else s
  match (s.port b 0 p).run with
  | none => s
  | some x =>
    if routeKind (drainRoute s b k) = 2 then
      let s := x.tiles.foldl (fun s t =>
        if (headTile s b 0 p).any (·.idx == t.idx) then nextOf s (execDrainExecute b p s) else s) s
      if (headTile s b 0 p).isNone then drainEnd s b p k else s
    else drainEnd s b p k

/-- Run the accepted matrix commands of a port to their end; one that cannot go on ends the run (R354). -/
def runMatrix (b ctx p : Nat) : Nat → State → State
  | 0, s => s
  | n + 1, s =>
    match headCmd s b 0 p with
    | none => s
    | some k =>
      if k.ctx != ctx || (s.port b 0 p).stall.isSome || dstStalled s b 0 p k then s
      else if k.op = 0xB0 ∨ k.op = 0xB1 then
        if (mmaLacks s b k).isEmpty then runMatrix b ctx p n (nextOf s (execMmaExecute b p s)) else s
      else if k.op = 0xB2 then runMatrix b ctx p n (nextOf s (execAclrExecute b p s))
      else runMatrix b ctx p n (finishDrain s b p k)

/-- The writes of tiles under way to memory are issued (R258, R354). -/
def runTiles (b ctx isl p : Nat) (s : State) : State :=
  match headCmd s b isl p, (s.port b isl p).run with
  | some k, some x =>
    if k.ctx = ctx ∧ (cmdRecipe s b k).dk = 2 then
      let r := cmdRecipe s b k
      x.tiles.foldl (fun s u =>
        if (headTile s b isl p).any (·.idx == u.idx) && u.left == 0 && !dstStalled s b isl p k then
          let t := u.shaped r
          let q := writeTile s b isl p k (outLen r t) t (tilePieces k r t)
          if q.1 then dropTile q.2 b isl p else q.2
        else s) s
    else s
  | _, _ => s

/-- What accepted commands of a context still do on a bay when its launch is ended. A port holds at most 9 commands. -/
def runIslands (ctx : Nat) (s : State) (b : Nat) : State :=
  let s := s.modBay b (disown ctx)
  let s := (List.range 4).foldl (fun s p => runMatrix b ctx p 16 s) s
  [1, 2].foldl (fun s i => (List.range 4).foldl (fun s p => runTiles b ctx i p s) s) s

/-- End a launch (R354): every instance is freed without commit, nothing is written back. A launch with no region is DONE at
once (R327). -/
def endLaunch (s : State) (n h status : Nat) : State :=
  match s.launch? n h with
  | none => s
  | some l =>
    if l.st = .finished then s
    else endOf ((s.regionBays n l.ctx h).foldl (runIslands l.ctx) s) n h status 0

end Sys2Proof.Machine
end

