-- ==== Sys2Proof/Machine/Quiesce.lean ====
section
/-!
DEFINITION. Sys2Proof/Machine/Quiesce.lean: idle bays and pending admissions (R39, R40, R120, R176, R190, R202, R237),
quiescence waves (R356, R357) and what the origin makes of them: TAG_STARVE (R40) and stalled cuts (R362).
-/
namespace Sys2Proof.Machine

open Sys2Proof

/-! ## What waits -/

/-- How a unit stands: it keeps its bay busy; it is a pending admission; it waits on input. -/
inductive Stand where
  | busy | pending | input
  deriving DecidableEq, Repr

/-- Can the release actions of a bay's context move: no write-back is out or waits for a migration, and no engine that stands stopped holds
written bytes (R181, R346)? -/
def releaseMoves (s : State) (b ctx : Nat) : Bool :=
  let y := s.bay b
  let ofCtx (k : Nat) : Bool := (s.site? b k).any (·.ctx == ctx)
  !(y.reqs.any fun r => r.ctx == ctx && (match r.goal with | .back _ _ => true | _ => false)) &&
  !(y.xreqs.any fun q => match q.goal with | .back k _ => ofCtx k | _ => false) &&
  !(y.sites.any fun e => e.2.ctx == ctx && e.2.isStore && e.2.wb && s.stopStands (s.partOf b ctx) e.2.stopBack &&
    e.2.bufs.any (·.st == .dirty))

/-- May a set that waits with its frame row fire now (R24, R120, R202, R269)? -/
def waitReady (s : State) (b : Nat) (m : MSet) : Bool :=
  match slotInstr (s.slot b m.el m.slot) with
  | some (.count _ _) | some (.fold _ _) => s.recReady b m
  | some (.kget _ f) => s.keepReady b m.gate m.ix (keepRegOf f)
  | some (.seed _ _) => !heldBack s b m && releaseMoves s b m.ctx
  | _ => !heldBack s b m

/-- How a set that waits with its frame row stands. No rule counts the wait of a kget (R24) among the pending admissions; the
lower instance it waits for stands for it (log 39). -/
def setStands (s : State) (b : Nat) (m : MSet) : Stand :=
  match slotInstr (s.slot b m.el m.slot) with
  | some (.count _ _) | some (.fold _ _) => if s.recReady b m then .busy else .pending
  | some (.kget _ f) => if s.keepReady b m.gate m.ix (keepRegOf f) then .busy else .input
  | _ => if heldBack s b m then .pending else .busy

/-- Does a site await a fill (R190)? -/
def fillAwaited (s : State) (b k : Nat) : Bool := (s.site? b k).any fun x => x.bufs.any fun u => u.left != 0

/-- Does a site that fetches a pattern stand with its ring full, so that a load waiting in it wants a line beyond DEP (R167, which says that
R40 reports the case)? -/
def streamFull (x : Site) : Bool :=
  (x.isStream || (x.isZskip && !x.isStore)) && x.lifeOpen && x.mayFill && x.line < x.patternLen && !canStream x &&
    x.bufs.all fun u => u.left == 0

/-- How an operation of an instance stands by itself; none if it holds no unit. -/
def opStands (s : State) (b g ix : Nat) (i : Inst) (o : MemOp) : Option Stand :=
  let k := siteOf s b i.ctx o.f
  let w : Waiter := ⟨g, ix, o.lsid⟩
  match o.st with
  | .done => none
  | .waiting =>
    match s.hitch? b g i.ctx i.hnum with
    | none => none
    | some h =>
      if !lowerFired h i o.lsid then none
      else if o.inTurn && h.seq && !s.lowerDone b g ix then some .pending
      else some .busy
  | .issued =>
    match s.site? b k with
    | none => some .busy
    | some x =>
      if x.waiters.contains w && x.lifeBars (x.lifeKey (widthsOf s b g ix) i.tag) then some .pending
      else if x.waiters.contains w && streamFull x then some .pending
      else if x.srels.contains w then some (if fillAwaited s b k then .busy else .pending)
      else if (s.bay b).reqs.any fun r => r.deferred && r.goal == .op g ix o.lsid then some .input
      else some .busy

/-- Is an operation that waits its turn behind a lower one that is not done (R184, R192, R201)? -/
def MemOp.behind (o p : MemOp) : Bool :=
  o.st == .waiting && p.lsid < o.lsid && (p.bars || sharesByte o p || o.kind == .fence true true || o.kind == .fence true false)

/-- How the operations of an instance stand: one that waits behind a pending admission is part of it (R202). -/
def opsStand (s : State) (b g ix : Nat) (i : Inst) : List (Nat × Stand) :=
  (sortBy MemOp.lsid i.ops).foldl (fun l o =>
    match opStands s b g ix i o with
    | none => l
    | some .busy =>
      l ++ [(o.lsid, if i.ops.any (fun p => o.behind p && l.contains (p.lsid, .pending)) then .pending else .busy)]
    | some t => l ++ [(o.lsid, t)]) []

/-- The command a port's head waits with, as R237 excepts it, and its block tag or tile index. -/
def islandWait (s : State) (b isl p : Nat) : Option (IslCmd × Nat) :=
  match headCmd s b isl p with
  | none => none
  | some k =>
    let q := s.port b isl p
    if q.stall.isSome || dstStalled s b isl p k then none
    else if isl = 0 then
      let lacks := if k.op = 0xB0 ∨ k.op = 0xB1 then mmaLacks s b k else []
      let inDelivery (f : Nat) : Bool :=
        match AMap.get? (s.bay b).feedBy f with
        | none => false
        | some e => ((s.port b e.1 e.2).run).any fun x => !x.tiles.isEmpty
      if !lacks.isEmpty && !lacks.any inDelivery then some (k, k.a.toNat % 2 ^ 32) else none
    else
      match q.run with
      | none => none
      | some x =>
        let r := cmdRecipe s b k
        if isPipe k.op && !k.stop && x.tiles.isEmpty && x.next < r.tileCount && (r.kind != 4 || x.index.isSome) && !ioParked s b isl p false &&
            !noticeHeld s b k x && (!speerIn k || x.asked == x.next) then some (k, x.next % 2 ^ 32)
        else none

/-- The ports of a context on a bay: island and port. -/
def portsOfCtx (s : State) (b ctx : Nat) : List (Nat × Nat) := ((s.ctx? b ctx).map (·.ports)).getD []

/-! ## Idle bays (R39) -/

/-- Has an instance a unit that keeps its bay busy? -/
def instBusy (s : State) (b g ix : Nat) (i : Inst) : Bool :=
  let y := s.bay b
  (opsStand s b g ix i).any (fun o => o.2 == .busy) ||
  y.elems.any (fun e => e.2.wait.any fun m => m.of g ix && setStands s b m == .busy) ||
  y.steals.any (fun e => e.1.of g ix) || y.probes.any (fun e => e.1.of g ix)

/-- Is a token, fire, request or command of a context under way on a bay? A TOKEN packet counts at the bay it goes to;
an entry token with no place in its gate waits as the pending tags do. -/
def workUnderWay (s : State) (b ctx : Nat) : Bool :=
  let y := s.bay b
  s.flight.any (fun i => match i with
    | .tokenArrive m => m.bay == b && m.ctx == ctx
    | .gateEntryToken m => m.bay == b && m.ctx == ctx && entryTakes s m
    | .waithistSpill b' c _ _ => b' == b && c == ctx
    | _ => false) ||
  tokensOnWay s b ctx ||
  y.elems.any (fun e => e.2.issue.any fun m => m.ctx == ctx && !frozenInst s b m.gate m.ix) ||
  y.reqs.any (fun r => r.ctx == ctx && !r.deferred) || y.xreqs.any (·.ctx == ctx) || y.reds.any (·.2.ctx == ctx) ||
  (portsOfCtx s b ctx).any fun p =>
    let q := s.port b p.1 p.2
    !q.net.isEmpty || (!q.queue.isEmpty && (islandWait s b p.1 p.2).isNone)

/-- Is a step of a gate due: a tag it may take, a limit to move, an instance that settles or commits? A tag that the gate
may take is not one it holds back, so a wave that comes first finds the bay busy (log 38). -/
def gateDue (s : State) (b ctx : Nat) : Bool :=
  (s.bay b).gates.any fun g =>
    (g.2.hitches.any fun h => h.2.ctx == ctx && (canAdmit s b g.1 ctx (h.1 % 32) || !h.2.means.isEmpty)) ||
    (g.2.instsOf ctx).any fun i => settles s b g.1 i.1 || mayCommit s b g.1 i.1

/-- Is a bay idle for a context (R39)? -/
def bayIdle (s : State) (b ctx : Nat) : Bool :=
  !workUnderWay s b ctx && !gateDue s b ctx && (s.bay b).gates.all fun g => (g.2.instsOf ctx).all fun e => !instBusy s b g.1 e.1 e.2

/-! ## Pending admissions (R40) -/

/-- A wait that counts as a pending admission: gate, hitch, index (none once the instance has committed), tag, D3. -/
structure Pend where
  gate : Nat
  hnum : Nat
  ix   : Option Nat
  tag  : Word
  d3   : Word
  deriving DecidableEq, Repr

/-- Pending tags of a context on a bay. -/
def pendTags (s : State) (b ctx : Nat) : List Pend :=
  ((s.bay b).gates.flatMap fun g => (g.2.ents.filter fun m => m.ctx == ctx).map fun m =>
    (⟨g.1, m.hnum, none, m.tag, 0⟩ : Pend)).eraseDups

/-- Waits of live instances. -/
def pendInsts (s : State) (b ctx : Nat) : List Pend :=
  (s.bay b).gates.flatMap fun g => (g.2.instsOf ctx).filterMap fun e =>
    if (opsStand s b g.1 e.1 e.2).any (fun o => o.2 == .pending) ||
        (s.bay b).elems.any (fun x => x.2.wait.any fun m => m.of g.1 e.1 && setStands s b m == .pending)
    then some ⟨g.1, e.2.hnum, some e.1, e.2.tag, 0⟩ else none

/-- Waits of island commands, with those behind them. -/
def pendIslands (s : State) (b ctx : Nat) : List Pend :=
  (portsOfCtx s b ctx).filterMap fun p =>
    (islandWait s b p.1 p.2).map fun w =>
      let k := w.1
      let hn := (s.slot b k.el k.slot).hnum
      let lives := (s.inst? b k.gate k.ix).any fun i => i.ctx == ctx && i.hnum == hn && i.tag == k.tag
      let d3 := word ((p.1 + 1) * 2 ^ 62 + p.2 * 2 ^ 58 + w.2)
      if lives then ⟨k.gate, hn, some k.ix, k.tag, d3⟩ else ⟨0, 0, none, k.tag, d3⟩

/-- Has a bay a pending admission? -/
def bayPending (s : State) (b ctx : Nat) : Bool :=
  !(pendTags s b ctx).isEmpty || !(pendInsts s b ctx).isEmpty || !(pendIslands s b ctx).isEmpty

/-- Does one wait come before another: lowest gate, hitch, tag? -/
def Pend.before (p q : Pend) : Bool :=
  p.gate < q.gate || (p.gate == q.gate && (p.hnum < q.hnum || (p.hnum == q.hnum && tagOrd p.tag < tagOrd q.tag)))

/-- The first wait by an order. -/
def firstPend (lt : Pend → Pend → Bool) : List Pend → Option Pend
  | [] => none
  | p :: l => some (l.foldl (fun a q => if lt q a then q else a) p)

/-- The wait a TAG_STARVE record names, with its bay (R40). R14 orders tags of one layout: here tags of all hitches are compared by their
bits 57:0, and of equal ones the first in gate order is named (log 101). -/
def namedWait (s : State) (bs : List Nat) (ctx : Nat) : Option (Nat × Pend) :=
  let byNo := sortBy id bs
  let tags := byNo.findSome? fun b =>
    (firstPend (fun p q => tagOrd p.tag < tagOrd q.tag) (pendTags s b ctx)).map fun p => (b, p)
  tags.orElse fun _ => byNo.findSome? fun b =>
    let l := pendInsts s b ctx ++ pendIslands s b ctx
    let named := l.filter (·.ix.isSome)
    (firstPend Pend.before (if named.isEmpty then l else named)).map fun p => (b, p)

/-- TAG_STARVE (R40, R349): the region freezes. With a command whose instance is gone the record names no hitch. -/
def tagStarve (s : State) (n : Nat) (l : Launch) : State :=
  match namedWait s (s.regionBays n l.ctx l.hseq) l.ctx with
  | none => s
  | some (b, p) =>
    let gone := p.ix.isNone && p.d3 != 0
    let live := if gone then 0 else liveCount (s.gate b p.gate) l.ctx p.hnum
    let lim := if gone then 0 else ((s.hitch? b p.gate l.ctx p.hnum).map (·.lim)).getD 0
    s.takeRegionFault b l.ctx { s.recOf b l.ctx 0x03 2 with
      gate := p.gate, hnum := p.hnum, ix := p.ix.getD 0, tag := p.tag
      d0 := word (pendTags s b l.ctx).length, d1 := word live, d2 := word lim, d3 := p.d3 }

/-! ## Waves (R357) -/

/-- Is a cut under way that has not found every position saved? -/
def Launch.cutting (l : Launch) : Bool := l.st == .saving && l.savedBy.length < l.rows * l.cols

/-- Is the origin to start a wave (R39, R362, R390)? No wave runs while the region is frozen (R354). -/
def waveDue (s : State) (n : Nat) (l : Launch) : Bool :=
  let bs := s.regionBays n l.ctx l.hseq
  l.wave.isNone &&
    (l.cutting ||
      (l.st == .bound && (l.brk.isSome || bs.any fun b => bayPending s b l.ctx) &&
        bs.all fun b => (s.ctx? b l.ctx).all fun c => !c.frozen))

/-- QUIESCENCE_WAVE (R39): QUERY goes to every position. -/
def execQuiescenceWave (n h : Nat) (s : State) : Res :=
  .next (match s.launch? n h with
  | none => s
  | some l =>
    if !waveDue s n l then s
    else
      let m := s.regionMap n l
      let w := (l.wseq + 1) % 256
      let s := s.modLaunch n h fun l => { l with wseq := w, wave := some ⟨w, []⟩ }
      m.foldl (fun s t => s.emit (wavePacket 0 t (m.headD 0) l.ctx w 0 0 0 0)) s)

/-- Is an instance or the region of a context frozen on a bay (R351)? -/
def bayFrozen (s : State) (b ctx : Nat) : Bool :=
  (s.ctx? b ctx).any (·.frozen) || (s.bay b).gates.any fun g => (g.2.instsOf ctx).any fun e => e.2.st == .frozen

/-- Unfrozen pinned instances of a context on a bay. -/
def pinnedLive (y : Bay) (ctx : Nat) : List (Nat × Nat) :=
  y.gates.flatMap fun g =>
    ((g.2.instsOf ctx).filter fun e => e.2.pinned && e.2.st != .frozen).map fun e => (g.1, e.1)

/-- Does a bay that has stopped for a cut, and has its snapshot to take, wait only on pinned instances (R362)? -/
def pinWaits (s : State) (b ctx : Nat) : Bool :=
  let y := s.bay b
  let pins := pinnedLive y ctx
  (s.ctx? b ctx).any (fun c => c.cut.any fun k => k.stopped && !k.snapped) &&
  !tokensOnWay s b ctx &&
  !(s.flight.any fun i => match i with
    | .tokenArrive m => m.bay == b && m.ctx == ctx
    | .gateEntryToken m => m.bay == b && m.ctx == ctx && entryTakes s m
    | _ => false) &&
  y.reqs.all (fun r => r.ctx != ctx || r.deferred) && y.xreqs.all (·.ctx != ctx) && y.reds.all (·.2.ctx != ctx) &&
  y.steals.all (·.1.ctx != ctx) && y.probes.all (·.1.ctx != ctx) &&
  (portsOfCtx s b ctx).all (fun p => (s.port b p.1 p.2).queue.isEmpty && (s.port b p.1 p.2).net.isEmpty) &&
  pins.all fun e =>
    !(y.elems.any fun x => x.2.issue.any (·.of e.1 e.2) || x.2.wait.any fun m => m.of e.1 e.2 && waitReady s b m) &&
    !settles s b e.1 e.2 && !mayCommit s b e.1 e.2

/-- QUERY (R357, R362): outside the cut a bay answers IDLE; in it, PINW. -/
def execQuery (b : Nat) (p : Packet) (s : State) : Res :=
  .next (match s.ctx? b p.ctx with
  | none => s
  | some c =>
    let cut := c.cut.isSome
    let flags := 16 * (!cut && bayIdle s b p.ctx).toNat + 8 * (bayPending s b p.ctx).toNat +
      4 * (bayFrozen s b p.ctx).toNat + 2 * (cut && pinWaits s b p.ctx).toNat
    s.emit (wavePacket 1 p.src b p.ctx (p.body 212 8) c.position flags c.fires 0))

/-- The launch whose origin a bay is, with its partition. -/
def originLaunch (s : State) (b ctx : Nat) : Option (Nat × Launch) :=
  match s.ctx? b ctx with
  | none => none
  | some c =>
    match c.bound with
    | none => none
    | some h => if c.position = 0 then (s.launch? c.part h).map fun l => (c.part, l) else none

/-- What a whole wave found. -/
def waveSum (l : Launch) (rs : List (Nat × BitVec 4 × Nat)) : WaveSum :=
  let bit (k : Nat) (e : Nat × BitVec 4 × Nat) : Bool := e.2.1.getLsbD k
  { idle := rs.all (bit 3), pend := rs.any (bit 2), frz := rs.any (bit 1)
    stall := rs.all fun e => l.savedBy.contains e.1 || bit 3 e || bit 0 e
    fires := rs.foldl (fun t e => t + e.2.2) 0 % 2 ^ 32 }

/-- Send CANCEL to every position (R362); the launch stays BOUND, its held seeds are released,
and PREEMPT_ABORT is logged. -/
def cancelCut (s : State) (n : Nat) (l : Launch) (cause : Nat) : State :=
  let m := s.regionMap n l
  let o := m.headD 0
  let r := { RecBody.blank 0x88 0 with ctx := l.ctx, lseq := l.hseq, d0 := word cause, d1 := word l.cfg }
  let s := s.modPart n fun p => (p.modLaunch l.hseq fun l =>
    { l with st := .bound, cancelled := true, wave := none, lastSum := none, savedBy := [], lsavedBy := []
             image := none }).event r
  m.foldl (fun s t => s.emit (wavePacket 7 t o l.ctx l.cutNo 0 0 0 0)) (releaseSeeds s n l)

/-- Judge a whole wave (R39, R40, R362, R390): a precise stop is never taken for starvation. A cut that every bay has saved has not
stalled. -/
def judgeWave (s : State) (n : Nat) (l : Launch) (x : WaveSum) : State :=
  let last := l.lastSum
  let s := s.modLaunch n l.hseq fun l => { l with wave := none, lastSum := some x }
  let same := last.any fun y => y.fires == x.fires
  if l.st = .saving then
    if same && x.stall && last.any (·.stall) && l.cutting then cancelCut s n l 1 else s
  else if l.brk.isSome then
    if same && x.idle && last.any (·.idle) then s.modLaunch n l.hseq fun l => { l with quiet := true } else s
  else if same && x.idle && last.any (·.idle) && !x.frz && last.all (fun y => !y.frz) && x.pend then tagStarve s n l
  else s

/-- QREPLY (R357). -/
def execQreply (b : Nat) (p : Packet) (s : State) : Res :=
  .next (match originLaunch s b p.ctx with
  | none => s
  | some (n, l) =>
    match l.wave with
    | none => s
    | some w =>
      let pos := p.body 205 7
      if w.wseq != p.body 212 8 || w.replies.any (·.1 == pos) then s
      else
        let rs := (pos, BitVec.ofNat 4 (p.body 201 4), p.body 160 32) :: w.replies
        if rs.length < l.rows * l.cols then
          s.modLaunch n l.hseq fun l => { l with wave := some { w with replies := rs } }
        else judgeWave s n l (waveSum l rs))

end Sys2Proof.Machine
end

