-- ==== Sys2Proof/Machine/Images.lean ====
section
/-!
DEFINITION. Sys2Proof/Machine/Images.lean: pre-emption images (R361, R364 to R370): what a bay saves and gets back, the
bytes of an image, its check.
-/
namespace Sys2Proof.Machine

open Sys2Proof

/-! ## What a bay saves (R361) -/

/-- A bay with only what belongs to a context. -/
def saveBay (y : Bay) (ctx : Nat) : Bay :=
  let c := AMap.get? y.ctxs ctx
  let keys := (c.map (·.portKeys)).getD []
  let tiles := (c.map (·.tiles)).getD []
  let ixs := y.ixsOf ctx
  let row (k : Nat) : Bool := c.any fun c => c.strBase ≤ k && k < c.strBase + c.strCnt
  { Bay.reset with
    elems := (y.elems.map fun e =>
      (e.1, { Element.reset with
        rows := e.2.rows.filter fun r => ixs.contains (r.gate, r.ix)
        issue := e.2.issue.filter fun m => m.ctx == ctx
        wait := e.2.wait.filter fun m => m.ctx == ctx })).filter fun e => e.2 != Element.reset
    gates := (y.gates.map fun g =>
      (g.1, { g.2 with
        hitches := g.2.hitches.filter fun h => h.2.ctx == ctx
        insts := g.2.instsOf ctx
        ents := g.2.ents.filter fun m => m.ctx == ctx
        recs := g.2.recs.filter fun a => a.ctx == ctx
        replay := g.2.replay.filter fun e => ixs.contains (g.1, e.1) })).filter fun g => g.2 != Gate.reset
    wave := y.wave.filter fun w => ixs.contains (w.gate, w.ix)
    keep := y.keep.filter fun e => row e.1
    keepPoi := y.keepPoi.filter fun n => row (n / 64)
    sites := y.sites.filter fun e => e.2.ctx == ctx
    xreqs := y.xreqs.filter fun q => q.ctx == ctx
    reqs := y.reqs.filter fun r => r.ctx == ctx && r.deferred
    acc := y.acc.filter fun a => tiles.contains a.1
    feeds := y.feeds.map fun f => (f.1, f.2.filter fun t => t.ctx == ctx)
    feedBy := y.feedBy.filter fun f => keys.contains (4 * f.2.1 + f.2.2)
    ports := y.ports.filter fun p => keys.contains p.1
    ctxs := y.ctxs.filter fun e => e.1 == ctx }

/-- The dirty granules of a bay's slice for a context; presence bits go with a granule that holds written ones (R367). -/
def saveGranules (s : State) (b ctx : Nat) : List Granule :=
  let y := s.bay b
  (((AMap.get? y.ctxs ctx).map (·.dirty)).getD []).map fun n =>
    let base := loftKey b (n * 0x10000)
    { num := n
      once := (AMap.get? y.ctxs ctx).any fun c => c.presValid.contains n
      data := (s.mem.filter fun e => base ≤ e.1 && e.1 < base + 0x10000).map fun e => (e.1 - base, e.2)
      pres := (y.pres.filter fun w => w / 2048 == n)
      poi := (s.poison.filter fun u => base ≤ u && u < base + 0x10000).map fun u => u - base }

/-! ## Bytes of an image (R365 to R367) -/

/-- Runs of one word, at most 16,384 long. -/
def wordRuns : List Word → List (Word × Nat)
  | [] => []
  | w :: ws =>
    match wordRuns ws with
    | (v, n) :: rs => if v = w ∧ n < 16384 then (v, n + 1) :: rs else (w, 1) :: (v, n) :: rs
    | [] => [(w, 1)]

/-- A run of zeros, or of one word, coded (R366). -/
def codeRun (r : Word × Nat) : List Byte :=
  if r.1 = 0 then leBytes 2 (0x4000 + (r.2 - 1)) else leBytes 2 (0x8000 + (r.2 - 1)) ++ leBytes 8 r.1.toNat

/-- Words that stand alone, the last first, coded as one literal. -/
def codeLit (ws : List Word) : List Byte :=
  if ws.isEmpty then [] else leBytes 2 (ws.length - 1) ++ ws.reverse.flatMap fun w => leBytes 8 w.toNat

/-- Runs coded: ZERO for zeros, REP for a word that repeats, LIT for the words between (R366; which of them codes what is not stated, and
this agrees with PIPE12's image). -/
def codeRuns : List (Word × Nat) → List Word → List Byte
  | [], lits => codeLit lits
  | r :: rs, lits =>
    if r.1 = 0 ∨ r.2 ≠ 1 then codeLit lits ++ codeRun r ++ codeRuns rs []
    else if lits.length = 16384 then codeLit lits ++ codeRuns rs [r.1]
    else codeRuns rs (r.1 :: lits)

/-- Bytes padded to a multiple of 8. -/
def padTo8 (l : List Byte) : List Byte := l ++ List.replicate ((8 - l.length % 8) % 8) 0

/-- A part: header, coded bytes. -/
def imagePart (ptype sub : Nat) (raw : List Word) : List Byte :=
  let cod := codeRuns (wordRuns raw) []
  leBytes 8 (ptype + sub * 2 ^ 8 + 8 * raw.length * 2 ^ 32) ++ leBytes 8 cod.length ++ cod

/-- Parts one after another, each at a multiple of 8; the last ends the block. -/
def joinParts (ps : List (List Byte)) : List Byte := (ps.filter (!·.isEmpty)).foldl (fun l p => padTo8 l ++ p) []

/-- Bytes as words, the last one filled with zeros. -/
def wordsOf (l : List Byte) : List Word :=
  (List.range ((l.length + 7) / 8)).map fun i => word (leNat ((l.drop (8 * i)).take 8))

/-- Bits set from a list of numbered values. -/
def pack (l : List (Nat × Nat)) : Word := word (l.foldl (fun n e => n + e.2 * 2 ^ e.1) 0)

/-- Tokens with the number of the parking buffer each vector takes, from `n` on. -/
def parkNos : List (Option Token) → Nat → List Nat × Nat
  | [], n => ([], n)
  | k :: ks, n =>
    let v := k.any fun k => valNet k.val == 1
    let r := parkNos ks (if v then n + 1 else n)
    ((if v then n else 0) :: r.1, r.2)

/-- The word a value takes beside its parking buffer. -/
def inlineWord (k : Option Token) : Word := (k.map fun k => if valNet k.val = 1 then 0 else valWord k.val).getD 0
def isVec (k : Option Token) : Nat := (k.any fun k => valNet k.val == 1).toNat
def isNul (k : Option Token) : Nat := (k.any fun k => k.nul).toNat

/-- ELEM. -/
def elemRaw (frozen : Nat → Nat → Bool) (e : Element) : List Word :=
  let sets := e.issue ++ e.wait
  let toks := (e.rows.flatMap fun r => r.ents.map fun w => some w.tok) ++ sets.flatMap fun m => [m.a, m.b, m.c]
  let nos := parkNos toks 0
  let parks := (toks.filter fun k => isVec k = 1).map fun k => (k.map fun k => valVec k.val).getD 0
  let rows := e.rows.foldl (fun (a : Nat × List Word) r =>
    (a.1 + r.ents.length, a.2 ++
      [pack [(0, r.gate), (3, r.ix), (11, match r.st with | .empty => 0 | .partly => 1 | .cleared => 2), (13, r.ents.length),
        (19, (frozen r.gate r.ix).toNat)]] ++
      ((List.range r.ents.length).flatMap fun i =>
        match r.ents[i]? with
        | none => []
        | some w => [pack [(0, w.slot), (5, w.port), (7, w.tok.nul.toNat), (8, isVec (some w.tok)), (9, nos.1.getD (a.1 + i) 0)],
            inlineWord (some w.tok)]))) (0, [])
  let issue := sets.foldl (fun (a : Nat × List Word) m =>
    let no (i : Nat) : Nat := nos.1.getD (a.1 + i) 0
    (a.1 + 3, a.2 ++
      [pack [(0, m.slot), (5, m.gate), (8, m.ix), (16, isNul m.a), (17, isNul m.b), (18, isNul m.c), (19, isNul m.p),
        (20, (m.p.any fun k => valBit k.val).toNat), (21, isVec m.a), (22, isVec m.b), (23, isVec m.c), (24, no 0), (28, no 1),
        (32, no 2)], inlineWord m.a, inlineWord m.b, inlineWord m.c])) (rows.1, [])
  [pack [(0, e.rows.length), (16, sets.length), (24, nos.2)]] ++ rows.2 ++ issue.2 ++
    (List.range parks.length).flatMap fun i => word i :: wordsOf (vecBytes (parks.getD i 0))

/-- An entry token; a held token has a position. -/
def entRaw (hnum entry : Nat) (tag : Word) (k : Token) (pos : Nat) : List Word :=
  [tag, inlineWord (some k),
    pack [(0, hnum), (5, entry), (8, valNet k.val), (10, k.nul.toNat), (11, pos)]] ++
    (if valNet k.val = 1 then wordsOf (vecBytes (valVec k.val)) else [])

/-- GATE; LIM of the hitches that have not their start value. -/
def gateRaw (inflight : Nat → Nat) (g : Gate) : List Word :=
  let held := g.insts.flatMap fun e => e.2.held
  let lims := g.hitches.filter fun h => h.2.lim != h.2.fresh.lim
  [pack [(0, g.insts.length), (16, g.ents.length), (24, held.length), (32, g.recs.length), (40, lims.length)]] ++
  (g.insts.flatMap fun e =>
    let i := e.2
    [i.tag, pack [(0, e.1), (8, i.hnum),
        (13, match i.st with | .ready => 1 | .frozen => 2 | .live => if i.discard then 3 else 0), (15, i.pinned.toNat),
        (16, i.exit.isSome.toNat), (18, inflight e.1)], wordOfBits i.stores, wordOfBits i.keeps]) ++
  (g.ents.flatMap fun m => entRaw m.hnum m.entry m.tag m.tok 0) ++
  (held.flatMap fun h => entRaw h.hnum h.entry h.tag h.tok h.pos) ++
  (g.recs.flatMap fun a =>
    [a.key, pack [(0, a.slot), (32, a.n % 2 ^ 32)], word a.cnt] ++
      ((List.range 33).map fun i => (((a.levels.getD i none).getD none).getD 0)) ++
      [wordOfBits ((List.range 32).filter fun i => a.levels.getD i none == some none) |||
        (wordOfBits ((List.range 32).filter fun i => (a.levels.getD i none).isSome) <<< 32)]) ++
  lims.map fun h => pack [(0, h.1 % 32), (8, h.2.lim)]

/-- WAVE. -/
def waveRaw (base : Nat) (l : List WaveEnt) : List Word :=
  word l.length :: l.flatMap fun w =>
    [pack [(0, w.gate), (3, w.ix), (11, w.lsid), (17, match w.kind with | .store _ => 0 | .keep => 1 | _ => 2),
      (19, w.nul.toNat), (20, w.data.length), (28, w.site - base)], word w.addr] ++
    wordsOf (w.data ++ List.replicate ((if w.data.length ≤ 8 then 8 else 128) - w.data.length) 0)

/-- SITE. -/
def siteRaw (x : Site) : List Word :=
  let us := (List.range x.bufs.length).filter fun i => (x.bufs.getD i emptyBuf).st != .empty
  [pack [(0, us.length), (8, x.dep), (16, (x.start && !x.started).toNat), (17, x.lifeOpen.toNat)], word x.key, word x.line] ++
  us.flatMap fun i =>
    let u := x.bufs.getD i emptyBuf
    [pack [(0, i), (6, match u.st with | .empty => 0 | .filling => 1 | .full => 2 | .dirty => 3), (9, (u.poi.any id).toNat)],
      word u.line] ++
    ((List.range (x.lineLen / 64)).map fun n =>
      word (ofBits ((List.range 64).map fun j => u.filled || u.valid.getD (64 * n + j) false))) ++
    wordsOf (u.data.take x.lineLen ++ List.replicate (x.lineLen - u.data.length) 0)

/-- A command. -/
def cmdRaw (k : IslCmd) : List Word :=
  [pack [(0, k.f.iport.toNat), (4, k.op), (12, k.f.rcp.toNat), (22, k.f.aux11.toNat)], k.a, k.b, k.cc,
    pack [(0, k.c.t0.toNat), (11, k.c.t1.toNat)], k.tag]

/-- The commands of an island's ports, in order of port. -/
def islandCmds (y : Bay) (isl : Nat) : List (IslCmd × Option Pipe) :=
  (List.range 4).flatMap fun p =>
    let q := AMap.getD y.ports (4 * isl + p) IslPort.reset
    (List.range q.queue.length).filterMap fun i => q.queue[i]?.map fun k => (k, if i = 0 then q.run else none)

/-- MATRIX. -/
def matrixRaw (y : Bay) : List Word :=
  let feeds := y.feeds.flatMap fun f => f.2.map fun t => (f.1, t)
  let cmds := islandCmds y 0
  [pack [(0, ofBits ((List.range 4).map fun i => (AMap.get? y.acc i).isSome)), (4, feeds.length), (12, cmds.length)]] ++
  (y.acc.flatMap fun a => (List.range 8192).map fun i =>
    word ((AMap.getD a.2.words (2 * i) 0).toNat + (AMap.getD a.2.words (2 * i + 1) 0).toNat * 2 ^ 32)) ++
  (feeds.flatMap fun f => [pack [(0, f.1), (16, f.2.data.length)], word f.2.tag] ++ wordsOf f.2.data) ++
  cmds.flatMap fun k => cmdRaw k.1

/-- STREAM. -/
def streamRaw (y : Bay) (isl : Nat) : List Word :=
  (islandCmds y isl).flatMap fun k =>
    let x := k.2.getD newPipe
    cmdRaw k.1 ++ [word x.arrived, word x.notices] ++ (x.index.getD []).map fun e => word e.1

/-! ## What a break holds (R391) -/

/-- The place of a frame entry that keeps an operand a break holds: element, gate, index, the operand. -/
structure HeldEnt where
  el   : Nat
  gate : Nat
  ix   : Nat
  w    : WaitTok
  deriving DecidableEq, Repr

/-- The operands that a context's break holds on a bay: the token of a comparator, the set of a brk. -/
def CtxRt.heldEnts (c : CtxRt) : List HeldEnt :=
  (c.heldTok.toList.map fun t => ⟨t.msg.el, t.msg.gate, t.msg.ix, ⟨t.msg.slot, t.msg.port, t.msg.tok, t.at_⟩⟩) ++
  c.heldSet.toList.flatMap fun e =>
    [(0, e.1.a), (1, e.1.b), (2, e.1.c), (3, e.1.p)].filterMap fun o =>
      o.2.map fun k => ⟨e.1.el, e.1.gate, e.1.ix, ⟨e.1.slot, o.1, k, e.1.since⟩⟩

/-- Do two entries have one place? -/
def HeldEnt.at_ (h : HeldEnt) (r : Row) (w : WaitTok) : Bool :=
  h.gate == r.gate && h.ix == r.ix && h.w.slot == w.slot && h.w.port == w.port

/-- An element with what a break holds as entries of their instance's frame row (R391). -/
def Element.withHeld (hs : List HeldEnt) (el : Nat) (e : Element) : Element :=
  { e with rows := e.rows.map fun r =>
      { r with ents := r.ents ++ (hs.filter fun h => h.el == el && h.gate == r.gate && h.ix == r.ix).map (·.w) } }

/-- An element with those entries taken out again. -/
def Element.withoutHeld (hs : List HeldEnt) (el : Nat) (e : Element) : Element :=
  { e with rows := e.rows.map fun r => { r with ents := r.ents.filter fun w => !hs.any fun h => h.el == el && h.at_ r w } }

/-- A reader, named by the region position of its requester. -/
def readerRaw (posOf : Nat → Nat) (r : Reader) : List Word :=
  [word (r.off / 32 * 32), pack [(0, posOf r.req.src), (7, r.req.unit), (11, r.req.rqid), (23, r.req.body 204 8 + 1)]]

/-- A granule. -/
def granRaw (g : Granule) : List Word :=
  pack [(0, g.num), (9, g.once.toNat)] ::
    wordsOf ((List.range 0x10000).map fun i => ((g.data.find? fun e => e.1 == i).map (·.2)).getD 0) ++
    (if g.once then (List.range 32).map fun i => word (ofBits ((List.range 64).map fun j =>
        g.pres.contains (2048 * g.num + 64 * i + j))) else [])

/-- A part as it is read: type, SUB, raw words. -/
abbrev RawPart := Nat × Nat × List Word

/-- A part when its state differs from a fresh binding's. -/
def partIf (c : Bool) (ptype sub : Nat) (raw : List Word) : List RawPart := if c then [(ptype, sub, raw)] else []

/-- The parts of a position (R367). -/
def positionParts (ctx : Nat) (posOf : Nat → Nat) (i : BayImage) : List RawPart :=
  let y := i.bay
  let s : State := { State.reset with bays := [(0, y)] }
  let c := AMap.get? y.ctxs ctx
  let base := (c.map (·.siteBase)).getD 0
  let rec' := (c.map (·.recorded)).getD []
  let regs := (c.map fun c => [c.rngCur, c.rngHi, word c.rngChunk] ++ (List.range 8).map fun k => AMap.getD c.user k 0).getD []
  let hs := (c.map (·.heldEnts)).getD []
  let frozen (g ix : Nat) : Bool := frozenInst s 0 g ix || hs.any fun h => h.gate == g && h.ix == ix
  (y.elems.map fun e => (1, e.1, elemRaw frozen (e.2.withHeld hs e.1))) ++
  (y.gates.flatMap fun g =>
    partIf (g.2.insts != [] || g.2.ents != [] || g.2.recs != [] || g.2.hitches.any fun h => h.2.lim != h.2.fresh.lim) 2 g.1
      (gateRaw (fun ix => s.inflight 0 g.1 ix) g.2)) ++
  partIf (y.wave != []) 3 0 (waveRaw base y.wave) ++
  (y.keep.flatMap fun e => partIf (e.2.any fun r => r.2 != 0) 4 e.1 ((List.range 64).map fun r => AMap.getD e.2 r 0)) ++
  (y.sites.flatMap fun e => partIf (siteRaw e.2 != siteRaw e.2.fresh) 5 (e.1 - base) (siteRaw e.2)) ++
  partIf (y.acc != [] || y.feeds.any (fun f => f.2 != []) || islandCmds y 0 != []) 6 0 (matrixRaw y) ++
  partIf (islandCmds y 1 != []) 7 0 (streamRaw y 1) ++ partIf (islandCmds y 2 != []) 7 1 (streamRaw y 2) ++
  partIf (regs.any (· != 0)) 8 0 regs ++
  ((List.range 128).flatMap fun p =>
    let l := rec'.filter fun t => t.src == p
    partIf (l != []) 9 p (word l.length :: l.flatMap fun t => entRaw t.msg.hnum t.msg.entry t.msg.tag t.msg.tok 0)) ++
  partIf (i.granules != []) 10 0 (i.granules.flatMap granRaw) ++
  (List.range 8).flatMap fun n =>
    let l := i.readers.filter fun r => r.node == n
    partIf (l != []) 11 n (l.flatMap (readerRaw posOf))

/-- A position block (R366). -/
def positionBlock (ctx : Nat) (posOf : Nat → Nat) (i : BayImage) : List Byte :=
  joinParts ((positionParts ctx posOf i).map fun p => imagePart p.1 p.2.1 p.2.2)

/-- The position a bay had in a region. -/
def posIn (m : List Nat) (b : Nat) : Nat := (placeOf (· == b) m 0).getD 0

/-- The header (R365). -/
def imageHeader (l : Launch) (nbv len origin : Nat) : List Byte :=
  leBytes 64 (l.fires * 2 ^ 448 + l.seeds % 2 ^ 32 * 2 ^ 416 + len % 2 ^ 32 * 2 ^ 384 + l.preempts % 2 ^ 32 * 2 ^ 352 +
    l.rows * l.cols * 2 ^ 344 + l.rows * 2 ^ 336 + l.cols * 2 ^ 328 + origin * 2 ^ 320 + l.prio * 2 ^ 312 + nbv * 2 ^ 304 +
    l.ctx * 2 ^ 301 + l.scopePol * 2 ^ 256 + l.cfg * 2 ^ 224 + l.hseq * 2 ^ 192 + 0x31474D49)

/-- The bytes of an image: header, directory, blocks. -/
def imageBytes (l : Launch) (nbv : Nat) (i : Image) (posOf : Nat → Nat) : List Byte :=
  let blocks := (List.range (l.rows * l.cols)).map fun p =>
    match AMap.get? i.bays p with
    | none => []
    | some b => positionBlock l.ctx posOf b
  let start := 64 + 8 * (l.rows * l.cols)
  let dir := blocks.foldl (fun (a : List Byte × List Byte) x =>
    if x.isEmpty then (a.1, a.2 ++ leBytes 8 0)
    else
      let b := padTo8 a.1
      (b ++ x, a.2 ++ leBytes 8 (start + b.length + x.length * 2 ^ 32))) ([], [])
  imageHeader l nbv (start + dir.1.length) i.origin ++ dir.2 ++ dir.1

/-! ## The check (R370) -/

/-- The words coded bytes decode to, none if they do not decode; at most one control word in each round (R366). -/
def decodeWords : Nat → List Byte → Option (List Word)
  | _, [] => some []
  | 0, _ => none
  | n + 1, l =>
    if l.length < 2 then none
    else
      let w := leNat (l.take 2)
      let cnt := w % 0x4000 + 1
      let ops := match w / 0x4000 with | 0 => 8 * cnt | 1 => 0 | _ => 8
      if w / 0x4000 = 3 ∨ l.length < 2 + ops then none
      else
        let ws := match w / 0x4000 with
          | 0 => wordsOf ((l.drop 2).take ops)
          | 1 => List.replicate cnt 0
          | _ => List.replicate cnt (word (leNat ((l.drop 2).take 8)))
        (decodeWords n (l.drop (2 + ops))).map (ws ++ ·)

/-- The parts of a block, or the offset of the first that fails. -/
def readParts : Nat → List Byte → Nat → Except Nat (List RawPart)
  | _, [], _ => .ok []
  | 0, _, off => .error off
  | n + 1, l, off =>
    if l.length < 16 then .error off
    else
      let w0 := leNat (l.take 8)
      let w1 := leNat ((l.drop 8).take 8)
      let ptype := w0 % 256
      let rawlen := w0 / 2 ^ 32
      let size := (16 + w1 + 7) / 8 * 8
      if ptype = 0 ∨ 11 < ptype ∨ w0 / 2 ^ 16 % 2 ^ 16 ≠ 0 ∨ 2 ^ 32 ≤ w1 ∨ rawlen % 8 ≠ 0 ∨ l.length < 16 + w1 then .error off
      else
        match decodeWords (w1 + 1) ((l.drop 16).take w1) with
        | none => .error off
        | some ws =>
          if 8 * ws.length ≠ rawlen then .error off
          else (readParts n (l.drop size) (off + size)).map ((ptype, w0 / 2 ^ 8 % 2 ^ 8, ws) :: ·)

/-- The partition whose keys cover an image (R364). -/
def imageEnc (p : Part) (n : Nat) : Option Nat := if p.encl then some n else none

/-- The key of an image's first byte. -/
def imageKey (p : Part) (i : Image) : Nat := p.imgBase.toNat + i.off

/-- A field of an image's bytes. -/
def imageField (bs : List Byte) (o k : Nat) : Nat := leNat ((bs.drop o).take k)

/-- The parts of a position's block of an image of `len` bytes, or the offset of a failure. -/
def readBlock (bs : List Byte) (len npos p : Nat) : Except Nat (List RawPart) :=
  let at_ := 64 + 8 * p
  let off := imageField bs at_ 4
  let n := imageField bs (at_ + 4) 4
  if n = 0 then (if off = 0 then .ok [] else .error at_)
  else if off % 8 ≠ 0 ∨ off < 64 + 8 * npos ∨ len < off + n then .error at_
  else readParts n ((bs.drop off).take n) off

/-- The bytes of an image as they stand in memory. -/
def imageNow (s : State) (n : Nat) (i : Image) : List Byte := homeRead s (imageEnc (s.part n) n) (imageKey (s.part n) i) i.len

/-- The offset of the first failure of an image as it stands in memory (R370). -/
def imageFails (s : State) (n : Nat) (l : Launch) (i : Image) : Option Nat :=
  let key := imageKey (s.part n) i
  let bs := imageNow s n i
  let npos := l.rows * l.cols
  let bad (p : Bool) (o : Nat) : List Nat := if p then [o] else []
  let fs := ((List.range i.len).find? fun o => s.poisoned (key + o) 1).toList ++
    bad (imageField bs 0 4 != 0x31474D49) 0 ++ bad (imageField bs 43 1 != npos) 43 ++ bad (imageField bs 48 4 != i.len) 48 ++
    (List.range npos).flatMap fun p => match readBlock bs i.len npos p with | .error o => [o] | .ok _ => []
  match fs with
  | [] => none
  | o :: os => some (os.foldl min o)

/-! ## Restoring (R368) -/

/-- A packet with its ends named from the bays now at their positions. -/
def movePacket (now : Nat → Nat) (p : Packet) : Packet :=
  { p with hdr := flitPut (flitPut p.hdr 235 8 (now p.dst)) 227 8 (now p.src) }

/-- A home number of a bay moved; the memory fabric's stay. -/
def moveHome (now : Nat → Nat) (h : Nat) : Nat := if Config.bays ≤ h then h else now h

/-- Congestion windows start at 64 after a restore (R368); a requester's numbers go on. -/
def restoreWins (y : Bay) (ctx : Nat) : AMap Win :=
  y.wins.map fun e =>
    if 256 ≤ e.1 ∨ (AMap.get? y.sites e.1).any (fun x => x.ctx == ctx) then (e.1, { Win.reset with hmark := e.2.next, next := e.2.next }) else e

/-- Give a bay back what it saved of a context. `now` is the bay now at the position of a bay of the save. All waiting times
count from here (R9). Accumulator tiles of the context's share that were not written hold +0 (R260). -/
def restoreBay (ctx b : Nat) (now : Nat → Nat) (i : Bay) (y : Bay) : Bay :=
  let entMsg (m : EntMsg) : EntMsg := { m with bay := b }
  let mset (m : MSet) : MSet := { m with since := y.clk }
  { y with
    elems := i.elems.foldl (fun l e => AMap.set l e.1
      (let z := AMap.getD l e.1 Element.reset
       { z with
         rows := z.rows ++ e.2.rows.map fun r => { r with ents := r.ents.map fun w => { w with since := y.clk } }
         issue := z.issue ++ e.2.issue.map mset
         wait := z.wait ++ e.2.wait.map mset })) y.elems
    gates := i.gates.foldl (fun l g => AMap.set l g.1
      (let z := AMap.getD l g.1 Gate.reset
       { z with
         hitches := g.2.hitches.foldl (fun l h => AMap.upd l h.1 fun k => { k with lim := h.2.lim }) z.hitches
         insts := g.2.insts.foldl (fun l e => AMap.set l e.1 { e.2 with ops := e.2.ops.map fun o => { o with since := y.clk } }) z.insts
         ents := z.ents ++ g.2.ents.map entMsg
         recs := (z.recs.filter fun a => !g.2.recs.any fun r => r.isFor a.ctx a.key a.el a.slot) ++
           g.2.recs.map fun r => { r with own := r.own && z.ownRecFree ctx }
         replay := z.replay ++ g.2.replay.map fun e => (e.1, entMsg e.2) })) y.gates
    wave := y.wave ++ i.wave
    keep := i.keep.foldl (fun l e => AMap.set l e.1 e.2) y.keep
    keepPoi := i.keepPoi.foldl (fun l n => insertNat n l) y.keepPoi
    sites := i.sites.foldl (fun l e => AMap.upd l e.1 fun x =>
      { e.2 with q0 := x.q0, q1 := x.q1, q2 := x.q2, q3 := x.q3, poison := x.poison
                 bufs := e.2.bufs.map fun u => { u with since := y.clk } }) y.sites
    wins := restoreWins y ctx
    xreqs := y.xreqs ++ (List.range i.xreqs.length).filterMap fun k => i.xreqs[k]?.map fun q => { q with id := y.xnext + k }
    xnext := y.xnext + i.xreqs.length
    reqs := y.reqs ++ i.reqs.map fun r => { r with home := moveHome now r.home, pkt := movePacket now r.pkt, since := y.clk }
    acc := i.acc.foldl (fun l a => AMap.set l a.1 a.2)
      (y.acc.filter fun a => !((AMap.get? y.ctxs ctx).any fun c => c.tiles.contains a.1))
    feeds := i.feeds.foldl (fun l f => AMap.set l f.1 (AMap.getD l f.1 [] ++ f.2)) y.feeds
    feedBy := i.feedBy.foldl (fun l f => AMap.set l f.1 f.2) y.feedBy
    ports := i.ports.foldl (fun l p => AMap.set l p.1 p.2) y.ports
    ctxs := AMap.upd y.ctxs ctx fun c =>
      match AMap.get? i.ctxs ctx with
      | none => c
      | some d =>
        { c with
          rngCur := d.rngCur, rngHi := d.rngHi, rngChunk := d.rngChunk, user := d.user, frozen := d.frozen
          stopRun := d.stopRun, brkInst := d.brkInst, halted := d.halted, clamped := d.clamped, omitted := d.omitted
          heldTok := d.heldTok.map fun t => { t with msg := { t.msg with bay := b }, at_ := y.clk }
          heldSet := d.heldSet.map fun t => (mset t.1, t.2) } }

/-- Write a granule into the slice of a bay (R368): a granule of ONCE pages with its presence bits. -/
def restoreGranule (ctx b : Nat) (s : State) (g : Granule) : State :=
  let base := loftKey b (g.num * 0x10000)
  let bs := (List.range 0x10000).map fun i => ((g.data.find? fun e => e.1 == i).map (·.2)).getD 0
  let s := s.writeBytes base bs false
  let s := { s with poison := g.poi.foldl (fun l u => insertNat (base + u) l) s.poison }
  s.modBay b fun y =>
    { y with
      pres := if g.once then g.pres.foldl (fun l w => insertNat w l) (y.pres.filter fun w => w / 2048 != g.num) else y.pres
      ctxs := AMap.upd y.ctxs ctx fun c =>
        { c with dirty := insertNat g.num c.dirty
                 presValid := if g.once then insertNat g.num c.presValid else c.presValid } }

/-- A reader restored to its word's list: answered at once where the word is present (R368). -/
def restoreReader (now : Nat → Nat) (b : Nat) (s : State) (r : Reader) : State :=
  let q := movePacket now r.req
  let r := { r with req := q }
  if present (s.bay b) r.ctx r.off then answerReader s b r
  else s.modBay b fun y => { y with readers := y.readers ++ [r] }

end Sys2Proof.Machine
end

