-- ==== Sys2Proof/Machine/ImageRead.lean ====
section
/-!
DEFINITION. Sys2Proof/Machine/ImageRead.lean: the state that an image's bytes give a position (R366 to R368). A part that reads as it
was written gives what was saved; of any other part the raw words decide, and of what they have no place for the saved record with the
same names decides (log 58). A part that is missing gives a fresh binding's state.
-/
namespace Sys2Proof.Machine

open Sys2Proof

/-! ## Words -/

/-- `n` bits of a word from bit `o` on. -/
def bitsAt (w : Word) (o n : Nat) : Nat := w.toNat / 2 ^ o % 2 ^ n

/-- The first `n` records of `k` words. -/
def records (k n : Nat) (ws : List Word) : List (List Word) := (List.range n).map fun i => (ws.drop (k * i)).take k

/-- Records read each over the saved one of its place, those beyond the saved ones over a blank one. -/
def readOver {α β : Type} (blank : α) (f : α → β → α) : List α → List β → List α
  | _, [] => []
  | [], r :: rs => f blank r :: readOver blank f [] rs
  | a :: as, r :: rs => f a r :: readOver blank f as rs

def bytesOfWords (ws : List Word) : List Byte := ws.flatMap fun w => leBytes 8 w.toNat
def vecOfWords (ws : List Word) : Vec := bytesVec (bytesOfWords ws)

/-- The numbers of a mask's bits, in the order of the list that gave the mask when it is the same. -/
def bitList (old : List Nat) (w : Word) : List Nat :=
  if wordOfBits old = w then old else (List.range 64).filter fun i => w.getLsbD i

/-- A token read: a control token where the port carries one, or the saved token is one. -/
def readTok (old : Option Token) (vec : Bool) (v : Vec) (w : Word) (nul ct : Bool) : Token :=
  ⟨if vec then .vec v else if ct || old.any fun k => valNet k.val == 2 then .ct (w.setWidth 1) else .sc w, nul, old.any (·.poi)⟩

/-! ## Elements -/

/-- Frame rows: header and entries, and the words after them. -/
def readRows : Nat → List Word → List (Word × List (List Word)) × List Word
  | 0, ws => ([], ws)
  | _, [] => ([], [])
  | n + 1, h :: ws =>
    let k := bitsAt h 13 6
    let r := readRows n (ws.drop (2 * k))
    ((h, records 2 k ws) :: r.1, r.2)

/-- An operand of a set: absent where the saved set has none and the words hold none. -/
def readOpnd (saved : Bool) (old : Option Token) (vec : Bool) (v : Vec) (w : Word) (nul ct : Bool) : Option Token :=
  if (saved && old.isNone) || (!saved && !vec && !nul && w == 0) then none else some (readTok old vec v w nul ct)

/-- ELEM. -/
def readElem (ctx el : Nat) (old : Element) (ws : List Word) : Element :=
  let h := ws.headD 0
  let rows := readRows (bitsAt h 0 16) ws.tail
  let nset := bitsAt h 16 8
  let parks := records 17 (bitsAt h 24 8) (rows.2.drop (4 * nset))
  let parked (i : Nat) : Vec := ((parks.find? fun p => (p.headD 0).toNat == i).map fun p => vecOfWords p.tail).getD 0
  let row (e : Word × List (List Word)) : Row :=
    let g := bitsAt e.1 0 3
    let ix := bitsAt e.1 3 8
    let was := (old.rows.find? fun r => r.gate == g && r.ix == ix).map (·.ents)
    { gate := g, ix := ix, st := match bitsAt e.1 11 2 with | 0 => .empty | 1 => .partly | _ => .cleared
      ents := e.2.map fun w =>
        let k := w.headD 0
        let t := (was.getD []).find? fun x => x.slot == bitsAt k 0 5 && x.port == bitsAt k 5 2
        ⟨bitsAt k 0 5, bitsAt k 5 2,
          readTok (t.map (·.tok)) (bitsAt k 8 1 == 1) (parked (bitsAt k 9 4)) (w.getD 1 0) (bitsAt k 7 1 == 1) (bitsAt k 5 2 == 3),
          (t.map (·.since)).getD 0⟩ }
  let same (k : Word) (m : MSet) : Bool := m.slot == bitsAt k 0 5 && m.gate == bitsAt k 5 3 && m.ix == bitsAt k 8 8
  let set (w : List Word) : MSet :=
    let k := w.headD 0
    let m := (old.issue ++ old.wait).find? (same k)
    let opnd (i : Nat) (f : MSet → Option Token) : Option Token :=
      readOpnd m.isSome (m.bind f) (bitsAt k (21 + i) 1 == 1) (parked (bitsAt k (24 + 4 * i) 4)) (w.getD (i + 1) 0)
        (bitsAt k (16 + i) 1 == 1) false
    { el := el, slot := bitsAt k 0 5, gate := bitsAt k 5 3, ix := bitsAt k 8 8, ctx := ctx
      a := opnd 0 (·.a), b := opnd 1 (·.b), c := opnd 2 (·.c)
      p := readOpnd m.isSome (m.bind (·.p)) false 0 (word (bitsAt k 20 1)) (bitsAt k 19 1 == 1) true
      since := (m.map (·.since)).getD 0 }
  let sets := records 4 nset rows.2
  let waits (w : List Word) : Bool := old.wait.any (same (w.headD 0))
  { old with
    rows := rows.1.map row
    issue := (sets.filter fun w => !waits w).map set
    wait := (sets.filter waits).map set }

/-! ## Gates -/

/-- Entry or held tokens: TAG, value, the third word, the vector; and the words after them. -/
def readEnts : Nat → List Word → List (Word × Word × Word × Vec) × List Word
  | 0, ws => ([], ws)
  | n + 1, t :: v :: k :: ws =>
    let len := if bitsAt k 8 2 = 1 then 16 else 0
    let r := readEnts n (ws.drop len)
    ((t, v, k, vecOfWords (ws.take len)) :: r.1, r.2)
  | _, _ => ([], [])

/-- The token of an entry record. -/
def entTok (old : Option Token) (e : Word × Word × Word × Vec) : Token :=
  readTok old (bitsAt e.2.2.1 8 2 == 1) e.2.2.2 e.2.1 (bitsAt e.2.2.1 10 1 == 1) (bitsAt e.2.2.1 8 2 == 2)

/-- An entry token over the saved one of its place. -/
def readEnt (m : EntMsg) (e : Word × Word × Word × Vec) : EntMsg :=
  { m with tag := e.1, hnum := bitsAt e.2.2.1 0 5, entry := bitsAt e.2.2.1 5 3, tok := entTok (some m.tok) e }

/-- The held tokens of instances, from a list of all of them in order. -/
def readHeld : AMap Inst → List (Word × Word × Word × Vec) → AMap Inst
  | [], _ => []
  | (ix, i) :: is, es =>
    let held := (i.held.zip es).map fun p =>
      { p.1 with tag := p.2.1, hnum := bitsAt p.2.2.2.1 0 5, entry := bitsAt p.2.2.2.1 5 3, pos := bitsAt p.2.2.2.1 11 7
                 tok := entTok (some p.1.tok) p.2 }
    (ix, { i with held := held }) :: readHeld is (es.drop i.held.length)

/-- A level of an accumulation record: absent, void, or a value. -/
def readLevel (w : List Word) (i : Nat) : Option Partial :=
  let m := w.getD 36 0
  if m.getLsbD (i + 32) then some (if m.getLsbD i then none else some (w.getD (i + 3) 0)) else none

/-- An entry token of which nothing is saved. -/
def blankEnt (ctx gate : Nat) (chan : Option Nat) : EntMsg := ⟨0, gate, 0, 0, ctx, 0, noTok, chan, gateSrc gate⟩

/-- An accumulation record over the saved one of its place. -/
def readRec (a : AccRec) (w : List Word) : AccRec :=
  let l := (List.range 33).map (readLevel w)
  { a with key := w.headD 0, slot := bitsAt (w.getD 1 0) 0 5, n := bitsAt (w.getD 1 0) 32 32, cnt := (w.getD 2 0).toNat
           levels := l.take (max a.levels.length (l.length - (l.reverse.takeWhile (·.isNone)).length)) }

/-- GATE. -/
def readGate (ctx gate : Nat) (old : Gate) (ws : List Word) : Gate :=
  let h := ws.headD 0
  let ni := bitsAt h 0 16
  let inst (w : List Word) : Nat × Inst :=
    let k := w.getD 1 0
    let ix := bitsAt k 0 8
    let i := (AMap.get? old.insts ix).getD (newInst (bitsAt k 8 5) ctx 0 false [] [])
    (ix, { i with
      tag := w.headD 0, hnum := bitsAt k 8 5, pinned := bitsAt k 15 1 == 1, discard := bitsAt k 13 2 == 3
      st := match bitsAt k 13 2 with | 1 => .ready | 2 => .frozen | _ => .live
      exit := if bitsAt k 16 2 = 0 then none else some (i.exit.getD 0)
      stores := bitList i.stores (w.getD 2 0), keeps := bitList i.keeps (w.getD 3 0) })
  let insts := (records 4 ni ws.tail).foldl (fun l w => AMap.set l (inst w).1 (inst w).2) []
  let ents := readEnts (bitsAt h 16 8) (ws.tail.drop (4 * ni))
  let held := readEnts (bitsAt h 24 8) ents.2
  let recs := records 37 (bitsAt h 32 8) held.2
  let lims := (held.2.drop (37 * bitsAt h 32 8)).take (bitsAt h 40 8)
  { old with
    insts := readHeld insts held.1
    ents := readOver (blankEnt ctx gate none) readEnt old.ents ents.1
    recs := readOver ⟨ctx, 0, 0, 0, false, 0, 0, []⟩ readRec old.recs recs
    hitches := old.hitches.map fun g => (g.1, { g.2 with
      lim := ((lims.find? fun w => bitsAt w 0 5 == g.1 % 32).map fun w => bitsAt w 8 9).getD g.2.fresh.lim }) }

/-! ## Memory engines -/

/-- Wave entries, each with its data. -/
def readWaves : Nat → List Word → List (Word × Word × List Byte)
  | n + 1, k :: a :: ws =>
    let len := if bitsAt k 20 8 ≤ 8 then 1 else 16
    (k, a, (bytesOfWords (ws.take len)).take (bitsAt k 20 8)) :: readWaves n (ws.drop len)
  | _, _ => []

/-- A wave entry of which nothing is saved: a plain store, a keep or a fence. -/
def blankWave (k : Word) : WaveEnt :=
  { gate := bitsAt k 0 3, ix := bitsAt k 3 8, kind := match bitsAt k 17 2 with | 0 => .store false | 1 => .keep | _ => .fence
    lsid := bitsAt k 11 6, nul := false, site := 0, addr := 0, data := [], poi := [], ord := .plain, scope := 0, zskip := false, el := 0
    slot := 0 }

/-- WAVE. -/
def readWave (base : Nat) (old : List WaveEnt) (ws : List Word) : List WaveEnt :=
  (readWaves (ws.headD 0).toNat ws.tail).map fun e =>
    let k := e.1
    let w := (old.find? fun w => w.gate == bitsAt k 0 3 && w.ix == bitsAt k 3 8 && w.lsid == bitsAt k 11 6).getD (blankWave k)
    { w with nul := bitsAt k 19 1 == 1, site := base + bitsAt k 28 8, addr := e.2.1.toNat, data := e.2.2 }

/-- Buffer records of a site: the header, the line, the mask, the bytes. -/
def readBufs (len : Nat) (ws : List Word) (n : Nat) : List (List Word) := records (2 + len / 64 + len / 8) n ws

/-- SITE. -/
def readSite (old : Site) (ws : List Word) : Site :=
  let h := ws.headD 0
  let len := old.lineLen
  let us := readBufs len (ws.drop 3) (bitsAt h 0 8)
  let buf (i : Nat) : SiteBuf :=
    match us.find? fun w => bitsAt (w.headD 0) 0 6 == i with
    | none => emptyBuf
    | some w =>
      let u := old.bufs.getD i emptyBuf
      let mask := (w.drop 2).take (len / 64)
      let valid := (List.range len).map fun j => (mask.getD (j / 64) 0).getLsbD (j % 64)
      let whole := valid.all id
      { u with
        st := match bitsAt (w.headD 0) 6 3 with | 1 => .filling | 2 => .full | 3 => .dirty | _ => .empty
        line := (w.getD 1 0).toNat, data := bytesOfWords (w.drop (2 + len / 64)), valid := if whole && u.filled then u.valid else valid
        filled := whole
        poi := if bitsAt (w.headD 0) 9 1 = 0 then List.replicate len false else if u.poi.any id then u.poi else List.replicate len true }
  { old with
    dep := bitsAt h 8 8, started := old.start && bitsAt h 16 1 == 0, lifeOpen := bitsAt h 17 1 == 1, key := (ws.getD 1 0).toNat
    line := (ws.getD 2 0).toNat, bufs := (List.range old.bufs.length).map buf }

/-! ## Islands -/

/-- A command over the saved one of its place. -/
def readCmd (k : IslCmd) (w : List Word) : IslCmd :=
  let h := w.headD 0
  { k with
    op := bitsAt h 4 8
    f := { k.f with iport := BitVec.ofNat 4 (bitsAt h 0 4), rcp := BitVec.ofNat 10 (bitsAt h 12 10), aux11 := BitVec.ofNat 11 (bitsAt h 22 11) }
    a := w.getD 1 0, b := w.getD 2 0, cc := w.getD 3 0
    c := { k.c with t0 := BitVec.ofNat 11 (bitsAt (w.getD 4 0) 0 11), t1 := BitVec.ofNat 11 (bitsAt (w.getD 4 0) 11 11) }
    tag := w.getD 5 0 }

/-- Give an island's ports their commands: of each, the pipeline its first one runs. -/
def putCmds (ports : AMap IslPort) (isl : Nat) (ks : List (IslCmd × Option Pipe)) : AMap IslPort :=
  (List.range 4).foldl (fun l p =>
    let mine := ks.filter fun k => k.1.f.iport.toNat == p
    AMap.upd l (4 * isl + p) fun q => { q with queue := mine.map (·.1), run := (mine.head?.bind (·.2)) }) ports

/-- Matrix commands keep what they run. -/
def readMatCmds : List (IslCmd × Option Pipe) → List (List Word) → List (IslCmd × Option Pipe)
  | k :: ks, w :: ws => (readCmd k.1 w, k.2) :: readMatCmds ks ws
  | _, _ => []

/-- Feed tiles: feed, tag, bytes; and the words after them. -/
def readFeeds : Nat → List Word → List (Nat × Nat × List Byte) × List Word
  | n + 1, k :: t :: ws =>
    let size := bitsAt k 16 16
    let len := (size + 7) / 8
    let r := readFeeds n (ws.drop len)
    ((bitsAt k 0 2, t.toNat, (bytesOfWords (ws.take len)).take size) :: r.1, r.2)
  | _, ws => ([], ws)

/-- The words of a tile, those that are zero left out. -/
def readTile (ws : List Word) : AMap (BitVec 32) :=
  ((List.range 16384).map fun i => (i, BitVec.ofNat 32 (bitsAt (ws.getD (i / 2) 0) (32 * (i % 2)) 32))).filter fun e => e.2 != 0

/-- MATRIX. -/
def readMatrix (ctx : Nat) (old : Bay) (ws : List Word) : Bay :=
  let h := ws.headD 0
  let nos := (List.range 4).filter fun i => h.getLsbD i
  let tiles := records 8192 nos.length ws.tail
  let feeds := readFeeds (bitsAt h 4 8) (ws.tail.drop (8192 * nos.length))
  let cmds := records 6 (bitsAt h 12 8) feeds.2
  { old with
    acc := (nos.zip tiles).map fun e => (e.1, ⟨readTile e.2, ((AMap.get? old.acc e.1).map (·.poi)).getD []⟩)
    feeds := ([0, 1, 2, 3].map fun f => (f, (feeds.1.filter fun e => e.1 == f).map fun e => (⟨ctx, e.2.1, e.2.2, false⟩ : FeedTile))).filter
      fun f => f.2 != []
    ports := putCmds old.ports 0 (readMatCmds (islandCmds old 0) cmds) }

/-- The commands of a streamer over the saved ones. -/
def readPipes : List (IslCmd × Option Pipe) → List Word → List (IslCmd × Option Pipe)
  | [], _ => []
  | k :: ks, ws =>
    if ws.length < 8 then []
    else
      let index := (k.2.bind (·.index)).getD []
      let run := k.2.map fun x =>
        { x with arrived := (ws.getD 6 0).toNat, notices := (ws.getD 7 0).toNat
                 index := x.index.map fun l => (List.range l.length).map fun i => ((ws.getD (8 + i) 0).toNat, (l.getD i (0, false)).2) }
      (readCmd k.1 ws, run) :: readPipes ks (ws.drop (8 + index.length))

/-! ## The other parts -/

/-- Granules: number, bytes, presence bits. -/
def readGrans (old : List Granule) : Nat → List Word → List Granule
  | n + 1, k :: ws =>
    let num := bitsAt k 0 9
    let once := bitsAt k 9 1 == 1
    let bs := bytesOfWords (ws.take 8192)
    let bits := if once then (ws.drop 8192).take 32 else []
    { num := num, once := once
      data := (((List.range 0x10000).zip bs).filter fun e => e.2 != 0)
      pres := ((List.range 2048).filter fun j => (bits.getD (j / 64) 0).getLsbD (j % 64)).map fun j => 2048 * num + j
      poi := ((old.find? fun g => g.num == num).map (·.poi)).getD [] } ::
      readGrans old n (ws.drop (if once then 8224 else 8192))
  | _, _ => []

/-- A reader of which nothing is saved: an ldo that queued at a node of a position's bay. -/
def blankReader (b pos node ctx : Nat) : Reader :=
  ⟨node, ctx, 0, mkPacket 1 b b ctx (mreqBody 3 0 0 1 0 (Config.loftByPos + pos * Config.sliceStep) 0 0 0) [] false, none⟩

/-- A reader over the saved one of its place; its requester is named by the bay that held the position at the save. -/
def readReader (oldMap : List Nat) (r : Reader) (w : List Word) : Reader :=
  let k := w.getD 1 0
  let h := flitPut (flitPut (flitPut (flitPut r.req.hdr 227 8 (oldMap.getD (bitsAt k 0 7) 0)) 200 4 (bitsAt k 7 4)) 188 12 (bitsAt k 11 12))
    204 8 (bitsAt k 23 8 - 1)
  let off := (w.headD 0).toNat + r.off % 32
  let pa := r.req.body 136 52
  { r with off := off, va := r.va.map fun a => a - r.off + off, req := { r.req with hdr := flitPut h 136 52 (pa - pa % Config.sliceStep + off) } }

/-- What a break holds, as the entries of its frame row that were read give it (R391). -/
def readHeldToks (el : Nat) (e : Element) (c : CtxRt) : CtxRt :=
  let got (gate ix slot port : Nat) : Option Token :=
    (e.rows.find? fun r => r.gate == gate && r.ix == ix).bind fun r =>
      (r.ents.find? fun w => w.slot == slot && w.port == port).map (·.tok)
  { c with
    heldTok := c.heldTok.bind fun t =>
      if t.msg.el = el then (got t.msg.gate t.msg.ix t.msg.slot t.msg.port).map fun k => { t with msg := { t.msg with tok := k } }
      else some t
    heldSet := c.heldSet.map fun h =>
      if h.1.el = el then
        let opnd (p : Nat) (o : Option Token) : Option Token := o.bind fun _ => got h.1.gate h.1.ix h.1.slot p
        ({ h.1 with a := opnd 0 h.1.a, b := opnd 1 h.1.b, c := opnd 2 h.1.c, p := opnd 3 h.1.p }, h.2)
      else h }

/-- ELEM, with the entries of a break given back to it. -/
def readElemPart (ctx el : Nat) (y : Bay) (ws : List Word) : Bay :=
  let hs := ((AMap.get? y.ctxs ctx).map (·.heldEnts)).getD []
  let e := readElem ctx el ((AMap.getD y.elems el Element.reset).withHeld hs el) ws
  { y with elems := AMap.set y.elems el (e.withoutHeld hs el), ctxs := AMap.upd y.ctxs ctx (readHeldToks el e) }

/-- A part's words given to what was saved of a position (R367). -/
def readImgPart (ctx : Nat) (oldMap : List Nat) (i : BayImage) (p : RawPart) : BayImage :=
  let ws := p.2.2
  let sub := p.2.1
  let y := i.bay
  let base := ((AMap.get? y.ctxs ctx).map (·.siteBase)).getD 0
  match p.1 with
  | 1 => { i with bay := readElemPart ctx sub y ws }
  | 2 => { i with bay := { y with gates := AMap.set y.gates sub (readGate ctx sub (AMap.getD y.gates sub Gate.reset) ws) } }
  | 3 => { i with bay := { y with wave := readWave base y.wave ws } }
  | 4 => { i with bay := { y with keep := AMap.set y.keep sub (((List.range 64).zip ws).filter fun e => e.2 != 0) } }
  | 5 => { i with bay := { y with sites := AMap.upd y.sites (base + sub) fun x => readSite x ws } }
  | 6 => { i with bay := readMatrix ctx y ws }
  | 7 => { i with bay := { y with ports := putCmds y.ports (sub + 1) (readPipes (islandCmds y (sub + 1)) ws) } }
  | 8 => { i with bay := { y with ctxs := AMap.upd y.ctxs ctx fun c =>
      { c with rngCur := ws.getD 0 0, rngHi := ws.getD 1 0, rngChunk := (ws.getD 2 0).toNat
               user := ((List.range 8).map fun k => (k, ws.getD (3 + k) 0)).filter fun e => e.2 != 0 } } }
  | 9 => { i with bay := { y with ctxs := AMap.upd y.ctxs ctx fun c =>
      let toks := readOver ⟨sub, blankEnt ctx 0 (some sub)⟩ (fun t e => { t with msg := readEnt t.msg e })
        (c.recorded.filter fun t => t.src == sub) (readEnts (ws.headD 0).toNat ws.tail).1
      { c with recorded := (c.recorded.filter fun t => t.src != sub) ++ toks } } }
  | 10 => { i with granules := readGrans i.granules (ws.length / 8192) ws }
  | 11 =>
    let pos := ((AMap.get? y.ctxs ctx).map (·.position)).getD 0
    let blank := blankReader (oldMap.getD pos 0) pos sub ctx
    let mine := readOver blank (readReader oldMap) (i.readers.filter fun r => r.node == sub) (records 2 (ws.length / 2) ws)
    { i with readers := (i.readers.filter fun r => r.node != sub) ++ mine }
  | _ => i

/-- A position as its block gives it: a part that stands as it was saved changes nothing, one that is gone is fresh. -/
def readBay (ctx : Nat) (oldMap : List Nat) (posOf : Nat → Nat) (i : BayImage) (ps : List RawPart) : BayImage :=
  let saved := positionParts ctx posOf i
  let gone := (saved.filter fun p => !ps.any fun q => q.1 == p.1 && q.2.1 == p.2.1).map fun p => (p.1, p.2.1, ([] : List Word))
  (gone ++ ps.filter fun p => !saved.contains p).foldl (readImgPart ctx oldMap) i

/-- The scope policy that an image's header records (R365, R368). -/
def imageScope (s : State) (n : Nat) (i : Image) : Nat := imageField (imageNow s n i) 32 1 % 16

/-- An image as its bytes in memory give it (R368). -/
def readImage (s : State) (n : Nat) (l : Launch) (i : Image) (oldMap : List Nat) (posOf : Nat → Nat) : Image :=
  let bs := imageNow s n i
  { i with bays := i.bays.map fun e =>
      match readBlock bs i.len (l.rows * l.cols) e.1 with
      | .ok ps => (e.1, readBay l.ctx oldMap posOf e.2 ps)
      | .error _ => e }

end Sys2Proof.Machine
end

