-- ==== Sys2Proof/Machine/Objects.lean ====
section
/-!
DEFINITION. Sys2Proof/Machine/Objects.lean: objects as bytes (R275 to R288): header, section table, records, relocation,
and what a checked object installs. A check that fails names the section type and the record (R323 LDERR).
-/
namespace Sys2Proof.Machine

open Sys2Proof

/-! ## Bytes -/

/-- A little-endian field of a record (R275). -/
def fieldOf (l : List Byte) (o n : Nat) : Nat := leNat ((l.drop o).take n)

/-- Are these bytes zero? -/
def zeroAt (l : List Byte) (o n : Nat) : Bool := ((l.drop o).take n).all (· == 0)

/-- Bytes replaced. -/
def patchAt (l : List Byte) (o : Nat) (v : List Byte) : List Byte := l.take o ++ v ++ l.drop (o + v.length)

/-- Words at an offset. -/
def wordsAt (l : List Byte) (o n : Nat) : List Word := (List.range n).map fun i => word (fieldOf l (o + 8 * i) 8)

/-- Where an object fails: section type, record index. -/
abbrev Bad := Option (Nat × Nat)

/-- A condition on a record. -/
def need (c : Bool) (st ix : Nat) : Bad := if c then none else some (st, ix)

/-- The first failure of a list. -/
def firstBad (l : List Bad) : Bad := l.findSome? id

/-- The first record that does not pass. -/
def eachRec {α : Type} (st : Nat) (ok : Nat → α → Bool) (l : List α) : Bad :=
  (List.range l.length).findSome? fun i => match l[i]? with
    | none => none
    | some x => need (ok i x) st i

/-- Are the elements of a list distinct? -/
def distinct {α : Type} [BEq α] : List α → Bool
  | [] => true
  | x :: l => !l.contains x && distinct l

/-! ## The file (R275 to R277) -/

/-- A section. -/
structure Sect where
  stype : Nat
  off   : Nat
  size  : Nat
  count : Nat
  deriving DecidableEq, Repr

/-- A file with its section table. -/
structure ObjFile where
  bytes : List Byte
  sects : List Sect
  deriving DecidableEq, Repr

def ObjFile.nbv (f : ObjFile) : Nat := fieldOf f.bytes 8 1
def ObjFile.dirs (f : ObjFile) : Nat := fieldOf f.bytes 9 1
def ObjFile.rows (f : ObjFile) : Nat := fieldOf f.bytes 10 1
def ObjFile.cols (f : ObjFile) : Nat := fieldOf f.bytes 11 1
def ObjFile.strCnt (f : ObjFile) : Nat := fieldOf f.bytes 12 1
def ObjFile.flags (f : ObjFile) : Nat := fieldOf f.bytes 13 1
def ObjFile.nsect (f : ObjFile) : Nat := fieldOf f.bytes 14 2
def ObjFile.sectab (f : ObjFile) : Nat := fieldOf f.bytes 16 4
def ObjFile.npos (f : ObjFile) : Nat := f.rows * f.cols

/-- A file from its bytes. -/
def ObjFile.of (l : List Byte) : ObjFile :=
  let t := fieldOf l 16 4
  { bytes := l
    sects := (List.range (fieldOf l 14 2)).map fun i =>
      let o := t + 16 * i
      ⟨fieldOf l o 1, fieldOf l (o + 4) 4, fieldOf l (o + 8) 4, fieldOf l (o + 12) 4⟩ }

/-- A section of a type. -/
def ObjFile.sect? (f : ObjFile) (t : Nat) : Option Sect := f.sects.find? fun s => s.stype == t

/-- The bytes of a section. -/
def ObjFile.body (f : ObjFile) (t : Nat) : List Byte :=
  match f.sect? t with
  | none => []
  | some s => (f.bytes.drop s.off).take s.size

/-- Record size of a section (R277); 0 for a variable one. -/
def recSize : Nat → Nat
  | 1 => 8 | 2 => 64 | 3 => 16 | 4 => 16 | 5 => 40 | 6 => 40 | 7 => 40 | 8 => 8 | 10 => 16 | 11 => 16 | _ => 0

/-- The records of a section of fixed size. -/
def ObjFile.recs (f : ObjFile) (t : Nat) : List (List Byte) :=
  let b := f.body t
  let n := recSize t
  (List.range (((f.sect? t).map (·.count)).getD 0)).map fun i => (b.drop (n * i)).take n

/-- The header's own checks (R275, R276). An object reaches the loader as ARCH 2 (R305). -/
def headerBad (l : List Byte) : Bad :=
  let f := ObjFile.of l
  need (64 ≤ l.length && fieldOf l 0 4 == 0x1A4F5649 && fieldOf l 4 2 == 1 && fieldOf l 6 2 == 2 &&
    (f.nbv == 1 || f.nbv == 2) && f.dirs < 16 && f.dirs % 4 != 3 && f.dirs / 4 != 3 &&
    1 ≤ f.rows && f.rows ≤ 20 && 1 ≤ f.cols && f.cols ≤ 8 && f.npos ≤ 128 && 1 ≤ f.strCnt && f.strCnt ≤ 64 &&
    f.flags < 4 && 1 ≤ f.nsect && f.nsect ≤ 13 && f.sectab % 8 == 0 && fieldOf l 20 4 == l.length && l.length % 8 == 0 &&
    fieldOf l 24 4 == 0 && zeroAt l 28 36 && 64 ≤ f.sectab && f.sectab + 16 * f.nsect ≤ l.length) 0 0

/-- The places a file's parts take: header, table, sections. -/
def ObjFile.parts (f : ObjFile) : List (Nat × Nat) :=
  (0, 64) :: (f.sectab, 16 * f.nsect) :: f.sects.map fun s => (s.off, s.size)

/-- Do two places overlap? -/
def placesMeet (a b : Nat × Nat) : Bool := a.1 < b.1 + b.2 && b.1 < a.1 + a.2

/-- No two of these places overlap. -/
def apart : List (Nat × Nat) → Bool
  | [] => true
  | a :: l => !l.any (placesMeet a) && apart l

/-- The section table's checks (R276, R277). -/
def tableBad (f : ObjFile) : Bad :=
  let entry (i : Nat) (s : Sect) : Bool :=
    zeroAt f.bytes (f.sectab + 16 * i + 1) 3 && 1 ≤ s.stype && s.stype ≤ 13 && s.off % 8 == 0 &&
    s.off + s.size ≤ f.bytes.length && (recSize s.stype == 0 || s.size == s.count * recSize s.stype) &&
    ((s.stype != 12 && s.stype != 13) || s.count == 0) &&
    (match i with
      | 0 => true
      | j + 1 => match f.sects[j]? with | some q => q.stype < s.stype | none => false)
  let covered (o : Nat) : Bool := f.parts.any fun p => p.1 ≤ o && o < p.1 + p.2
  firstBad [
    (List.range f.sects.length).findSome? fun i => match f.sects[i]? with
      | none => none
      | some s => need (entry i s) s.stype 0,
    need ([1, 2, 3, 10, 13].all fun t => (f.sect? t).isSome) 0 0,
    need (f.flags.testBit 1 == (f.sect? 12).isSome) 0x0C 0,
    need (apart f.parts) 0 0,
    need ((List.range f.bytes.length).all fun o => covered o || f.bytes.getD o 0 == 0) 0 0,
    need (f.flags.testBit 0) 0 0]

/-! ## DATA (R285) -/

/-- An image: offset of its record in the file, place in memory, kind, length. -/
structure DataRec where
  off   : Nat
  vaddr : Nat
  kind  : Nat
  len   : Nat
  deriving DecidableEq, Repr

/-- The DATA records, one after another. -/
def dataRecs (l : List Byte) : Nat → Nat → List DataRec
  | 0, _ => []
  | n + 1, o =>
    let len := fieldOf l (o + 8) 4
    ⟨o, fieldOf l o 8, fieldOf l (o + 12) 1, len⟩ :: dataRecs l n (o + 16 + (len + 7) / 8 * 8)

def ObjFile.datas (f : ObjFile) : List DataRec :=
  match f.sect? 9 with
  | none => []
  | some s => dataRecs f.bytes s.count s.off

/-- The checks of DATA but for where its images lie. -/
def dataBad (f : ObjFile) : Bad :=
  match f.sect? 9 with
  | none => none
  | some s =>
    let ds := f.datas
    let stop (d : DataRec) : Nat := d.off + 16 + (d.len + 7) / 8 * 8
    firstBad [
      eachRec 9 (fun _ d => d.kind < 2 && 1 ≤ d.len && zeroAt f.bytes (d.off + 13) 3 && stop d ≤ s.off + s.size &&
        zeroAt f.bytes (d.off + 16 + d.len) ((8 - d.len % 8) % 8)) ds,
      need (((ds.getLast?).map stop).getD s.off == s.off + s.size) 9 0]

/-- Where the images lie, once they are relocated: in the address space, and none over an earlier one (R285, R287). -/
def spreadBad (f : ObjFile) : Bad :=
  eachRec 9 (fun i d => d.vaddr + d.len ≤ 2 ^ 56 && (f.datas.take i).all fun e => !placesMeet (e.vaddr, e.len) (d.vaddr, d.len)) f.datas

/-! ## Relocation (R287, R289) -/

/-- A BWIN relocation names one of the fields it may complete; any other relocation must be gone. A DATA relocation at
offset 0 names the record's address, any other the image (log 21). -/
def relocOk (f : ObjFile) (r : List Byte) : Bool :=
  let sect := fieldOf r 1 1
  let foff := fieldOf r 2 2
  let rix := fieldOf r 4 4
  let count := ((f.sect? sect).map (·.count)).getD 0
  fieldOf r 0 1 == 4 && fieldOf r 8 4 == 0xFFFFFFFF && rix < count &&
  ((sect == 5 && foff == 0) || (sect == 7 && foff == 8) ||
    (sect == 9 && (foff == 0 || (match f.datas[rix]? with | some d => foff + 8 ≤ d.len | none => false))))

/-- Complete one field: the file's bytes after, and whether the field stays in range. -/
def reloc (win : Nat) (f : ObjFile) (r : List Byte) : ObjFile × Bool :=
  let sect := fieldOf r 1 1
  let foff := fieldOf r 2 2
  let rix := fieldOf r 4 4
  let put (o v : Nat) : ObjFile := ObjFile.of (patchAt f.bytes o (leBytes 8 v))
  let base := ((f.sect? sect).map (·.off)).getD 0
  if sect = 5 then
    let o := base + 40 * rix
    let q := fieldOf f.bytes o 8
    let a := q / 2 ^ 14 * 64 + win
    (put o (a / 64 % 2 ^ 50 * 2 ^ 14 + q % 2 ^ 14), a < 2 ^ 56)
  else if sect = 7 then
    let o := base + 40 * rix + 8
    let q := fieldOf f.bytes o 8
    let a := q / 2 ^ 24 * 2 ^ 16 + win
    (put o (a / 2 ^ 16 % 2 ^ 40 * 2 ^ 24 + q % 2 ^ 24), a < 2 ^ 56)
  else
    let d := f.datas.getD rix ⟨0, 0, 0, 0⟩
    let o := if foff = 0 then d.off else d.off + 16 + foff
    let a := fieldOf f.bytes o 8 + win
    (put o a, a < (if foff = 0 then 2 ^ 56 else 2 ^ 64))

/-- The file with every relocation done, or the first that fails. -/
def relocate (win : Nat) (f : ObjFile) : Except (Nat × Nat) ObjFile :=
  let rs := f.recs 11
  (List.range rs.length).foldl (fun (a : Except (Nat × Nat) ObjFile) i =>
    match a with
    | .error e => .error e
    | .ok f =>
      let r := rs.getD i []
      if !relocOk f r then .error (11, i)
      else
        let q := reloc win f r
        if q.2 then .ok q.1 else .error (11, i)) (.ok f)

/-! ## Names and symbols (R92, R284, R286) -/

def isLetter (b : Byte) : Bool := (0x41 ≤ b.toNat && b.toNat ≤ 0x5A) || (0x61 ≤ b.toNat && b.toNat ≤ 0x7A)
def isDigit (b : Byte) : Bool := 0x30 ≤ b.toNat && b.toNat ≤ 0x39

/-- Is this name one of R92: a letter, then letters, digits, underscores; not r followed by digits? -/
def nameOk (l : List Byte) : Bool :=
  match l with
  | [] => false
  | c :: t =>
    isLetter c && t.all (fun b => isLetter b || isDigit b || b == 0x5F) &&
    !((c == 0x72 || c == 0x52) && !t.isEmpty && t.all isDigit)

/-- The name at an offset of STRTAB, which its zero byte ends. -/
def nameAt (f : ObjFile) (o : Nat) : Option (List Byte) :=
  let t := (f.body 13).drop o
  let n := t.takeWhile (· != 0)
  if n.length < t.length then some n else none

/-- Is STRTAB one name after another, each ended by its zero byte (R284)? -/
def strtabOk : Nat → List Byte → Bool
  | _, [] => true
  | 0, _ => false
  | n + 1, l =>
    let name := l.takeWhile (· != 0)
    name.length < l.length && nameOk name && strtabOk n (l.drop (name.length + 1))

/-- A symbol record (R286, R289): the target of a SLOT names port A of a slot. -/
def symOk (f : ObjFile) (i : Nat) (r : List Byte) : Bool :=
  let kind := fieldOf r 4 1
  let flags := fieldOf r 5 1
  let pos := fieldOf r 6 1
  let v := fieldOf r 8 8
  (nameAt f (fieldOf r 0 4)).any nameOk && kind < 4 && (kind == 0) == (i == 0) && flags < 2 && fieldOf r 7 1 == 0 &&
  (if kind = 1 ∨ kind = 2 then pos < f.npos else pos == 0) &&
  (match kind with
    | 0 => v == 0
    | 1 => v < 2 ^ 19 && v / 2 ^ 15 % 2 == 0
    | 2 => v < 2 ^ 32 && v % 128 == 0 && v / 2 ^ 16 < (f.recs 2).length
    | _ => true)

/-- STRTAB and SYM. -/
def symBad (f : ObjFile) : Bad :=
  firstBad [need (strtabOk (f.body 13).length (f.body 13)) 13 0, need (1 ≤ (f.recs 10).length) 10 0, eachRec 10 (symOk f) (f.recs 10)]

/-! ## Records of the configuration (R278 to R283) -/

/-- A hitch: PLACE and HITCH record. -/
structure HitchR where
  pos   : Nat
  gate  : Nat
  hnum  : Nat
  first : Nat
  nslot : Nat
  words : List Word
  deriving DecidableEq, Repr

/-- A SLOT or ROUTE record: hitch, slot or route word number, span element, word. -/
structure SlotR where
  hix  : Nat
  no   : Nat
  se   : Nat
  word : Word
  deriving DecidableEq, Repr

/-- A configuration as its records give it. -/
structure Raw where
  nbv     : Nat
  dirs    : Nat
  rows    : Nat
  cols    : Nat
  strCnt  : Nat
  hitches : List HitchR
  slots   : List SlotR
  routes  : List SlotR
  sites   : List ObjSite
  recipes : List (Nat × List Word)
  groups  : List (Nat × List Word)
  seeds   : List SeedEnt
  deriving DecidableEq, Repr

def Raw.npos (r : Raw) : Nat := r.rows * r.cols

def slotRec (l : List Byte) : SlotR := ⟨fieldOf l 10 2, fieldOf l 9 1, fieldOf l 8 1, word (fieldOf l 0 8)⟩

/-- The records of a file. -/
def ObjFile.raw (f : ObjFile) : Raw :=
  let ps := f.recs 1
  let hs := f.recs 2
  { nbv := f.nbv, dirs := f.dirs, rows := f.rows, cols := f.cols, strCnt := f.strCnt
    hitches := (List.range ps.length).map fun i =>
      let p := ps.getD i []
      ⟨fieldOf p 0 1, fieldOf p 1 1, fieldOf p 2 1, fieldOf p 4 2, fieldOf p 6 2, wordsAt (hs.getD i []) 0 8⟩
    slots := (f.recs 3).map slotRec
    routes := (f.recs 4).map slotRec
    sites := (f.recs 5).map fun r => ⟨fieldOf r 33 1, fieldOf r 32 1, wordsAt r 0 4⟩
    recipes := (f.recs 6).map fun r => (fieldOf r 32 2, wordsAt r 0 4)
    groups := (f.recs 7).map fun r => (fieldOf r 32 2, wordsAt r 0 4)
    seeds := (f.recs 8).map fun r => ⟨fieldOf r 2 1, fieldOf r 3 1, fieldOf r 4 1, fieldOf r 5 1⟩ }

/-- The zero fields of the records (R276, R278, R279, R281 to R283). -/
def zeroBad (f : ObjFile) : Bad :=
  firstBad [
    need ((f.recs 1).length == (f.recs 2).length) 2 0,
    eachRec 1 (fun _ r => fieldOf r 3 1 == 0) (f.recs 1),
    eachRec 3 (fun _ r => zeroAt r 12 4) (f.recs 3),
    eachRec 4 (fun _ r => zeroAt r 12 4) (f.recs 4),
    eachRec 5 (fun _ r => zeroAt r 34 6) (f.recs 5),
    eachRec 6 (fun _ r => zeroAt r 34 6) (f.recs 6),
    eachRec 7 (fun _ r => zeroAt r 34 6) (f.recs 7),
    eachRec 8 (fun i r => zeroAt r 6 2 && fieldOf r 0 2 == i) (f.recs 8),
    need ((f.recs 8).length ≤ 4096) 8 4096]

end Sys2Proof.Machine
end

