-- ==== Sys2Proof/Machine/RangeEvents.lean ====
section
/-!
DEFINITION. Sys2Proof/Machine/RangeEvents.lean: WORK packets at their bay: STEAL, GRANT (R265, R266), PROBE_REQUEST, PREPLY
(R274).
-/
namespace Sys2Proof.Machine

open Sys2Proof

/-- STEAL (R266): the victim gives away the upper half; a range of fewer than two elements stays. -/
def execSteal (b : Nat) (p : Packet) (s : State) : Res :=
  .next (match s.ctx? b p.ctx with
  | none => s.emit (workPacket 1 p.src b p.ctx 0 0 0)
  | some c =>
    let n := c.rngLeft
    if n < 2 then s.emit (workPacket 1 p.src b p.ctx 0 0 0)
    else
      let m := c.rngCur + word ((n + 1) / 2)
      (s.modCtx b p.ctx fun c => { c with rngHi := m }).emit (workPacket 1 p.src b p.ctx 0 m c.rngHi))

/-- Does a waiting rngsteal wait for this GRANT: it asked the bay that gives it? -/
def grantFor (p : Packet) (e : MSet × Common × Nat) : Bool := e.1.ctx == p.ctx && e.2.2 == p.src

/-- GRANT (R266): it replaces the thief's range, and the rngsteal that asked this victim delivers the count, as n32 (R48, R263). -/
def execGrant (b : Nat) (p : Packet) (s : State) : Res :=
  .next (
    let lo := word (p.body 64 64)
    let hi := word (p.body 0 64)
    let s := s.modCtx b p.ctx fun c => { c with rngCur := lo, rngHi := hi }
    match placeOf (grantFor p) (s.bay b).steals 0 with
    | none => s
    | some i =>
      match (s.bay b).steals[i]? with
      | none => s
      | some e =>
        deliver2 e.2.1 (.sc (word ((hi - lo).toNat % 2 ^ 32))) (.ct 1) b e.1 (s.modBay b fun y => { y with steals := dropAt y.steals i }))

/-- PROBE_REQUEST (R274): the register is read in one step. -/
def execProbeRequest (b : Nat) (p : Packet) (s : State) : Res :=
  .next (
    let v := match s.ctx? b p.ctx with
      | none => 0
      | some c => bayReg s b p.ctx c (p.body 208 12)
    s.emit (workPacket 3 p.src b p.ctx (p.body 208 12) v 0))

/-- Does a waiting probe ask for this reply? -/
def probeFor (s : State) (b : Nat) (p : Packet) (e : MSet × Common × Nat) : Bool :=
  e.1.ctx == p.ctx && e.2.2 == p.body 208 12 &&
    ((s.ctx? b p.ctx).bind fun c => c.bayAt ((portWord e.1.a).toNat % 2 ^ 32)) == some p.src

/-- PREPLY (R274). -/
def execPreply (b : Nat) (p : Packet) (s : State) : Res :=
  .next (match placeOf (probeFor s b p) (s.bay b).probes 0 with
  | none => s
  | some i =>
    match (s.bay b).probes[i]? with
    | none => s
    | some e => deliver e.2.1 (.sc (word (p.body 64 64))) b e.1 (s.modBay b fun y => { y with probes := dropAt y.probes i }))

end Sys2Proof.Machine
end

