-- ==== Sys2Proof/Machine/LoadCheck.lean ====
section
/-!
DEFINITION. Sys2Proof/Machine/LoadCheck.lean: what the loader checks of hitches, slots and route words: headers (R13, R18,
R86, R87, R278, R279, R281), instructions in their hitch (R33, R81, R83, R117, R119, R124, R184), targets and producers (R76,
R89), frame descriptors (R26, R88).
-/
namespace Sys2Proof.Machine

open Sys2Proof

/-! ## A hitch with its slots read -/

/-- A slot of a hitch: span element, slot relative to the context's base, word and what it encodes. -/
structure SlotI where
  se   : Nat
  no   : Nat
  word : Word
  i    : Instr
  p    : Parts
  deriving DecidableEq, Repr

/-- A hitch of an object: its first slot record, place, header, slots, route words. -/
structure HInfo where
  first  : Nat
  pos    : Nat
  gate   : Nat
  hnum   : Nat
  hdr    : HitchCfg
  slots  : List SlotI
  routes : List (Nat × Nat × Word)
  deriving DecidableEq, Repr

/-- The slots a list of records encodes; words that encode none are left out (they are rejected by `slotBad`). -/
def readSlots (l : List (Nat × Nat × Word)) : List SlotI :=
  l.filterMap fun e => match decodeWord e.2.2 with
    | .ok i => i.parts.map fun p => ⟨e.1, e.2.1, e.2.2, i, p⟩
    | .error _ => none

/-- A hitch of an object, read. -/
def ObjHitch.info (o : ObjHitch) (first : Nat) : HInfo := ⟨first, o.pos, o.gate, o.hnum, o.cfg, readSlots o.slots, o.routes⟩

/-- Hitch i of the records as the object keeps it. -/
def Raw.objHitch (r : Raw) (i : Nat) (h : HitchR) : ObjHitch :=
  { pos := h.pos, gate := h.gate, hnum := h.hnum, words := h.words
    slots := ((r.slots.drop h.first).take h.nslot).map fun x => (x.se, x.no, x.word)
    routes := (r.routes.filter fun x => x.hix == i).map fun x => (x.se, x.no, x.word) }

def Raw.objHitches (r : Raw) : List ObjHitch := r.hitches.zipIdx.map fun e => r.objHitch e.2 e.1

def Raw.infos (r : Raw) : List HInfo := r.hitches.zipIdx.map fun e => (r.objHitch e.2 e.1).info e.1.first

/-- A hitch by its place. -/
def findHitch (hs : List HInfo) (pos g h : Nat) : Option HInfo := hs.find? fun x => x.pos == pos && x.gate == g && x.hnum == h

/-! ## Headers (R13, R86, R87, R278) -/

/-- The checks of one header. -/
def headerOkW (h : HitchCfg) (nslot : Nat) : Bool :=
  let d := h.depth
  h.words.length == 8 && h.mode < 3 && h.dmin ≤ h.dmax &&
  h.widths.foldl (· + ·) 0 ≤ 58 && ((List.range 7).all fun i => i < d || bitsZero (h.w 0) (31 - 5 * i) 5) &&
  bitsZero (h.w 0) 0 1 && bitsZero (h.w 1) 0 8 && bitsZero (h.w 3) 44 20 && bitsZero (h.w 4) 44 20 &&
  bitsZero (h.w 5) 56 8 && bitsZero (h.w 6) 56 8 && bitsZero (h.w 7) 8 56 &&
  distinct h.span && ((List.range 16).all fun j => j < h.spanLen || h.spanEl j == 0) &&
  ((List.range 8).all fun i =>
    if i < h.entries then h.entNet i < 3 && h.entTarget i != noTarget
    else h.entNet i == 0 && h.entTarget i == noTarget) &&
  !h.exitMask.isEmpty && nslot == bits (h.w 7) 0 8 && 1 ≤ nslot && nslot ≤ 128

/-- Places and headers (R278). -/
def hitchBad (r : Raw) : Bad :=
  let hs := r.infos
  firstBad [
    need (1 ≤ r.hitches.length) 1 0,
    eachRec 1 (fun i (h : HitchR) =>
      h.pos < r.npos && h.gate < 8 && h.hnum < 32 && h.first + h.nslot ≤ r.slots.length &&
      (((r.slots.drop h.first).take h.nslot).all fun x => x.hix == i) &&
      !((r.hitches.take i).any fun g => g.pos == h.pos && g.gate == h.gate && g.hnum == h.hnum)) r.hitches,
    eachRec 2 (fun i (h : HitchR) => match hs[i]? with
      | some x => headerOkW x.hdr h.nslot
      | none => false) r.hitches]

/-! ## Slot and route records (R76, R78, R279, R281) -/

/-- The bay element of a record, by the span of its hitch. -/
def Raw.elOf (r : Raw) (x : SlotR) : Option (Nat × Nat × Nat) :=
  (r.hitches[x.hix]?).map fun h =>
    (h.pos, HitchCfg.spanEl (ObjHitch.cfg ⟨h.pos, h.gate, h.hnum, h.words, [], []⟩) x.se, x.no)

/-- Does a record lie in its hitch's span, and does no earlier one take its place on the bay element? Two hitches of one
position share neither a slot nor a route word of an element (R279; log 22). -/
def placeOk (r : Raw) (l : List SlotR) (lim i : Nat) (x : SlotR) : Bool :=
  x.no < lim &&
  (match r.hitches[x.hix]? with
    | none => false
    | some h => x.se < HitchCfg.spanLen (ObjHitch.cfg ⟨h.pos, h.gate, h.hnum, h.words, [], []⟩)) &&
  !((l.take i).any fun y => r.elOf y == r.elOf x)

/-- Slot records: each belongs to its hitch's run, and its word is one the loader accepts. Slot 31 of span element 15 is meant by the
number the object gives (R76; log 98). -/
def slotBad (r : Raw) : Bad :=
  eachRec 3 (fun i x =>
    placeOk r r.slots 32 i x &&
    ((r.hitches[x.hix]?).any fun h => h.first ≤ i && i < h.first + h.nslot) &&
    (match decodeWord x.word with
      | .error _ => false
      | .ok j => j.isSlot && !(x.se == 15 && x.no == 31 && j.common.any fun c => c.pm != .always))) r.slots

def routeBad (r : Raw) : Bad := eachRec 4 (fun i x => placeOk r r.routes 8 i x && bitsZero x.word 44 20) r.routes

/-! ## Ports (R17, R76, R123) -/

/-- The target hitch of an exit or call. -/
def exitTarget (hs : List HInfo) (p : Parts) : Option HInfo :=
  match p.b with
  | .x f => if p.op = 0x80 ∨ p.op = 0x81 then findHitch hs f.pos.toNat f.gate.toNat f.hnum.toNat else none
  | _ => none

/-- Entry ports of an exit or call (R123). -/
def entryPorts (hs : List HInfo) (p : Parts) : Nat :=
  match p.b, exitTarget hs p with
  | .x f, some t => Nat.min 3 (t.hdr.entries - f.entry.toNat)
  | _, _ => 0

/-- What a port takes: a vector, a scalar, or either. -/
inductive PortKind where
  | vec | sc | any
  deriving DecidableEq, Repr

def kindW (w : Bool) : PortKind := if w then .vec else .sc

/-- The kind of a port of an instruction other than exit and call; a trigger takes either. -/
def instrPort (i : Instr) (port : Nat) : PortKind :=
  match i with
  | .lbcast _ _ => .sc
  | .lins _ _ | .lrot _ _ => if port = 0 then .vec else .sc
  | .lq4 _ _ => if port = 2 then .sc else .vec
  | .const _ _ | .null _ _ | .ordj _ _ => .any
  | .steer c _ | .gate c _ => if port = 0 then kindW c.w else .sc
  | .sync c _ => if port = 0 then kindW c.w else .any
  | .count _ _ | .incf _ _ | .pushf _ _ | .popf _ _ | .setf _ _ | .getf _ _ => if port = 0 then .any else .sc
  | .ret _ _ => if port = 0 then .any else .sc
  | .discard _ _ | .kget _ _ => .any
  | .stv _ _ => if port = 0 then .sc else .vec
  | .stg c _ => if port = 0 then .sc else kindW c.w
  | .sflush _ _ | .sinv _ _ | .srel _ _ | .sdepth _ _ | .fence _ _ => .any
  | .ldv _ _ | .ldg _ _ => .sc
  | .aclr _ _ | .sstop _ _ | .rngnext _ _ | .rngsteal _ _ | .srd _ _ | .halt _ _ => .any
  | .swr c _ => if c.ty = .v then .any else .sc
  | .seed c _ => if port = 0 then kindW c.w else .sc
  | i => kindW ((i.common.map (·.w)).getD false)

/-- The kind of a port of a slot; `zs` says that its site is ZSKIP (R169, R170). -/
def portKind (hs : List HInfo) (zs : Bool) (x : SlotI) (port : Nat) : PortKind :=
  if port = 3 then .sc
  else
    match x.p.b, exitTarget hs x.p with
    | .x f, some t => kindW (t.hdr.entNet (f.entry.toNat + port) == 1)
    | _, _ => if zs && port == 0 then .any else instrPort x.i port

/-- Is the result at T0 or T1 a vector (R131)? -/
def vecResult (i : Instr) (t1 : Bool) : Bool :=
  match i with
  | .lext _ _ | .lred _ _ | .stv _ _ | .stg _ _ | .seed _ _ => false
  | .lcmpr _ _ | .lexpd _ _ | .lq4 _ _ => !t1
  | .ldv c _ | .ldg c _ => c.w && !t1
  | i => (i.common.map (·.w)).getD false

/-- The slot a target names in a hitch. -/
def slotFor (h : HInfo) (t : Target) : Option SlotI := h.slots.find? fun x => x.se == targetSe t && x.no == targetSlot t

/-- Is a target other than 0x7FF one R76 accepts, for a vector or a scalar? -/
def targetOk (hs : List HInfo) (h : HInfo) (zs : SlotI → Bool) (t : Target) (vec : Bool) : Bool :=
  targetSe t < h.hdr.spanLen &&
  (match slotFor h t with
    | none => false
    | some x =>
      (usedPorts (entryPorts hs x.p) x.i).contains (targetPort t) &&
      (match portKind hs (zs x) x (targetPort t) with
        | .any => true
        | .vec => vec
        | .sc => !vec))

/-- The four targets of a route word (R89). -/
def routeTargets (w : Word) : List Target := (List.range 4).map fun i => w.extractLsb' (11 * i) 11

/-- The route word a mov4 reads; one with no record has no target (R281). -/
def mov4Targets (h : HInfo) (x : SlotI) : List Target :=
  match x.i with
  | .mov4 _ f => match h.routes.find? fun e => e.1 == x.se && e.2.1 == f.aux7.toNat with
    | some e => (routeTargets e.2.2).filter (· != noTarget)
    | none => []
  | _ => []

/-- The targets of a slot, with the width of what is sent there. -/
def slotTargets (h : HInfo) (x : SlotI) : List (Target × Bool) :=
  [(x.p.c.t0, vecResult x.i false), (x.p.c.t1, vecResult x.i true)].filter (fun e => e.1 != noTarget) ++
  (mov4Targets h x).map fun t => (t, vecResult x.i false)

/-- The entry targets of a hitch. -/
def entryTargets (h : HInfo) : List (Target × Bool) :=
  (List.range h.hdr.entries).map fun i => (h.hdr.entTarget i, h.hdr.entNet i == 1)

/-- Every producer of a hitch: where it sends, and whether a vector. -/
def producers (h : HInfo) : List (Target × Bool) := entryTargets h ++ h.slots.flatMap (slotTargets h)

/-- Take away the slots that no remaining slot sends to; what is left after as many rounds as there are slots lies on or
behind a cycle (R18). -/
def peel (h : HInfo) : Nat → List SlotI → List SlotI
  | 0, l => l
  | n + 1, l =>
    peel h n (l.filter fun x => l.any fun y => (slotTargets h y).any fun t => targetSe t.1 == x.se && targetSlot t.1 == x.no)

/-- Targets, producers and the graph of one hitch: a bad slot, or the hitch itself. A mov4 whose recorded route word has no
target is rejected like one with no record (R281; log 85). -/
def graphBad (hs : List HInfo) (zs : HInfo → SlotI → Bool) (ix : Nat) (h : HInfo) : Bad :=
  firstBad [
    need ((entryTargets h).all fun t => targetOk hs h (zs h) t.1 t.2) 2 ix,
    (List.range h.slots.length).findSome? fun k => match h.slots[k]? with
      | none => none
      | some x => need ((slotTargets h x).all (fun t => targetOk hs h (zs h) t.1 t.2) &&
          (match x.i with | .mov4 _ _ => !(mov4Targets h x).isEmpty | _ => true)) 3 (h.first + k),
    need (distinct ((producers h).map (·.1))) 2 ix,
    need ((peel h h.slots.length h.slots).isEmpty) 2 ix]

/-! ## Instructions in their hitch -/

/-- Instructions that pin their instance (R33). -/
def pins (o : Nat) : Bool :=
  (0x96 ≤ o && o ≤ 0xA0) || (0xB0 ≤ o && o ≤ 0xBA) || (0xC8 ≤ o && o ≤ 0xCB) || o == 0xDB || o == 0x8D
def pinning (p : Parts) : Bool := pins p.op.toNat

/-- Tag instructions (R117), count and fold (R119), kput (R23) against the header of their hitch. -/
def tagOk (h : HitchCfg) (i : Instr) : Bool :=
  let ws := h.widths
  let d := ws.length
  match i with
  | .getf _ f | .incf _ f | .setf _ f => f.tagField < d
  | .pushf _ f => d < 7 && ws.foldl (· + ·) 0 + f.aux7.toNat % 32 + 1 ≤ 58
  | .popf _ _ => 1 ≤ d
  | .count _ _ | .fold _ _ => h.mode != 1 && 2 ≤ d
  | .kput _ _ => h.mode == 0
  | _ => true

/-- Does a layout lead to another by a tag operation (R13, R124)? -/
def joins (ws : List Nat) (top : TagOp) (i : Nat) (vs : List Nat) : Bool :=
  match top with
  | .same => vs == ws
  | .inc | .set => vs == ws && i < ws.length
  | .push => vs.length == ws.length + 1 && vs.take ws.length == ws
  | .pop => 1 ≤ ws.length && vs == ws.dropLast
  | .popinc => 2 ≤ ws.length && vs == ws.dropLast

/-- An exit or call against its hitch and the one it names (R13, R83, R124). SET is rejected at a vector entry only (log 98). -/
def linkFits (h t : HitchCfg) (f : FormX) : Bool :=
  f.entry.toNat < t.entries && joins h.widths f.top f.field.toNat t.widths && !(f.top == .set && t.entNet f.entry.toNat == 1)

/-- A ret against its hitch (R13, R127). -/
def retFits (h : HitchCfg) (f : FormX) : Bool := (if f.top = .popinc then 2 else 1) ≤ h.widths.length

/-- exit, call and ret. -/
def exitOk (hs : List HInfo) (npos : Nat) (h : HInfo) (x : SlotI) : Bool :=
  match x.i with
  | .exit _ f | .call _ f => f.pos.toNat < npos && (exitTarget hs x.p).any fun t => linkFits h.hdr t.hdr f
  | .ret _ f => retFits h.hdr f
  | _ => true

/-- The exit number of an exit or ret. -/
def exnOf (i : Instr) : Option Nat :=
  match i with
  | .exit _ f | .ret _ f => some f.exn.toNat
  | _ => none

/-- The keep register a kput names. -/
def putOf (i : Instr) : Option Nat :=
  match i with
  | .kput _ f => some (keepRegOf f)
  | _ => none

/-- The LSID of a memory instruction that bears one (R184). -/
def lsidOf (i : Instr) (p : Parts) : Option Nat :=
  match i, p.b with
  | .sdepth _ _, _ | .xlat _ _, _ => none
  | _, .m f => some f.lsid.toNat
  | _, _ => none

/-- Is a memory instruction a store-mask entry (R184)? `st` says that its site is a store site. -/
def inStoreMask (i : Instr) (st : Bool) : Bool :=
  match i with
  | .st _ _ | .stv _ _ | .sto _ _ | .sflush _ _ => true
  | .srel _ _ => st
  | .fence _ f => f.ord == .rel || f.ord == .ar
  | _ => false

/-- Is a list of numbers the places set in a mask, each once? -/
def fills (l mask : List Nat) : Bool := distinct l && l.all mask.contains && mask.all l.contains

/-- The masks of a hitch against its slots (R18, R33, R83, R87, R128, R184). -/
def masksOk (st : SlotI → Bool) (h : HInfo) : Bool :=
  let ls := h.slots.filterMap fun x => lsidOf x.i x.p
  let stores := h.slots.filterMap fun x => if inStoreMask x.i (st x) then lsidOf x.i x.p else none
  let puts := h.slots.filterMap fun x => putOf x.i
  distinct ls && fills stores h.hdr.storeMask && fills puts h.hdr.keepMask &&
  fills (h.slots.filterMap fun x => exnOf x.i) h.hdr.exitMask &&
  !(h.slots.any (fun x => x.p.op == 0x83) && h.slots.any fun x => pinning x.p)

/-- Instructions of every hitch, slot by slot, then the masks. -/
def instrBad (hs : List HInfo) (npos : Nat) (st : HInfo → SlotI → Bool) : Bad :=
  firstBad [
    hs.findSome? fun h => (List.range h.slots.length).findSome? fun k => match h.slots[k]? with
      | none => none
      | some x => need (tagOk h.hdr x.i && exitOk hs npos h x) 3 (h.first + k),
    eachRec 2 (fun _ h => masksOk (st h) h) hs]

/-! ## Frames (R26, R88) -/

/-- Does a vector come to a port: its instruction reads one there, or it takes either and a vector producer feeds it (log 84)? -/
def vecPort (hs : List HInfo) (zs : SlotI → Bool) (h : HInfo) (x : SlotI) (port : Nat) : Bool :=
  match portKind hs (zs x) x port with
  | .vec => true
  | .sc => false
  | .any => (producers h).any fun t => targetSe t.1 == x.se && targetSlot t.1 == x.no && targetPort t.1 == port && t.2

/-- F_e and P_e of a hitch on span element j. -/
def frameOf (hs : List HInfo) (zs : SlotI → Bool) (h : HInfo) (j : Nat) : Nat × Nat :=
  (h.slots.filter (·.se == j)).foldl (fun a x =>
    let ps := usedPorts (entryPorts hs x.p) x.i
    let nv := (ps.filter (vecPort hs zs h x)).length
    if ps.length < 2 then a else (a.1 + (ps.length - 1), a.2 + Nat.min nv (ps.length - 1))) (0, 0)

def framesOf (hs : List HInfo) (zs : SlotI → Bool) (h : HInfo) : List (Nat × Nat) :=
  (List.range h.hdr.spanLen).map (frameOf hs zs h)

end Sys2Proof.Machine
end

