-- ==== Sys2Proof/Machine/LoadTables.lean ====
section
/-!
DEFINITION. Sys2Proof/Machine/LoadTables.lean: what the loader checks of sites (R156, R162, R185, R249), recipes and island
commands (R238 to R256), group descriptors (R220), seed ports (R283), the hitch graph (R297) and the bay graph (R358).
-/
namespace Sys2Proof.Machine

open Sys2Proof

/-! ## Sites -/

/-- A site entry as a site. -/
def ObjSite.site (x : ObjSite) (ctx : Nat) (isStore fed : Bool) : Site :=
  Site.fresh
    { q0 := x.q.getD 0 0, q1 := x.q.getD 1 0, q2 := x.q.getD 2 0, q3 := x.q.getD 3 0, poison := false, ctx := ctx
      isStore := isStore, fed := fed, dep := 0, latCnt := 0, latSum := 0, means := [], bufs := [], seq := 0, lifeOpen := false, key := 0
      started := false, line := 0, lastIdx := none, zdone := 0, zpart := [], stopped := none, stopBack := none, waiters := [], srels := [] }

/-- The record that serves a site of a position (R282). -/
def siteRec (l : List ObjSite) (pos no : Nat) : Option ObjSite := l.find? fun x => x.no == no && (x.pos == 0xFF || x.pos == pos)

/-- The site a memory instruction names. -/
def namedSite (x : SlotI) : Option Nat :=
  match x.i, x.p.b with
  | .fence _ _, _ | .xlat _ _, _ | .ldg _ _, _ | .stg _ _, _ => none
  | _, .m f => some f.site.toNat
  | _, _ => none

def isStoreOp (i : Instr) : Bool := match i with | .st _ _ | .stv _ _ | .sto _ _ => true | _ => false

/-- Slots of a position that name a site. -/
def namers (hs : List HInfo) (pos no : Nat) : List (HInfo × SlotI) :=
  (hs.filter (·.pos == pos)).flatMap fun h => (h.slots.filter fun x => namedSite x == some no).map fun x => (h, x)

/-- Is a site of a position a store site (R156)? -/
def storeAt (hs : List HInfo) (pos no : Nat) : Bool := (namers hs pos no).any fun e => isStoreOp e.2.i

/-- The recipe of a slot. -/
def slotRecipe (rs : AMap (List Word)) (x : SlotI) : Option Recipe :=
  match x.p.b with
  | .i f => (AMap.get? rs f.rcp.toNat).map Recipe.of
  | _ => none

/-- The kind of recipe a command names (R84, R238): 0 for none. -/
def recipeKind (op : Nat) : Nat :=
  match op with
  | 0xB0 | 0xB1 => 1
  | 0xB3 => 2
  | 0xB4 | 0xB9 => 3
  | 0xB5 | 0xB6 => 4
  | 0xB7 => 5
  | 0xB8 => 6
  | _ => 0

/-- Is a site of a position fed by a streamer (R249)? -/
def fedAt (hs : List HInfo) (rs : AMap (List Word)) (pos no : Nat) : Bool :=
  hs.any fun h => h.pos == pos && h.slots.any fun x =>
    3 ≤ recipeKind x.p.op.toNat && (slotRecipe rs x).any fun r => r.dk == 0 && r.dsite == no

/-- Is a slot's site ZSKIP? -/
def zsAt (l : List ObjSite) (h : HInfo) (x : SlotI) : Bool :=
  (namedSite x).any fun no => (siteRec l h.pos no).any fun e => (e.site 0 false false).isZskip

/-- Is a slot's site a store site? -/
def stAt (hs : List HInfo) (h : HInfo) (x : SlotI) : Bool := (namedSite x).any fun no => storeAt hs h.pos no

/-- The fields of an entry (R157 to R162); `st` says that it serves a store site. -/
def siteFieldsOk (x : Site) (st : Bool) : Bool :=
  let l := x.lineLen
  bitsZero x.q1 0 8 && bitsZero x.q2 0 4 && (x.life == 0 || x.lfield == 0) &&
  x.shape < 3 && x.fill < 5 && x.mode < 3 && x.src < 3 && 1 ≤ x.wsize &&
  x.wbase + x.wsize ≤ (if x.phys then 2 ^ 52 else 2 ^ 56) && x.dmin ≤ x.dmax &&
  (x.isStream || x.isZskip || (bitsZero x.q2 4 48 && bitsZero x.q3 16 48)) &&
  (match x.shape with
    | 0 => x.shp == 0 && bitsZero x.q3 0 16
    | 1 => l % (x.shp + 1) == 0 && x.rowLen % 4 == 0 && x.rowLen ≤ x.rowStep
    | _ => x.shp < 4 && l % (16 * 2 ^ x.shp) == 0 && !x.isZskip && bitsZero x.q3 0 16) &&
  (!(x.isStream || x.isZskip) || x.streamMode) && (!x.isPreload || (x.mode == 1 && x.wsize ≤ x.dmax * l)) &&
  (!x.isNofill || st) && (!x.ordered || (x.fill == 0 && l == 64 && !x.start && x.alias == 0))

/-- The instructions a site may be named by (R162, R169 to R171, R185, R194). The zero OFF8 of a ZSKIP site is that of its accesses: its
sinv may have STRT = 1 (log 105). -/
def siteUseOk (x : Site) (st : Bool) (h : HitchCfg) (i : Instr) : Bool :=
  let off (f : FormM) : Bool := !x.isZskip || f.lo8 == 0
  (x.life != 0 || x.lfield < h.depth) &&
  (match i with
    | .ld _ _ => !x.isZskip && !x.isNofill
    | .st _ _ => !x.isZskip
    | .ldv _ f => !x.isNofill && off f
    | .stv _ f => off f && !(x.isZskip && h.mode == 1)
    | .ldo _ _ | .sto _ _ => x.ordered && x.src == 0
    | .sflush _ _ => st
    | .sinv _ _ => !st && !x.ordered
    | .srel _ f => x.streamMode && (st || (!x.isZskip && f.scope == .inst))
    | .sdepth _ _ => true
    | _ => x.ordered && x.src != 2)

/-- A streamer-fed site (R249). -/
def fedOk (hs : List HInfo) (pos : Nat) (x : Site) (r : Recipe) : Bool :=
  x.isStream && x.streamMode && x.start && x.alias == 0 && x.src == 0 && !storeAt hs pos r.dsite &&
  x.lineLen == r.outBytes && x.patternLen == r.tileCount

/-- Positions of a region. -/
def positions (npos : Nat) : List Nat := List.range npos

/-- The site section. Classes are held against the sites of one position, whose bay they share (log 24). -/
def siteBad (hs : List HInfo) (npos : Nat) (l : List ObjSite) : Bad :=
  let at' (x : ObjSite) : List Nat := if x.pos = 0xFF then positions npos else [x.pos]
  let classOk (x : ObjSite) : Bool :=
    let a := x.site 0 false false
    a.alias == 0 || l.all fun y =>
      let b := y.site 0 false false
      !(y.pos == 0xFF || x.pos == 0xFF || y.pos == x.pos) || b.alias != a.alias || b.node == a.node
  eachRec 5 (fun i (x : ObjSite) =>
    x.no < 256 && (x.pos == 0xFF || x.pos < npos) &&
    !((l.take i).any fun y => y.no == x.no && (y.pos == 0xFF || x.pos == 0xFF || y.pos == x.pos)) &&
    siteFieldsOk (x.site 0 false false) ((at' x).any fun p => storeAt hs p x.no) && classOk x) l

/-- Slots against their sites (R81, R185). A site that no record serves is rejected (log 98). -/
def siteUseBad (hs : List HInfo) (l : List ObjSite) : Bad :=
  hs.findSome? fun h => (List.range h.slots.length).findSome? fun k => match h.slots[k]? with
    | none => none
    | some x => match namedSite x with
      | none => none
      | some no => match siteRec l h.pos no with
        | none => some (3, h.first + k)
        | some e => need (siteUseOk (e.site 0 false false) (storeAt hs h.pos no) h.hdr x.i) 3 (h.first + k)

/-! ## Recipes -/

/-- Is a route entry one R240 lets stand? -/
def routeEntOk (e : Nat) : Bool :=
  match routeKind e with
  | 0 => e == 0
  | 1 => e / 8 % 2 == 0
  | 2 => e % 64 == 0 && routeStride e != 0
  | _ => false

/-- MMA (R241): types of A and B, and the greatest K. -/
def mmaPair (a b : Ty) : Option Nat :=
  let f8 (t : Ty) : Bool := t == .e4m3 || t == .e5m2
  let i8 (t : Ty) : Bool := t == .s8 || t == .n8
  if (f8 a && f8 b) || (i8 a && i8 b) then some 128
  else if a = b ∧ (a = .f16 ∨ a = .bf16) then some 64
  else if a = .q4 ∧ b = .q4 then some 256
  else none

/-- C0 of a streamer recipe (R248, R251). -/
def copyOk (r : Recipe) : Bool :=
  bitsZero r.c0 0 10 && routeKind r.tok < 2 && routeEntOk r.tok && (r.dk != 3 || r.kind == 3) &&
  (match r.dk with
    | 0 => true
    | 1 => r.dsite < 4 && r.outBytes ≤ (if r.dsite < 2 then 16384 else 1024)
    | _ => r.dsite == 0)

/-- A recipe (R239 to R256). -/
def recipeOk (r : Recipe) : Bool :=
  match r.kind with
  | 0 => r.c0 == 0 && r.c1 == 0 && r.c2 == 0 && r.c3 == 0
  | 1 => r.c1 == 0 && r.c2 == 0 && r.c3 == 0 && bitsZero r.c0 0 32 && (mmaPair r.tya r.tyb).any fun k => r.k ≤ k
  | 2 => bitsZero r.c0 0 40 && r.fmt < 3 && (List.range 8).all fun e => routeEntOk (r.route e)
  | 3 => r.c3 == 0 && bitsZero r.c1 0 16 && copyOk r && r.lines % r.tileLines == 0
  | 4 => r.c3 == 0 && bitsZero r.c1 0 13 && bitsZero r.c2 0 32 && copyOk r && r.tileLines ≤ 32 && r.tstr != 0
  | 5 =>
    bitsZero r.c3 0 62 && bitsZero r.c1 0 16 && copyOk r && r.lines % r.tileLines == 0 && r.es < 3 &&
    r.lineLen % 2 ^ r.es == 0 && r.tileLines * r.lineLen ≤ 16384 && r.tileLines * 2 ^ r.es % 16 == 0
  | 6 =>
    let n := layoutLen r.sl r.pos r.chans
    bitsZero r.c3 0 41 && bitsZero r.c1 0 16 && copyOk r && r.lines % r.tileLines == 0 && r.sl < 3 && r.dl < 3 && r.sl != r.dl &&
    (r.es != 3 || r.pos * r.chans % 2 == 0) &&
    r.tileLines * r.lineLen == (if r.es = 3 then n / 2 else n * 2 ^ r.es)
  | _ => false

def recipeBad (l : List (Nat × List Word)) : Bad :=
  eachRec 6 (fun i (x : Nat × List Word) => x.1 < 1024 && !((l.take i).any fun y => y.1 == x.1) && recipeOk (Recipe.of x.2)) l

/-- The ENTRY routes of a recipe, and the greatest index each may carry. -/
def entryRoutes (r : Recipe) : List Nat :=
  (if r.kind = 2 then (List.range 8).map r.route else if 3 ≤ r.kind then [r.tok] else []).filter fun e => routeKind e == 1

/-- The greatest index a recipe produces (R240, R246, R250). -/
def topIndex (r : Recipe) : Nat :=
  if r.kind = 2 then r.m * ((r.n * drainSize r.fmt + 127) / 128) - 1 + (if r.fmt = 2 then 1 else 0) else r.tileCount - 1

/-- The routes of a command's recipe against the issuing hitch (R240). -/
def routesOk (hs : List HInfo) (npos : Nat) (h : HInfo) (r : Recipe) : Bool :=
  (entryRoutes r).all fun e =>
    routePos e < npos &&
    (match findHitch hs (routePos e) (routeGate e) (routeHnum e) with
      | none => false
      | some t =>
        routeEnt e < t.hdr.entries && t.hdr.widths == h.hdr.widths && routeFld e < h.hdr.depth &&
        topIndex r < 2 ^ h.hdr.width (routeFld e) && t.hdr.entNet (routeEnt e) == (if r.kind = 2 then 1 else 0))

/-- Does a recipe fit an opcode and its flags (R84, R238)? -/
def recipeFits (op : Nat) (f : FormI) (r : Recipe) : Bool :=
  let bit0 := f.aux11.getLsbD 0
  r.kind == recipeKind op &&
    (if r.kind = 1 then (r.tya == .q4) == (op == 0xB1)
     else if r.kind = 2 then bit0 == (List.range 8).any fun e => routeKind (r.route e) == 2
     else
      bit0 == (r.dk == 1 || r.dk == 2) && (if op = 0xB9 then (r.dk == 3) == !f.aux11.getLsbD 2 else r.dk != 3) &&
      (op != 0xB6 || r.dk == 2))

/-- A command against its recipe (R84, R238, R249). -/
def commandOk (hs : List HInfo) (npos : Nat) (l : List ObjSite) (rs : AMap (List Word)) (h : HInfo) (x : SlotI) : Bool :=
  match x.p.b with
  | .i f =>
    let op := x.p.op.toNat
    if recipeKind op = 0 then true
    else match slotRecipe rs x with
      | none => false
      | some r =>
        recipeFits op f r && routesOk hs npos h r &&
        (r.kind < 3 || r.dk != 0 || (siteRec l h.pos r.dsite).any fun e => fedOk hs h.pos (e.site 0 false true) r)
  | _ => true

/-- The accumulator tile a matrix command names. -/
def tileOf (rs : AMap (List Word)) (x : SlotI) : Option Nat :=
  match x.p.op.toNat, x.p.b with
  | 0xB2, .i f => some (f.aux11.toNat % 4)
  | 0xB0, _ | 0xB1, _ => (slotRecipe rs x).map (·.mmaAcc)
  | 0xB3, _ => (slotRecipe rs x).map (·.drainAcc)
  | _, _ => none

/-- The command port a slot names, as 4 × island + port. -/
def portOf (x : SlotI) : Option Nat :=
  match x.p.b with
  | .i f => some (4 * f.isl.code.toNat + f.iport.toNat)
  | _ => none

/-- Island commands: each against its recipe; each tile of a position through one port (R238). -/
def commandBad (hs : List HInfo) (npos : Nat) (l : List ObjSite) (rs : AMap (List Word)) : Bad :=
  let uses (pos : Nat) : List (Nat × Nat) := ((hs.filter (·.pos == pos)).flatMap (·.slots)).filterMap fun x =>
    match tileOf rs x, portOf x with
    | some t, some p => some (t, p)
    | _, _ => none
  hs.findSome? fun h => (List.range h.slots.length).findSome? fun k => match h.slots[k]? with
    | none => none
    | some x => need (commandOk hs npos l rs h x && (match tileOf rs x, portOf x with
        | some t, some p => (uses h.pos).all fun u => u.1 != t || u.2 == p
        | _, _ => true)) 3 (h.first + k)

/-! ## Groups and seeds -/

def groupBad (l : List (Nat × List Word)) : Bad :=
  eachRec 7 (fun i (x : Nat × List Word) => x.1 < 4096 && !((l.take i).any fun y => y.1 == x.1) &&
    GDesc.ok ⟨x.2.getD 0 0, x.2.getD 1 0, x.2.getD 2 0, x.2.getD 3 0⟩) l

def seedBad (hs : List HInfo) (npos : Nat) (l : List SeedEnt) : Bad :=
  eachRec 8 (fun _ (x : SeedEnt) => x.pos < npos && x.gate < 8 && x.hnum < 32 &&
    (findHitch hs x.pos x.gate x.hnum).any fun t => x.entry < t.hdr.entries) l

/-! ## The hitch graph (R297) and the bay graph (R358) -/

/-- An edge of the hitch graph: the field it raises, the fields it writes otherwise; hitches by their place in the list. -/
structure HEdge where
  src    : Nat
  dst    : Nat
  raised : Option Nat
  wrote  : List Nat
  deriving DecidableEq, Repr

/-- What a tag operation does to fields, at depth d (R297). -/
def topEffect (top : TagOp) (i d : Nat) : Option Nat × List Nat :=
  match top with
  | .same => (none, [])
  | .inc => (some i, [])
  | .push => (none, [d])
  | .pop => (none, [d - 1])
  | .set => (none, [i])
  | .popinc => (some (d - 2), [d - 1])

/-- Places of the hitches that pass. -/
def placesOf (hs : List HInfo) (p : HInfo → Bool) : List Nat :=
  (List.range hs.length).filter fun i => (hs[i]?).any p

/-- The edges a slot makes. -/
def slotEdges (hs : List HInfo) (rs : AMap (List Word)) (u : Nat) (h : HInfo) (x : SlotI) : List HEdge :=
  let ws := h.hdr.widths
  let d := ws.length
  let to' (pos g hn : Nat) : List Nat := placesOf hs fun t => t.pos == pos && t.gate == g && t.hnum == hn
  match x.i with
  | .exit _ f | .call _ f =>
    let e := topEffect f.top f.field.toNat d
    (to' f.pos.toNat f.gate.toNat f.hnum.toNat).map fun v => ⟨u, v, e.1, e.2⟩
  | .ret _ f =>
    let e := topEffect f.top 0 d
    (placesOf hs fun t => t.hdr.widths == ws.dropLast).map fun v => ⟨u, v, e.1, e.2⟩
  | _ =>
    if recipeKind x.p.op.toNat < 2 then []
    else ((slotRecipe rs x).map entryRoutes).getD [] |>.flatMap fun e =>
      (to' (routePos e) (routeGate e) (routeHnum e)).map fun v => ⟨u, v, none, [routeFld e]⟩

def hitchEdges (hs : List HInfo) (rs : AMap (List Word)) : List HEdge :=
  hs.zipIdx.flatMap fun e => e.1.slots.flatMap (slotEdges hs rs e.2 e.1)

/-- Nodes reached from some, along edges given as pairs. -/
def reach (es : List (Nat × Nat)) : Nat → List Nat → List Nat
  | 0, l => l
  | n + 1, l =>
    let m := (es.filterMap fun e => if l.contains e.1 && !l.contains e.2 then some e.2 else none).eraseDups
    if m.isEmpty then l else reach es n (l ++ m)

/-- The edges that lie on a cycle with an edge: both its ends reach each other. -/
def component (es : List HEdge) (e : HEdge) : List HEdge :=
  let ps := es.map fun x => (x.src, x.dst)
  let back := es.map fun x => (x.dst, x.src)
  let fwd := reach ps es.length [e.dst]
  let bwd := reach back es.length [e.src]
  let both := fwd.filter bwd.contains
  if fwd.contains e.src then es.filter fun x => both.contains x.src && both.contains x.dst else []

/-- Does some cycle break R297? In a set of edges that lie on cycles together, the lowest field written must not be written
but by raising it; a cycle that does not raise it lies in what is left without the raising edges. -/
def badCycle : Nat → List HEdge → Bool
  | 0, _ => false
  | n + 1, es =>
    let comps := es.foldl (fun (a : List (List HEdge)) e =>
      if a.any (·.contains e) then a else match component es e with | [] => a | c => a ++ [c]) []
    comps.any fun c =>
      match (c.flatMap fun e => e.wrote ++ e.raised.toList).min? with
      | none => true
      | some f => c.any (fun e => e.wrote.contains f) || badCycle n (c.filter fun e => e.raised != some f)

def cycleBad (hs : List HInfo) (rs : AMap (List Word)) : Bad := need (!badCycle 9 (hitchEdges hs rs)) 2 0

/-- The channels of the bay graph: pairs of positions (R358). -/
def bayEdges (hs : List HInfo) (rs : AMap (List Word)) : List (Nat × Nat) :=
  ((hitchEdges hs rs).filterMap fun e =>
    match hs[e.src]?, hs[e.dst]? with
    | some a, some b => if a.pos = b.pos then none else some (a.pos, b.pos)
    | _, _ => none).eraseDups

/-- Does a position hold an ingress port: a seed port, or a streamer a slot names by a pipeline command? -/
def ingressAt (hs : List HInfo) (seeds : List SeedEnt) (pos : Nat) : Bool :=
  seeds.any (·.pos == pos) || hs.any fun h => h.pos == pos && h.slots.any fun x =>
    match x.p.op.toNat with
    | 0xB4 | 0xB5 | 0xB7 | 0xB8 | 0xB9 => true
    | _ => false

/-- Positions that get a marker from the origin: those with an ingress port, and root bays (R358, R359). -/
def markedFirst (hs : List HInfo) (rs : AMap (List Word)) (seeds : List SeedEnt) (npos : Nat) : List Nat :=
  let ing := (positions npos).filter (ingressAt hs seeds)
  let seen := reach (bayEdges hs rs) npos ing
  (positions npos).filter fun p => ing.contains p || !seen.contains p

end Sys2Proof.Machine
end

