-- ==== Sys2Proof/Machine/FehamCheck.lean ====
section
/-!
DEFINITION. Sys2Proof/Machine/FehamCheck.lean: is the graph of a FEHAM section well formed (R288, R303, R304)? An ARCH 2 object
loads from its native sections; the graph is kept for attestation.
-/
namespace Sys2Proof.Machine

open Sys2Proof

/-- A node of the graph. -/
structure FNode where
  kind   : Nat
  ty     : Nat
  parent : Nat
  arg    : Nat
  extent : Nat
  pfac   : Nat
  deriving DecidableEq, Repr

/-- An edge: ends, levels as node and stride, base. -/
structure FEdge where
  src    : Nat
  dst    : Nat
  port   : Nat
  nlev   : Nat
  base   : Int
  levels : List (Nat × Int)
  zero   : Bool
  deriving DecidableEq, Repr

/-- A graph. -/
structure FGraph where
  factors : Nat
  nodes   : List FNode
  edges   : List FEdge
  deriving DecidableEq, Repr

/-- A signed little-endian field. -/
def signedOf (l : List Byte) (o n : Nat) : Int :=
  let v := fieldOf l o n
  if v < 2 ^ (8 * n - 1) then v else (v : Int) - 2 ^ (8 * n)

/-- The graph a section holds, or none if its lengths or zero fields are wrong. -/
def readFeham (l : List Byte) : Option FGraph :=
  let n := fieldOf l 4 4
  let e := fieldOf l 8 4
  let f := fieldOf l 12 4
  let no := 16 + 8 * f
  let eo := no + 32 * n
  if fieldOf l 0 4 != 0x014D4846 || l.length != eo + 48 * e then none
  else if !((List.range f).all fun i => zeroAt l (16 + 8 * i + 4) 4) || !((List.range n).all fun i => zeroAt l (no + 32 * i + 20) 12)
      || !((List.range e).all fun i => zeroAt l (eo + 48 * i + 10) 6) then none
  else some
    { factors := f
      nodes := (List.range n).map fun i =>
        let o := no + 32 * i
        ⟨fieldOf l o 1, fieldOf l (o + 1) 1, fieldOf l (o + 2) 2, fieldOf l (o + 4) 4, fieldOf l (o + 8) 8, fieldOf l (o + 16) 4⟩
      edges := (List.range e).map fun i =>
        let o := eo + 48 * i
        let k := fieldOf l (o + 9) 1
        { src := fieldOf l o 4, dst := fieldOf l (o + 4) 4, port := fieldOf l (o + 8) 1, nlev := k, base := signedOf l (o + 16) 8
          levels := (List.range (Nat.min k 4)).map fun j => (fieldOf l (o + 24 + 6 * j) 2, signedOf l (o + 26 + 6 * j) 4)
          zero := k ≤ 4 && zeroAt l (o + 24 + 6 * k) (24 - 6 * k) } }

/-- Is a node a pattern: map, reduce, scan, filter? -/
def FNode.pattern (x : FNode) : Bool := 1 ≤ x.kind && x.kind ≤ 4

/-- The patterns that enclose a node, innermost first; none if its PARENT links do not end. -/
def enclosing (g : FGraph) : Nat → Nat → Option (List Nat)
  | 0, _ => none
  | n + 1, i =>
    match g.nodes[i]? with
    | none => none
    | some x =>
      if x.parent = 0xFFFF then some []
      else if (g.nodes[x.parent]?).any (·.pattern) then (enclosing g n x.parent).map (x.parent :: ·)
      else none

def FGraph.outer (g : FGraph) (i : Nat) : Option (List Nat) := enclosing g (g.nodes.length + 1) i

/-- Form A with nothing set. -/
def plainA : FormA := ⟨false, .rn, false, 0, 0⟩

/-- Is an opcode one for elements of a type: is a word of it with rounding 00 and SAT 0 legal for some parameters of its own (R304)? -/
def opFits (op : Nat) (t : Ty) : Bool :=
  match opA op with
  | none => false
  | some k => (List.range 128).any fun a => [0, 1].any fun m =>
      (k ⟨.always, false, t, noTarget, noTarget⟩ { plainA with aux7 := BitVec.ofNat 7 a, imm16 := BitVec.ofNat 16 m }).wf

/-- OPARG and TY of a node by its kind (R304); PFAC stands on map, reduce and scan only. -/
def nodeOk (g : FGraph) (x : FNode) : Bool :=
  let t := Ty.ofCode (BitVec.ofNat 4 x.ty)
  x.kind < 6 && x.ty < 16 && 1 ≤ x.extent &&
  (x.pfac == 0xFFFFFFFF || (x.pfac < g.factors && 1 ≤ x.kind && x.kind ≤ 3)) &&
  (match x.kind with
    | 2 | 3 => x.arg < 8 && reduceWf t { plainA with aux7 := BitVec.ofNat 7 x.arg } false
    | 5 =>
      ((1 ≤ x.arg && x.arg ≤ 0x21) || (0x40 ≤ x.arg && x.arg ≤ 0x59)) && opFits x.arg t
    | _ => x.arg == 0)

/-- The greatest sum of |stride| × iteration over levels. -/
def spread (l : List (Int × Nat)) : Int := l.foldl (fun n e => n + e.1.natAbs * ((e.2 : Int) - 1)) 0

/-- Is there a difference of two iterations that the levels map to `-t`: for each level a step within its extent? `moved` says
that an earlier level has moved. -/
def meets : List (Int × Nat) → Int → Bool → Bool
  | [], t, moved => moved && t == 0
  | (k, e) :: l, t, moved =>
    let r := spread l
    if k = 0 then meets l t (moved || e != 1)
    else
      let n := (r + t.natAbs).toNat / k.natAbs
      let m := Nat.min n (e - 1)
      (List.range (2 * m + 1)).any fun i =>
        let d : Int := (i : Int) - m
        (t + k * d).natAbs ≤ r && meets l (t + k * d) (moved || d != 0)

/-- The levels of an edge with equal nodes put together, the greatest stride first. -/
def mergedLevels (g : FGraph) (e : FEdge) : List (Int × Nat) :=
  let ns := (e.levels.map (·.1)).eraseDups
  let l := ns.map fun n =>
    ((e.levels.filter (·.1 == n)).foldl (fun (t : Int) x => t + x.2) 0, ((g.nodes[n]?).map (·.extent)).getD 1)
  (sortBy (fun x : Int × Nat => x.1.natAbs) l).reverse

/-- Have a sum of levels, each with an iteration below its extent, and `t` a sum of zero? The greatest stride comes first. -/
def sumHits : List (Int × Nat) → Int → Bool
  | [], t => t == 0
  | (k, e) :: l, t =>
    let r := spread l
    if k = 0 then sumHits l t
    else
      let m := Nat.min (e - 1) ((r + t.natAbs).toNat / k.natAbs)
      (List.range (m + 1)).any fun i => (t + k * i).natAbs ≤ r && sumHits l (t + k * i)

/-- An access (R304): its levels name patterns that enclose its other end, it stays within the tensor; a write reaches no element from
two iterations of them. -/
def accessOk (g : FGraph) (e : FEdge) (tensor : FNode) (other : Nat) (write : Bool) : Bool :=
  match g.outer other with
  | some around =>
    let ls := mergedLevels g e
    let low := ls.foldl (fun (n : Int) p => if p.1 < 0 then n + p.1 * ((p.2 : Int) - 1) else n) e.base
    let high := ls.foldl (fun (n : Int) p => if 0 < p.1 then n + p.1 * ((p.2 : Int) - 1) else n) e.base
    e.levels.all (fun l => around.contains l.1) && 0 ≤ low && high < tensor.extent &&
    (!write || (around.all (fun n => (e.levels.any (·.1 == n)) || ((g.nodes[n]?).map (·.extent)) == some 1) && !meets ls 0 false))
  | none => false

/-- An edge's stride along a node. -/
def FEdge.stride (e : FEdge) (n : Nat) : Int := (e.levels.filter (·.1 == n)).foldl (fun (t : Int) x => t + x.2) 0

/-- Have two iterations of the same nodes, of strides `a` and `b` and an extent each, `t` and their difference a sum of zero? They are two
once they differ in a node. -/
def pairHits : List (Int × Int × Nat) → Int → Bool → Bool
  | [], t, moved => moved && t == 0
  | (a, b, e) :: l, t, moved =>
    (List.range e).any fun i => (List.range e).any fun j =>
      let u := t + a * i - b * j
      u.natAbs ≤ spread (l.map fun x => (x.1, x.2.2)) + spread (l.map fun x => (x.2.1, x.2.2)) && pairHits l u (moved || i != j)

/-- Do two edges write one element from two iterations (R303)? Under the same patterns, one iteration of both is one iteration. -/
def clash (g : FGraph) (e f : FEdge) : Bool :=
  let d := e.base - f.base
  if g.outer e.src == g.outer f.src then
    let ns := ((e.levels ++ f.levels).map (·.1)).eraseDups
    let ls := ns.map fun n => (e.stride n, f.stride n, ((g.nodes[n]?).map (·.extent)).getD 1)
    if ls.all fun x => x.1 == x.2.1 then meets ((sortBy (fun x : Int × Nat => x.1.natAbs) (ls.map fun x => (x.1, x.2.2))).reverse) d false
    else pairHits ls d false
  else
    let ms := (mergedLevels g f).map fun x => (-x.1, x.2)
    sumHits ((sortBy (fun x : Int × Nat => x.1.natAbs) (mergedLevels g e ++ ms)).reverse) d

/-- No tensor element is written from two iterations by two edges (R303). -/
def writesOk (g : FGraph) : Bool :=
  let ws := g.edges.filter fun e => (g.nodes[e.dst]?).any (·.kind == 0)
  (List.range ws.length).all fun i => match ws[i]? with
    | none => true
    | some e => (ws.take i).all fun f => f.dst != e.dst || !clash g e f

/-- The operands of an elementwise node, and the two of a filter, are distinct and in PORT order (R304). -/
def portsOk (g : FGraph) (i : Nat) (x : FNode) : Bool :=
  let ps := (g.edges.filter (·.dst == i)).map (·.port)
  let n := if x.kind = 4 then 2
    else ((opA x.arg).map fun k =>
      (usedPorts 0 (k ⟨.always, false, Ty.ofCode (BitVec.ofNat 4 x.ty), noTarget, noTarget⟩ plainA)).length).getD 0
  (x.kind != 4 && x.kind != 5) || (distinct ps && ps.all (· < n))

/-- An edge. -/
def edgeOk (g : FGraph) (e : FEdge) : Bool :=
  match g.nodes[e.src]?, g.nodes[e.dst]? with
  | some a, some b =>
    e.zero && e.nlev ≤ 4 &&
    (if a.kind = 0 ∧ b.kind = 0 then false
     else if a.kind = 0 then accessOk g e a e.dst false
     else if b.kind = 0 then accessOk g e b e.src true
     else e.nlev == 0 && e.base == 0)
  | _, _ => false

/-- Is a graph well formed (R303)? -/
def FGraph.ok (g : FGraph) : Bool :=
  let ps := g.edges.map fun e => (e.src, e.dst)
  g.nodes.all (nodeOk g) && (List.range g.nodes.length).all (fun i => (g.outer i).isSome) && g.edges.all (edgeOk g) &&
  writesOk g && g.nodes.zipIdx.all (fun e => portsOk g e.2 e.1) &&
  (List.range g.nodes.length).all fun i =>
    !(reach ps g.edges.length (ps.filterMap fun p => if p.1 = i then some p.2 else none)).contains i

/-- The check of a FEHAM section. -/
def fehamBad (f : ObjFile) : Bad :=
  match f.sect? 12 with
  | none => none
  | some _ => need ((readFeham (f.body 12)).any (·.ok)) 12 0

end Sys2Proof.Machine
end

