-- ==== Sys2Proof/Machine/LoadInstall.lean ====
section
/-!
DEFINITION. Sys2Proof/Machine/LoadInstall.lean: what a checked object takes on a bay (R26, R27, R88, R162, R402), and its
tables on the bay of a position (R280, R282).
-/
namespace Sys2Proof.Machine

open Sys2Proof

/-! ## The checked object -/

/-- A list of numbered entries in ascending order. -/
def asMap {α : Type} (l : List (Nat × α)) : AMap α := l.foldl (fun m e => AMap.set m e.1 e.2) []

def Raw.obj (r : Raw) : Obj :=
  { nbv := r.nbv, rowDir := r.dirs % 4, colDir := r.dirs / 4, rows := r.rows, cols := r.cols, strCnt := r.strCnt
    hitches := r.objHitches, sites := r.sites, recipes := asMap r.recipes, groups := asMap r.groups, seeds := r.seeds }

def Obj.npos (o : Obj) : Nat := o.rows * o.cols
def Obj.infos (o : Obj) : List HInfo := o.hitches.map (·.info 0)

/-- Every check of the records that yields ILLEGAL. -/
def rawBad (r : Raw) : Bad :=
  let hs := r.infos
  let rs := asMap r.recipes
  firstBad [
    hitchBad r, slotBad r, routeBad r, siteBad hs r.npos r.sites, recipeBad r.recipes, groupBad r.groups,
    seedBad hs r.npos r.seeds, siteUseBad hs r.sites, instrBad hs r.npos (stAt hs), commandBad hs r.npos r.sites rs,
    hs.zipIdx.findSome? fun e => graphBad hs (zsAt r.sites) e.2 e.1, cycleBad hs rs]

/-- Every check of a file before it is relocated, then after. -/
def fileBad (win : Nat) (l : List Byte) : Except (Nat × Nat) ObjFile :=
  match headerBad l with
  | some e => .error e
  | none =>
    let f := ObjFile.of l
    match firstBad [tableBad f, zeroBad f, symBad f, dataBad f, need (fieldOf l 24 4 < (f.recs 10).length) 0 0] with
    | some e => .error e
    | none =>
      match relocate win f with
      | .error e => .error e
      | .ok f =>
        match firstBad [rawBad f.raw, spreadBad f, fehamBad f] with
        | some e => .error e
        | none => .ok f

/-! ## What it takes -/

/-- Keys of pooled and counted parts beyond those of `reserved`: node capacity, guard registers, hitches of a gate. -/
def nodeKey (n : Nat) : Nat := 416 + n
def guardKey : Nat := 424
def hitchesKey (g : Nat) : Nat := 425 + g

/-- Add to a numbered count. -/
def addTo (m : AMap Nat) (k n : Nat) : AMap Nat := AMap.set m k (AMap.getD m k 0 + n)

/-- The greater of two counts, number by number. -/
def mostOf (a b : AMap Nat) : AMap Nat := b.foldl (fun m e => AMap.set m e.1 (Nat.max (AMap.getD m e.1 0) e.2)) a

/-- The frame descriptors of a hitch of an object. -/
def Obj.frames (o : Obj) (h : HInfo) : List (Nat × Nat) := framesOf o.infos (zsAt o.sites h) h

/-- N_w (R26). -/
def HitchCfg.waveNeed (h : HitchCfg) : Nat := h.storeMask.length + h.keepMask.length

def usesRecord (h : HInfo) : Bool := h.slots.any fun x => x.p.op == 0x77 || x.p.op == 0x78

/-- The counts of hitches and sites of a position: reserved pools (R27, R402), node bytes, guard registers (R162), hitches of each gate
(R11). -/
def Obj.poolsAt (o : Obj) (hs : List HInfo) (ss : List ObjSite) (pos : Nat) : AMap Nat :=
  let hs := hs.filter (·.pos == pos)
  let m := hs.foldl (fun m h =>
    let n := h.hdr.dmin
    let fs := o.frames h
    let m := (List.range h.hdr.spanLen).foldl (fun m j =>
      let e := h.hdr.spanEl j
      let f := fs.getD j (0, 0)
      addTo (addTo (addTo m (rowKey e) n) (entKey e) (n * f.1)) (parkKey e) (n * f.2)) m
    let m := AMap.set (addTo (addTo m waveKey (n * h.hdr.waveNeed)) (hitchesKey h.gate) 1) (placeKey h.gate) 4
    if usesRecord h then AMap.set m (recordKey h.gate) 1 else m) []
  ss.foldl (fun m x =>
    if x.pos == 0xFF || x.pos == pos then
      let y := x.site 0 false false
      let m := addTo m (nodeKey y.node) (y.dmax * (if y.ordered then 64 else y.lineLen))
      if storeAt o.infos pos x.no then addTo m guardKey 1 else m
    else m) m

/-- The counts of a configuration: on every bay the greatest over the positions. -/
def Obj.pools (o : Obj) : AMap Nat := (positions o.npos).foldl (fun m p => mostOf m (o.poolsAt o.infos o.sites p)) []

/-- Capacity of a counted part. -/
def countCap (k : Nat) : Nat :=
  if k < 392 then partCap k
  else if k < 400 then Config.entryPlaces
  else if k < 416 then Config.accRecords
  else if k < 424 then Config.nodeBytes
  else if k = guardKey then Config.guardRegs
  else Config.gateHitches

/-- Slots of an element a configuration uses, the highest plus one (R280). -/
def Obj.slotLens (o : Obj) : AMap Nat :=
  o.infos.foldl (fun m h => h.slots.foldl (fun m x => mostOf m [(h.hdr.spanEl x.se, x.no + 1)]) m) []

/-- Route words a configuration uses, as 8 × element + number. -/
def Obj.routeWords (o : Obj) : List Nat :=
  (o.infos.flatMap fun h => h.routes.map fun e => 8 * h.hdr.spanEl e.1 + e.2.1).eraseDups

/-- Hitch numbers a configuration uses, as 32 × gate + number: no other context of its bays may use them (R11). -/
def Obj.hitchNos (o : Obj) : List Nat := (o.infos.map fun h => 32 * h.gate + h.hnum).eraseDups

/-- Command ports and accumulator tiles its slots name (R234, R238). -/
def Obj.portsUsed (o : Obj) : List Nat := (o.infos.flatMap fun h => h.slots.filterMap portOf).eraseDups
def Obj.tilesUsed (o : Obj) : List Nat := (o.infos.flatMap fun h => h.slots.filterMap (tileOf o.recipes)).eraseDups

/-- The greatest number of a list, plus one. -/
def runLen (l : List Nat) : Nat := l.foldl (fun n k => Nat.max n (k + 1)) 0

/-- The lowest free place for a run: first fit (R402). -/
def firstFit (total len : Nat) (held : List (Nat × Nat)) : Option Nat :=
  if total < len then none else (List.range (total + 1 - len)).find? fun b => !held.any (placesMeet (b, len))

/-- Numbered lists of runs, put together. -/
def fitAll (total : Nat) (want : AMap Nat) (held : Nat → List (Nat × Nat)) : Option (AMap (Nat × Nat)) :=
  want.foldl (fun a e => match a with
    | none => none
    | some m => (firstFit total e.2 (held e.1)).map fun b => AMap.set m e.1 (b, e.2)) (some [])

/-- Key of a hitch's block of instance indices. -/
def ixKey (pos g h : Nat) : Nat := 256 * pos + 32 * g + h

/-- Blocks of instance indices of a position's hitches, beside those of other contexts (R402; log 26): by ascending gate and hitch number
(log 99). -/
def fitIx (o : Obj) (others : List Loaded) (pos : Nat) (m : AMap (Nat × Nat)) : Option (AMap (Nat × Nat)) :=
  let hs := sortBy (fun h : HInfo => ixKey pos h.gate h.hnum) (o.infos.filter (·.pos == pos))
  hs.foldl (fun a h => match a with
    | none => none
    | some m =>
      let gate (e : Nat × Nat × Nat) : Bool := e.1 / 32 % 8 == h.gate
      let held := (others.flatMap fun c => (c.runs.ix.filter gate).map (·.2)) ++
        (m.filter fun e => gate e && e.1 / 256 == pos).map (·.2)
      (firstFit 256 h.hdr.dmax held).map fun b => AMap.set m (ixKey pos h.gate h.hnum) (b, h.hdr.dmax)) (some m)

/-- The runs of a configuration beside the loaded ones, or none if it does not fit (R402). -/
def fitObj (o : Obj) (others : List Loaded) : Option Runs :=
  let used (f : Obj → List Nat) : Bool := (f o).all fun k => !others.any fun c => (f c.obj).contains k
  let frames := o.infos.all fun h => (o.frames h).all fun f => f.1 ≤ 63 && f.2 ≤ 7
  let sums := o.pools.all fun e => e.2 + others.foldl (fun n c => n + AMap.getD c.obj.pools e.1 0) 0 ≤ countCap e.1
  if !(frames && sums && used Obj.hitchNos && used Obj.routeWords && used Obj.portsUsed && used Obj.tilesUsed) then none
  else
    match fitAll 32 o.slotLens (fun e => others.filterMap fun c => AMap.get? c.runs.slots e),
        firstFit 256 (runLen (o.sites.map (·.no))) (others.map (·.runs.sites)),
        firstFit 64 o.strCnt (others.map (·.runs.keep)),
        firstFit 1024 (runLen (o.recipes.map (·.1))) (others.map (·.runs.recipes)),
        (positions o.npos).foldl (fun a p => match a with | none => none | some m => fitIx o others p m) (some []) with
    | some sl, some st, some kp, some rc, some ix =>
      some ⟨sl, (st, runLen (o.sites.map (·.no))), (kp, o.strCnt), (rc, runLen (o.recipes.map (·.1))), ix⟩
    | _, _, _, _, _ => none

/-- The counts of the first hitches and sites of a configuration, on every bay the greatest over the positions. -/
def Obj.poolsOf (o : Obj) (hs : List HInfo) (ss : List ObjSite) : AMap Nat :=
  (positions o.npos).foldl (fun m p => mostOf m (o.poolsAt hs ss p)) []

/-- The first record that does not fit, in the order of the sections (R88, R289, R323, R402; log 94): of HITCH records a frame that is too
large, counted parts, a number, a block of indices; of SLOT records a run of slots, a command port, a tile; route words; of SITE records
node bytes, guard registers, a run; of RECIPE records a run; else the strands of the PLACE section. -/
def capBad (r : Raw) (others : List Loaded) : Bad :=
  let o := r.obj
  let hs := r.infos
  let held (f : Obj → List Nat) (k : Nat) : Bool := others.any fun c => (f c.obj).contains k
  let fits (m : AMap Nat) : Bool :=
    m.all fun e => e.2 + others.foldl (fun n c => n + AMap.getD c.obj.pools e.1 0) 0 ≤ countCap e.1
  let ixOk (n : Nat) : Bool := ((positions o.npos).foldl (fun a p => match a with
    | none => none
    | some m => fitIx { o with hitches := o.hitches.take n } others p m) (some [])).isSome
  let slots := sortBy (fun e : Nat × Nat × SlotI => e.1) (hs.flatMap fun h => h.slots.zipIdx.map fun x => (h.first + x.2, h.hdr.spanEl x.1.se, x.1))
  let runs (l : List (Nat × Nat × SlotI)) : AMap Nat := l.foldl (fun m e => mostOf m [(e.2.1, e.2.2.no + 1)]) []
  firstBad [
    need ((firstFit 64 o.strCnt (others.map (·.runs.keep))).isSome) 1 0,
    eachRec 2 (fun i h => (o.frames h).all (fun f => f.1 ≤ 63 && f.2 ≤ 7) && fits (o.poolsOf (hs.take (i + 1)) []) &&
      !held Obj.hitchNos (32 * h.gate + h.hnum) && ixOk (i + 1)) hs,
    (List.range slots.length).findSome? fun j => match slots[j]? with
      | none => none
      | some e => need ((fitAll 32 (runs (slots.take (j + 1))) fun k => others.filterMap fun c => AMap.get? c.runs.slots k).isSome &&
          (portOf e.2.2).all (fun k => !held Obj.portsUsed k) && (tileOf o.recipes e.2.2).all (fun k => !held Obj.tilesUsed k)) 3 e.1,
    eachRec 4 (fun _ x => (hs[x.hix]?).all fun h => !held Obj.routeWords (8 * h.hdr.spanEl x.se + x.no)) r.routes,
    eachRec 5 (fun i (_ : ObjSite) => fits (o.poolsOf hs (o.sites.take (i + 1))) &&
      (firstFit 256 (runLen ((o.sites.take (i + 1)).map (·.no))) (others.map (·.runs.sites))).isSome) o.sites,
    eachRec 6 (fun i (_ : Nat × List Word) =>
      (firstFit 1024 (runLen ((r.recipes.take (i + 1)).map (·.1))) (others.map (·.runs.recipes))).isSome) r.recipes]

/-! ## Installing -/

/-- A context on a bay as a load leaves it. -/
def Loaded.ctxRt (c : Loaded) (n win : Nat) : CtxRt :=
  { part := n, handle := c.handle, strBase := c.runs.keep.1, strCnt := c.obj.strCnt, nbv := c.obj.nbv, rowDir := c.obj.rowDir
    colDir := c.obj.colDir, bayWin := win, siteBase := c.runs.sites.1, recipes := c.obj.recipes
    reserved := c.obj.pools, tiles := c.obj.tilesUsed, ports := c.obj.portsUsed.map fun p => (p / 4, p % 4), chansOut := []
    chansIn := [], bound := none, position := 0, rows := 0, cols := 0, map := [], rngCur := 0, rngHi := 0
    rngChunk := 0, user := [], waitHist := 0, fires := 0, since := 0, fireStart := 0, frozen := false, stopRun := false
    brkInst := none, heldTok := none, heldSet := none, halted := false, sent := [], rcvd := [], cut := none, recorded := []
    presValid := [], dirty := [], wrong := [], clamped := [], omitted := [], trSeq := 0, trLost := 0, trFires := 0
    scopePol := 0 }

/-- Take a context's tables off a bay. -/
def Bay.bare (y : Bay) (ctx : Nat) : Bay :=
  { y with
    elems := y.elems.map fun e => (e.1, { e.2 with
      slots := e.2.slots.filter fun k => !(k.2.owned && k.2.ctx == ctx)
      routes := e.2.routes.filter fun k => k.2.owner != some ctx })
    gates := y.gates.map fun g => (g.1, { g.2 with hitches := g.2.hitches.filter fun h => h.2.ctx != ctx })
    sites := y.sites.filter fun e => e.2.ctx != ctx
    guards := y.guards.filter fun g => g.ctx != ctx }

/-- A target with the slot base of the element it names (R280). -/
def rebase (c : Loaded) (h : HitchCfg) (t : Target) : Target :=
  if t = noTarget then t
  else t + BitVec.ofNat 11 (4 * ((AMap.getD c.runs.slots (h.spanEl (targetSe t)) (0, 0)).1))

/-- A field of a word mapped as a target. -/
def rebaseAt (c : Loaded) (h : HitchCfg) (w : Word) (lo : Nat) : Word :=
  putBits w lo 11 (rebase c h (w.extractLsb' lo 11)).toNat

/-- A header as it is installed. -/
def installedWords (c : Loaded) (h : HitchCfg) : List Word :=
  let fixw (w : Word) : Word := (List.range 4).foldl (fun w i => rebaseAt c h w (11 * i)) w
  h.words.zipIdx.map fun e => if e.2 = 3 ∨ e.2 = 4 then fixw e.1 else e.1

/-- A hitch as a gate holds it. -/
def Loaded.hitchCfg (c : Loaded) (h : HInfo) (poison : Bool) : HitchCfg :=
  HitchCfg.fresh
    { words := installedWords c h.hdr, poison := poison, ctx := c.ctx
      ixBase := (AMap.getD c.runs.ix (ixKey h.pos h.gate h.hnum) (0, 0)).1, frames := c.obj.frames h
      slotAt := h.hdr.span.map fun e => (AMap.getD c.runs.slots e (0, 0)).1, nw := h.hdr.waveNeed
      lsids := sortBy id (h.slots.filterMap fun x => lsidOf x.i x.p)
      mem := h.slots.any fun x => match x.p.b with | .m _ => true | _ => false
      lim := 0, latCnt := 0, latSum := 0, means := [] }

/-- Write a hitch's slots, route words and header. A word that was poisoned in the context keeps its mark until the context is
unloaded (R355). -/
def putHitch (c : Loaded) (old : Bay) (y : Bay) (h : HInfo) : Bay :=
  let modEl (y : Bay) (e : Nat) (f : Element → Element) : Bay :=
    { y with elems := AMap.set y.elems e (f (AMap.getD y.elems e Element.reset)) }
  let oldEl (e : Nat) : Element := AMap.getD old.elems e Element.reset
  let y := h.slots.foldl (fun y x =>
    let e := h.hdr.spanEl x.se
    let k := x.no + (AMap.getD c.runs.slots e (0, 0)).1
    let poi := (AMap.get? (oldEl e).slots k).any fun o => o.owned && o.ctx == c.ctx && o.poison
    let w := rebaseAt c h.hdr (rebaseAt c h.hdr x.word 38) 27
    modEl y e fun q => { q with slots := AMap.set q.slots k ⟨w, poi, true, c.ctx, h.gate, h.hnum, x.se, []⟩ }) y
  let y := h.routes.foldl (fun y r =>
    let e := h.hdr.spanEl r.1
    let poi := (AMap.get? (oldEl e).routes r.2.1).any fun o => o.owner == some c.ctx && o.poison
    let w := (List.range 4).foldl (fun w i => rebaseAt c h.hdr w (11 * i)) r.2.2
    modEl y e fun q => { q with routes := AMap.set q.routes r.2.1 ⟨w, poi, some c.ctx⟩ }) y
  let g := AMap.getD y.gates h.gate Gate.reset
  let poi := (AMap.get? (AMap.getD old.gates h.gate Gate.reset).hitches (hKey c.ctx h.hnum)).any (·.poison)
  { y with gates := AMap.set y.gates h.gate { g with hitches := AMap.set g.hitches (hKey c.ctx h.hnum) (c.hitchCfg h poi) } }

/-- Write a site's entry and, for a store site, its guard register (R157, R178). -/
def putSite (c : Loaded) (pos : Nat) (old : Bay) (y : Bay) (x : ObjSite) : Bay :=
  if !(x.pos == 0xFF || x.pos == pos) then y
  else
    let hs := c.obj.infos
    let st := storeAt hs pos x.no
    let k := c.runs.sites.1 + x.no
    let v := x.site c.ctx st (fedAt hs c.obj.recipes pos x.no)
    let poi := (AMap.get? old.sites k).any fun o => o.ctx == c.ctx && o.poison
    { y with
      sites := AMap.set y.sites k { v with poison := poi }
      guards := if st then y.guards ++ [⟨c.ctx, k, v.wbase, v.wsize, v.phys, v.alias⟩] else y.guards }

/-- The tables of a position on a bay. -/
def putTables (c : Loaded) (pos : Nat) (y : Bay) : Bay :=
  let z := y.bare c.ctx
  let z := (c.obj.infos.filter (·.pos == pos)).foldl (putHitch c y) z
  c.obj.sites.foldl (putSite c pos y) z

/-- Channels of a position. -/
def Obj.chansOut (o : Obj) (pos : Nat) : List Nat :=
  sortBy id ((bayEdges o.infos o.recipes).filterMap fun e => if e.1 = pos then some e.2 else none)
def Obj.chansIn (o : Obj) (pos : Nat) : List Nat :=
  sortBy id ((bayEdges o.infos o.recipes).filterMap fun e => if e.2 = pos then some e.1 else none)

end Sys2Proof.Machine
end

