-- ==== Sys2Proof/Machine/LoadEvents.lean ====
section
/-!
DEFINITION. Sys2Proof/Machine/LoadEvents.lean: the load block: LOAD, its completion, UNLOAD (R322, R323, R285, R289).
-/
namespace Sys2Proof.Machine

open Sys2Proof

/-! ## Commands -/

/-- Does a load of a partition wait for a migrating page? -/
def loadParked (s : State) (n : Nat) : Bool := s.flight.any fun i => match i with | .load k _ => k == n | _ => false

/-- A command the load block takes: the next CSEQ, no command under way, zero fields zero, its OPC (R323). -/
def loadCmdOk (s : State) (n : Nat) (cmd : Word) (opc : Nat) : Bool :=
  let p := s.part n
  n < Config.parts && !loadParked s n &&
  bits cmd 32 32 == (bits p.ldStat 32 32 + 1) % 2 ^ 32 && p.job.isNone && bitsZero cmd 11 21 && bitsZero cmd 2 6 &&
  bits cmd 0 2 == opc

/-- Does a load find no partition: EN = 0, or a bay of it being zeroised? -/
def noPart (s : State) (p : Part) : Bool := !p.en || p.bayList.any fun b => (s.bay b).zero

/-- Is a handle named by a loaded configuration? -/
def Part.byHandle (p : Part) (h : Nat) : Option Loaded := (p.configs.find? fun e => e.2.handle == h).map (·.2)

/-- A completed command in LDSTAT and LDERR. -/
def Part.loadDone (p : Part) (cseq status : Nat) (err : Word) : Part :=
  { p with ldStat := word (cseq * 2 ^ 32 + status * 2 ^ 8), ldErr := err, job := none }

/-! ## Images (R285) -/

/-- Pages an image reaches: an address in each. The least page is 64 KiB. -/
def DataRec.pages (d : DataRec) : List Nat :=
  (List.range ((d.vaddr % 0x10000 + d.len + 0xFFFF) / 0x10000)).map fun i => if i = 0 then d.vaddr else (d.vaddr / 0x10000 + i) * 0x10000

/-- What a page of an image comes to. A loft page names no bay before a launch is bound, and is rejected (log 27). -/
inductive PageFate where
  | fine | bad | wait
  deriving DecidableEq, Repr

def pageFate (s : State) (n va : Nat) : PageFate :=
  match translatePart s n va needW with
  | .ok l _ => if l.kind = 0 then .fine else .bad
  | .park => .wait
  | _ => .bad

/-- The first image that reaches a page it may not, and whether a page is migrating. -/
def imagesFate (s : State) (n : Nat) (ds : List DataRec) : Bad × Bool :=
  (eachRec 9 (fun _ d => d.pages.all fun a => pageFate s n a != .bad) ds,
   ds.any fun d => d.pages.any fun a => pageFate s n a == .wait)

/-- Park the walks of the images' pages that are migrating (R346). -/
def parkImages (n : Nat) (ds : List DataRec) (s : State) : State :=
  ds.foldl (fun s d => d.pages.foldl (fun s a => if pageFate s n a == .wait then parkBare s n a else s) s) s

/-- Write the images, in record order. -/
def writeImages (n : Nat) (f : ObjFile) (s : State) : State :=
  f.datas.foldl (fun s d => (partWrite n ((f.bytes.drop (d.off + 16)).take d.len) false (runPieces d.vaddr d.len) s).state) s

/-! ## Descriptors (R216, R282) -/

/-- The entry the driver assigns, one that is not taken: its next answer, which is used up, else a free value among them (log 28); none when
all are taken. -/
def gdEntry (n : Nat) (taken : List Nat) (s : State) : Option Nat × State :=
  let ok (k : Nat) : Bool := k < 4096 && !taken.contains k
  match (s.part n).gdAnswer.dropWhile fun k => !ok k with
  | k :: l => (some k, s.modPart n fun p => { p with gdAnswer := l })
  | [] =>
    let free := (List.range 4096).filter ok
    let f := s.fresh
    (free[f.1.toNat % free.length]?, f.2.modPart n fun p => { p with gdAnswer := [] })

/-- Pair each descriptor number with an entry that the driver assigns: one that no loaded configuration of the partition is paired with
(R216, R282). -/
def pairGroups (n : Nat) (gs : AMap (List Word)) (s : State) : Option (AMap Nat) × State :=
  let taken := (s.part n).configs.flatMap fun e => e.2.gds.map (·.2)
  gs.foldl (fun a g => match a.1 with
    | none => a
    | some m =>
      let q := gdEntry n (taken ++ m.map (·.2)) a.2
      (q.1.map fun k => AMap.set m g.1 k, q.2)) (some [], s)

/-- Clear write permission on the pages of the CONST images, as the driver does when the loader asks it to (R285; log 69), with their
translations. -/
def sealPage (n : Nat) (s : State) (va : Nat) : State :=
  match findLeaf s (s.part n) va with
  | .error _ => s
  | .ok (a, e) =>
    let s := s.writeBytes a (leBytes 8 (putBits e 57 1 0).toNat) false
    { s with bays := s.bays.map fun y =>
        (y.1, { y.2 with tlb := y.2.tlb.filter fun t => !(t.part == n && t.base ≤ va && va < t.base + t.size) }) }

def sealConst (n : Nat) (f : ObjFile) (s : State) : State :=
  ((f.datas.filter (·.kind == 1)).flatMap (·.pages)).foldl (sealPage n) s

/-- Write the paired descriptors into the table. -/
def writeGroups (s : State) (n : Nat) (c : Loaded) : State :=
  c.gds.foldl (fun s e => s.writeBytes (gdAddr (s.part n) e.2) (wordsBytes ((AMap.get? c.obj.groups e.1).getD [])) false) s

/-! ## LOAD -/

/-- Install a configuration on every bay of the partition (R322). -/
def installOn (c : Loaded) (n win : Nat) (s : State) (b : Nat) : State :=
  s.modBay b fun y => { y with ctxs := AMap.set y.ctxs c.ctx (c.ctxRt n win) }

/-- The loader reads back what it has written on the partition's bays (R355). -/
def readBackOf (p : Part) (ctx : Nat) (s : State) : State :=
  (s.readBack.headD []).foldl (fun s e => if p.hasBay e.1 then noteReadBack s e.1 ctx e.2 else s) { s with readBack := s.readBack.tail }

/-- Does a PHYS window lie in memory of a partition: LPDDR granted to it, one loft slice by position, its host window (R193, R334)? -/
def physOk (p : Part) (a n : Nat) : Bool :=
  (a + n ≤ Config.lpddr && p.grants a n) ||
  (Config.loftByPos ≤ a && a < Config.loftByPos + 128 * Config.sliceStep && a % Config.sliceStep + n ≤ Config.slice) ||
  Config.hostWin ≤ a

/-- The first PHYS site whose window does not (R193). -/
def physBad (p : Part) (l : List ObjSite) : Bad :=
  eachRec 5 (fun _ (x : ObjSite) => let y := x.site 0 false false; !y.phys || physOk p y.wbase y.wsize) l

/-- The outcome of a LOAD whose object has been read: status, error, what is installed, and the state once the driver has assigned its
descriptor entries. ILLEGAL comes before CAPACITY (R289). -/
def loadObject (s : State) (n ctx : Nat) (bs : List Byte) : Nat × Word × Option (Loaded × ObjFile × State) :=
  let p := s.part n
  let err (e : Nat × Nat) : Word := word (e.1 * 2 ^ 32 + e.2)
  match fileBad p.ldBayWin.toNat bs with
  | .error e => (1, err e, none)
  | .ok f =>
    match (physBad p f.raw.obj.sites).or (imagesFate s n f.datas).1 with
    | some e => (1, err e, none)
    | none =>
      let o := f.raw.obj
      match fitObj o (p.configs.map (·.2)), pairGroups n o.groups s with
      | some r, (some g, t) =>
        (0, 0, some ({ handle := p.ldHandle.toNat, ctx := ctx, obj := o, runs := r, gds := g, dig := sha3Val bs
                       feham := match f.sect? 12 with | none => 0 | some _ => sha3Val (f.body 12) }, f, t))
      | none, _ => (2, err ((capBad f.raw (p.configs.map (·.2))).getD (2, 0)), none)
      | _, (none, _) => (2, err (7, 0), none)

/-- The status of a LOAD before its object is read. The order among the causes is the model's (log 29). -/
def loadEarly (s : State) (n ctx : Nat) : Option Nat :=
  let p := s.part n
  let h := p.ldHandle.toNat
  if noPart s p then some 5
  else if h = 0xFFFFFFFF ∨ (p.byHandle h).isSome then some 3
  else if (AMap.get? p.configs ctx).isSome then some 4
  else if s.link != 0 then some 6
  else none

/-- LOAD (R323): the object is read through the physical function, checked, and installed; its images and descriptors are written.
LDSTAT is BUSY until LOAD_COMPLETE. A load that meets a migrating page waits and begins anew. -/
def execLoad (n : Nat) (cmd : Word) (s : State) : Res :=
  .next (
    let p := s.part n
    let ctx := bits cmd 8 3
    let cseq := bits cmd 32 32
    if !loadCmdOk s n cmd 1 then s
    else
      let begun (st : Nat) (e : Word) (c : Option Loaded) (s : State) : State :=
        s.modPart n fun p => { p with ldStat := p.ldStat ||| 1, job := some ⟨cseq, st, e, c⟩ }
      match loadEarly s n ctx with
      | some st => begun st 0 none s
      | none =>
        let bs := s.readBytes (hostKey Config.parts p.ldAddr.toNat) p.ldLen.toNat
        match loadObject s n ctx bs with
        | (st, e, none) => begun st e none s
        | (_, _, some (c, f, t)) =>
          if (imagesFate s n f.datas).2 then
            ((parkImages n f.datas s).modPart n fun p => { p with ldStat := p.ldStat ||| 1 }).send (.load n cmd)
          else
            let s := writeGroups (sealConst n f (writeImages n f t)) n c
            begun 0 0 (some c) (readBackOf p ctx (p.bayList.foldl (installOn c n p.ldBayWin.toNat) s)))

/-- May a load under way complete? One that needs a bay whose zeroisation has begun since waits for its end (R374; log 72). -/
def loadDue (s : State) (n : Nat) : Bool :=
  (s.part n).job.any fun j => j.cfg.isNone || !((s.part n).bayList.any fun b => (s.bay b).zero)

/-- LOAD_COMPLETE (R323): the handle names the configuration from here on. -/
def execLoadComplete (n : Nat) (s : State) : Res :=
  .next (if !loadDue s n then s
  else
    match (s.part n).job with
    | none => s
    | some j => s.modPart n fun p =>
      let p := p.loadDone j.cseq j.status j.err
      match j.cfg with
      | none => p
      | some c => { p with configs := AMap.set p.configs c.ctx c })

/-! ## UNLOAD -/

/-- Free a context on a bay: its tables, runs and shares, with their poison marks. -/
def unloadBay (ctx : Nat) (s : State) (b : Nat) : State :=
  (freeCtx ctx s b).modBay b fun y =>
    let c := AMap.get? y.ctxs ctx
    let tiles := (c.map (·.tiles)).getD []
    let keys := (c.map (·.portKeys)).getD []
    let y := (y.bare ctx).withoutRecs ctx
    { y with
      acc := y.acc.filter fun e => !tiles.contains e.1
      ports := y.ports.filter fun q => !keys.contains q.1
      ctxs := AMap.erase y.ctxs ctx }

/-- Is a launch of a configuration other than DONE, or holding an image? -/
def Part.inUse (p : Part) (h : Nat) : Bool := p.launches.any fun l => l.cfg == h && (l.st != .finished || l.image.isSome)

/-- UNLOAD (R323). -/
def execUnload (n : Nat) (cmd : Word) (s : State) : Res :=
  .next (
    let p := s.part n
    let ctx := bits cmd 8 3
    let cseq := bits cmd 32 32
    let h := p.ldHandle.toNat
    if !loadCmdOk s n cmd 2 then s
    else
      let fail (st : Nat) : State := s.modPart n fun p => p.loadDone cseq st p.ldErr
      if noPart s p then fail 5
      else match p.byHandle h with
        | none => fail 3
        | some c =>
          if h = 0xFFFFFFFF ∨ c.ctx ≠ ctx then fail 3
          else if p.inUse h then fail 4
          else
            (p.bayList.foldl (unloadBay ctx) s).modPart n fun p =>
              { p.loadDone cseq 0 p.ldErr with configs := AMap.erase p.configs ctx })

end Sys2Proof.Machine
end

