-- ==== Sys2Proof/Machine/Distributor.lean ====
section
/-!
DEFINITION. Sys2Proof/Machine/Distributor.lean: selection (R325, R328), binding and marking (R329 to R331), restoring (R368,
R370), the configuration-complete wave (R357), turns (R331), the start of a pre-emption (R359).
-/
namespace Sys2Proof.Machine

open Sys2Proof

/-! ## Queues (R326) -/

/-- Does a launch hold bays? -/
def Launch.holdsBays (l : Launch) : Bool := l.st == .binding || l.st == .bound || l.st == .saving
def Launch.area (l : Launch) : Nat := l.rows * l.cols

/-- The place of a launch in order of acceptance: HSEQs rise modulo 2^32, the newest is the latest accepted. -/
def Part.acceptKey (p : Part) (l : Launch) : Nat := (l.hseq + 2 ^ 33 - (p.hacc + 1)) % 2 ^ 32

/-- Move launches to the heads of their queues, keeping their order of acceptance; or one to the tail of its queue. -/
def Part.toHeads (p : Part) (hs : List Nat) : Part :=
  { p with launches := sortBy p.acceptKey (p.launches.filter fun l => hs.contains l.hseq) ++
      p.launches.filter fun l => !hs.contains l.hseq }
def Part.toTailOf (p : Part) (h : Nat) : Part :=
  { p with launches := (p.launches.filter fun l => l.hseq != h) ++ p.launches.filter fun l => l.hseq == h }

/-- A launch put before the first launch of its priority that does not stay ahead of it. -/
def putBefore (l : Launch) (ahead : Launch → Bool) : List Launch → List Launch
  | [] => [l]
  | k :: ks => if k.prio = l.prio ∧ !ahead k then l :: k :: ks else k :: putBefore l ahead ks

/-- A pre-empted launch goes back to the head of its queue (R326). Ahead of it stay only those accepted before it that go back with it: they
were pre-empted for the same launch, and head the queue. -/
def Part.backToHead (p : Part) (h : Nat) : Part :=
  match p.launches.find? fun l => l.hseq == h with
  | none => p
  | some l =>
    let with_ (k : Launch) : Bool := k.image.isSome && !k.toTail && k.roomFor == l.roomFor && p.acceptKey k < p.acceptKey l
    { p with launches := putBefore l with_ (p.launches.filter fun k => k.hseq != h) }

/-- The selected launch. -/
def Part.selected (p : Part) : Option Launch := p.launches.find? fun l => l.st == .selected

/-- Bays bound to launches that pass. -/
def Part.boundBays (p : Part) (ok : Launch → Bool) : Nat :=
  p.launches.foldl (fun n l => if l.holdsBays && ok l then n + l.area else n) 0

/-- Is a launch eligible (R325)? -/
def Part.eligible (p : Part) (l : Launch) : Bool := l.area + p.boundBays (fun k => l.prio < k.prio) ≤ p.quota

/-- The launch R328 chooses: the first of those of the greatest priority. -/
def Part.choice (p : Part) : Option Launch :=
  if p.selected.isSome then none
  else
    let ls := p.launches.filter fun l => l.st == .ready && p.eligible l
    ls.foldl (fun a l => match a with
      | none => some l
      | some k => if k.prio < l.prio then some l else a) none

/-- SELECT_LAUNCH (R328): marks of an earlier selection are cleared (R331). -/
def execSelectLaunch (n : Nat) (s : State) : Res :=
  .next (match (s.part n).choice with
  | none => s
  | some l => s.modPart n fun p => { p with launches := p.launches.map fun k =>
      if k.hseq = l.hseq then { k with st := .selected, marked := false } else { k with marked := false } })

/-! ## Fitting (R324, R329) -/

/-- The bays of a rectangle in order of position, none if it leaves the device. -/
def rectangle (o rows cols : Nat) : Option (List Nat) :=
  if bayRow o + rows ≤ 20 ∧ bayCol o + cols ≤ 8 then
    some ((List.range (rows * cols)).map fun p => o + 8 * (p / cols) + p % cols)
  else none

/-- Does a bay take a launch's context, with the bays of the launches `free` taken as free? It must hold the loaded context and
no longer await zeroisation (R374). -/
def bayFits (s : State) (n : Nat) (l : Launch) (free : List Nat) (b : Nat) : Bool :=
  (s.part n).hasBay b && !s.offline.contains b && !(s.bay b).zero &&
  (match s.ctx? b l.ctx with
    | none => false
    | some c => c.part == n && (match c.bound with | none => true | some h => free.contains h))

/-- The first rectangle that fits, origins in ascending bay number. -/
def firstRect (s : State) (n : Nat) (l : Launch) (free : List Nat) : Option (List Nat) :=
  (List.range Config.bays).findSome? fun o =>
    match rectangle o l.rows l.cols with
    | none => none
    | some bs => if bs.all (bayFits s n l free) then some bs else none

/-- The region of a binding within the quota, with launches taken as gone. -/
def fitting (s : State) (n : Nat) (l : Launch) (free : List Nat) : Option (List Nat) :=
  let p := s.part n
  if p.boundBays (fun k => !free.contains k.hseq) + l.area ≤ p.quota then firstRect s n l free else none

/-- Candidates in the order of R329: ascending priority, the most recently bound first. -/
def ordered (ls : List Launch) : List Launch :=
  sortBy (fun k : Launch => k.prio) ((sortBy (fun k : Launch => k.boundAt) ls).reverse)

/-- The launches whose saves make room for a selected launch. -/
def Part.makingRoom (p : Part) (l : Launch) : List Nat :=
  (p.launches.filter fun k => k.st == .saving && k.roomFor == some l.hseq).map (·.hseq)

/-- The shortest run of candidates that makes room, beside the saves under way for it. -/
def makeRoom (s : State) (n : Nat) (l : Launch) (ls : List Launch) : Option (List Launch) :=
  ((List.range ls.length).map fun i => ls.take (i + 1)).find? fun k =>
    (fitting s n l ((s.part n).makingRoom l ++ k.map (·.hseq))).isSome

/-- Of launches that make room, those it takes: a later one goes without where the earlier ones do (R331). -/
def needed (s : State) (n : Nat) (l : Launch) (ls : List Launch) : List Launch :=
  ls.reverse.foldl (fun ks k =>
    let rest := ks.filter fun j => j.hseq != k.hseq
    if (fitting s n l ((s.part n).makingRoom l ++ rest.map (·.hseq))).isSome then rest else ks) ls

/-- The launches that a selected launch with no room has pre-empted, and whether they go to the tails of their queues: those R329 marks,
else those R331 takes; none while the saves under way for it will make room. -/
def victims (s : State) (n : Nat) (l : Launch) : Option (Bool × List Launch) :=
  let p := s.part n
  let may (k : Launch) : Bool := k.st == .bound && !k.cancelled
  if (fitting s n l (p.makingRoom l)).isSome then none
  else
    match makeRoom s n l (ordered (p.launches.filter fun k => may k && k.prio < l.prio)) with
    | some ls => some (false, ls)
    | none =>
      (makeRoom s n l (ordered (p.launches.filter fun k => may k && k.marked && k.prio == l.prio))).map fun ls => (true, needed s n l ls)

/-- The region a selected launch binds to now: the first that fits, once the saves made for it are complete (R329) and no token of an
ended launch is still under way to it (log 67). -/
def bindsTo (s : State) (n : Nat) (l : Launch) : Option (List Nat) :=
  if (s.part n).makingRoom l != [] then none
  else (fitting s n l []).filter fun m => !m.any fun b => tokensOnWay s b l.ctx

/-! ## Pre-emption begins (R329, R331, R359, R364) -/

/-- Images of a partition: offset and length in whole units. -/
def Part.imageRuns (p : Part) : List (Nat × Nat) :=
  p.launches.filterMap fun l => l.image.map fun i => (i.off, (Nat.max i.len 1 + 0xFFFF) / 0x10000 * 0x10000)

/-- The lowest free place of the image area: its start, or the end of an image. -/
def Part.imagePlace (p : Part) : Option Nat :=
  (sortBy id (0 :: p.imageRuns.map fun r => r.1 + r.2)).find? fun o =>
    o < p.imgSize.toNat * 0x10000 && !p.imageRuns.any (placesMeet (o, 0x10000))

/-- The positions of a launch that get a marker from the origin. -/
def Part.markedFirst (p : Part) (l : Launch) : List Nat :=
  match p.loadedOf l with
  | none => []
  | some c => Sys2Proof.Machine.markedFirst c.obj.infos c.obj.recipes c.obj.seeds c.obj.npos

/-- Pre-empt a launch for a selected one: SAVING, a new cut number, an image run, MARK from the origin. With no place for an image the
cut is cancelled with cause 2 before it begins. -/
def preempt (n h : Nat) (tail : Bool) (s : State) (l : Launch) : State :=
  match (s.part n).imagePlace with
  | none => cancelCut s n l 2
  | some off =>
    let m := s.regionMap n l
    let o := m.headD 0
    let k := (l.cutNo + 1) % 256
    let s := s.modLaunch n l.hseq fun l =>
      { l with st := .saving, cutNo := k, toTail := tail, roomFor := some h, savedBy := [], lsavedBy := [], wave := none
               lastSum := none, image := some { off := off, len := 0, origin := o, bays := [] } }
    ((s.part n).markedFirst l).foldl (fun s p => match m[p]? with
      | none => s
      | some b => s.emit (wavePacket 5 b o l.ctx k 0 1 0 0)) s

/-- What a selected launch with no room brings about (R329, R331). -/
def seekRoom (s : State) (n : Nat) (l : Launch) : State :=
  match victims s n l with
  | none => s
  | some (tail, ls) => ls.foldl (preempt n l.hseq tail) s

/-! ## Binding (R324, R327, R335, R22, R265) -/

/-- A launch's context bound on the bay of a position; the words that the load's read-back found wrong are poisoned (R355). -/
def bindBay (c : Loaded) (l : Launch) (m : List Nat) (s : State) (pos : Nat) : State :=
  match m[pos]? with
  | none => s
  | some b =>
    let s := s.modBay b fun y =>
      let y := putTables c pos (y.without l.ctx)
      { y with ctxs := AMap.upd y.ctxs l.ctx fun x =>
          { x.clear with
            bound := some l.hseq, position := pos, rows := l.rows, cols := l.cols, map := m, since := y.clk, scopePol := l.scopePol
            chansOut := c.obj.chansOut pos, chansIn := c.obj.chansIn pos } }
    (((s.ctx? b l.ctx).map (·.wrong)).getD []).foldl (fun s e => poisonConfig s b e) s

/-- The bays of an image's positions at its save. -/
def Image.oldMap (i : Image) (ctx : Nat) : List Nat :=
  (i.bays.findSome? fun e => (AMap.get? e.2.bay.ctxs ctx).map (·.map)).getD []

/-- The bay that is now where a bay was. -/
def nowAt (old m : List Nat) (b : Nat) : Nat := ((placeOf (· == b) old 0).bind fun p => m[p]?).getD b

/-- Restore one position's part (R368, steps 2 to 4): state, granules, channel tokens, readers. -/
def restoreAt (l : Launch) (old m : List Nat) (s : State) (e : Nat × BayImage) : State :=
  match m[e.1]? with
  | none => s
  | some b =>
    let now := nowAt old m
    let s := s.modBay b (restoreBay l.ctx b now e.2.bay)
    e.2.granules.foldl (restoreGranule l.ctx b) s

/-- The tokens of its CHAN parts are placed, those of lower source positions first (R368). -/
def restoreToks (l : Launch) (m : List Nat) (s : State) (e : Nat × BayImage) : State :=
  match m[e.1]? with
  | none => s
  | some b =>
    let toks := ((AMap.get? e.2.bay.ctxs l.ctx).map (·.recorded)).getD []
    (sortBy (fun t : ChanTok => t.src) toks).foldl (fun s t => placeEntry s { t.msg with bay := b, chan := none }) s

def restoreReaders (old m : List Nat) (s : State) (e : Nat × BayImage) : State :=
  match m[e.1]? with
  | none => s
  | some b => e.2.readers.foldl (restoreReader (nowAt old m) b) s

/-- A frozen unit named by the bay now at its position. -/
def FaultAt.move (now : Nat → Nat) : FaultAt → FaultAt
  | .inst b g ix => .inst (now b) g ix
  | .engine b k w => .engine (now b) k w
  | .island b i p d => .island (now b) i p d
  | u => u

/-- Restore an image and free it; the outstanding faults of the launch keep their DSEQ (R363). A halt that committed after a bay's
snapshot closes that bay too (R273). -/
def restoreImage (s : State) (n : Nat) (l : Launch) (i : Image) (m : List Nat) : State :=
  let old := i.oldMap l.ctx
  let i := readImage s n l i old (posIn old)
  let s := i.bays.foldl (restoreAt l old m) s
  let s := if l.halt.isSome then m.foldl (haltBay l.ctx) s else s
  let s := i.bays.foldl (restoreToks l m) s
  let s := i.bays.foldl (restoreReaders old m) s
  s.modPart n fun p =>
    { p.modLaunch l.hseq (fun l => { l with image := none }) with
      faults := p.faults.map fun f =>
        if f.body.lseq = l.hseq ∧ f.body.frz ≠ 0 then { f with unit := f.unit.move (nowAt old m) } else f }

/-- Bind a launch to a region: tables, slice map, image, and CFG to every position. -/
def bindTo (s : State) (n : Nat) (l : Launch) (m : List Nat) : State :=
  match (s.part n).loadedOf l with
  | none => s
  | some c =>
    let o := m.headD 0
    let l := { l with scopePol := match l.image with
      | some i => imageScope s n i
      | none => if l.everBound then l.scopePol else (s.part n).scopePol }
    let s := s.modPart n fun p =>
      { p with launches := p.launches.map fun k =>
          if k.hseq = l.hseq then
            { k with st := .binding, everBound := true, origin := o, acks := [], marked := false, scopePol := l.scopePol, wave := none
                     lastSum := none, wseq := (k.wseq + 1) % 256 }
          else { k with marked := false } }
    let s := (List.range m.length).foldl (bindBay c l m) s
    let s := match l.image with
      | none => s
      | some i => restoreImage s n l i m
    m.foldl (fun s b => s.emit (wavePacket 2 b o l.ctx ((l.wseq + 1) % 256) 0 0 0 0)) s

/-- The launch is HELD: its image fails its check at an offset (R370). -/
def holdLaunch (s : State) (n : Nat) (l : Launch) (off : Nat) : State :=
  let s := s.modPart n fun p => { p with launches := p.launches.map fun k =>
    if k.hseq = l.hseq then { k with st := .held, marked := false } else { k with marked := false } }
  s.fault n { RecBody.blank 0x20 2 with ctx := l.ctx, lseq := l.hseq, d0 := locWord 0xF 0, d1 := word off } (.restore l.hseq)

/-- BIND (R329, R331, R368, R370). -/
def execBind (n : Nat) (s : State) : Res :=
  .next (match (s.part n).selected with
  | none => s
  | some l =>
    match bindsTo s n l with
    | none => if (fitting s n l []).isSome then s else seekRoom s n l
    | some m =>
      match l.image with
      | some i =>
        match imageFails s n l i with
        | some off => holdLaunch s n l off
        | none => bindTo s n l m
      | none => bindTo s n l m)

/-- Would BIND change anything? -/
def bindDue (s : State) (n : Nat) : Bool :=
  (s.part n).selected.any fun l =>
    (bindsTo s n l).isSome || ((fitting s n l []).isNone && (victims s n l).isSome)

/-! ## The configuration-complete wave (R357) -/

/-- CFG: the bay's tables are installed; it answers CFGACK. -/
def execCfg (b : Nat) (p : Packet) (s : State) : Res :=
  .next (match s.ctx? b p.ctx with
  | none => s
  | some c => if c.bound.isNone then s else s.emit (wavePacket 3 p.src b p.ctx (p.body 212 8) c.position 0 0 0))

/-- CFGACK: when every position has answered, the launch is BOUND, its turn begins and its held seeds are released. -/
def execCfgack (b : Nat) (p : Packet) (s : State) : Res :=
  .next (match originLaunch s b p.ctx with
  | none => s
  | some (n, l) =>
    if l.st != .binding || p.body 212 8 != l.wseq then s
    else
      let acks := insertNat (p.body 205 7) l.acks
      if acks.length < l.area then s.modLaunch n l.hseq fun l => { l with acks := acks }
      else
        let s := s.modPart n fun q =>
          { q.modLaunch l.hseq (fun l => { l with st := .bound, acks := [], turns := 0, boundAt := q.bindNo + 1 }) with
            bindNo := q.bindNo + 1 }
        releaseSeeds s n l)

/-! ## Turns (R331) -/

/-- Fires between two turn notices of a bay. -/
def turnFires : Nat := 2 ^ 24

/-- Is a turn notice due? -/
def noticeDue (s : State) (b ctx : Nat) : Bool :=
  (s.ctx? b ctx).any fun c => c.bound.isSome && c.fireStart + turnFires ≤ c.fires

/-- TURN_NOTICE: a TURN packet goes to the origin. -/
def execTurnNotice (b ctx : Nat) (s : State) : Res :=
  .next (match s.ctx? b ctx with
  | none => s
  | some c =>
    if !noticeDue s b ctx then s
    else
      (s.modCtx b ctx fun c => { c with fireStart := c.fireStart + turnFires }).emit
        (wavePacket 4 c.origin b ctx 0 c.position 0 0 0))

/-- TURN: the origin counts; the 256th notice ends the turn. A cancelled cut's launch is a candidate again (R362). -/
def execTurn (b : Nat) (p : Packet) (s : State) : Res :=
  .next (match originLaunch s b p.ctx with
  | none => s
  | some (n, l) =>
    let done := 256 ≤ l.turns + 1
    let mark := done && l.st == .bound && (s.part n).selected.any fun k => k.prio == l.prio
    s.modLaunch n l.hseq fun l =>
      { l with cancelled := false, turns := if done then 0 else l.turns + 1, marked := l.marked || mark })

end Sys2Proof.Machine
end

