-- ==== Sys2Proof/Machine/PreemptEvents.lean ====
section
/-!
DEFINITION. Sys2Proof/Machine/PreemptEvents.lean: the pre-emption cut (R358 to R363): MARKER, SNAPSHOT, BAY_SAVE_COMPLETE,
SAVED, LSAVE, LSAVED, CANCEL.
-/
namespace Sys2Proof.Machine

open Sys2Proof

/-! ## Markers -/

/-- Answer every reader of a present word of a context on a bay (R362); entries of its lists have come free. -/
def answerPresent (ctx : Nat) (s : State) (b : Nat) : State :=
  let due (s : State) (r : Reader) : Bool := r.ctx == ctx && present (s.bay b) ctx r.off
  let rs := (s.bay b).readers.filter (due s)
  let s' := s.modBay b fun y => { y with readers := y.readers.filter fun r => !due s r }
  kickLdos (rs.foldl (fun s r => answerReader s b r) s')

/-- A bay leaves a cut: recorded tokens are placed in recorded order, readers are answered, firing restarts (R362). -/
def leaveCut (ctx : Nat) (s : State) (b : Nat) : State :=
  let toks := ((s.ctx? b ctx).map (·.recorded)).getD []
  let s := s.modBay b fun y =>
    { y with noReply := y.noReply.filter (· != ctx), ctxs := AMap.upd y.ctxs ctx fun c => { c with cut := none, recorded := [] } }
  let s := toks.foldl (fun s t => placeEntry s { t.msg with chan := none }) s
  answerPresent ctx s b

/-- The launch bound to a bay for a context, with its partition. -/
def boundLaunch (s : State) (b ctx : Nat) : Option (Nat × Launch) :=
  (s.ctx? b ctx).bind fun c => c.bound.bind fun h => (s.launch? c.part h).map fun l => (c.part, l)

/-- MARKER (R359, R360): on the first marker of a cut the bay stops, and its memory nodes answer no deferred reader; a marker of a
channel brings that channel's count. -/
def execMarker (b : Nat) (p : Packet) (s : State) : Res :=
  .next (match boundLaunch s b p.ctx with
  | none => s
  | some (_, l) =>
    let k := p.body 212 8
    if l.st != .saving || l.cutNo != k then s
    else
      let mine (s : State) : Bool := ((s.ctx? b p.ctx).bind (·.cut)).any fun c => c.wseq == k
      let s := if mine s then s
        else
          let s := if ((s.ctx? b p.ctx).bind (·.cut)).isSome then leaveCut p.ctx s b else s
          s.modBay b fun y =>
            { y with
              noReply := insertNat p.ctx y.noReply
              ctxs := AMap.upd y.ctxs p.ctx fun c => { c with cut := some ⟨k, true, false, [], false⟩ } }
      if p.body 200 1 = 1 then s
      else s.modCtx b p.ctx fun c =>
        { c with cut := c.cut.map fun q => { q with marks := q.marks ++ [(p.body 205 7, p.body 128 32)] } })

/-! ## The snapshot (R360) -/

/-- Has an island port of a bay completed its current work for a cut? A stalled generator's work stays as it stands. -/
def portSettled (s : State) (b isl p : Nat) : Bool :=
  let q := s.port b isl p
  (acceptNo q).isNone && ((q.stall.isSome || q.stallDst.isSome) ||
    (match q.queue.head? with
      | none => true
      | some k =>
        if isl = 0 then (islandWait s b isl p).isSome && (k.op == 0xB0 || k.op == 0xB1)
        else
          k.op != 0xBA && !startReady s b isl p && !indexReady s b isl p && !readReady s b isl p && !endReady s b isl p &&
          q.run.all fun x => x.tiles.isEmpty && (!speerIn k || x.asked == x.next || !speerUp s b k)))

/-! ## The image grows (R364) -/

/-- Where an image's run ends: the next image of the area, or the area's end. -/
def Part.runEnd (p : Part) (off : Nat) : Nat :=
  (p.imageRuns.filter fun r => off < r.1).foldl (fun e r => Nat.min e r.1) (p.imgSize.toNat * 0x10000)

/-- The image of a cut as it stands, changed and written to its run; an image that would pass the run's end cancels the cut. `l` is the
launch as the header tells of it. -/
def growImage (s : State) (n : Nat) (l : Launch) (f : Image → Image) : State :=
  match l.image with
  | none => s
  | some i =>
    let p := s.part n
    let i := f i
    let bs := imageBytes l (p.nbvOf l) i (posIn (s.regionMap n l))
    if p.runEnd i.off < i.off + bs.length then cancelCut s n l 2
    else
      let s := s.modLaunch n l.hseq fun l => { l with image := some { i with len := bs.length } }
      homeWrite s (imageEnc p n) (imageKey p i) bs (List.replicate bs.length false)

/-- The launch as its image's header tells of it (R365). -/
def Launch.saved (s : State) (n : Nat) (l : Launch) : Launch :=
  { l with fires := l.fires + regionFires s n l, preempts := l.preempts + 1 }

/-- A token of a context that can still be placed on its bay. -/
def placeable (s : State) (b ctx : Nat) (i : Instr) : Bool :=
  match i with
  | .tokenArrive m => m.bay == b && m.ctx == ctx && issueLoad s b m.el < Config.issueSets
  | .gateEntryToken m => m.bay == b && m.ctx == ctx && entryTakes s m
  | _ => false

/-- May a bay take its snapshot? A frozen region holds no cut up: it fires nothing (R363). -/
def snapReady (s : State) (b ctx : Nat) : Bool :=
  let y := s.bay b
  match (s.ctx? b ctx).bind (·.cut) with
  | none => false
  | some k =>
    k.stopped && !k.snapped && ((s.ctx? b ctx).any (·.frozen) || (pinnedLive y ctx).isEmpty) && !s.flight.any (placeable s b ctx) &&
    y.reqs.all (fun r => r.ctx != ctx || r.deferred) && y.xreqs.all (fun q => q.ctx != ctx || q.held) &&
    y.reds.all (·.2.ctx != ctx) && y.steals.all (·.1.ctx != ctx) && y.probes.all (·.1.ctx != ctx) &&
    (portsOfCtx s b ctx).all fun p => portSettled s b p.1 p.2

/-- Tokens that wait in the bay's own networks for room are taken with it: those of frames are placed, those of entries are
recorded under its own position (log 30). -/
def gatherTokens (b ctx pos : Nat) (s : State) : State :=
  let mine (i : Instr) : Bool := match i with
    | .tokenArrive m => m.bay == b && m.ctx == ctx
    | .gateEntryToken m => m.bay == b && m.ctx == ctx && m.chan.isNone
    | _ => false
  let l := s.flight.filter mine
  l.foldl (fun s i => match i with
    | .tokenArrive m => arriveToken s m
    | .gateEntryToken m => s.modCtx b ctx fun c => { c with recorded := c.recorded ++ [⟨pos, m⟩] }
    | _ => s) { s with flight := s.flight.filter fun i => !mine i }

/-- What a bay saves at its snapshot: everything but its granules and readers (R361). -/
def saveFirst (s : State) (b ctx wseq : Nat) : State :=
  match s.ctx? b ctx, boundLaunch s b ctx with
  | some c, some (n, l) =>
    if l.st != .saving || l.cutNo != wseq then s
    else growImage s n (l.saved s n) fun i => { i with bays := AMap.set i.bays c.position ⟨saveBay (s.bay b) ctx, [], []⟩ }
  | _, _ => s

/-- SNAPSHOT (R360, step 3; R361; R399): MARK with SENT goes to every position the bay has a channel to. The bay first spills its wait
counters; while a spill waits for a migration or a walk, so does the snapshot. -/
def execSnapshot (b ctx : Nat) (s : State) : Res :=
  .next (match s.ctx? b ctx with
  | none => s
  | some c =>
    if !snapReady s b ctx then s
    else
      let k := (c.cut.map (·.wseq)).getD 0
      let r := spillAll ctx (true, gatherTokens b ctx c.position s) b
      if !r.1 then r.2
      else
      let s := r.2.modCtx b ctx fun c => { c with cut := c.cut.map fun q => { q with snapped := true } }
      let s := saveFirst s b ctx k
      c.chansOut.foldl (fun s p => match c.bayAt p with
        | none => s
        | some t => s.emit (wavePacket 5 t b ctx k c.position 0 0 (AMap.getD c.sent p 0))) s)

/-- Is the bay's save complete: every channel's marker has come with the count received? Replies to
deferred readers are taken back as they arrive. -/
def saveReady (s : State) (b ctx : Nat) : Bool :=
  (s.ctx? b ctx).any fun c => c.cut.any fun k =>
    k.snapped && !k.saved &&
      c.chansIn.all fun a => k.marks.any fun m => m.1 == a && m.2 % 2 ^ 32 == AMap.getD c.rcvd a 0 % 2 ^ 32

/-- BAY_SAVE_COMPLETE (R360): SAVED goes to the origin. -/
def execBaySaveComplete (b ctx : Nat) (s : State) : Res :=
  .next (match s.ctx? b ctx with
  | none => s
  | some c =>
    if !saveReady s b ctx then s
    else
      (s.modCtx b ctx fun c => { c with cut := c.cut.map fun q => { q with saved := true } }).emit
        (wavePacket 6 c.origin b ctx ((c.cut.map (·.wseq)).getD 0) c.position 0 0 0))

/-! ## The second stage -/

/-- The launch whose cut a packet to the origin belongs to. -/
def cutOf (s : State) (b : Nat) (p : Packet) : Option (Nat × Launch) :=
  (originLaunch s b p.ctx).filter fun e => e.2.st == .saving && e.2.cutNo == p.body 212 8

/-- SAVED (R360): with every position's, LSAVE goes out. -/
def execSaved (b : Nat) (p : Packet) (s : State) : Res :=
  .next (match cutOf s b p with
  | none => s
  | some (n, l) =>
    let got := insertNat (p.body 205 7) l.savedBy
    let s := s.modLaunch n l.hseq fun l => { l with savedBy := got }
    if got.length < l.area ∨ got.length = l.savedBy.length then s
    else (s.regionMap n l).foldl (fun s t => s.emit (wavePacket 8 t b l.ctx l.cutNo 0 0 0 0)) s)

/-- What a bay saves at LSAVE: its granules, its readers, and the tokens recorded since its snapshot. -/
def saveRest (s : State) (b ctx : Nat) (i : BayImage) : BayImage :=
  let toks := ((s.ctx? b ctx).map (·.recorded)).getD []
  { bay := { i.bay with ctxs := AMap.upd i.bay.ctxs ctx fun c => { c with recorded := toks } }
    granules := saveGranules s b ctx
    readers := (s.bay b).readers.filter fun r => r.ctx == ctx }

/-- LSAVE (R360): the bay's parts are complete. -/
def execLsave (b : Nat) (p : Packet) (s : State) : Res :=
  .next (match s.ctx? b p.ctx, boundLaunch s b p.ctx with
  | some c, some (n, l) =>
    if l.st != .saving || l.cutNo != p.body 212 8 then s
    else
      (growImage s n (l.saved s n) fun i => { i with bays := AMap.upd i.bays c.position (saveRest s b p.ctx) }).emit
        (wavePacket 9 p.src b p.ctx l.cutNo c.position 0 0 0)
  | _, _ => s)

/-- The image is complete and the launch is READY, its bays free (R327): at the tail of its queue when it made room under R331, else at
the head, before the launches accepted after it that R326 puts there too. -/
def completeImage (s : State) (n : Nat) (l : Launch) : State :=
  let s := (s.regionBays n l.ctx l.hseq).foldl (fun s b => s.modBay b (·.withoutRecs l.ctx)) s
  let s := unbind s n l
  s.modPart n fun p =>
    let p := p.modLaunch l.hseq fun l =>
      { l with st := .ready, marked := false, preempts := l.preempts + 1, savedBy := [], lsavedBy := [], wave := none, lastSum := none }
    if l.toTail then p.toTailOf l.hseq else p.backToHead l.hseq

/-- LSAVED (R360). -/
def execLsaved (b : Nat) (p : Packet) (s : State) : Res :=
  .next (match cutOf s b p with
  | none => s
  | some (n, l) =>
    let got := insertNat (p.body 205 7) l.lsavedBy
    if got.length < l.area then s.modLaunch n l.hseq fun l => { l with lsavedBy := got }
    else completeImage s n l)

/-- CANCEL (R362). -/
def execCancel (b : Nat) (p : Packet) (s : State) : Res :=
  .next (match (s.ctx? b p.ctx).bind (·.cut) with
  | none => s
  | some k => if k.wseq == p.body 212 8 then kick (leaveCut p.ctx s b) b else s)

end Sys2Proof.Machine
end

