-- ==== Sys2Proof/Machine/HostEvents.lean ====
section
/-!
DEFINITION. Sys2Proof/Machine/HostEvents.lean: the launch and seed ports (R308 to R318, R332), records to the host (R312, R333,
R347, R348), the Zahorn link (R309, R313), accesses of the host (R316, R374, R375), offline bays (R324), bridges (R222).
-/
namespace Sys2Proof.Machine

open Sys2Proof

/-! ## Sequence numbers (R310, R311) -/

/-- Does a precede b in serial order? -/
def serialBefore (a b : Nat) : Bool :=
  let d := (b + 2 ^ 32 - a % 2 ^ 32) % 2 ^ 32
  1 ≤ d && d < 2 ^ 31

/-- Take a write's HSEQ: is it accepted, and the partition after it? -/
def Part.acceptSeq (p : Part) (h : Nat) : Bool × Part :=
  if h = (p.hacc + 1) % 2 ^ 32 then (true, { p with hacc := h })
  else if h = p.hacc ∨ serialBefore h p.hacc then (false, { p with hdup := (p.hdup + 1) % 2 ^ 32 })
  else (false, { p with hgapCnt := (p.hgapCnt + 1) % 2 ^ 32, hgapSeq := h })

/-- Note a refusal (R314). -/
def Part.refuse (p : Part) (h cause : Nat) : Part := { p with refSeq := h, refCause := cause }

/-- A write of the wrong size or place (R308). -/
def Part.badWrite (p : Part) : Part := { p with hbad := (p.hbad + 1) % 2 ^ 32 }

/-! ## The launch port (R315, R332) -/

/-- A launch record's fields. -/
structure LaunchRec where
  hseq    : Nat
  cfg     : Nat
  prio    : Nat
  rows    : Nat
  cols    : Nat
  nwait   : Nat
  seedCnt : Nat
  waits   : List Nat
  notify  : Nat
  zeroOk  : Bool
  deriving DecidableEq, Repr

/-- Read a record: bits 511:320 and 95:91 and the WAITs past NWAIT are zero. -/
def launchRec (d : BitVec 1280) : LaunchRec :=
  let nw := bits d 88 3
  let ws := (List.range 4).map fun i => bits d (128 + 32 * i) 32
  { hseq := bits d 0 32, cfg := bits d 32 32, prio := bits d 64 8, rows := bits d 72 8, cols := bits d 80 8, nwait := nw
    seedCnt := bits d 96 32, waits := ws.take nw, notify := bits d 256 64
    zeroOk := bits d 320 192 == 0 && bits d 91 5 == 0 && (ws.drop nw).all (· == 0) }

/-- Is a record malformed (R314 BADREC)? -/
def LaunchRec.bad (r : LaunchRec) : Bool := !r.zeroOk || 127 < r.prio || 4 < r.nwait

/-- Does every WAIT precede the record (R314)? -/
def LaunchRec.waitsOk (r : LaunchRec) : Bool := r.waits.all fun w => serialBefore w r.hseq

/-- The launch of a record. -/
def LaunchRec.launch (r : LaunchRec) (ctx : Nat) : Launch :=
  { hseq := r.hseq, cfg := r.cfg, ctx := ctx, prio := r.prio, rows := r.rows, cols := r.cols, waits := r.waits
    seedCnt := r.seedCnt, notify := r.notify, st := .queued, everBound := false, origin := 0xFFFF, boundAt := 0, acks := []
    fires := 0, seeds := 0, preempts := 0, marked := false, toTail := false, roomFor := none, cancelled := false, turns := 0
    wseq := 0, wave := none, lastSum := none, cutNo := 0, savedBy := [], lsavedBy := [], halt := none, scopePol := 0
    image := none, brk := none, quiet := false }

/-- The first cause that refuses a launch record, or the configuration it names (R314). -/
def launchCheck (p : Part) (r : LaunchRec) : Except Nat Loaded :=
  if r.bad then .error 1
  else match p.byHandle r.cfg with
    | none => .error 2
    | some c =>
      if r.rows ≠ c.obj.rows ∨ r.cols ≠ c.obj.cols then .error 3
      else if !r.waitsOk then .error 4
      else .ok c

/-- A launch record, a priority change among them, is refused: the cause is noted, and its completion record says REFUSED (R314,
R332, R333). -/
def Part.refuseRec (p : Part) (r : LaunchRec) (cause : Nat) : Part :=
  (p.refuse r.hseq cause).create (.comp (p.compOf (r.launch 0) 2 cause))

/-- An accepted launch record: it joins its queue at the tail, READY when its waits are satisfied, or it is refused (R314, R326). -/
def Part.takeLaunch (p : Part) (r : LaunchRec) : Part :=
  match launchCheck p r with
  | .error c => p.refuseRec r c
  | .ok c => { p with launches := p.launches ++ [r.launch c.ctx] }.refreshReady

/-- A priority change's own fields (R332). -/
def LaunchRec.changeOk (r : LaunchRec) : Bool :=
  !r.bad && r.nwait == 1 && r.rows == 0 && r.cols == 0 && r.seedCnt == 0 && r.notify == 0

/-- The effect of a priority change on its target, by the target's state (R332). -/
def Part.setPrio (p : Part) (h prio : Nat) : Part :=
  let q := p.modLaunch h fun l => if l.st == .finished then l else { l with prio := prio }
  match p.launches.find? fun l => l.hseq == h with
  | some l => if l.st == .queued || l.st == .ready then q.toTailOf h else q
  | none => q

/-- An accepted priority change; one that takes effect writes no completion record (log 43). -/
def Part.takeChange (p : Part) (r : LaunchRec) : Part :=
  if !r.changeOk then p.refuseRec r 1
  else if !r.waitsOk then p.refuseRec r 4
  else p.setPrio (r.waits.headD 0) r.prio

/-- The handle that makes a record a priority change. -/
def noHandle : Nat := 0xFFFFFFFF

/-- Is the partition's function presented: the link is up, and boot has not failed (R378)? -/
def vfUp (s : State) (n : Nat) : Bool :=
  s.link == 0 && n < Config.parts && (match s.boot with | .failed _ => false | _ => true)

/-- A write to the launch port: lost while the link is down, dropped when it is not 64 bytes at the port, else sequenced. -/
def launchPort (n : Nat) (w : PortWrite) (s : State) : State :=
  if !vfUp s n then s
  else if w.size ≠ 64 ∨ !w.aligned then s.modPart n Part.badWrite
  else
    let r := launchRec w.data
    let q := (s.part n).acceptSeq r.hseq
    s.modPart n fun _ => if !q.1 then q.2 else if r.cfg = noHandle then q.2.takeChange r else q.2.takeLaunch r

/-- LAUNCH_RECORD_WRITE (R315). -/
def execLaunchRecordWrite (n : Nat) (w : PortWrite) (s : State) : Res := .next (launchPort n w s)

/-- PRIORITY_CHANGE (R332). -/
def execPriorityChange (n : Nat) (w : PortWrite) (s : State) : Res := .next (launchPort n w s)

/-! ## Seed ports (R317, R318) -/

/-- The first cause that refuses a seed (R314), or its launch. -/
def seedCheck (p : Part) (k : Nat) (d : BitVec 1280) : Except Nat Launch :=
  let vector := d.getLsbD 192
  if bits d 193 63 ≠ 0 ∨ (vector ∧ bits d 128 64 ≠ 0) then .error 1
  else match p.launches.find? fun l => l.hseq == bits d 32 32 && l.takesSeeds with
    | none => .error 5
    | some l =>
      match (p.loadedOf l).bind (·.seedPort k) with
      | none => .error 9
      | some (e, h) =>
        if !seedFits e h (word (bits d 64 64)) vector || (h.entNet e.entry == 2 && 1 < bits d 128 64) then .error 8
        else if l.seedCnt ≤ l.seeds then .error 6
        else if !l.seedsOpen && Config.heldSeeds ≤ p.seeds.length then .error 7
        else .ok l

/-- A write to a seed port: 32 bytes, 160 with VEC. -/
def seedWrite (n k : Nat) (w : PortWrite) (s : State) : State :=
  let d := w.data
  let vector := d.getLsbD 192
  if !vfUp s n ∨ 4096 ≤ k then s
  else if w.size ≠ (if vector then 160 else 32) ∨ !w.aligned then s.modPart n Part.badWrite
  else
    let h := bits d 0 32
    let q := (s.part n).acceptSeq h
    let s := s.modPart n fun _ => q.2
    if !q.1 then s
    else match seedCheck q.2 k d with
      | .error c => s.modPart n fun p => p.refuse h c
      | .ok l =>
        let l := { l with seeds := l.seeds + 1 }
        let v : Val := if vector then .vec (d.extractLsb' 256 1024) else .sc (word (bits d 128 64))
        takeSeed (s.modLaunch n l.hseq fun _ => l) n l (some h) k (word (bits d 64 64)) ⟨v, false, false⟩

/-- SEED_WRITE (R317). -/
def execSeedWrite (n k : Nat) (w : PortWrite) (s : State) : Res := .next (seedWrite n k w s)

/-! ## Records (R312, R333, R347, R348) -/

/-- A fault or event record as a number of 512 bits (R348). -/
def recNat (dseq lost : Nat) (r : RecBody) : Nat :=
  fieldAt 0 32 dseq + fieldAt 32 5 r.slot + fieldAt 37 7 (r.elem.getD 0x7F) + fieldAt 44 2 r.frz + fieldAt 46 3 r.ctx +
  fieldAt 49 8 (r.bay.getD 0xFF) + fieldAt 57 7 (r.pos.getD 0x7F) + fieldAt 64 8 r.ix + fieldAt 72 5 r.hnum +
  fieldAt 77 3 r.gate + fieldAt 80 8 lost + fieldAt 88 8 r.code + fieldAt 96 32 r.lseq + fieldAt 128 64 r.tag.toNat +
  fieldAt 192 64 r.cyc + fieldAt 256 64 r.d0.toNat + fieldAt 320 64 r.d1.toNat + fieldAt 384 64 r.d2.toNat +
  fieldAt 448 64 r.d3.toNat

/-- A completion record (R333). -/
def compNat (dseq : Nat) (r : CompBody) : Nat :=
  fieldAt 0 32 dseq + fieldAt 32 32 r.hseq + fieldAt 296 8 r.status + fieldAt 304 16 r.cause + fieldAt 320 32 r.seeds +
  fieldAt 352 32 r.cfg + fieldAt 384 8 r.nbv + fieldAt 392 8 r.prio + fieldAt 400 16 r.origin + fieldAt 416 32 r.preempts +
  fieldAt 448 64 r.fires

/-- 0 fault, 1 event, 2 completion. -/
def RecKind.sort : RecKind → Nat
  | .fault _ => 0
  | .event _ _ => 1
  | .comp _ => 2

/-- Has a ring room: its base has been set, with FQLOG 6 to 16, and PROD − CONS is below its size (R347)? -/
def ringRoom (base : Word) (prod cons : Nat) : Bool :=
  6 ≤ bits base 0 5 && (prod + 2 ^ 32 - cons % 2 ^ 32) % 2 ^ 32 < 2 ^ bits base 0 5

/-- Has a record a place to be written to? -/
def Part.roomFor (p : Part) : RecKind → Bool
  | .fault _ => ringRoom p.fqBase p.fqProd p.fqCons
  | .event _ _ => ringRoom p.eqBase p.eqProd p.eqCons
  | .comp _ => true

/-- May a record be written: no record of its kind before it waits, and no fault record before it finds its ring full? -/
def Part.recReady (p : Part) (r : OutRec) : Bool :=
  p.roomFor r.kind &&
    (p.records.takeWhile fun x => x.dseq != r.dseq).all fun x =>
      x.kind.sort != r.kind.sort && (x.kind.sort != 0 || p.roomFor x.kind)

/-- The place of record i of a ring. -/
def ringAt (base : Word) (i : Nat) : Nat := bits base 12 40 * 4096 + 64 * (i % 2 ^ bits base 0 5)

/-- Perform a record at the host: it is kept no longer (R312, R313). -/
def performRec (n : Nat) (s : State) (r : OutRec) : State :=
  let p := s.part n
  let put (a v : Nat) (f : Part → Part) : State :=
    (s.writeBytes (hostKey n a) (leBytes 64 v) false).modPart n fun p => f { p with records := p.records.filter (·.dseq != r.dseq) }
  match r.kind with
  | .fault x => put (ringAt p.fqBase p.fqProd) (recNat r.dseq 0 x) fun p =>
      { p with fqProd := (p.fqProd + 1) % 2 ^ 32, dlFault := r.dseq }
  | .event x lost => put (ringAt p.eqBase p.eqProd) (recNat r.dseq lost x) fun p =>
      { p with eqProd := (p.eqProd + 1) % 2 ^ 32, dlEvent := r.dseq }
  | .comp x => put (x.notify / 64 * 64) (compNat r.dseq x) fun p => { p with dlComp := r.dseq }

/-- Write a record if it may be written. -/
def tryRec (n : Nat) (s : State) (r : OutRec) : State := if (s.part n).recReady r then performRec n s r else s

/-- RECORD_WRITE (R347). -/
def execRecordWrite (n dseq : Nat) (s : State) : Res :=
  .next (if s.link ≠ 0 then s
  else match (s.part n).records.find? fun r => r.dseq == dseq with
    | none => s
    | some r => tryRec n s r)

/-- Records of a partition that can be written. -/
def recsDue (s : State) (n : Nat) : List Nat :=
  if s.link = 0 then ((s.part n).records.filter (s.part n).recReady).map (·.dseq) else []

/-! ## The link (R309, R313) -/

/-- Is a happening a write or read that the Zahorn link carries? -/
def onLink : Instr → Bool
  | .launchRecordWrite _ _ | .priorityChange _ _ | .seedWrite _ _ _ | .spliceBindingWrite _ _ _ | .load _ _ | .unload _ _ | .fcmdResume _ _
  | .fcmdDiscard _ _ | .fcmdEnd _ _ | .fcmdZfill _ _ | .shootdownInval _ _ | .shootdownFlush _ _ | .shootdownMigrate _ _
  | .pctlWrite _ _ | .unsealBlob _ _ | .baysWrite _ _ _ | .scopepolWrite _ _ | .dbgctlWrite _ _ | .attest _ _ | .dieopWrite _ _
  | .traceSessionOpen _ _ _ | .traceSessionClose _ _ _ | .cqreset _ _ | .registerWrite _ _ | .hostMemoryAccess _ | .markOffline _ _ => true
  | _ => false

/-- What is left of the inputs when the link goes down: those it carries are lost until it is up. -/
def loseWrites : List Instr → List Instr
  | [] => []
  | .linkUp :: l => .linkUp :: l
  | i :: l => if onLink i then loseWrites l else i :: loseWrites l

/-- LINK_DOWN (R309). -/
def execLinkDown (s : State) : Res := .next (if s.link = 0 then { s with link := 2, inputs := loseWrites s.inputs } else s)

/-- A return from a loss, as a partition counts it. -/
def Part.linkBack (p : Part) : Part := { p with lossCnt := min (p.lossCnt + 1) 0xFFFF, epoch := (p.epoch + 1) % 2 ^ 32 }

/-- Write every record that may be written, in ascending DSEQ. -/
def writeRecs (s : State) (n : Nat) : State := (s.part n).records.foldl (tryRec n) s

/-- LINK_UP (R309, R312, R313). -/
def execLinkUp (s : State) : Res :=
  .next (if s.link = 0 then s
  else
    let s := { s with
      link := 0, pf := s.pf.linkBack, parts := s.parts.map fun e => if e.2.en then (e.1, e.2.linkBack) else e }
    let s := linkLoss s 0 ((s.parts.filter fun e => e.2.en && !e.2.configs.isEmpty).map (·.1))
    (s.parts.map (·.1) ++ [Config.parts]).foldl writeRecs s)

/-- The link state block of a partition (R313), as a number of 512 bits. -/
def linkBlock (s : State) (n : Nat) : Nat :=
  let p := s.part n
  let last := match p.records with
    | [] => (p.dnext + 2 ^ 32 - 1) % 2 ^ 32
    | r :: _ => (r.dseq + 2 ^ 32 - 1) % 2 ^ 32
  fieldAt 0 32 p.hacc + fieldAt 64 32 p.dnext + fieldAt 96 32 p.hdup + fieldAt 128 32 p.hgapCnt + fieldAt 160 32 p.hgapSeq +
  fieldAt 192 32 p.refSeq + fieldAt 224 8 p.refCause + fieldAt 232 8 s.link + fieldAt 240 16 p.lossCnt + fieldAt 256 32 last +
  fieldAt 288 32 p.dlComp + fieldAt 320 32 p.dlFault + fieldAt 352 32 p.dlEvent + fieldAt 384 32 p.epoch + fieldAt 416 32 p.hbad

/-! ## A virtual function's register window (R308) -/

/-- What lies at a byte offset of the 4 MiB window. -/
inductive VfPlace where
  | linkState
  | launch
  | seed (k : Nat)
  | reserved
  deriving DecidableEq, Repr

def vfPlace (off : Nat) : VfPlace :=
  if off < 0x40 then .linkState
  else if 0x1000 ≤ off ∧ off < 0x1040 then .launch
  else if 0x100000 ≤ off ∧ off < 0x200000 then .seed ((off - 0x100000) / 256)
  else .reserved

/-- A write to the window, `size` bytes at an offset. The ports take theirs; one to a reserved place is dropped, and so is one to the
link state block, whose access the spec gives as read (log 95). -/
def vfWrite (n off size : Nat) (d : BitVec 1280) (s : State) : State :=
  match vfPlace off with
  | .launch => launchPort n ⟨size, off == 0x1000, d⟩ s
  | .seed k => seedWrite n k ⟨size, off % 256 == 0, d⟩ s
  | .linkState | .reserved => s

/-- A read of one byte of the window, while the function is presented: a byte of the link state block, zero in a reserved place. The
spec gives the ports no reads: `none` (log 95). -/
def vfReadByte (s : State) (n off : Nat) : Option Byte :=
  match vfPlace off with
  | .linkState => some (BitVec.ofNat 8 (linkBlock s n / 2 ^ (8 * off)))
  | .reserved => some 0
  | .launch | .seed _ => none

/-! ## Accesses of the host (R316, R374, R375) -/

/-- May the physical function touch a byte: LPDDR, or a slice that is not being zeroised and not an enclave's? -/
def pfMay (s : State) (a : Nat) : Bool :=
  inLpddr a ||
    (onDie a && (a - Config.loftByBay) % Config.sliceStep < Config.slice &&
      (let b := (a - Config.loftByBay) / Config.sliceStep
       !(s.bay b).zero && !(s.ownerOf b).any fun n => (s.part n).encl))

/-- A write of the physical function, at physical addresses; where it may not write, it is dropped. -/
def pfWrite (s : State) (a : Nat) (bs : List Byte) : State :=
  (runPieces a bs.length).foldl (fun s p =>
    if pfMay s p.1 then s.writeBytes p.1 ((bs.drop p.2.1).take p.2.2) false else s) s

/-- What the physical function reads: ciphertext of encrypted bytes, zero where it may not read. -/
def pfReadBytes (s : State) (a n : Nat) : List Byte :=
  (List.range n).map fun i => if pfMay s (a + i) then s.byte (a + i) else 0

/-- HOST_MEMORY_ACCESS (R316): a virtual function through its partition's tables, one that meets a migrating page waiting; the
physical function at physical addresses. An access that does not translate has no effect. A read changes at most A bits. -/
def execHostMemoryAccess (a : HostAccess) (s : State) : Res :=
  .next (if s.link ≠ 0 then s
  else if a.fn = Config.parts then (if a.write then pfWrite s a.addr a.data else s)
  else if !vfUp s a.fn then s
  else if a.write then
    match partWrite a.fn a.data false (runPieces a.addr a.data.length) s with
    | .wait t => { t with inputs := .hostMemoryAccess a :: t.inputs }
    | r => r.state
  else
    match partRead a.fn (runPieces a.addr a.len) s with
    | .wait t => { t with inputs := .hostMemoryAccess a :: t.inputs }
    | r => r.state)

/-! ## Bays offline, bridges -/

/-- MARK_OFFLINE (R324). -/
def execMarkOffline (b : Nat) (off : Bool) (s : State) : Res :=
  .next (if Config.bays ≤ b then s
  else { s with offline := if off then insertNat b s.offline else s.offline.filter (· != b) })

/-- Partitions with a launch whose region has bays of a column on both dies. -/
def bridgeUsers (s : State) (col : Nat) : List Nat :=
  (s.parts.filter fun e => e.2.launches.any fun l =>
    let bs := (s.regionBays e.1 l.ctx l.hseq).filter fun b => bayCol b == col
    bs.any (dieOf · == 0) && bs.any (dieOf · == 1)).map (·.1)

/-- BRIDGE_LINK_DOWN (R222, R349). -/
def execBridgeLinkDown (col : Nat) (s : State) : Res :=
  .next (if 8 ≤ col ∨ s.bridgeLost.contains col then s
  else linkLoss { s with bridgeLost := insertNat col s.bridgeLost } (17 + col) (bridgeUsers s col))

end Sys2Proof.Machine
end

