-- ==== Sys2Proof/Machine/FaultCmds.lean ====
section
/-!
DEFINITION. Sys2Proof/Machine/FaultCmds.lean: FCMD, the return from a fault (R352 to R354, R363, R370, R391), and the end of a
precise stop (R390).
-/
namespace Sys2Proof.Machine

open Sys2Proof

/-! ## RESUME (R354) -/

/-- A slot that a driver resumes delivers its value a (R270, R271), on the scalar network (R131). -/
def deliverA (b : Nat) (m : MSet) (s : State) : State :=
  match (slotInstr (s.slot b m.el m.slot)).bind (·.common) with
  | none => s
  | some c => deliver c (.sc (portWord m.a)) b m s

/-- What a resumed instance does again. -/
def goAgain (b : Nat) (a : Again) (s : State) : State :=
  match a with
  | .fire m => s.modElem b m.el fun e => { e with issue := m :: e.issue }
  | .trap m => deliverA b m s
  | .enter g ix m => enterToken s b g ix m
  | .none | .op _ | .commit | .settle | .multi => s

/-- Take the replies kept with an instance, in the order they came; once one faults the rest are kept again (R352). -/
def takeReplies (b g ix : Nat) : List (Nat × Reply) → State → State
  | [], s => s
  | r :: rs, s =>
    if frozenInst s b g ix then s.modInst b g ix fun i => { i with replies := i.replies ++ r :: rs }
    else
      match opOf s b ⟨g, ix, r.1⟩ with
      | none => takeReplies b g ix rs s
      | some o => takeReplies b g ix rs (match r.2 with
        | .mem p => opReply s b g ix o p
        | .group code d0 d1 d2 => opFault s b g ix o code (d0, d1, d2, 0))

/-- A frozen instance goes on. -/
def resumeInst (b g ix : Nat) (s : State) : State :=
  match s.inst? b g ix with
  | none => s
  | some i =>
    let s := (s.unfreeze b g ix).modInst b g ix fun i => { i with replies := [] }
    kick (takeReplies b g ix i.replies (goAgain b i.again s)) b

/-- Release what a break holds on a bay: the token goes into its slot, brk delivers a; comparators match again (R391). -/
def releaseHeld (ctx : Nat) (s : State) (b : Nat) : State :=
  match s.ctx? b ctx with
  | none => s
  | some c =>
    let s := s.modCtx b ctx fun c => { c with heldTok := none, heldSet := none, stopRun := false, brkInst := none }
    let s := match c.heldTok with
      | none => s
      | some t => placeToken s t.msg t.at_
    match c.heldSet with
    | none => s
    | some (m, _) => deliverA b m s

/-- Does another region fault of the launch hold its region? -/
def otherFreeze (p : Part) (f : OutFault) (h : Nat) : Bool :=
  p.faults.any fun g => g.dseq != f.dseq && (match g.unit with | .region k _ => k == h | _ => false)

/-- The bays a launch of a partition is bound to. -/
def launchBays (s : State) (n h : Nat) : List Nat := ((s.launch? n h).map fun l => s.regionBays n l.ctx h).getD []

/-- A frozen region goes on, unless another region fault holds it (log 31). -/
def resumeRegion (n : Nat) (f : OutFault) (h : Nat) (brk : Bool) (s : State) : State :=
  let bs := launchBays s n h
  let s := if brk then bs.foldl (releaseHeld f.body.ctx) s else s
  let s := if otherFreeze (s.part n) f h then s else s.freezeRegion n f.body.ctx h false
  bs.foldl kick (s.modLaunch n h fun l => { l with wave := none, lastSum := none })

/-- A stalled generator of a port goes on, if this is the fault it stands under (R259). -/
def IslPort.goOn (dst : Bool) (d : Nat) (q : IslPort) : IslPort :=
  if dst then { q with stallDst := q.stallDst.filter (· != d) } else { q with stall := q.stall.filter (· != d) }

/-- RESUME by what the fault froze. -/
def resumeUnit (n : Nat) (f : OutFault) (s : State) : State :=
  match f.unit with
  | .inst b g ix => resumeInst b g ix s
  | .region h brk => resumeRegion n f h brk s
  | .engine b k true => kick (s.modSite b k fun x => { x with stopBack := x.stopBack.filter (· != f.dseq) }) b
  | .engine b k false =>
    if (s.site? b k).any (·.stopped == some f.dseq) then
      kick (holdFills (s.modSite b k fun x => { x with stopped := none }) b k (fun _ => true) false) b
    else s
  | .island b i p dst => kick (s.modPort b i p (·.goOn dst f.dseq)) b
  | .restore h => (s.modLaunch n h fun l => { l with st := .ready }).modPart n fun p => p.toHeads [h]

/-! ## FCMD (R353) -/

/-- Does a fault wait for a restore: its launch is saved, or its bay has taken its snapshot (R363)? -/
def faultWaits (s : State) (n : Nat) (f : OutFault) : Bool :=
  let away (b : Nat) : Bool := ((s.ctx? b f.body.ctx).bind (·.bound)) != some f.body.lseq || snapped s b f.body.ctx
  match f.unit with
  | .inst b _ _ | .engine b _ _ | .island b _ _ _ => away b
  | .region h _ => (launchBays s n h).isEmpty || (launchBays s n h).any away
  | .restore _ => false

/-- The commands. -/
inductive FOpc where
  | resume | discard | endLaunch | zfill
  deriving DecidableEq, Repr

def FOpc.code : FOpc → Nat
  | .resume => 0
  | .discard => 1
  | .endLaunch => 2
  | .zfill => 3

/-- Is a write a command of this kind? -/
def fcmdOk (cmd : Word) (o : FOpc) : Bool := bitsZero cmd 0 30 && bits cmd 30 2 == o.code

/-- The row a zero-fill may serve: that of a GATHER_INDEX with IPOIS = 0. -/
def zfillRow (f : OutFault) : Option (Nat × Nat × Nat × Nat) :=
  match f.unit with
  | .island b i p _ => if f.body.code = 0x22 ∧ !f.body.d2.getLsbD 0 then some (b, i, p, bits f.body.d1 32 32) else none
  | _ => none

/-- The result of a command on an outstanding fault (R353). -/
def fcmdResult (s : State) (o : FOpc) (f : OutFault) : Nat :=
  match o with
  | .resume | .endLaunch => 0
  | .discard =>
    match f.unit with
    | .inst b g ix => if (s.inst? b g ix).any (·.pinned) then 2 else 0
    | _ => 3
  | .zfill => if (zfillRow f).isSome then 0 else 4

/-- The effect of a command that is DONE. -/
def fcmdAct (n : Nat) (o : FOpc) (f : OutFault) (s : State) : State :=
  match o with
  | .resume => resumeUnit n f s
  | .discard =>
    match f.unit with
    | .inst b g ix => discardInst (purgeInst s b g ix) b g ix
    | _ => s
  | .endLaunch => endLaunch s n f.body.lseq 3
  | .zfill =>
    match zfillRow f with
    | none => s
    | some (b, i, p, row) =>
      s.modPort b i p fun q =>
        { q.goOn false f.dseq with run := q.run.map fun x => { x with zfill := insertNat row x.zfill } }

/-- The result in FCSTAT. -/
def Part.fcResult (p : Part) (dseq r : Nat) : Part := { p with fcStat := word (dseq * 2 ^ 32 + r) }

/-- A command: only DONE ends the fault. One that acts on what a cut has saved waits, is carried out after the restore, and those that
come after it wait behind it (R353, R363). -/
def fcmd (o : FOpc) (again : Instr) (n : Nat) (cmd : Word) (s : State) : State :=
  if !fcmdOk cmd o || Config.parts < n then s
  else
    let d := bits cmd 32 32
    match (s.part n).faults.find? fun f => f.dseq == d && f.body.frz != 0 with
    | none => s.modPart n fun p => p.fcResult d 1
    | some f =>
      if o != .endLaunch && faultWaits s n f then { s with flight := again :: s.flight }
      else
        let r := fcmdResult s o f
        if r ≠ 0 then s.modPart n fun p => p.fcResult d r
        else
          (fcmdAct n o f (s.modPart n fun p => { p with faults := p.faults.filter fun g => g.dseq != d })).modPart n
            fun p => p.fcResult d 0

/-- Can a command that waits be carried out now? -/
def fcmdReady (s : State) (n : Nat) (cmd : Word) : Bool :=
  (s.part n).faults.all fun f => f.dseq != bits cmd 32 32 || !faultWaits s n f

/-- FCMD_RESUME (R354). -/
def execFcmdResume (n : Nat) (cmd : Word) (s : State) : Res := .next (fcmd .resume (.fcmdResume n cmd) n cmd s)
/-- FCMD_DISCARD (R354). -/
def execFcmdDiscard (n : Nat) (cmd : Word) (s : State) : Res := .next (fcmd .discard (.fcmdDiscard n cmd) n cmd s)
/-- FCMD_END (R354); or the driver's own end of a launch that no fault need be outstanding of (R327, log 91). -/
def execFcmdEnd (n : Nat) (cmd : EndCmd) (s : State) : Res :=
  .next (match cmd with
  | .fault c => fcmd .endLaunch (.fcmdEnd n cmd) n c s
  | .launch h => endLaunch s n h 3)
/-- FCMD_ZFILL (R353). -/
def execFcmdZfill (n : Nat) (cmd : Word) (s : State) : Res := .next (fcmd .zfill (.fcmdZfill n cmd) n cmd s)

/-! ## The end of a precise stop (R390) -/

/-- Does every instance of a context on a bay, the break instance aside, meet a test of its gate, index and entry? -/
def othersAll (s : State) (b ctx : Nat) (f : Nat → Nat → Inst → Bool) : Bool :=
  let brk := (s.ctx? b ctx).bind (·.brkInst)
  (s.bay b).gates.all fun g => (g.2.instsOf ctx).all fun e => brk == some (g.1, e.1) || f g.1 e.1 e.2

/-- Is a stop complete: every other instance FREE or FROZEN, or only pinned ones left that two waves found still, LIVE or READY behind
the break instance? -/
def stopDone (s : State) (n : Nat) (l : Launch) : Bool :=
  let all (f : Nat → Nat → Nat → Inst → Bool) : Bool := (s.regionBays n l.ctx l.hseq).all fun b => othersAll s b l.ctx (f b)
  l.brk.isSome && l.st == .bound &&
    (all (fun _ _ _ i => i.st == .frozen) ||
      (l.quiet && all fun b g ix i => i.st == .frozen || (i.pinned && (i.st == .live || (i.st == .ready && !mayCommit s b g ix)))))

/-- PRECISE_STOP_COMPLETE (R390): the region freezes and BREAK is queued. -/
def execPreciseStopComplete (n h : Nat) (s : State) : Res :=
  .next (match s.launch? n h with
  | none => s
  | some l =>
    match l.brk with
    | none => s
    | some r =>
      if !stopDone s n l then s
      else
        ((s.fault n r (.region h true)).freezeRegion n l.ctx h true).modLaunch n h fun l => { l with brk := none, quiet := false })

end Sys2Proof.Machine
end

