-- ==== Sys2Proof/Machine/DebugEvents.lean ====
section
/-!
DEFINITION. Sys2Proof/Machine/DebugEvents.lean: trace sessions and their writer (R392 to R396), queue-level reset (R397).
-/
namespace Sys2Proof.Machine

open Sys2Proof

/-- Have only these fields (lowest bit, width) of a word bits set? -/
def onlyIn (v : Word) (fs : List (Nat × Nat)) : Bool := fs.foldl (fun v f => putBits v f.1 f.2 0) v == 0

/-! ## The writer (R393 to R396) -/

/-- Bytes of a trace buffer. -/
def TraceBuf.bytes (t : TraceBuf) : Nat := bits t.size 0 16 * 0x10000
def TraceBuf.wrap (t : TraceBuf) : Bool := t.ctl.getLsbD 62

/-- A PAD record of a tail of a sample buffer: its header, and zero. -/
def padRecord (n : Nat) : List Byte := leBytes 8 (n / 64 * 2 ^ 40 + 8 * 2 ^ 32 + 0xC3A55A3C) ++ List.replicate (n - 8) 0

/-- Where a record of n bytes goes: the PAD before it and its offset; none when the buffer is full. -/
def TraceBuf.placeFor (t : TraceBuf) (n : Nat) : Option (Nat × Nat) :=
  let room := 4096 - t.wptr % 4096
  let pad := if n ≤ room then 0 else room
  let at_ := t.wptr + pad
  if at_ + n ≤ t.bytes then some (pad, at_)
  else if t.wrap && n ≤ t.bytes then some (pad, 0)
  else none

/-- Append records to the buffer, all of them or none. -/
def appendRecords (n ctx : Nat) : List TraceRec → State → Option State
  | [], s => some s
  | r :: rs, s =>
    let t := (s.part n).tbuf ctx
    match t.placeFor (8 * r.length) with
    | none => none
    | some (pad, at_) =>
      let base := bits t.base 16 36 * 0x10000
      let s := if pad = 0 ∨ t.bytes < t.wptr + pad then s else s.writeBytes (base + t.wptr) (padRecord pad) false
      appendRecords n ctx rs
        ((s.writeBytes (base + at_) (wordsBytes r) false).modPart n fun p => p.setTbuf ctx { p.tbuf ctx with wptr := at_ + 8 * r.length })

/-- Append a source's record, behind the LOST record owed for what the full buffer lost of it. With no room for both it is lost; a LOST
record that finds no room is no loss of its own, and what it told of stays owed (log 75). -/
def putRecord (n ctx o src : Nat) (r : TraceRec) (s : State) : State :=
  match appendRecords n ctx (withLost r (AMap.getD ((s.part n).tbuf ctx).owed src 0)) s with
  | some s => s.modPart n fun p => p.setTbuf ctx { p.tbuf ctx with owed := AMap.erase (p.tbuf ctx).owed src }
  | none =>
    if bits (r.getD 0 0) 32 8 = 7 then s.modPart n fun p => p.setTbuf ctx ((p.tbuf ctx).owe src (r.getD 4 0).toNat)
    else s.loseTrace n ctx o (·.owe src 1)

/-- A record of a session leaves the writer's queue. -/
def writeTrace (n ctx : Nat) (s : State) : State :=
  let t := (s.part n).tbuf ctx
  match t.queue with
  | [] => s
  | r :: q =>
    let src := bits (r.getD 2 0) 0 8
    let o := ((s.ctx? src ctx).map (·.origin)).getD src
    putRecord n ctx o src r (s.modPart n fun p => p.setTbuf ctx { t with queue := q })

/-! ## The end of a session -/

/-- Is a trace record of a context of a partition under way to its writer? -/
def traceOnWay (s : State) (n ctx : Nat) : Bool :=
  ((s.bays.flatMap fun e => e.2.rowStop.trace ++ e.2.colStop.trace) ++ s.packets).any fun p =>
    p.kind == 5 && p.ctx == ctx && s.partOf p.src ctx == n

/-- Have all records of a session been written? -/
def traceDrained (s : State) (n ctx : Nat) : Bool := ((s.part n).tbuf ctx).queue.isEmpty && !traceOnWay s n ctx

/-- The bay whose writer a context's session has: the origin of its launch, or of the one it had last. -/
def writerBay (s : State) (n ctx : Nat) : Nat :=
  let ls := (s.part n).launches.filter fun l => l.ctx == ctx && l.everBound
  (((ls.find? (·.holdsBays)).orElse fun _ => ls.head?).map (·.origin)).getD 0

/-- END is written and OPEN is 0. -/
def endTrace (n ctx kind : Nat) (s : State) : State :=
  let s := (appendRecords n ctx [traceRecord 0 9 0 (word (ctx * 2 ^ 8)) 0 [word kind]] s).getD (s.loseTrace n ctx (writerBay s n ctx) id)
  s.modPart n fun p =>
    let t := p.tbuf ctx
    p.setTbuf ctx { t with ctl := putBits t.ctl 63 1 0, closing := none, queue := [] }

/-- A normal close is complete when every record queued before it is written. -/
def closeIfDrained (n ctx : Nat) (s : State) : State :=
  if ((s.part n).tbuf ctx).closing == some false && traceDrained s n ctx then endTrace n ctx 0 s else s

/-- TRACE_RECORD_WRITE (R395, R396). -/
def execTraceRecordWrite (n ctx : Nat) (s : State) : Res :=
  .next (closeIfDrained n ctx (if ((s.part n).tbuf ctx).isOpen then writeTrace n ctx s else s))

/-- BEGIN on every bay of a bound launch of the context (R394). -/
def beginTrace (n ctx : Nat) (s : State) : State :=
  ((s.part n).launches.filter fun l => l.ctx == ctx && l.holdsBays).foldl (fun s l =>
    (s.regionBays n ctx l.hseq).foldl (fun s b => putTrace s b ctx 1 noPlace [word l.cfg, word l.hseq]) s) s

/-- A write to TBCTL: OPEN opens or closes the session, its other fields are taken only while OPEN = 0 (R392). -/
def writeTbctl (n ctx : Nat) (v : Word) (s : State) : State :=
  let t := (s.part n).tbuf ctx
  if Config.parts ≤ n ∨ 8 ≤ ctx ∨ !onlyIn v [(63, 1), (62, 1), (7, 1), (6, 1), (5, 1), (4, 1), (0, 4)] then s
  else if v.getLsbD 63 then
    if t.isOpen then s
    else
      beginTrace n ctx (s.modPart n fun p => p.setTbuf ctx
        { t with ctl := v, wptr := 0, lost := 0, queue := [], owedQ := [], owed := [], closing := none, since := 0, sinceBay := 0, logged := 0 })
  else if t.isOpen then
    if t.closing.isSome then s
    else closeIfDrained n ctx (s.modPart n fun p => p.setTbuf ctx { t with closing := some false })
  else s.modPart n fun p => p.setTbuf ctx { t with ctl := v }

/-- TRACE_SESSION_OPEN (R392). -/
def execTraceSessionOpen (n ctx : Nat) (v : Word) (s : State) : Res := .next (writeTbctl n ctx v s)

/-- TRACE_SESSION_CLOSE (R392). -/
def execTraceSessionClose (n ctx : Nat) (v : Word) (s : State) : Res := .next (writeTbctl n ctx v s)

/-! ## Queue-level reset (R397) -/

/-- Reset one context: its launches end as FCMD END ends them; an open session closes once it has drained. -/
def resetCtx (n : Nat) (s : State) (ctx : Nat) : State :=
  let s := ((s.part n).launches.filter fun l => l.ctx == ctx).foldl (fun s l => endLaunch s n l.hseq 3) s
  let t := (s.part n).tbuf ctx
  if t.isOpen then s.modPart n fun p => p.setTbuf ctx { t with closing := some true } else s

/-- CQRESET (R397). -/
def execCqreset (n : Nat) (v : Word) (s : State) : Res :=
  .next (if Config.parts ≤ n ∨ !onlyIn v [(0, 8)] then s else (setBits (v.setWidth 8)).foldl (resetCtx n) s)

/-- Is a reset session's last record written? -/
def resetDue (s : State) (n ctx : Nat) : Bool :=
  ((s.part n).tbuf ctx).closing == some true && traceDrained s n ctx

/-- TRACE_RESET_END (R397). -/
def execTraceResetEnd (n ctx : Nat) (s : State) : Res := .next (if resetDue s n ctx then endTrace n ctx 1 s else s)

end Sys2Proof.Machine
end

