-- ==== Sys2Proof/Machine/FloatOps.lean ====
section
/-!
DEFINITION. Sys2Proof/Machine/FloatOps.lean: the float and conversion family, 0x40 to 0x59 (R102 to R107).
-/
namespace Sys2Proof.Machine

open Sys2Proof

/-- The format of a float-family slot. -/
def Common.fmt (c : Common) : Fmt := fmtOf c.ty

/-- A rounding member (R102): a NaN operand gives the canonical NaN; else the exact value, with the special results of
R104 inside it, is rounded once and flushed under NBV 1. -/
def fireFlt (c : Common) (f : FormA) (op : FV → FV → FV → FV) (s : State) : Res :=
  let z := zeroVal c.w false
  fireVals c (fun b m s =>
    let nbv := nbvOf s b m.ctx
    let v := resultVal c fun j =>
      let p := patsOf c f m j
      roundTo nbv c.ty f.rnd f.sat (op ((fmtOf c.ty).decode p.a) ((fmtOf c.ty).decode p.b) ((fmtOf c.ty).decode p.c))
    (v, v)) z z s

/-- A member that selects or re-signs an operand: never rounded or flushed (R102). -/
def firePick (c : Common) (f : FormA) (op : Pats → Nat) (s : State) : Res :=
  let z := zeroVal c.w false
  fireVals c (fun _ m _ => let v := resultVal c fun j => op (patsOf c f m j); (v, v)) z z s

/-- FADD (R102). -/
def execFadd (c : Common) (f : FormA) (s : State) : Res := fireFlt c f (fun a b _ => a.add b f.rnd) s
/-- FSUB (R102). -/
def execFsub (c : Common) (f : FormA) (s : State) : Res := fireFlt c f (fun a b _ => a.add b.flip f.rnd) s
/-- FMUL (R102). -/
def execFmul (c : Common) (f : FormA) (s : State) : Res := fireFlt c f (fun a b _ => a.mul b) s
/-- FMA (R102): one rounding. -/
def execFma (c : Common) (f : FormA) (s : State) : Res := fireFlt c f (fun a b d => (a.mul b).add d f.rnd) s
/-- FNMA (R102): one rounding. -/
def execFnma (c : Common) (f : FormA) (s : State) : Res := fireFlt c f (fun a b d => (a.mul b).flip.add d f.rnd) s
/-- FMIN (R54, R102). -/
def execFmin (c : Common) (f : FormA) (s : State) : Res := firePick c f (fun p => floatMin (fmtOf c.ty) p.a p.b) s
/-- FMAX (R54, R102). -/
def execFmax (c : Common) (f : FormA) (s : State) : Res := firePick c f (fun p => floatMax (fmtOf c.ty) p.a p.b) s
/-- FABS (R102); a NaN gives the canonical NaN (R53). -/
def execFabs (c : Common) (f : FormA) (s : State) : Res :=
  firePick c f (fun p =>
    let g := fmtOf c.ty
    if (g.decode p.a).isNan then g.nan else p.a % 2 ^ (g.eb + g.mb)) s
/-- FNEG (R102); a NaN gives the canonical NaN (R53). -/
def execFneg (c : Common) (f : FormA) (s : State) : Res :=
  firePick c f (fun p =>
    let g := fmtOf c.ty
    if (g.decode p.a).isNan then g.nan
    else g.withSign (!natBit p.a (g.eb + g.mb)) (p.a % 2 ^ (g.eb + g.mb))) s
/-- FDIV (R103). -/
def execFdiv (c : Common) (f : FormA) (s : State) : Res := fireFlt c f (fun a b _ => a.div b) s
/-- FSQRT (R103). -/
def execFsqrt (c : Common) (f : FormA) (s : State) : Res := fireFlt c f (fun a _ _ => a.sqrt) s
/-- FRSQ (R103). -/
def execFrsq (c : Common) (f : FormA) (s : State) : Res := fireFlt c f (fun a _ _ => a.rsqrt) s
/-- FRCP (R103). -/
def execFrcp (c : Common) (f : FormA) (s : State) : Res := fireFlt c f (fun a _ _ => (FV.fin false 1 0).div a) s
/-- FEXP2 (R103). -/
def execFexp2 (c : Common) (f : FormA) (s : State) : Res := fireFlt c f (fun a _ _ => a.exp2) s
/-- FLOG2 (R103). -/
def execFlog2 (c : Common) (f : FormA) (s : State) : Res := fireFlt c f (fun a _ _ => a.log2) s
/-- FCEQ (R54). -/
def execFceq (c : Common) (f : FormA) (s : State) : Res :=
  fireCmp c f (fun p => ((fmtOf c.ty).decode p.a).eq ((fmtOf c.ty).decode p.b)) s
/-- FCLT (R54). -/
def execFclt (c : Common) (f : FormA) (s : State) : Res :=
  fireCmp c f (fun p => ((fmtOf c.ty).decode p.a).lt ((fmtOf c.ty).decode p.b)) s
/-- FCLE (R54). -/
def execFcle (c : Common) (f : FormA) (s : State) : Res :=
  fireCmp c f (fun p => ((fmtOf c.ty).decode p.a).le ((fmtOf c.ty).decode p.b)) s
/-- FCUN (R54). -/
def execFcun (c : Common) (f : FormA) (s : State) : Res :=
  fireCmp c f (fun p => ((fmtOf c.ty).decode p.a).isNan || ((fmtOf c.ty).decode p.b).isNan) s
/-- FRINT (R58, R102). -/
def execFrint (c : Common) (f : FormA) (s : State) : Res := fireFlt c f (fun a _ _ => a.rint f.rnd) s

/-- The width of fscal's exponent: s32 for f32, s16 for f16 and bf16 (R102). -/
def scaleWidth (t : Ty) : Nat := if t = .f32 then 32 else 16

/-- FSCAL (R102, R104). -/
def execFscal (c : Common) (f : FormA) (s : State) : Res :=
  let z := zeroVal c.w false
  fireVals c (fun b m s =>
    let nbv := nbvOf s b m.ctx
    let v := resultVal c fun j =>
      let p := patsOf c f m j
      roundTo nbv c.ty f.rnd f.sat (((fmtOf c.ty).decode p.a).scale (readInt true (scaleWidth c.ty) p.b))
    (v, v)) z z s
/-- FCLASS (R105): an n type of the width of TY. -/
def execFclass (c : Common) (f : FormA) (s : State) : Res := firePick c f (fun p => fclass (fmtOf c.ty) p.a) s

/-- A float source of one type to a float type (R58, R106): the operand itself when the types are one, but for a NaN. -/
def fcvtPat (nbv : Nat) (src dst : Ty) (mode : Rnd) (sat : Bool) (p : Nat) : Nat :=
  let x := (fmtOf src).decode p
  if src = dst then (if x.isNan then (fmtOf dst).nan else p % 2 ^ (fmtOf src).width)
  else roundTo nbv dst mode sat x

/-- FCVT (R106). -/
def execFcvt (c : Common) (f : FormA) (s : State) : Res :=
  let z := zeroVal c.w false
  fireVals c (fun b m s =>
    let v := convVal c f (fcvtPat (nbvOf s b m.ctx) f.srcTy c.ty f.rnd f.sat) m
    (v, v)) z z s
/-- FCVI (R106). -/
def execFcvi (c : Common) (f : FormA) (s : State) : Res :=
  let z := zeroVal c.w false
  fireVals c (fun _ m _ =>
    let v := convVal c f (fun p => floatToInt c.ty f.rnd f.sat ((fmtOf f.srcTy).decode p)) m
    (v, v)) z z s
/-- ICVF (R106): zero is +0. -/
def execIcvf (c : Common) (f : FormA) (s : State) : Res :=
  let z := zeroVal c.w false
  fireVals c (fun b m s =>
    let v := convVal c f (fun p =>
      roundTo (nbvOf s b m.ctx) c.ty f.rnd f.sat (ofInt (readInt f.srcTy.signed (f.srcTy.width c.w) p))) m
    (v, v)) z z s

/-- FPK (R107). -/
def execFpk (c : Common) (f : FormA) (s : State) : Res :=
  let z := zeroVal c.w false
  fireVals c (fun b m s =>
    let w := c.ty.width true
    let cvt (p : Nat) : Nat := fcvtPat (nbvOf s b m.ctx) .f32 c.ty f.rnd f.sat p
    let v : Val :=
      if !c.w then .sc (word (cvt (patAt false 32 0 m.b) * 2 ^ w + cvt (patAt false 32 0 m.a)))
      else
        let la := (List.range 32).map fun j => cvt (patAt true 32 j m.a)
        let lb := (List.range 32).map fun j => cvt (patAt true 32 j m.b)
        if w = 8 && f.aux7.getLsbD 0 then .vec (ofLanes 8 ((List.range 64).map (fun j => patAt true 8 j m.c) ++ la ++ lb))
        else .vec (ofLanes w (la ++ lb))
    (v, v)) z z s

end Sys2Proof.Machine
end

