-- ==== Sys2Proof/Machine/LaneOps.lean ====
section
/-!
DEFINITION. Sys2Proof/Machine/LaneOps.lean: the lane family, 0x60 to 0x6B (R108 to R111).
-/
namespace Sys2Proof.Machine

open Sys2Proof

/-- A lane instruction: values at T0 and T1 from the lanes' width and the operands; nulls on the same networks. -/
def fireLane (c : Common) (v : Nat → MSet → Val × Val) (n0 n1 : Val) (s : State) : Res :=
  fireVals c (fun _ m _ => v (c.ty.width true) m) n0 n1 s

/-- A lane instruction with one vector result. -/
def fireVec (c : Common) (v : Nat → MSet → Vec) (s : State) : Res :=
  fireLane c (fun w m => (.vec (v w m), .vec (v w m))) (.vec 0) (.vec 0) s

/-- LPERM (R108). -/
def execLperm (c : Common) (_f : FormA) (s : State) : Res :=
  fireVec c (fun w m => ofLanes w ((List.range (1024 / w)).map fun j =>
    patAt true w (patAt true w j m.b % (1024 / w)) m.a)) s
/-- LBCAST (R108). -/
def execLbcast (c : Common) (_f : FormA) (s : State) : Res :=
  fireVec c (fun w m => ofLanes w ((List.range (1024 / w)).map fun _ => patAt false w 0 m.a)) s
/-- LEXT (R108): a q4 code is zero-extended; a b1 travels on the control network (R131). -/
def execLext (c : Common) (f : FormA) (s : State) : Res :=
  let z := zeroVal false (c.ty == .b1)
  fireLane c (fun w m =>
    let p := patAt true w f.imm16.toNat m.a
    let v : Val := if c.ty = .b1 then .ct (BitVec.ofNat 1 p) else .sc (extendRes c.ty w p)
    (v, v)) z z s
/-- LINS (R108). -/
def execLins (c : Common) (f : FormA) (s : State) : Res :=
  fireVec c (fun w m => ofLanes w ((List.range (1024 / w)).map fun j =>
    if j = f.imm16.toNat then patAt false w 0 m.b else patAt true w j m.a)) s

/-- The reduction of an lred or lscan slot (R109). -/
def laneRed (c : Common) (f : FormA) (nbv : Nat) : Red :=
  let w := c.ty.width true
  if f.wide then ⟨f.opsel, c.ty, w, wideTy c.ty, (wideTy c.ty).width false, f.rnd, f.sat, nbv⟩
  else ⟨f.opsel, c.ty, w, c.ty, w, f.rnd, f.sat, nbv⟩

/-- Presence of lane j: port B under MSK (R109). -/
def lanePresent (f : FormA) (m : MSet) (j : Nat) : Bool := !f.msk || patAt true 1 j m.b == 1

/-- LRED (R109). -/
def execLred (c : Common) (f : FormA) (s : State) : Res :=
  fireVals c (fun b m s =>
    let r := laneRed c f (nbvOf s b m.ctx)
    let x := r.reduce (lanesOf r.sw ((m.a.map fun t => valVec t.val).getD 0)) (lanePresent f m)
    (.sc (extendRes r.ty r.w x.1), .ct (BitVec.ofBool x.2))) (.sc 0) (.ct 0) s
/-- LSCAN (R109). -/
def execLscan (c : Common) (f : FormA) (s : State) : Res :=
  fireVals c (fun b m s =>
    let r := laneRed c f (nbvOf s b m.ctx)
    let vs := lanesOf r.sw ((m.a.map fun t => valVec t.val).getD 0)
    let v : Val := .vec (ofLanes r.sw ((List.range (1024 / r.sw)).map (r.prefixAt vs (lanePresent f m))))
    (v, v)) (.vec 0) (.vec 0) s

/-- The lanes j with bit j of port B set (R110). -/
def maskLanes (w : Nat) (m : MSet) : List Nat := (List.range (1024 / w)).filter fun j => patAt true 1 j m.b == 1

/-- LCMPR (R110). -/
def execLcmpr (c : Common) (_f : FormA) (s : State) : Res :=
  fireLane c (fun w m =>
    let js := maskLanes w m
    (.vec (ofLanes w (js.map fun j => patAt true w j m.a)), .sc (word js.length))) (.vec 0) (.sc 0) s
/-- LEXPD (R110). -/
def execLexpd (c : Common) (_f : FormA) (s : State) : Res :=
  fireLane c (fun w m =>
    let js := maskLanes w m
    (.vec (ofLanes w ((List.range (1024 / w)).map fun j =>
      match placeOf (· == j) js 0 with
      | some k => patAt true w k m.a
      | none => 0)), .sc (word js.length))) (.vec 0) (.sc 0) s
/-- LROT (R108). -/
def execLrot (c : Common) (f : FormA) (s : State) : Res :=
  fireVec c (fun w m =>
    let n := 1024 / w
    let k := if f.im then f.imm16.toNat % n else patAt false 32 0 m.b % n
    ofLanes w ((List.range n).map fun j => patAt true w ((j + k) % n) m.a)) s
/-- LZIP (R108). -/
def execLzip (c : Common) (f : FormA) (s : State) : Res :=
  fireVec c (fun w m =>
    let h := (f.aux7.toNat % 2) * (1024 / w / 2)
    ofLanes w ((List.range (1024 / w)).map fun i =>
      if i % 2 = 0 then patAt true w (i / 2 + h) m.a else patAt true w (i / 2 + h) m.b)) s
/-- LUNZIP (R108). -/
def execLunzip (c : Common) (f : FormA) (s : State) : Res :=
  fireVec c (fun w m =>
    let d := f.aux7.toNat % 2
    let h := 1024 / w / 2
    ofLanes w ((List.range (1024 / w)).map fun i =>
      if i < h then patAt true w (2 * i + d) m.a else patAt true w (2 * (i - h) + d) m.b)) s

/-- dmax of a q4 TYPE (R111). -/
def q4Dmax (nbv ty : Nat) : Nat :=
  if ty = 0 then 7 else if ty = 1 then 6 else if ty = 2 then 64 else if nbv = 1 then 14 else 12

/-- The 32 codes of a block and its scale byte (R111, R246). -/
def q4Block (nbv ty : Nat) (mode : Rnd) (xs : List FV) : List Nat × Nat :=
  let e := scaleExp (amaxOf xs) (q4Dmax nbv ty)
  (xs.map fun x => q4Encode nbv ty mode (x.scale (31 - (e : Int))), ty * 64 + e)

/-- The 16 bytes of a code plane from its codes (R59). -/
def codeBytes (cs : List Nat) : List Byte :=
  (List.range 16).map fun k => BitVec.ofNat 8 (cs.getD (2 * k) 0 + 16 * cs.getD (2 * k + 1) 0)

/-- A list with a run of its elements replaced. -/
def putRun {α : Type} (l : List α) (k : Nat) (r : List α) : List α := l.take k ++ r ++ l.drop (k + r.length)

/-- LQ4 (R111). -/
def execLq4 (c : Common) (f : FormA) (s : State) : Res :=
  fireVals c (fun b m s =>
    let nbv := nbvOf s b m.ctx
    let w := c.ty.width true
    let kb := bits f.aux7 3 3
    let mrg := f.aux7.getLsbD 2
    let ty := bits f.aux7 0 2
    let code0 := if mrg then vecBytes ((m.b.map fun t => valVec t.val).getD 0) else List.replicate 128 0
    let scal0 := if mrg then leBytes 8 ((m.c.map fun t => valWord t.val).getD 0).toNat else List.replicate 8 0
    let r := (List.range (if c.ty = .f32 then 1 else 2)).foldl (fun (acc : List Byte × List Byte) k =>
      let q := q4Block nbv ty f.rnd ((List.range 32).map fun i => (fmtOf c.ty).decode (patAt true w (32 * k + i) m.a))
      (putRun acc.1 (16 * (kb + k)) (codeBytes q.1), putRun acc.2 (kb + k) [BitVec.ofNat 8 q.2])) (code0, scal0)
    (.vec (bytesVec r.1), .sc (word (leNat r.2)))) (.vec 0) (.sc 0) s

end Sys2Proof.Machine
end

