-- ==== Sys2Proof/Machine/Monitors.lean ====
section
/-!
DEFINITION. Sys2Proof/Machine/Monitors.lean: health monitors (R383, R384) and operating points (R385).
-/
namespace Sys2Proof.Machine

open Sys2Proof

/-! ## Monitors -/

def State.modMon (s : State) (b : Nat) (f : Monitor → Monitor) : State := s.modBay b fun y => { y with mon := f y.mon }

/-- Log an alarm: the reading in D0, the threshold in D1; the bay's partition and the physical function (R382). -/
def alarm (s : State) (b code : Nat) (reading threshold : Word) : State :=
  s.eventFor (some b) { RecBody.blank code 0 with bay := some b, cyc := (s.bay b).clk, d0 := reading, d1 := threshold }

/-- TEMP_SAMPLE (R384): at or above TEMPTHR the armed alarm fires and is disarmed; below TEMPTHR − TEMPHYS it re-arms. -/
def execTempSample (b : Nat) (r : BitVec 32) (s : State) : Res :=
  .next (if Config.bays ≤ b then s
  else
    let m := (s.bay b).mon
    let s := s.modMon b fun m => { m with temp := r }
    if m.tempThr.toInt ≤ r.toInt then
      if m.armed then
        alarm (s.modMon b fun m => { m with armed := false }) b 0x84 (r.signExtend 64) (m.tempThr.signExtend 64)
      else s
    else if r.toInt < m.tempThr.toInt - m.tempHys.toNat then s.modMon b fun m => { m with armed := true }
    else s)

/-- VOLTAGE_DROOP (R384): a droop deeper than DROOPMV counts; every DROOPLIM of them raise an alarm. -/
def execVoltageDroop (b depth : Nat) (s : State) : Res :=
  .next (if Config.bays ≤ b then s
  else
    let m := (s.bay b).mon
    if depth ≤ bits m.droopCfg 0 16 then s
    else
      let n := m.droopCnt + 1
      let lim := bits m.droopCfg 16 16
      let s := s.modMon b fun m => { m with droopCnt := n }
      if lim = 0 ∨ (n - m.droopAt).toNat < lim then s
      else alarm (s.modMon b fun m => { m with droopAt := n }) b 0x85 (n.setWidth 64) (word lim))

/-- PROCESS_INTERVAL (R384): an interval that ends below PROCMIN raises an alarm. -/
def execProcessInterval (b : Nat) (c : BitVec 32) (s : State) : Res :=
  .next (if Config.bays ≤ b then s
  else
    let s := s.modMon b fun m => { m with procNow := c }
    let lo := (s.bay b).mon.procMin
    if c.toNat < lo.toNat then alarm s b 0x86 (c.setWidth 64) (lo.setWidth 64) else s)

/-! ## Operating points (R385) -/

def State.dieOp (s : State) (d : Nat) : DieOp := AMap.getD s.dieop d ⟨0, false⟩

/-- DIEOP_WRITE (R385): dropped while BUSY, for an OP above 3, or with another bit set; BUSY itself is read only. -/
def execDieopWrite (d : Nat) (v : Word) (s : State) : Res :=
  .next (if 2 ≤ d ∨ (s.dieOp d).busy ∨ !onlyIn v [(63, 1), (0, 2)] then s
  else { s with dieop := AMap.set s.dieop d ⟨bits v 0 8, true⟩ })

/-- OPERATING_POINT_SETTLED (R385). -/
def execOperatingPointSettled (d : Nat) (s : State) : Res :=
  .next { s with dieop := AMap.upd s.dieop d fun x => { x with busy := false } }

end Sys2Proof.Machine
end

