-- ==== Sys2Proof/Machine/Lattice.lean ====
section
/-!
DEFINITION. Sys2Proof/Machine/Lattice.lean: ML-KEM-1024 (FIPS 203) and ML-DSA-87 (FIPS 204), which R376 and R378 name (log 7). A
polynomial is a list of 256 coefficients below the modulus, and a vector a list of polynomials.
-/
namespace Sys2Proof.Machine

open Sys2Proof

/-! ## Polynomials -/

abbrev Poly := List Nat
abbrev PolyVec := List Poly

def polyAdd (q : Nat) (a b : Poly) : Poly := List.zipWith (fun x y => (x + y) % q) a b
def polySub (q : Nat) (a b : Poly) : Poly := List.zipWith (fun x y => (x + q - y) % q) a b
def polyScale (q c : Nat) (a : Poly) : Poly := a.map fun x => c * x % q
def polyZero : Poly := List.replicate 256 0

/-- The `n` low bits of a number in reverse. -/
def bitRev : Nat → Nat → Nat
  | 0, _ => 0
  | n + 1, v => v % 2 * 2 ^ n + bitRev n (v / 2)

/-- A number-theoretic transform: its modulus, its root, the order of the root, its number of layers. -/
structure Ntt where
  q      : Nat
  root   : Nat
  order  : Nat
  layers : Nat
  deriving DecidableEq, Repr

/-- The power of the root that block `k` of the tree takes. -/
def Ntt.zeta (z : Ntt) (k : Nat) : Nat := z.root ^ bitRev z.layers k % z.q
def Ntt.zetaInv (z : Ntt) (k : Nat) : Nat := z.root ^ (z.order - bitRev z.layers k) % z.q

/-- Split block `k`, `d` layers above the last. -/
def Ntt.split (z : Ntt) : Nat → Nat → Poly → Poly
  | 0, _, l => l
  | d + 1, k, l =>
    let h := l.length / 2
    let t := polyScale z.q (z.zeta k) (l.drop h)
    z.split d (2 * k) (polyAdd z.q (l.take h) t) ++ z.split d (2 * k + 1) (polySub z.q (l.take h) t)

/-- Join block `k` again, but for a factor of 2 a layer. -/
def Ntt.join (z : Ntt) : Nat → Nat → Poly → Poly
  | 0, _, l => l
  | d + 1, k, l =>
    let h := l.length / 2
    let a := z.join d (2 * k) (l.take h)
    let b := z.join d (2 * k + 1) (l.drop h)
    polyAdd z.q a b ++ polyScale z.q (z.zetaInv k) (polySub z.q a b)

/-- The inverse of 2 modulo an odd number. -/
def half (q : Nat) : Nat := (q + 1) / 2

def Ntt.fwd (z : Ntt) (a : Poly) : Poly := z.split z.layers 1 a
def Ntt.inv (z : Ntt) (a : Poly) : Poly := polyScale z.q (half z.q ^ z.layers % z.q) (z.join z.layers 1 a)

/-- A polynomial as bytes, `d` bits a coefficient, and back. -/
def packBits (d : Nat) (a : List Nat) : List Byte := leBytes (a.length * d / 8) (a.foldr (fun x v => x % 2 ^ d + 2 ^ d * v) 0)
def unpackBits (d : Nat) (l : List Byte) : Poly := let v := leNat l; (List.range 256).map fun i => v / 2 ^ (d * i) % 2 ^ d

/-- The pieces of a byte string, `n` bytes each. -/
def chunks (n k : Nat) (l : List Byte) : List (List Byte) := (List.range k).map fun i => (l.drop (n * i)).take n

/-- The first 256 of what a sampler accepts. -/
def firstOf (l : List Nat) : Poly := (l ++ polyZero).take 256

/-- Three bytes as a number of 24 bits, for a sampler. -/
def triples (n : Nat) (l : List Byte) : List Nat := (chunks 3 n l).map leNat

/-! ## ML-KEM-1024 -/

def kemNtt : Ntt := ⟨3329, 17, 256, 7⟩
def kq : Nat := 3329

/-- SampleNTT of a seed and two indices; 1,344 bytes hold 256 coefficients, as FIPS 203 lets an implementation assume. -/
def kemSample (rho : List Byte) (j i : Nat) : Poly :=
  let xs := shake128 (rho ++ [BitVec.ofNat 8 j, BitVec.ofNat 8 i]) 1344
  firstOf ((triples 448 xs).flatMap fun v => [v % 4096, v / 4096].filter fun d => d < kq)

/-- SamplePolyCBD with eta 2 of a seed and a number. -/
def kemCbd (seed : List Byte) (n : Nat) : Poly :=
  let v := leNat (shake256 (seed ++ [BitVec.ofNat 8 n]) 128)
  (List.range 256).map fun i =>
    let b (k : Nat) : Nat := v / 2 ^ (4 * i + k) % 2
    (kq + b 0 + b 1 - b 2 - b 3) % kq

/-- Products in the transformed domain: pairs, modulo X^2 - zeta^(2 BitRev7(i) + 1). -/
def kemMul (a b : Poly) : Poly :=
  (List.range 128).flatMap fun i =>
    let g := 17 ^ (2 * bitRev 7 i + 1) % kq
    let x0 := a.getD (2 * i) 0
    let x1 := a.getD (2 * i + 1) 0
    let y0 := b.getD (2 * i) 0
    let y1 := b.getD (2 * i + 1) 0
    [(x0 * y0 + x1 * y1 % kq * g) % kq, (x0 * y1 + x1 * y0) % kq]

def kemDot (a b : PolyVec) : Poly := (List.zipWith kemMul a b).foldl (polyAdd kq) polyZero

/-- The matrix of a seed; transposed for encryption. -/
def kemMatrix (rho : List Byte) (tr : Bool) : List PolyVec :=
  (List.range 4).map fun i => (List.range 4).map fun j => if tr then kemSample rho i j else kemSample rho j i

def kemCompress (d : Nat) (a : Poly) : Poly := a.map fun x => (2 ^ d * x * 2 + kq) / (2 * kq) % 2 ^ d
def kemExpand (d : Nat) (a : Poly) : Poly := a.map fun y => (kq * y * 2 + 2 ^ d) / 2 ^ (d + 1)

/-- K-PKE key generation: the encryption key, and the secret vector as bytes. -/
def pkeKeys (d : List Byte) : List Byte × List Byte :=
  let g := sha3 (d ++ [4])
  let rho := g.take 32
  let sigma := g.drop 32
  let vec (n : Nat) : PolyVec := (List.range 4).map fun i => kemNtt.fwd (kemCbd sigma (n + i))
  let s := vec 0
  let t := List.zipWith (fun row e => polyAdd kq (kemDot row s) e) (kemMatrix rho false) (vec 4)
  (t.flatMap (packBits 12) ++ rho, s.flatMap (packBits 12))

/-- K-PKE encryption of 32 bytes with 32 bytes of randomness. -/
def pkeEncrypt (ek m r : List Byte) : List Byte :=
  let t := (chunks 384 4 ek).map fun l => (unpackBits 12 l).map (· % kq)
  let rho := (ek.drop 1536).take 32
  let y := (List.range 4).map fun i => kemNtt.fwd (kemCbd r i)
  let u := (kemMatrix rho true).zipIdx.map fun e => polyAdd kq (kemNtt.inv (kemDot e.1 y)) (kemCbd r (4 + e.2))
  let v := polyAdd kq (polyAdd kq (kemNtt.inv (kemDot t y)) (kemCbd r 8)) (kemExpand 1 (unpackBits 1 m))
  u.flatMap (fun a => packBits 11 (kemCompress 11 a)) ++ packBits 5 (kemCompress 5 v)

/-- K-PKE decryption. -/
def pkeDecrypt (dk c : List Byte) : List Byte :=
  let u := (chunks 352 4 c).map fun l => kemNtt.fwd (kemExpand 11 (unpackBits 11 l))
  let v := kemExpand 5 (unpackBits 5 (c.drop 1408))
  let s := (chunks 384 4 dk).map (unpackBits 12)
  packBits 1 (kemCompress 1 (polySub kq v (kemNtt.inv (kemDot s u))))

/-- The encapsulation key of a key pair, by the two seeds it was generated from: 1,568 bytes. -/
def kemEk (d : List Byte) : List Byte := (pkeKeys d).1

/-- Decapsulation: the shared secret of a ciphertext, and with a ciphertext that encryption does not give again a secret of its own. -/
def kemDecaps (d z c : List Byte) : List Byte :=
  let keys := pkeKeys d
  let m := pkeDecrypt keys.2 c
  let g := sha3 (m ++ sha3_256 keys.1)
  if pkeEncrypt keys.1 m (g.drop 32) = c then g.take 32 else shake256 (z ++ c) 32

/-! ## ML-DSA-87 -/

def dq : Nat := 8380417
def dsaNtt : Ntt := ⟨8380417, 1753, 512, 8⟩
def dsaMul (a b : Poly) : Poly := List.zipWith (fun x y => x * y % dq) a b
def dsaDot (a b : PolyVec) : Poly := (List.zipWith dsaMul a b).foldl (polyAdd dq) polyZero

/-- A coefficient from 0 on as the number nearest to zero. -/
def centre (x : Nat) : Int := if 2 * x ≤ dq then (x : Int) else (x : Int) - dq
def uncentre (x : Int) : Nat := (x % (dq : Int)).toNat
/-- Are all coefficients of a vector below a bound in magnitude? -/
def smallVec (b : Nat) (v : PolyVec) : Bool := v.all fun a => a.all fun x => (centre x).natAbs < b

/-- ExpandA. -/
def dsaMatrix (rho : List Byte) : List PolyVec :=
  (List.range 8).map fun r => (List.range 7).map fun s =>
    firstOf (((triples 336 (shake128 (rho ++ [BitVec.ofNat 8 s, BitVec.ofNat 8 r]) 1008)).map fun v => v % 2 ^ 23).filter fun x => x < dq)

/-- RejBoundedPoly with eta 2, of a seed and a number. -/
def dsaBounded (seed : List Byte) (n : Nat) : Poly :=
  let zs := (shake256 (seed ++ leBytes 2 n) 544).flatMap fun z => [z.toNat % 16, z.toNat / 16]
  firstOf ((zs.filter fun z => z < 15).map fun z => (dq + 2 - z % 5) % dq)

/-- Power2Round by 2^13: the high part and the low part. -/
def power2Round (x : Nat) : Nat × Nat :=
  let r0 : Int := if 2 ^ 12 < x % 2 ^ 13 then (x % 2 ^ 13 : Nat) - 2 ^ 13 else (x % 2 ^ 13 : Nat)
  ((((x : Int) - r0) / 2 ^ 13).toNat, uncentre r0)

def gamma1 : Nat := 2 ^ 19
def gamma2 : Nat := 261888

/-- Decompose by 2 gamma2: the high part and the low part. -/
def decompose (x : Nat) : Nat × Int :=
  let m := x % (2 * gamma2)
  let r0 : Int := if gamma2 < m then (m : Int) - 2 * gamma2 else m
  if (x : Int) - r0 = dq - 1 then (0, r0 - 1) else ((((x : Int) - r0) / (2 * gamma2)).toNat, r0)

/-- UseHint. -/
def useHint (h x : Nat) : Nat :=
  let d := decompose x
  if h = 0 then d.1 else if 0 < d.2 then (d.1 + 1) % 16 else (d.1 + 15) % 16

/-- The public and the secret parts of a key pair (ML-DSA.KeyGen). -/
structure DsaKey where
  pk   : List Byte
  rho  : List Byte
  key  : List Byte
  s1   : PolyVec
  s2   : PolyVec
  t0   : PolyVec
  deriving DecidableEq, Repr

def dsaKeys (xi : List Byte) : DsaKey :=
  let g := shake256 (xi ++ [8, 7]) 128
  let rho := g.take 32
  let seed := (g.drop 32).take 64
  let s1 := (List.range 7).map (dsaBounded seed)
  let s2 := (List.range 8).map fun r => dsaBounded seed (7 + r)
  let t := List.zipWith (fun row e => polyAdd dq (dsaNtt.inv (dsaDot row (s1.map dsaNtt.fwd))) e) (dsaMatrix rho) s2
  { pk := rho ++ t.flatMap (fun a => packBits 10 (a.map fun x => (power2Round x).1))
    rho := rho, key := g.drop 96, s1 := s1, s2 := s2, t0 := t.map fun a => a.map fun x => (power2Round x).2 }

/-- SampleInBall: 60 coefficients of 1 or -1. -/
def inBall (c : List Byte) : Poly :=
  let xs := shake256 c 272
  let signs := leNat (xs.take 8)
  let pick (st : Poly × List Byte) (k : Nat) : Poly × List Byte :=
    let i := 196 + k
    let rest := st.2.dropWhile fun x => i < x.toNat
    let j := (rest.headD 0).toNat
    (((st.1.set i (st.1.getD j 0)).set j (if signs / 2 ^ k % 2 = 1 then dq - 1 else 1)), rest.tail)
  ((List.range 60).foldl pick (polyZero, xs.drop 8)).1

/-- ExpandMask: the vector of a seed and a count. -/
def dsaMask (seed : List Byte) (kappa : Nat) : PolyVec :=
  (List.range 7).map fun r =>
    (unpackBits 20 (shake256 (seed ++ leBytes 2 (kappa + r)) 640)).map fun x => (gamma1 + dq - x) % dq

/-- The bytes of a vector of hints: the places of the ones of each polynomial, then where each polynomial's end. -/
def hintPack (h : List Poly) : List Byte :=
  let ones (a : Poly) : List Nat := (List.range 256).filter fun i => a.getD i 0 == 1
  let idx := h.flatMap ones
  let ends := (List.range 8).map fun k => ((h.take (k + 1)).flatMap ones).length
  ((idx ++ List.replicate 75 0).take 75 ++ ends).map (BitVec.ofNat 8)

/-- Do numbers rise? -/
def rising : List Nat → Bool
  | a :: b :: l => a < b && rising (b :: l)
  | _ => true

/-- The hints of a signature: none where the bytes are not in their one form. -/
def hintUnpack (l : List Byte) : Option (List Poly) :=
  let v := l.map (·.toNat)
  let stop (k : Nat) : Nat := if k = 0 then 0 else v.getD (74 + k) 0
  let run (k : Nat) : List Nat := (v.drop (stop k)).take (stop (k + 1) - stop k)
  if (List.range 8).all (fun k => stop k ≤ stop (k + 1) && stop (k + 1) ≤ 75 && rising (run k)) &&
      ((v.take 75).drop (stop 8)).all (· == 0) then
    some ((List.range 8).map fun k => (List.range 256).map fun i => if (run k).contains i then 1 else 0)
  else none

/-- The bytes of the high parts of a vector. -/
def w1Bytes (w1 : PolyVec) : List Byte := w1.flatMap (packBits 4)

/-- One attempt to sign (ML-DSA.Sign_internal): none when it is rejected. -/
def signTry (k : DsaKey) (a : List PolyVec) (mu seed : List Byte) (kappa : Nat) : Option (List Byte) :=
  let y := dsaMask seed kappa
  let w := a.map fun row => dsaNtt.inv (dsaDot row (y.map dsaNtt.fwd))
  let cb := shake256 (mu ++ w1Bytes (w.map fun p => p.map fun x => (decompose x).1)) 64
  let c := dsaNtt.fwd (inBall cb)
  let times (v : PolyVec) : PolyVec := v.map fun p => dsaNtt.inv (dsaMul c (dsaNtt.fwd p))
  let z := List.zipWith (polyAdd dq) y (times k.s1)
  let r := List.zipWith (polySub dq) w (times k.s2)
  let ct0 := times k.t0
  let h := List.zipWith (fun p t => List.zipWith (fun x e =>
    if (decompose ((x + e) % dq)).1 = (decompose x).1 then 0 else 1) p t) r ct0
  if smallVec (gamma1 - 120) z && (r.all fun p => p.all fun x => (decompose x).2.natAbs < gamma2 - 120) && smallVec gamma2 ct0 &&
      (h.map fun p => p.foldl (· + ·) 0).foldl (· + ·) 0 ≤ 75 then
    some (cb ++ z.flatMap (fun p => packBits 20 (p.map fun x => (gamma1 + dq - x) % dq)) ++ hintPack h)
  else none

def signLoop (k : DsaKey) (a : List PolyVec) (mu seed : List Byte) : Nat → Nat → List Byte
  | 0, _ => List.replicate 4627 0
  | n + 1, kappa =>
    match signTry k a mu seed kappa with
    | some s => s
    | none => signLoop k a mu seed n (kappa + 7)

/-- What is signed of a message with an empty context string. -/
def dsaMu (pk m : List Byte) : List Byte := shake256 (shake256 pk 64 ++ [0, 0] ++ m) 64

/-- The signature of a message, with 32 bytes of randomness: 4,627 bytes; all zero should 814 attempts be rejected, the number that FIPS
204 lets an implementation stop after. -/
def dsaSign (xi rnd m : List Byte) : List Byte :=
  let k := dsaKeys xi
  let mu := dsaMu k.pk m
  signLoop k (dsaMatrix k.rho) mu (shake256 (k.key ++ rnd ++ mu) 64) 814 0

/-- Is this the signature of a message under a public key (ML-DSA.Verify)? -/
def dsaVerify (pk m sig : List Byte) : Bool :=
  let cb := sig.take 64
  let z := (chunks 640 7 (sig.drop 64)).map fun l => (unpackBits 20 l).map fun x => (gamma1 + dq - x) % dq
  let t1 := (chunks 320 8 (pk.drop 32)).map (unpackBits 10)
  match hintUnpack (sig.drop 4544) with
  | none => false
  | some h =>
    let c := dsaNtt.fwd (inBall cb)
    let zh := z.map dsaNtt.fwd
    let w := List.zipWith (fun row t => dsaNtt.inv (polySub dq (dsaDot row zh) (dsaMul c (dsaNtt.fwd (polyScale dq (2 ^ 13) t)))))
      (dsaMatrix (pk.take 32)) t1
    pk.length == 2592 && sig.length == 4627 && smallVec (gamma1 - 120) z &&
      cb == shake256 (dsaMu pk m ++ w1Bytes (List.zipWith (fun p q => List.zipWith useHint p q) h w)) 64

end Sys2Proof.Machine
end

