-- ==== Sys2Proof/Machine/PartitionEvents.lean ====
section
/-!
DEFINITION. Sys2Proof/Machine/PartitionEvents.lean: partitions (R371 to R373), zeroisation (R374), sealed blobs (R376), boot and
attestation (R378, R404).
-/
namespace Sys2Proof.Machine

open Sys2Proof

/-! ## Creation and teardown (R372) -/

/-- May PCTL and BAYS change: no configuration is loaded or being loaded, no launch bound, nothing zeroised or unsealed? -/
def Part.still (p : Part) : Bool :=
  p.configs.isEmpty && p.job.isNone && !(p.launches.any fun l => l.holdsBays) && !p.zbusy && p.sealSt != 1

/-- Does another partition with EN = 1 hold one of these bays? -/
def bayTaken (s : State) (n : Nat) (p : Part) : Bool :=
  s.parts.any fun e => e.1 != n && e.2.en && p.bayList.any e.2.hasBay

/-- The number of the next partition created: its keys are drawn anew (R375, R376). -/
def nextEpoch (s : State) : Nat := s.parts.foldl (fun m e => max m (e.2.epochNo + 1)) 1

/-- A partition as it is created: the series start, SCOPEPOL and DBGCTL have their reset values; registers the driver wrote
keep their values (R310 to R313, R323, R373). -/
def Part.create0 (p : Part) (v : Word) (k : Nat) : Part :=
  { p with
    pctl := putBits v 1 1 0, epochNo := k, scopePol := 5, dbgctl := false, hacc := 0, hdup := 0, hgapCnt := 0, hgapSeq := 0
    refSeq := 0, refCause := 0, lossCnt := 0, epoch := 0, hbad := 0, dnext := 1, dlComp := 0, dlFault := 0, dlEvent := 0
    records := [], faults := [], lostEv := 0, launches := [], seeds := [], ldStat := 0, ldErr := 0, bindNo := 0 }

/-- Zeroisation writes zero over a bay (R374): every store it names, with its poison marks. -/
def Bay.wipe (y : Bay) : Bay :=
  { y with
    elems := y.elems.map fun e => (e.1, { e.2 with slots := [], rows := [], issue := [], wait := [] })
    wave := [], keep := [], keepPoi := [], sites := [], acc := [], feeds := [], feedBy := [], pres := [], readers := [], zero := true }

/-- A bay is zeroised for a partition. -/
def wipeBay (n : Nat) (s : State) (b : Nat) : State :=
  { s.modBay b Bay.wipe with
    mem := s.mem.filter fun c => !inSlice b c.1
    poison := s.poison.filter fun a => !inSlice b a
    zeroQ := s.zeroQ ++ [(n, b)] }

/-- Zeroise bays; ZBUSY is 1 until all have finished. -/
def wipeBays (s : State) (n : Nat) (bs : List Nat) : State :=
  if bs.isEmpty then s else (bs.foldl (wipeBay n) s).modPart n fun p => { p with zbusy := true }

/-- PCTL_WRITE (R372): while EN = 1 the other fields are fixed. -/
def execPctlWrite (n : Nat) (v : Word) (s : State) : Res :=
  .next (
    let p := s.part n
    if Config.parts ≤ n ∨ !onlyIn v [(60, 4), (44, 16), (1, 1)] ∨ !p.still then s
    else if v.getLsbD 63 then
      if p.en || bayTaken s n p then s
      else
        let s := s.modPart n fun p => p.create0 v (nextEpoch s)
        if (s.part n).encl then wipeBays s n p.bayList else s
    else
      let t := s.modPart n fun p => { p with pctl := if p.en then putBits p.pctl 63 1 0 else putBits v 1 1 0 }
      if p.en && p.encl then wipeBays t n p.bayList else t)

/-- BAYS0 to BAYS2 replaced. -/
def Part.setBays (p : Part) (k : Nat) (v : Word) : Part :=
  if k = 0 then { p with bays0 := v } else if k = 1 then { p with bays1 := v } else { p with bays2 := v }

/-- BAYS_WRITE (R372, R374): bays that join or leave an enclave are zeroised. A write that names a bay of another partition
with EN = 1 is dropped, as a PCTL write would be (log 34). -/
def execBaysWrite (n k : Nat) (v : Word) (s : State) : Res :=
  .next (
    let p := s.part n
    let q := p.setBays k v
    if Config.parts ≤ n ∨ 3 ≤ k ∨ (k = 2 ∧ !bitsZero v 32 32) ∨ !p.still then s
    else if p.en && bayTaken s n q then s
    else
      let t := s.modPart n fun _ => q
      if p.en && p.encl then wipeBays t n ((List.range Config.bays).filter fun b => p.hasBay b != q.hasBay b) else t)

/-- ZEROISE_COMPLETE (R374): every affected bay has finished for this partition; one that is also being zeroised for another is
not yet free. -/
def execZeroiseComplete (n : Nat) (s : State) : Res :=
  .next (
    let rest := s.zeroQ.filter fun e => e.1 != n
    let bs := ((s.zeroQ.filter fun e => e.1 == n).map (·.2)).filter fun b => !rest.any fun e => e.2 == b
    let s := bs.foldl (fun s b => s.modBay b fun y => { y with zero := false }) s
    ({ s with zeroQ := rest }).modPart n fun p => { p with zbusy := false })

/-! ## Policies (R212, R373, R377) -/

/-- SCOPEPOL_WRITE (R373). -/
def execScopepolWrite (n : Nat) (v : Word) (s : State) : Res :=
  .next (if Config.parts ≤ n ∨ !onlyIn v [(0, 4)] ∨ bits v 0 3 < 3 ∨ 5 < bits v 0 3 then s
  else s.modPart n fun p => { p with scopePol := bits v 0 4 })

/-- DBGCTL_WRITE (R373). -/
def execDbgctlWrite (n : Nat) (v : Word) (s : State) : Res :=
  .next (if Config.parts ≤ n ∨ !onlyIn v [(0, 1)] ∨ (v.getLsbD 0 ∧ (s.part n).hidesBrk) then s
  else s.modPart n fun p => { p with dbgctl := v.getLsbD 0 })

/-! ## Sealed blobs (R376) -/

/-- Where a 32-byte sector of a destination lies: LPDDR of a page with E = 1, or a slice of the partition's region map, taken
from its first bound launch. -/
inductive SealLoc where
  | ok (l : Loc) (s : State)
  | wait (va : Nat)
  | bad
  deriving DecidableEq, Repr

/-- A context of a partition that is bound. -/
def boundCtx (s : State) (n : Nat) : Option CtxRt :=
  s.bays.findSome? fun e => (e.2.ctxs.find? fun c => c.2.part == n && c.2.bound.isSome).map (·.2)

def sealLoc (s : State) (n va : Nat) : SealLoc :=
  if 2 ^ 56 ≤ va then .bad
  else if (s.part n).parked.contains va then .wait va
  else
    let p := s.part n
    match findLeaf s p va with
    | .error _ => .bad
    | .ok (a, e) =>
      if !leafOk p e || !leafAllows e needW || pteKind e == 1 then .bad
      else
        let pa := pteBase e + va % pageBytes (pteSize e)
        let want := e ||| (3#64 <<< 55)
        let t := if want = e then s else s.writeBytes a (leBytes 8 want.toNat) false
        if pteM e then .wait va
        else if pa < Config.lpddr then (if pteE e then .ok ⟨pa, Config.bays, pa, 1, pteKind e, 0, some n⟩ t else .bad)
        else
          match (boundCtx s n).bind fun c => locOf n c pa with
          | some l => if l.2.2 = 0 then .ok ⟨l.1, l.2.1, pa, 0, pteKind e, 0, none⟩ t else .bad
          | none => .bad

/-- Write sectors one after another; the state before is kept by the caller. -/
def sealWrite (n : Nat) : List (Nat × List Byte) → State → SealLoc × State
  | [], s => (.bad, s)
  | (va, bs) :: l, s =>
    match sealLoc s n va with
    | .ok k t =>
      let t := homeWrite t k.enc k.key bs []
      if l.isEmpty then (.ok k t, t) else sealWrite n l t
    | r => (r, s)

/-- Is a blob's header well formed? -/
def blobOk (h : List Byte) (len : Nat) : Bool :=
  fieldOf h 0 4 == 0x4C414553 && len != 0 && len % 32 == 0 && len ≤ 2 ^ 31 && zeroAt h 1640 24

/-- The status of an unseal in SEALCMD. -/
def Part.sealDone (p : Part) (seq st : Nat) : Part := { p with sealSeq := seq, sealSt := st }

/-- Does an unseal of a partition wait for a migrating page? -/
def sealParked (s : State) (n : Nat) : Bool := s.flight.any fun i => match i with | .unsealBlob k _ => k == n | _ => false

/-- The shared secret of a ciphertext, and the encapsulation key of the enclave partition created as number `n` (R376). -/
def sharedSecret (n : Nat) (ct : List Byte) : List Byte :=
  kemDecaps (leBytes 32 (Config.kemSeed n).toNat) (leBytes 32 (Config.kemReject n).toNat) ct
def encapsKey (n : Nat) : List Byte := kemEk (leBytes 32 (Config.kemSeed n).toNat)

/-- UNSEAL (R376): decapsulate, decrypt, write, compare. A destination is judged before any byte is written; one that meets a
migrating page waits, with status BUSY, and begins anew. -/
def execUnsealBlob (n : Nat) (v : Word) (s : State) : Res :=
  .next (
    let p := s.part n
    let seq := bits v 32 32
    if Config.parts ≤ n ∨ !onlyIn v [(32, 32)] ∨ sealParked s n ∨ seq ≠ (p.sealSeq + (if p.sealSt = 1 then 0 else 1)) % 2 ^ 32 then s
    else
      let src := p.sealSrc.toNat
      let h := s.readBytes src 1664
      let len := fieldOf h 4 4
      if !p.encl then s.modPart n (·.sealDone seq 2)
      else if !blobOk h len then s.modPart n (·.sealDone seq 3)
      else
        let ss := sharedSecret p.epochNo ((h.drop 72).take 1568)
        let k := sha3Val (ss ++ h.take 8)
        let unit (u : Nat) : List Byte :=
          xtsUnit true (k.extractLsb' 256 256) (k.extractLsb' 0 256) u (s.readBytes (src + 1664 + 32 * u) 32)
        let plain := (List.range (len / 32)).map unit
        let dst (i : Nat) : Nat := p.sealDst.toNat + 32 * i
        match sealWrite n (plain.zipIdx.map fun e => (dst e.2, e.1)) s with
        | (.wait va, _) => ((parkBare s n va).modPart n (·.sealDone seq 1)).send (.unsealBlob n v)
        | (.bad, _) => s.modPart n (·.sealDone seq 5)
        | (.ok _ _, t) =>
          if sha3 (ss ++ plain.flatten) = (h.drop 8).take 64 then t.modPart n (·.sealDone seq 0)
          else (sealWrite n (plain.zipIdx.map fun e => (dst e.2, List.replicate 32 0)) t).2.modPart n (·.sealDone seq 4))

/-! ## Boot (R378, R404) -/

/-- Does a stage pass: its signature over its digest under the Gwynlin key, and its security version? -/
def stageOk (t : Config.Stage) : Bool := dsaVerify Config.gwynlinKey (sha3 t.image) t.sig && Config.minSvn ≤ t.svn

/-- Check and measure the stages: the measurement so far, the number of the next stage. -/
def bootStages : List Config.Stage → Nat → List Byte → BootSt
  | [], _, m => .up (BitVec.ofNat 512 (leNat m))
  | t :: l, i, m => if stageOk t then bootStages l (i + 1) (sha3 (m ++ sha3 t.image)) else .failed i

/-- BOOT (R378, R404): the firmware writes zero to the on-die storage before any virtual function is presented. -/
def execBoot (s : State) : Res :=
  .next (if s.boot != .off then s
  else
    match bootStages Config.stages 1 (sha3 Config.romImage) with
    | .up m =>
      { s with
        boot := .up m, bays := [], mem := s.mem.filter fun c => !onDie c.1, poison := s.poison.filter fun a => !onDie a }
    | b => { s with boot := b })

/-- The measurement of a device that has booted. -/
def State.measure (s : State) : BitVec 512 := match s.boot with | .up m => m | _ => 0

/-! ## Attestation (R378) -/

/-- The record of a context: CFG, NBV, VALID, digests. -/
def ctxRec (p : Part) (c : Nat) : List Byte :=
  match AMap.get? p.configs c with
  | none => List.replicate 136 0
  | some l => leBytes 4 l.handle ++ leBytes 1 l.obj.nbv ++ leBytes 1 1 ++ leBytes 2 0 ++ leBytes 64 l.dig.toNat ++
      leBytes 64 l.feham.toNat

/-- Bytes 0 to 2831 of a report. -/
def reportBody (s : State) (n : Nat) (nonce : List Byte) : List Byte :=
  let p := s.part n
  leBytes 4 0x52545441 ++ leBytes 4 1 ++ leBytes 4 s.devnum.toNat ++ leBytes 1 n ++
  leBytes 1 (p.encl.toNat + 2 * p.valBrk.toNat + 4 * p.valCap.toNat) ++ leBytes 2 p.tenant ++
  leBytes 8 p.bays0.toNat ++ leBytes 8 p.bays1.toNat ++ leBytes 8 p.bays2.toNat ++ leBytes 4 Config.fwSvn.toNat ++
  leBytes 4 0 ++ nonce ++ leBytes 64 s.measure.toNat ++
  (if p.encl then encapsKey p.epochNo else List.replicate 1568 0) ++
  (List.range 8).flatMap (ctxRec p)

/-- The seed of the identity key pair as bytes, and a word of its public key, which the certificate follows (R378; log 7). -/
def identityXi : List Byte := leBytes 32 Config.identitySeed.toNat
def identityWord (n : Nat) : Word :=
  if n < 324 then word (leNat (((dsaKeys identityXi).pk.drop (8 * n)).take 8)) else Config.certificate (n - 324)

/-- ATTEST (R378): the nonce is read, the report built, signed and written back through the partition's function. -/
def execAttest (n : Nat) (v : Word) (s : State) : Res :=
  .next (if !onlyIn v [(6, 46)] ∨ !vfUp s n then s
  else
    let a := hostKey n v.toNat
    let r := reportBody s n (s.readBytes a 64)
    let sig := dsaSign identityXi (leBytes 32 (Config.signRnd s.freeCtr).toNat) (sha3 r)
    s.writeBytes a (r ++ sig ++ List.replicate 29 0) false)

end Sys2Proof.Machine
end

