-- ==== Sys2Proof/Machine/Registers.lean ====
section
/-!
DEFINITION. Sys2Proof/Machine/Registers.lean: the registers of the physical function's window that a write only stores to, and
what every register reads as (R319, R320, R323, R325, R339, R347, R364, R371, R373, R376, R378, R383, R385, R387, R392).
-/
namespace Sys2Proof.Machine

open Sys2Proof

/-! ## The window -/

/-- A register of a block repeated in the window: block and offset. -/
def blockAt (off base step count : Nat) : Option (Nat × Nat) :=
  if base ≤ off ∧ off < base + step * count then some ((off - base) / step, (off - base) % step) else none

/-- A value in a register, if it sets no field marked zero. -/
def storeIn (n : Nat) (v : Word) (fs : List (Nat × Nat)) (f : Part → Part) (s : State) : State :=
  if onlyIn v fs then s.modPart n f else s

/-- The ring registers hold FQLOG 6 to 16 (R347). -/
def logOk (v : Word) : Bool := 6 ≤ bits v 0 5 && bits v 0 5 ≤ 16

/-- Where DEVNUM is written: the spec gives the register no address (log 33). -/
def devnumOff : Nat := 0x300800

/-! ## Writes -/

/-- Translation registers (R339). -/
def writeXlatReg (n o : Nat) (v : Word) (s : State) : State :=
  match o with
  | 0 => storeIn n v [(20, 32), (0, 1)] (fun p => { p with troot := v }) s
  | 8 => storeIn n v [(16, 36)] (fun p => { p with gdtBase := v }) s
  | 16 => storeIn n v [(16, 40)] (fun p => { p with shootVa := v }) s
  | _ => s

/-- Record queues (R347). -/
def writeRingReg (n o : Nat) (v : Word) (s : State) : State :=
  match o with
  | 0 => if logOk v then storeIn n v [(12, 40), (0, 5)] (fun p => { p with fqBase := v }) s else s
  | 8 => storeIn n v [(0, 32)] (fun p => { p with fqCons := v.toNat }) s
  | 24 => if logOk v then storeIn n v [(12, 40), (0, 5)] (fun p => { p with eqBase := v }) s else s
  | 32 => storeIn n v [(0, 32)] (fun p => { p with eqCons := v.toNat }) s
  | _ => s

/-- The load block (R323). -/
def writeLoadReg (n o : Nat) (v : Word) (s : State) : State :=
  match o with
  | 0 => storeIn n v [(3, 61)] (fun p => { p with ldAddr := v }) s
  | 8 => storeIn n v [(0, 32)] (fun p => { p with ldLen := v }) s
  | 16 => storeIn n v [(0, 32)] (fun p => { p with ldHandle := v }) s
  | 24 => storeIn n v [(29, 27)] (fun p => { p with ldBayWin := v }) s
  | _ => s

/-- Sealed blobs (R371). -/
def writeSealReg (n o : Nat) (v : Word) (s : State) : State :=
  match o with
  | 32 => storeIn n v [(6, 46)] (fun p => { p with sealSrc := v }) s
  | 40 => storeIn n v [(6, 50)] (fun p => { p with sealDst := v }) s
  | _ => s

/-- Monitors: 32-bit registers (R383). -/
def writeMonReg (b o : Nat) (v : Word) (s : State) : State :=
  let w := v.setWidth 32
  match o with
  | 4 => s.modMon b fun m => { m with tempThr := w }
  | 8 => if bits w 16 16 = 0 then s.modMon b fun m => { m with tempHys := w } else s
  | 16 => s.modMon b fun m => { m with droopCfg := w }
  | 24 => s.modMon b fun m => { m with procMin := w }
  | _ => s

/-- A comparator after power-on. DESIGN CHOICE (log 1): zero. -/
def Comparator.reset : Comparator := ⟨0, 0, 0, 0, 0⟩

/-- Comparators (R387): a nonzero VALMASK is dropped where R377 hides values. -/
def writeCmpReg (b k o : Nat) (v : Word) (s : State) : State :=
  let put (f : Comparator → Comparator) : State :=
    s.modBay b fun y => { y with cmps := AMap.set y.cmps k (f (AMap.getD y.cmps k Comparator.reset)) }
  match o with
  | 0 => if onlyIn v [(46, 18)] then put fun c => { c with ctl := v } else s
  | 8 => put fun c => { c with tagMask := v }
  | 16 => put fun c => { c with tagVal := v }
  | 24 => if v != 0 && (s.ownerOf b).any fun n => (s.part n).hidesBrk then s else put fun c => { c with valMask := v }
  | 32 => put fun c => { c with valVal := v }
  | _ => s

/-- Trace buffers (R392): taken only while OPEN = 0. -/
def writeTraceReg (n ctx o : Nat) (v : Word) (s : State) : State :=
  let t := (s.part n).tbuf ctx
  if t.isOpen then s
  else
    match o with
    | 0 => storeIn n v [(16, 36)] (fun p => p.setTbuf ctx { t with base := v }) s
    | 8 => storeIn n v [(0, 16)] (fun p => p.setTbuf ctx { t with size := v }) s
    | _ => s

/-- A write to a register that only stores (R347). The registers that act have instructions of their own. -/
def storeRegister (off : Nat) (v : Word) (s : State) : State :=
  if off = devnumOff then (if onlyIn v [(0, 20)] then { s with devnum := v.setWidth 20 } else s)
  else match blockAt off 0x380000 8 Config.parts with
    | some (n, 0) => if v.toNat ≤ Config.bays then s.modPart n fun p => { p with quota := v.toNat } else s
    | _ => match blockAt off 0x381000 64 Config.parts with
      | some (n, o) => writeXlatReg n o v s
      | none => match blockAt off 0x383000 64 (Config.parts + 1) with
        | some (n, o) => writeRingReg n o v s
        | none => match blockAt off 0x385000 16 Config.parts with
          | some (n, 0) => storeIn n v [(16, 36)] (fun p => { p with imgBase := v }) s
          | some (n, 8) => storeIn n v [(0, 32)] (fun p => { p with imgSize := v }) s
          | some _ => s
          | none => match blockAt off 0x386000 64 Config.parts with
            | some (n, o) => writeLoadReg n o v s
            | none => match blockAt off 0x387000 64 Config.parts with
              | some (n, o) => writeSealReg n o v s
              | none => match blockAt off 0x38C000 32 Config.bays with
                | some (b, o) => writeMonReg b o v s
                | none => match blockAt off 0x390000 64 (4 * Config.bays) with
                  | some (k, o) => writeCmpReg (k / 4) (k % 4) o v s
                  | none => match blockAt off 0x39A000 64 (8 * Config.parts) with
                    | some (k, o) => writeTraceReg (k / 8) (k % 8) o v s
                    | none => s

/-- REGISTER_WRITE (R347). -/
def execRegisterWrite (off : Nat) (v : Word) (s : State) : Res := .next (storeRegister off v s)

/-! ## Reads -/

/-- What a partition's registers read as, by block and offset. -/
def readPart (s : State) (n blk o : Nat) : Word :=
  let p := s.part n
  match blk, o with
  | 0x380000, 0 => word p.quota
  | 0x381000, 0 => p.troot
  | 0x381000, 8 => p.gdtBase
  | 0x381000, 16 => p.shootVa
  | 0x381000, 32 => word p.shootDone
  | 0x381000, 40 => word p.shootStat
  | 0x383000, 0 => p.fqBase
  | 0x383000, 8 => word p.fqCons
  | 0x383000, 16 => word p.fqProd
  | 0x383000, 24 => p.eqBase
  | 0x383000, 32 => word p.eqCons
  | 0x383000, 40 => word p.eqProd
  | 0x383000, 56 => p.fcStat
  | 0x385000, 0 => p.imgBase
  | 0x385000, 8 => p.imgSize
  | 0x386000, 0 => p.ldAddr
  | 0x386000, 8 => p.ldLen
  | 0x386000, 16 => p.ldHandle
  | 0x386000, 24 => p.ldBayWin
  | 0x386000, 40 => p.ldStat
  | 0x386000, 48 => p.ldErr
  | 0x387000, 0 => p.bays0
  | 0x387000, 8 => p.bays1
  | 0x387000, 16 => p.bays2
  | 0x387000, 24 => putBits p.pctl 1 1 p.zbusy.toNat
  | 0x387000, 32 => p.sealSrc
  | 0x387000, 40 => p.sealDst
  | 0x387000, 48 => word (p.sealSeq * 2 ^ 32 + p.sealSt)
  | 0x388000, 0 => word p.scopePol
  | 0x388000, 8 => word p.brkEn.toNat
  | _, _ => 0

/-- A bay's monitors and comparators. -/
def readMon (m : Monitor) (o : Nat) : Word :=
  match o with
  | 0 => m.temp.setWidth 64
  | 4 => m.tempThr.setWidth 64
  | 8 => m.tempHys.setWidth 64
  | 12 => m.droopCnt.setWidth 64
  | 16 => m.droopCfg.setWidth 64
  | 20 => m.procNow.setWidth 64
  | 24 => m.procMin.setWidth 64
  | _ => 0

def readCmp (c : Comparator) (o : Nat) : Word :=
  match o with
  | 0 => c.ctl
  | 8 => c.tagMask
  | 16 => c.tagVal
  | 24 => c.valMask
  | 32 => c.valVal
  | _ => 0

/-- A trace buffer's control block. -/
def readTrace (t : TraceBuf) (o : Nat) : Word :=
  match o with
  | 0 => t.base
  | 8 => t.size
  | 16 => t.ctl
  | 24 => word (if t.wrap && t.wptr == t.bytes then 0 else t.wptr)
  | 32 => word t.lost
  | _ => 0

/-- A channel's binding register, with STATE (R319). -/
def readChan (s : State) (k : Nat) : Word :=
  match AMap.get? s.chans k with
  | none => 0
  | some c => word (c.en.toNat * 2 ^ 63 + c.owner % 32 * 2 ^ 58 + c.dev % 2 ^ 20 * 2 ^ 38 + c.port % 16 * 2 ^ 34 +
      c.chan % 16 * 2 ^ 30 + chanState s (k / 16) (k % 16) * 2 ^ 28)

/-- What a register of the physical function's window reads as. A read changes nothing. -/
def registerRead (s : State) (off : Nat) : Word :=
  if off = devnumOff then s.devnum.setWidth 64
  else if off = 0x389000 then word (match s.boot with | .failed i => i | _ => 0)
  else
    let parts := [(0x380000, 8), (0x381000, 64), (0x383000, 64), (0x385000, 16), (0x386000, 64), (0x387000, 64), (0x388000, 16)]
    match parts.findSome? fun e => (blockAt off e.1 e.2 (if e.1 = 0x383000 then 33 else 32)).map fun r => (e.1, r) with
    | some (blk, n, o) => readPart s n blk o
    | none =>
      match blockAt off 0x300000 8 256, blockAt off 0x38A000 8 1024, blockAt off 0x38C000 32 Config.bays, blockAt off 0x38E000 8 2 with
      | some (k, 0), _, _, _ => readChan s k
      | _, some (k, 0), _, _ => identityWord k
      | _, _, some (b, o), _ => readMon (s.bay b).mon o
      | _, _, _, some (d, 0) => word ((s.dieOp d).op + (s.dieOp d).busy.toNat * 2 ^ 63)
      | _, _, _, _ =>
        match blockAt off 0x390000 64 (4 * Config.bays), blockAt off 0x39A000 64 (8 * Config.parts) with
        | some (k, o), _ => readCmp (AMap.getD (s.bay (k / 4)).cmps (k % 4) Comparator.reset) o
        | _, some (k, o) => readTrace ((s.part (k / 8)).tbuf (k % 8)) o
        | _, _ => 0

end Sys2Proof.Machine
end

