-- ==== Sys2Proof/Machine/RidgeEvents.lean ====
section
/-!
DEFINITION. Sys2Proof/Machine/RidgeEvents.lean: group accesses in the network and at their requester (R224 to R233): GREAD,
GPART, GWRITE, GACK, LDG_RESULT, STG_DONE.
-/
namespace Sys2Proof.Machine

open Sys2Proof

/-- The key of a member's bytes at its home: the slice offset of the physical address (R334). -/
def memberKey (home : Nat) (p : Packet) : Nat := loftKey home (p.body 136 52 % Config.sliceStep)

/-- Copy MARK into ECHO (R150). -/
def echoOf (q p : Packet) : Packet := { p with hdr := flitPut p.hdr 247 1 q.mark.toNat }

/-- GREAD (R231): widened elements, or a void partial with its status; an offline bay answers ABSENT (R222). -/
def execGread (home : Nat) (p : Packet) (s : State) : Res :=
  .next (
    let t := Ty.ofCode (BitVec.ofNat 4 (p.body 212 4))
    let w := p.body 210 1
    let n := (if w = 1 then 32 else 1) * t.size
    let pos := p.body 203 6
    let key := memberKey home p
    let stat := if s.offline.contains home then 2 else if s.poisoned key n then 1 else 0
    let bs := s.readBytes key n
    let r := packetRed p
    let v := (List.range (if w = 1 then 32 else 1)).map fun i => word (r.widen (leNat ((bs.drop (i * t.size)).take t.size)))
    let g := gpartPacket p.src home p.ctx (p.body 216 4) (p.body 212 4) (p.body 211 1) w p.rqid pos 0 stat
      (if stat = 0 then some v else none) (if stat = 0 then 0 else 2 ^ pos)
    s.emit (echoOf p g))

/-- GWRITE (R231): the bytes are performed unchanged, and GACK answers. -/
def execGwrite (home : Nat) (p : Packet) (s : State) : Res :=
  .next (
    let t := Ty.ofCode (BitVec.ofNat 4 (p.body 212 4))
    let bs := if p.body 210 1 = 1 then p.bytes else leBytes t.size (p.body 0 64)
    let key := memberKey home p
    let off := s.offline.contains home
    let s :=
      if off then s
      else noteDirty (homeWrite s none key bs (p.badBytes bs.length)) p.ctx ⟨key, home, 0, 0, 0, 0, none⟩ bs.length
    s.emit (echoOf p (mkPacket 3 p.src home p.ctx
      (fieldAt 220 4 3 + fieldAt 216 4 (p.body 216 4) + fieldAt 212 4 (p.body 212 4) + fieldAt 211 1 (p.body 211 1) +
        fieldAt 210 1 (p.body 210 1) + fieldAt 188 12 p.rqid + fieldAt 72 64 (if off then 2 ^ p.body 203 6 else 0) +
        fieldAt 68 4 (if off then 2 else 0))
      [] false)))

/-- Change a reduction buffer of a context (R232). -/
def modRed (s : State) (b ctx n : Nat) (f : RedBuf → RedBuf) : State :=
  s.modBay b fun y => { y with reds := AMap.upd y.reds n fun r => if r.ctx = ctx then f r else r }

/-- The reduction of a buffer. -/
def RedBuf.red (r : RedBuf) : Red := ridgeRed (bits r.g2 60 4) (Ty.ofCode (r.g2.extractLsb' 56 4)) (r.g2.getLsbD 55)

/-- Put a partial among those received, and merge it while its sibling is there (R232); 6 levels. -/
def putPartial (r : Red) : Nat → List GPartial → GPartial → List GPartial
  | 0, l, x => l ++ [x]
  | n + 1, l, x =>
    let m := 2 ^ x.lvl
    let sib (y : GPartial) : Bool :=
      y.lvl == x.lvl && min x.lo y.lo % (2 * m) == 0 && max x.lo y.lo == min x.lo y.lo + m
    match l.find? sib with
    | none => l ++ [x]
    | some y =>
      let lo := if x.lo < y.lo then x else y
      let hi := if x.lo < y.lo then y else x
      putPartial r n (l.filter fun z => z != y) ⟨lo.lo, x.lvl + 1, joinLanes r lo.val hi.val, x.omask ||| y.omask⟩

/-- The positions a partial covers. -/
def coverMask (lo lvl : Nat) : BitVec 64 := BitVec.ofNat 64 ((2 ^ 2 ^ lvl - 1) * 2 ^ lo)

/-- The subtree of `lvl` levels from position `lo` on, of what was received: a missing position is a void. -/
def subtree (r : Red) (l : List GPartial) : Nat → Nat → Option (List Word)
  | 0, lo => (l.find? fun x => x.lo == lo && x.lvl == 0).bind (·.val)
  | n + 1, lo =>
    match l.find? fun x => x.lo == lo && x.lvl == n + 1 with
    | some x => x.val
    | none => joinLanes r (subtree r l n lo) (subtree r l n (lo + 2 ^ n))

/-- GPART (R232): at a stop a combine unit merges it; at the requester it joins the reduction buffer. A poisoned partial
(R140) is void. -/
def execGpart (at_ : PartPlace) (p : Packet) (s : State) : Res :=
  .next (match at_ with
  | .stop e => combineAt s e p
  | .requester b =>
    modRed s b p.ctx p.rqid fun r =>
      let om := BitVec.ofNat 64 (p.body 72 64)
      let cover := coverMask (p.body 203 6) (p.body 200 3)
      let bad := if p.poi then cover &&& r.members else 0
      { r with
        pend := r.pend &&& ~~~cover
        poisoned := r.poisoned ||| bad ||| (if p.body 68 4 = 1 then om else 0)
        gone := r.gone ||| (if p.body 68 4 = 2 then om else 0)
        parts := putPartial r.red 6 r.parts
          ⟨p.body 203 6, p.body 200 3, if p.poi then none else gpartVal p, om ||| bad⟩ })

/-- A member of a stg's buffer acknowledges (R227): it is absent where the status says so. -/
def RedBuf.ack (r : RedBuf) (pos : Nat) (absent : Bool) : RedBuf :=
  { r with
    pend := r.pend &&& ~~~(1#64 <<< pos)
    gone := r.gone ||| (if absent then 1#64 <<< pos else 0) }

/-- GACK (R231): the acknowledging member is the position, at issue, of the packet's source (log 71). -/
def execGack (b : Nat) (p : Packet) (s : State) : Res :=
  .next (modRed s b p.ctx p.rqid fun r =>
    match placeOf (· == p.src) r.map 0 with
    | none => r
    | some pos => r.ack pos (p.body 68 4 == 2))

/-- Free a reduction buffer (R233). -/
def dropRed (s : State) (b n : Nat) : State := s.modBay b fun y => { y with reds := AMap.erase y.reds n }

/-- Log GROUP_OMIT, once a slot and launch (R224). -/
def groupOmit (s : State) (b : Nat) (r : RedBuf) (o : MemOp) (omitted : BitVec 64) : State :=
  match s.ctx? b r.ctx with
  | none => s
  | some c =>
    if omitted = 0 ∨ c.omitted.contains (o.el, o.slot) then s
    else
      let e := { s.recOf b r.ctx 0x87 0 with
        gate := r.gate, hnum := ((s.inst? b r.gate r.ix).map (·.hnum)).getD 0, ix := r.ix, elem := some o.el, slot := o.slot
        tag := tagOf s b r.gate r.ix, d0 := omitted, d1 := word r.off, d2 := word r.desc }
      (s.modPart c.part (·.event e)).modCtx b r.ctx fun c => { c with omitted := (o.el, o.slot) :: c.omitted }

/-- Status of a group access whose every member has answered: the fault of STRICT, or the omitted mask (R225). -/
def groupStatus (r : RedBuf) : Except (Nat × (Word × Word × Word × Word)) (BitVec 64) :=
  let d (m : BitVec 64) : Word × Word × Word × Word := (word (lowestPos m), word r.off, word r.desc, 0)
  if r.g2.getLsbD 54 then .ok (r.absent ||| r.gone ||| r.poisoned)
  else if r.gone != 0 then .error (0x17, d r.gone)
  else if r.poisoned != 0 then .error (0x18, d r.poisoned)
  else .ok 0

/-- A group access faults (R225); one whose instance is frozen keeps the fault with it (R352). -/
def groupFault (s : State) (b : Nat) (r : RedBuf) (o : MemOp) (code : Nat) (d : Word × Word × Word × Word) : State :=
  if frozenInst s b r.gate r.ix then
    s.modInst b r.gate r.ix fun i => { i with replies := i.replies ++ [(r.lsid, .group code d.1 d.2.1 d.2.2.1)] }
  else opFault s b r.gate r.ix o code d

/-- What a finished group access does: the fault of its policy, or `go` with the omitted mask. -/
def groupEnd (s : State) (b n : Nat) (store : Bool) (go : RedBuf → MemOp → BitVec 64 → State → State) : State :=
  match AMap.get? (s.bay b).reds n with
  | none => s
  | some r =>
    if r.pend != 0 || r.store != store then s
    else
      let s := dropRed s b n
      match if r.dead then none else opOf s b ⟨r.gate, r.ix, r.lsid⟩ with
      | none => kick s b
      | some o =>
        match groupStatus r with
        | .error (code, d) => kick (groupFault s b r o code d) b
        | .ok om => kick (go r o om s) b

/-- LDG_RESULT (R224). -/
def execLdgResult (b n : Nat) (s : State) : Res :=
  .next (groupEnd s b n false fun r o om s =>
    let red := r.red
    let lanes := if o.c.w then 32 else 1
    let v := ((subtree red r.parts 6 0).getD (List.replicate lanes (word red.identity))).map (·.toNat)
    let s := if o.acq then acquireActions s b r.ctx o.scope else s
    let s := groupOmit s b r o om
    let x : Val := if o.c.w then .vec (ofLanes 32 v) else .sc (extendRes red.ty 32 (v.headD 0))
    opValue s b r.gate r.ix o ⟨x, false, false⟩ (scTok om))

/-- STG_DONE (R227). -/
def execStgDone (b n : Nat) (s : State) : Res :=
  .next (groupEnd s b n true fun r o om s => opDone s b r.gate r.ix o (ctTok true) (scTok om))

end Sys2Proof.Machine
end

