-- ==== Sys2Proof/Machine/Dispatch.lean ====
section
/-!
DEFINITION. Sys2Proof/Machine/Dispatch.lean: one arm per constructor of `Instr`, one meaning per arm.
-/
namespace Sys2Proof.Machine

/-- The meaning of an instruction or of a step of the machine. -/
def exec (i : Instr) (s : State) : Host.Outcome State Fault Refusal :=
  match i with
  | .add c f => Sys2Proof.Machine.execAdd c f s
  | .sub c f => Sys2Proof.Machine.execSub c f s
  | .neg c f => Sys2Proof.Machine.execNeg c f s
  | .abs c f => Sys2Proof.Machine.execAbs c f s
  | .min c f => Sys2Proof.Machine.execMin c f s
  | .max c f => Sys2Proof.Machine.execMax c f s
  | .mul c f => Sys2Proof.Machine.execMul c f s
  | .mulh c f => Sys2Proof.Machine.execMulh c f s
  | .mad c f => Sys2Proof.Machine.execMad c f s
  | .div c f => Sys2Proof.Machine.execDiv c f s
  | .rem c f => Sys2Proof.Machine.execRem c f s
  | .and c f => Sys2Proof.Machine.execAnd c f s
  | .or c f => Sys2Proof.Machine.execOr c f s
  | .xor c f => Sys2Proof.Machine.execXor c f s
  | .andn c f => Sys2Proof.Machine.execAndn c f s
  | .not c f => Sys2Proof.Machine.execNot c f s
  | .shl c f => Sys2Proof.Machine.execShl c f s
  | .shr c f => Sys2Proof.Machine.execShr c f s
  | .sar c f => Sys2Proof.Machine.execSar c f s
  | .rol c f => Sys2Proof.Machine.execRol c f s
  | .clz c f => Sys2Proof.Machine.execClz c f s
  | .ctz c f => Sys2Proof.Machine.execCtz c f s
  | .popc c f => Sys2Proof.Machine.execPopc c f s
  | .brev c f => Sys2Proof.Machine.execBrev c f s
  | .bfx c f => Sys2Proof.Machine.execBfx c f s
  | .bfi c f => Sys2Proof.Machine.execBfi c f s
  | .sel c f => Sys2Proof.Machine.execSel c f s
  | .ceq c f => Sys2Proof.Machine.execCeq c f s
  | .cne c f => Sys2Proof.Machine.execCne c f s
  | .clt c f => Sys2Proof.Machine.execClt c f s
  | .cle c f => Sys2Proof.Machine.execCle c f s
  | .cvi c f => Sys2Proof.Machine.execCvi c f s
  | .adsc c f => Sys2Proof.Machine.execAdsc c f s
  | .fadd c f => Sys2Proof.Machine.execFadd c f s
  | .fsub c f => Sys2Proof.Machine.execFsub c f s
  | .fmul c f => Sys2Proof.Machine.execFmul c f s
  | .fma c f => Sys2Proof.Machine.execFma c f s
  | .fnma c f => Sys2Proof.Machine.execFnma c f s
  | .fmin c f => Sys2Proof.Machine.execFmin c f s
  | .fmax c f => Sys2Proof.Machine.execFmax c f s
  | .fabs c f => Sys2Proof.Machine.execFabs c f s
  | .fneg c f => Sys2Proof.Machine.execFneg c f s
  | .fdiv c f => Sys2Proof.Machine.execFdiv c f s
  | .fsqrt c f => Sys2Proof.Machine.execFsqrt c f s
  | .frsq c f => Sys2Proof.Machine.execFrsq c f s
  | .frcp c f => Sys2Proof.Machine.execFrcp c f s
  | .fexp2 c f => Sys2Proof.Machine.execFexp2 c f s
  | .flog2 c f => Sys2Proof.Machine.execFlog2 c f s
  | .fceq c f => Sys2Proof.Machine.execFceq c f s
  | .fclt c f => Sys2Proof.Machine.execFclt c f s
  | .fcle c f => Sys2Proof.Machine.execFcle c f s
  | .fcun c f => Sys2Proof.Machine.execFcun c f s
  | .fcvt c f => Sys2Proof.Machine.execFcvt c f s
  | .fcvi c f => Sys2Proof.Machine.execFcvi c f s
  | .icvf c f => Sys2Proof.Machine.execIcvf c f s
  | .frint c f => Sys2Proof.Machine.execFrint c f s
  | .fscal c f => Sys2Proof.Machine.execFscal c f s
  | .fclass c f => Sys2Proof.Machine.execFclass c f s
  | .fpk c f => Sys2Proof.Machine.execFpk c f s
  | .lperm c f => Sys2Proof.Machine.execLperm c f s
  | .lbcast c f => Sys2Proof.Machine.execLbcast c f s
  | .lext c f => Sys2Proof.Machine.execLext c f s
  | .lins c f => Sys2Proof.Machine.execLins c f s
  | .lred c f => Sys2Proof.Machine.execLred c f s
  | .lscan c f => Sys2Proof.Machine.execLscan c f s
  | .lcmpr c f => Sys2Proof.Machine.execLcmpr c f s
  | .lexpd c f => Sys2Proof.Machine.execLexpd c f s
  | .lrot c f => Sys2Proof.Machine.execLrot c f s
  | .lzip c f => Sys2Proof.Machine.execLzip c f s
  | .lunzip c f => Sys2Proof.Machine.execLunzip c f s
  | .lq4 c f => Sys2Proof.Machine.execLq4 c f s
  | .mov c f => Sys2Proof.Machine.execMov c f s
  | .mov4 c f => Sys2Proof.Machine.execMov4 c f s
  | .const c f => Sys2Proof.Machine.execConst c f s
  | .steer c f => Sys2Proof.Machine.execSteer c f s
  | .gate c f => Sys2Proof.Machine.execGate c f s
  | .null c f => Sys2Proof.Machine.execNull c f s
  | .sync c f => Sys2Proof.Machine.execSync c f s
  | .count c f => Sys2Proof.Machine.execCount c f s
  | .fold c f => Sys2Proof.Machine.execFold c f s
  | .incf c f => Sys2Proof.Machine.execIncf c f s
  | .pushf c f => Sys2Proof.Machine.execPushf c f s
  | .popf c f => Sys2Proof.Machine.execPopf c f s
  | .setf c f => Sys2Proof.Machine.execSetf c f s
  | .getf c f => Sys2Proof.Machine.execGetf c f s
  | .ordj c f => Sys2Proof.Machine.execOrdj c f s
  | .exit c f => Sys2Proof.Machine.execExit c f s
  | .call c f => Sys2Proof.Machine.execCall c f s
  | .ret c f => Sys2Proof.Machine.execRet c f s
  | .discard c f => Sys2Proof.Machine.execDiscard c f s
  | .kget c f => Sys2Proof.Machine.execKget c f s
  | .kput c f => Sys2Proof.Machine.execKput c f s
  | .ld c f => Sys2Proof.Machine.execLd c f s
  | .st c f => Sys2Proof.Machine.execSt c f s
  | .ldv c f => Sys2Proof.Machine.execLdv c f s
  | .stv c f => Sys2Proof.Machine.execStv c f s
  | .ldg c f => Sys2Proof.Machine.execLdg c f s
  | .stg c f => Sys2Proof.Machine.execStg c f s
  | .ldo c f => Sys2Proof.Machine.execLdo c f s
  | .sto c f => Sys2Proof.Machine.execSto c f s
  | .sflush c f => Sys2Proof.Machine.execSflush c f s
  | .sinv c f => Sys2Proof.Machine.execSinv c f s
  | .srel c f => Sys2Proof.Machine.execSrel c f s
  | .sdepth c f => Sys2Proof.Machine.execSdepth c f s
  | .fence c f => Sys2Proof.Machine.execFence c f s
  | .xlat c f => Sys2Proof.Machine.execXlat c f s
  | .aadd c f => Sys2Proof.Machine.execAadd c f s
  | .amin c f => Sys2Proof.Machine.execAmin c f s
  | .amax c f => Sys2Proof.Machine.execAmax c f s
  | .aand c f => Sys2Proof.Machine.execAand c f s
  | .aor c f => Sys2Proof.Machine.execAor c f s
  | .axor c f => Sys2Proof.Machine.execAxor c f s
  | .axch c f => Sys2Proof.Machine.execAxch c f s
  | .acas c f => Sys2Proof.Machine.execAcas c f s
  | .ainc c f => Sys2Proof.Machine.execAinc c f s
  | .adec c f => Sys2Proof.Machine.execAdec c f s
  | .faadd c f => Sys2Proof.Machine.execFaadd c f s
  | .mma c f => Sys2Proof.Machine.execMma c f s
  | .mmaq c f => Sys2Proof.Machine.execMmaq c f s
  | .aclr c f => Sys2Proof.Machine.execAclr c f s
  | .adrn c f => Sys2Proof.Machine.execAdrn c f s
  | .scopy c f => Sys2Proof.Machine.execScopy c f s
  | .sgath c f => Sys2Proof.Machine.execSgath c f s
  | .sscat c f => Sys2Proof.Machine.execSscat c f s
  | .strn c f => Sys2Proof.Machine.execStrn c f s
  | .slay c f => Sys2Proof.Machine.execSlay c f s
  | .speer c f => Sys2Proof.Machine.execSpeer c f s
  | .sstop c f => Sys2Proof.Machine.execSstop c f s
  | .rngset c f => Sys2Proof.Machine.execRngset c f s
  | .rngnext c f => Sys2Proof.Machine.execRngnext c f s
  | .rngsteal c f => Sys2Proof.Machine.execRngsteal c f s
  | .seed c f => Sys2Proof.Machine.execSeed c f s
  | .trap c f => Sys2Proof.Machine.execTrap c f s
  | .brk c f => Sys2Proof.Machine.execBrk c f s
  | .srd c f => Sys2Proof.Machine.execSrd c f s
  | .swr c f => Sys2Proof.Machine.execSwr c f s
  | .mark c f => Sys2Proof.Machine.execMark c f s
  | .halt c f => Sys2Proof.Machine.execHalt c f s
  | .probe c f => Sys2Proof.Machine.execProbe c f s
  | .tokenArrive m => Sys2Proof.Machine.execTokenArrive m s
  | .waithistSpill bay ctx el slot => Sys2Proof.Machine.execWaithistSpill bay ctx el slot s
  | .gateEntryToken m => Sys2Proof.Machine.execGateEntryToken m s
  | .admitTag bay gate ctx hnum => Sys2Proof.Machine.execAdmitTag bay gate ctx hnum s
  | .settle bay gate ix => Sys2Proof.Machine.execSettle bay gate ix s
  | .commit bay gate ix => Sys2Proof.Machine.execCommit bay gate ix s
  | .limUpdate bay gate ctx hnum => Sys2Proof.Machine.execLimUpdate bay gate ctx hnum s
  | .quiescenceWave part hseq => Sys2Proof.Machine.execQuiescenceWave part hseq s
  | .query bay p => Sys2Proof.Machine.execQuery bay p s
  | .qreply bay p => Sys2Proof.Machine.execQreply bay p s
  | .launchComplete part hseq => Sys2Proof.Machine.execLaunchComplete part hseq s
  | .packetArrive at_ p err => Sys2Proof.Machine.execPacketArrive at_ p err s
  | .packetSend out => Sys2Proof.Machine.execPacketSend out s
  | .creditReturn dst cls => Sys2Proof.Machine.execCreditReturn dst cls s
  | .boundaryTokenSend bay => Sys2Proof.Machine.execBoundaryTokenSend bay s
  | .mreq home p => Sys2Proof.Machine.execMreq home p s
  | .mrep bay p => Sys2Proof.Machine.execMrep bay p s
  | .fillDataArrive bay site buf p => Sys2Proof.Machine.execFillDataArrive bay site buf p s
  | .streamFetch bay site => Sys2Proof.Machine.execStreamFetch bay site s
  | .depUpdate bay site => Sys2Proof.Machine.execDepUpdate bay site s
  | .gread home p => Sys2Proof.Machine.execGread home p s
  | .gpart at_ p => Sys2Proof.Machine.execGpart at_ p s
  | .gwrite home p => Sys2Proof.Machine.execGwrite home p s
  | .gack bay p => Sys2Proof.Machine.execGack bay p s
  | .ldgResult bay buf => Sys2Proof.Machine.execLdgResult bay buf s
  | .stgDone bay buf => Sys2Proof.Machine.execStgDone bay buf s
  | .islandCommandAccept bay isl port => Sys2Proof.Machine.execIslandCommandAccept bay isl port s
  | .mmaExecute bay port => Sys2Proof.Machine.execMmaExecute bay port s
  | .aclrExecute bay port => Sys2Proof.Machine.execAclrExecute bay port s
  | .drainExecute bay port => Sys2Proof.Machine.execDrainExecute bay port s
  | .pipelineStart bay isl port => Sys2Proof.Machine.execPipelineStart bay isl port s
  | .tileRead bay isl port => Sys2Proof.Machine.execTileRead bay isl port s
  | .tileArrive bay isl port => Sys2Proof.Machine.execTileArrive bay isl port s
  | .pipelineEnd bay isl port => Sys2Proof.Machine.execPipelineEnd bay isl port s
  | .indexListRead bay isl port => Sys2Proof.Machine.execIndexListRead bay isl port s
  | .sstopExecute bay isl port => Sys2Proof.Machine.execSstopExecute bay isl port s
  | .spliceTile f => Sys2Proof.Machine.execSpliceTile f s
  | .spliceNotice f => Sys2Proof.Machine.execSpliceNotice f s
  | .spliceRead f => Sys2Proof.Machine.execSpliceRead f s
  | .spliceDone f => Sys2Proof.Machine.execSpliceDone f s
  | .steal bay p => Sys2Proof.Machine.execSteal bay p s
  | .grant bay p => Sys2Proof.Machine.execGrant bay p s
  | .probeRequest bay p => Sys2Proof.Machine.execProbeRequest bay p s
  | .preply bay p => Sys2Proof.Machine.execPreply bay p s
  | .launchRecordWrite part w => Sys2Proof.Machine.execLaunchRecordWrite part w s
  | .priorityChange part w => Sys2Proof.Machine.execPriorityChange part w s
  | .seedWrite part port w => Sys2Proof.Machine.execSeedWrite part port w s
  | .linkDown => Sys2Proof.Machine.execLinkDown s
  | .linkUp => Sys2Proof.Machine.execLinkUp s
  | .recordWrite part dseq => Sys2Proof.Machine.execRecordWrite part dseq s
  | .spliceBindingWrite port chan v => Sys2Proof.Machine.execSpliceBindingWrite port chan v s
  | .load part cmd => Sys2Proof.Machine.execLoad part cmd s
  | .loadComplete part => Sys2Proof.Machine.execLoadComplete part s
  | .unload part cmd => Sys2Proof.Machine.execUnload part cmd s
  | .selectLaunch part => Sys2Proof.Machine.execSelectLaunch part s
  | .bind part => Sys2Proof.Machine.execBind part s
  | .cfg bay p => Sys2Proof.Machine.execCfg bay p s
  | .cfgack bay p => Sys2Proof.Machine.execCfgack bay p s
  | .turnNotice bay ctx => Sys2Proof.Machine.execTurnNotice bay ctx s
  | .turn bay p => Sys2Proof.Machine.execTurn bay p s
  | .marker bay p => Sys2Proof.Machine.execMarker bay p s
  | .snapshot bay ctx => Sys2Proof.Machine.execSnapshot bay ctx s
  | .baySaveComplete bay ctx => Sys2Proof.Machine.execBaySaveComplete bay ctx s
  | .saved bay p => Sys2Proof.Machine.execSaved bay p s
  | .lsave bay p => Sys2Proof.Machine.execLsave bay p s
  | .lsaved bay p => Sys2Proof.Machine.execLsaved bay p s
  | .cancel bay p => Sys2Proof.Machine.execCancel bay p s
  | .fcmdResume part cmd => Sys2Proof.Machine.execFcmdResume part cmd s
  | .fcmdDiscard part cmd => Sys2Proof.Machine.execFcmdDiscard part cmd s
  | .fcmdEnd part cmd => Sys2Proof.Machine.execFcmdEnd part cmd s
  | .fcmdZfill part cmd => Sys2Proof.Machine.execFcmdZfill part cmd s
  | .translate bay id => Sys2Proof.Machine.execTranslate bay id s
  | .shootdownInval part cmd => Sys2Proof.Machine.execShootdownInval part cmd s
  | .shootdownFlush part cmd => Sys2Proof.Machine.execShootdownFlush part cmd s
  | .shootdownMigrate part cmd => Sys2Proof.Machine.execShootdownMigrate part cmd s
  | .shootdownComplete part => Sys2Proof.Machine.execShootdownComplete part s
  | .configScrub bay found => Sys2Proof.Machine.execConfigScrub bay found s
  | .loftScrub bay off err => Sys2Proof.Machine.execLoftScrub bay off err s
  | .lpddrScrub addr err => Sys2Proof.Machine.execLpddrScrub addr err s
  | .eccCorrectedInterval loc idx => Sys2Proof.Machine.execEccCorrectedInterval loc idx s
  | .pctlWrite part v => Sys2Proof.Machine.execPctlWrite part v s
  | .baysWrite part k v => Sys2Proof.Machine.execBaysWrite part k v s
  | .zeroiseComplete part => Sys2Proof.Machine.execZeroiseComplete part s
  | .scopepolWrite part v => Sys2Proof.Machine.execScopepolWrite part v s
  | .dbgctlWrite part v => Sys2Proof.Machine.execDbgctlWrite part v s
  | .unsealBlob part v => Sys2Proof.Machine.execUnsealBlob part v s
  | .attest part v => Sys2Proof.Machine.execAttest part v s
  | .boot => Sys2Proof.Machine.execBoot s
  | .tempSample bay reading => Sys2Proof.Machine.execTempSample bay reading s
  | .voltageDroop bay depth => Sys2Proof.Machine.execVoltageDroop bay depth s
  | .processInterval bay count => Sys2Proof.Machine.execProcessInterval bay count s
  | .dieopWrite die v => Sys2Proof.Machine.execDieopWrite die v s
  | .operatingPointSettled die => Sys2Proof.Machine.execOperatingPointSettled die s
  | .preciseStopComplete part hseq => Sys2Proof.Machine.execPreciseStopComplete part hseq s
  | .traceSessionOpen part ctx v => Sys2Proof.Machine.execTraceSessionOpen part ctx v s
  | .traceSessionClose part ctx v => Sys2Proof.Machine.execTraceSessionClose part ctx v s
  | .traceRecordWrite part ctx => Sys2Proof.Machine.execTraceRecordWrite part ctx s
  | .cqreset part v => Sys2Proof.Machine.execCqreset part v s
  | .traceResetEnd part ctx => Sys2Proof.Machine.execTraceResetEnd part ctx s
  | .registerWrite off v => Sys2Proof.Machine.execRegisterWrite off v s
  | .spliceLinkDown port => Sys2Proof.Machine.execSpliceLinkDown port s
  | .spliceLinkUp port => Sys2Proof.Machine.execSpliceLinkUp port s
  | .bridgeLinkDown col => Sys2Proof.Machine.execBridgeLinkDown col s
  | .hostMemoryAccess a => Sys2Proof.Machine.execHostMemoryAccess a s
  | .markOffline bay off => Sys2Proof.Machine.execMarkOffline bay off s

end Sys2Proof.Machine
end

