-- ==== Sys2Proof/Machine/Fetch.lean ====
section
/-!
DEFINITION. Sys2Proof/Machine/Fetch.lean: how an element takes a matched set and its slot word (R17, R19, R77, R355), and what
follows a fire: FIRECNT, FIRE and SETTLE records (R274, R394).
-/
namespace Sys2Proof.Machine

open Sys2Proof

/-! ## The slot word -/

/-- What an element finds in a slot when it takes a set: an instruction, or a fault with its details. -/
inductive Fetched where
  | run (i : Instr)
  | fault (code : Nat) (d : Word × Word × Word × Word)
  deriving DecidableEq, Repr

/-- Cause of ILLEGAL_SLOT for a word that names no instruction (R349): 1 its opcode, 2 a field. -/
def decodeCause : DecodeError → Nat
  | .short | .empty | .opcode => 1
  | .pm | .code | .field => 2

/-- Does a target name a port that a slot of the same hitch uses (R76)? -/
def targetStands (s : State) (b : Nat) (m : MSet) (c : SlotCell) (h : HitchCfg) (t : Target) : Bool :=
  let d := s.slot b (h.spanEl (targetSe t)) (targetSlot t)
  t == noTarget ||
    (targetSe t < h.spanLen && d.owned && d.ctx == c.ctx && d.gate == c.gate && d.hnum == c.hnum &&
      (slotPorts s b m.ctx d).contains (targetPort t))

/-- Does an exit or call name a hitch of the context that its tag operation and entry fit (R83)? -/
def linkStands (s : State) (b : Nat) (m : MSet) (h : HitchCfg) (f : FormX) : Bool :=
  (s.hitchAt b m.ctx f.pos.toNat f.gate.toNat f.hnum.toNat).any fun t => linkFits h t f

/-- Is a site an entry of the context's, of a role and kind that the instruction may name (R81, R185)? -/
def siteStands (s : State) (b : Nat) (m : MSet) (h : HitchCfg) (i : Instr) (f : FormM) : Bool :=
  (s.site? b (siteOf s b m.ctx f)).any fun x => x.ctx == m.ctx && siteUseOk x x.isStore h i

/-- Is the site of an instruction a store site? -/
def atStore (s : State) (b : Nat) (m : MSet) (p : Parts) : Bool :=
  match p.b with
  | .m f => (s.site? b (siteOf s b m.ctx f)).any (·.isStore)
  | _ => false

/-- Does a mov4 read a route word with a record, whose targets stand (R89, R281)? A poisoned one is the fire's to find (R355). -/
def routeStands (s : State) (b : Nat) (m : MSet) (c : SlotCell) (h : HitchCfg) (n : Nat) : Bool :=
  match AMap.get? (s.elem b m.el).routes n with
  | none => false
  | some r =>
    r.owner == some m.ctx &&
      (r.poison || (r.targets.any (· != noTarget) && r.targets.all (targetStands s b m c h)))

/-- Is a port of the context's share, and a recipe of the kind the command takes (R84, R238)? -/
def recipeStands (s : State) (b : Nat) (m : MSet) (op : Nat) (f : FormI) : Bool :=
  (s.ctx? b m.ctx).any fun x =>
    x.ports.contains (f.isl.code.toNat, f.iport.toNat) &&
      (recipeKind op == 0 || (AMap.get? x.recipes f.rcp.toNat).any fun r => recipeFits op f (Recipe.of r))

/-- The words of the other slots of a set's hitch. -/
def mates (s : State) (b : Nat) (m : MSet) (c : SlotCell) : List SlotCell :=
  (s.bay b).elems.flatMap fun e => (e.2.slots.filter fun k =>
    k.2.owned && k.2.ctx == c.ctx && k.2.gate == c.gate && k.2.hnum == c.hnum && !(e.1 == m.el && k.1 == m.slot)).map (·.2)

/-- Does another slot of the hitch, of an opcode in a range, bear the same number? -/
def borneTwice (s : State) (b : Nat) (m : MSet) (c : SlotCell) (lo hi : Nat) (no : Instr → Parts → Option Nat) (n : Nat) : Bool :=
  (mates s b m c).any fun d =>
    lo ≤ (wordOp d.word).toNat && (wordOp d.word).toNat < hi && (slotInstr d).any fun i => i.parts.any fun p => no i p == some n

/-- Are the numbers an instruction bears its own in the hitch, and those its header's masks give (R18, R83, R128, R184); and does no discard
stand with what pins (R33)? -/
def numbersStand (s : State) (b : Nat) (m : MSet) (c : SlotCell) (h : HitchCfg) (i : Instr) (p : Parts) : Bool :=
  let op := p.op.toNat
  ((lsidOf i p).all fun n =>
    h.lsids.contains n && h.storeMask.contains n == inStoreMask i (atStore s b m p) && !borneTwice s b m c 0x90 0xB0 lsidOf n) &&
  ((exnOf i).all fun n => h.exitMask.contains n && !borneTwice s b m c 0x80 0x88 (fun i _ => exnOf i) n) &&
  ((putOf i).all fun n => h.keepMask.contains n && !borneTwice s b m c 0x80 0x88 (fun i _ => putOf i) n) &&
  (if op = 0x83 then (mates s b m c).all fun d => !pins (wordOp d.word).toNat
   else !pins op || (mates s b m c).all fun d => wordOp d.word != 0x83)

/-- Would the loader have taken the fields an instruction uses, where it stands (R76, R77, R81, R83, R84, R89, R117)? What no field of the
word holds is the loader's alone: widths, the hitches a recipe's routes name, the site it feeds (log 87). -/
def fieldsStand (s : State) (b : Nat) (m : MSet) (c : SlotCell) (i : Instr) : Bool :=
  match s.hitch? b m.gate m.ctx c.hnum, i.parts with
  | some h, some p =>
    targetStands s b m c h p.c.t0 && targetStands s b m c h p.c.t1 && tagOk h i && numbersStand s b m c h i p &&
      (match p.b, i with
        | .x f, .exit _ _ | .x f, .call _ _ => linkStands s b m h f
        | .x f, .ret _ _ => retFits h f
        | .a f, .mov4 _ _ => routeStands s b m c h f.aux7.toNat
        | .m _, .fence _ _ | .m _, .xlat _ _ | .m _, .ldg _ _ | .m _, .stg _ _ => true
        | .m f, _ => siteStands s b m h i f
        | .i f, _ => recipeStands s b m p.op.toNat f
        | _, _ => true)
  | _, _ => false

/-- The slot of a set: its word must not be poisoned (R355), its context must be the token's (R19), and it must be one the loader
would have taken where it stands (R77). -/
def fetchSlot (s : State) (b : Nat) (m : MSet) : Fetched :=
  let c := s.slot b m.el m.slot
  if c.poison then .fault 0x20 (locWord 0 m.el, 0, 0, 0)
  else if c.ctx ≠ m.ctx then .fault 0x01 (c.word, 4, word m.ctx, 0)
  else
    match decodeWord c.word with
    | .error e => .fault 0x01 (c.word, decodeCause e, 0, 0)
    | .ok i => if fieldsStand s b m c i then .run i else .fault 0x01 (c.word, 2, 0, 0)

/-- A set leaves the issue queue, or the sets that wait with their rows. -/
def takeSet (b e k : Nat) (waited : Bool) (s : State) : State :=
  s.modElem b e fun x => if waited then { x with wait := dropAt x.wait k } else { x with issue := dropAt x.issue k }

/-- Does a precise stop consume a set without firing it: its instance is discarding (R390)? -/
def stopDrops (s : State) (b : Nat) (m : MSet) : Bool :=
  (s.ctx? b m.ctx).any (·.stopRun) && (s.inst? b m.gate m.ix).any (·.discards)

/-! ## After a fire -/

/-- The FIRE record of every 2^FSHIFT-th fire of the bay (R394). -/
def traceFire (result : Word) (b : Nat) (m : MSet) (s : State) : State :=
  match s.ctx? b m.ctx with
  | none => s
  | some c =>
    let t := (s.part c.part).tbuf m.ctx
    if !traceWants s b m.ctx (some 7) then s
    else
      let v (k : Option Token) : Word := traceValue s b m.ctx (portWord k)
      let due := c.trFires % 2 ^ bits t.ctl 0 4 = 0
      let s := s.modCtx b m.ctx fun c => { c with trFires := c.trFires + 1 }
      if due then
        putTrace s b m.ctx 4 (traceAtOf s b m)
          [(s.slot b m.el m.slot).word, v m.a, v m.b, v m.c, traceValue s b m.ctx result]
      else s

/-- Does a set still wait with its row: it has not fired (R24, R120)? -/
def stillWaits (s : State) (b : Nat) (m : MSet) : Bool := (s.elem b m.el).wait.contains m

/-- A slot has fired: it counts in FIRECNT and in the trace. A set that went to wait for its turn has not. -/
def afterFire (result : Word) (b : Nat) (m : MSet) (s : State) : State :=
  if stillWaits s b m then s
  else traceFire result b m (s.modCtx b m.ctx fun c => { c with fires := c.fires + 1 })

/-- Instances that a step has frozen. -/
def frozenNew (old new : State) : List (Nat × Nat × Nat) :=
  new.bays.flatMap fun y => y.2.gates.flatMap fun g => (g.2.insts.filter fun e =>
    e.2.st == .frozen && !(old.inst? y.1 g.1 e.1).any (·.st == .frozen)).map fun e => (y.1, g.1, e.1)

/-- SETTLE records of what froze (R394). -/
def traceFrozen (old : State) (s : State) : State :=
  if s.parts.any fun p => p.2.trace.any fun t => t.2.isOpen then
    (frozenNew old s).foldl (fun s e =>
      traceInst s e.1 e.2.1 e.2.2 3 5 [word (2 + ((s.inst? e.1 e.2.1 e.2.2).bind (·.exit)).getD 0 * 4)]) s
  else s

end Sys2Proof.Machine
end

