-- ==== Sys2Proof/Machine/Sched.lean ====
section
/-!
DEFINITION. Sys2Proof/Machine/Sched.lean: what can happen next (R9, R17, R46, R132, R146): sets that an element can issue,
happenings under way, what the device does of itself, what the outside does. The spec orders none of these against another
but where it says so; which comes next is a free choice (log 3).
-/
namespace Sys2Proof.Machine

open Sys2Proof

/-- A candidate for the next step: a set of an issue queue or of those that wait, by bay, element and place; a happening
under way or an input, by place; a happening of the device's own. -/
inductive Cand where
  | fire (b e k : Nat)
  | waited (b e k : Nat)
  | flight (k : Nat)
  | input (k : Nat)
  | own (i : Instr)
  deriving DecidableEq, Repr

/-! ## Contexts and elements -/

/-- Does a context do anything of itself on a bay: its launch is bound and the bay has not taken its snapshot (R327, R360)? -/
def ctxGoes (s : State) (b ctx : Nat) : Bool :=
  (s.ctx? b ctx).any fun c =>
    (c.bound.any fun h => (s.launch? c.part h).any fun l => l.st == .bound || l.st == .saving) && !(c.cut.any (·.snapped))

/-- Do a bay's elements and islands issue: its die is not changing its operating point (R385)? -/
def dieRuns (s : State) (b : Nat) : Bool := !(s.dieOp (dieOf b)).busy

/-- May a set be issued: its instance and region are not frozen (R351), and in a cut only pinned instances fire (R359)? A set of no
context runs, to its fault. -/
def setGoes (s : State) (b : Nat) (m : MSet) : Bool :=
  !frozenInst s b m.gate m.ix &&
    (match s.ctx? b m.ctx with
      | none => true
      | some c =>
        ctxGoes s b m.ctx && !c.frozen && (!(c.cut.any (·.stopped)) || (s.inst? b m.gate m.ix).any (·.pinned)))

/-- The unit a set goes to: vector with W = 1 (R17). -/
def setUnit (s : State) (b : Nat) (m : MSet) : Bool := (s.slot b m.el m.slot).word.getLsbD 53

/-- The place of the oldest set of a unit that may be issued. -/
def nextSet (s : State) (b e : Nat) (unit : Bool) (x : Element) : Option Cand :=
  (placeOf (fun m => setUnit s b m == unit && setGoes s b m) x.issue 0).map (.fire b e)

/-- The sets an element can issue. -/
def elemCands (s : State) (b : Nat) (e : Nat × Element) : List Cand :=
  (nextSet s b e.1 false e.2).toList ++ (nextSet s b e.1 true e.2).toList ++
    ((List.range e.2.wait.length).filter fun k => (e.2.wait[k]?).any fun m =>
      setGoes s b m && (waitReady s b m || stopDrops s b m)).map (.waited b e.1)

/-- The sets of a bay. -/
def fireCands (s : State) (b : Nat) (y : Bay) : List Cand := if dieRuns s b then y.elems.flatMap (elemCands s b) else []

/-! ## Happenings under way -/

/-- The source a token keeps its order by: that of an island token that waited is its port (R351). -/
def orderSrc (n : Nat) : Nat := if heldSrc ≤ n then n - 64 else n

/-- The channel on which a happening keeps its order (of a token that comes off a ring the source is the position it was sent from, whatever
its gate and whichever ring brings it: log 103): tokens from one source to one port on one network (R132), tokens of one
context to one entry (R28), flits of a link (R146), requests to one granule of a home (R182), the commands of one function (R353). -/
def flightKey : Instr → Option (List Nat)
  | .tokenArrive m => some [0, m.bay, orderSrc m.src, m.el, m.slot, m.port, valNet m.tok.val]
  | .gateEntryToken m => some [1, m.bay, orderSrc m.src, (m.chan.map (· + 1)).getD 0, m.gate, m.ctx, m.hnum, m.entry]
  | .packetArrive e _ _ => some [2, linkIndex e]
  | .fcmdResume n _ | .fcmdDiscard n _ | .fcmdEnd n (.fault _) | .fcmdZfill n _ => some [4, n]
  | .mreq h p | .gread h p | .gwrite h p =>
    some [3, h, (if Config.bays ≤ h then p.body 136 52 else p.body 136 52 % Config.sliceStep) / 64]
  | _ => none

/-- The bay at which a happening takes place. -/
def eventBay : Instr → Option Nat
  | .tokenArrive m => some m.bay
  | .gateEntryToken m => some m.bay
  | .packetArrive e _ _ | .gpart (.stop e) _ => some e.bay
  | .mreq b _ | .mrep b _ | .gread b _ | .gwrite b _ | .gack b _ | .fillDataArrive b _ _ _ | .steal b _ | .grant b _ | .probeRequest b _ |
    .preply b _ | .cfg b _ | .cfgack b _ | .turn b _ | .marker b _ | .saved b _ | .lsave b _ | .lsaved b _ | .cancel b _ | .query b _ |
    .qreply b _ | .gpart (.requester b) _ | .waithistSpill b _ _ _ => some b
  | _ => none

/-- Does a happening wait for a die that changes its operating point (R385)? -/
def dieHolds (s : State) (i : Instr) : Bool := (eventBay i).any fun b => b < Config.bays && !dieRuns s b

/-- Can a happening take place now: what is at a die that changes its operating point waits (R385), a full issue queue takes no token (R17),
a gate without room none either (R28), what an island owes in a frozen region waits (R351), a command waits for a restore (R363)? -/
def canHappen (s : State) (i : Instr) : Bool :=
  !dieHolds s i && match i with
  | .tokenArrive m => issueLoad s m.bay m.el < Config.issueSets && !(heldSrc ≤ m.src && owesWait s m.bay m.ctx)
  | .gateEntryToken m =>
    ((m.chan.isSome && snapped s m.bay m.ctx) || entryTakes s m) && !(heldSrc ≤ m.src && owesWait s m.bay m.ctx)
  | .fcmdResume n c | .fcmdDiscard n c | .fcmdZfill n c => fcmdReady s n c
  | _ => true

/-- The places of the first entries of their channels that pass. -/
def firsts (key : Instr → Option (List Nat)) (ok : Instr → Bool) : List Instr → Nat → List (List Nat) → List Nat
  | [], _, _ => []
  | i :: l, k, seen =>
    match key i with
    | none => if ok i then k :: firsts key ok l (k + 1) seen else firsts key ok l (k + 1) seen
    | some q =>
      if seen.contains q then firsts key ok l (k + 1) seen
      else if ok i then k :: firsts key ok l (k + 1) (q :: seen)
      else firsts key ok l (k + 1) (q :: seen)

/-- Is it a fault command? -/
def isFcmd : Instr → Bool
  | .fcmdResume _ _ | .fcmdDiscard _ _ | .fcmdEnd _ (.fault _) | .fcmdZfill _ _ => true
  | _ => false

/-- Of fault commands of several functions that can be carried out, only the one that came first (R353): one that waits for a restore holds
up its own function's alone. -/
def firstFcmd (s : State) (l : List Nat) : List Nat :=
  let fc (k : Nat) : Bool := (s.flight[k]?).any isFcmd
  l.filter fun k => !fc k || l.find? fc == some k

def flightCands (s : State) : List Cand := (firstFcmd s (firsts flightKey (canHappen s) s.flight 0 [])).map .flight

/-! ## Inputs -/

/-- The channel an input comes by: the writes of one function keep their order (R309), and the frames of one splice port. -/
def inputKey : Instr → List Nat
  | .launchRecordWrite n _ | .priorityChange n _ | .seedWrite n _ _ => [0, n]
  | .hostMemoryAccess a => [0, a.fn]
  | .spliceTile f | .spliceNotice f | .spliceRead f | .spliceDone f => [1, f.port]
  | .spliceLinkDown p | .spliceLinkUp p => [1, p]
  | .configScrub _ _ | .loftScrub _ _ _ | .lpddrScrub _ _ | .tempSample _ _ | .voltageDroop _ _ | .processInterval _ _ |
    .bridgeLinkDown _ => [2]
  | _ => [0, Config.parts]

/-- Is it the link itself? -/
def isLink : Instr → Bool
  | .linkDown | .linkUp => true
  | _ => false

/-- The places of inputs that can come: the first of each channel, none past a change of the link. -/
def inputCands (s : State) : List Cand :=
  let before := s.inputs.takeWhile fun i => !isLink i
  ((firsts (fun i => some (inputKey i)) (fun _ => true) before 0 []).map .input) ++
    (if before.length < s.inputs.length then [.input before.length] else [])

/-! ## What the device does of itself -/

/-- Hitches and instances of a gate. -/
def gateOwn (s : State) (b : Nat) (g : Nat × Gate) : List Instr :=
  (g.2.hitches.flatMap fun h =>
    (if ctxGoes s b h.2.ctx && canAdmit s b g.1 h.2.ctx (h.1 % 32) then [Instr.admitTag b g.1 h.2.ctx (h.1 % 32)] else []) ++
      (if !h.2.means.isEmpty then [.limUpdate b g.1 h.2.ctx (h.1 % 32)] else [])) ++
    g.2.insts.flatMap fun i =>
      if ctxGoes s b i.2.ctx then
        (if settles s b g.1 i.1 then [Instr.settle b g.1 i.1] else []) ++
          (if mayCommit s b g.1 i.1 then [.commit b g.1 i.1] else [])
      else []

/-- Sites. -/
def siteOwn (s : State) (b : Nat) (x : Nat × Site) : List Instr :=
  (if ctxGoes s b x.2.ctx && canStream x.2 then [Instr.streamFetch b x.1] else []) ++
    (if depDue x.2 then [.depUpdate b x.1] else [])

/-- What an island can serve at a port: its head command (R235). -/
def serveOwn (s : State) (b i p : Nat) : List Instr :=
  let q := s.port b i p
  match q.queue.head? with
  | none => []
  | some k =>
    if !ctxGoes s b k.ctx then []
    else if i = 0 then
      if q.stall.isSome then []
      else if k.op = 0xB2 then [.aclrExecute b p]
      else if k.op = 0xB3 then (if drainReady s b p then [.drainExecute b p] else [])
      else if (mmaLacks s b k).isEmpty then [.mmaExecute b p] else []
    else
      (if k.op = 0xBA then [Instr.sstopExecute b i p] else []) ++ (if startReady s b i p then [.pipelineStart b i p] else []) ++
        (if indexReady s b i p then [.indexListRead b i p] else []) ++ (if readReady s b i p then [.tileRead b i p] else [])

/-- The port an island serves next: the first ready one from its turn on (R235). -/
def turnPort (s : State) (b i : Nat) : Option Nat :=
  let t := AMap.getD (s.bay b).turns i 0
  ((List.range 4).map fun k => (t + k) % 4).find? fun p => !(serveOwn s b i p).isEmpty

/-- Island ports, by key: acceptance, the port's turn, arrivals and ends. -/
def portOwn (s : State) (b : Nat) (q : Nat × IslPort) : List Instr :=
  let i := q.1 / 4
  let p := q.1 % 4
  (if (acceptNo q.2).isSome then [Instr.islandCommandAccept b i p] else []) ++
    (if turnPort s b i = some p then serveOwn s b i p else []) ++
    (if i != 0 && (headCmd s b i p).any fun k => ctxGoes s b k.ctx then
      (if arriveReady s b i p then [Instr.tileArrive b i p] else []) ++ (if endReady s b i p then [.pipelineEnd b i p] else [])
    else [])

/-- Do a bay's stops hold nothing to send? -/
def Bay.stopsIdle (y : Bay) : Bool :=
  (y.rowStop.packets ++ y.rowStop.trace ++ y.colStop.packets ++ y.colStop.trace ++ y.boundary).isEmpty

/-- A stop's outputs and combine units; `idle`: its bay's stops hold nothing. -/
def stopOwn (s : State) (b : Nat) (idle : Bool) (ring : Ring) (t : Stop) : List Instr :=
  if idle then []
  else
    [Dir.cw, Dir.ccw, Dir.bridge].flatMap fun d =>
      (match nextOut s ring b d with
        | none => []
        | some (.boundary, _) => [Instr.boundaryTokenSend b]
        | some _ => [.packetSend ⟨b, ring, d⟩]) ++
        ((t.port d).zipIdx.filter fun e => (siblingIn t d e.2 e.1).isSome).map fun e => .gpart (.stop ⟨b, ring, d⟩) e.1

/-- Contexts of a bay. -/
def ctxOwn (s : State) (b ctx : Nat) : List Instr :=
  (if noticeDue s b ctx then [Instr.turnNotice b ctx] else []) ++ (if snapReady s b ctx then [.snapshot b ctx] else []) ++
    (if saveReady s b ctx then [.baySaveComplete b ctx] else [])

/-- A bay; one whose die changes its operating point waits whole (R385). -/
def bayOwn (s : State) (e : Nat × Bay) : List Instr :=
  let b := e.1
  let y := e.2
  if !dieRuns s b then [] else
  y.gates.flatMap (gateOwn s b) ++ y.sites.flatMap (siteOwn s b) ++
    ((y.xreqs.filter fun q => ctxGoes s b q.ctx && !q.parked && !q.held).map fun q => .translate b q.id) ++
    ((y.reds.filter fun r => r.2.pend == 0).map fun r => if r.2.store then .stgDone b r.1 else .ldgResult b r.1) ++
    y.ports.flatMap (portOwn s b) ++
    stopOwn s b (y.stopsIdle) .row y.rowStop ++ stopOwn s b (y.stopsIdle) .col y.colStop ++ y.ctxs.flatMap fun c => ctxOwn s b c.1

/-- A launch. -/
def launchOwn (s : State) (n : Nat) (l : Launch) : List Instr :=
  (if waveDue s n l then [Instr.quiescenceWave n l.hseq] else []) ++ (if completes s n l then [.launchComplete n l.hseq] else []) ++
    (if stopDone s n l then [.preciseStopComplete n l.hseq] else [])

/-- Trace buffers. -/
def traceOwn (s : State) (n : Nat) (t : Nat × TraceBuf) : List Instr :=
  (if !t.2.queue.isEmpty || (t.2.closing == some false && traceDrained s n t.1) then [Instr.traceRecordWrite n t.1] else []) ++
    (if resetDue s n t.1 then [.traceResetEnd n t.1] else [])

/-- A partition. -/
def partOwn (s : State) (e : Nat × Part) : List Instr :=
  let n := e.1
  let p := e.2
  (if p.choice.isSome then [Instr.selectLaunch n] else []) ++ (if bindDue s n then [.bind n] else []) ++
    (if loadDue s n then [.loadComplete n] else []) ++ (if shootReady s n then [.shootdownComplete n] else []) ++
    (if s.zeroQ.any fun z => z.1 == n then [.zeroiseComplete n] else []) ++ ((recsDue s n).map fun d => .recordWrite n d) ++
    p.launches.flatMap (launchOwn s n) ++ p.trace.flatMap (traceOwn s n)

/-- Everything the device can do of itself. -/
def ownEvents (s : State) : List Instr :=
  s.bays.flatMap (bayOwn s) ++ s.parts.flatMap (partOwn s) ++ ((recsDue s Config.parts).map fun d => .recordWrite Config.parts d) ++
    ((s.dieop.filter fun d => d.2.busy).map fun d => .operatingPointSettled d.1) ++
    (s.ecc.filter (·.over s)).map fun e => .eccCorrectedInterval e.loc e.key

/-! ## The choice -/

/-- Everything that can happen next; before boot, only boot (R378). -/
def cands (s : State) : List Cand :=
  if s.boot = .off then [.own .boot]
  else s.bays.flatMap (fun e => fireCands s e.1 e.2) ++ flightCands s ++ (ownEvents s).map .own ++ inputCands s

/-- What happens next: the candidate the state names, else the one the free choice names; none when nothing can (log 3). -/
def choose (s : State) : Option Cand :=
  match s.picks with
  | k :: _ => (cands s)[k]?
  | [] => (cands s)[Config.freePick s.freeCtr % (cands s).length]?

/-- A bound channel whose link stands is UP while its far end names it (R319; log 8). -/
def chanTick (n : Nat) (e : Nat × Chan) : Nat × Chan :=
  (e.1, { e.2 with up := e.2.en && !e.2.lost && Config.farEndNames (e.1 / 16) (e.1 % 16) e.2.word n })

/-- The channels as they stand at a step; a pipeline whose channel has ceased to be UP for it stalls (R319). -/
def chansTick (s : State) : State :=
  let cs := s.chans.map (chanTick s.freeCtr)
  let fell := s.chans.filter fun e => e.2.up && !cs.any fun f => f.1 == e.1 && f.2.up
  fell.foldl (fun s e => chanBroken s (e.1 / 16) (e.1 % 16)) { s with chans := cs }

/-- Time passes in every bay, by its own clock (R9; log 6), channels come and cease to be UP, and the choice is used; an error may come
(R379). -/
def tick (s : State) : State :=
  let t := chansTick s
  nextUpset
    { t with
      bays := t.bays.map fun e => (e.1, { e.2 with clk := e.2.clk + Config.ticks e.1 t.freeCtr })
      picks := t.picks.tail, freeCtr := t.freeCtr + 1 }

/-! ## What a candidate runs -/

/-- A set taken by its element: under a precise stop a discarding instance's set is consumed unfired (R390); a slot word that
cannot run freezes the instance (R19, R77, R355); else its instruction fires. -/
def startSet (b : Nat) (m : MSet) (s : State) : Option Instr × State :=
  if stopDrops s b m then (none, s)
  else
    match fetchSlot s b m with
    | .fault code d => (none, slotFault code d b m s)
    | .run i => (some i, { s with fire := some (b, m) })

/-- The set a candidate names. -/
def Cand.set (s : State) : Cand → Option (Nat × MSet)
  | .fire b e k => ((s.elem b e).issue[k]?).map (b, ·)
  | .waited b e k => ((s.elem b e).wait[k]?).map (b, ·)
  | _ => none

/-- What a candidate runs, and the state without what it takes up. A fault command that comes waits behind those before it. -/
def Cand.start (s : State) (c : Cand) : Option Instr × State :=
  match c with
  | .fire b e k =>
    match (s.elem b e).issue[k]? with
    | none => (none, s)
    | some m => startSet b m (takeSet b e k false s)
  | .waited b e k =>
    match (s.elem b e).wait[k]? with
    | none => (none, s)
    | some m => startSet b m (takeSet b e k true s)
  | .flight k => (s.flight[k]?, { s with flight := dropAt s.flight k })
  | .input k =>
    let t := { s with inputs := dropAt s.inputs k }
    if (s.inputs[k]?).any isFcmd then (none, { t with flight := t.flight ++ (s.inputs[k]?).toList }) else (s.inputs[k]?, t)
  | .own i => (some i, s)

/-- What follows: a fire is counted, with the value of its result; a set that a stop consumes unfired is none (R390); what froze is
traced. -/
def Cand.finish (old : State) (result : Word) (c : Cand) (s : State) : State :=
  traceFrozen old (match Cand.set old c with
    | some (b, m) => if stopDrops old b m then s else afterFire result b m s
    | none => s)

/-! ## Placing a program (log 5) -/

/-- An operand of each port for a set placed from outside: zero scalars, zero vectors with W = 1, at P a control token that
agrees with PM. -/
def placedSet (w : Word) : MSet :=
  let k := if w.getLsbD 53 then vecTok 0 else scTok 0
  { el := 0, slot := 0, gate := 0, ix := 0, ctx := 0, a := some k, b := some k, c := some k
    p := some (ctTok (w.getLsbD 54)), since := 0 }

/-- Does a word need a hitch of no fields: it puts one on? Else a placed hitch has all seven. -/
def placedBare : Instr → Bool
  | .pushf _ _ => true
  | .exit _ f | .call _ f => f.top == .push
  | _ => false

/-- The fields of the hitch that an exit or call names. -/
def placedLinkDepth : Instr → Nat
  | .exit _ f | .call _ f => if f.top == .push then 1 else if f.top == .pop ∨ f.top == .popinc then 6 else 7
  | _ => 7

/-- A hitch of a placed state: so many tag fields of one bit, eight entries, every exit number and keep register, its sixteen span
elements on bay element 1; `lsid` is the one LSID borne, `store` that it is a store-mask entry. -/
def placedHitch (depth lsid : Nat) (store : Bool) : HitchCfg :=
  { words := [word (0x3F8000000000 + depth * 2 ^ 36), word (0xFF00 + (if store then 2 ^ (32 + lsid) else 0)), BitVec.allOnes 64, 0, 0,
              0x0002040810204081, 0x0002040810204081, 33]
    poison := false, ctx := 0, ixBase := 0, frames := List.replicate 16 (0, 0), slotAt := List.replicate 16 0, nw := 0, lsids := [lsid]
    mem := false, lim := 1, latCnt := 0, latSum := 0, means := [] }

/-- The instance of a placed set. -/
def placedInst (hn : Nat) : Inst :=
  { hnum := hn, ctx := 0, tag := 0, st := .live, prev := .live, pinned := false, discard := false, shared := false
    replayed := false, arrived := List.range 8, exit := none, endStrand := false, popTo := none, stores := [], keeps := [], fired := []
    ops := [], held := [], updates := [], keepSnap := [], keepPoi := [], replies := [], again := .none, fault := none, dropLsid := none
    halt := none, applied := 0, wr := none }

/-- The slots its targets may name: on element 1, each a mad with a predicate, which uses every port. -/
def placedElement (hn : Nat) : Element :=
  { Element.reset with
    slots := (List.range 32).map fun k => (k, ⟨0x094FFFFFF8000000, false, true, 0, 0, hn, 0, []⟩), rows := [⟨0, 0, .empty, []⟩] }

/-- Is the site a word names a store site? -/
def placedStore (i : Instr) : Bool :=
  match i with
  | .st _ _ | .stv _ _ | .sto _ _ | .sflush _ _ | .srel _ _ => true
  | _ => false

/-- The MODE of the site a word names (R159): STREAM for srel, RANDOM for sinv, ORDERED for the others. -/
def placedMode (i : Instr) : Nat :=
  match i with
  | .srel _ _ => 0
  | .sinv _ _ => 1
  | _ => 2

/-- The site it names, if it names one. -/
def placedSite (i : Instr) : Site :=
  Site.fresh
    { q0 := 0, q1 := word (placedMode i * 2 ^ 17), q2 := 0, q3 := 0, poison := false, ctx := 0, isStore := placedStore i, fed := false, dep := 0, latCnt := 0, latSum := 0
      means := [], bufs := [], seq := 0, lifeOpen := false, key := 0, started := false, line := 0, lastIdx := none, zdone := 0
      zpart := [], stopped := none, stopBack := none, waiters := [], srels := [] }

/-- A recipe that an island command takes: its kind, and the fields that its flags ask for. -/
def placedRecipe (op : Nat) (f : FormI) : List Word :=
  let k := recipeKind op
  let bit0 := f.aux11.getLsbD 0
  let dk := if op = 0xB9 && !f.aux11.getLsbD 2 then 3 else if op = 0xB6 then 2 else bit0.toNat
  if k = 1 then [word (k * 2 ^ 60 + (if op = 0xB1 then 13 * 2 ^ 39 else 0))]
  else if k = 2 then (if bit0 then [word (k * 2 ^ 60), word (2 ^ 23)] else [word (k * 2 ^ 60)])
  else [word (k * 2 ^ 60 + dk * 2 ^ 58)]

/-- Its context on bay 0, with NBV 2 (R71; log 5): a region whose positions all lie there, and the recipe and the island port that the
word names, if it names one. -/
def placedCtx (w : Word) (r : List Word) : CtxRt :=
  { part := 0, handle := 1, strBase := 0, strCnt := 1, nbv := 2, rowDir := 0, colDir := 0, bayWin := 0, siteBase := 0
    recipes := [(bits w 11 10, r)], reserved := [], tiles := [], ports := [(bits w 25 2, bits w 21 4)], chansOut := [], chansIn := [], bound := some 1, position := 0
    rows := 16, cols := 8, map := List.replicate 128 0, rngCur := 0, rngHi := 0, rngChunk := 0, user := [], waitHist := 0, fires := 0, since := 0
    fireStart := 0, frozen := false, stopRun := false, brkInst := none, heldTok := none, heldSet := none, halted := false
    sent := [], rcvd := [], cut := none, recorded := [], presValid := [], dirty := [], wrong := [], clamped := [], omitted := [], trSeq := 0
    trLost := 0, trFires := 0, scopePol := 5 }

/-- Its launch, bound. -/
def placedLaunch : Launch :=
  { hseq := 1, cfg := 1, ctx := 0, prio := 0, rows := 16, cols := 8, waits := [], seedCnt := 0, notify := 0, st := .bound
    everBound := true, origin := 0, boundAt := 0, acks := [], fires := 0, seeds := 0, preempts := 0, marked := false
    toTail := false, roomFor := none, cancelled := false, turns := 0, wseq := 0, wave := none, lastSum := none, cutNo := 0, savedBy := []
    lsavedBy := [], halt := none, scopePol := 5, image := none, brk := none, quiet := false }

/-- A booted device whose partition 0 owns bay 0 and has one launch bound there, with this word in slot 0 of element 0 and a
matched set of it at the head of the issue queue; what the word's fields name stands (R77). -/
def placeWord (s : State) (w : Word) : State :=
  let i := match decodeWord w with
    | .ok i => i
    | .error _ => .boot
  let hn := if bits w 12 8 = 0 then 1 else 0
  let hn := if (wordOp w).toNat / 2 = 0x40 then hn else 0
  let c : SlotCell := ⟨w, false, true, 0, 0, hn, 0, []⟩
  let rc : RouteCell := ⟨0x7FFFFFFFF80#64 &&& ~~~(0x7FF#64), false, some 0⟩
  let e : Element := { Element.reset with slots := [(0, c)], routes := (List.range 8).map (·, rc), rows := [⟨0, 0, .empty, []⟩]
                                          issue := [placedSet w] }
  let h := placedHitch (if placedBare i then 0 else 7) (bits w 14 5) (inStoreMask i (placedStore i))
  let t := placedHitch (placedLinkDepth i) 0 false
  let g : Gate := { Gate.reset with hitches := [(hn, h)], insts := [(0, placedInst hn)] }
  let gs : AMap Gate :=
    if (wordOp w).toNat / 2 ≠ 0x40 then [(0, g)]
    else if bits w 17 3 = 0 then [(0, { g with hitches := AMap.set g.hitches (bits w 12 5) t })]
    else [(0, g), (bits w 17 3, { Gate.reset with hitches := [(bits w 12 5, t)] })]
  let r : List Word := match i.parts with
    | some ⟨op, _, .i f⟩ => placedRecipe op.toNat f
    | _ => []
  let y : Bay := { s.bay 0 with
    elems := [(0, e), (1, placedElement hn)], gates := gs, sites := [(bits w 19 8, placedSite i)], ctxs := [(0, placedCtx w r)] }
  let p : Part := { s.part 0 with
    bays0 := 1, pctl := 1#64 <<< 63, launches := [placedLaunch] }
  { s with boot := .up 0, bays := [(0, y)], parts := [(0, p)], picks := [0] }

end Sys2Proof.Machine
end

