-- ==== Sys2Proof/Machine/Tie.lean ====
section
/-!
DEFINITION. Sys2Proof/Machine/Tie.lean: what a candidate comes to, and sets of one bay that would fault in the same cycle: an instance
reports the slot of the lower span element, then the lower slot (R36), and records take DSEQ by bay element, then slot (R352; log 86).
-/
namespace Sys2Proof.Machine

open Sys2Proof

/-- The word of a set's slot with its targets replaced by ports A and B of its hitch's first slot. -/
def probeWord (w : Word) : Word := putBits (putBits w 38 11 0) 27 11 1

/-- The result of a fire, whatever its targets (R394): the first value that its instruction sends, T0's before T1's and a value before a
null, were it to send to ports A and B of a slot; else the first token it gives to its gate; zero when it does neither. -/
def resultOf (b : Nat) (m : MSet) (t : State) : Word :=
  let w := (t.slot b m.el m.slot).word
  match (decodeWord (probeWord w)).toOption.orElse fun _ => (decodeWord w).toOption with
  | none => 0
  | some i =>
    match exec i t with
    | .next u =>
      let sent := (u.flight.drop t.flight.length).filterMap fun f => match f with
        | .tokenArrive k => if k.src = m.el ∧ k.bay = b ∧ k.gate = m.gate ∧ k.ix = m.ix then some (k.port, k.tok) else none
        | _ => none
      let held := (((u.inst? b m.gate m.ix).map (·.held)).getD []).filter fun h => h.se == (t.slot b m.el m.slot).se && h.slot == m.slot
      match (sent.find? fun e => !e.2.nul).orElse fun _ => sent.head? with
      | some e => valWord e.2.val
      | none => ((held.head?).map fun h => valWord h.tok.val).getD 0
    | _ => 0

/-- The result that a FIRE record shows of what a candidate runs. -/
def Cand.result (s t : State) (c : Cand) : Word :=
  match Cand.set s c with
  | none => 0
  | some (b, m) => if traceWants s b m.ctx (some 7) then resultOf b m t else 0

/-- What a candidate comes to when it is taken. -/
def runCand (s : State) (c : Cand) : Host.Outcome State Fault Refusal :=
  match Cand.start (tick s) c with
  | (none, t) => .next (Cand.finish s 0 c t)
  | (some i, t) =>
    match exec i t with
    | .next u => .next (Cand.finish s (Cand.result s t c) c u)
    | .fault f => .fault f
    | .refused r => .refused r

/-! ## Faults of one cycle (R36, R352) -/

/-- The place of a set in the order of R36: span element, then slot. -/
def MSet.rank (s : State) (b : Nat) (m : MSet) : Nat := 32 * (s.slot b m.el m.slot).se + m.slot

/-- Its place in the order of R352: bay element, then slot. -/
def MSet.place (m : MSet) : Nat := 32 * m.el + m.slot

/-- Does a candidate's fire freeze the instance of its set? -/
def faults (s : State) (c : Cand) : Bool :=
  match Cand.set s c, runCand s c with
  | some (b, m), .next u => frozenInst u b m.gate m.ix
  | _, _ => false

/-- Is the set of one candidate reported in place of that of another, of the same instance (R36)? -/
def reportedFor (s : State) (b : Nat) (c d : Cand) : Bool :=
  match Cand.set s c, Cand.set s d with
  | some (_, m), some (_, n) => m.of n.gate n.ix && m.rank s b < n.rank s b
  | _, _ => false

/-- Of candidates that fault in one cycle of a bay, the one whose record comes first: each instance reports its first set, and the records
take DSEQ by bay element and slot. -/
def firstFault (s : State) (b : Nat) (l : List Cand) : Option Cand :=
  (sortBy (fun c => ((Cand.set s c).map fun e => e.2.place).getD 0) (l.filter fun c => !l.any fun d => reportedFor s b d c)).head?

/-- The candidate that is taken when `c` is chosen: where the bay's clock stands still after it, others of the bay that would fault do so in
the same cycle. -/
def tieBreak (s : State) (c : Cand) : Cand :=
  match Cand.set s c with
  | none => c
  | some (b, _) =>
    let l := fireCands s b (s.bay b)
    if 1 < l.length && Config.ticks b (s.freeCtr + 1) == 0 && faults s c then (firstFault s b (l.filter (faults s))).getD c else c

/-- What happens next. -/
def chosen (s : State) : Option Cand := (choose s).map (tieBreak s)

end Sys2Proof.Machine
end

