-- ==== Sys2Proof/Machine/Step.lean ====
section
/-!
DEFINITION. Sys2Proof/Machine/Step.lean: one step (R9, R46). The device chooses what happens next among what can, takes it
up and runs it; time passes. When nothing can happen, time passes all the same (R2: the machine does not stop).
-/
namespace Sys2Proof.Machine

open Sys2Proof

/-- `s` with an instruction where the next step fetches it (log 5): `placeWord`. A slot word has 64 bits; none of its bits lies
above `nbits` but zeros. -/
def State.withFetchWord (s : State) (nbits w : Nat) : State := placeWord s (word (w % 2 ^ Nat.min nbits 64))

/-- One step. -/
def step (s : State) : Host.Outcome State Fault Refusal :=
  match chosen s with
  | none => .next (tick s)
  | some c => runCand s c

end Sys2Proof.Machine
end

