-- ==== Sys2Proof/Safety.lean ====
section
/-!
DEFINITION. Sys2Proof/Safety.lean: the words in which the claims about this machine are said: the fields of its state, the
fields each instruction may change, what a set that fires is, what a reader of memory sees.
-/
namespace Sys2Proof.Machine

open Sys2Proof

/-! ## What an instruction may change -/

/-- The fields of the machine's state. -/
inductive Field where
  | mem | poison | pkgBad | bays | parts | pf | boot | link | devnum | chans | spliceDown | spliceDrop | spliceOut
  | bridgeLost | offline | dieop | ecc | zeroQ | flight | inputs | picks | flitErrs | upsets | readBack | fire | freeCtr
  deriving DecidableEq, Repr

/-- The two states agree in this field. -/
def Field.same (o s : State) : Field → Prop
  | .mem => s.mem = o.mem
  | .poison => s.poison = o.poison
  | .pkgBad => s.pkgBad = o.pkgBad
  | .bays => s.bays = o.bays
  | .parts => s.parts = o.parts
  | .pf => s.pf = o.pf
  | .boot => s.boot = o.boot
  | .link => s.link = o.link
  | .devnum => s.devnum = o.devnum
  | .chans => s.chans = o.chans
  | .spliceDown => s.spliceDown = o.spliceDown
  | .spliceDrop => s.spliceDrop = o.spliceDrop
  | .spliceOut => s.spliceOut = o.spliceOut
  | .bridgeLost => s.bridgeLost = o.bridgeLost
  | .offline => s.offline = o.offline
  | .dieop => s.dieop = o.dieop
  | .ecc => s.ecc = o.ecc
  | .zeroQ => s.zeroQ = o.zeroQ
  | .flight => s.flight = o.flight
  | .inputs => s.inputs = o.inputs
  | .picks => s.picks = o.picks
  | .flitErrs => s.flitErrs = o.flitErrs
  | .upsets => s.upsets = o.upsets
  | .readBack => s.readBack = o.readBack
  | .fire => s.fire = o.fire
  | .freeCtr => s.freeCtr = o.freeCtr

/-- The fields an instruction may change. Every instruction that works on a set leaves the fields of the device as a whole
alone; no instruction but a scrub, a write to memory, a zeroise or boot changes a byte of memory or its marks. -/
def touches : Instr → List Field
  | .add _ _ | .sub _ _ | .neg _ _ | .abs _ _ | .min _ _ | .max _ _ | .mul _ _ | .mulh _ _ | .mad _ _ | .div _ _
  | .rem _ _ | .and _ _ | .or _ _ | .xor _ _ | .andn _ _ | .not _ _ | .shl _ _ | .shr _ _ | .sar _ _ | .rol _ _
  | .clz _ _ | .ctz _ _ | .popc _ _ | .brev _ _ | .bfx _ _ | .bfi _ _ | .sel _ _ | .ceq _ _ | .cne _ _ | .clt _ _
  | .cle _ _ | .cvi _ _ | .adsc _ _ | .fadd _ _ | .fsub _ _ | .fmul _ _ | .fma _ _ | .fnma _ _ | .fmin _ _ | .fmax _ _
  | .fabs _ _ | .fneg _ _ | .fdiv _ _ | .fsqrt _ _ | .frsq _ _ | .frcp _ _ | .fexp2 _ _ | .flog2 _ _ | .fceq _ _
  | .fclt _ _ | .fcle _ _ | .fcun _ _ | .fcvt _ _ | .fcvi _ _ | .icvf _ _ | .frint _ _ | .fscal _ _ | .fclass _ _
  | .fpk _ _ | .lperm _ _ | .lbcast _ _ | .lext _ _ | .lins _ _ | .lred _ _ | .lscan _ _ | .lcmpr _ _ | .lexpd _ _
  | .lrot _ _ | .lzip _ _ | .lunzip _ _ | .lq4 _ _ | .mov _ _ | .mov4 _ _ | .const _ _ | .steer _ _ | .gate _ _
  | .null _ _ | .sync _ _ | .count _ _ | .fold _ _ | .incf _ _ | .pushf _ _ | .popf _ _ | .setf _ _ | .getf _ _
  | .ordj _ _ | .kget _ _ | .sdepth _ _ | .xlat _ _ | .mma _ _ | .mmaq _ _ | .aclr _ _ | .adrn _ _ | .scopy _ _
  | .sgath _ _ | .sscat _ _ | .strn _ _ | .slay _ _ | .speer _ _ | .sstop _ _ | .rngset _ _ | .rngnext _ _
  | .rngsteal _ _ | .trap _ _ | .brk _ _ | .srd _ _ | .swr _ _ | .mark _ _ | .halt _ _ | .probe _ _ =>
    [.bays, .parts, .pf, .flight, .fire]
  | .exit _ _ | .call _ _ | .ret _ _ | .discard _ _ | .kput _ _ =>
    [.bays, .parts, .pf, .fire]
  | .ld _ _ | .st _ _ | .ldv _ _ | .stv _ _ | .ldg _ _ | .stg _ _ | .ldo _ _ | .sto _ _ | .sflush _ _ | .sinv _ _
  | .srel _ _ | .fence _ _ | .aadd _ _ | .amin _ _ | .amax _ _ | .aand _ _ | .aor _ _ | .axor _ _ | .axch _ _
  | .acas _ _ | .ainc _ _ | .adec _ _ | .faadd _ _ | .seed _ _ =>
    [.mem, .poison, .pkgBad, .bays, .parts, .pf, .flight, .fire]
  | .tokenArrive _ | .gateEntryToken _ | .admitTag _ _ _ _ | .quiescenceWave _ _ | .query _ _ | .qreply _ _
  | .gread _ _ | .gpart _ _ | .islandCommandAccept _ _ _ | .mmaExecute _ _ | .aclrExecute _ _ | .pipelineEnd _ _ _
  | .sstopExecute _ _ _ | .steal _ _ | .probeRequest _ _ | .cfg _ _ | .turnNotice _ _ | .baySaveComplete _ _
  | .saved _ _ =>
    [.bays, .parts, .pf, .flight]
  | .waithistSpill _ _ _ _ =>
    [.mem, .poison, .pkgBad, .bays]
  | .settle _ _ _ | .commit _ _ _ | .launchComplete _ _ | .mreq _ _ | .mrep _ _ | .fillDataArrive _ _ _ _
  | .streamFetch _ _ | .gwrite _ _ | .ldgResult _ _ | .stgDone _ _ | .drainExecute _ _ | .pipelineStart _ _ _
  | .indexListRead _ _ _ | .unload _ _ | .bind _ | .marker _ _ | .snapshot _ _ | .lsave _ _ | .lsaved _ _
  | .cancel _ _ | .fcmdResume _ _ | .fcmdDiscard _ _ | .fcmdEnd _ _ | .fcmdZfill _ _ | .shootdownInval _ _
  | .shootdownFlush _ _ | .shootdownMigrate _ _ | .shootdownComplete _ | .traceSessionOpen _ _ _
  | .traceSessionClose _ _ _ | .cqreset _ _ =>
    [.mem, .poison, .pkgBad, .bays, .parts, .pf, .flight]
  | .limUpdate _ _ _ _ | .creditReturn _ _ | .depUpdate _ _ | .gack _ _ =>
    [.bays]
  | .packetArrive _ _ _ =>
    [.bays, .parts, .pf, .ecc, .flight]
  | .packetSend _ | .boundaryTokenSend _ =>
    [.bays, .parts, .pf, .flight, .flitErrs]
  | .tileRead _ _ _ | .tileArrive _ _ _ =>
    [.mem, .poison, .pkgBad, .bays, .parts, .pf, .spliceOut, .flight]
  | .spliceTile _ =>
    [.mem, .poison, .pkgBad, .bays, .parts, .pf, .spliceDrop, .spliceOut, .inputs]
  | .spliceNotice _ =>
    [.bays, .spliceDrop]
  | .spliceRead _ =>
    [.mem, .poison, .pkgBad, .parts, .pf, .spliceDrop, .spliceOut, .inputs]
  | .spliceDone _ =>
    [.bays, .parts, .pf, .spliceDrop]
  | .grant _ _ | .preply _ _ =>
    [.bays, .flight]
  | .launchRecordWrite _ _ | .priorityChange _ _ | .loadComplete _ | .selectLaunch _ | .turn _ _ | .scopepolWrite _ _
  | .dbgctlWrite _ _ =>
    [.parts, .pf]
  | .seedWrite _ _ _ | .cfgack _ _ =>
    [.parts, .pf, .flight]
  | .linkDown =>
    [.link, .inputs]
  | .linkUp =>
    [.mem, .poison, .pkgBad, .parts, .pf, .link]
  | .recordWrite _ _ | .traceRecordWrite _ _ | .traceResetEnd _ _ =>
    [.mem, .poison, .pkgBad, .parts, .pf]
  | .spliceBindingWrite _ _ _ =>
    [.bays, .parts, .pf, .chans]
  | .load _ _ =>
    [.mem, .poison, .pkgBad, .bays, .parts, .pf, .ecc, .flight, .readBack, .freeCtr]
  | .translate _ _ =>
    [.mem, .poison, .pkgBad, .bays, .parts, .pf, .flight, .freeCtr]
  | .configScrub _ _ =>
    [.bays, .parts, .pf, .ecc]
  | .loftScrub _ _ _ =>
    [.poison, .parts, .pf, .ecc]
  | .lpddrScrub _ _ =>
    [.pkgBad, .parts, .pf, .ecc]
  | .eccCorrectedInterval _ _ =>
    [.parts, .pf, .ecc]
  | .pctlWrite _ _ | .baysWrite _ _ _ =>
    [.mem, .poison, .bays, .parts, .pf, .zeroQ]
  | .zeroiseComplete _ =>
    [.bays, .parts, .pf, .zeroQ]
  | .unsealBlob _ _ =>
    [.mem, .poison, .pkgBad, .parts, .pf, .flight]
  | .attest _ _ =>
    [.mem, .poison, .pkgBad]
  | .boot =>
    [.mem, .poison, .bays, .boot]
  | .tempSample _ _ | .voltageDroop _ _ | .processInterval _ _ | .preciseStopComplete _ _ =>
    [.bays, .parts, .pf]
  | .dieopWrite _ _ | .operatingPointSettled _ =>
    [.dieop]
  | .registerWrite _ _ =>
    [.bays, .parts, .pf, .devnum]
  | .spliceLinkDown _ =>
    [.bays, .parts, .pf, .chans, .spliceDown]
  | .spliceLinkUp _ =>
    [.chans, .spliceDown]
  | .bridgeLinkDown _ =>
    [.parts, .pf, .bridgeLost]
  | .hostMemoryAccess _ =>
    [.mem, .poison, .pkgBad, .parts, .pf, .inputs]
  | .markOffline _ _ =>
    [.offline]

/-! ## Sets that fire -/

/-- The machine with the set that fires taken up. -/
def State.taken (s : State) : State := { s with fire := none }

/-- The set `m` of bay `b` fires now, whole: no operand is poisoned or null, and its predicate agrees with PM (R17, R20,
R74). -/
structure Ready (c : Common) (b : Nat) (m : MSet) (s : State) : Prop where
  here : s.fire = some (b, m)
  whole : ∀ k ∈ m.toks, k.poi = false ∧ k.nul = false
  agrees : predOk c m = true

/-- The set `m` of bay `b` fires now on the null path: no operand is poisoned, and one is null or its predicate disagrees with
PM (R20). -/
structure Nulled (c : Common) (b : Nat) (m : MSet) (s : State) : Prop where
  here : s.fire = some (b, m)
  clean : ∀ k ∈ m.toks, k.poi = false
  why : (∃ k ∈ m.toks, k.nul = true) ∨ predOk c m = false

/-- Lane j of width w of the operand at a port (R63, R98); an operand that is scalar is its own lane 0. -/
def laneBits (vector : Bool) (w j : Nat) (k : Option Token) : BitVec w :=
  match k with
  | none => 0
  | some t => if vector then (valVec t.val).extractLsb' (w * j) w else (valWord t.val).setWidth w

/-- The value of an operand read in TY (R47, R100). -/
def readBits (t : Ty) {w : Nat} (x : BitVec w) : Int := if t.signed then x.toInt else x.toNat

/-- A result is the exact value clamped to the range of TY (R49): within it the value itself, beyond it the nearest end. -/
def clampBits (t : Ty) (w : Nat) (x : Int) : BitVec w :=
  let lo : Int := if t.signed then -2 ^ (w - 1) else 0
  let hi : Int := if t.signed then 2 ^ (w - 1) - 1 else 2 ^ w - 1
  BitVec.ofInt w (max lo (min hi x))

/-- Operand b: port B, or the immediate (R80, R96). -/
def laneB (c : Common) (f : FormA) (w j : Nat) (m : MSet) : BitVec w :=
  if f.im then (immValue c.ty f.imm16).setWidth w else laneBits c.w w j m.b

/-- A value that holds these results in TY (R48, R50, R98): every lane of a vector; the bit of a b1; else a scalar extended by the
sign for s types, by zeros for the others. -/
structure Holds (c : Common) {w : Nat} (r : Nat → BitVec w) (v : Val) : Prop where
  vector : c.w = true → ∃ u : Vec, v = .vec u ∧ ∀ j < 1024 / w, u.extractLsb' (w * j) w = r j
  bit : c.w = false → c.ty = .b1 → v = .ct ((r 0).setWidth 1)
  scalar : c.w = false → c.ty ≠ .b1 → v = .sc (if c.ty.signed then (r 0).signExtend 64 else (r 0).setWidth 64)

/-- A value that holds these truth values (R50, R98): bit j of a vector for lane j, zeros above; or one control bit. -/
structure Tells (c : Common) (p : Nat → Bool) (v : Val) : Prop where
  vector : c.w = true → ∃ u : Vec, v = .vec u ∧ ∀ j < 1024, u.getLsbD j = (decide (j < 1024 / c.ty.width true) && p j)
  bit : c.w = false → v = .ct (BitVec.ofBool (p 0))

/-- Where a whole set fires, the instruction answers a next state that differs from the one before in nothing but the set taken
up and the value sent to both targets; the value holds, lane by lane, `op` of the operands. -/
def Computes (i : Instr) (c : Common) (f : FormA) (op : ∀ w : Nat, BitVec w → BitVec w → BitVec w → BitVec w) : Prop :=
  ∀ b m s, Ready c b m s →
    ∃ v, Holds c (fun j => op (c.ty.width c.w) (laneBits c.w _ j m.a) (laneB c f _ j m) (laneBits c.w _ j m.c)) v ∧
      exec i s = .next (deliver c v b m s.taken)

/-- The same of a comparison. -/
def Compares (i : Instr) (c : Common) (f : FormA) (op : ∀ w : Nat, BitVec w → BitVec w → Bool) : Prop :=
  ∀ b m s, Ready c b m s →
    ∃ v, Tells c (fun j => op (c.ty.width c.w) (laneBits c.w _ j m.a) (laneB c f _ j m)) v ∧
      exec i s = .next (deliver c v b m s.taken)

/-- Lane j of an operand as a floating-point value of TY (R51, R52). -/
def laneF (c : Common) (j : Nat) (k : Option Token) : FV := (fmtOf c.ty).decode (laneBits c.w (c.ty.width c.w) j k).toNat
def laneFB (c : Common) (f : FormA) (j : Nat) (m : MSet) : FV := (fmtOf c.ty).decode (laneB c f (c.ty.width c.w) j m).toNat

/-- Where a whole set fires, the instruction answers a next state that differs in nothing but the set taken up and the value sent
to both targets; the value holds, lane by lane, `op` of the operands rounded once into TY (R56, R102). -/
def Rounds (i : Instr) (c : Common) (f : FormA) (op : FV → FV → FV → FV) : Prop :=
  ∀ b m s, Ready c b m s →
    ∃ v, Holds c (fun j => BitVec.ofNat (c.ty.width c.w)
        (roundTo (nbvOf s b m.ctx) c.ty f.rnd f.sat (op (laneF c j m.a) (laneFB c f j m) (laneF c j m.c)))) v ∧
      exec i s = .next (deliver c v b m s.taken)

/-- Where a whole set fires, a conversion answers a next state that differs in nothing but the set taken up and the value sent to
both targets (R106): the low bits of a scalar converted; or, by lanes, what PART places where, zero in the other lanes. -/
def Converts (i : Instr) (c : Common) (f : FormA) (conv : Nat → ∀ ws wd : Nat, BitVec ws → BitVec wd) : Prop :=
  ∀ b m s, Ready c b m s →
    let ws := f.srcTy.width c.w
    let wd := c.ty.width c.w
    let nd := 1024 / wd
    let ns := 1024 / ws
    ∃ v, Holds c (fun j =>
        if !c.w then conv (nbvOf s b m.ctx) ws wd (laneBits false ws 0 m.a)
        else if ws ≤ wd then conv (nbvOf s b m.ctx) ws wd (laneBits true ws (f.part * nd + j) m.a)
        else if f.part * ns ≤ j ∧ j < (f.part + 1) * ns then conv (nbvOf s b m.ctx) ws wd (laneBits true ws (j - f.part * ns) m.a)
        else 0) v ∧
      exec i s = .next (deliver c v b m s.taken)

/-- An operation of the wave has fired on bay `b` (R184): its LSID has fired, its instance holds it waiting, an atomic or a stg has
pinned the instance (R33); then the bay serves and issues what it may. -/
def waveFire (c : Common) (f : FormM) (m : MSet) (b : Nat) (kind : OpKind) (op ea scope : Nat) (s : State) : State :=
  let o : MemOp := ⟨kind, m.el, m.slot, f.lsid.toNat, c, f, op, ea, m.b.getD noTok, (m.c.map fun t => valWord t.val).getD 0, scope,
    .waiting, 0⟩
  let s := if kind = .atomic ∨ kind = .stg then pinInst b m s else s
  kick ((noteFired f.lsid.toNat b m s).modInst b m.gate m.ix fun i => { i with ops := i.ops ++ [o] }) b

end Sys2Proof.Machine
end

