-- ==== Sys2Proof/Certificates/Slice0/Obligations.lean ====
section
/-!
DEFINITION. Sys2Proof/Certificates/Slice0/Obligations.lean: the statements for the provers.
-/
open Sys2Proof Sys2Proof.Machine

/-! ## The integer family -/

/-- R49, R98, R100: add, sub, neg, abs, mul, mad, shl and adsc with SAT = 0 deliver, in every lane, the exact result modulo
2^w. -/
def Obligations.IntegerWraps : Prop :=
  ∀ c f, f.sat = false →
    Computes (.add c f) c f (fun _ a b _ => a + b) ∧
    Computes (.sub c f) c f (fun _ a b _ => a - b) ∧
    Computes (.neg c f) c f (fun _ a _ _ => -a) ∧
    Computes (.abs c f) c f (fun _ a _ _ => if c.ty.signed && a.msb then -a else a) ∧
    Computes (.mul c f) c f (fun _ a b _ => a * b) ∧
    Computes (.mad c f) c f (fun _ a b d => a * b + d) ∧
    Computes (.shl c f) c f (fun w a b _ => a <<< (b.toNat % w)) ∧
    Computes (.adsc c f) c f (fun _ a b _ => a + b <<< fieldLow f)

/-- R49, R98, R100: the same members with SAT = 1 deliver, in every lane, the exact result brought into the range of TY. -/
def Obligations.IntegerSaturates : Prop :=
  ∀ c f, f.sat = true →
    Computes (.add c f) c f (fun w a b _ => clampBits c.ty w (readBits c.ty a + readBits c.ty b)) ∧
    Computes (.sub c f) c f (fun w a b _ => clampBits c.ty w (readBits c.ty a - readBits c.ty b)) ∧
    Computes (.neg c f) c f (fun w a _ _ => clampBits c.ty w (-readBits c.ty a)) ∧
    Computes (.abs c f) c f (fun w a _ _ => clampBits c.ty w (readBits c.ty a).natAbs) ∧
    Computes (.mul c f) c f (fun w a b _ => clampBits c.ty w (readBits c.ty a * readBits c.ty b)) ∧
    Computes (.mad c f) c f (fun w a b d => clampBits c.ty w (readBits c.ty a * readBits c.ty b + readBits c.ty d)) ∧
    Computes (.shl c f) c f (fun w a b _ => clampBits c.ty w (readBits c.ty a * 2 ^ (b.toNat % w))) ∧
    Computes (.adsc c f) c f (fun w a b _ => clampBits c.ty w (readBits c.ty a + readBits c.ty b * 2 ^ fieldLow f))

/-- R100: the bitwise members, the shifts to the right, the rotation, the counts and the reversal, in every lane. -/
def Obligations.IntegerBits : Prop :=
  ∀ c f,
    Computes (.and c f) c f (fun _ a b _ => a &&& b) ∧
    Computes (.or c f) c f (fun _ a b _ => a ||| b) ∧
    Computes (.xor c f) c f (fun _ a b _ => a ^^^ b) ∧
    Computes (.andn c f) c f (fun _ a b _ => a &&& ~~~b) ∧
    Computes (.not c f) c f (fun _ a _ _ => ~~~a) ∧
    Computes (.shr c f) c f (fun w a b _ => a >>> (b.toNat % w)) ∧
    Computes (.sar c f) c f (fun w a b _ => a.sshiftRight (b.toNat % w)) ∧
    Computes (.rol c f) c f (fun _ a b _ => a.rotateLeft b.toNat) ∧
    Computes (.clz c f) c f (fun _ a _ _ => a.clz) ∧
    Computes (.ctz c f) c f (fun _ a _ _ => a.ctz) ∧
    Computes (.popc c f) c f (fun _ a _ _ => a.cpop) ∧
    Computes (.brev c f) c f (fun _ a _ _ => a.reverse)

/-- R100: min, max, mulh, sel and the bit fields, in every lane. A field that bfx or bfi names lies within the lane, as the
loader requires. -/
def Obligations.IntegerSelects : Prop :=
  ∀ c f,
    Computes (.min c f) c f (fun _ a b _ => if readBits c.ty b < readBits c.ty a then b else a) ∧
    Computes (.max c f) c f (fun _ a b _ => if readBits c.ty a < readBits c.ty b then b else a) ∧
    Computes (.mulh c f) c f (fun w a b _ => BitVec.ofInt w (readBits c.ty a * readBits c.ty b / 2 ^ w)) ∧
    (0 < fieldLen f → fieldLow f + fieldLen f ≤ c.ty.width c.w →
      Computes (.bfx c f) c f (fun w a _ _ =>
        if c.ty.signed then (a.extractLsb' (fieldLow f) (fieldLen f)).signExtend w
        else (a.extractLsb' (fieldLow f) (fieldLen f)).setWidth w) ∧
      Computes (.bfi c f) c f (fun w a b _ =>
        let mask := BitVec.ofNat w (2 ^ fieldLen f - 1) <<< fieldLow f
        (a &&& ~~~mask) ||| ((b <<< fieldLow f) &&& mask))) ∧
    ∀ b m s, Ready c b m s →
      ∃ v, Holds c (fun j => if laneBits c.w 1 j m.c = 1 then laneBits c.w (c.ty.width c.w) j m.a else laneB c f _ j m) v ∧
        exec (.sel c f) s = .next (deliver c v b m s.taken)

/-- R101, word for word its table: division truncates toward zero; a zero divisor gives all ones and the dividend; the least
value over minus one gives itself and zero. -/
def Obligations.DivisionTable : Prop :=
  ∀ c f,
    Computes (.div c f) c f (fun w a b _ =>
      if b = 0 then BitVec.allOnes w else BitVec.ofInt w ((readBits c.ty a).tdiv (readBits c.ty b))) ∧
    Computes (.rem c f) c f (fun w a b _ =>
      if b = 0 then a
      else BitVec.ofInt w (readBits c.ty a - readBits c.ty b * (readBits c.ty a).tdiv (readBits c.ty b)))

/-- R100: the comparisons give one truth value a lane, signed for s types and unsigned otherwise. -/
def Obligations.IntegerCompares : Prop :=
  ∀ c f,
    Compares (.ceq c f) c f (fun _ a b => a == b) ∧
    Compares (.cne c f) c f (fun _ a b => a != b) ∧
    Compares (.clt c f) c f (fun _ a b => decide (readBits c.ty a < readBits c.ty b)) ∧
    Compares (.cle c f) c f (fun _ a b => decide (readBits c.ty a ≤ readBits c.ty b))

/-! ## The float family -/

/-- R102, R103: the rounded members deliver, in every lane, the exact result rounded once. -/
def Obligations.FloatRounds : Prop :=
  ∀ c f,
    Rounds (.fadd c f) c f (fun a b _ => a.add b f.rnd) ∧
    Rounds (.fsub c f) c f (fun a b _ => a.add b.flip f.rnd) ∧
    Rounds (.fmul c f) c f (fun a b _ => a.mul b) ∧
    Rounds (.fma c f) c f (fun a b d => (a.mul b).add d f.rnd) ∧
    Rounds (.fnma c f) c f (fun a b d => (a.mul b).flip.add d f.rnd) ∧
    Rounds (.fdiv c f) c f (fun a b _ => a.div b) ∧
    Rounds (.fsqrt c f) c f (fun a _ _ => a.sqrt) ∧
    Rounds (.frsq c f) c f (fun a _ _ => a.rsqrt) ∧
    Rounds (.frcp c f) c f (fun a _ _ => (FV.fin false 1 0).div a) ∧
    Rounds (.fexp2 c f) c f (fun a _ _ => a.exp2) ∧
    Rounds (.flog2 c f) c f (fun a _ _ => a.log2) ∧
    Rounds (.frint c f) c f (fun a _ _ => a.rint f.rnd) ∧
    ∀ b m s, Ready c b m s →
      ∃ v, Holds c (fun j => BitVec.ofNat (c.ty.width c.w) (roundTo (nbvOf s b m.ctx) c.ty f.rnd f.sat
          ((laneF c j m.a).scale (readInt true (if c.ty = .f32 then 32 else 16) (laneB c f (c.ty.width c.w) j m).toNat)))) v ∧
        exec (.fscal c f) s = .next (deliver c v b m s.taken)

/-- R53, R102: whatever the payload and the sign of a NaN that a rounded member reads, the lane delivered is the canonical NaN of
TY. -/
def Obligations.FloatNaN : Prop :=
  ∀ c f, c.ty.isFloat = true →
    let nan := BitVec.ofNat (c.ty.width c.w) (fmtOf c.ty).nan
    let two (i : Instr) : Prop := ∀ b m s, Ready c b m s →
      ∃ v r, Holds c r v ∧ exec i s = .next (deliver c v b m s.taken) ∧
        ∀ j, (laneF c j m.a).isNan = true ∨ (laneFB c f j m).isNan = true → r j = nan
    let one (i : Instr) : Prop := ∀ b m s, Ready c b m s →
      ∃ v r, Holds c r v ∧ exec i s = .next (deliver c v b m s.taken) ∧ ∀ j, (laneF c j m.a).isNan = true → r j = nan
    let three (i : Instr) : Prop := ∀ b m s, Ready c b m s →
      ∃ v r, Holds c r v ∧ exec i s = .next (deliver c v b m s.taken) ∧
        ∀ j, (laneF c j m.a).isNan = true ∨ (laneFB c f j m).isNan = true ∨ (laneF c j m.c).isNan = true → r j = nan
    two (.fadd c f) ∧ two (.fsub c f) ∧ two (.fmul c f) ∧ two (.fdiv c f) ∧ two (.fmin c f) ∧ two (.fmax c f) ∧
    three (.fma c f) ∧ three (.fnma c f) ∧
    one (.fsqrt c f) ∧ one (.frsq c f) ∧ one (.frcp c f) ∧ one (.fexp2 c f) ∧ one (.flog2 c f) ∧ one (.frint c f) ∧
    one (.fscal c f) ∧ one (.fabs c f) ∧ one (.fneg c f)

/-- R54, R102: fabs clears the sign bit and fneg inverts it, unrounded and unflushed; fmin and fmax give one of their operands, the
lesser and the greater in the order of values with −0 below +0. Each gives the canonical NaN if an operand is NaN. -/
def Obligations.FloatPicks : Prop :=
  (∀ c f, c.ty.isFloat = true →
     let nan (w : Nat) := BitVec.ofNat w (fmtOf c.ty).nan
     let isNan {w : Nat} (a : BitVec w) := ((fmtOf c.ty).decode a.toNat).isNan
     Computes (.fabs c f) c f (fun w a _ _ => if isNan a then nan w else a &&& ~~~BitVec.twoPow w (w - 1)) ∧
     Computes (.fneg c f) c f (fun w a _ _ => if isNan a then nan w else a ^^^ BitVec.twoPow w (w - 1))) ∧
  ∀ c f, c.ty.isFloat = true →
    let dec {w : Nat} (a : BitVec w) : FV := (fmtOf c.ty).decode a.toNat
    let nan {w : Nat} (a b : BitVec w) : Bool := (dec a).isNan || (dec b).isNan
    let below {w : Nat} (a b : BitVec w) : Bool := (dec a).lt (dec b) || ((dec a).eq (dec b) && a.msb && !b.msb)
    Computes (.fmin c f) c f (fun w a b _ =>
      if nan a b then BitVec.ofNat w (fmtOf c.ty).nan else if below b a then b else a) ∧
    Computes (.fmax c f) c f (fun w a b _ =>
      if nan a b then BitVec.ofNat w (fmtOf c.ty).nan else if below b a then a else b)

/-- R54: fcun is true exactly when an operand is NaN; fceq, fclt and fcle are false then; of two operands that are not NaN exactly
one of less, equal and greater holds, −0 equals +0, and fcle is fclt or fceq. -/
def Obligations.FloatCompares : Prop :=
  ∀ c f,
    let dec {w : Nat} (a : BitVec w) : FV := (fmtOf c.ty).decode a.toNat
    let nan {w : Nat} (a b : BitVec w) : Bool := (dec a).isNan || (dec b).isNan
    Compares (.fcun c f) c f (fun _ a b => nan a b) ∧
    Compares (.fclt c f) c f (fun _ a b => !nan a b && (dec a).lt (dec b)) ∧
    Compares (.fceq c f) c f (fun _ a b => !nan a b && (dec a).eq (dec b)) ∧
    Compares (.fcle c f) c f (fun _ a b => !nan a b && ((dec a).lt (dec b) || (dec a).eq (dec b))) ∧
    ∀ w (a b : BitVec w), nan a b = false →
      ((dec a).lt (dec b) || (dec a).eq (dec b) || (dec b).lt (dec a)) = true ∧
      ((dec a).lt (dec b) && (dec b).lt (dec a)) = false ∧ ((dec a).lt (dec b) && (dec a).eq (dec b)) = false ∧
      ((dec a).isZero && (dec b).isZero → (dec a).eq (dec b) = true)

/-- R56, R102: a value exactly representable in a format is returned unchanged by rounding in every mode. -/
def Obligations.ExactUnchanged : Prop :=
  ∀ g ∈ [fmtF32, fmtF16, fmtBf16, fmtE4m3, fmtE5m2], ∀ p < 2 ^ g.width, (g.decode p).isNan = false →
    ∀ mode sat, g.round (g.decode p) mode sat = p

/-- R105: fclass delivers one bit: bits 0 to 8 are −infinity, negative normal, negative subnormal, −0, +0, positive subnormal,
positive normal, +infinity, NaN. -/
def Obligations.FloatClass : Prop :=
  ∀ c f, c.ty.isFloat = true →
    Computes (.fclass c f) c f (fun w a _ _ =>
      let g := fmtOf c.ty
      let e := (a >>> g.mb).toNat % 2 ^ g.eb
      let frac := a.toNat % 2 ^ g.mb
      BitVec.ofNat w (2 ^
        (if e = 2 ^ g.eb - 1 then (if frac ≠ 0 then 8 else if a.msb then 0 else 7)
         else if e = 0 then
          (if frac = 0 then (if a.msb then 3 else 4) else if a.msb then 2 else 5)
         else if a.msb then 1 else 6)))

/-- R58, R106, R107: the conversions: cvi extends, keeps the low bits, or saturates; fcvt, fcvi and icvf convert as the table of
R58; the operand itself where source and destination are one type and it is no NaN; fpk packs two. -/
def Obligations.Conversions : Prop :=
  ∀ c f, c.ty ≠ .b1 →
    Converts (.cvi c f) c f (fun _ _ wd a =>
      if f.sat then clampBits c.ty wd (readBits f.srcTy a) else BitVec.ofInt wd (readBits f.srcTy a)) ∧
    Converts (.fcvt c f) c f (fun nbv _ wd a => BitVec.ofNat wd (fcvtPat nbv f.srcTy c.ty f.rnd f.sat a.toNat)) ∧
    Converts (.fcvi c f) c f (fun _ _ wd a => BitVec.ofNat wd (floatToInt c.ty f.rnd f.sat ((fmtOf f.srcTy).decode a.toNat))) ∧
    Converts (.icvf c f) c f (fun nbv _ wd a => BitVec.ofNat wd (roundTo nbv c.ty f.rnd f.sat (ofInt (readBits f.srcTy a)))) ∧
    ∀ b m s, Ready c b m s → c.ty ∈ [Ty.f16, .bf16, .e4m3, .e5m2] →
      let w := c.ty.width true
      let cvt (a : BitVec 32) : BitVec w := BitVec.ofNat w (fcvtPat (nbvOf s b m.ctx) .f32 c.ty f.rnd f.sat a.toNat)
      ∃ v, exec (.fpk c f) s = .next (deliver c v b m s.taken) ∧
        (c.w = false →
          v = .sc ((cvt (laneBits false 32 0 m.b) ++ cvt (laneBits false 32 0 m.a)).setWidth 64)) ∧
        (c.w = true → ∃ u : Vec, v = .vec u ∧ ∀ j < 32,
          let base := if w = 8 ∧ f.aux7.getLsbD 0 then 64 else 0
          u.extractLsb' (w * (base + j)) w = cvt (laneBits true 32 j m.a) ∧
          u.extractLsb' (w * (base + 32 + j)) w = cvt (laneBits true 32 j m.b) ∧
          (w = 8 → ∀ k < 64, u.extractLsb' (8 * (if f.aux7.getLsbD 0 then k else 64 + k)) 8 =
            if f.aux7.getLsbD 0 then laneBits true 8 k m.c else 0))

/-- R56: rounding down gives the greatest value of the format that is not above the exact value, rounding up the least that is not
below it; an infinity stands for every value beyond the greatest finite one. -/
def Obligations.DirectedRounding : Prop :=
  ∀ g ∈ [fmtF32, fmtF16, fmtBf16, fmtE5m2], ∀ neg m e,
    let x := FV.fin neg m e
    let down := g.decode (g.round x .rd false)
    let up := g.decode (g.round x .ru false)
    down.le x = true ∧ x.le up = true ∧
    ∀ p, (g.decode p).isNan = false →
      ((g.decode p).le x = true → (g.decode p).le down = true) ∧ (x.le (g.decode p) = true → up.le (g.decode p) = true)

/-! ## The lane family -/

/-- R108: lperm, lbcast, lins, lrot, lzip and lunzip place lanes as the table says; lext delivers a lane, extended, or its bit for
b1. -/
def Obligations.LaneMoves : Prop :=
  ∀ c f, c.w = true →
    let w := c.ty.width true
    let n := 1024 / w
    let gives (i : Instr) (r : MSet → Nat → BitVec w) : Prop := ∀ b m s, Ready c b m s →
      ∃ u : Vec, (∀ j < n, u.extractLsb' (w * j) w = r m j) ∧ exec i s = .next (deliver c (.vec u) b m s.taken)
    let a (m : MSet) (j : Nat) : BitVec w := laneBits true w j m.a
    let b (m : MSet) (j : Nat) : BitVec w := laneBits true w j m.b
    gives (.lperm c f) (fun m j => a m ((b m j).toNat % n)) ∧
    gives (.lbcast c f) (fun m _ => laneBits false w 0 m.a) ∧
    gives (.lins c f) (fun m j => if j = f.imm16.toNat then laneBits false w 0 m.b else a m j) ∧
    gives (.lrot c f) (fun m j => a m ((j + (if f.im then f.imm16.toNat else (laneBits false 32 0 m.b).toNat)) % n)) ∧
    gives (.lzip c f) (fun m j =>
      let h := if f.aux7.getLsbD 0 then n / 2 else 0
      if j % 2 = 0 then a m (j / 2 + h) else b m (j / 2 + h)) ∧
    gives (.lunzip c f) (fun m j =>
      let d := if f.aux7.getLsbD 0 then 1 else 0
      if j < n / 2 then a m (2 * j + d) else b m (2 * (j - n / 2) + d)) ∧
    ∀ b m s, Ready c b m s →
      exec (.lext c f) s = .next (deliver c
        (if c.ty = .b1 then .ct (laneBits true 1 f.imm16.toNat m.a)
         else .sc (if c.ty.signed then (laneBits true w f.imm16.toNat m.a).signExtend 64
          else (laneBits true w f.imm16.toNat m.a).setWidth 64)) b m s.taken)

/-- The lanes that bit j of port B marks, below N, in order (R110). -/
def markedLanes (c : Common) (m : MSet) : List Nat :=
  (List.range (1024 / c.ty.width true)).filter fun j => (laneBits true 1 j m.b) == 1#1

/-- R109 to R111: lcmpr puts the marked lanes of A in its first lanes and zeros in the others; lexpd puts the first lanes of A where the
marks are and zeros in the others; both deliver the number of marks at T1. lred delivers the reduction of the present lanes and whether
it is void, lscan a vector of prefixes; lq4 puts the codes of each block, and its scale byte, at the block's place, beside the bytes of
ports B and C if MRG = 1 and zeros if not. -/
def Obligations.LaneMasks : Prop :=
  (∀ c f b m s, Ready c b m s →
     let w := c.ty.width true
     let js := markedLanes c m
     (∃ u : Vec, exec (.lcmpr c f) s = .next (deliver2 c (.vec u) (.sc (word js.length)) b m s.taken) ∧
       ∀ k < 1024 / w, u.extractLsb' (w * k) w = if h : k < js.length then laneBits true w js[k] m.a else 0) ∧
     (∃ u : Vec, exec (.lexpd c f) s = .next (deliver2 c (.vec u) (.sc (word js.length)) b m s.taken) ∧
       (∀ k, ∀ h : k < js.length, u.extractLsb' (w * js[k]) w = laneBits true w k m.a) ∧
       ∀ j < 1024 / w, j ∉ js → u.extractLsb' (w * j) w = 0)) ∧
  ∀ c f b m s, Ready c b m s →
    let r := laneRed c f (nbvOf s b m.ctx)
    let vs := lanesOf r.sw ((m.a.map fun t => valVec t.val).getD 0)
    let x := r.reduce vs (lanePresent f m)
    exec (.lred c f) s = .next (deliver2 c (.sc (extendRes r.ty r.w x.1)) (.ct (BitVec.ofBool x.2)) b m s.taken) ∧
    (∃ u : Vec, exec (.lscan c f) s = .next (deliver c (.vec u) b m s.taken) ∧
      ∀ k < 1024 / r.sw, (u.extractLsb' (r.sw * k) r.sw).toNat = r.prefixAt vs (lanePresent f m) k % 2 ^ r.sw) ∧
    let kb := (f.aux7.extractLsb' 3 3).toNat
    let n := if c.ty = .f32 then 1 else 2
    let block (k : Nat) : List Nat × Nat := q4Block (nbvOf s b m.ctx) (f.aux7.extractLsb' 0 2).toNat f.rnd
      ((List.range 32).map fun i => laneF c (32 * k + i) m.a)
    ∃ (u : Vec) (v : Word), exec (.lq4 c f) s = .next (deliver2 c (.vec u) (.sc v) b m s.taken) ∧
      (c.w = true → kb + n ≤ 8 →
        (∀ k < n, v.extractLsb' (8 * (kb + k)) 8 = BitVec.ofNat 8 (block k).2 ∧
          ∀ i < 32, u.extractLsb' (128 * (kb + k) + 4 * i) 4 = BitVec.ofNat 4 ((block k).1.getD i 0)) ∧
        ∀ j < 8, j < kb ∨ kb + n ≤ j →
          v.extractLsb' (8 * j) 8 = (if f.aux7.getLsbD 2 then (laneBits false 64 0 m.c).extractLsb' (8 * j) 8 else 0) ∧
          ∀ i < 16, u.extractLsb' (8 * (16 * j + i)) 8 = if f.aux7.getLsbD 2 then laneBits true 8 (16 * j + i) m.b else 0)

/-- R65, R109: a sum of integers with SAT = 0 is the sum of the present lanes modulo 2^w of the result, in whatever order the tree
takes them, under every NBV. -/
def Obligations.IntegerSumIsOrderless : Prop :=
  ∀ c f nbv (m : MSet), f.opsel = 0 → f.sat = false → c.ty.isTo32 = true →
    let r := laneRed c f nbv
    let vs := lanesOf r.sw ((m.a.map fun t => valVec t.val).getD 0)
    (r.reduce vs (lanePresent f m)).1 =
      wrapTo r.w (((List.range vs.length).filter (lanePresent f m)).foldl (fun n j => n + readInt c.ty.signed r.sw (vs.getD j 0)) 0)

/-! ## Tokens -/

/-- R76, R132: a value delivered goes to T0 and then to T1. A target 0x7FF receives nothing. A target names an element of the span,
a slot and a port of the instance's own bay, and the token is put under way under the instance's tag; nothing else changes. -/
def Obligations.Delivery : Prop :=
  ∀ c v w b m s,
    deliver c v b m s = deliver2 c v v b m s ∧
    deliver2 c v w b m s = sendTo (sendTo s b m c.t0 ⟨v, false, false⟩) b m c.t1 ⟨w, false, false⟩ ∧
    ∀ k h, s.hitch? b m.gate m.ctx (hnumOf s b m) = some h →
      sendTo s b m 0x7FF#11 k = s ∧
      ∀ t : Target, t ≠ 0x7FF#11 →
        sendTo s b m t k = { s with flight := s.flight ++ [.tokenArrive
          { bay := b, el := h.spanEl (t.extractLsb' 7 4).toNat, slot := (t.extractLsb' 2 5).toNat, port := (t.extractLsb' 0 2).toNat
            ctx := m.ctx, gate := m.gate, ix := m.ix, src := m.el, tok := k }] }

/-- R20, R33, R89, R115, R120, R184: on the null path a slot that delivers values sends a null to each target, on the network of the
result, mov4 to the targets of its route word too, and nothing else happens. A count or fold does so once its set may fire. An exit,
call, ret or discard does nothing; a kput nulls its register for its gate; an instruction that pins its instance pins it all the same. A
memory slot sends its nulls and has produced its LSID; one that places an entry in the store mask (a store, sflush, srel on a store
site, a fence with release) leaves a null entry of it, and an atomic and a stg pin their instance. -/
def Obligations.NullPath : Prop :=
  (∀ c f b m s, Nulled c b m s →
     let z := if c.w then Val.vec 0 else if c.ty = .b1 then .ct 0 else .sc 0
     let zb := if c.w then Val.vec 0 else .ct 0
     let zf := if c.w then Val.vec 0 else .sc 0
     let nulls (v w : Val) : Host.Outcome State Fault Refusal := .next (sendNulls c v w b m s.taken)
     (∀ i ∈ [Instr.add c f, .sub c f, .neg c f, .abs c f, .min c f, .max c f, .mul c f, .mulh c f, .mad c f, .div c f, .rem c f,
         .and c f, .or c f, .xor c f, .andn c f, .not c f, .shl c f, .shr c f, .sar c f, .rol c f, .clz c f, .ctz c f, .popc c f,
         .brev c f, .bfx c f, .bfi c f, .sel c f, .adsc c f, .const c f], exec i s = nulls z z) ∧
     (∀ i ∈ [Instr.ceq c f, .cne c f, .clt c f, .cle c f, .fceq c f, .fclt c f, .fcle c f, .fcun c f], exec i s = nulls zb zb) ∧
     (∀ i ∈ [Instr.fadd c f, .fsub c f, .fmul c f, .fma c f, .fnma c f, .fmin c f, .fmax c f, .fabs c f, .fneg c f, .fdiv c f,
         .fsqrt c f, .frsq c f, .frcp c f, .fexp2 c f, .flog2 c f, .frint c f, .fscal c f, .fclass c f, .cvi c f, .fcvt c f,
         .fcvi c f, .icvf c f, .fpk c f, .null c f], exec i s = nulls zf zf) ∧
     (∀ i ∈ [Instr.lperm c f, .lbcast c f, .lins c f, .lscan c f, .lrot c f, .lzip c f, .lunzip c f],
       exec i s = nulls (.vec 0) (.vec 0)) ∧
     exec (.lred c f) s = nulls (.sc 0) (.ct 0) ∧
     (s.recReady b m = true → ∀ i ∈ [Instr.count c f, .fold c f], exec i s = nulls (.sc 0) (.ct 0)) ∧
     exec (.lext c f) s = (if c.ty = .b1 then nulls (.ct 0) (.ct 0) else nulls (.sc 0) (.sc 0)) ∧
     (∀ i ∈ [Instr.lcmpr c f, .lexpd c f, .lq4 c f], exec i s = nulls (.vec 0) (.sc 0)) ∧
     (∀ i ∈ [Instr.incf c f, .pushf c f, .popf c f, .setf c f, .getf c f], exec i s = nulls (.sc 0) (.sc 0)) ∧
     exec (.ordj c f) s = nulls (.ct 0) (.ct 0) ∧
     (∀ i ∈ [Instr.mov c f, .steer c f, .gate c f, .sync c f], exec i s = nulls (valA m) (valA m)) ∧
     ∀ r, AMap.get? (s.elem b m.el).routes (f.aux7.extractLsb' 0 3).toNat = some r → r.poison = false →
       exec (.mov4 c f) s = .next (((List.range 4).map fun i => r.word.extractLsb' (11 * i) 11).foldl
         (fun u t => sendTo u b m t (nullOn (valA m))) (sendNulls c (valA m) (valA m) b m s.taken))) ∧
  (∀ c f b m s, Nulled c b m s →
     let pinned (u : State) : State := u.modInst b m.gate m.ix fun i => { i with pinned := true }
     let nulls (v w : Val) (u : State) : Host.Outcome State Fault Refusal :=
       .next (kick (sendNulls c v w b m (noteFired f.lsid.toNat b m u)) b)
     let z := if c.w then Val.vec 0 else .sc 0
     let nullEntry (i : Instr) : Prop := ∃ e : WaveEnt,
       e.nul = true ∧ e.gate = m.gate ∧ e.ix = m.ix ∧ e.lsid = f.lsid.toNat ∧
       exec i s = .next (kick (sendNulls c (.ct 0) (.ct 0) b m
         (((noteFired f.lsid.toNat b m s.taken).modBay b fun y => { y with wave := y.wave ++ [e] }).modInst b m.gate m.ix fun i =>
           { i with stores := insertNat f.lsid.toNat i.stores })) b)
     let onStore := ((s.site? b (siteOf s b m.ctx f)).any (·.isStore)) = true
     let rel := f.ord = .rel ∨ f.ord = .ar
     (∀ i ∈ [Instr.ld c f, .ldv c f, .ldo c f], exec i s = nulls z (.ct 0) s.taken) ∧
     exec (.ldg c f) s = nulls z (.sc 0) s.taken ∧
     exec (.stg c f) s = nulls (.ct 0) (.sc 0) (pinned s.taken) ∧
     (∀ i ∈ [Instr.aadd c f, .amin c f, .amax c f, .aand c f, .aor c f, .axor c f, .axch c f, .acas c f, .ainc c f, .adec c f,
         .faadd c f], exec i s = nulls (.sc 0) (.ct 0) (pinned s.taken)) ∧
     (∀ i ∈ [Instr.st c f, .stv c f, .sto c f, .sflush c f], nullEntry i) ∧
     exec (.sinv c f) s = nulls (.ct 0) (.ct 0) s.taken ∧
     (onStore → nullEntry (.srel c f)) ∧
     (¬ onStore → exec (.srel c f) s = nulls (.ct 0) (.ct 0) s.taken) ∧
     (rel → nullEntry (.fence c f)) ∧
     (¬ rel → exec (.fence c f) s = nulls (.ct 0) (.ct 0) s.taken)) ∧
  ∀ c (x : FormX) (y : FormS) (z : FormM) (u : FormI) b m s, Nulled c b m s →
    let nulls (v w : Val) : Host.Outcome State Fault Refusal := .next (sendNulls c v w b m s.taken)
    let pinned (v w : Val) : Host.Outcome State Fault Refusal :=
      .next (sendNulls c v w b m (s.taken.modInst b m.gate m.ix fun i => { i with pinned := true }))
    (∀ i ∈ [Instr.exit c x, .call c x, .ret c x, .discard c x], exec i s = .next s.taken) ∧
    exec (.kget c x) s = nulls (.sc 0) (.sc 0) ∧
    exec (.kput c x) s = .next (putKeep x true 0 b m s.taken) ∧
    (∀ i ∈ [Instr.sdepth c z, .xlat c z, .trap c y, .brk c y, .srd c y, .mark c y, .halt c y, .probe c y],
      exec i s = nulls (.sc 0) (.sc 0)) ∧
    (∀ i ∈ [Instr.rngset c y, .swr c y], exec i s = pinned (.ct 0) (.ct 0)) ∧
    exec (.rngnext c y) s = pinned (.sc 0) (.sc 0) ∧
    exec (.rngsteal c y) s = pinned (.sc 0) (.ct 0) ∧
    exec (.seed c y) s = pinned (.ct 0) (.sc 0) ∧
    (∀ i ∈ [Instr.mma c u, .mmaq c u, .aclr c u, .adrn c u, .scopy c u, .strn c u, .slay c u, .speer c u, .sstop c u],
      exec i s = pinned (.ct 0) (.ct 0)) ∧
    ∀ i ∈ [Instr.sgath c u, .sscat c u], exec i s = pinned (.ct 0) (.sc 0)

/-- R115: mov and sync copy port A to both targets; steer and gate send it where the b1 at port B says, and a null where it does not
go if NUL = 1; null sends nulls; const sends its constant; ordj sends 1; mov4 sends also to the four targets of its route word. -/
def Obligations.TokenMoves : Prop :=
  ∀ c f b m s, Ready c b m s →
    let t := s.taken
    let a : Token := ⟨valA m, false, false⟩
    let na : Token := nullOn (valA m)
    let yes := (laneBits false 1 0 m.b) = 1#1
    let nul := f.aux7.getLsbD 0 = true
    let send (u : State) (tg : Target) (k : Token) : State := sendTo u b m tg k
    exec (.mov c f) s = .next (deliver c (valA m) b m t) ∧
    exec (.sync c f) s = .next (deliver c (valA m) b m t) ∧
    exec (.null c f) s = .next (sendNulls c (if c.w then .vec 0 else .sc 0) (if c.w then .vec 0 else .sc 0) b m t) ∧
    exec (.ordj c f) s = .next (deliver c (.ct 1) b m t) ∧
    (yes → exec (.steer c f) s = .next (if nul then send (send t c.t0 a) c.t1 na else send t c.t0 a)) ∧
    (¬ yes → exec (.steer c f) s = .next (if nul then send (send t c.t1 a) c.t0 na else send t c.t1 a)) ∧
    (yes → exec (.gate c f) s = .next (send (send t c.t0 a) c.t1 a)) ∧
    (¬ yes → exec (.gate c f) s = .next (if nul then send (send t c.t0 na) c.t1 na else t)) ∧
    (let x := immValue c.ty f.imm16 <<< (16 * (f.aux7.extractLsb' 0 2).toNat)
      ∃ v, Holds c (fun _ => x.setWidth (c.ty.width c.w)) v ∧
        (c.w = true ∨ c.ty = .b1 → exec (.const c f) s = .next (deliver c v b m t)) ∧
        (c.w = false → c.ty ≠ .b1 → exec (.const c f) s = .next (deliver c (.sc x) b m t))) ∧
    ∀ r, AMap.get? (s.elem b m.el).routes (f.aux7.extractLsb' 0 3).toNat = some r → r.poison = false →
      exec (.mov4 c f) s = .next (send (send (send (send (send (send t c.t0 a) c.t1 a) (r.word.extractLsb' 0 11) a)
        (r.word.extractLsb' 11 11) a) (r.word.extractLsb' 22 11) a) (r.word.extractLsb' 33 11) a)

/-! ## Tags -/

/-- R12, R13, R38, R117: writing field i of a tag that its layout fits changes field i, to the value modulo its width, and no other
field, nor DEPTH nor CTX. incf, pushf, popf, setf and getf deliver a field or a tag made from the instance's own tag; one that would
not fit its field raises TAG_OVERFLOW, code 0x02, with field, width and value, and nothing is sent. -/
def Obligations.TagValues : Prop :=
  (∀ (ws : List Nat) (t : Word) (i v : Nat), ws.foldl (· + ·) 0 ≤ 58 → ws.length ≤ 7 → i < ws.length →
     tagField ws (tagPut ws t i v) i = v % 2 ^ ws.getD i 0 ∧
     (∀ j < ws.length, j ≠ i → tagField ws (tagPut ws t i v) j = tagField ws t j) ∧
     (tagPut ws t i v).extractLsb' 58 6 = t.extractLsb' 58 6) ∧
  ∀ c f b m s, Ready c b m s →
    let t := s.taken
    let tag := ownTag s b m
    let ws := ownWidths s b m
    let i := f.tagField
    let w := ws.getD i 0
    let x := tagField ws tag i
    let wn := (f.aux7.extractLsb' 0 5).toNat + 1
    let v := fieldOperand c f m
    let tooBig (i w v : Nat) : Host.Outcome State Fault Refusal :=
      .next (t.takeFault b m.gate m.ix 0x02 (some m.el) m.slot (word i, word w, word v, 0) (.fire m))
    let gives (x : Word) : Host.Outcome State Fault Refusal := .next (deliver c (.sc x) b m t)
    exec (.getf c f) s = gives (if f.whole then tag else word x) ∧
    exec (.incf c f) s = (if x + 1 = 2 ^ w then tooBig i w x else gives (if f.whole then tagPut ws tag i (x + 1) else word (x + 1))) ∧
    exec (.setf c f) s = (if 2 ^ w ≤ v then tooBig i w v else gives (tagPut ws tag i v)) ∧
    exec (.pushf c f) s = (if 2 ^ wn ≤ v then tooBig ws.length wn v
      else gives (tagDepth (tagPut (ws ++ [wn]) tag ws.length v) (ws.length + 1))) ∧
    exec (.popf c f) s = gives (tagDepth (tagPut ws tag (ws.length - 1) 0) (ws.length - 1))

/-! ## Accumulation -/

/-- R118 to R122: a count or fold set that may not fire waits with its frame row, whatever its operands. A count that may delivers the
count and whether it is the last; a fold the reduction of the indices so far. Either holds its update of the record for commit; an index
already applied or beyond n changes nothing. -/
def Obligations.AccumulationFires : Prop :=
  (∀ c f b m s, Ready c b m s →
     let t := s.taken
     let q := takeRec (fieldOperand c f m) b m t
     let n := q.1.cnt + 1
     s.recReady b m = true → exec (.count c f) s =
       .next (deliver2 c (.sc (word (n % 2 ^ 32))) (.ct (BitVec.ofBool (n == q.1.n))) b m
         (q.2.modInst b m.gate m.ix fun i => { i with updates := i.updates ++ [⟨{ q.1 with cnt := n }, n == q.1.n⟩] }))) ∧
  (∀ c f b m s, s.fire = some (b, m) → s.recReady b m = false → ∀ i ∈ [Instr.count c f, .fold c f], exec i s =
     .next (s.taken.modElem b m.el fun e => { e with wait := e.wait ++ [m] })) ∧
  ∀ c f b m s, Ready c b m s → s.recReady b m = true →
    let t := s.taken
    let r := foldRed c f (nbvOf t b m.ctx)
    let comb (x y : Word) : Word := word (r.combine x.toNat y.toNat)
    let j := recIndex (ownWidths t b m) (ownTag t b m)
    let q := takeRec (if f.im then f.imm16.toNat else (laneBits false 32 0 m.b).toNat) b m t
    let out (x : Partial) : Val := .sc (extendRes c.ty r.w ((x.map (·.toNat)).getD r.identity))
    let leaf : Partial :=
      if f.msk = true ∧ laneBits false 1 0 m.c ≠ 1#1 then none else some (word (r.widen (laneBits false r.sw 0 m.a).toNat))
    let ls := foldPush r.nbv comb q.1.levels (j - q.1.cnt) leaf
    exec (.fold c f) s =
      if j < q.1.cnt ∨ q.1.n ≤ j then .next (deliver2 c (out (prefixOf comb q.1.levels)) (.ct 0) b m q.2)
      else .next (deliver2 c (out (prefixOf comb ls)) (.ct (BitVec.ofBool (j + 1 == q.1.n))) b m
        (q.2.modInst b m.gate m.ix fun i =>
          { i with updates := i.updates ++ [⟨{ q.1 with cnt := j + 1, levels := ls }, j + 1 == q.1.n⟩] }))

/-! ## Exits, calls, returns, keep registers -/

/-- R31, R83, R123 to R128: an exit forms its tag; a second exit of an instance raises HITCH_MULTIEXIT, before its tag is checked, and a
tag that does not fit TAG_OVERFLOW; else the instance holds the tokens for the entries from ENTRY on until commit, and notes the exit it
took. A call holds its tokens and is no exit. A discard marks the instance. A ret with END = 1 in its link value ends the strand; with END
= 0 its link must name an entry of this region, of the width of port A, in a hitch whose layout is the caller's, else it raises
ILLEGAL_SLOT with cause 6; a link that does is the exit of the instance, with port A's value for that entry. That a link to another layout
or width raises cause 6, and that a second exit comes before the tag check, is the model's reading (log 77). -/
def Obligations.ExitsAndReturns : Prop :=
  (∀ c f b m s i h, Ready c b m s → s.inst? b m.gate m.ix = some i →
     s.hitchAt b m.ctx f.pos.toNat f.gate.toNat f.hnum.toNat = some h →
     let t := s.taken
     let ws := ownWidths s b m
     let tokens (call : Bool) (tag : Word) (u : State) : State :=
       u.modInst b m.gate m.ix fun i =>
         { i with held := sortBy Held.order (i.held ++ exitTokens call f h tag (s.slot b m.el m.slot).se m) }
     let tooBig (d : Word × Word × Word × Word) : Host.Outcome State Fault Refusal :=
       .next (t.takeFault b m.gate m.ix 0x02 (some m.el) m.slot d (.fire m))
     (i.exit = none → exec (.exit c f) s =
       match newTag ws i.tag f.top f.field.toNat (valWord (valA m)) with
       | .error d => tooBig d
       | .ok tag => .next (tokens false tag (t.modInst b m.gate m.ix fun i =>
           { i with exit := some f.exn.toNat, endStrand := false,
                    popTo := if f.top = .pop ∨ f.top = .popinc then some (ws.length - 1) else none }))) ∧
     (∀ e, i.exit = some e → exec (.exit c f) s =
       .next (t.takeFault b m.gate m.ix 0x05 (some m.el) m.slot (word e, word f.exn.toNat, 0, 0) .multi)) ∧
     exec (.call c f) s =
       (match newTag ws i.tag f.top f.field.toNat (valWord (valA m)) with
       | .error d => tooBig d
       | .ok tag => .next (tokens true tag t)) ∧
     exec (.discard c f) s = .next (t.modInst b m.gate m.ix fun i => { i with discard := true })) ∧
  ∀ c f b m s i tag, Ready c b m s → s.inst? b m.gate m.ix = some i → i.exit = none →
    newTag (ownWidths s b m) i.tag f.top f.field.toNat (valWord (valA m)) = .ok tag →
    let t := s.taken
    let link := ((m.c.map fun k => valWord k.val).getD 0) &&& 0xFFFFFFFF#64
    let exits (e : Bool) (hs : List Held) : State :=
      (t.modInst b m.gate m.ix fun i =>
        { i with exit := some f.exn.toNat, endStrand := e,
                 popTo := if f.top = .pop ∨ f.top = .popinc then some ((ownWidths s b m).length - 1) else none }).modInst
        b m.gate m.ix fun i => { i with held := sortBy Held.order (i.held ++ hs) }
    (link.getLsbD 31 = true → exec (.ret c f) s = .next (exits true [])) ∧
    (link.getLsbD 31 = false → linkOk s b m link = none → exec (.ret c f) s =
      .next (t.takeFault b m.gate m.ix 0x01 (some m.el) m.slot ((s.slot b m.el m.slot).word, 6, link, 0) (.fire m))) ∧
    ∀ h, link.getLsbD 31 = false → linkOk s b m link = some h → exec (.ret c f) s =
      .next (exits false [⟨false, (s.slot b m.el m.slot).se, m.slot, (link.extractLsb' 11 7).toNat, (link.extractLsb' 8 3).toNat,
        (link.extractLsb' 3 5).toNat, (link.extractLsb' 0 3).toNat, tag,
        ⟨onNet (h.entNet (link.extractLsb' 0 3).toNat) (valA m), false, false⟩⟩])

/-- R22, R24, R129: kget and kput act on the row of the instance's strand on its home bay and raise KEEP_CONFLICT, code 0x06, elsewhere.
In SEQ mode a kget waits until no lower instance of its strand is live, and then delivers the register; in the other modes it delivers
what was committed when the instance was admitted; poisoned either way if the register's mark is set (R380). A kput adds a keep entry to
the wave buffer and completes the register in the keep-write mask; the register itself does not change before commit. -/
def Obligations.KeepRegisters : Prop :=
  ∀ c f b m s, Ready c b m s →
    let t := s.taken
    let r := (f.gate.toNat % 2) * 32 + f.hnum.toNat
    let mode := ((s.inst? b m.gate m.ix).bind fun i => s.hitch? b m.gate i.ctx i.hnum).map (·.mode)
    (∀ d, keepRow s b m r = .error d → ∀ i ∈ [Instr.kget c f, .kput c f], exec i s =
      .next (t.takeFault b m.gate m.ix 0x06 (some m.el) m.slot d (.fire m))) ∧
    ∀ row, keepRow s b m r = .ok row →
      let k : Token := ⟨.sc ((s.bay b).keepReg row r), false, (s.bay b).keepPoi.contains (64 * row + r)⟩
      (mode = some 0 → s.keepReady b m.gate m.ix r = true →
        exec (.kget c f) s = .next (sendTo (sendTo t b m c.t0 k) b m c.t1 k)) ∧
      (mode = some 0 → s.keepReady b m.gate m.ix r = false →
        exec (.kget c f) s = .next (t.modElem b m.el fun e => { e with wait := e.wait ++ [m] })) ∧
      (∀ i, mode ≠ some 0 → s.inst? b m.gate m.ix = some i →
        let k : Token := ⟨.sc (AMap.getD i.keepSnap r 0), false, i.keepPoi.contains r⟩
        exec (.kget c f) s = .next (sendTo (sendTo t b m c.t0 k) b m c.t1 k)) ∧
      ∃ e : WaveEnt, e.kind = .keep ∧ e.gate = m.gate ∧ e.ix = m.ix ∧ e.lsid = r ∧ e.nul = false ∧
        e.data = leBytes 8 (valWord (valA m)).toNat ∧
        exec (.kput c f) s = .next ((t.modBay b fun y => { y with wave := y.wave ++ [e] }).modInst b m.gate m.ix fun i =>
          { i with keeps := insertNat r i.keeps })

/-! ## The memory family -/

/-- R81, R179, R184, R212: a memory slot whose scope the policy admits (or clamps), whose site is not poisoned and whose access passes its
check (at a ZSKIP site a load passes, and a store passes when no pair of its lanes in the window meets a guard) takes its place in wave
order, with the effective address port A plus the signed offset in units of the access size, modulo 2^64. -/
def Obligations.MemoryFires : Prop :=
  ∀ c f b m s scope u, Ready c b m s →
    let k := siteOf u b m.ctx f
    let ea (off : Int) (size : Nat) : Nat := (valWord (valA m) + BitVec.ofInt 64 (off * size)).toNat
    let any := u = s.taken ∧ scope = Machine.Scope.code f.scope
    let policy := scopeOf s.taken b m (Machine.Scope.code f.scope) = .ok (scope, u)
    let plain (o : MemOrd) (p : Prop) : Prop := if o = .plain then any else p
    let sound := ∃ x, u.site? b k = some x ∧ x.poison = false
    let checked (a n : Nat) (v st : Bool) : Prop := ∃ x cx, u.site? b k = some x ∧ x.poison = false ∧ u.ctx? b m.ctx = some cx ∧
      (if x.isZskip = true then st = true → zskipGuard (u.bay b) m.ctx k x (valVec (m.b.getD noTok).val) = none
       else accessCheck (u.bay b) cx m.ctx k x a n v st = none)
    let n := if c.w then 128 else c.ty.size
    let n1 := c.ty.size
    let a := ea f.lo8.toInt n
    let a1 := ea f.lo8.toInt n1
    let a5 := ea (f.lo8.extractLsb' 0 5).toInt n1
    let acq := f.ord == .acq || f.ord == .ar
    let rel := f.ord == .rel || f.ord == .ar
    (plain f.ord policy → checked a n c.w false →
      exec (.ld c f) s = .next (waveFire c f m b .load 0x88 a scope u) ∧
      exec (.ldv c f) s = .next (waveFire c f m b .load 0x8A a scope u) ∧
      exec (.ldo c f) s = .next (waveFire c f m b .ldo 0x8E a scope u)) ∧
    (plain f.ord policy → checked a n c.w true →
      exec (.st c f) s = .next (waveFire c f m b (.store false) 0x89 a scope u) ∧
      exec (.stv c f) s = .next (waveFire c f m b (.store false) 0x8B a scope u) ∧
      exec (.sto c f) s = .next (waveFire c f m b (.store true) 0x8F a scope u)) ∧
    (policy → checked a5 n1 false false →
      exec (.aadd c f) s = .next (waveFire c f m b .atomic 0x96 a5 scope u) ∧
      exec (.amin c f) s = .next (waveFire c f m b .atomic 0x97 a5 scope u) ∧
      exec (.amax c f) s = .next (waveFire c f m b .atomic 0x98 a5 scope u) ∧
      exec (.aand c f) s = .next (waveFire c f m b .atomic 0x99 a5 scope u) ∧
      exec (.aor c f) s = .next (waveFire c f m b .atomic 0x9A a5 scope u) ∧
      exec (.axor c f) s = .next (waveFire c f m b .atomic 0x9B a5 scope u) ∧
      exec (.axch c f) s = .next (waveFire c f m b .atomic 0x9C a5 scope u) ∧
      exec (.acas c f) s = .next (waveFire c f m b .atomic 0x9D a5 scope u) ∧
      exec (.ainc c f) s = .next (waveFire c f m b .atomic 0x9E a5 scope u) ∧
      exec (.adec c f) s = .next (waveFire c f m b .atomic 0x9F a5 scope u) ∧
      exec (.faadd c f) s = .next (waveFire c f m b .atomic 0xA0 a5 scope u)) ∧
    (plain f.ord policy →
      exec (.ldg c f) s = .next (waveFire c f m b .ldg 0x8C a1 scope u) ∧
      exec (.stg c f) s = .next (waveFire c f m b .stg 0x8D a1 scope u)) ∧
    (policy → exec (.fence c f) s = .next (waveFire c f m b (.fence acq rel) 0x94 (valWord (valA m)).toNat scope u)) ∧
    (policy → sound →
      exec (.sflush c f) s = .next (waveFire c f m b .sflush 0x90 (valWord (valA m)).toNat scope u) ∧
      exec (.srel c f) s = .next (waveFire c f m b
        (if ((s.site? b (siteOf s b m.ctx f)).any (·.isStore)) = true then .srelStore else .srel) 0x92 (valWord (valA m)).toNat scope u)) ∧
    (any → sound → exec (.sinv c f) s = .next (waveFire c f m b .sinv 0x91 (valWord (valA m)).toNat scope u))

/-- R179, R212, R355: a memory slot that the scope policy forbids raises SCOPE_FAULT, 0x19; one that names a poisoned site entry
ECC_POISON, 0x20, LOC 3 and the site's node; one whose access fails its check the fault of the first failure, a ZSKIP store that meets a
guard SITE_ALIAS, 0x13. The slot keeps its set and nothing is sent. That SCOPE_FAULT comes first, whatever the checks of R179 would find,
is the model's reading (log 77). -/
def Obligations.MemorySlotFaults : Prop :=
  ∀ c f b m s, Ready c b m s →
    let t := s.taken
    let k := siteOf t b m.ctx f
    let faultsOn (u : State) (i : Instr) (code : Nat) (d : Word × Word × Word × Word) : Prop :=
      exec i s = .next (u.takeFault b m.gate m.ix code (some m.el) m.slot d (.fire m))
    let faults (i : Instr) (code : Nat) (d : Word × Word × Word × Word) : Prop := faultsOn t i code d
    let policy (u : State) : Prop := ∃ scope, scopeOf t b m (Machine.Scope.code f.scope) = .ok (scope, u)
    let admits (u : State) : Prop := if f.ord = .plain then u = t else policy u
    let named (u : State) (x : Site) : Prop := u.site? b (siteOf u b m.ctx f) = some x
    let n := if c.w then 128 else c.ty.size
    let a := (valWord (valA m) + BitVec.ofInt 64 (f.lo8.toInt * n)).toNat
    let a5 := (valWord (valA m) + BitVec.ofInt 64 ((f.lo8.extractLsb' 0 5).toInt * c.ty.size)).toNat
    let atomics := [Instr.aadd c f, .amin c f, .amax c f, .aand c f, .aor c f, .axor c f, .axch c f, .acas c f, .ainc c f, .adec c f,
      .faadd c f]
    (∀ d, scopeOf t b m (Machine.Scope.code f.scope) = .error d → f.ord ≠ .plain →
      ∀ i ∈ [Instr.ld c f, .st c f, .ldv c f, .stv c f, .ldo c f, .sto c f, .ldg c f, .stg c f], faults i 0x19 d) ∧
    (∀ d, scopeOf t b m (Machine.Scope.code f.scope) = .error d →
      ∀ i ∈ [Instr.sflush c f, .srel c f, .fence c f] ++ atomics, faults i 0x19 d) ∧
    (∀ x, t.site? b k = some x → x.poison = true → faults (.sinv c f) 0x20 (locWord 3 x.node, 0, 0, 0)) ∧
    (∀ u x, admits u → named u x → x.poison = true →
      ∀ i ∈ [Instr.ld c f, .st c f, .ldv c f, .stv c f, .ldo c f, .sto c f], faultsOn u i 0x20 (locWord 3 x.node, 0, 0, 0)) ∧
    (∀ u x, policy u → named u x → x.poison = true →
      ∀ i ∈ [Instr.sflush c f, .srel c f] ++ atomics, faultsOn u i 0x20 (locWord 3 x.node, 0, 0, 0)) ∧
    (∀ u x cx code d, named u x → x.poison = false → x.isZskip = false → u.ctx? b m.ctx = some cx →
      let check (a n : Nat) (v st : Bool) : Prop := accessCheck (u.bay b) cx m.ctx (siteOf u b m.ctx f) x a n v st = some (code, d)
      (admits u → check a n c.w false → ∀ i ∈ [Instr.ld c f, .ldv c f, .ldo c f], faultsOn u i code d) ∧
      (admits u → check a n c.w true → ∀ i ∈ [Instr.st c f, .stv c f, .sto c f], faultsOn u i code d) ∧
      (policy u → check a5 c.ty.size false false → ∀ i ∈ atomics, faultsOn u i code d)) ∧
    ∀ u x cx e, admits u → named u x → x.poison = false → x.isZskip = true → u.ctx? b m.ctx = some cx →
      zskipGuard (u.bay b) m.ctx (siteOf u b m.ctx f) x (valVec (m.b.getD noTok).val) = some e →
        ∀ i ∈ [Instr.st c f, .stv c f, .sto c f], faultsOn u i 0x13 (word e.1, word (siteNo cx (siteOf u b m.ctx f)), 4, word (siteNo cx e.2.site))

/-- R191, R193: sdepth delivers the depth of its site; xlat asks the translation node for its address, of the form NW names, and takes
no place in the wave. -/
def Obligations.SiteQueries : Prop :=
  ∀ c f b m s, Ready c b m s →
    (∀ x, s.site? b (siteOf s b m.ctx f) = some x → exec (.sdepth c f) s = .next (deliver c (.sc (word x.dep)) b m s.taken)) ∧
    exec (.xlat c f) s = .next (s.taken.modBay b fun y =>
      { y with
        xreqs := y.xreqs ++ [⟨y.xnext, m.ctx, (valWord (valA m)).toNat, f.lo8.getLsbD 0, .xlat m.el m.slot m.gate m.ix c, false, false⟩]
        xnext := y.xnext + 1 })

/-! ## Islands, work, system -/

/-- R33, R202, R234 to R236: an island command pins its instance and goes to the network of its port with its operands and its
instance's tag; in a SEQ hitch it waits with its frame row while a lower instance of its strand is live. -/
def Obligations.IslandCommands : Prop :=
  ∀ c f b m s, Ready c b m s →
    let t := s.taken
    let isl : Nat := match f.isl with | .mx => 0 | .sn => 1 | .ss => 2
    let sc (k : Option Token) : Word := (k.map fun t => valWord t.val).getD 0
    let held := ∃ i h, s.inst? b m.gate m.ix = some i ∧ s.hitch? b m.gate i.ctx i.hnum = some h ∧ h.seq = true ∧
      s.lowerDone b m.gate m.ix = false
    let all : List (Instr × Nat) := [(.mma c f, 0xB0), (.mmaq c f, 0xB1), (.aclr c f, 0xB2), (.adrn c f, 0xB3), (.scopy c f, 0xB4),
      (.sgath c f, 0xB5), (.sscat c f, 0xB6), (.strn c f, 0xB7), (.slay c f, 0xB8), (.speer c f, 0xB9), (.sstop c f, 0xBA)]
    (held → ∀ e ∈ all, exec e.1 s = .next (t.modElem b m.el fun e => { e with wait := e.wait ++ [m] })) ∧
    (¬ held → ∀ e ∈ all, exec e.1 s = .next
      ((t.modInst b m.gate m.ix fun i => { i with pinned := true }).modPort b isl f.iport.toNat fun q =>
        { q with net := q.net ++ [
          { op := e.2, c := c, f := f, el := m.el, slot := m.slot, ctx := m.ctx, gate := m.gate, ix := m.ix
            tag := ownTag s b m
            a := sc m.a, b := sc m.b, cc := sc m.c, stop := false }] }))

/-- R33, R265 to R268, R274: rngset sets the context's range on its bay, an end below the start as an empty one; rngnext delivers the
start and the size of the next chunk and takes it from the range; rngsteal on a range that is not empty, or with CHUNK 0, or with no
neighbour, delivers 0 at once, else its set waits for the GRANT of the STEAL it sends. A victim gives away the upper half of a range of
two or more and keeps the lower; of fewer, or of none, it gives nothing; a GRANT is the thief's range, and the oldest rngsteal waiting
for this victim delivers how much it got, as n32, and done. A probe is answered with the register's value, which goes to the probe
that asked. In a SEQ hitch a set of rngset, rngnext or rngsteal waits with its frame row while a lower instance of its strand is live.
Every case of each form ends in a next state. Of several rngsteals of a context that wait for one victim the model answers the oldest. -/
def Obligations.RangeUnit : Prop :=
  (∀ c f b m s x, Ready c b m s → heldBack s.taken b m = false → s.ctx? b m.ctx = some x →
     let t := s.taken.modInst b m.gate m.ix fun i => { i with pinned := true }
     let lo := valWord (valA m)
     let hi := (m.b.map fun k => valWord k.val).getD 0
     let left := x.rngHi.toNat - x.rngCur.toNat
     let n := min x.rngChunk left
     let mate := (neighbour x (f.imm15.toNat % 4)).bind x.bayAt
     exec (.rngset c f) s = .next (deliver c (.ct 1) b m (t.modCtx b m.ctx fun y =>
       { y with rngCur := lo, rngHi := if hi.toNat < lo.toNat then lo else hi, rngChunk := f.imm15.toNat })) ∧
     exec (.rngnext c f) s =
       .next (deliver2 c (.sc x.rngCur) (.sc (word n)) b m (t.modCtx b m.ctx fun y => { y with rngCur := y.rngCur + word n })) ∧
     ((0 < left ∨ x.rngChunk = 0 ∨ mate = none) →
       exec (.rngsteal c f) s = .next (deliver2 c (.sc 0) (.ct 1) b m t)) ∧
     ∀ d, left = 0 → x.rngChunk ≠ 0 → mate = some d →
       exec (.rngsteal c f) s = .next ((t.modBay b fun y => { y with steals := y.steals ++ [(m, c, d)] }).emit
         (workPacket 0 d b m.ctx 0 0 0))) ∧
  (∀ c f b m s, Ready c b m s → heldBack s.taken b m = true → ∀ i ∈ [Instr.rngset c f, .rngnext c f, .rngsteal c f],
     exec i s = .next (s.taken.modElem b m.el fun e => { e with wait := e.wait ++ [m] })) ∧
  (∀ b p s c, s.ctx? b p.ctx = some c →
    let n := c.rngHi.toNat - c.rngCur.toNat
    let m := c.rngCur + word ((n + 1) / 2)
    (n < 2 → exec (.steal b p) s = .next (s.emit (workPacket 1 p.src b p.ctx 0 0 0))) ∧
    (2 ≤ n → exec (.steal b p) s =
      .next ((s.modCtx b p.ctx fun c => { c with rngHi := m }).emit (workPacket 1 p.src b p.ctx 0 m c.rngHi)) ∧
      m.toNat = c.rngCur.toNat + (n + 1) / 2 ∧ c.rngHi.toNat - m.toNat = n / 2) ∧
    exec (.probeRequest b p) s = .next (s.emit (workPacket 3 p.src b p.ctx (p.body 208 12) (bayReg s b p.ctx c (p.body 208 12)) 0))) ∧
  (∀ b p s,
    let lo := word (p.body 64 64)
    let hi := word (p.body 0 64)
    let t := s.modCtx b p.ctx fun c => { c with rngCur := lo, rngHi := hi }
    ((∀ e ∈ (s.bay b).steals, e.1.ctx = p.ctx → e.2.2 ≠ p.src) → exec (.grant b p) s = .next t) ∧
    ∀ i m c v, placeOf (grantFor p) (s.bay b).steals 0 = some i → (s.bay b).steals[i]? = some (m, c, v) →
      m.ctx = p.ctx ∧ v = p.src ∧
      exec (.grant b p) s = .next (deliver2 c (.sc (word ((hi - lo).toNat % 2 ^ 32))) (.ct 1) b m
        (t.modBay b fun y => { y with steals := dropAt y.steals i }))) ∧
  (∀ b p s, s.ctx? b p.ctx = none →
    exec (.steal b p) s = .next (s.emit (workPacket 1 p.src b p.ctx 0 0 0)) ∧
    exec (.probeRequest b p) s = .next (s.emit (workPacket 3 p.src b p.ctx (p.body 208 12) 0 0))) ∧
  ∀ b p s,
    (placeOf (probeFor s b p) (s.bay b).probes 0 = none → exec (.preply b p) s = .next s) ∧
    ∀ i m c r, placeOf (probeFor s b p) (s.bay b).probes 0 = some i → (s.bay b).probes[i]? = some (m, c, r) →
      exec (.preply b p) s = .next (deliver c (.sc (word (p.body 64 64))) b m
        (s.modBay b fun y => { y with probes := dropAt y.probes i }))

/-- R270 to R273: trap raises TRAP, 0x30, with IMM15 and port A's value and sends nothing; brk with BRKEN clear acts as mov, and with it
set holds its set and begins a precise stop with a BREAK record, 0x31; mark writes a MARK record into an open session's stream and
delivers port A's scalar; halt leaves its request, the first one's code, with its gate. -/
def Obligations.SystemSlots : Prop :=
  ∀ c f b m s, Ready c b m s →
    let t := s.taken
    let a := valWord (valA m)
    exec (.trap c f) s =
      .next (t.takeFault b m.gate m.ix 0x30 (some m.el) m.slot (word f.imm15.toNat, a, 0, 0) (.trap m)) ∧
    exec (.halt c f) s = .next (t.modInst b m.gate m.ix fun i => { i with halt := some (i.halt.getD f.imm15.toNat) }) ∧
    (traceWants t b m.ctx none = false → exec (.mark c f) s = .next (deliver c (.sc a) b m t)) ∧
    (traceWants t b m.ctx none = true → exec (.mark c f) s = .next (deliver c (.sc a) b m
      (putTrace t b m.ctx 6 (traceAtOf t b m) [word f.imm15.toNat, if (s.part (s.partOf b m.ctx)).hidesCap then 0 else a]))) ∧
    ∀ x, s.ctx? b m.ctx = some x →
      ((s.part x.part).brkEn = false → exec (.brk c f) s = .next (deliver c (valA m) b m t)) ∧
      ((s.part x.part).brkEn = true → x.stopRun = false → x.frozen = false → exec (.brk c f) s =
        .next (beginStop (t.modCtx b m.ctx fun x => { x with heldSet := some (m, f.imm15.toNat) }) b m.ctx m.gate m.ix
          { t.recOf b m.ctx 0x31 2 with
            gate := m.gate, hnum := hnumOf s b m, ix := m.ix, elem := some m.el, slot := m.slot, tag := ownTag s b m
            d0 := word f.imm15.toNat, d1 := a }))

/-- R33, R274: srd delivers the register that its number names; swr writes WAITHIST or a USER register and sends its done token, or waits
with its frame row, in a SEQ hitch, while a lower instance of its strand is live; probe asks
the bay of its position, and delivers a null for a position outside the region. -/
def Obligations.SystemRegisters : Prop :=
  ∀ c f b m s x, Ready c b m s → s.ctx? b m.ctx = some x →
    let t := s.taken
    let p := s.part x.part
    let reads (n : Nat) (v : Word) : Prop := f.sreg.toNat = n → exec (.srd c f) s = .next (deliver c (.sc v) b m t)
    (∀ h, s.hitch? b m.gate m.ctx (hnumOf s b m) = some h →
      reads 0x000 (word m.ctx) ∧ reads 0x001 (word x.part) ∧ reads 0x002 (word x.nbv) ∧ reads 0x003 (word x.scopePol) ∧
      reads 0x004 (word x.bayWin) ∧ reads 0x005 (word x.position) ∧ reads 0x006 (word (x.rows * 256 + x.cols)) ∧
      reads 0x007 (word (x.strBase * 256 + x.strCnt)) ∧ reads 0x010 (word h.lim) ∧
      reads 0x011 (word (h.dmax - ((s.gate b m.gate).insts.filter fun e =>
        e.2.ctx == m.ctx && e.2.hnum == hnumOf s b m).length)) ∧
      reads 0x020 (word x.fires) ∧ reads 0x021 (word ((s.bay b).clk - x.since)) ∧ reads 0x022 x.waitHist ∧
      reads 0x030 x.rngCur ∧ reads 0x031 x.rngHi ∧ reads 0x032 (word x.rngChunk) ∧
      reads 0x040 ((s.bay b).mon.temp.signExtend 64) ∧ reads 0x041 ((s.bay b).mon.droopCnt.zeroExtend 64) ∧
      reads 0x050 (word p.brkEn.toNat) ∧ reads 0x051 (word ((p.tbuf m.ctx).isOpen.toNat + 2 * (!p.hidesCap).toNat)) ∧
      ∀ n < 8, reads (0x060 + n) (AMap.getD x.user n 0)) ∧
    (heldBack t b m = true →
      exec (.swr c f) s = .next (t.modElem b m.el fun e => { e with wait := e.wait ++ [m] })) ∧
    (heldBack t b m = false →
      let u := t.modInst b m.gate m.ix fun i => { i with pinned := true }
      let v := if c.ty = .v then word f.imm15.toNat else valWord (valA m)
      (f.sreg.toNat = 0x022 →
        exec (.swr c f) s = .next (deliver c (.ct 1) b m (u.modCtx b m.ctx fun x => { x with waitHist := v }))) ∧
      ∀ n < 8, f.sreg.toNat = 0x060 + n →
        exec (.swr c f) s = .next (deliver c (.ct 1) b m (u.modCtx b m.ctx fun x => { x with user := AMap.set x.user n v }))) ∧
    let pos := (valWord (valA m)).toNat % 2 ^ 32
    (x.bayAt pos = none → exec (.probe c f) s = .next (sendNulls c (.sc 0) (.sc 0) b m t)) ∧
    ∀ d, x.bayAt pos = some d → exec (.probe c f) s =
      .next ((t.modBay b fun y => { y with probes := y.probes ++ [(m, c, f.sreg.toNat)] }).emit
        (workPacket 2 d b m.ctx f.sreg.toNat 0 0))

/-- R33, R202, R269: a seed slot waits with its frame row, in a SEQ hitch, while a lower instance of its strand is live; it completes the
release actions first and waits while they cannot; then it delivers
1 at T0 and a status at T1: 1 for a launch that takes no seeds, 3 for a port that is not there, 2 for a tag or a width that does not
fit, 4 when no held-seed entry is free, else 0, and the seed is taken. -/
def Obligations.SeedSlots : Prop :=
  (∀ c f b m s, Ready c b m s → heldBack s.taken b m = true →
    exec (.seed c f) s = .next (s.taken.modElem b m.el fun e => { e with wait := e.wait ++ [m] })) ∧
  ∀ c f b m s u ok, Ready c b m s → heldBack s.taken b m = false →
    releaseActions (s.taken.modInst b m.gate m.ix fun i => { i with pinned := true }) b m.ctx 3 = (ok, u) →
    let n := u.partOf b m.ctx
    let port := f.sreg.toNat
    let tag := (m.b.map fun k => valWord k.val).getD 0
    let sel := ((m.c.map fun k => valWord k.val).getD 0).toNat % 2 ^ 32
    let answers (st : Nat) (v : State) : Prop := exec (.seed c f) s = .next (deliver2 c (.ct 1) (.sc (word st)) b m v)
    (ok = false → exec (.seed c f) s = .next (u.modElem b m.el fun e => { e with wait := e.wait ++ [m] })) ∧
    (ok = true →
      ((∀ l, seedTarget u b m sel = some l → l.takesSeeds = false) → answers 1 u) ∧
      ∀ l, seedTarget u b m sel = some l → l.takesSeeds = true →
        (((u.part n).loadedOf l).bind (·.seedPort port) = none → answers 3 u) ∧
        ∀ e h, ((u.part n).loadedOf l).bind (·.seedPort port) = some (e, h) →
          (seedFits e h tag c.w = false → answers 2 u) ∧
          (seedFits e h tag c.w = true → l.seedsOpen = false → Config.heldSeeds ≤ (u.part n).seeds.length → answers 4 u) ∧
          (seedFits e h tag c.w = true → (l.seedsOpen = true ∨ (u.part n).seeds.length < Config.heldSeeds) →
            answers 0 (takeSeed u n l none port tag ⟨valA m, false, false⟩)))

/-! ## Taking a fault, and the return from it -/

/-- R20, R34, R140, R348 to R352: a poisoned operand freezes the instance with ECC_POISON, 0x20, whatever the slot would do.
Taking a fault creates a record that takes the next DSEQ, notes it outstanding, and makes the instance FROZEN with the state it
had and what it will do again; a frozen instance raises nothing; the return from it restores the state before the freeze. That the
poison of an operand is located at the element, LOC 6, is the model's reading (log 9). -/
def Obligations.FaultsTaken : Prop :=
  (∀ i b m s, Field.fire ∈ touches i → s.fire = some (b, m) → (∃ k ∈ m.toks, k.poi = true) →
    exec i s = .next (s.taken.takeFault b m.gate m.ix 0x20 (some m.el) m.slot (locWord 6 m.el, 0, 0, 0) (.fire m))) ∧
  (∀ (s : State) b g ix code el slot d again i, s.inst? b g ix = some i → i.st = .frozen →
    s.takeFault b g ix code el slot d again = s) ∧
  ∀ (s : State) b g ix code el slot d again i, s.inst? b g ix = some i → i.st ≠ .frozen →
    let n := s.partOf b i.ctx
    let p := s.part n
    let r := { s.recOf b i.ctx code 1 with
      gate := g, hnum := i.hnum, ix := ix, elem := el, slot := slot, tag := i.tag, d0 := d.1, d1 := d.2.1, d2 := d.2.2.1
      d3 := d.2.2.2 }
    let t := s.takeFault b g ix code el slot d again
    t.inst? b g ix = some { i with st := .frozen, prev := i.st, fault := some p.dnext, again := again } ∧
    (t.part n).records = p.records ++ [⟨p.dnext, .fault (hideValues p r)⟩] ∧
    (t.part n).faults = p.faults ++ [⟨p.dnext, r, .inst b g ix, false⟩] ∧
    (t.part n).dnext = (p.dnext + 1) % 2 ^ 32 ∧ t.mem = s.mem ∧
    (t.unfreeze b g ix).inst? b g ix = some { i with prev := i.st, fault := none, again := .none }

/-! ## Gates and elements -/

/-- R17, R28, R78, R398, R399: an operand goes into its frame row, or completes its set, which joins the issue queue with the
earliest of its times; with the queue full it stays in the network; at an empty slot the region freezes. An entry token goes on to
the span of the live instance of its tag, once for each entry, or waits in the gate's entry buffer. A spill adds the counters to the
words of the block, each by an add of its own, and clears them; one whose translation must wait asks the translation node, or parks in it;
one that does not translate leaves the counters, at most 0xFFFF. -/
def Obligations.TokensArrive : Prop :=
  (∀ m s,
    let y := s.elem m.bay m.el
    let c := s.slot m.bay m.el m.slot
    let ports := slotPorts s m.bay m.ctx c
    let now := (s.bay m.bay).clk
    (Config.issueSets ≤ issueLoad s m.bay m.el → exec (.tokenArrive m) s = .next { s with flight := .tokenArrive m :: s.flight }) ∧
    (issueLoad s m.bay m.el < Config.issueSets →
      (c.word = 0 → exec (.tokenArrive m) s = .next (s.takeRegionFault m.bay m.ctx { s.recOf m.bay m.ctx 0x01 2 with
        elem := some m.el, slot := m.slot, d0 := 0, d1 := 3, d2 := word (m.ctx * 256 + m.ix) })) ∧
      (c.word ≠ 0 → (s.bay m.bay).cmps = [] →
        (ports.length ≤ 1 → exec (.tokenArrive m) s = .next (s.modElem m.bay m.el fun e =>
          { e with issue := e.issue ++ [setOf m now [(m.port, m.tok)]] })) ∧
        ∀ r, 1 < ports.length → y.rows.find? (fun r => r.gate == m.gate && r.ix == m.ix) = some r →
          let mine := r.ents.filter fun w => w.slot == m.slot && w.port != m.port
          ((∀ p ∈ ports, p = m.port ∨ ∃ w ∈ mine, w.port = p) →
            let since := (mine.map (·.since)).foldl min now
            let x := setOf m since ((m.port, m.tok) :: mine.map fun w => (w.port, w.tok))
            let w := (mine.map (·.since)).foldl max now - since
            let k := if w = 0 then 0 else min 7 (w.log2 / 2)
            ∃ t, exec (.tokenArrive m) s = .next t ∧
              (t.elem m.bay m.el).issue = y.issue ++ [x] ∧
              (∀ q ∈ (t.elem m.bay m.el).rows, q.gate = m.gate → q.ix = m.ix → ∀ w ∈ q.ents, w.slot ≠ m.slot) ∧
              (t.slot m.bay m.el m.slot).hist.getD k 0 = c.hist.getD k 0 + 1) ∧
          ((∃ p ∈ ports, p ≠ m.port ∧ ∀ w ∈ mine, w.port ≠ p) →
            exec (.tokenArrive m) s = .next (s.modElem m.bay m.el fun e =>
              { e with rows := e.rows.map fun r =>
                  if r.gate == m.gate && r.ix == m.ix then { r with ents := r.ents ++ [⟨m.slot, m.port, m.tok, now⟩], st := .partly }
                  else r }))))) ∧
  (∀ m s x, m.chan = none → s.ctx? m.bay m.ctx = some x → x.halted = false →
    (liveWith (s.gate m.bay m.gate) m.ctx m.hnum m.tag = none → entryRoom (s.bay m.bay) m.gate m.ctx = true →
      exec (.gateEntryToken m) s = .next (s.modGate m.bay m.gate fun g => { g with ents := g.ents ++ [m] })) ∧
    (liveWith (s.gate m.bay m.gate) m.ctx m.hnum m.tag = none → entryRoom (s.bay m.bay) m.gate m.ctx = false →
      exec (.gateEntryToken m) s = .next { s with flight := .gateEntryToken m :: s.flight }) ∧
    ∀ ix i h, liveWith (s.gate m.bay m.gate) m.ctx m.hnum m.tag = some ix → s.inst? m.bay m.gate ix = some i →
      s.hitch? m.bay m.gate i.ctx i.hnum = some h → i.discard = false →
      (m.entry ∈ i.arrived → exec (.gateEntryToken m) s =
        .next (s.takeFault m.bay m.gate ix 0x05 none 0 (word (i.exit.getD 0), 0xFF, 0, 0) .multi)) ∧
      (m.entry ∉ i.arrived → valNet m.tok.val = h.entNet m.entry → debugOn s m.bay i.ctx = false →
        exec (.gateEntryToken m) s = .next
          ((s.modInst m.bay m.gate ix fun i => { i with arrived := insertNat m.entry i.arrived }).sendTarget m.bay m.gate ix
            i.hnum i.ctx (128 + m.gate) (h.entTarget m.entry) m.tok))) ∧
  (∀ b ctx el slot s x, s.ctx? b ctx = some x → x.waitHist ≠ 0 →
    let c := s.slot b el slot
    let va := x.waitHist.toNat + (el * 32 + slot) * 64
    let leaves (u : State) (h : List Nat) : Prop := exec (.waithistSpill b ctx el slot) s =
      .next (u.modElem b el fun e => { e with slots := AMap.upd e.slots slot fun c => { c with hist := h } })
    let asks (parked : Bool) : Prop := exec (.waithistSpill b ctx el slot) s = .next (s.modBay b fun y =>
      { y with xreqs := y.xreqs ++ [⟨y.xnext, ctx, va, true, .spill el slot, parked, false⟩], xnext := y.xnext + 1 })
    (∃ n ∈ c.hist, n ≠ 0) → va % 8 = 0 → (∀ q ∈ (s.bay b).xreqs, q.goal ≠ .spill el slot) →
      match spillAdds b ctx ((List.range 8).map fun i => (va + 8 * i, c.hist.getD i 0)) s with
      | .done t => leaves t []
      | .fail => leaves s (c.hist.map fun n => min n 0xFFFF)
      | .wait parked => asks parked) ∧
  ∀ b ctx va n l s k t, translateVa s b ctx va { needRW with kinds := [0, 2] } = .ok k t →
    spillAdds b ctx ((va, n) :: l) s = spillAdds b ctx l (noteDirty (homeWrite t k.enc k.key
      (leBytes 8 (leNat (homeRead t k.enc k.key 8) + n)) (List.replicate 8 (t.poisoned k.key 8))) ctx k 8)

/-- R26, R29, R31, R32, R34, R37: a gate takes the lowest pending tag into the lowest free index of the hitch's block, with a row in
every element of the span. A settled instance that took an exit and produced all its masks is READY, its rows cleared; one that
lacks something freezes with HITCH_INCOMPLETE, 0x04; one with a discard, not pinned, is freed. A READY instance whose turn has come and
whose writes have been acknowledged applies its entries and is freed. Every 64th reply forms a mean; a live limit moves by at most one
toward the target of each, within DMIN and DMAX. -/
def Obligations.InstanceLives : Prop :=
  (∀ b g ctx hn s h c t ix, canAdmit s b g ctx hn = true → s.hitch? b g ctx hn = some h → h.poison = false →
    lowestPending (s.gate b g) h.ctx hn = some t → s.ctx? b h.ctx = some c → freeIx (s.gate b g) h = some ix →
    ∃ u i, exec (.admitTag b g ctx hn) s = .next u ∧ u.inst? b g ix = some i ∧ i.tag = t ∧ i.hnum = hn ∧ i.ctx = h.ctx ∧
      (u.gate b g).ents = (s.gate b g).ents.filter (fun m => !(m.ctx == h.ctx && m.hnum == hn && m.tag == t)) ∧
      ∀ e ∈ h.span, ⟨g, ix, .empty, []⟩ ∈ (u.elem b e).rows) ∧
  (∀ b g ix s i h, s.inst? b g ix = some i → s.hitch? b g i.ctx i.hnum = some h → i.st = .live →
    let step := exec (.settle b g ix) s
    let t := clearRows s b g ix
    (i.discards = true → settles s b g ix = true → step = .next (discardInst t b g ix)) ∧
    (i.discards = false → s.inflight b g ix = 0 →
      let noStore := h.storeMask.filter fun l => !i.stores.contains l
      let noKeep := h.keepMask.filter fun r => !i.keeps.contains r
      let waits := i.ops.filter fun o => o.st == .waiting
      (waits = [] → i.dropLsid = none → i.exit ≠ none → noStore = [] → noKeep = [] →
        step = .next (t.modInst b g ix fun i => { i with st := .ready })) ∧
      ((noStore ≠ [] ∨ noKeep ≠ [] ∨ i.exit = none) → waits = [] → i.dropLsid = none →
        step = .next ((t.modInst b g ix fun i => { i with ops := i.ops.filter (fun o => o.st != .waiting), dropLsid := none }).takeFault
          b g ix 0x04 none 0 (wordOfBits noStore, wordOfBits noKeep, word i.exit.isSome.toNat, 0xFF) .settle)))) ∧
  (∀ b g ix s i h, s.inst? b g ix = some i → s.hitch? b g i.ctx i.hnum = some h → i.st = .ready →
    (h.seq = true → s.lowerDone b g ix = true) → writesOut (s.bay b) g ix = 0 → i.applied = 0 →
    let es := entriesOf s b g ix
    ∀ u v w, commitCheck s b es = .done u →
      applyAll b g ix es (u.modInst b g ix fun i => { i with applied := 1 }) = .done v →
      writesOut (v.bay b) g ix = 0 → endLives v (endingSites v b g ix) = (true, w) →
      exec (.commit b g ix) s = .next (finishCommit w b g ix)) ∧
  (∀ b g ix (s : State), (freeInst s b g ix).inst? b g ix = none) ∧
  (∀ (h : HitchCfg) d, (h.latCnt < 63 → h.count d = { h with latCnt := h.latCnt + 1, latSum := h.latSum + d }) ∧
    (h.latCnt = 63 → h.count d = { h with latCnt := 0, latSum := 0, means := h.means ++ [(h.latSum + d) / 64] })) ∧
  ∀ b g ctx hn s h l r, s.hitch? b g ctx hn = some h → h.means = l :: r → h.dmin ≤ h.lim → h.lim ≤ h.dmax →
    let want := (l + 15) / 16
    ∃ u k, exec (.limUpdate b g ctx hn) s = .next u ∧ u.hitch? b g ctx hn = some k ∧ k.means = r ∧
      (h.mem = false → k.lim = h.lim) ∧
      (h.mem = true → h.dmin ≤ k.lim ∧ k.lim ≤ h.dmax ∧
        (h.lim < want → h.lim < h.dmax → k.lim = h.lim + 1) ∧ (want < h.lim → h.dmin < h.lim → k.lim = h.lim - 1) ∧
        (h.lim = want → k.lim = h.lim))

/-! ## Waves and the end of a launch -/

/-- R39, R40, R43, R357: the origin starts a wave with the next number and asks every position; a bay answers with its flags
and its fires; the origin notes each position's answer. A bound launch whose seeds are in, or that has halted, with nothing
outstanding and nothing frozen on any of its bays, flushes its sites, spills its wait counters and is DONE, with the code of its
halt. -/
def Obligations.LaunchWaves : Prop :=
  (∀ n h s l, s.launch? n h = some l → waveDue s n l = true →
    let w := (l.wseq + 1) % 256
    exec (.quiescenceWave n h) s = .next ((s.regionMap n l).foldl
      (fun u t => u.emit (wavePacket 0 t ((s.regionMap n l).headD 0) l.ctx w 0 0 0 0))
      (s.modLaunch n h fun l => { l with wseq := w, wave := some ⟨w, []⟩ }))) ∧
  (∀ b p s c, s.ctx? b p.ctx = some c →
    let cut := c.cut.isSome
    exec (.query b p) s = .next (s.emit (wavePacket 1 p.src b p.ctx (p.body 212 8) c.position
      (16 * (!cut && bayIdle s b p.ctx).toNat + 8 * (bayPending s b p.ctx).toNat + 4 * (bayFrozen s b p.ctx).toNat +
        2 * (cut && pinWaits s b p.ctx).toNat) c.fires 0))) ∧
  (∀ b p s n l w, originLaunch s b p.ctx = some (n, l) → l.wave = some w → w.wseq = p.body 212 8 →
    (∀ r ∈ w.replies, r.1 ≠ p.body 205 7) →
    let rs := (p.body 205 7, BitVec.ofNat 4 (p.body 201 4), p.body 160 32) :: w.replies
    (rs.length < l.rows * l.cols → exec (.qreply b p) s =
      .next (s.modLaunch n l.hseq fun l => { l with wave := some { w with replies := rs } })) ∧
    (l.rows * l.cols ≤ rs.length → exec (.qreply b p) s = .next (judgeWave s n l (waveSum l rs)))) ∧
  ∀ n h s l, s.launch? n h = some l → l.st = .bound → (l.halt.isSome = true ∨ l.seedCnt ≤ l.seeds) →
    (∀ b ∈ s.regionBays n l.ctx h, outstanding s b l.ctx = false ∧
      ∀ c, s.ctx? b l.ctx = some c → c.frozen = false ∧ c.stopRun = false) →
    let bs := s.regionBays n l.ctx h
    ∀ t, bs.foldl (spillAll l.ctx) (bs.foldl (endSites l.ctx) (true, s)) = (true, t) →
      exec (.launchComplete n h) s = .next (endOf t n h (if l.halt.isSome then 1 else 0) (l.halt.getD 0))

/-! ## Networks -/

/-- R134, R135, R140, R141, R143 to R146, R148 to R150: a packet whose header fails is dropped and named on the physical function's queue;
one with failing payload flits goes on, the bytes of those flits poisoned, or its value; each flit corrected counts; a packet joins its
port behind the others. A head at its destination is ejected, a head that turns joins the turn queue while its 10 flits have room, and its
slots go back as credits; the local queues never hold more than 10 flits and keep their order. An output takes the packet that the order
of R145 gives, the boundary element's with its VC0 heads (the order among ports is the model's, log 79), reserves slots in the channel
that the rule of choice gives, and never more than are free; a credit gives one slot back. -/
def Obligations.RingNetworks : Prop :=
  (∀ e p errs s,
    let t := countFlits s e errs
    let bad := (List.range p.pay.length).filter fun k => errs.getD (k + 1) .none = .bad
    let bytes := p.kind = 1 ∨ p.kind = 2 ∨ (p.kind = 3 ∧ p.body 220 4 = 2)
    let joins (q : Packet) : Prop := exec (.packetArrive e p errs) s = .next (settle (t.modStop e.ring e.bay fun y =>
      y.setPort e.dir (y.port e.dir ++ [if e.dir = .bridge then q.setDl false else q])) e.bay)
    ((errs.headD .none = .bad ∨ headerOk p = false) →
      exec (.packetArrive e p errs) s = .next (returnCredits (dropRecord t e p) e.ring e.bay e.dir p)) ∧
    (errs.headD .none ≠ .bad → headerOk p = true →
      (bad = [] → joins p) ∧
      (bad ≠ [] → bytes → joins { p with marks := p.marks ++ bad.flatMap fun k => (List.range 32).map fun i => 32 * k + i }) ∧
      (bad ≠ [] → ¬ bytes → joins { p with poi := true }))) ∧
  (∀ s e l, countFlits s e [] = s ∧
    countFlits s e (.corrected :: l) = countFlits (eccCorrected s (linkLoc e) (linkIndex e) (some e.bay) 0) e l ∧
    countFlits s e (.none :: l) = countFlits s e l ∧ countFlits s e (.bad :: l) = countFlits s e l) ∧
  (∀ ring b d s vc i p, headOf ((s.stopAt ring b).port d) vc = some i → ((s.stopAt ring b).port d)[i]? = some p →
    let l := (s.stopAt ring b).port d
    let way := wayOf s ring b (portCame d) p
    let fits := queueFlits (s.stopAt .col b).turn + p.len ≤ 10
    let gone (t : State) : State := returnCredits (t.modStop ring b fun y => y.setPort d (dropAt l i)) ring b d p
    (way = .eject → settleHead ring b d s vc = gone (s.handOver b (markLeaving l p))) ∧
    (way = .turn → vc ≠ 3 → fits → settleHead ring b d s vc =
      gone (s.modStop .col b fun t => { t with turn := t.turn ++ [enterRing (markLeaving l p)] })) ∧
    (way = .turn → (vc = 3 ∨ ¬ fits) → settleHead ring b d s vc = s) ∧
    ∀ o, way = .out o → forBoundary b p = false → settleHead ring b d s vc = s) ∧
  (∀ (q l : List Packet), queueFlits q ≤ 10 →
    queueFlits (fillQueue q l).1 ≤ 10 ∧ (fillQueue q l).1 ++ (fillQueue q l).2 = q ++ l ∧
    ∀ p r, (fillQueue q l).2 = p :: r → 10 < queueFlits (fillQueue q l).1 + p.len) ∧
  (∀ e s f p vc k, nextOut s e.ring e.bay e.dir = some (f, p, vc, k) →
    let q := takeFrom s e.ring e.bay f p
    let t := match k with
      | none => q.2
      | some j => q.2.modStop e.ring e.bay fun t => t.setRr e.dir ((j + 1) % 3)
    let u := settle (launchPacket t e q.1 vc) e.bay
    (f ≠ .boundary → exec (.packetSend e) s = .next u) ∧
    (f = .boundary → e.ring = .col ∧ e.dir = .bridge ∧ exec (.packetSend e) s = .next s ∧ exec (.boundaryTokenSend e.bay) s = .next u)) ∧
  (∀ b s p l vc, (s.bay b).boundary = p :: l → bridgeVc (s.bay b).colStop.outBr 0 p.len = some vc → (s.bay b).colStop.rrBr = 0 →
    firstHead s .col b .bridge 2 = none → firstHead s .col b .bridge 1 = none →
    nextOut s .col b .bridge = some (.boundary, p, vc, some 0)) ∧
  (∀ (c : Counts) dl crossing len v, chooseVc c dl crossing len = some v → c.v0held ≤ 11 →
    let r := c.reserve v len
    r.v0held ≤ 11 ∧ r.trfree = c.trfree ∧
    (v = 0 ∧ dl = false ∧ crossing = false ∧ r.shfree + len = c.shfree ∧ r.escfree = c.escfree ∨
      v = 1 ∧ (dl = true ∨ crossing = true) ∧ r.shfree + len = c.shfree ∧ r.v0held = c.v0held ∧ r.escfree = c.escfree ∨
      v = 2 ∧ dl = false ∧ crossing = false ∧ r.escfree + len = c.escfree ∧ r.shfree = c.shfree ∧ r.v0held = c.v0held)) ∧
  ∀ e cls s, exec (.creditReturn e cls) s = .next (s.modStop e.ring e.bay fun t => t.setCounts e.dir
    (let c := t.counts e.dir
     match cls with
     | .vc0 => { c with shfree := min 16 (c.shfree + 1), v0held := c.v0held - 1 }
     | .vc1 => { c with shfree := min 16 (c.shfree + 1) }
     | .vc2 => { c with escfree := min 5 (c.escfree + 1) }
     | .vc3 => { c with trfree := min 5 (c.trfree + 1) }))

/-! ## Memory requests -/

/-- R164, R167, R172, R174, R182, R183, R186, R188, R195: a home answers a read with the bytes and which of them are poisoned, performs a
write and answers, gives an atomic the bytes it replaces, answers an ldo of a present word at once and queues another, or, with its node's
list full, lets it wait in its site, and makes the word of an sto present, whose entry lets a waiting ldo go. A reply's fill data goes to
its buffer, a load's bytes to the load, a streamer's to its tile; an acknowledgement ends its write. A stream site fetches the next line
of its pattern into the ring's next buffer, and serves what waits if a sibling's copy ends the fill at once; every 64th fill forms a mean,
and its depth moves by at most one toward the target of each, within DMIN and DMAX. That an atomic on poisoned bytes answers POISON and
writes nothing, and that a reply marks its poisoned bytes one by one, is the model's reading (logs 15 and 37). -/
def Obligations.MemoryRequests : Prop :=
  (∀ home p s,
    let l := homeLoc s home p
    let n := p.body 204 8 + 1
    let o := l.key - loftKey home 0
    (p.body 220 4 = 0 → exec (.mreq home p) s = .next (s.sendRep home (mrepRead p (homeRead s l.enc l.key n)
      ((List.range n).filter fun i => s.poisoned (l.key + i) 1)))) ∧
    (p.body 220 4 = 1 → exec (.mreq home p) s = .next ((noteDirty
      (homeWrite s l.enc l.key (p.bytes.take n) (p.badBytes n)) p.ctx l n).sendRep home (mrepOf p 0 0 [] false))) ∧
    (p.body 220 4 = 2 → s.poisoned l.key n = true → exec (.mreq home p) s = .next (s.sendRep home (mrepOf p 1 0 [] false))) ∧
    (p.body 220 4 = 2 → s.poisoned l.key n = false →
      let old := leNat (homeRead s l.enc l.key n)
      let new := atomicNew (if p.body 216 4 = 0 then 0xA0 else 0x90 + p.body 216 4) (Ty.ofCode (BitVec.ofNat 4 (p.body 212 4)))
        (packetRnd p) (packetSat p) old (p.body 64 64) (p.body 0 64)
      exec (.mreq home p) s = .next ((noteDirty (homeWrite s l.enc l.key (leBytes n new) []) p.ctx l n).sendRep home
        (mrepOf p 0 (word old) [] false))) ∧
    (p.body 220 4 = 3 → present (s.bay home) p.ctx o = true → exec (.mreq home p) s = .next (s.sendRep home
      (mrepOf p (if s.poisoned l.key n then 1 else 0) (word (leNat (s.readBytes l.key n))) [] false))) ∧
    (p.body 220 4 = 3 → present (s.bay home) p.ctx o = false →
      ((∀ r, reqOf (s.bay p.src) p = some r → r.dead = true) →
        exec (.mreq home p) s = .next (s.sendRep home (mrepOf p 0 0 [] false))) ∧
      ∀ r, reqOf (s.bay p.src) p = some r → r.dead = false →
        let n := ((s.bay home).readers.filter fun r => r.node == nodeOf o).length
        (Config.readersPerNode ≤ n →
          let u := pumpReqs (s.modBay p.src fun y => { y with reqs := y.reqs.filter fun q => !q.isOf p }) p.src
          ∀ g ix lsid q, r.goal = .op g ix lsid → opOf u p.src ⟨g, ix, lsid⟩ = some q →
            exec (.mreq home p) s = .next (addWaiter u p.src (siteOf u p.src r.ctx q.f) ⟨g, ix, lsid⟩)) ∧
        (n < Config.readersPerNode → exec (.mreq home p) s = .next
          ((s.modBay home fun y => { y with readers := y.readers ++ [⟨nodeOf o, p.ctx, o, p, r.va⟩] }).modBay p.src fun y =>
            { y with reqs := y.reqs.map fun r => if r.isOf p then { r with deferred := true } else r }))) ∧
    (p.body 220 4 = 4 →
      let w := o / 32 * 32
      let d := p.bytes.take n
      let bs := (List.range 32).map fun i => if o % 32 ≤ i ∧ i < o % 32 + d.length then d.getD (i - o % 32) 0 else 0
      let ps := (List.range 32).map fun i => decide (o % 32 ≤ i) && decide (i < o % 32 + d.length) && (p.badBytes n).getD (i - o % 32) false
      exec (.mreq home p) s = .next (kickLdos ((answerReaders ((noteDirty (homeWrite s none (loftKey home w) bs ps) p.ctx
        ⟨loftKey home w, home, 0, 0, 2, 0, none⟩ 32).modBay home fun y => setPresent y p.ctx w) home p.ctx w).sendRep home
          (mrepOf p 0 0 [] false))))) ∧
  (∀ b p s r, reqOf (s.bay b) p = some r →
    let t := closeReq s b r p.echo
    (r.dead = true → exec (.mrep b p) s = .next t) ∧
    (r.dead = false →
      (∀ k i o n, r.goal = .fill k i o n →
        exec (.mrep b p) s = .next (s.send (.fillDataArrive b k i p)) ∧
        ∀ x j, s.site? b k = some x → p.body 220 4 ≠ 2 →
          exec (.fillDataArrive b k j p) s = .next (fillPiece t b k j o (p.bytes.take n) (p.badBytes n))) ∧
      (∀ g ix, r.goal = .store g ix → exec (.mrep b p) s = .next t) ∧
      (∀ k i, r.goal = .back k i → exec (.mrep b p) s = .next (kick (backDone t b k i) b)) ∧
      (∀ isl q n o, r.goal = .tile isl q n o →
        let m := r.pkt.body 204 8 + 1
        exec (.mrep b p) s = .next (placePiece t b isl q n o (p.bytes.take m) (p.badBytes m))) ∧
      ∀ g ix lsid o x, r.goal = .op g ix lsid → r.deferred = false → opOf t b ⟨g, ix, lsid⟩ = some o → o.kind = .load →
        t.site? b (siteOf t b (ctxOf t b g ix) o.f) = some x → p.body 220 4 = 0 → p.poi = false →
        (p.marks = [] ∨ frozenInst t b g ix = false) →
        exec (.mrep b p) s = .next (kick (finishLoad t b x ⟨g, ix, o.lsid⟩ o
          (p.bytes.take (if o.c.w then 128 else o.c.ty.size)) (p.badBytes (if o.c.w then 128 else o.c.ty.size))) b))) ∧
  (∀ b k s x, s.site? b k = some x → canStream x = true → x.lineInside (x.patternAt x.line) = true →
    (x.bufs.getD x.ringNext emptyBuf).st = .empty ∧
      let t := takeFill (s.modSite b k fun x => { x with line := x.line + 1 }) b k x.ringNext (x.patternAt x.line) x.line
      exec (.streamFetch b k) s = .next
        (if ((t.site? b k).any fun y => (y.bufs.getD x.ringNext emptyBuf).left == 0) = true then fillsEnded t b else t)) ∧
  (∀ (x : Site) d, (x.latCnt < 63 → x.count d = { x with latCnt := x.latCnt + 1, latSum := x.latSum + d }) ∧
    (x.latCnt = 63 → x.count d = { x with latCnt := 0, latSum := 0, means := x.means ++ [(x.latSum + d) / 64] })) ∧
  ∀ b k s x l r, s.site? b k = some x → x.means = l :: r → x.dmin ≤ x.dep → x.dep ≤ x.dmax →
    let want := (l + 31) / 32
    ∃ u y, exec (.depUpdate b k) s = .next u ∧ u.site? b k = some y ∧ y.means = r ∧ x.dmin ≤ y.dep ∧ y.dep ≤ x.dmax ∧
      (x.dep < want → x.dep < x.dmax → y.dep = x.dep + 1) ∧ (want < x.dep → x.dmin < x.dep → y.dep = x.dep - 1) ∧
      (x.dep = want → y.dep = x.dep)

/-- R195 to R197: what an atomic writes at its home: the sum wrapped or clamped, the lesser, the greater, the bitwise
combinations, the new value, the new value where the old one is that of CMP, the count up to a bound and down again, the float sum
rounded once. -/
def Obligations.AtomicValues : Prop :=
  ∀ (t : Ty) rnd sat (old b c : BitVec (t.width false)),
    let new (op : Nat) : Nat := atomicNew op t rnd sat old.toNat b.toNat c.toNat
    let w := t.width false
    (sat = false → new 0x96 = (old + b).toNat) ∧
    (sat = true → new 0x96 = (clampBits t w (readBits t old + readBits t b)).toNat) ∧
    new 0x97 = (if readBits t b < readBits t old then b else old).toNat ∧
    new 0x98 = (if readBits t old < readBits t b then b else old).toNat ∧
    new 0x99 = (old &&& b).toNat ∧ new 0x9A = (old ||| b).toNat ∧ new 0x9B = (old ^^^ b).toNat ∧ new 0x9C = b.toNat ∧
    new 0x9D = (if old = c then b else old).toNat ∧
    new 0x9E = (if b ≤ old then 0 else old + 1).toNat ∧
    new 0x9F = (if old = 0 ∨ b < old then b else old - 1).toNat ∧
    (t = .f32 → new 0xA0 = fmtF32.round ((fmtF32.decode old.toNat).add (fmtF32.decode b.toNat) rnd) rnd sat)

/-! ## Group accesses -/

/-- R222, R224, R225, R227, R231 to R233: a member's home answers a read with its widened elements, or a void with its status, and
performs a write unchanged; a reply joins the reduction buffer and is no longer awaited; a stop merges two siblings. When every member
has answered, an ldg delivers the tree of what came and the omitted mask, a stg done and the mask. That a GACK names its member by its
source, by the positions the region had at issue, is the model's choice (log 71). -/
def Obligations.GroupAccesses : Prop :=
  (∀ home p s,
    let t := Ty.ofCode (BitVec.ofNat 4 (p.body 212 4))
    let w := p.body 210 1
    let n := if w = 1 then 32 else 1
    let pos := p.body 203 6
    let key := memberKey home p
    let answer (stat : Nat) (v : Option (List Word)) (om : Nat) : State := s.emit (echoOf p
      (gpartPacket p.src home p.ctx (p.body 216 4) (p.body 212 4) (p.body 211 1) w p.rqid pos 0 stat v om))
    (home ∈ s.offline → exec (.gread home p) s = .next (answer 2 none (2 ^ pos))) ∧
    (home ∉ s.offline → s.poisoned key (n * t.size) = true → exec (.gread home p) s = .next (answer 1 none (2 ^ pos))) ∧
    (home ∉ s.offline → s.poisoned key (n * t.size) = false → exec (.gread home p) s = .next (answer 0 (some ((List.range n).map fun i =>
      word ((packetRed p).widen (leNat (((s.readBytes key (n * t.size)).drop (i * t.size)).take t.size))))) 0))) ∧
  (∀ home p s,
    let t := Ty.ofCode (BitVec.ofNat 4 (p.body 212 4))
    let bs := if p.body 210 1 = 1 then p.bytes else leBytes t.size (p.body 0 64)
    let key := memberKey home p
    let ack (off : Bool) : Packet := echoOf p (mkPacket 3 p.src home p.ctx
      (fieldAt 220 4 3 + fieldAt 216 4 (p.body 216 4) + fieldAt 212 4 (p.body 212 4) + fieldAt 211 1 (p.body 211 1) +
        fieldAt 210 1 (p.body 210 1) + fieldAt 188 12 p.rqid + fieldAt 72 64 (if off then 2 ^ p.body 203 6 else 0) + fieldAt 68 4 (if off then 2 else 0)) [] false)
    (home ∈ s.offline → exec (.gwrite home p) s = .next (s.emit (ack true))) ∧
    (home ∉ s.offline → exec (.gwrite home p) s = .next ((noteDirty (homeWrite s none key bs (p.badBytes bs.length)) p.ctx
      ⟨key, home, 0, 0, 0, 0, none⟩ bs.length).emit (ack false)))) ∧
  (∀ b p s r, AMap.get? (s.bay b).reds p.rqid = some r → p.poi = false → p.body 68 4 = 0 →
    exec (.gpart (.requester b) p) s = .next (s.modBay b fun y => { y with reds := AMap.upd y.reds p.rqid fun r =>
      if r.ctx = p.ctx then
        { r with
          pend := r.pend &&& ~~~coverMask (p.body 203 6) (p.body 200 3)
          parts := putPartial r.red 6 r.parts ⟨p.body 203 6, p.body 200 3, gpartVal p, BitVec.ofNat 64 (p.body 72 64)⟩ }
      else r })) ∧
  (∀ e p s i d j q, placeOf (fun q => q == p) ((s.stopAt e.ring e.bay).port e.dir) 0 = some i →
    siblingIn (s.stopAt e.ring e.bay) e.dir i p = some (d, j) → ((s.stopAt e.ring e.bay).port d)[j]? = some q →
    let t := (s.stopAt e.ring e.bay).setPort e.dir (setAt ((s.stopAt e.ring e.bay).port e.dir) i (mergeParts e.bay p q))
    exec (.gpart (.stop e) p) s = .next (settle (returnCredits
      (s.modStop e.ring e.bay fun _ => t.setPort d (dropAt (t.port d) j)) e.ring e.bay d q) e.bay)) ∧
  (∀ b p s,
    let acked (r : RedBuf) : RedBuf :=
      match placeOf (fun d => d == p.src) r.map 0 with
      | none => r
      | some pos =>
        { r with
          pend := r.pend &&& ~~~(1#64 <<< pos)
          gone := r.gone ||| (if p.body 68 4 = 2 then 1#64 <<< pos else 0) }
    exec (.gack b p) s = .next (s.modBay b fun y =>
      { y with reds := AMap.upd y.reds p.rqid fun r => if r.ctx = p.ctx then acked r else r })) ∧
  ∀ b n s r o, AMap.get? (s.bay b).reds n = some r → r.pend = 0 → r.dead = false →
    let u := s.modBay b fun y => { y with reds := AMap.erase y.reds n }
    opOf u b ⟨r.gate, r.ix, r.lsid⟩ = some o → ∀ om, groupStatus r = .ok om →
    let red := r.red
    let v := ((subtree red r.parts 6 0).getD (List.replicate (if o.c.w then 32 else 1) (word red.identity))).map (·.toNat)
    let x : Val := if o.c.w then .vec (ofLanes 32 v) else .sc (extendRes red.ty 32 (v.headD 0))
    (r.store = false → exec (.ldgResult b n) s = .next (kick (opValue
      (groupOmit (if o.acq then acquireActions u b r.ctx o.scope else u) b r o om) b r.gate r.ix o ⟨x, false, false⟩ (scTok om)) b)) ∧
    (r.store = true → exec (.stgDone b n) s = .next (kick (opDone u b r.gate r.ix o (ctTok true) (scTok om)) b))

/-! ## Islands -/

/-- R234, R235, R242 to R246, R258, R262: a port accepts its network's first command, an sstop before what waits for room. An mma takes
its tiles once they are all there: every word of its corner becomes the accumulation of that word with its row and column, every
other word keeps its value; an aclr zeroes its tile. A drain reads its whole tile as it starts; it sends the tokens of its image one at a
time, each behind the one before, or writes its rows; once they have their places or are acknowledged it clears the drained words.
Each command then retires with done, and the island's turn goes to the next port. An sstop retires at its turn. -/
def Obligations.MatrixIsland : Prop :=
  (∀ b isl p s i k, acceptNo (s.port b isl p) = some i → (s.port b isl p).net[i]? = some k →
    (isl = 0 ∨ ∀ x, s.ctx? b k.ctx = some x → x.halted = false) →
    exec (.islandCommandAccept b isl p) s = .next (traceIsland (s.modPort b isl p fun q =>
      { q with
        net := dropAt q.net i
        queue := (if k.op = 0xBA then q.queue.map fun j => { j with stop := true } else q.queue) ++ [k] }) b k 0)) ∧
  (∀ b p s k, headCmd s b 0 p = some k → (k.op = 0xB0 ∨ k.op = 0xB1) → (s.port b 0 p).stall = none →
    let u := served s b 0 p
    let r := cmdRecipe s b k
    let tag := k.a.toNat % 2 ^ 32
    let fs := mmaFeeds r (k.op == 0xB1)
    ∀ tile : Nat → FeedTile,
      (∀ f ∈ fs, feedTile s b k.ctx f.1 tag = some (tile f.1) ∧ (tile f.1).data.length = f.2 ∧ (tile f.1).poi = false) →
      (k.op = 0xB0 → tile 2 = (feedTile s b k.ctx 2 tag).getD ⟨0, 0, [], false⟩ ∧
        tile 3 = (feedTile s b k.ctx 3 tag).getD ⟨0, 0, [], false⟩) →
      exec (.mmaExecute b p) s = .next (retire (dropTiles (u.modBay b fun y =>
        { y with acc := AMap.set y.acc r.mmaAcc (matTile (nbvOf s b k.ctx) r (tile 0).data (tile 1).data (tile 2).data (tile 3).data
            (AMap.getD y.acc r.mmaAcc ⟨[], []⟩)) }) b k.ctx tag (fs.map (·.1))) b 0 p k (.ct 1))) ∧
  (∀ nbv (r : Recipe) a b sa sb (t : AccTile), ∀ i < 128, ∀ j < 128,
    (matTile nbv r a b sa sb t).at' (128 * i + j) =
      if i < r.m ∧ j < r.n then matWord nbv r a b sa sb (t.at' (128 * i + j)) i j % 2 ^ 32 else t.at' (128 * i + j)) ∧
  (∀ b p s k, headCmd s b 0 p = some k → k.op = 0xB2 → exec (.aclrExecute b p) s =
    .next (retire ((served s b 0 p).modBay b fun y => { y with acc := AMap.set y.acc (k.f.aux11.toNat % 4) ⟨[], []⟩ }) b 0 p k (.ct 1))) ∧
  (∀ b p s k, headCmd s b 0 p = some k → k.op = 0xB3 → (s.port b 0 p).stall = none → dstStalled s b 0 p k = false →
    let u := served s b 0 p
    let r := cmdRecipe s b k
    let st := k.a.toNat % 2 ^ 32
    let e := r.route st
    let t := AMap.getD (s.bay b).acc r.drainAcc ⟨[], []⟩
    let image := drainImage (nbvOf s b k.ctx) r t
    ((s.port b 0 p).run = none → st < 8 → (routeKind e = 2 → k.f.aux11.getLsbD 0 = true ∧ k.b.toNat % 16 = 0) →
      exec (.drainExecute b p) s = .next (u.modPort b 0 p fun q => { q with run := some { newPipe with
        tiles := if routeKind e = 1 then drainTokens r t image else if routeKind e = 2 then drainRows r t image else [] } })) ∧
    ∀ x, (s.port b 0 p).run = some x →
      (x.tiles = [] → (if routeKind e = 1 then tokenOut s b k x = false else landOut s b 0 p = false) →
        exec (.drainExecute b p) s = .next (retire (drainClear u b r) b 0 p k (.ct 1))) ∧
      ∀ y l, x.tiles = y :: l →
        (routeKind e = 1 → tokenOut s b k x = false → routeWaits s b k e = false →
          exec (.drainExecute b p) s = .next (routeToken
            ((dropTile u b 0 p).modPort b 0 p fun q => { q with run := q.run.map fun x => { x with asked := y.idx + 1 } }) b 0 p k e
            y.idx (.vec (bytesVec y.data)) (y.poi.any id))) ∧
        (routeKind e ≠ 1 → ioParked s b 0 p true = false →
          let q := writeTile u b 0 p k y.data.length y (rowPieces s b k y)
          exec (.drainExecute b p) s = .next (if q.1 then dropTile q.2 b 0 p else q.2))) ∧
  ∀ b isl p s k, headCmd s b isl p = some k → k.op = 0xBA →
    exec (.sstopExecute b isl p) s = .next (retire (served s b isl p) b isl p k (.ct 1))

/-- R235, R248 to R258: a pipeline starts once its destination is free, opening the life of the site it feeds or taking its feed port; a
gather or scatter reads its index list; a tile is read at its lines, gathered by its indices, or asked of the peer: what translates is
held under way while its reads are out; it arrives in memory once its writes are acknowledged, in a feed slot or in the site's buffer, and
counts; with all tiles arrived, or stopped with none under way, the pipeline retires, and T1 of a gather or scatter receives the rows
zero-filled or skipped. That a gather starts whatever the alignment of its base is the model's reading (log 62). -/
def Obligations.Streamers : Prop :=
  (∀ b isl p s k, headCmd s b isl p = some k → startReady s b isl p = true →
    let u := served s b isl p
    let r := cmdRecipe s b k
    let go (s : State) : State := s.modPort b isl p fun q => { q with run := some newPipe }
    (k.stop = true → exec (.pipelineStart b isl p) s = .next (go u)) ∧
    (k.stop = false → (r.kind = 4 ∨ k.a.toNat % 16 = 0) → speerUp s b k = true →
      (2 ≤ r.dk → exec (.pipelineStart b isl p) s = .next (go u)) ∧
      (r.dk = 1 → exec (.pipelineStart b isl p) s =
        .next (go (u.modBay b fun y => { y with feedBy := AMap.set y.feedBy (r.dsite % 4) (isl, p) }))) ∧
      ∀ x, r.dk = 0 → s.site? b (destSite s b k) = some x → x.poison = false →
        exec (.pipelineStart b isl p) s = .next (go (kick (openLife
          (u.modSite b (destSite s b k) fun x => { x with started := true }) b (destSite s b k) (startKey s b k x)) b)))) ∧
  (∀ b isl p s k x, headCmd s b isl p = some k → indexReady s b isl p = true →
    let r := cmdRecipe s b k
    let n := ((s.ctx? b k.ctx).map (·.siteBase)).getD 0 + r.isite
    let len := 4 * r.nidx
    s.site? b n = some x → x.poison = false → x.wbase ≤ k.b.toNat → k.b.toNat + len ≤ x.wbase + x.wsize → k.b.toNat % 4 = 0 →
    ∀ ls v, ioTranslate b isl p k x.phys len (cutRun (len / 64 + 2) k.b.toNat 0 len) (served s b isl p) = .ok ls v →
      exec (.indexListRead b isl p) s = .next (issueReads b isl p k x.phys 0 ls (v.modPort b isl p fun q =>
        { q with run := q.run.map fun x =>
            { x with listing := some ⟨0, List.replicate len 0, List.replicate len false, 0, [], ls.length, 0⟩ } }))) ∧
  (∀ (x : Pipe) t, x.listing = some t → t.left = 0 → x.listed = { x with
    listing := none
    index := some ((List.range (t.data.length / 4)).map fun i =>
      (leNat ((t.data.drop (4 * i)).take 4), ((t.poi.drop (4 * i)).take 4).any id)) }) ∧
  (∀ b isl p s k x, headCmd s b isl p = some k → (s.port b isl p).run = some x → readReady s b isl p = true → speerUp s b k = true →
    let u := served s b isl p
    let r := cmdRecipe s b k
    (speerIn k = true → exec (.tileRead b isl p) s = .next (askTile u b isl p k r x)) ∧
    (speerIn k = false → r.kind = 4 → exec (.tileRead b isl p) s = .next (readGather u b isl p k r x)) ∧
    (speerIn k = false → r.kind ≠ 4 → exec (.tileRead b isl p) s = .next (readCopy u b isl p k r x))) ∧
  (∀ s b isl p k len as t ls v, ioTranslate b isl p k false len (as.flatMap fun a => cutRun (len / 64 + 2) a.1 a.2 len) s = .ok ls v →
    readLines s b isl p k len as t = issueReads b isl p k false (t.idx + 1) ls (holdTile v b isl p { t with left := ls.length })) ∧
  (∀ b isl p s k x y l, headCmd s b isl p = some k → (s.port b isl p).run = some x → x.tiles = y :: l →
    arriveReady s b isl p = true →
    let r := cmdRecipe s b k
    let t := y.shaped r
    (r.dk = 0 → exec (.tileArrive b isl p) s = .next (tileDone (fedArrive s b (destSite s b k) t) b isl p k r t)) ∧
    (r.dk = 1 → exec (.tileArrive b isl p) s = .next (tileDone (s.modBay b fun y =>
      { y with
        feeds := AMap.set y.feeds (r.dsite % 4) (AMap.getD y.feeds (r.dsite % 4) [] ++ [⟨k.ctx, (destOp k + t.idx) % 2 ^ 32, t.data, t.poi.any id⟩]) }) b isl p k r t)) ∧
    (r.dk = 2 →
      let q := writeTile s b isl p k (outLen r t) t (tilePieces k r t)
      exec (.tileArrive b isl p) s = .next (if q.1 ∧ landOut q.2 b isl p = false then tileDone q.2 b isl p k r t else q.2)) ∧
    (r.dk = 3 → (t.idx + 1) * (peerFrames r k.b.toNat t).length ≤ x.confirmed →
      exec (.tileArrive b isl p) s = .next (tileDone s b isl p k r t))) ∧
  ∀ b isl p s k x, headCmd s b isl p = some k → (s.port b isl p).run = some x → endReady s b isl p = true →
    exec (.pipelineEnd b isl p) s = .next (retire
      (s.modBay b fun y => { y with feedBy := y.feedBy.filter fun e => e.2 != (isl, p) }) b isl p k
      (if k.op = 0xB5 ∨ k.op = 0xB6 then .sc (word x.zeroed) else .ct 1))

/-! ## Splice ports -/

/-- R257, R319 to R321: a frame that is not for an UP channel of its port, from that channel's far end, is dropped and counted. A tile that
was asked for goes under way; another is written for the channel's partition, and answered with DONE; a notice and a DONE are counted
with the speer that waits for them; a READ is answered with the bytes and their address. A binding takes effect with its write, but for one
with a zero field set or to a partition that is not there, which is dropped; a link that goes down makes every channel of its port LOST,
is recorded, and stalls their pipelines; one that comes up makes them no longer LOST. That a READ asks for as many bytes as its frame
holds is the model's choice (log 18). -/
def Obligations.SpliceFrames : Prop :=
  (∀ f s,
    let drop : Host.Outcome State Fault Refusal := .next
      { s with spliceDrop := AMap.set s.spliceDrop f.port (AMap.getD s.spliceDrop f.port 0 + 1) }
    let n := frameOwner s f
    let c := frameChan f
    let run := runPieces (frameAddr f) f.data.length
    (frameOk s 0 f = false → exec (.spliceTile f) s = drop) ∧ (frameOk s 1 f = false → exec (.spliceNotice f) s = drop) ∧
    (frameOk s 2 f = false → exec (.spliceRead f) s = drop) ∧ (frameOk s 3 f = false → exec (.spliceDone f) s = drop) ∧
    (∀ b i p x, frameOk s 0 f = true → speerOn s f.port c true = some (b, i, p) → (s.port b i p).run = some x → x.next < x.asked →
      x.next % 2 ^ 32 = frameTile f → exec (.spliceTile f) s =
        .next (holdTile s b i p ⟨x.next, f.data, List.replicate f.data.length f.poi, 0, [], 0, 0⟩)) ∧
    (∀ bs poi v, frameOk s 0 f = true → speerOn s f.port c true = none → partWrite n f.data f.poi run s = .ok bs poi v →
      exec (.spliceTile f) s = .next (sendFrame v f.port c 3 (frameTile f) 0 [] false)) ∧
    (∀ bs poi u, frameOk s 2 f = true → partRead n run s = .ok bs poi u →
      exec (.spliceRead f) s = .next (sendFrame u f.port c 0 (frameTile f) (frameAddr f) bs (poi.any id))) ∧
    (∀ b i p, speerOn s f.port c false = some (b, i, p) →
      (frameOk s 1 f = true → exec (.spliceNotice f) s = .next (s.modPort b i p fun q =>
        { q with run := q.run.map fun x => { x with notices := x.notices + 1 } })) ∧
      (frameOk s 3 f = true → f.poi = false → exec (.spliceDone f) s = .next (s.modPort b i p fun q =>
        { q with run := q.run.map fun x => { x with confirmed := x.confirmed + 1 } })))) ∧
  (∀ port chan v s, port < 16 → chan < 16 →
    (bits v 0 28 = 0 → (v.getLsbD 63 = true → (s.part (bits v 58 5)).en = true) →
      exec (.spliceBindingWrite port chan v) s = .next (chanBroken
        { s with
          chans := AMap.set s.chans (16 * port + chan)
            { en := v.getLsbD 63, owner := bits v 58 5, dev := bits v 38 20, port := bits v 34 4, chan := bits v 30 4
              lost := s.spliceDown.contains port, up := false } } port chan)) ∧
    ((bits v 0 28 ≠ 0 ∨ (v.getLsbD 63 = true ∧ (s.part (bits v 58 5)).en = false)) →
      exec (.spliceBindingWrite port chan v) s = .next s)) ∧
  (∀ port s, port < 16 → port ∉ s.spliceDown →
    let t := { s with
      spliceDown := insertNat port s.spliceDown
      chans := s.chans.map fun e => if e.1 / 16 = port then (e.1, { e.2 with lost := true, up := false }) else e }
    exec (.spliceLinkDown port) s = .next ((List.range 16).foldl (fun u c => chanBroken u port c)
      (linkLoss t (1 + port) (chanOwners t port))) ∧
    ∀ c < 16, ∀ x, AMap.get? s.chans (16 * port + c) = some x → x.en = true → chanState t port c = 3) ∧
  ∀ port s, exec (.spliceLinkUp port) s = .next { s with
    spliceDown := s.spliceDown.filter fun p => p != port
    chans := s.chans.map fun e => if e.1 / 16 = port then (e.1, { e.2 with lost := false }) else e }

/-! ## The host's ports -/

/-- R308, R310, R311, R314, R315, R317, R318, R326, R332: a write with the next HSEQ, of the port's size and place, is accepted, the
others are counted. A launch record that no check refuses joins its queue's tail; a refused one is noted and completed with REFUSED. A
priority change gives a launch that is not DONE its new priority; queued or ready, it goes to the tail of its queue; one that is refused
is noted and completed too (log 43). The reserved places of a virtual function's window read zero and drop writes. A seed for a port of
its launch is counted and taken. -/
def Obligations.HostPorts : Prop :=
  (∀ n w s, vfUp s n = true → w.size = 64 → w.aligned = true →
    let r := launchRec w.data
    let p := s.part n
    let gives (q : Part) : Prop := ∀ i ∈ [Instr.launchRecordWrite n w, .priorityChange n w], exec i s = .next (s.modPart n fun _ => q)
    (r.hseq = p.hacc ∨ serialBefore r.hseq p.hacc = true → r.hseq ≠ (p.hacc + 1) % 2 ^ 32 →
      gives { p with hdup := (p.hdup + 1) % 2 ^ 32 }) ∧
    (r.hseq ≠ p.hacc → serialBefore r.hseq p.hacc = false → r.hseq ≠ (p.hacc + 1) % 2 ^ 32 →
      gives { p with hgapCnt := (p.hgapCnt + 1) % 2 ^ 32, hgapSeq := r.hseq }) ∧
    (r.hseq = (p.hacc + 1) % 2 ^ 32 →
      let q := { p with hacc := r.hseq }
      (∀ c, r.cfg ≠ 0xFFFFFFFF → launchCheck q r = .ok c →
        gives { q with launches := q.launches ++ [r.launch c.ctx] }.refreshReady) ∧
      (∀ k, r.cfg ≠ 0xFFFFFFFF → launchCheck q r = .error k →
        gives ({ q with refSeq := r.hseq, refCause := k }.create (.comp (q.compOf (r.launch 0) 2 k)))) ∧
      (r.cfg = 0xFFFFFFFF → r.changeOk = true → r.waitsOk = true →
        let h := r.waits.headD 0
        let u := q.modLaunch h fun l => if l.st == .finished then l else { l with prio := r.prio }
        ∀ l, q.launches.find? (fun l => l.hseq == h) = some l →
          gives (if l.st = .queued ∨ l.st = .ready then u.toTailOf h else u)) ∧
      (r.cfg = 0xFFFFFFFF → (r.changeOk = false ∨ r.waitsOk = false) →
        let k := if r.changeOk then 4 else 1
        gives ({ q with refSeq := r.hseq, refCause := k }.create (.comp (q.compOf (r.launch 0) 2 k)))))) ∧
  (∀ n w s, vfUp s n = true → (w.size ≠ 64 ∨ w.aligned = false) →
    ∀ i ∈ [Instr.launchRecordWrite n w, .priorityChange n w],
      exec i s = .next (s.modPart n fun p => { p with hbad := (p.hbad + 1) % 2 ^ 32 })) ∧
  (∀ n off size d s,
    (vfPlace off = .launch → vfWrite n off size d s = launchPort n ⟨size, off == 0x1000, d⟩ s) ∧
    (vfPlace off = .reserved → vfWrite n off size d s = s ∧ vfReadByte s n off = some 0) ∧
    (0x40 ≤ off ∧ off < 0x1000 ∨ 0x1040 ≤ off ∧ off < 0x100000 ∨ 0x200000 ≤ off → vfPlace off = .reserved)) ∧
  ∀ n k w s l, vfUp s n = true → k < 4096 → w.size = (if w.data.getLsbD 192 then 160 else 32) → w.aligned = true →
    let p := s.part n
    let h := bits w.data 0 32
    h = (p.hacc + 1) % 2 ^ 32 → seedCheck { p with hacc := h } k w.data = .ok l →
    let v : Val := if w.data.getLsbD 192 then .vec (w.data.extractLsb' 256 1024) else .sc (word (bits w.data 128 64))
    let j := { l with seeds := l.seeds + 1 }
    exec (.seedWrite n k w) s = .next (takeSeed ((s.modPart n fun _ => { p with hacc := h }).modLaunch n j.hseq fun _ => j) n j (some h) k
      (word (bits w.data 64 64)) ⟨v, false, false⟩)

/-- R222, R309, R312, R313, R316, R324, R347: a link that goes down loses what the host sends until it is up; one that comes back counts, in
every partition and the physical function, records its loss and writes the records kept. A record that may be written goes to
its ring's place, or to its launch's NOTIFY, and is kept no longer. The host writes a partition's memory through its tables. A bay is
marked; a bridge that is lost is noted and recorded. That all the host sends until the link is up is lost is the model's choice
(log 54). -/
def Obligations.LinkAndRecords : Prop :=
  (∀ s, s.link = 0 → exec .linkDown s = .next { s with link := 2, inputs := loseWrites s.inputs }) ∧
  (∀ s, s.link ≠ 0 →
    let back (p : Part) : Part := { p with lossCnt := min (p.lossCnt + 1) 0xFFFF, epoch := (p.epoch + 1) % 2 ^ 32 }
    let t := { s with link := 0, pf := back s.pf, parts := s.parts.map fun e => if e.2.en then (e.1, back e.2) else e }
    let u := linkLoss t 0 ((t.parts.filter fun e => e.2.en && !e.2.configs.isEmpty).map (·.1))
    exec .linkUp s = .next ((u.parts.map (·.1) ++ [Config.parts]).foldl writeRecs u)) ∧
  (∀ n d s r, s.link = 0 → (s.part n).records.find? (fun r => r.dseq == d) = some r → (s.part n).recReady r = true →
    let p := s.part n
    let kept := p.records.filter fun x => x.dseq != d
    let puts (a v : Nat) (f : Part → Part) : Prop := exec (.recordWrite n d) s =
      .next ((s.writeBytes (hostKey n a) (leBytes 64 v) false).modPart n fun p => f { p with records := kept })
    (∀ x, r.kind = .fault x → puts (ringAt p.fqBase p.fqProd) (recNat d 0 x) fun p =>
      { p with fqProd := (p.fqProd + 1) % 2 ^ 32, dlFault := d }) ∧
    (∀ x lost, r.kind = .event x lost → puts (ringAt p.eqBase p.eqProd) (recNat d lost x) fun p =>
      { p with eqProd := (p.eqProd + 1) % 2 ^ 32, dlEvent := d }) ∧
    ∀ x, r.kind = .comp x → puts (x.notify / 64 * 64) (compNat d x) fun p => { p with dlComp := d }) ∧
  (∀ a s, s.link = 0 →
    (a.fn = Config.parts → a.write = true → exec (.hostMemoryAccess a) s = .next (pfWrite s a.addr a.data)) ∧
    (∀ bs poi v, a.fn ≠ Config.parts → vfUp s a.fn = true → a.write = true →
      partWrite a.fn a.data false (runPieces a.addr a.data.length) s = .ok bs poi v →
      exec (.hostMemoryAccess a) s = .next v) ∧
    ∀ bs poi u, a.fn ≠ Config.parts → vfUp s a.fn = true → a.write = false →
      partRead a.fn (runPieces a.addr a.len) s = .ok bs poi u → exec (.hostMemoryAccess a) s = .next u) ∧
  (∀ b off s, b < Config.bays → ∃ t, exec (.markOffline b off) s = .next t ∧ (b ∈ t.offline ↔ off = true) ∧
    (∀ c, c ≠ b → (c ∈ t.offline ↔ c ∈ s.offline)) ∧ ∀ f : Field, f ≠ .offline → f.same s t) ∧
  ∀ col s, col < 8 → col ∉ s.bridgeLost →
    exec (.bridgeLinkDown col) s =
      .next (linkLoss { s with bridgeLost := insertNat col s.bridgeLost } (17 + col) (bridgeUsers { s with bridgeLost := insertNat col s.bridgeLost } col))

/-! ## Loading -/

/-- R285, R289, R322, R323: a LOAD with the next CSEQ is BUSY until it completes; one that no check stops installs its configuration in
every bay of the partition, writes its images and descriptors, has write permission cleared on the pages of its CONST images, and is then
named by its handle; an UNLOAD frees the configuration on
every bay. The order among the causes is the model's (log 29), and that the LOAD itself clears that permission its reading (log 69). A LOAD
whose bay is being zeroised when it would complete waits (log 72), and one that meets a migrating page begins anew. -/
def Obligations.Loading : Prop :=
  (∀ n cmd s, loadCmdOk s n cmd 1 = true →
    let p := s.part n
    let ctx := bits cmd 8 3
    let begun (u : State) (st : Nat) (e : Word) (c : Option Loaded) : State :=
      u.modPart n fun p => { p with ldStat := p.ldStat ||| 1, job := some ⟨bits cmd 32 32, st, e, c⟩ }
    (∀ st, loadEarly s n ctx = some st → exec (.load n cmd) s = .next (begun s st 0 none)) ∧
    (loadEarly s n ctx = none →
      let bs := s.readBytes (hostKey Config.parts p.ldAddr.toNat) p.ldLen.toNat
      (∀ st e, loadObject s n ctx bs = (st, e, none) → exec (.load n cmd) s = .next (begun s st e none)) ∧
      ∀ st e c f t, loadObject s n ctx bs = (st, e, some (c, f, t)) → (imagesFate s n f.datas).2 = false →
        exec (.load n cmd) s = .next (begun (readBackOf p ctx (p.bayList.foldl (installOn c n p.ldBayWin.toNat)
          (writeGroups (sealConst n f (writeImages n f t)) n c))) 0 0 (some c)))) ∧
  (∀ n s j, (s.part n).job = some j → (j.cfg ≠ none → ∀ b ∈ (s.part n).bayList, (s.bay b).zero = false) → exec (.loadComplete n) s = .next (s.modPart n fun p =>
    let q := { p with ldStat := word (j.cseq * 2 ^ 32 + j.status * 2 ^ 8), ldErr := j.err, job := none }
    match j.cfg with
    | none => q
    | some c => { q with configs := AMap.set q.configs c.ctx c })) ∧
  ∀ n cmd s, loadCmdOk s n cmd 2 = true → noPart s (s.part n) = false →
    let p := s.part n
    let ctx := bits cmd 8 3
    let h := p.ldHandle.toNat
    let ends (u : State) (st : Nat) (f : Part → Part) : Prop := exec (.unload n cmd) s = .next (u.modPart n fun p =>
      f { p with ldStat := word (bits cmd 32 32 * 2 ^ 32 + st * 2 ^ 8), job := none })
    (p.byHandle h = none → ends s 3 id) ∧
    ∀ c, p.byHandle h = some c → h ≠ 0xFFFFFFFF →
      (c.ctx ≠ ctx → ends s 3 id) ∧
      (c.ctx = ctx → p.inUse h = true → ends s 4 id) ∧
      (c.ctx = ctx → p.inUse h = false → ends (p.bayList.foldl (unloadBay ctx) s) 0 fun p => { p with configs := AMap.erase p.configs ctx })

/-! ## The distributor -/

/-- R324, R325, R327 to R331, R335, R357, R370: the first READY launch of the greatest priority within the quota is selected. A selected
launch is bound to the first rectangle that fits, once no save made for it is under way, unless its image fails its check and it is HELD;
every bay of the region acknowledges; with the last it is BOUND, and its held seeds are released. A bay notes every 2^24 fires; the 256th
notice ends the turn. -/
def Obligations.Distributor : Prop :=
  (∀ n (s : State) l, (s.part n).choice = some l → exec (.selectLaunch n) s = .next (s.modPart n fun p =>
    { p with launches := p.launches.map fun k =>
        if k.hseq = l.hseq then { k with st := .selected, marked := false } else { k with marked := false } })) ∧
  (∀ n (s : State) (l : Launch), (s.part n).choice = some l → l ∈ (s.part n).launches ∧ l.st = .ready ∧ (s.part n).eligible l = true ∧
    ∀ k ∈ (s.part n).launches, k.st = .ready → (s.part n).eligible k = true → k.prio ≤ l.prio) ∧
  (∀ n s l m, (s.part n).selected = some l → bindsTo s n l = some m →
    (s.part n).makingRoom l = [] ∧ fitting s n l [] = some m ∧
    (l.image = none → exec (.bind n) s = .next (bindTo s n l m)) ∧
    ∀ i, l.image = some i →
      (imageFails s n l i = none → exec (.bind n) s = .next (bindTo s n l m)) ∧
      ∀ off, imageFails s n l i = some off → exec (.bind n) s = .next (holdLaunch s n l off)) ∧
  (∀ s n l m, fitting s n l [] = some m → m.length = l.rows * l.cols ∧ ∀ b ∈ m,
    (s.part n).hasBay b = true ∧ b ∉ s.offline ∧ (s.bay b).zero = false ∧ ∃ c, s.ctx? b l.ctx = some c ∧ c.part = n ∧ c.bound = none) ∧
  (∀ b p s c, s.ctx? b p.ctx = some c → c.bound ≠ none →
    exec (.cfg b p) s = .next (s.emit (wavePacket 3 p.src b p.ctx (p.body 212 8) c.position 0 0 0))) ∧
  (∀ b p s n l, originLaunch s b p.ctx = some (n, l) → l.st = .binding → p.body 212 8 = l.wseq →
    let acks := insertNat (p.body 205 7) l.acks
    (acks.length < l.rows * l.cols → exec (.cfgack b p) s = .next (s.modLaunch n l.hseq fun l => { l with acks := acks })) ∧
    (l.rows * l.cols ≤ acks.length → exec (.cfgack b p) s = .next (releaseSeeds (s.modPart n fun q =>
      { q.modLaunch l.hseq (fun l => { l with st := .bound, acks := [], turns := 0, boundAt := q.bindNo + 1 }) with
        bindNo := q.bindNo + 1 }) n l))) ∧
  (∀ b ctx s c, s.ctx? b ctx = some c → c.bound ≠ none → c.fireStart + 2 ^ 24 ≤ c.fires →
    exec (.turnNotice b ctx) s = .next ((s.modCtx b ctx fun c => { c with fireStart := c.fireStart + 2 ^ 24 }).emit
      (wavePacket 4 c.origin b ctx 0 c.position 0 0 0))) ∧
  ∀ b p s n l, originLaunch s b p.ctx = some (n, l) →
    (l.turns < 255 → exec (.turn b p) s = .next (s.modLaunch n l.hseq fun l => { l with cancelled := false, turns := l.turns + 1 })) ∧
    (255 ≤ l.turns →
      let mark := l.st == .bound && (s.part n).selected.any fun k => k.prio == l.prio
      exec (.turn b p) s = .next (s.modLaunch n l.hseq fun l => { l with cancelled := false, turns := 0, marked := l.marked || mark }))

/-! ## Cuts -/

/-- R358 to R362, R364: the first marker of a cut stops the bay, and its memory nodes answer no deferred reader; a marker of a channel
brings its count. With all at rest and its wait counters spilled the bay takes its snapshot and sends its counts; with every count met it
reports to the origin; when all have reported the second stage begins; a bay answers with the rest of its part of the image. The image is
written as its parts come, and one that would pass its run's end cancels the cut; with the last part the launch is READY. A cancelled bay
leaves the cut: its recorded tokens are placed and its readers answered. That the whole image is laid out and written anew as it grows is
the model's reading (log 68). -/
def Obligations.Cuts : Prop :=
  (∀ b p s n l c, boundLaunch s b p.ctx = some (n, l) → l.st = .saving → l.cutNo = p.body 212 8 → s.ctx? b p.ctx = some c →
    let stops (s : State) : State := s.modBay b fun y =>
      { y with
        noReply := insertNat p.ctx y.noReply
        ctxs := AMap.upd y.ctxs p.ctx fun c => { c with cut := some ⟨l.cutNo, true, false, [], false⟩ } }
    let counts (s : State) : State := s.modCtx b p.ctx fun c =>
      { c with cut := c.cut.map fun q => { q with marks := q.marks ++ [(p.body 205 7, p.body 128 32)] } }
    (c.cut = none → p.body 200 1 = 1 → exec (.marker b p) s = .next (stops s)) ∧
    (c.cut = none → p.body 200 1 = 0 → exec (.marker b p) s = .next (counts (stops s))) ∧
    ∀ q, c.cut = some q → q.wseq = l.cutNo → p.body 200 1 = 0 → exec (.marker b p) s = .next (counts s)) ∧
  (∀ b ctx s c, s.ctx? b ctx = some c → snapReady s b ctx = true →
    let r := spillAll ctx (true, gatherTokens b ctx c.position s) b
    let t := saveFirst (r.2.modCtx b ctx fun c =>
      { c with cut := c.cut.map fun q => { q with snapped := true } }) b ctx ((c.cut.map (·.wseq)).getD 0)
    (r.1 = false → exec (.snapshot b ctx) s = .next r.2) ∧
    (r.1 = true → exec (.snapshot b ctx) s = .next (c.chansOut.foldl (fun u p => match c.bayAt p with
      | none => u
      | some d => u.emit (wavePacket 5 d b ctx ((c.cut.map (·.wseq)).getD 0) c.position 0 0 (AMap.getD c.sent p 0))) t))) ∧
  (∀ b ctx s c q, s.ctx? b ctx = some c → c.cut = some q → q.snapped = true → q.saved = false →
    (∀ a ∈ c.chansIn, ∃ m ∈ q.marks, m.1 = a ∧ m.2 % 2 ^ 32 = AMap.getD c.rcvd a 0 % 2 ^ 32) →
    exec (.baySaveComplete b ctx) s = .next ((s.modCtx b ctx fun c => { c with cut := c.cut.map fun q => { q with saved := true } }).emit
      (wavePacket 6 c.origin b ctx q.wseq c.position 0 0 0))) ∧
  (∀ b p s n l, cutOf s b p = some (n, l) →
    let got := insertNat (p.body 205 7) l.savedBy
    let t := s.modLaunch n l.hseq fun l => { l with savedBy := got }
    (got.length < l.rows * l.cols → exec (.saved b p) s = .next t) ∧
    (l.rows * l.cols ≤ got.length → p.body 205 7 ∉ l.savedBy → exec (.saved b p) s =
      .next ((t.regionMap n l).foldl (fun u d => u.emit (wavePacket 8 d b l.ctx l.cutNo 0 0 0 0)) t))) ∧
  (∀ b p s c n l, s.ctx? b p.ctx = some c → boundLaunch s b p.ctx = some (n, l) → l.st = .saving → l.cutNo = p.body 212 8 →
    exec (.lsave b p) s = .next ((growImage s n (l.saved s n) fun i =>
      { i with bays := AMap.upd i.bays c.position (saveRest s b p.ctx) }).emit (wavePacket 9 p.src b p.ctx l.cutNo c.position 0 0 0))) ∧
  (∀ b ctx s c n l, s.ctx? b ctx = some c → boundLaunch s b ctx = some (n, l) → l.st = .saving →
    saveFirst s b ctx l.cutNo = growImage s n (l.saved s n) fun i =>
      { i with bays := AMap.set i.bays c.position ⟨saveBay (s.bay b) ctx, [], []⟩ }) ∧
  (∀ s n (l : Launch) f i, l.image = some i →
    let p := s.part n
    let bs := imageBytes l (p.nbvOf l) (f i) (posIn (s.regionMap n l))
    (p.runEnd (f i).off < (f i).off + bs.length → growImage s n l f = cancelCut s n l 2) ∧
    ((f i).off + bs.length ≤ p.runEnd (f i).off → growImage s n l f =
      homeWrite (s.modLaunch n l.hseq fun l => { l with image := some { f i with len := bs.length } }) (imageEnc p n) (imageKey p (f i)) bs
        (List.replicate bs.length false))) ∧
  (∀ b p s n l, cutOf s b p = some (n, l) →
    let got := insertNat (p.body 205 7) l.lsavedBy
    (got.length < l.rows * l.cols → exec (.lsaved b p) s = .next (s.modLaunch n l.hseq fun l => { l with lsavedBy := got })) ∧
    (l.rows * l.cols ≤ got.length → exec (.lsaved b p) s = .next (completeImage s n l))) ∧
  ∀ b p s q, (s.ctx? b p.ctx).bind (·.cut) = some q → q.wseq = p.body 212 8 →
    exec (.cancel b p) s = .next (kick (leaveCut p.ctx s b) b)

/-! ## Commands on faults -/

/-- R351 to R354, R390: a command on an outstanding fault that it suits ends the fault, takes effect and reports DONE. RESUME lets go on
what the fault froze; DISCARD frees an instance that is not pinned without commit; END ends the launch; ZFILL lets a gather put zeros. One
that does not suit reports why and ends nothing; one on what a cut has saved waits for the restore. The driver's own end of a launch ends
it; that a command names the launch is the model's form (log 91). A precise stop is complete when every other instance is free or frozen:
the region freezes and BREAK is recorded. -/
def Obligations.FaultCommands : Prop :=
  (∀ n cmd s f, n ≤ Config.parts → bitsZero cmd 0 30 = true →
    (s.part n).faults.find? (fun f => f.dseq == bits cmd 32 32 && f.body.frz != 0) = some f →
    let d := bits cmd 32 32
    let result (u : State) (r : Nat) : State := u.modPart n fun p => { p with fcStat := word (d * 2 ^ 32 + r) }
    let t := s.modPart n fun p => { p with faults := p.faults.filter fun g => g.dseq != d }
    (bits cmd 30 2 = 0 → faultWaits s n f = false → exec (.fcmdResume n cmd) s = .next (result (resumeUnit n f t) 0)) ∧
    (bits cmd 30 2 = 0 → faultWaits s n f = true → exec (.fcmdResume n cmd) s = .next { s with flight := .fcmdResume n cmd :: s.flight }) ∧
    (bits cmd 30 2 = 2 → exec (.fcmdEnd n (.fault cmd)) s = .next (result (endLaunch t n f.body.lseq 3) 0)) ∧
    (bits cmd 30 2 = 1 → faultWaits s n f = false →
      (∀ b g ix i, f.unit = .inst b g ix → s.inst? b g ix = some i →
        (i.pinned = false → exec (.fcmdDiscard n cmd) s = .next (result (discardInst (purgeInst t b g ix) b g ix) 0)) ∧
        (i.pinned = true → exec (.fcmdDiscard n cmd) s = .next (result s 2))) ∧
      ((∀ b g ix, f.unit ≠ .inst b g ix) → exec (.fcmdDiscard n cmd) s = .next (result s 3))) ∧
    (bits cmd 30 2 = 3 → faultWaits s n f = false →
      (zfillRow f = none → exec (.fcmdZfill n cmd) s = .next (result s 4)) ∧
      ∀ b i p row, zfillRow f = some (b, i, p, row) → exec (.fcmdZfill n cmd) s = .next (result (t.modPort b i p fun q =>
        { q with stall := q.stall.filter (· != d), run := q.run.map fun x => { x with zfill := insertNat row x.zfill } }) 0))) ∧
  (∀ n h s, exec (.fcmdEnd n (.launch h)) s = .next (endLaunch s n h 3)) ∧
  (∀ n b g ix i s f, f.unit = .inst b g ix → s.inst? b g ix = some i →
    resumeUnit n f s = kick (takeReplies b g ix i.replies
      (goAgain b i.again ((s.unfreeze b g ix).modInst b g ix fun i => { i with replies := [] }))) b) ∧
  ∀ n h s l r, s.launch? n h = some l → l.brk = some r → l.st = .bound →
    (∀ b ∈ s.regionBays n l.ctx l.hseq, othersAll s b l.ctx (fun _ _ i => i.st == .frozen) = true) →
    exec (.preciseStopComplete n h) s = .next (((s.fault n r (.region h true)).freezeRegion n l.ctx h true).modLaunch n h fun l =>
      { l with brk := none, quiet := false })

/-! ## Translation -/

/-- R175, R179, R193, R194, R216, R340, R341, R343, R344, R346: a translation serves what asked for it: a fill becomes one read for each
piece of its line, an operation through an ordered site its request, an xlat the address and a null; one that fails stops the engine,
faults the operation, or delivers a null and the code; one that meets a migrating page, or finds no walk free, waits. A shootdown with the
next SSEQ removes the entries of its range, FLUSH and MIGRATE writing back first, and is complete when every access is performed, with its
status. -/
def Obligations.Translations : Prop :=
  (∀ b id s q, (s.bay b).xreqs.find? (fun q => q.id == id) = some q → q.parked = false → q.held = false →
    let taken := s.modBay b fun y => { y with xreqs := y.xreqs.filter fun q => q.id != id }
    (∀ k i x ls t, q.goal = .fill k i → s.site? b k = some x →
      let line := (x.bufs.getD i emptyBuf).line
      lineGuard (s.bay b) x.ctx k x line = none →
      translatePieces b (k - ((s.ctx? b x.ctx).map (·.siteBase)).getD 0) x (x.pieces line) s = .ok ls t →
      exec (.translate b id) s = .next (ls.foldl (fun u e => issueReq u b
        { unit := x.node, rqid := 0, home := e.1.homeNo, pkt := reqPacket b x.ctx e.1 0 0 0 e.2.2.2 x.node 1 0 0, sent := false
          goal := .fill k i e.2.2.1 e.2.2.2, since := (u.bay b).clk, ctx := x.ctx, deferred := false
          dead := false, va := if x.phys then none else some e.2.1 })
        (modBuf (t.modBay b fun y => { y with xreqs := y.xreqs.filter fun q => q.id != id }) b k i fun u =>
          { u with left := ls.length }))) ∧
    (∀ g ix l o, q.goal = .op g ix l → opOf s b ⟨g, ix, l⟩ = some o →
      exec (.translate b id) s = .next (kick (xlatOp s b id g ix o) b)) ∧
    ∀ el sl g ix c, q.goal = .xlat el sl g ix c →
      let hn := ((s.inst? b g ix).map (·.hnum)).getD 0
      let out (u : State) (v w : Token) : State := (u.sendTarget b g ix hn q.ctx xlatSrc c.t0 v).sendTarget b g ix hn q.ctx xlatSrc c.t1 w
      let need := { (if q.write then needW else needR) with kinds := [0, 2] }
      (∀ loc t, translateVa s b q.ctx q.va need = .ok loc t → exec (.translate b id) s = .next (out
        (t.modBay b fun y => { y with xreqs := y.xreqs.filter fun q => q.id != id }) (scTok (word loc.pa)) (nullOn (.sc 0)))) ∧
      (∀ code lvl, translateVa s b q.ctx q.va need = .fault code lvl → exec (.translate b id) s =
        .next (out taken (nullOn (.sc 0)) (scTok (word code)))) ∧
      (translateVa s b q.ctx q.va need = .busy → exec (.translate b id) s = .next s) ∧
      (translateVa s b q.ctx q.va need = .park → exec (.translate b id) s = .next (s.modBay b fun y =>
        { y with xreqs := y.xreqs.map fun q => if q.id = id then { q with parked := true } else q }))) ∧
  (∀ n cmd s, n < Config.parts → bits cmd 32 32 = ((s.part n).shootDone + 1) % 2 ^ 32 → bits cmd 28 4 = 0 → (s.part n).shoot = none →
    let begun (kind : Nat) : Host.Outcome State Fault Refusal := .next (shootOn (s.modPart n fun p =>
      { p with shoot := some ⟨bits cmd 32 32, kind, p.shootVa.toNat, bits cmd 0 26⟩ }) n).2
    (bits cmd 26 2 = 0 → exec (.shootdownInval n cmd) s = begun 0) ∧
    (bits cmd 26 2 = 1 → exec (.shootdownFlush n cmd) s = begun 1) ∧
    (bits cmd 26 2 = 2 → exec (.shootdownMigrate n cmd) s = begun 2)) ∧
  (∀ n k s b, ∀ e ∈ ((shootBay n k (true, s) b).2.bay b).tlb, e.part = n → k.covers e.base e.size = false) ∧
  ∀ n s k t, (s.part n).shoot = some k → shootOn s n = (true, t) → accessesDone t n k = true →
    let u := if k.kind = 1 then t.bayNos.foldl (flushFull n k) t else t
    let v := u.modPart n fun p =>
      { p with
        shoot := none, parked := [], shootDone := k.sseq
        shootStat := (if onceWaits t n k then 1 else 0) +
          (if (t.part n).launches.any fun l => l.image.any fun i => imageHolds k i then 2 else 0) }
    let w := v.bayNos.foldl (unpark n) v
    exec (.shootdownComplete n) s = .next (w.bayNos.foldl kick w)

/-! ## Errors, monitors, operating points -/

/-- R355, R380 to R385: a scrubber corrects a word, counted and logged, or poisons one it cannot; it skips a unit under a pending write;
the first is logged at once, and a location's later corrections are added up until its interval of 2^24 cycles of the bay ends. A reading
at or above its threshold raises one alarm until it has fallen below the hysteresis; droops deeper than the limit are counted and every
DROOPLIM of them raise an alarm; an interval below its limit raises one. An operating point is taken up, and is BUSY until it has
settled. -/
def Obligations.ErrorsAndMonitors : Prop :=
  (∀ b e s, exec (.configScrub b [e]) s = .next (if e.correctable then eccCorrected s e.loc (configIndex s b e) (some b) 0
    else eccDeferred (poisonConfig s b e) e.loc (configIndex s b e) (some b) 0)) ∧
  (∀ b e es s t, exec (.configScrub b [e]) s = .next t → exec (.configScrub b (e :: es)) s = exec (.configScrub b es) t) ∧
  (∀ b off err s, writePending s (loftKey b (off / 8 * 8)) 8 = true → exec (.loftScrub b off err) s = .next s) ∧
  (∀ a err s, writePending s (a / 32 * 32) 32 = true → exec (.lpddrScrub a err) s = .next s) ∧
  (∀ b off s, off < Config.slice → b < Config.bays →
    let a := loftKey b (off / 8 * 8)
    writePending s a 8 = false →
    exec (.loftScrub b off .clean) s = .next s ∧
    exec (.loftScrub b off .corrected) s = .next (eccCorrected s 9 (a / 0x10000) (some b) a) ∧
    exec (.loftScrub b off .uncorrectable) s =
      .next (eccDeferred { s with poison := insertNat a s.poison } 9 (a / 0x10000) (some b) a)) ∧
  (∀ a s, a < Config.lpddr →
    let q := a / 32 * 32
    writePending s q 32 = false →
    exec (.lpddrScrub a .clean) s = .next s ∧
    exec (.lpddrScrub a .corrected) s = .next (eccCorrected s 10 (q / 0x10000) none q) ∧
    exec (.lpddrScrub a .uncorrectable) s = .next (eccDeferred { s with pkgBad := insertNat q s.pkgBad } 10 (q / 0x10000) none q)) ∧
  (∀ loc k s e, s.ecc.find? (fun e => e.loc == loc && e.key == k) = some e →
    let t := { s with ecc := s.ecc.filter fun e => !(e.loc == loc && e.key == k) }
    (e.over s = true →
      exec (.eccCorrectedInterval loc k) s = .next (if e.more = 0 then t else logEcc t 0x81 loc e.idx e.bay 0 e.more)) ∧
    (e.over s = false → exec (.eccCorrectedInterval loc k) s = .next s) ∧
    ∀ b, e.bay = some b → (e.over s = true ↔ e.since + 2 ^ 24 ≤ (s.bay b).clk)) ∧
  (∀ (s : State) loc idx b addr, s.ecc.find? (fun e => e.loc == loc && e.key == eccKey idx (some b)) = none →
    eccCorrected s loc idx (some b) addr =
      logEcc { s with ecc := s.ecc ++ [⟨loc, idx, some b, 0, (s.bay b).clk⟩] } 0x81 loc idx (some b) addr 1) ∧
  (∀ b r s, b < Config.bays →
    let m := (s.bay b).mon
    let t (armed : Bool) : State := s.modBay b fun y => { y with mon := { m with temp := r, armed := armed } }
    (m.tempThr.toInt ≤ r.toInt → m.armed = true → exec (.tempSample b r) s = .next (alarm (t false) b 0x84 (r.signExtend 64) (m.tempThr.signExtend 64))) ∧
    (m.tempThr.toInt ≤ r.toInt → m.armed = false → exec (.tempSample b r) s = .next (t false)) ∧
    (r.toInt < m.tempThr.toInt - m.tempHys.toNat → exec (.tempSample b r) s = .next (t true)) ∧
    (r.toInt < m.tempThr.toInt → m.tempThr.toInt - m.tempHys.toNat ≤ r.toInt → exec (.tempSample b r) s = .next (t m.armed))) ∧
  (∀ b depth s, b < Config.bays → bits (s.bay b).mon.droopCfg 0 16 < depth →
    let m := (s.bay b).mon
    let lim := bits m.droopCfg 16 16
    let t (since : BitVec 32) : State := s.modBay b fun y => { y with mon := { m with droopCnt := m.droopCnt + 1, droopAt := since } }
    (lim = 0 ∨ (m.droopCnt + 1 - m.droopAt).toNat < lim → exec (.voltageDroop b depth) s = .next (t m.droopAt)) ∧
    (0 < lim → lim ≤ (m.droopCnt + 1 - m.droopAt).toNat → exec (.voltageDroop b depth) s =
      .next (alarm (t (m.droopCnt + 1)) b 0x85 ((m.droopCnt + 1).setWidth 64) (word lim)))) ∧
  (∀ b c s, b < Config.bays →
    let t := s.modBay b fun y => { y with mon := { y.mon with procNow := c } }
    let lo := (s.bay b).mon.procMin
    exec (.processInterval b c) s = .next (if c.toNat < lo.toNat then alarm t b 0x86 (c.setWidth 64) (lo.setWidth 64) else t)) ∧
  (∀ d op s, d < 2 → op < 4 → (s.dieOp d).busy = false →
    ∃ t, exec (.dieopWrite d (word op)) s = .next t ∧ t.dieOp d = ⟨op, true⟩ ∧ ∀ e, e ≠ d → t.dieOp e = s.dieOp e) ∧
  ∀ d s x, AMap.get? s.dieop d = some x → ∃ t, exec (.operatingPointSettled d) s = .next t ∧ t.dieOp d = ⟨x.op, false⟩

/-! ## Partitions -/

/-- R371 to R378, R347, R404: a still partition is created with EN, its series begun, an enclave's bays zeroised; it is taken down
with EN clear, the other fields as they were; bays that join or leave an enclave are zeroised; a bay is free again
once it is being zeroised for no partition. A policy in range is taken. An unseal
of an enclave decrypts to its destination and compares; an attest writes the report and its signature; boot measures its stages, and
clears the on-die storage before the device is up; a register that only stores is written. -/
def Obligations.Partitions : Prop :=
  (∀ n v s, n < Config.parts → onlyIn v [(60, 4), (44, 16), (1, 1)] = true → (s.part n).still = true →
    let p := s.part n
    (v.getLsbD 63 = true → p.en = false → bayTaken s n p = false →
      let t := s.modPart n fun p => p.create0 v (nextEpoch s)
      exec (.pctlWrite n v) s = .next (if v.getLsbD 62 then wipeBays t n p.bayList else t) ∧
      (t.part n).en = true ∧ (t.part n).hacc = 0 ∧ (t.part n).dnext = 1 ∧ (t.part n).scopePol = 5 ∧ (t.part n).dbgctl = false) ∧
    (v.getLsbD 63 = false → p.en = true →
      let t := s.modPart n fun p => { p with pctl := putBits p.pctl 63 1 0 }
      exec (.pctlWrite n v) s = .next (if p.encl then wipeBays t n p.bayList else t) ∧ (t.part n).en = false)) ∧
  (∀ n k v s, n < Config.parts → k < 3 → (k = 2 → bitsZero v 32 32 = true) → (s.part n).still = true →
    let p := s.part n
    let q := if k = 0 then { p with bays0 := v } else if k = 1 then { p with bays1 := v } else { p with bays2 := v }
    (p.en = true → bayTaken s n q = false) →
    exec (.baysWrite n k v) s = .next (if p.en && p.encl then
      wipeBays (s.modPart n fun _ => q) n ((List.range Config.bays).filter fun b => p.hasBay b != q.hasBay b)
      else s.modPart n fun _ => q)) ∧
  (∀ n s, ∃ t, exec (.zeroiseComplete n) s = .next t ∧ (∀ e ∈ t.zeroQ, e.1 ≠ n ∧ e ∈ s.zeroQ) ∧ (t.part n).zbusy = false ∧
    ∀ e ∈ s.zeroQ, e.1 = n →
      ((∀ z ∈ s.zeroQ, z.2 = e.2 → z.1 = n) → (t.bay e.2).zero = false) ∧
      ((∃ z ∈ s.zeroQ, z.2 = e.2 ∧ z.1 ≠ n) → (t.bay e.2).zero = (s.bay e.2).zero)) ∧
  (∀ n v s, n < Config.parts →
    (∀ k, 3 ≤ k → k ≤ 5 → ∀ sat < 2, v = word (8 * sat + k) →
      exec (.scopepolWrite n v) s = .next (s.modPart n fun p => { p with scopePol := 8 * sat + k })) ∧
    (v = 0 → exec (.dbgctlWrite n v) s = .next (s.modPart n fun p => { p with dbgctl := false })) ∧
    (v = 1 → (s.part n).hidesBrk = false → exec (.dbgctlWrite n v) s = .next (s.modPart n fun p => { p with dbgctl := true })) ∧
    (v = 1 → (s.part n).hidesBrk = true → exec (.dbgctlWrite n v) s = .next s)) ∧
  (∀ n v s, n < Config.parts → onlyIn v [(32, 32)] = true → sealParked s n = false → (s.part n).sealSt ≠ 1 →
    bits v 32 32 = ((s.part n).sealSeq + 1) % 2 ^ 32 →
    let p := s.part n
    let seq := bits v 32 32
    let h := s.readBytes p.sealSrc.toNat 1664
    let len := fieldOf h 4 4
    let answers (u : State) (st : Nat) : Prop :=
      exec (.unsealBlob n v) s = .next (u.modPart n fun p => { p with sealSeq := seq, sealSt := st })
    (p.encl = false → answers s 2) ∧
    (p.encl = true → blobOk h len = false → answers s 3) ∧
    (p.encl = true → blobOk h len = true →
      let ss := sharedSecret p.epochNo ((h.drop 72).take 1568)
      let k := sha3Val (ss ++ h.take 8)
      let plain := (List.range (len / 32)).map fun u =>
        xtsUnit true (k.extractLsb' 256 256) (k.extractLsb' 0 256) u (s.readBytes (p.sealSrc.toNat + 1664 + 32 * u) 32)
      ∀ loc u t, sealWrite n (plain.zipIdx.map fun e => (p.sealDst.toNat + 32 * e.2, e.1)) s = (.ok loc u, t) →
        (sha3 (ss ++ plain.flatten) = (h.drop 8).take 64 → answers t 0) ∧
        (sha3 (ss ++ plain.flatten) ≠ (h.drop 8).take 64 →
          answers (sealWrite n (plain.zipIdx.map fun e => (p.sealDst.toNat + 32 * e.2, List.replicate 32 0)) t).2 4))) ∧
  (∀ n v s, onlyIn v [(6, 46)] = true → vfUp s n = true →
    let a := hostKey n v.toNat
    let r := reportBody s n (s.readBytes a 64)
    exec (.attest n v) s = .next (s.writeBytes a
      (r ++ dsaSign identityXi (leBytes 32 (Config.signRnd s.freeCtr).toNat) (sha3 r) ++ List.replicate 29 0) false)) ∧
  (∀ s m, s.boot = .off → bootStages Config.stages 1 (sha3 Config.romImage) = .up m → ∃ t, exec .boot s = .next t ∧ t.boot = .up m ∧
    t.bays = [] ∧ (∀ a, onDie a = true → t.byte a = 0 ∧ a ∉ t.poison) ∧ ∀ a, onDie a = false → t.byte a = s.byte a) ∧
  ∀ n v s, n < Config.parts →
    (v.toNat ≤ Config.bays → exec (.registerWrite (0x380000 + 8 * n) v) s = .next (s.modPart n fun p => { p with quota := v.toNat })) ∧
    (onlyIn v [(20, 32), (0, 1)] = true → exec (.registerWrite (0x381000 + 64 * n) v) s = .next (s.modPart n fun p => { p with troot := v })) ∧
    (onlyIn v [(16, 36)] = true → exec (.registerWrite (0x381008 + 64 * n) v) s = .next (s.modPart n fun p => { p with gdtBase := v })) ∧
    (onlyIn v [(0, 32)] = true → exec (.registerWrite (0x383008 + 64 * n) v) s = .next (s.modPart n fun p => { p with fqCons := v.toNat }))

/-! ## Trace -/

/-- R392 to R397: TBCTL with OPEN begins a session at the start of its buffer, with BEGIN on every bay of its launches, while none is
open; with OPEN clear it closes one, whose END is written once all its records are; the writer takes its queue in order; CQRESET ends
the launches of the contexts it names, and their sessions once they have drained. That a session begins at offset 0 of its buffer is the
model's reading (log 42). -/
def Obligations.TraceSessions : Prop :=
  (∀ n ctx v s, n < Config.parts → ctx < 8 → onlyIn v [(63, 1), (62, 1), (7, 1), (6, 1), (5, 1), (4, 1), (0, 4)] = true →
    let t := (s.part n).tbuf ctx
    (v.getLsbD 63 = true → t.isOpen = false → exec (.traceSessionOpen n ctx v) s = .next (beginTrace n ctx (s.modPart n fun p =>
      p.setTbuf ctx { t with
        ctl := v, wptr := 0, lost := 0, queue := [], owedQ := [], owed := [], closing := none, since := 0, sinceBay := 0, logged := 0 }))) ∧
    (v.getLsbD 63 = false → t.isOpen = true → t.closing = none →
      exec (.traceSessionClose n ctx v) s =
        .next (closeIfDrained n ctx (s.modPart n fun p => p.setTbuf ctx { t with closing := some false })))) ∧
  (∀ n ctx s, ((s.part n).tbuf ctx).isOpen = true →
    exec (.traceRecordWrite n ctx) s = .next (closeIfDrained n ctx (writeTrace n ctx s))) ∧
  (∀ (t : TraceBuf) len pad w, t.placeFor len = some (pad, w) → len ≤ 4096 → w % 4096 + len ≤ 4096 ∧ w + len ≤ t.bytes) ∧
  (∀ n ctx o src r (s : State) w, AMap.getD ((s.part n).tbuf ctx).owed src 0 = 0 →
    ((s.part n).tbuf ctx).placeFor (8 * r.length) = some (0, w) →
    putRecord n ctx o src r s =
      ((s.writeBytes (bits ((s.part n).tbuf ctx).base 16 36 * 0x10000 + w) (wordsBytes r) false).modPart n
        fun p => p.setTbuf ctx { p.tbuf ctx with wptr := w + 8 * r.length }).modPart n
        fun p => p.setTbuf ctx { p.tbuf ctx with owed := AMap.erase (p.tbuf ctx).owed src }) ∧
  (∀ n v s, n < Config.parts → onlyIn v [(0, 8)] = true →
    exec (.cqreset n v) s = .next ((setBits (v.setWidth 8)).foldl (resetCtx n) s)) ∧
  ∀ n ctx s, ((s.part n).tbuf ctx).closing = some true → traceDrained s n ctx = true →
    exec (.traceResetEnd n ctx) s = .next (endTrace n ctx 1 s)

/-! ## Encoding, the step, the machine as a whole -/

/-- R73 to R91: a word that the encoder writes for a well-formed instruction is read back as that instruction, with every operand,
from the word, from its bytes in memory and from the numbered bits of the opcode table; and a word that is read as an instruction is
the one word the encoder writes for it. -/
def Obligations.DecodeEncode : Prop :=
  (∀ i w, i.wf = true → encode i = some w →
    decodeWord w = .ok i ∧ (∀ bs, decodeBytes (leBytes 8 w.toNat ++ bs) = .ok (i, bs)) ∧ decodeTableWord 64 w.toNat = some i) ∧
  ∀ i w, decodeWord w = .ok i → i.wf = true ∧ encode i = some w

/-- R73 to R85, R91: words written out from the encoding tables, and what each stands for: a div of s32 that sends its quotient to T0 and
T1, an add of s16 with saturation and an immediate, an exit, a load, an island command, a range command; the empty slot, PM 11 and an
unassigned opcode are refused by name. -/
def Obligations.DecodeWords : Prop :=
  decodeWord 0x0A08_2204_6800_0000 =
    .ok (.div ⟨.always, false, .s32, 0x088, 0x08D⟩ ⟨false, .rn, false, 0, 0⟩) ∧
  decodeWord 0x0184_613F_FC80_FFFB =
    .ok (.add ⟨.ifFalse, false, .s16, 0x184, 0x7FF⟩ ⟨true, .rn, true, 0, 0xFFFB⟩) ∧
  decodeWord 0x805F_FFFF_F800_0048 =
    .ok (.exit ⟨.ifTrue, false, .v, 0x7FF, 0x7FF⟩ ⟨0, 0, 0, 0, .inc, 1, 0⟩) ∧
  decodeWord 0x8844_4914_0818_92FF =
    .ok (.ld ⟨.ifTrue, false, .s16, 0x124, 0x281⟩ ⟨0x03, 0x02, .acq, .bay, false, 0xFF⟩) ∧
  decodeWord 0xB01E_043F_F820_2800 =
    .ok (.mma ⟨.always, false, .v, 0x010, 0x7FF⟩ ⟨.mx, 1, 5, 0⟩) ∧
  decodeWord 0xC91E_0100_4000_0000 =
    .ok (.rngnext ⟨.always, false, .v, 0x004, 0x008⟩ ⟨0, 0⟩) ∧
  decodeWord 0 = .error .empty ∧ decodeWord 0x01C0_0000_0000_0000 = .error .pm ∧
  decodeWord 0x2200_0000_0000_0000 = .error .opcode

/-- R9, R17, R19, R36, R46, R77, R352, R353: what the device chooses to do next is what a step does: it runs the chosen instruction on the
machine as the choice leaves it, and the step's end follows; with nothing to do time passes. Of
sets of a bay that would fault while its clock stands still, each instance's is the one of the lower span element, then of the lower slot,
and the one of the lower bay element, then slot, goes first (that they count as faulting in one cycle is the model's, log 86).
A set that an element takes runs the instruction of its slot's word, or, where the word is poisoned, another context's, none, or one whose
fields do not stand there, freezes its instance. A word placed for a reset machine (log 5) is what its next step runs. -/
def Obligations.StepRuns : Prop :=
  (∀ s, chosen s = none → step s = .next (tick s)) ∧
  (∀ s c t, chosen s = some c → Cand.start (tick s) c = (none, t) → step s = .next (Cand.finish s 0 c t)) ∧
  (∀ s c i t u, chosen s = some c → Cand.start (tick s) c = (some i, t) → exec i t = .next u →
    step s = .next (Cand.finish s (Cand.result s t c) c u)) ∧
  (∀ s c, choose s = some c →
    (Cand.set s c = none ∨ faults s c = false → chosen s = some c) ∧
    ∀ b m, Cand.set s c = some (b, m) → faults s c = true → c ∈ fireCands s b (s.bay b) →
      let place (c : Cand) : Nat := ((Cand.set s c).map fun e => e.2.place).getD 0
      ∃ k ∈ fireCands s b (s.bay b), chosen s = some (if Config.ticks b (s.freeCtr + 1) = 0 then k else c) ∧ faults s k = true ∧
        ∀ d ∈ fireCands s b (s.bay b), faults s d = true → reportedFor s b d k = false ∧
          ((∀ x ∈ fireCands s b (s.bay b), faults s x = true → reportedFor s b x d = false) → place k ≤ place d)) ∧
  (∀ (s : State) b e k m, (s.elem b e).issue[k]? = some m →
    let t := s.modElem b e fun x => { x with issue := dropAt x.issue k }
    let c := t.slot b m.el m.slot
    let illegal (cause : Nat) (d2 : Word) : Option Instr × State := (none, slotFault 0x01 (c.word, word cause, d2, 0) b m t)
    stopDrops t b m = false →
      (c.poison = true → Cand.start s (.fire b e k) = (none, slotFault 0x20 (locWord 0 m.el, 0, 0, 0) b m t)) ∧
      (c.poison = false → c.ctx ≠ m.ctx → Cand.start s (.fire b e k) = illegal 4 (word m.ctx)) ∧
      (c.poison = false → c.ctx = m.ctx →
        (∀ i, decodeWord c.word = .ok i → fieldsStand t b m c i = true →
          Cand.start s (.fire b e k) = (some i, { t with fire := some (b, m) })) ∧
        (∀ i, decodeWord c.word = .ok i → fieldsStand t b m c i = false → Cand.start s (.fire b e k) = illegal 2 0) ∧
        ∀ x, decodeWord c.word = .error x →
          Cand.start s (.fire b e k) = illegal (if x = .short ∨ x = .empty ∨ x = .opcode then 1 else 2) 0)) ∧
  (∀ (s : State) i k, s.flight[k]? = some i →
    Cand.start s (.flight k) = (some i, { s with flight := dropAt s.flight k })) ∧
  (∀ (s : State) i k, s.inputs[k]? = some i →
    (isFcmd i = false → Cand.start s (.input k) = (some i, { s with inputs := dropAt s.inputs k })) ∧
    (isFcmd i = true → Cand.start s (.input k) = (none, { s with inputs := dropAt s.inputs k, flight := s.flight ++ [i] }))) ∧
  ∀ nbits w i, decodeTableWord nbits w = some i →
    let s := State.reset.withFetchWord nbits w
    ∃ t, chosen s = some (.fire 0 0 0) ∧ Cand.start (tick s) (.fire 0 0 0) = (some i, t) ∧
      t.fire = some (0, placedSet (word (w % 2 ^ Nat.min nbits 64)))

/-- R378, R404: at power-on the device is not booted, lists no byte of memory, has no bay configured, no partition and nothing under
way; boot is all that can happen. That a register for which the spec gives no reset value is zero is the model's choice (log 1). -/
def Obligations.ResetState : Prop :=
  let s := State.reset
  Memory.wf s = true ∧ s.boot = .off ∧ s.flight = [] ∧ s.bays = [] ∧ s.parts = [] ∧
  (∀ a, onDie a = true → s.byte a = 0) ∧
  (∀ n, (s.part n).en = false ∧ (s.part n).launches = []) ∧
  chosen s = some (.own .boot)

/-- Every step of the machine keeps its memory in the one form the model gives it (log 2): addresses rising, no cell that holds
what an unlisted address reads as; so equal memories are equal lists, whatever wrote them. -/
def Obligations.MemoryKept : Prop :=
  ∀ s t, Memory.wf s = true → step s = .next t → Memory.wf t = true

/-- Frame: every instruction, slot instruction or step of the machine, answers a next state from every state, and leaves every field
of the state alone that is not among those it may touch; where it may not touch memory, every byte of memory reads as before. -/
def Obligations.ExecFrame : Prop :=
  ∀ i s, ∃ t, exec i s = .next t ∧ (∀ f, f ∉ touches i → f.same s t) ∧
    (Field.mem ∉ touches i → ∀ a, t.byte a = s.byte a) ∧ (Memory.wf s = true → Memory.wf t = true)

/-- R222, R309, R319, R320, R324, R378, R385: what one step of the machine may change only by the instruction named for it: boot's outcome
by a boot, the link by its going down or coming up, DEVNUM by a register write, the set of offline bays by their marking, the bridges by a
loss, the operating points by DIEOP or their settling, the splice links by their going down or coming up, and the channels, but for their
coming UP, or ceasing to be, as their far ends name them or no longer do, by a splice binding or the splice links; a byte of memory by an
instruction that may write memory. -/
def Obligations.OnlyBy : Prop :=
  ∀ s t, step s = .next t →
    let through (p : Instr → Prop) : Prop := ∃ c i u, chosen s = some c ∧ Cand.start (tick s) c = (some i, u) ∧ p i
    (t.boot ≠ s.boot → through (· = .boot)) ∧
    (t.link ≠ s.link → through fun i => i = .linkDown ∨ i = .linkUp) ∧
    (t.devnum ≠ s.devnum → through fun i => ∃ a v, i = .registerWrite a v) ∧
    (t.offline ≠ s.offline → through fun i => ∃ a v, i = .markOffline a v) ∧
    (t.dieop ≠ s.dieop → through fun i => (∃ d v, i = .dieopWrite d v) ∨ ∃ d, i = .operatingPointSettled d) ∧
    (t.bridgeLost ≠ s.bridgeLost → through fun i => ∃ d, i = .bridgeLinkDown d) ∧
    (t.spliceDown ≠ s.spliceDown → through fun i => (∃ p, i = .spliceLinkDown p) ∨ ∃ p, i = .spliceLinkUp p) ∧
    let links (s : State) := s.chans.map fun e => (e.1, e.2.word, e.2.lost)
    (links t ≠ links s → through fun i =>
      (∃ n c v, i = .spliceBindingWrite n c v) ∨ (∃ p, i = .spliceLinkDown p) ∨ ∃ p, i = .spliceLinkUp p) ∧
    ∀ a, t.byte a ≠ s.byte a → through fun i => Field.mem ∈ touches i
end

