-- ==== Sys2Proof/Laws/Memory.lean ====
section
/-!
SUPPORT. Sys2Proof/Laws/Memory.lean: the memory list. Each operation on it keeps the canonical form, and a read after a
write answers the written bytes at the written addresses and the earlier bytes elsewhere.
-/
namespace Sys2Proof.Machine

open Sys2Proof

/-! ## The canonical form -/

/-- The form, one entry at a time: it does not read as an unlisted byte, and every later address is greater. -/
theorem memWf_cons (a : Nat) (v : Byte) (m : List Host.Cell) :
    memWf ((a, v) :: m) = true ↔ some v ≠ unlisted a ∧ (∀ c ∈ m, a < c.1) ∧ memWf m = true := by
  induction m generalizing a v with
  | nil => simp [memWf]
  | cons c m ih =>
    obtain ⟨b, w⟩ := c
    simp only [memWf, Bool.and_eq_true, bne_iff_ne, decide_eq_true_eq, List.mem_cons, forall_eq_or_imp]
    constructor
    · rintro ⟨⟨h1, h2⟩, h3⟩
      exact ⟨h1, ⟨h2, fun c hc => h2.trans (((ih b w).1 h3).2.1 c hc)⟩, h3⟩
    · rintro ⟨h1, ⟨h2, -⟩, h3⟩
      exact ⟨⟨h1, h2⟩, h3⟩

theorem memWf_nil : memWf [] = true := rfl

/-- A sublist keeps the form. -/
theorem memWf_filter (p : Host.Cell → Bool) {m : List Host.Cell} (h : memWf m = true) : memWf (m.filter p) = true := by
  induction m with
  | nil => rfl
  | cons c m ih =>
    obtain ⟨a, v⟩ := c
    rw [memWf_cons] at h
    by_cases hp : p (a, v)
    · rw [List.filter_cons_of_pos hp, memWf_cons]
      exact ⟨h.1, fun c hc => h.2.1 c (List.mem_of_mem_filter hc), ih h.2.2⟩
    · rw [List.filter_cons_of_neg hp]
      exact ih h.2.2

theorem mem_memPut {m : List Host.Cell} {k : Nat} {v : Byte} {c : Host.Cell} (h : c ∈ memPut m k v) :
    c = (k, v) ∨ c ∈ m := by
  induction m with
  | nil => simpa [memPut] using h
  | cons d m ih =>
    obtain ⟨a, x⟩ := d
    simp only [memPut] at h
    split at h
    · simpa using h
    · split at h
      · rcases List.mem_cons.1 h with h | h
        · exact .inl h
        · exact .inr (List.mem_cons_of_mem _ h)
      · rcases List.mem_cons.1 h with h | h
        · exact .inr (by simp [h])
        · rcases ih h with h | h
          · exact .inl h
          · exact .inr (List.mem_cons_of_mem _ h)

theorem memWf_memPut {m : List Host.Cell} {k : Nat} {v : Byte} (hv : some v ≠ unlisted k) (h : memWf m = true) :
    memWf (memPut m k v) = true := by
  induction m with
  | nil => simpa [memPut, memWf] using hv
  | cons d m ih =>
    obtain ⟨a, x⟩ := d
    have hd := (memWf_cons a x m).1 h
    simp only [memPut]
    split
    · rename_i hk
      rw [memWf_cons]
      refine ⟨hv, fun c hc => ?_, h⟩
      rcases List.mem_cons.1 hc with rfl | hc
      · exact hk
      · exact hk.trans (hd.2.1 c hc)
    · split
      · rename_i hk
        subst hk
        rw [memWf_cons]
        exact ⟨hv, hd.2.1, hd.2.2⟩
      · rename_i h1 h2
        rw [memWf_cons]
        refine ⟨hd.1, fun c hc => ?_, ih hd.2.2⟩
        rcases mem_memPut hc with rfl | hc
        · omega
        · exact hd.2.1 c hc

theorem memDrop_subset {m : List Host.Cell} {k : Nat} {c : Host.Cell} (h : c ∈ memDrop m k) : c ∈ m := by
  induction m with
  | nil => simp [memDrop] at h
  | cons d m ih =>
    obtain ⟨a, x⟩ := d
    simp only [memDrop] at h
    split at h
    · exact List.mem_cons_of_mem _ h
    · rcases List.mem_cons.1 h with h | h
      · simp [h]
      · exact List.mem_cons_of_mem _ (ih h)

theorem memWf_memDrop {m : List Host.Cell} (k : Nat) (h : memWf m = true) : memWf (memDrop m k) = true := by
  induction m with
  | nil => rfl
  | cons d m ih =>
    obtain ⟨a, x⟩ := d
    have hd := (memWf_cons a x m).1 h
    simp only [memDrop]
    split
    · exact hd.2.2
    · rw [memWf_cons]
      exact ⟨hd.1, fun c hc => hd.2.1 c (memDrop_subset hc), ih hd.2.2⟩

/-- Writing one byte keeps the form. -/
theorem memWf_memSet {m : List Host.Cell} (k : Nat) (v : Byte) (h : memWf m = true) : memWf (memSet m k v) = true := by
  unfold memSet
  split
  · exact memWf_memDrop k h
  · exact memWf_memPut ‹_› h

/-- Writing bytes one after another keeps the form. -/
theorem memWf_putBytes (bs : List Byte) {m : List Host.Cell} (a : Nat) (h : memWf m = true) :
    memWf (putBytes m a bs) = true := by
  induction bs generalizing m a with
  | nil => exact h
  | cons b bs ih => exact ih (a + 1) (memWf_memSet a b h)

/-! ## Reading back -/

/-- What an address of a memory list reads as, none where nothing is known. -/
def memRead (m : List Host.Cell) (a : Nat) : Option Byte := (memGet? m a).orElse fun _ => unlisted a

theorem memGet?_of_lt {m : List Host.Cell} {k : Nat} (h : ∀ c ∈ m, k < c.1) : memGet? m k = none := by
  induction m with
  | nil => rfl
  | cons d m ih =>
    obtain ⟨a, x⟩ := d
    have ha : k < a := h (a, x) (List.mem_cons_self ..)
    simp only [memGet?]
    rw [if_neg (by omega)]
    exact ih fun c hc => h c (List.mem_cons_of_mem _ hc)

theorem memGet?_memPut (m : List Host.Cell) (k : Nat) (v : Byte) (a : Nat) :
    memGet? (memPut m k v) a = if k = a then some v else memGet? m a := by
  induction m with
  | nil => simp [memPut, memGet?]
  | cons d m ih =>
    obtain ⟨b, x⟩ := d
    simp only [memPut]
    split
    · simp [memGet?]
    · split
      · rename_i hk
        subst hk
        by_cases hb : k = a <;> simp [memGet?, hb]
      · rename_i h1 h2
        simp only [memGet?, ih]
        by_cases hb : b = a
        · subst hb
          simp [h2]
        · simp [hb]

theorem memGet?_memDrop {m : List Host.Cell} (k a : Nat) (h : memWf m = true) :
    memGet? (memDrop m k) a = if k = a then none else memGet? m a := by
  induction m with
  | nil => simp [memDrop, memGet?]
  | cons d m ih =>
    obtain ⟨b, x⟩ := d
    have hd := (memWf_cons b x m).1 h
    simp only [memDrop]
    split
    · rename_i hk
      subst hk
      by_cases ha : k = a
      · subst ha
        simpa using memGet?_of_lt hd.2.1
      · simp [memGet?, ha]
    · rename_i hk
      simp only [memGet?, ih hd.2.2]
      by_cases hb : b = a
      · subst hb
        simp [hk]
      · simp [hb]

/-- A byte written reads back, and every other address reads as before. -/
theorem memRead_memSet {m : List Host.Cell} (k : Nat) (v : Byte) (a : Nat) (h : memWf m = true) :
    memRead (memSet m k v) a = if k = a then some v else memRead m a := by
  unfold memSet memRead
  split
  · rename_i hv
    rw [memGet?_memDrop k a h]
    by_cases hk : k = a
    · subst hk
      simp [← hv]
    · simp [hk]
  · rw [memGet?_memPut]
    by_cases hk : k = a <;> simp [hk]

/-- Bytes written one after another read back, and every other address reads as before. -/
theorem memRead_putBytes (bs : List Byte) {m : List Host.Cell} (a : Nat) (x : Nat) (h : memWf m = true) :
    memRead (putBytes m a bs) x = if a ≤ x ∧ x < a + bs.length then bs[x - a]? else memRead m x := by
  induction bs generalizing m a with
  | nil => simp [putBytes]
  | cons b bs ih =>
    simp only [putBytes]
    rw [ih (a + 1) (memWf_memSet a b h), memRead_memSet a b x h]
    by_cases h1 : a = x
    · subst h1
      simp
    · by_cases h2 : a + 1 ≤ x ∧ x < a + 1 + bs.length
      · rw [if_pos h2, if_pos ⟨by omega, by simp; omega⟩]
        obtain ⟨d, hd⟩ : ∃ d, x - a = d + 1 := ⟨x - a - 1, by omega⟩
        rw [show x - (a + 1) = d by omega, hd]
        simp
      · rw [if_neg h2, if_neg h1, if_neg (by simp; omega)]

/-- What a state reads at an address is what its list reads there. -/
theorem byte_eq_memRead (s : State) (a : Nat) : s.byte a = (memRead s.mem a).getD (Config.powerOnByte a) := by
  unfold State.byte memRead
  cases memGet? s.mem a <;> simp

/-! ## Writes of a state -/

theorem State.writeBytes_mem (s : State) (a : Nat) (bs : List Byte) (poi : Bool) :
    (s.writeBytes a bs poi).mem = putBytes s.mem a bs := by
  unfold State.writeBytes
  dsimp only
  split <;> rfl

/-- A write at a home reads back, and changes no other byte (R4). -/
theorem State.byte_writeBytes (s : State) (a : Nat) (bs : List Byte) (poi : Bool) (x : Nat) (h : Memory.wf s = true) :
    (s.writeBytes a bs poi).byte x = if a ≤ x ∧ x < a + bs.length then bs.getD (x - a) 0 else s.byte x := by
  simp only [byte_eq_memRead, State.writeBytes_mem, memRead_putBytes bs a x h]
  split
  · rename_i hx
    have : x - a < bs.length := by omega
    simp [List.getD, List.getElem?_eq_getElem this]
  · rfl

end Sys2Proof.Machine
end

