-- ==== Sys2Proof/Laws/Frame.lean ====
section
/-!
SUPPORT. Sys2Proof/Laws/Frame.lean: what an operation leaves alone, said once (`Kept`), with its small lemmas: record updates,
results that carry a state, folds, and the operations that write memory.
-/
namespace Sys2Proof.Machine

open Sys2Proof

/-- The memory list of `s` is in its form where that of `o` is, and `s` agrees with `o` in the fields `K` names. -/
structure Kept (K : Field → Bool) (o s : State) : Prop where
  form : memWf o.mem = true → memWf s.mem = true
  same : ∀ f, K f = true → f.same o s

/-- A field that an operation may change: nothing is said of it. -/
class Free (K : Field → Bool) (f : Field) : Prop where
  out : K f = false

theorem Free.no {K : Field → Bool} {f : Field} [h : Free K f] {p : Prop} (e : K f = true) : p := by
  rw [h.out] at e
  cases e

theorem kept_bays {K : Field → Bool} {o t : State} [Free K .bays] {v0} (h : Kept K o t) :
    Kept K o { t with bays := v0 } :=
  ⟨h.form, fun f e => by cases f <;> first | exact h.same _ e | exact Free.no e⟩

theorem kept_boot {K : Field → Bool} {o t : State} [Free K .boot] {v0} (h : Kept K o t) :
    Kept K o { t with boot := v0 } :=
  ⟨h.form, fun f e => by cases f <;> first | exact h.same _ e | exact Free.no e⟩

theorem kept_bridgeLost {K : Field → Bool} {o t : State} [Free K .bridgeLost] {v0} (h : Kept K o t) :
    Kept K o { t with bridgeLost := v0 } :=
  ⟨h.form, fun f e => by cases f <;> first | exact h.same _ e | exact Free.no e⟩

theorem kept_chans {K : Field → Bool} {o t : State} [Free K .chans] {v0} (h : Kept K o t) :
    Kept K o { t with chans := v0 } :=
  ⟨h.form, fun f e => by cases f <;> first | exact h.same _ e | exact Free.no e⟩

theorem kept_chans_spliceDown {K : Field → Bool} {o t : State} [Free K .chans] [Free K .spliceDown] {v0 v1} (h : Kept K o t) :
    Kept K o { t with chans := v0, spliceDown := v1 } :=
  ⟨h.form, fun f e => by cases f <;> first | exact h.same _ e | exact Free.no e⟩

theorem kept_devnum {K : Field → Bool} {o t : State} [Free K .devnum] {v0} (h : Kept K o t) :
    Kept K o { t with devnum := v0 } :=
  ⟨h.form, fun f e => by cases f <;> first | exact h.same _ e | exact Free.no e⟩

theorem kept_dieop {K : Field → Bool} {o t : State} [Free K .dieop] {v0} (h : Kept K o t) :
    Kept K o { t with dieop := v0 } :=
  ⟨h.form, fun f e => by cases f <;> first | exact h.same _ e | exact Free.no e⟩

theorem kept_ecc {K : Field → Bool} {o t : State} [Free K .ecc] {v0} (h : Kept K o t) :
    Kept K o { t with ecc := v0 } :=
  ⟨h.form, fun f e => by cases f <;> first | exact h.same _ e | exact Free.no e⟩

theorem kept_fire {K : Field → Bool} {o t : State} [Free K .fire] {v0} (h : Kept K o t) :
    Kept K o { t with fire := v0 } :=
  ⟨h.form, fun f e => by cases f <;> first | exact h.same _ e | exact Free.no e⟩

theorem kept_flight {K : Field → Bool} {o t : State} [Free K .flight] {v0} (h : Kept K o t) :
    Kept K o { t with flight := v0 } :=
  ⟨h.form, fun f e => by cases f <;> first | exact h.same _ e | exact Free.no e⟩

theorem kept_flight_inputs {K : Field → Bool} {o t : State} [Free K .flight] [Free K .inputs] {v0 v1}
    (h : Kept K o t) : Kept K o { t with flight := v0, inputs := v1 } :=
  ⟨h.form, fun f e => by cases f <;> first | exact h.same _ e | exact Free.no e⟩

theorem kept_flitErrs {K : Field → Bool} {o t : State} [Free K .flitErrs] {v0} (h : Kept K o t) :
    Kept K o { t with flitErrs := v0 } :=
  ⟨h.form, fun f e => by cases f <;> first | exact h.same _ e | exact Free.no e⟩

theorem kept_freeCtr {K : Field → Bool} {o t : State} [Free K .freeCtr] {v0} (h : Kept K o t) :
    Kept K o { t with freeCtr := v0 } :=
  ⟨h.form, fun f e => by cases f <;> first | exact h.same _ e | exact Free.no e⟩

theorem kept_inputs {K : Field → Bool} {o t : State} [Free K .inputs] {v0} (h : Kept K o t) :
    Kept K o { t with inputs := v0 } :=
  ⟨h.form, fun f e => by cases f <;> first | exact h.same _ e | exact Free.no e⟩

theorem kept_link_inputs {K : Field → Bool} {o t : State} [Free K .link] [Free K .inputs] {v0 v1} (h : Kept K o t) :
    Kept K o { t with link := v0, inputs := v1 } :=
  ⟨h.form, fun f e => by cases f <;> first | exact h.same _ e | exact Free.no e⟩

theorem kept_mem {K : Field → Bool} {o t : State} [Free K .mem] {v0} (hm : memWf o.mem = true → memWf v0 = true) (h : Kept K o t) :
    Kept K o { t with mem := v0 } :=
  ⟨hm, fun f e => by cases f <;> first | exact h.same _ e | exact Free.no e⟩

theorem kept_mem_pkgBad {K : Field → Bool} {o t : State} [Free K .mem] [Free K .pkgBad] {v0 v1} (hm : memWf o.mem = true → memWf v0 = true) (h : Kept K o t) :
    Kept K o { t with mem := v0, pkgBad := v1 } :=
  ⟨hm, fun f e => by cases f <;> first | exact h.same _ e | exact Free.no e⟩

theorem kept_mem_poison_bays_boot {K : Field → Bool} {o t : State} [Free K .mem] [Free K .poison] [Free K .bays] [Free K .boot] {v0 v1 v2 v3} (hm : memWf o.mem = true → memWf v0 = true) (h : Kept K o t) :
    Kept K o { t with mem := v0, poison := v1, bays := v2, boot := v3 } :=
  ⟨hm, fun f e => by cases f <;> first | exact h.same _ e | exact Free.no e⟩

theorem kept_mem_poison_zeroQ {K : Field → Bool} {o t : State} [Free K .mem] [Free K .poison] [Free K .zeroQ] {v0 v1 v2} (hm : memWf o.mem = true → memWf v0 = true) (h : Kept K o t) :
    Kept K o { t with mem := v0, poison := v1, zeroQ := v2 } :=
  ⟨hm, fun f e => by cases f <;> first | exact h.same _ e | exact Free.no e⟩

theorem kept_offline {K : Field → Bool} {o t : State} [Free K .offline] {v0} (h : Kept K o t) :
    Kept K o { t with offline := v0 } :=
  ⟨h.form, fun f e => by cases f <;> first | exact h.same _ e | exact Free.no e⟩

theorem kept_parts {K : Field → Bool} {o t : State} [Free K .parts] {v0} (h : Kept K o t) :
    Kept K o { t with parts := v0 } :=
  ⟨h.form, fun f e => by cases f <;> first | exact h.same _ e | exact Free.no e⟩

theorem kept_parts_pf_link {K : Field → Bool} {o t : State} [Free K .parts] [Free K .pf] [Free K .link] {v0 v1 v2} (h : Kept K o t) :
    Kept K o { t with parts := v0, pf := v1, link := v2 } :=
  ⟨h.form, fun f e => by cases f <;> first | exact h.same _ e | exact Free.no e⟩

theorem kept_pf {K : Field → Bool} {o t : State} [Free K .pf] {v0} (h : Kept K o t) :
    Kept K o { t with pf := v0 } :=
  ⟨h.form, fun f e => by cases f <;> first | exact h.same _ e | exact Free.no e⟩

theorem kept_pkgBad {K : Field → Bool} {o t : State} [Free K .pkgBad] {v0} (h : Kept K o t) :
    Kept K o { t with pkgBad := v0 } :=
  ⟨h.form, fun f e => by cases f <;> first | exact h.same _ e | exact Free.no e⟩

theorem kept_poison {K : Field → Bool} {o t : State} [Free K .poison] {v0} (h : Kept K o t) :
    Kept K o { t with poison := v0 } :=
  ⟨h.form, fun f e => by cases f <;> first | exact h.same _ e | exact Free.no e⟩

theorem kept_spliceDrop {K : Field → Bool} {o t : State} [Free K .spliceDrop] {v0} (h : Kept K o t) :
    Kept K o { t with spliceDrop := v0 } :=
  ⟨h.form, fun f e => by cases f <;> first | exact h.same _ e | exact Free.no e⟩

theorem kept_spliceOut {K : Field → Bool} {o t : State} [Free K .spliceOut] {v0} (h : Kept K o t) :
    Kept K o { t with spliceOut := v0 } :=
  ⟨h.form, fun f e => by cases f <;> first | exact h.same _ e | exact Free.no e⟩

theorem kept_bays_picks_freeCtr {K : Field → Bool} {o t : State} [Free K .bays] [Free K .picks] [Free K .freeCtr] {v0 v1 v2}
    (h : Kept K o t) : Kept K o { t with bays := v0, picks := v1, freeCtr := v2 } :=
  ⟨h.form, fun f e => by cases f <;> first | exact h.same _ e | exact Free.no e⟩

theorem kept_readBack {K : Field → Bool} {o t : State} [Free K .readBack] {v0}
    (h : Kept K o t) : Kept K o { t with readBack := v0 } :=
  ⟨h.form, fun f e => by cases f <;> first | exact h.same _ e | exact Free.no e⟩

theorem kept_upsets {K : Field → Bool} {o t : State} [Free K .upsets] {v0}
    (h : Kept K o t) : Kept K o { t with upsets := v0 } :=
  ⟨h.form, fun f e => by cases f <;> first | exact h.same _ e | exact Free.no e⟩

theorem kept_zeroQ {K : Field → Bool} {o t : State} [Free K .zeroQ] {v0} (h : Kept K o t) :
    Kept K o { t with zeroQ := v0 } :=
  ⟨h.form, fun f e => by cases f <;> first | exact h.same _ e | exact Free.no e⟩

theorem kept_bays_iff {K : Field → Bool} {o t : State} [Free K .bays] {v0} :
    Kept K o { t with bays := v0 } ↔ Kept K o t :=
  ⟨fun h => ⟨h.form, fun f e => by cases f <;> first | exact h.same _ e | exact Free.no e⟩, kept_bays⟩

theorem kept_boot_iff {K : Field → Bool} {o t : State} [Free K .boot] {v0} :
    Kept K o { t with boot := v0 } ↔ Kept K o t :=
  ⟨fun h => ⟨h.form, fun f e => by cases f <;> first | exact h.same _ e | exact Free.no e⟩, kept_boot⟩

theorem kept_bridgeLost_iff {K : Field → Bool} {o t : State} [Free K .bridgeLost] {v0} :
    Kept K o { t with bridgeLost := v0 } ↔ Kept K o t :=
  ⟨fun h => ⟨h.form, fun f e => by cases f <;> first | exact h.same _ e | exact Free.no e⟩, kept_bridgeLost⟩

theorem kept_chans_iff {K : Field → Bool} {o t : State} [Free K .chans] {v0} :
    Kept K o { t with chans := v0 } ↔ Kept K o t :=
  ⟨fun h => ⟨h.form, fun f e => by cases f <;> first | exact h.same _ e | exact Free.no e⟩, kept_chans⟩

theorem kept_chans_spliceDown_iff {K : Field → Bool} {o t : State} [Free K .chans] [Free K .spliceDown] {v0 v1} :
    Kept K o { t with chans := v0, spliceDown := v1 } ↔ Kept K o t :=
  ⟨fun h => ⟨h.form, fun f e => by cases f <;> first | exact h.same _ e | exact Free.no e⟩, kept_chans_spliceDown⟩

theorem kept_devnum_iff {K : Field → Bool} {o t : State} [Free K .devnum] {v0} :
    Kept K o { t with devnum := v0 } ↔ Kept K o t :=
  ⟨fun h => ⟨h.form, fun f e => by cases f <;> first | exact h.same _ e | exact Free.no e⟩, kept_devnum⟩

theorem kept_dieop_iff {K : Field → Bool} {o t : State} [Free K .dieop] {v0} :
    Kept K o { t with dieop := v0 } ↔ Kept K o t :=
  ⟨fun h => ⟨h.form, fun f e => by cases f <;> first | exact h.same _ e | exact Free.no e⟩, kept_dieop⟩

theorem kept_ecc_iff {K : Field → Bool} {o t : State} [Free K .ecc] {v0} :
    Kept K o { t with ecc := v0 } ↔ Kept K o t :=
  ⟨fun h => ⟨h.form, fun f e => by cases f <;> first | exact h.same _ e | exact Free.no e⟩, kept_ecc⟩

theorem kept_fire_iff {K : Field → Bool} {o t : State} [Free K .fire] {v0} :
    Kept K o { t with fire := v0 } ↔ Kept K o t :=
  ⟨fun h => ⟨h.form, fun f e => by cases f <;> first | exact h.same _ e | exact Free.no e⟩, kept_fire⟩

theorem kept_flight_iff {K : Field → Bool} {o t : State} [Free K .flight] {v0} :
    Kept K o { t with flight := v0 } ↔ Kept K o t :=
  ⟨fun h => ⟨h.form, fun f e => by cases f <;> first | exact h.same _ e | exact Free.no e⟩, kept_flight⟩

theorem kept_flight_inputs_iff {K : Field → Bool} {o t : State} [Free K .flight] [Free K .inputs] {v0 v1} :
    Kept K o { t with flight := v0, inputs := v1 } ↔ Kept K o t :=
  ⟨fun h => ⟨h.form, fun f e => by cases f <;> first | exact h.same _ e | exact Free.no e⟩, kept_flight_inputs⟩

theorem kept_flitErrs_iff {K : Field → Bool} {o t : State} [Free K .flitErrs] {v0} :
    Kept K o { t with flitErrs := v0 } ↔ Kept K o t :=
  ⟨fun h => ⟨h.form, fun f e => by cases f <;> first | exact h.same _ e | exact Free.no e⟩, kept_flitErrs⟩

theorem kept_freeCtr_iff {K : Field → Bool} {o t : State} [Free K .freeCtr] {v0} :
    Kept K o { t with freeCtr := v0 } ↔ Kept K o t :=
  ⟨fun h => ⟨h.form, fun f e => by cases f <;> first | exact h.same _ e | exact Free.no e⟩, kept_freeCtr⟩

theorem kept_inputs_iff {K : Field → Bool} {o t : State} [Free K .inputs] {v0} :
    Kept K o { t with inputs := v0 } ↔ Kept K o t :=
  ⟨fun h => ⟨h.form, fun f e => by cases f <;> first | exact h.same _ e | exact Free.no e⟩, kept_inputs⟩

theorem kept_link_inputs_iff {K : Field → Bool} {o t : State} [Free K .link] [Free K .inputs] {v0 v1} :
    Kept K o { t with link := v0, inputs := v1 } ↔ Kept K o t :=
  ⟨fun h => ⟨h.form, fun f e => by cases f <;> first | exact h.same _ e | exact Free.no e⟩, kept_link_inputs⟩

theorem kept_offline_iff {K : Field → Bool} {o t : State} [Free K .offline] {v0} :
    Kept K o { t with offline := v0 } ↔ Kept K o t :=
  ⟨fun h => ⟨h.form, fun f e => by cases f <;> first | exact h.same _ e | exact Free.no e⟩, kept_offline⟩

theorem kept_parts_iff {K : Field → Bool} {o t : State} [Free K .parts] {v0} :
    Kept K o { t with parts := v0 } ↔ Kept K o t :=
  ⟨fun h => ⟨h.form, fun f e => by cases f <;> first | exact h.same _ e | exact Free.no e⟩, kept_parts⟩

theorem kept_parts_pf_link_iff {K : Field → Bool} {o t : State} [Free K .parts] [Free K .pf] [Free K .link] {v0 v1 v2} :
    Kept K o { t with parts := v0, pf := v1, link := v2 } ↔ Kept K o t :=
  ⟨fun h => ⟨h.form, fun f e => by cases f <;> first | exact h.same _ e | exact Free.no e⟩, kept_parts_pf_link⟩

theorem kept_pf_iff {K : Field → Bool} {o t : State} [Free K .pf] {v0} :
    Kept K o { t with pf := v0 } ↔ Kept K o t :=
  ⟨fun h => ⟨h.form, fun f e => by cases f <;> first | exact h.same _ e | exact Free.no e⟩, kept_pf⟩

theorem kept_pkgBad_iff {K : Field → Bool} {o t : State} [Free K .pkgBad] {v0} :
    Kept K o { t with pkgBad := v0 } ↔ Kept K o t :=
  ⟨fun h => ⟨h.form, fun f e => by cases f <;> first | exact h.same _ e | exact Free.no e⟩, kept_pkgBad⟩

theorem kept_poison_iff {K : Field → Bool} {o t : State} [Free K .poison] {v0} :
    Kept K o { t with poison := v0 } ↔ Kept K o t :=
  ⟨fun h => ⟨h.form, fun f e => by cases f <;> first | exact h.same _ e | exact Free.no e⟩, kept_poison⟩

theorem kept_spliceDrop_iff {K : Field → Bool} {o t : State} [Free K .spliceDrop] {v0} :
    Kept K o { t with spliceDrop := v0 } ↔ Kept K o t :=
  ⟨fun h => ⟨h.form, fun f e => by cases f <;> first | exact h.same _ e | exact Free.no e⟩, kept_spliceDrop⟩

theorem kept_spliceOut_iff {K : Field → Bool} {o t : State} [Free K .spliceOut] {v0} :
    Kept K o { t with spliceOut := v0 } ↔ Kept K o t :=
  ⟨fun h => ⟨h.form, fun f e => by cases f <;> first | exact h.same _ e | exact Free.no e⟩, kept_spliceOut⟩

theorem kept_bays_picks_freeCtr_iff {K : Field → Bool} {o t : State} [Free K .bays] [Free K .picks] [Free K .freeCtr] {v0 v1 v2} :
    Kept K o { t with bays := v0, picks := v1, freeCtr := v2 } ↔ Kept K o t :=
  ⟨fun h => ⟨h.form, fun f e => by cases f <;> first | exact h.same _ e | exact Free.no e⟩, kept_bays_picks_freeCtr⟩

theorem kept_readBack_iff {K : Field → Bool} {o t : State} [Free K .readBack] {v0} :
    Kept K o { t with readBack := v0 } ↔ Kept K o t :=
  ⟨fun h => ⟨h.form, fun f e => by cases f <;> first | exact h.same _ e | exact Free.no e⟩, kept_readBack⟩

theorem kept_upsets_iff {K : Field → Bool} {o t : State} [Free K .upsets] {v0} :
    Kept K o { t with upsets := v0 } ↔ Kept K o t :=
  ⟨fun h => ⟨h.form, fun f e => by cases f <;> first | exact h.same _ e | exact Free.no e⟩, kept_upsets⟩

theorem kept_zeroQ_iff {K : Field → Bool} {o t : State} [Free K .zeroQ] {v0} :
    Kept K o { t with zeroQ := v0 } ↔ Kept K o t :=
  ⟨fun h => ⟨h.form, fun f e => by cases f <;> first | exact h.same _ e | exact Free.no e⟩, kept_zeroQ⟩

def KeptRes (K : Field → Bool) (o : State) (r : Res) : Prop := ∀ t, r = .next t → Kept K o t

theorem kept_next {K : Field → Bool} {o s : State} (h : Kept K o s) : KeptRes K o (.next s) := by
  intro t ht
  cases ht
  exact h

theorem pair_kept {K : Field → Bool} {o : State} {α : Type} {x : α × State} {a : α} {s : State} (e : x = (a, s)) (h : Kept K o x.2) : Kept K o s := by
  rw [e] at h
  exact h

def Xlat.Good (K : Field → Bool) (o : State) : Xlat → Prop
  | .ok _ s => Kept K o s
  | _ => True

theorem Xlat.ok_kept {K : Field → Bool} {o : State} {x : Xlat} {l s} (e : x = .ok l s) (h : x.Good K o) : Kept K o s := by
  rw [e] at h
  exact h

def Wr.Good (K : Field → Bool) (o : State) : Wr → Prop
  | .done s => Kept K o s
  | .wait s => Kept K o s
  | _ => True

theorem Wr.done_kept {K : Field → Bool} {o : State} {x : Wr} {s} (e : x = .done s) (h : x.Good K o) : Kept K o s := by
  rw [e] at h
  exact h

theorem Wr.wait_kept {K : Field → Bool} {o : State} {x : Wr} {s} (e : x = .wait s) (h : x.Good K o) : Kept K o s := by
  rw [e] at h
  exact h

def Pieces.Good (K : Field → Bool) (o : State) : Pieces → Prop
  | .ok _ s => Kept K o s
  | _ => True

theorem Pieces.ok_kept {K : Field → Bool} {o : State} {x : Pieces} {l s} (e : x = .ok l s) (h : x.Good K o) : Kept K o s := by
  rw [e] at h
  exact h

def Ap.Good (K : Field → Bool) (o : State) : Ap → Prop
  | .done s => Kept K o s
  | .stop _ _ _ _ s => Kept K o s
  | .wait s => Kept K o s

theorem Ap.done_kept {K : Field → Bool} {o : State} {x : Ap} {s} (e : x = .done s) (h : x.Good K o) : Kept K o s := by
  rw [e] at h
  exact h

theorem Ap.stop_kept {K : Field → Bool} {o : State} {x : Ap} {c e d w s} (e : x = .stop c e d w s) (h : x.Good K o) : Kept K o s := by
  rw [e] at h
  exact h

theorem Ap.wait_kept {K : Field → Bool} {o : State} {x : Ap} {s} (e : x = .wait s) (h : x.Good K o) : Kept K o s := by
  rw [e] at h
  exact h

def Io.Good (K : Field → Bool) (o : State) : Io → Prop
  | .ok _ s => Kept K o s
  | .stop _ _ _ s => Kept K o s
  | .poison _ s => Kept K o s
  | .wait s => Kept K o s

theorem Io.ok_kept {K : Field → Bool} {o : State} {x : Io} {l s} (e : x = .ok l s) (h : x.Good K o) : Kept K o s := by
  rw [e] at h
  exact h

theorem Io.stop_kept {K : Field → Bool} {o : State} {x : Io} {c a n s} (e : x = .stop c a n s) (h : x.Good K o) : Kept K o s := by
  rw [e] at h
  exact h

theorem Io.poison_kept {K : Field → Bool} {o : State} {x : Io} {a s} (e : x = .poison a s) (h : x.Good K o) : Kept K o s := by
  rw [e] at h
  exact h

theorem Io.wait_kept {K : Field → Bool} {o : State} {x : Io} {s} (e : x = .wait s) (h : x.Good K o) : Kept K o s := by
  rw [e] at h
  exact h

def Via.Good (K : Field → Bool) (o : State) : Via → Prop
  | .ok _ _ s => Kept K o s
  | .bad s => Kept K o s
  | .wait s => Kept K o s

theorem Via.ok_kept {K : Field → Bool} {o : State} {x : Via} {l p s} (e : x = .ok l p s) (h : x.Good K o) : Kept K o s := by
  rw [e] at h
  exact h

theorem Via.bad_kept {K : Field → Bool} {o : State} {x : Via} {s} (e : x = .bad s) (h : x.Good K o) : Kept K o s := by
  rw [e] at h
  exact h

theorem Via.wait_kept {K : Field → Bool} {o : State} {x : Via} {s} (e : x = .wait s) (h : x.Good K o) : Kept K o s := by
  rw [e] at h
  exact h

def SealLoc.Good (K : Field → Bool) (o : State) : SealLoc → Prop
  | .ok _ s => Kept K o s
  | _ => True

theorem SealLoc.ok_kept {K : Field → Bool} {o : State} {x : SealLoc} {l s} (e : x = .ok l s) (h : x.Good K o) : Kept K o s := by
  rw [e] at h
  exact h

theorem Xlat.good_ok {K : Field → Bool} {o : State} {l s} (h : Kept K o s) : ((Xlat.ok l s).Good K o) := h
theorem Xlat.good_fault {K : Field → Bool} {o : State} {c l} : ((Xlat.fault c l).Good K o) := trivial
theorem Xlat.good_poison {K : Field → Bool} {o : State} {a} : ((Xlat.poison a).Good K o) := trivial
theorem Xlat.good_park {K : Field → Bool} {o : State} : (Xlat.park.Good K o) := trivial
theorem Xlat.good_busy {K : Field → Bool} {o : State} : (Xlat.busy.Good K o) := trivial
theorem Wr.good_done {K : Field → Bool} {o : State} {s} (h : Kept K o s) : ((Wr.done s).Good K o) := h
theorem Wr.good_fault {K : Field → Bool} {o : State} {c l} : ((Wr.fault c l).Good K o) := trivial
theorem Wr.good_bad {K : Field → Bool} {o : State} {a} : ((Wr.bad a).Good K o) := trivial
theorem Wr.good_full {K : Field → Bool} {o : State} {a} : ((Wr.full a).Good K o) := trivial
theorem Wr.good_wait {K : Field → Bool} {o : State} {s} (h : Kept K o s) : ((Wr.wait s).Good K o) := h
theorem Pieces.good_ok {K : Field → Bool} {o : State} {l s} (h : Kept K o s) : ((Pieces.ok l s).Good K o) := h
theorem Pieces.good_stop {K : Field → Bool} {o : State} {c d} : ((Pieces.stop c d).Good K o) := trivial
theorem Pieces.good_park {K : Field → Bool} {o : State} : (Pieces.park.Good K o) := trivial
theorem Pieces.good_busy {K : Field → Bool} {o : State} : (Pieces.busy.Good K o) := trivial
theorem Ap.good_done {K : Field → Bool} {o : State} {s} (h : Kept K o s) : ((Ap.done s).Good K o) := h
theorem Ap.good_stop {K : Field → Bool} {o : State} {c e d w s} (h : Kept K o s) : ((Ap.stop c e d w s).Good K o) := h
theorem Ap.good_wait {K : Field → Bool} {o : State} {s} (h : Kept K o s) : ((Ap.wait s).Good K o) := h
theorem Io.good_ok {K : Field → Bool} {o : State} {l s} (h : Kept K o s) : ((Io.ok l s).Good K o) := h
theorem Io.good_stop {K : Field → Bool} {o : State} {c a n s} (h : Kept K o s) : ((Io.stop c a n s).Good K o) := h
theorem Io.good_poison {K : Field → Bool} {o : State} {a s} (h : Kept K o s) : ((Io.poison a s).Good K o) := h
theorem Io.good_wait {K : Field → Bool} {o : State} {s} (h : Kept K o s) : ((Io.wait s).Good K o) := h
theorem Via.good_ok {K : Field → Bool} {o : State} {l p s} (h : Kept K o s) : ((Via.ok l p s).Good K o) := h
theorem Via.good_bad {K : Field → Bool} {o : State} {s} (h : Kept K o s) : ((Via.bad s).Good K o) := h
theorem Via.good_wait {K : Field → Bool} {o : State} {s} (h : Kept K o s) : ((Via.wait s).Good K o) := h
theorem SealLoc.good_ok {K : Field → Bool} {o : State} {l s} (h : Kept K o s) : ((SealLoc.ok l s).Good K o) := h
theorem SealLoc.good_wait {K : Field → Bool} {o : State} {va} : ((SealLoc.wait va).Good K o) := trivial
theorem SealLoc.good_bad {K : Field → Bool} {o : State} : (SealLoc.bad.Good K o) := trivial

/-- Of a result that may be none. -/
def KeptOpt (K : Field → Bool) (o : State) (r : Option State) : Prop := ∀ t, r = some t → Kept K o t

theorem kept_none {K : Field → Bool} {o : State} : KeptOpt K o none := by
  intro t ht
  cases ht

theorem kept_some {K : Field → Bool} {o s : State} (h : Kept K o s) : KeptOpt K o (some s) := by
  intro t ht
  cases ht
  exact h

theorem some_kept {K : Field → Bool} {o s : State} {r : Option State} (e : r = some s) (h : KeptOpt K o r) : Kept K o s := h s e

theorem kept_mapD {K : Field → Bool} {o s : State} {α : Type} {f : α → State} (h : Kept K o s) (hf : ∀ a, Kept K o (f a)) :
    ∀ x : Option α, Kept K o ((x.map f).getD s)
  | none => h
  | some _ => hf _

theorem foldl_kept {K : Field → Bool} {o : State} {α : Type} {f : State → α → State} (hf : ∀ s x, Kept K o s → Kept K o (f s x)) :
    ∀ (l : List α) {s : State}, Kept K o s → Kept K o (l.foldl f s)
  | [], _, h => h
  | x :: l, _, h => foldl_kept hf l (hf _ x h)

theorem foldl_kept2 {K : Field → Bool} {o : State} {α β : Type} {f : β × State → α → β × State} (hf : ∀ s x, Kept K o s.2 → Kept K o (f s x).2) :
    ∀ (l : List α) {s : β × State}, Kept K o s.2 → Kept K o (l.foldl f s).2
  | [], _, h => h
  | x :: l, _, h => foldl_kept2 hf l (hf _ x h)

theorem State.writeBytes_kept {K : Field → Bool} {o s : State} [Free K .mem] [Free K .poison] [Free K .pkgBad] {a bs poi} (h : Kept K o s) :
    Kept K o (s.writeBytes a bs poi) := by
  unfold State.writeBytes
  dsimp only
  split
  · exact kept_poison (kept_mem_pkgBad (fun w => memWf_putBytes bs a (h.form w)) h)
  · exact kept_poison (kept_mem_pkgBad (fun w => memWf_putBytes bs a (h.form w)) h)

theorem State.setByte_kept {K : Field → Bool} {o s : State} [Free K .mem] {a v} (h : Kept K o s) :
    Kept K o (s.setByte a v) := by
  unfold State.setByte
  exact kept_mem (fun w => memWf_memSet a v (h.form w)) h

theorem writeSector_kept {K : Field → Bool} {o s : State} [Free K .mem] {p k bs} (h : Kept K o s) :
    Kept K o (writeSector s p k bs) := by
  unfold writeSector
  exact kept_mem (fun w => memWf_putBytes _ _ (h.form w)) h

theorem writeSectors_kept {K : Field → Bool} {o s : State} [Free K .mem] {n : Nat} {p k bs} (h : Kept K o s) :
    Kept K o (writeSectors n s p k bs) := by
  induction n generalizing s k bs with
  | zero => exact h
  | succ n ih =>
    unfold writeSectors
    split
    · exact h
    · exact ih (writeSector_kept h)

theorem homeWrite_kept {K : Field → Bool} {o s : State} [Free K .mem] [Free K .poison] [Free K .pkgBad] {e k bs poi}
    (h : Kept K o s) : Kept K o (homeWrite s e k bs poi) := by
  have h1 : Kept K o (s.writeBytes k bs false) := State.writeBytes_kept h
  have h2 (p : Nat) : Kept K o (writeSectors (bs.length / 32 + 2) { s.writeBytes k bs false with mem := s.mem } p k bs) :=
    writeSectors_kept (kept_mem h.form h1)
  unfold homeWrite
  cases e with
  | none =>
    dsimp only
    split
    · exact kept_poison h1
    · exact h1
  | some p =>
    dsimp only
    split
    · exact kept_poison (h2 p)
    · exact h2 p

end Sys2Proof.Machine
end

