-- ==== Sys2Proof/Laws/FrameCore.lean ====
section
/-!
SUPPORT. Sys2Proof/Laws/FrameCore.lean: what the operations over state, operands and tokens leave alone (`Kept`): one lemma per function, whose `Free` premises are the
fields it may change.
-/
namespace Sys2Proof.Machine

open Sys2Proof

theorem State.setBay_kept {K : Field → Bool} {o : State} [Free K .bays] {s : State} {b} {v} (h : Kept K o s) : Kept K o
    (State.setBay s b v) := by
  unfold State.setBay
  repeat' (first | with_reducible assumption | simp only [kept_bays_iff])

theorem State.modBay_kept {K : Field → Bool} {o : State} [Free K .bays] {s : State} {b} {f} (h : Kept K o s) : Kept K o
    (State.modBay s b f) := by
  unfold State.modBay
  repeat' (first | with_reducible assumption | with_reducible apply State.setBay_kept)

theorem State.modCtx_kept {K : Field → Bool} {o : State} [Free K .bays] {s : State} {b} {c} {f} (h : Kept K o s) : Kept K o
    (State.modCtx s b c f) := by
  unfold State.modCtx
  repeat' (first | with_reducible assumption | with_reducible apply State.modBay_kept)

theorem State.modPart_kept {K : Field → Bool} {o : State} [Free K .parts] [Free K .pf] {s : State} {n} {f} (h : Kept K o s)
    : Kept K o (State.modPart s n f) := by
  unfold State.modPart
  repeat' (first | with_reducible assumption | simp only [kept_parts_iff, kept_pf_iff] | split)

theorem State.send_kept {K : Field → Bool} {o : State} [Free K .flight] {s : State} {i} (h : Kept K o s) : Kept K o
    (State.send s i) := by
  unfold State.send
  repeat' (first | with_reducible assumption | simp only [kept_flight_iff])

theorem State.modElem_kept {K : Field → Bool} {o : State} [Free K .bays] {s : State} {b} {e} {f} (h : Kept K o s) : Kept K o
    (State.modElem s b e f) := by
  unfold State.modElem
  repeat' (first | with_reducible assumption | with_reducible apply State.modBay_kept)

theorem State.modGate_kept {K : Field → Bool} {o : State} [Free K .bays] {s : State} {b} {g} {f} (h : Kept K o s) : Kept K o
    (State.modGate s b g f) := by
  unfold State.modGate
  repeat' (first | with_reducible assumption | with_reducible apply State.modBay_kept)

theorem State.modInst_kept {K : Field → Bool} {o : State} [Free K .bays] {s : State} {b} {g} {ix} {f} (h : Kept K o s) :
    Kept K o (State.modInst s b g ix f) := by
  unfold State.modInst
  repeat' (first | with_reducible assumption | with_reducible apply State.modGate_kept)

theorem State.fault_kept {K : Field → Bool} {o : State} [Free K .parts] [Free K .pf] {s : State} {n} {r} {u} {full} (h :
    Kept K o s) : Kept K o (State.fault s n r u full) := by
  unfold State.fault
  repeat' (first | with_reducible assumption | with_reducible apply State.modPart_kept)

theorem State.takeFault_kept {K : Field → Bool} {o : State} [Free K .bays] [Free K .parts] [Free K .pf] {s : State} {b} {g}
    {ix} {code} {elem} {slot} {d} {again} (h : Kept K o s) : Kept K o (State.takeFault s b g ix code elem slot d again) := by
  unfold State.takeFault
  repeat' (first
    | with_reducible assumption | with_reducible apply State.modInst_kept | with_reducible apply State.fault_kept | split)

theorem State.modPort_kept {K : Field → Bool} {o : State} [Free K .bays] {s : State} {b} {isl} {p} {f} (h : Kept K o s) :
    Kept K o (State.modPort s b isl p f) := by
  unfold State.modPort
  repeat' (first | with_reducible assumption | with_reducible apply State.modBay_kept)

theorem State.stallIsland_kept {K : Field → Bool} {o : State} [Free K .bays] [Free K .parts] [Free K .pf] {s : State} {b}
    {isl} {port} {k} {dst} {code} {d} {full} (h : Kept K o s) : Kept K o (State.stallIsland s b isl port k dst code d full) :=
    by
  unfold State.stallIsland
  repeat' (first
    | with_reducible assumption | with_reducible apply State.fault_kept | with_reducible apply State.modPort_kept | split
    | dsimp only)

theorem State.eventFor_kept {K : Field → Bool} {o : State} [Free K .parts] [Free K .pf] {s : State} {b} {r} (h : Kept K o s)
    : Kept K o (State.eventFor s b r) := by
  unfold State.eventFor
  repeat' (first | with_reducible assumption | with_reducible apply State.modPart_kept | simp only [kept_pf_iff] | split)

theorem State.freezeRegion_kept {K : Field → Bool} {o : State} [Free K .bays] {s : State} {part} {ctx} {hseq} {v} (h : Kept
    K o s) : Kept K o (State.freezeRegion s part ctx hseq v) := by
  unfold State.freezeRegion
  repeat' (first
    | with_reducible assumption | with_reducible apply State.modCtx_kept | with_reducible apply foldl_kept | intro _)

theorem State.fresh_kept {K : Field → Bool} {o : State} [Free K .freeCtr] {s : State} (h : Kept K o s) : Kept K o
    (State.fresh s).2 := by
  unfold State.fresh
  repeat' (first | with_reducible assumption | simp only [kept_freeCtr_iff])

theorem State.modHitch_kept {K : Field → Bool} {o : State} [Free K .bays] {s : State} {b} {g} {ctx} {j} {f} (h : Kept K o s)
    : Kept K o (State.modHitch s b g ctx j f) := by
  unfold State.modHitch
  repeat' (first | with_reducible assumption | with_reducible apply State.modGate_kept)

theorem State.modLaunch_kept {K : Field → Bool} {o : State} [Free K .parts] [Free K .pf] {s : State} {n} {j} {f} (h : Kept K
    o s) : Kept K o (State.modLaunch s n j f) := by
  unfold State.modLaunch
  repeat' (first | with_reducible assumption | with_reducible apply State.modPart_kept)

theorem State.modSite_kept {K : Field → Bool} {o : State} [Free K .bays] {s : State} {b} {k} {f} (h : Kept K o s) : Kept K o
    (State.modSite s b k f) := by
  unfold State.modSite
  repeat' (first | with_reducible assumption | with_reducible apply State.modBay_kept)

theorem State.sendTarget_kept {K : Field → Bool} {o : State} [Free K .flight] {s : State} {b} {g} {ix} {hn} {ctx} {src} {t}
    {k} (h : Kept K o s) : Kept K o (State.sendTarget s b g ix hn ctx src t k) := by
  unfold State.sendTarget
  repeat' (first | with_reducible assumption | with_reducible apply State.send_kept | split)

theorem State.stopEngine_kept {K : Field → Bool} {o : State} [Free K .bays] [Free K .parts] [Free K .pf] {s : State} {b}
    {site} {ctx} {back} {r} {full} (h : Kept K o s) : Kept K o (State.stopEngine s b site ctx back r full) := by
  unfold State.stopEngine
  repeat' (first
    | with_reducible assumption | with_reducible apply State.fault_kept | with_reducible apply State.modSite_kept | split)

theorem State.takeRegionFault_kept {K : Field → Bool} {o : State} [Free K .bays] [Free K .parts] [Free K .pf] {s : State}
    {b} {ctx} {r} (h : Kept K o s) : Kept K o (State.takeRegionFault s b ctx r) := by
  unfold State.takeRegionFault
  repeat' (first
    | with_reducible assumption | with_reducible apply State.fault_kept | with_reducible apply State.freezeRegion_kept
    | split)

theorem State.unfreeze_kept {K : Field → Bool} {o : State} [Free K .bays] {s : State} {b} {g} {ix} (h : Kept K o s) : Kept K
    o (State.unfreeze s b g ix) := by
  unfold State.unfreeze
  repeat' (first | with_reducible assumption | with_reducible apply State.modInst_kept)

theorem slotFault_kept {K : Field → Bool} {o : State} [Free K .bays] [Free K .parts] [Free K .pf] {code} {d} {b} {m} {s :
    State} (h : Kept K o s) : Kept K o (slotFault code d b m s) := by
  unfold slotFault
  repeat' (first | with_reducible assumption | with_reducible apply State.takeFault_kept)

theorem sendTo_kept {K : Field → Bool} {o : State} [Free K .flight] {s : State} {b} {m} {t} {k} (h : Kept K o s) : Kept K o
    (sendTo s b m t k) := by
  unfold sendTo
  repeat' (first | with_reducible assumption | with_reducible apply State.sendTarget_kept)

theorem deliver_kept {K : Field → Bool} {o : State} [Free K .flight] {c} {v} {b} {m} {s : State} (h : Kept K o s) : Kept K o
    (deliver c v b m s) := by
  unfold deliver
  repeat' (first | with_reducible assumption | with_reducible apply sendTo_kept)

theorem deliver2_kept {K : Field → Bool} {o : State} [Free K .flight] {c} {v} {w} {b} {m} {s : State} (h : Kept K o s) :
    Kept K o (deliver2 c v w b m s) := by
  unfold deliver2
  repeat' (first | with_reducible assumption | with_reducible apply sendTo_kept)

theorem sendNulls_kept {K : Field → Bool} {o : State} [Free K .flight] {c} {v} {w} {b} {m} {s : State} (h : Kept K o s) :
    Kept K o (sendNulls c v w b m s) := by
  unfold sendNulls
  repeat' (first | with_reducible assumption | with_reducible apply sendTo_kept)

theorem fireSlot_kept {K : Field → Bool} {o : State} [Free K .bays] [Free K .parts] [Free K .pf] [Free K .fire] {c n g} {s :
    State} (hn : ∀ b m t, Kept K o t → Kept K o (n b m t)) (hg : ∀ b m t, Kept K o t → Kept K o (g b m t)) (h : Kept K o s) :
    Kept K o (fireSlot c n g s) := by
  unfold fireSlot
  split
  · exact h
  · have h' : Kept K o { s with fire := none } := kept_fire h
    dsimp only
    split
    · exact slotFault_kept h'
    · split
      · exact hn _ _ _ h'
      · exact hg _ _ _ h'

theorem fireVals_kept {K : Field → Bool} {o : State} [Free K .bays] [Free K .parts] [Free K .pf] [Free K .flight] [Free K
    .fire] {c} {v} {n0} {n1} {s : State} (h : Kept K o s) : KeptRes K o (fireVals c v n0 n1 s) := by
  unfold fireVals
  repeat' (first
    | with_reducible assumption | with_reducible apply kept_next | with_reducible apply deliver2_kept
    | with_reducible apply sendNulls_kept | with_reducible apply fireSlot_kept | intro _)

theorem fireCmp_kept {K : Field → Bool} {o : State} [Free K .bays] [Free K .parts] [Free K .pf] [Free K .flight] [Free K
    .fire] {c} {f} {op} {s : State} (h : Kept K o s) : KeptRes K o (fireCmp c f op s) := by
  unfold fireCmp
  repeat' (first | with_reducible assumption | with_reducible apply fireVals_kept)

theorem fireBits_kept {K : Field → Bool} {o : State} [Free K .bays] [Free K .parts] [Free K .pf] [Free K .flight] [Free K
    .fire] {c} {f} {op} {s : State} (h : Kept K o s) : KeptRes K o (fireBits c f op s) := by
  unfold fireBits
  repeat' (first | with_reducible assumption | with_reducible apply fireVals_kept)

theorem fireWrap_kept {K : Field → Bool} {o : State} [Free K .bays] [Free K .parts] [Free K .pf] [Free K .flight] [Free K
    .fire] {c} {f} {op} {s : State} (h : Kept K o s) : KeptRes K o (fireWrap c f op s) := by
  unfold fireWrap
  repeat' (first | with_reducible assumption | with_reducible apply fireBits_kept)

theorem execAdsc_kept {K : Field → Bool} {o : State} [Free K .bays] [Free K .parts] [Free K .pf] [Free K .flight] [Free K
    .fire] {c} {f} {s : State} (h : Kept K o s) : KeptRes K o (execAdsc c f s) := by
  unfold execAdsc
  repeat' (first | with_reducible assumption | with_reducible apply fireWrap_kept)

theorem execCvi_kept {K : Field → Bool} {o : State} [Free K .bays] [Free K .parts] [Free K .pf] [Free K .flight] [Free K
    .fire] {c} {f} {s : State} (h : Kept K o s) : KeptRes K o (execCvi c f s) := by
  unfold execCvi
  repeat' (first | with_reducible assumption | with_reducible apply fireVals_kept)

theorem execCle_kept {K : Field → Bool} {o : State} [Free K .bays] [Free K .parts] [Free K .pf] [Free K .flight] [Free K
    .fire] {c} {f} {s : State} (h : Kept K o s) : KeptRes K o (execCle c f s) := by
  unfold execCle
  repeat' (first | with_reducible assumption | with_reducible apply fireCmp_kept)

theorem execClt_kept {K : Field → Bool} {o : State} [Free K .bays] [Free K .parts] [Free K .pf] [Free K .flight] [Free K
    .fire] {c} {f} {s : State} (h : Kept K o s) : KeptRes K o (execClt c f s) := by
  unfold execClt
  repeat' (first | with_reducible assumption | with_reducible apply fireCmp_kept)

theorem execCne_kept {K : Field → Bool} {o : State} [Free K .bays] [Free K .parts] [Free K .pf] [Free K .flight] [Free K
    .fire] {c} {f} {s : State} (h : Kept K o s) : KeptRes K o (execCne c f s) := by
  unfold execCne
  repeat' (first | with_reducible assumption | with_reducible apply fireCmp_kept)

theorem execCeq_kept {K : Field → Bool} {o : State} [Free K .bays] [Free K .parts] [Free K .pf] [Free K .flight] [Free K
    .fire] {c} {f} {s : State} (h : Kept K o s) : KeptRes K o (execCeq c f s) := by
  unfold execCeq
  repeat' (first | with_reducible assumption | with_reducible apply fireCmp_kept)

theorem execSel_kept {K : Field → Bool} {o : State} [Free K .bays] [Free K .parts] [Free K .pf] [Free K .flight] [Free K
    .fire] {c} {f} {s : State} (h : Kept K o s) : KeptRes K o (execSel c f s) := by
  unfold execSel
  repeat' (first | with_reducible assumption | with_reducible apply fireVals_kept)

theorem execBfi_kept {K : Field → Bool} {o : State} [Free K .bays] [Free K .parts] [Free K .pf] [Free K .flight] [Free K
    .fire] {c} {f} {s : State} (h : Kept K o s) : KeptRes K o (execBfi c f s) := by
  unfold execBfi
  repeat' (first | with_reducible assumption | with_reducible apply fireBits_kept)

theorem execBfx_kept {K : Field → Bool} {o : State} [Free K .bays] [Free K .parts] [Free K .pf] [Free K .flight] [Free K
    .fire] {c} {f} {s : State} (h : Kept K o s) : KeptRes K o (execBfx c f s) := by
  unfold execBfx
  repeat' (first | with_reducible assumption | with_reducible apply fireBits_kept)

theorem execBrev_kept {K : Field → Bool} {o : State} [Free K .bays] [Free K .parts] [Free K .pf] [Free K .flight] [Free K
    .fire] {c} {f} {s : State} (h : Kept K o s) : KeptRes K o (execBrev c f s) := by
  unfold execBrev
  repeat' (first | with_reducible assumption | with_reducible apply fireBits_kept)

theorem execPopc_kept {K : Field → Bool} {o : State} [Free K .bays] [Free K .parts] [Free K .pf] [Free K .flight] [Free K
    .fire] {c} {f} {s : State} (h : Kept K o s) : KeptRes K o (execPopc c f s) := by
  unfold execPopc
  repeat' (first | with_reducible assumption | with_reducible apply fireBits_kept)

theorem execCtz_kept {K : Field → Bool} {o : State} [Free K .bays] [Free K .parts] [Free K .pf] [Free K .flight] [Free K
    .fire] {c} {f} {s : State} (h : Kept K o s) : KeptRes K o (execCtz c f s) := by
  unfold execCtz
  repeat' (first | with_reducible assumption | with_reducible apply fireBits_kept)

theorem execClz_kept {K : Field → Bool} {o : State} [Free K .bays] [Free K .parts] [Free K .pf] [Free K .flight] [Free K
    .fire] {c} {f} {s : State} (h : Kept K o s) : KeptRes K o (execClz c f s) := by
  unfold execClz
  repeat' (first | with_reducible assumption | with_reducible apply fireBits_kept)

theorem execRol_kept {K : Field → Bool} {o : State} [Free K .bays] [Free K .parts] [Free K .pf] [Free K .flight] [Free K
    .fire] {c} {f} {s : State} (h : Kept K o s) : KeptRes K o (execRol c f s) := by
  unfold execRol
  repeat' (first | with_reducible assumption | with_reducible apply fireBits_kept)

theorem execSar_kept {K : Field → Bool} {o : State} [Free K .bays] [Free K .parts] [Free K .pf] [Free K .flight] [Free K
    .fire] {c} {f} {s : State} (h : Kept K o s) : KeptRes K o (execSar c f s) := by
  unfold execSar
  repeat' (first | with_reducible assumption | with_reducible apply fireBits_kept)

theorem execShr_kept {K : Field → Bool} {o : State} [Free K .bays] [Free K .parts] [Free K .pf] [Free K .flight] [Free K
    .fire] {c} {f} {s : State} (h : Kept K o s) : KeptRes K o (execShr c f s) := by
  unfold execShr
  repeat' (first | with_reducible assumption | with_reducible apply fireBits_kept)

theorem execShl_kept {K : Field → Bool} {o : State} [Free K .bays] [Free K .parts] [Free K .pf] [Free K .flight] [Free K
    .fire] {c} {f} {s : State} (h : Kept K o s) : KeptRes K o (execShl c f s) := by
  unfold execShl
  repeat' (first | with_reducible assumption | with_reducible apply fireWrap_kept)

theorem execNot_kept {K : Field → Bool} {o : State} [Free K .bays] [Free K .parts] [Free K .pf] [Free K .flight] [Free K
    .fire] {c} {f} {s : State} (h : Kept K o s) : KeptRes K o (execNot c f s) := by
  unfold execNot
  repeat' (first | with_reducible assumption | with_reducible apply fireBits_kept)

theorem execAndn_kept {K : Field → Bool} {o : State} [Free K .bays] [Free K .parts] [Free K .pf] [Free K .flight] [Free K
    .fire] {c} {f} {s : State} (h : Kept K o s) : KeptRes K o (execAndn c f s) := by
  unfold execAndn
  repeat' (first | with_reducible assumption | with_reducible apply fireBits_kept)

theorem execXor_kept {K : Field → Bool} {o : State} [Free K .bays] [Free K .parts] [Free K .pf] [Free K .flight] [Free K
    .fire] {c} {f} {s : State} (h : Kept K o s) : KeptRes K o (execXor c f s) := by
  unfold execXor
  repeat' (first | with_reducible assumption | with_reducible apply fireBits_kept)

theorem execOr_kept {K : Field → Bool} {o : State} [Free K .bays] [Free K .parts] [Free K .pf] [Free K .flight] [Free K
    .fire] {c} {f} {s : State} (h : Kept K o s) : KeptRes K o (execOr c f s) := by
  unfold execOr
  repeat' (first | with_reducible assumption | with_reducible apply fireBits_kept)

theorem execAnd_kept {K : Field → Bool} {o : State} [Free K .bays] [Free K .parts] [Free K .pf] [Free K .flight] [Free K
    .fire] {c} {f} {s : State} (h : Kept K o s) : KeptRes K o (execAnd c f s) := by
  unfold execAnd
  repeat' (first | with_reducible assumption | with_reducible apply fireBits_kept)

theorem execRem_kept {K : Field → Bool} {o : State} [Free K .bays] [Free K .parts] [Free K .pf] [Free K .flight] [Free K
    .fire] {c} {f} {s : State} (h : Kept K o s) : KeptRes K o (execRem c f s) := by
  unfold execRem
  repeat' (first | with_reducible assumption | with_reducible apply fireBits_kept)

theorem execDiv_kept {K : Field → Bool} {o : State} [Free K .bays] [Free K .parts] [Free K .pf] [Free K .flight] [Free K
    .fire] {c} {f} {s : State} (h : Kept K o s) : KeptRes K o (execDiv c f s) := by
  unfold execDiv
  repeat' (first | with_reducible assumption | with_reducible apply fireBits_kept)

theorem execMad_kept {K : Field → Bool} {o : State} [Free K .bays] [Free K .parts] [Free K .pf] [Free K .flight] [Free K
    .fire] {c} {f} {s : State} (h : Kept K o s) : KeptRes K o (execMad c f s) := by
  unfold execMad
  repeat' (first | with_reducible assumption | with_reducible apply fireWrap_kept)

theorem execMulh_kept {K : Field → Bool} {o : State} [Free K .bays] [Free K .parts] [Free K .pf] [Free K .flight] [Free K
    .fire] {c} {f} {s : State} (h : Kept K o s) : KeptRes K o (execMulh c f s) := by
  unfold execMulh
  repeat' (first | with_reducible assumption | with_reducible apply fireBits_kept)

theorem execMul_kept {K : Field → Bool} {o : State} [Free K .bays] [Free K .parts] [Free K .pf] [Free K .flight] [Free K
    .fire] {c} {f} {s : State} (h : Kept K o s) : KeptRes K o (execMul c f s) := by
  unfold execMul
  repeat' (first | with_reducible assumption | with_reducible apply fireWrap_kept)

theorem execMax_kept {K : Field → Bool} {o : State} [Free K .bays] [Free K .parts] [Free K .pf] [Free K .flight] [Free K
    .fire] {c} {f} {s : State} (h : Kept K o s) : KeptRes K o (execMax c f s) := by
  unfold execMax
  repeat' (first | with_reducible assumption | with_reducible apply fireBits_kept)

theorem execMin_kept {K : Field → Bool} {o : State} [Free K .bays] [Free K .parts] [Free K .pf] [Free K .flight] [Free K
    .fire] {c} {f} {s : State} (h : Kept K o s) : KeptRes K o (execMin c f s) := by
  unfold execMin
  repeat' (first | with_reducible assumption | with_reducible apply fireBits_kept)

theorem execAbs_kept {K : Field → Bool} {o : State} [Free K .bays] [Free K .parts] [Free K .pf] [Free K .flight] [Free K
    .fire] {c} {f} {s : State} (h : Kept K o s) : KeptRes K o (execAbs c f s) := by
  unfold execAbs
  repeat' (first | with_reducible assumption | with_reducible apply fireWrap_kept)

theorem execNeg_kept {K : Field → Bool} {o : State} [Free K .bays] [Free K .parts] [Free K .pf] [Free K .flight] [Free K
    .fire] {c} {f} {s : State} (h : Kept K o s) : KeptRes K o (execNeg c f s) := by
  unfold execNeg
  repeat' (first | with_reducible assumption | with_reducible apply fireWrap_kept)

theorem execSub_kept {K : Field → Bool} {o : State} [Free K .bays] [Free K .parts] [Free K .pf] [Free K .flight] [Free K
    .fire] {c} {f} {s : State} (h : Kept K o s) : KeptRes K o (execSub c f s) := by
  unfold execSub
  repeat' (first | with_reducible assumption | with_reducible apply fireWrap_kept)

theorem execAdd_kept {K : Field → Bool} {o : State} [Free K .bays] [Free K .parts] [Free K .pf] [Free K .flight] [Free K
    .fire] {c} {f} {s : State} (h : Kept K o s) : KeptRes K o (execAdd c f s) := by
  unfold execAdd
  repeat' (first | with_reducible assumption | with_reducible apply fireWrap_kept)

theorem execFpk_kept {K : Field → Bool} {o : State} [Free K .bays] [Free K .parts] [Free K .pf] [Free K .flight] [Free K
    .fire] {c} {f} {s : State} (h : Kept K o s) : KeptRes K o (execFpk c f s) := by
  unfold execFpk
  repeat' (first | with_reducible assumption | with_reducible apply fireVals_kept)

theorem firePick_kept {K : Field → Bool} {o : State} [Free K .bays] [Free K .parts] [Free K .pf] [Free K .flight] [Free K
    .fire] {c} {f} {op} {s : State} (h : Kept K o s) : KeptRes K o (firePick c f op s) := by
  unfold firePick
  repeat' (first | with_reducible assumption | with_reducible apply fireVals_kept)

theorem execFclass_kept {K : Field → Bool} {o : State} [Free K .bays] [Free K .parts] [Free K .pf] [Free K .flight] [Free K
    .fire] {c} {f} {s : State} (h : Kept K o s) : KeptRes K o (execFclass c f s) := by
  unfold execFclass
  repeat' (first | with_reducible assumption | with_reducible apply firePick_kept)

theorem execFscal_kept {K : Field → Bool} {o : State} [Free K .bays] [Free K .parts] [Free K .pf] [Free K .flight] [Free K
    .fire] {c} {f} {s : State} (h : Kept K o s) : KeptRes K o (execFscal c f s) := by
  unfold execFscal
  repeat' (first | with_reducible assumption | with_reducible apply fireVals_kept)

theorem fireFlt_kept {K : Field → Bool} {o : State} [Free K .bays] [Free K .parts] [Free K .pf] [Free K .flight] [Free K
    .fire] {c} {f} {op} {s : State} (h : Kept K o s) : KeptRes K o (fireFlt c f op s) := by
  unfold fireFlt
  repeat' (first | with_reducible assumption | with_reducible apply fireVals_kept)

theorem execFrint_kept {K : Field → Bool} {o : State} [Free K .bays] [Free K .parts] [Free K .pf] [Free K .flight] [Free K
    .fire] {c} {f} {s : State} (h : Kept K o s) : KeptRes K o (execFrint c f s) := by
  unfold execFrint
  repeat' (first | with_reducible assumption | with_reducible apply fireFlt_kept)

theorem execIcvf_kept {K : Field → Bool} {o : State} [Free K .bays] [Free K .parts] [Free K .pf] [Free K .flight] [Free K
    .fire] {c} {f} {s : State} (h : Kept K o s) : KeptRes K o (execIcvf c f s) := by
  unfold execIcvf
  repeat' (first | with_reducible assumption | with_reducible apply fireVals_kept)

theorem execFcvi_kept {K : Field → Bool} {o : State} [Free K .bays] [Free K .parts] [Free K .pf] [Free K .flight] [Free K
    .fire] {c} {f} {s : State} (h : Kept K o s) : KeptRes K o (execFcvi c f s) := by
  unfold execFcvi
  repeat' (first | with_reducible assumption | with_reducible apply fireVals_kept)

theorem execFcvt_kept {K : Field → Bool} {o : State} [Free K .bays] [Free K .parts] [Free K .pf] [Free K .flight] [Free K
    .fire] {c} {f} {s : State} (h : Kept K o s) : KeptRes K o (execFcvt c f s) := by
  unfold execFcvt
  repeat' (first | with_reducible assumption | with_reducible apply fireVals_kept)

theorem execFcun_kept {K : Field → Bool} {o : State} [Free K .bays] [Free K .parts] [Free K .pf] [Free K .flight] [Free K
    .fire] {c} {f} {s : State} (h : Kept K o s) : KeptRes K o (execFcun c f s) := by
  unfold execFcun
  repeat' (first | with_reducible assumption | with_reducible apply fireCmp_kept)

theorem execFcle_kept {K : Field → Bool} {o : State} [Free K .bays] [Free K .parts] [Free K .pf] [Free K .flight] [Free K
    .fire] {c} {f} {s : State} (h : Kept K o s) : KeptRes K o (execFcle c f s) := by
  unfold execFcle
  repeat' (first | with_reducible assumption | with_reducible apply fireCmp_kept)

theorem execFclt_kept {K : Field → Bool} {o : State} [Free K .bays] [Free K .parts] [Free K .pf] [Free K .flight] [Free K
    .fire] {c} {f} {s : State} (h : Kept K o s) : KeptRes K o (execFclt c f s) := by
  unfold execFclt
  repeat' (first | with_reducible assumption | with_reducible apply fireCmp_kept)

theorem execFceq_kept {K : Field → Bool} {o : State} [Free K .bays] [Free K .parts] [Free K .pf] [Free K .flight] [Free K
    .fire] {c} {f} {s : State} (h : Kept K o s) : KeptRes K o (execFceq c f s) := by
  unfold execFceq
  repeat' (first | with_reducible assumption | with_reducible apply fireCmp_kept)

theorem execFlog2_kept {K : Field → Bool} {o : State} [Free K .bays] [Free K .parts] [Free K .pf] [Free K .flight] [Free K
    .fire] {c} {f} {s : State} (h : Kept K o s) : KeptRes K o (execFlog2 c f s) := by
  unfold execFlog2
  repeat' (first | with_reducible assumption | with_reducible apply fireFlt_kept)

theorem execFexp2_kept {K : Field → Bool} {o : State} [Free K .bays] [Free K .parts] [Free K .pf] [Free K .flight] [Free K
    .fire] {c} {f} {s : State} (h : Kept K o s) : KeptRes K o (execFexp2 c f s) := by
  unfold execFexp2
  repeat' (first | with_reducible assumption | with_reducible apply fireFlt_kept)

theorem execFrcp_kept {K : Field → Bool} {o : State} [Free K .bays] [Free K .parts] [Free K .pf] [Free K .flight] [Free K
    .fire] {c} {f} {s : State} (h : Kept K o s) : KeptRes K o (execFrcp c f s) := by
  unfold execFrcp
  repeat' (first | with_reducible assumption | with_reducible apply fireFlt_kept)

theorem execFrsq_kept {K : Field → Bool} {o : State} [Free K .bays] [Free K .parts] [Free K .pf] [Free K .flight] [Free K
    .fire] {c} {f} {s : State} (h : Kept K o s) : KeptRes K o (execFrsq c f s) := by
  unfold execFrsq
  repeat' (first | with_reducible assumption | with_reducible apply fireFlt_kept)

theorem execFsqrt_kept {K : Field → Bool} {o : State} [Free K .bays] [Free K .parts] [Free K .pf] [Free K .flight] [Free K
    .fire] {c} {f} {s : State} (h : Kept K o s) : KeptRes K o (execFsqrt c f s) := by
  unfold execFsqrt
  repeat' (first | with_reducible assumption | with_reducible apply fireFlt_kept)

theorem execFdiv_kept {K : Field → Bool} {o : State} [Free K .bays] [Free K .parts] [Free K .pf] [Free K .flight] [Free K
    .fire] {c} {f} {s : State} (h : Kept K o s) : KeptRes K o (execFdiv c f s) := by
  unfold execFdiv
  repeat' (first | with_reducible assumption | with_reducible apply fireFlt_kept)

theorem execFneg_kept {K : Field → Bool} {o : State} [Free K .bays] [Free K .parts] [Free K .pf] [Free K .flight] [Free K
    .fire] {c} {f} {s : State} (h : Kept K o s) : KeptRes K o (execFneg c f s) := by
  unfold execFneg
  repeat' (first | with_reducible assumption | with_reducible apply firePick_kept)

theorem execFabs_kept {K : Field → Bool} {o : State} [Free K .bays] [Free K .parts] [Free K .pf] [Free K .flight] [Free K
    .fire] {c} {f} {s : State} (h : Kept K o s) : KeptRes K o (execFabs c f s) := by
  unfold execFabs
  repeat' (first | with_reducible assumption | with_reducible apply firePick_kept)

theorem execFmax_kept {K : Field → Bool} {o : State} [Free K .bays] [Free K .parts] [Free K .pf] [Free K .flight] [Free K
    .fire] {c} {f} {s : State} (h : Kept K o s) : KeptRes K o (execFmax c f s) := by
  unfold execFmax
  repeat' (first | with_reducible assumption | with_reducible apply firePick_kept)

theorem execFmin_kept {K : Field → Bool} {o : State} [Free K .bays] [Free K .parts] [Free K .pf] [Free K .flight] [Free K
    .fire] {c} {f} {s : State} (h : Kept K o s) : KeptRes K o (execFmin c f s) := by
  unfold execFmin
  repeat' (first | with_reducible assumption | with_reducible apply firePick_kept)

theorem execFnma_kept {K : Field → Bool} {o : State} [Free K .bays] [Free K .parts] [Free K .pf] [Free K .flight] [Free K
    .fire] {c} {f} {s : State} (h : Kept K o s) : KeptRes K o (execFnma c f s) := by
  unfold execFnma
  repeat' (first | with_reducible assumption | with_reducible apply fireFlt_kept)

theorem execFma_kept {K : Field → Bool} {o : State} [Free K .bays] [Free K .parts] [Free K .pf] [Free K .flight] [Free K
    .fire] {c} {f} {s : State} (h : Kept K o s) : KeptRes K o (execFma c f s) := by
  unfold execFma
  repeat' (first | with_reducible assumption | with_reducible apply fireFlt_kept)

theorem execFmul_kept {K : Field → Bool} {o : State} [Free K .bays] [Free K .parts] [Free K .pf] [Free K .flight] [Free K
    .fire] {c} {f} {s : State} (h : Kept K o s) : KeptRes K o (execFmul c f s) := by
  unfold execFmul
  repeat' (first | with_reducible assumption | with_reducible apply fireFlt_kept)

theorem execFsub_kept {K : Field → Bool} {o : State} [Free K .bays] [Free K .parts] [Free K .pf] [Free K .flight] [Free K
    .fire] {c} {f} {s : State} (h : Kept K o s) : KeptRes K o (execFsub c f s) := by
  unfold execFsub
  repeat' (first | with_reducible assumption | with_reducible apply fireFlt_kept)

theorem execFadd_kept {K : Field → Bool} {o : State} [Free K .bays] [Free K .parts] [Free K .pf] [Free K .flight] [Free K
    .fire] {c} {f} {s : State} (h : Kept K o s) : KeptRes K o (execFadd c f s) := by
  unfold execFadd
  repeat' (first | with_reducible assumption | with_reducible apply fireFlt_kept)

theorem execLq4_kept {K : Field → Bool} {o : State} [Free K .bays] [Free K .parts] [Free K .pf] [Free K .flight] [Free K
    .fire] {c} {f} {s : State} (h : Kept K o s) : KeptRes K o (execLq4 c f s) := by
  unfold execLq4
  repeat' (first | with_reducible assumption | with_reducible apply fireVals_kept)

theorem fireLane_kept {K : Field → Bool} {o : State} [Free K .bays] [Free K .parts] [Free K .pf] [Free K .flight] [Free K
    .fire] {c} {v} {n0} {n1} {s : State} (h : Kept K o s) : KeptRes K o (fireLane c v n0 n1 s) := by
  unfold fireLane
  repeat' (first | with_reducible assumption | with_reducible apply fireVals_kept)

theorem fireVec_kept {K : Field → Bool} {o : State} [Free K .bays] [Free K .parts] [Free K .pf] [Free K .flight] [Free K
    .fire] {c} {v} {s : State} (h : Kept K o s) : KeptRes K o (fireVec c v s) := by
  unfold fireVec
  repeat' (first | with_reducible assumption | with_reducible apply fireLane_kept)

theorem execLunzip_kept {K : Field → Bool} {o : State} [Free K .bays] [Free K .parts] [Free K .pf] [Free K .flight] [Free K
    .fire] {c} {f} {s : State} (h : Kept K o s) : KeptRes K o (execLunzip c f s) := by
  unfold execLunzip
  repeat' (first | with_reducible assumption | with_reducible apply fireVec_kept)

theorem execLzip_kept {K : Field → Bool} {o : State} [Free K .bays] [Free K .parts] [Free K .pf] [Free K .flight] [Free K
    .fire] {c} {f} {s : State} (h : Kept K o s) : KeptRes K o (execLzip c f s) := by
  unfold execLzip
  repeat' (first | with_reducible assumption | with_reducible apply fireVec_kept)

theorem execLrot_kept {K : Field → Bool} {o : State} [Free K .bays] [Free K .parts] [Free K .pf] [Free K .flight] [Free K
    .fire] {c} {f} {s : State} (h : Kept K o s) : KeptRes K o (execLrot c f s) := by
  unfold execLrot
  repeat' (first | with_reducible assumption | with_reducible apply fireVec_kept)

theorem execLexpd_kept {K : Field → Bool} {o : State} [Free K .bays] [Free K .parts] [Free K .pf] [Free K .flight] [Free K
    .fire] {c} {f} {s : State} (h : Kept K o s) : KeptRes K o (execLexpd c f s) := by
  unfold execLexpd
  repeat' (first | with_reducible assumption | with_reducible apply fireLane_kept)

theorem execLcmpr_kept {K : Field → Bool} {o : State} [Free K .bays] [Free K .parts] [Free K .pf] [Free K .flight] [Free K
    .fire] {c} {f} {s : State} (h : Kept K o s) : KeptRes K o (execLcmpr c f s) := by
  unfold execLcmpr
  repeat' (first | with_reducible assumption | with_reducible apply fireLane_kept)

theorem execLscan_kept {K : Field → Bool} {o : State} [Free K .bays] [Free K .parts] [Free K .pf] [Free K .flight] [Free K
    .fire] {c} {f} {s : State} (h : Kept K o s) : KeptRes K o (execLscan c f s) := by
  unfold execLscan
  repeat' (first | with_reducible assumption | with_reducible apply fireVals_kept)

theorem execLred_kept {K : Field → Bool} {o : State} [Free K .bays] [Free K .parts] [Free K .pf] [Free K .flight] [Free K
    .fire] {c} {f} {s : State} (h : Kept K o s) : KeptRes K o (execLred c f s) := by
  unfold execLred
  repeat' (first | with_reducible assumption | with_reducible apply fireVals_kept)

theorem execLins_kept {K : Field → Bool} {o : State} [Free K .bays] [Free K .parts] [Free K .pf] [Free K .flight] [Free K
    .fire] {c} {f} {s : State} (h : Kept K o s) : KeptRes K o (execLins c f s) := by
  unfold execLins
  repeat' (first | with_reducible assumption | with_reducible apply fireVec_kept)

theorem execLext_kept {K : Field → Bool} {o : State} [Free K .bays] [Free K .parts] [Free K .pf] [Free K .flight] [Free K
    .fire] {c} {f} {s : State} (h : Kept K o s) : KeptRes K o (execLext c f s) := by
  unfold execLext
  repeat' (first | with_reducible assumption | with_reducible apply fireLane_kept)

theorem execLbcast_kept {K : Field → Bool} {o : State} [Free K .bays] [Free K .parts] [Free K .pf] [Free K .flight] [Free K
    .fire] {c} {f} {s : State} (h : Kept K o s) : KeptRes K o (execLbcast c f s) := by
  unfold execLbcast
  repeat' (first | with_reducible assumption | with_reducible apply fireVec_kept)

theorem execLperm_kept {K : Field → Bool} {o : State} [Free K .bays] [Free K .parts] [Free K .pf] [Free K .flight] [Free K
    .fire] {c} {f} {s : State} (h : Kept K o s) : KeptRes K o (execLperm c f s) := by
  unfold execLperm
  repeat' (first | with_reducible assumption | with_reducible apply fireVec_kept)

theorem execOrdj_kept {K : Field → Bool} {o : State} [Free K .bays] [Free K .parts] [Free K .pf] [Free K .flight] [Free K
    .fire] {c} {f} {s : State} (h : Kept K o s) : KeptRes K o (execOrdj c f s) := by
  unfold execOrdj
  repeat' (first | with_reducible assumption | with_reducible apply fireVals_kept)

theorem fireTag_kept {K : Field → Bool} {o : State} [Free K .bays] [Free K .parts] [Free K .pf] [Free K .flight] [Free K
    .fire] {c} {v} {s : State} (h : Kept K o s) : KeptRes K o (fireTag c v s) := by
  unfold fireTag
  repeat' (first
    | with_reducible assumption | with_reducible apply kept_next | with_reducible apply deliver_kept
    | with_reducible apply slotFault_kept | with_reducible apply sendNulls_kept | with_reducible apply fireSlot_kept
    | split | intro _)

theorem execGetf_kept {K : Field → Bool} {o : State} [Free K .bays] [Free K .parts] [Free K .pf] [Free K .flight] [Free K
    .fire] {c} {f} {s : State} (h : Kept K o s) : KeptRes K o (execGetf c f s) := by
  unfold execGetf
  repeat' (first | with_reducible assumption | with_reducible apply fireTag_kept)

theorem execSetf_kept {K : Field → Bool} {o : State} [Free K .bays] [Free K .parts] [Free K .pf] [Free K .flight] [Free K
    .fire] {c} {f} {s : State} (h : Kept K o s) : KeptRes K o (execSetf c f s) := by
  unfold execSetf
  repeat' (first | with_reducible assumption | with_reducible apply fireTag_kept)

theorem execPopf_kept {K : Field → Bool} {o : State} [Free K .bays] [Free K .parts] [Free K .pf] [Free K .flight] [Free K
    .fire] {c} {f} {s : State} (h : Kept K o s) : KeptRes K o (execPopf c f s) := by
  unfold execPopf
  repeat' (first | with_reducible assumption | with_reducible apply fireTag_kept)

theorem execPushf_kept {K : Field → Bool} {o : State} [Free K .bays] [Free K .parts] [Free K .pf] [Free K .flight] [Free K
    .fire] {c} {f} {s : State} (h : Kept K o s) : KeptRes K o (execPushf c f s) := by
  unfold execPushf
  repeat' (first | with_reducible assumption | with_reducible apply fireTag_kept)

theorem execIncf_kept {K : Field → Bool} {o : State} [Free K .bays] [Free K .parts] [Free K .pf] [Free K .flight] [Free K
    .fire] {c} {f} {s : State} (h : Kept K o s) : KeptRes K o (execIncf c f s) := by
  unfold execIncf
  repeat' (first | with_reducible assumption | with_reducible apply fireTag_kept)

theorem nullsAsA_kept {K : Field → Bool} {o : State} [Free K .flight] {c} {b} {m} {s : State} (h : Kept K o s) : Kept K o
    (nullsAsA c b m s) := by
  unfold nullsAsA
  repeat' (first | with_reducible assumption | with_reducible apply sendNulls_kept)

theorem fireCopy_kept {K : Field → Bool} {o : State} [Free K .bays] [Free K .parts] [Free K .pf] [Free K .flight] [Free K
    .fire] {c} {s : State} (h : Kept K o s) : KeptRes K o (fireCopy c s) := by
  unfold fireCopy
  repeat' (first
    | with_reducible assumption | with_reducible apply kept_next | with_reducible apply deliver_kept
    | with_reducible apply nullsAsA_kept | with_reducible apply fireSlot_kept | intro _)

theorem execSync_kept {K : Field → Bool} {o : State} [Free K .bays] [Free K .parts] [Free K .pf] [Free K .flight] [Free K
    .fire] {c} {f} {s : State} (h : Kept K o s) : KeptRes K o (execSync c f s) := by
  unfold execSync
  repeat' (first | with_reducible assumption | with_reducible apply fireCopy_kept)

theorem execNull_kept {K : Field → Bool} {o : State} [Free K .bays] [Free K .parts] [Free K .pf] [Free K .flight] [Free K
    .fire] {c} {f} {s : State} (h : Kept K o s) : KeptRes K o (execNull c f s) := by
  unfold execNull
  repeat' (first
    | with_reducible assumption | with_reducible apply kept_next | with_reducible apply sendNulls_kept
    | with_reducible apply fireSlot_kept)

theorem execGate_kept {K : Field → Bool} {o : State} [Free K .bays] [Free K .parts] [Free K .pf] [Free K .flight] [Free K
    .fire] {c} {f} {s : State} (h : Kept K o s) : KeptRes K o (execGate c f s) := by
  unfold execGate
  repeat' (first
    | with_reducible assumption | with_reducible apply kept_next | with_reducible apply deliver_kept
    | with_reducible apply nullsAsA_kept | with_reducible apply fireSlot_kept | split | intro _)

theorem execSteer_kept {K : Field → Bool} {o : State} [Free K .bays] [Free K .parts] [Free K .pf] [Free K .flight] [Free K
    .fire] {c} {f} {s : State} (h : Kept K o s) : KeptRes K o (execSteer c f s) := by
  unfold execSteer
  repeat' (first
    | with_reducible assumption | with_reducible apply kept_next | with_reducible apply sendTo_kept
    | with_reducible apply nullsAsA_kept | with_reducible apply fireSlot_kept | split | dsimp only | intro _)

theorem execConst_kept {K : Field → Bool} {o : State} [Free K .bays] [Free K .parts] [Free K .pf] [Free K .flight] [Free K
    .fire] {c} {f} {s : State} (h : Kept K o s) : KeptRes K o (execConst c f s) := by
  unfold execConst
  repeat' (first | with_reducible assumption | with_reducible apply fireVals_kept)

theorem sendRouted_kept {K : Field → Bool} {o : State} [Free K .bays] [Free K .parts] [Free K .pf] [Free K .flight] {c} {f}
    {k} {b} {m} {s : State} (h : Kept K o s) : Kept K o (sendRouted c f k b m s) := by
  unfold sendRouted
  repeat' (first
    | with_reducible assumption | with_reducible apply sendTo_kept | with_reducible apply slotFault_kept
    | with_reducible apply foldl_kept | split | dsimp only | intro _)

theorem execMov4_kept {K : Field → Bool} {o : State} [Free K .bays] [Free K .parts] [Free K .pf] [Free K .flight] [Free K
    .fire] {c} {f} {s : State} (h : Kept K o s) : KeptRes K o (execMov4 c f s) := by
  unfold execMov4
  repeat' (first
    | with_reducible assumption | with_reducible apply kept_next | with_reducible apply sendRouted_kept
    | with_reducible apply fireSlot_kept | intro _)

theorem execMov_kept {K : Field → Bool} {o : State} [Free K .bays] [Free K .parts] [Free K .pf] [Free K .flight] [Free K
    .fire] {c} {f} {s : State} (h : Kept K o s) : KeptRes K o (execMov c f s) := by
  unfold execMov
  repeat' (first | with_reducible assumption | with_reducible apply fireCopy_kept)

theorem holdTokens_kept {K : Field → Bool} {o : State} [Free K .bays] {hs} {b} {m} {s : State} (h : Kept K o s) : Kept K o
    (holdTokens hs b m s) := by
  unfold holdTokens
  repeat' (first | with_reducible assumption | with_reducible apply State.modInst_kept)

theorem countExit_kept {K : Field → Bool} {o : State} [Free K .bays] [Free K .parts] [Free K .pf] {f} {endS} {depth} {hs}
    {b} {m} {s : State} (h : Kept K o s) : Kept K o (countExit f endS depth hs b m s) := by
  unfold countExit
  repeat' (first
    | with_reducible assumption | with_reducible apply State.modInst_kept | with_reducible apply holdTokens_kept
    | with_reducible apply State.takeFault_kept | split)

theorem deliverPoi_kept {K : Field → Bool} {o : State} [Free K .flight] {c} {v} {poi} {b} {m} {s : State} (h : Kept K o s) :
    Kept K o (deliverPoi c v poi b m s) := by
  unfold deliverPoi
  repeat' (first | with_reducible assumption | with_reducible apply sendTo_kept)

theorem waitSet_kept {K : Field → Bool} {o : State} [Free K .bays] {b} {m} {s : State} (h : Kept K o s) : Kept K o (waitSet
    b m s) := by
  unfold waitSet
  repeat' (first | with_reducible assumption | with_reducible apply State.modElem_kept)

theorem putKeep_kept {K : Field → Bool} {o : State} [Free K .bays] {f} {nul} {v} {b} {m} {s : State} (h : Kept K o s) : Kept
    K o (putKeep f nul v b m s) := by
  unfold putKeep
  repeat' (first | with_reducible assumption | with_reducible apply State.modBay_kept | with_reducible apply State.modInst_kept)

theorem execKput_kept {K : Field → Bool} {o : State} [Free K .bays] [Free K .parts] [Free K .pf] [Free K .fire] {c} {f} {s :
    State} (h : Kept K o s) : KeptRes K o (execKput c f s) := by
  unfold execKput
  repeat' (first
    | with_reducible assumption | with_reducible apply kept_next | with_reducible apply slotFault_kept
    | with_reducible apply putKeep_kept | with_reducible apply fireSlot_kept | split | intro _)

theorem execKget_kept {K : Field → Bool} {o : State} [Free K .bays] [Free K .parts] [Free K .pf] [Free K .flight] [Free K
    .fire] {c} {f} {s : State} (h : Kept K o s) : KeptRes K o (execKget c f s) := by
  unfold execKget
  repeat' (first
    | with_reducible assumption | with_reducible apply kept_next | with_reducible apply waitSet_kept
    | with_reducible apply deliverPoi_kept | with_reducible apply slotFault_kept | with_reducible apply sendNulls_kept
    | with_reducible apply fireSlot_kept | split | dsimp only | intro _)

theorem execDiscard_kept {K : Field → Bool} {o : State} [Free K .bays] [Free K .parts] [Free K .pf] [Free K .fire] {c} {f}
    {s : State} (h : Kept K o s) : KeptRes K o (execDiscard c f s) := by
  unfold execDiscard
  repeat' (first
    | with_reducible assumption | with_reducible apply kept_next | with_reducible apply State.modInst_kept
    | with_reducible apply fireSlot_kept | intro _)

theorem execRet_kept {K : Field → Bool} {o : State} [Free K .bays] [Free K .parts] [Free K .pf] [Free K .fire] {c} {f} {s :
    State} (h : Kept K o s) : KeptRes K o (execRet c f s) := by
  unfold execRet
  repeat' (first
    | with_reducible assumption | with_reducible apply kept_next | with_reducible apply slotFault_kept
    | with_reducible apply countExit_kept | with_reducible apply fireSlot_kept | split | dsimp only | intro _)

theorem fireExit_kept {K : Field → Bool} {o : State} [Free K .bays] [Free K .parts] [Free K .pf] [Free K .fire] {call} {c}
    {f} {s : State} (h : Kept K o s) : KeptRes K o (fireExit call c f s) := by
  unfold fireExit
  repeat' (first
    | with_reducible assumption | with_reducible apply kept_next | with_reducible apply holdTokens_kept
    | with_reducible apply slotFault_kept | with_reducible apply countExit_kept | with_reducible apply fireSlot_kept
    | split | dsimp only | intro _)

theorem execCall_kept {K : Field → Bool} {o : State} [Free K .bays] [Free K .parts] [Free K .pf] [Free K .fire] {c} {f} {s :
    State} (h : Kept K o s) : KeptRes K o (execCall c f s) := by
  unfold execCall
  repeat' (first | with_reducible assumption | with_reducible apply fireExit_kept)

theorem execExit_kept {K : Field → Bool} {o : State} [Free K .bays] [Free K .parts] [Free K .pf] [Free K .fire] {c} {f} {s :
    State} (h : Kept K o s) : KeptRes K o (execExit c f s) := by
  unfold execExit
  repeat' (first | with_reducible assumption | with_reducible apply fireExit_kept)

theorem holdUpd_kept {K : Field → Bool} {o : State} [Free K .bays] {u} {b} {m} {s : State} (h : Kept K o s) : Kept K o
    (holdUpd u b m s) := by
  unfold holdUpd
  repeat' (first | with_reducible assumption | with_reducible apply State.modInst_kept)

theorem takeRec_kept {K : Field → Bool} {o : State} [Free K .bays] {n} {b} {m} {s : State} (h : Kept K o s) : Kept K o
    (takeRec n b m s).2 := by
  unfold takeRec
  repeat' (first | with_reducible assumption | with_reducible apply State.modGate_kept | split | dsimp only)

theorem fireRec_kept {K : Field → Bool} {o : State} [Free K .bays] [Free K .parts] [Free K .pf] [Free K .flight] [Free K
    .fire] {c n0 go} {s : State} (hg : ∀ b m t, Kept K o t → Kept K o (go b m t)) (h : Kept K o s) : KeptRes K o (fireRec c n0
    go s) := by
  unfold fireRec
  split
  · exact kept_next h
  · split
    · exact kept_next (fireSlot_kept (fun b m t ht => sendNulls_kept ht) hg h)
    · exact kept_next (waitSet_kept (kept_fire h))

theorem execFold_kept {K : Field → Bool} {o : State} [Free K .bays] [Free K .parts] [Free K .pf] [Free K .flight] [Free K
    .fire] {c} {f} {s : State} (h : Kept K o s) : KeptRes K o (execFold c f s) := by
  unfold execFold
  repeat' (first
    | with_reducible assumption | with_reducible apply holdUpd_kept | with_reducible apply deliver2_kept
    | with_reducible apply takeRec_kept | with_reducible apply fireRec_kept | split | dsimp only | intro _)

theorem execCount_kept {K : Field → Bool} {o : State} [Free K .bays] [Free K .parts] [Free K .pf] [Free K .flight] [Free K
    .fire] {c} {f} {s : State} (h : Kept K o s) : KeptRes K o (execCount c f s) := by
  unfold execCount
  repeat' (first
    | with_reducible assumption | with_reducible apply holdUpd_kept | with_reducible apply deliver2_kept
    | with_reducible apply takeRec_kept | with_reducible apply fireRec_kept | intro _)

theorem translateVa_kept {K : Field → Bool} {o : State} [Free K .mem] [Free K .poison] [Free K .pkgBad] [Free K .bays] {s :
    State} {b} {ctx} {va} {n} {back} (h : Kept K o s) : (translateVa s b ctx va n back).Good K o := by
  unfold translateVa
  repeat' (first
    | with_reducible assumption | with_reducible apply Xlat.good_ok | with_reducible apply Xlat.good_fault
    | with_reducible apply Xlat.good_poison | with_reducible apply Xlat.good_park | with_reducible apply Xlat.good_busy
    | with_reducible apply State.modBay_kept | with_reducible apply State.writeBytes_kept
    | with_reducible apply State.setBay_kept | split | dsimp only)

theorem translateFor_kept {K : Field → Bool} {o : State} [Free K .mem] [Free K .poison] [Free K .pkgBad] [Free K .bays] {s :
    State} {b} {ctx} {va} {phys} {n} {back} (h : Kept K o s) : (translateFor s b ctx va phys n back).Good K o := by
  unfold translateFor
  repeat' (first
    | with_reducible assumption | with_reducible apply Xlat.good_ok | with_reducible apply Xlat.good_fault
    | with_reducible apply translateVa_kept | split | dsimp only)

theorem State.loseTrace_kept {K : Field → Bool} {o : State} [Free K .parts] [Free K .pf] {s : State} {n} {ctx} {y} {f} (h :
    Kept K o s) : Kept K o (State.loseTrace s n ctx y f) := by
  unfold State.loseTrace
  repeat' (first | with_reducible assumption | with_reducible apply State.modPart_kept)

theorem State.handOver_kept {K : Field → Bool} {o : State} [Free K .parts] [Free K .pf] [Free K .flight] {s : State} {b} {p}
    (h : Kept K o s) : Kept K o (State.handOver s b p) := by
  unfold State.handOver
  repeat' (first
    | with_reducible assumption | with_reducible apply State.modPart_kept | with_reducible apply State.loseTrace_kept
    | with_reducible apply State.send_kept | split | dsimp only)

theorem State.emit_kept {K : Field → Bool} {o : State} [Free K .bays] [Free K .parts] [Free K .pf] [Free K .flight] {s :
    State} {p} (h : Kept K o s) : Kept K o (State.emit s p) := by
  unfold State.emit
  repeat' (first
    | with_reducible assumption | with_reducible apply State.modBay_kept | with_reducible apply State.handOver_kept | split
    | dsimp only)

theorem State.sendRep_kept {K : Field → Bool} {o : State} [Free K .bays] [Free K .parts] [Free K .pf] [Free K .flight] {s :
    State} {home} {p} (h : Kept K o s) : Kept K o (State.sendRep s home p) := by
  unfold State.sendRep
  repeat' (first
    | with_reducible assumption | with_reducible apply State.emit_kept | with_reducible apply State.send_kept | split)

theorem State.sendReq_kept {K : Field → Bool} {o : State} [Free K .bays] [Free K .parts] [Free K .pf] [Free K .flight] {s :
    State} {home} {p} (h : Kept K o s) : Kept K o (State.sendReq s home p) := by
  unfold State.sendReq
  repeat' (first
    | with_reducible assumption | with_reducible apply State.emit_kept | with_reducible apply State.send_kept | split)

theorem acquireActions_kept {K : Field → Bool} {o : State} [Free K .bays] {s : State} {b} {ctx} {scope} (h : Kept K o s) :
    Kept K o (acquireActions s b ctx scope) := by
  unfold acquireActions
  repeat' (first
    | with_reducible assumption | with_reducible apply State.modSite_kept | with_reducible apply foldl_kept | split
    | intro _)

theorem modBuf_kept {K : Field → Bool} {o : State} [Free K .bays] {s : State} {b} {k} {i} {f} (h : Kept K o s) : Kept K o
    (modBuf s b k i f) := by
  unfold modBuf
  repeat' (first | with_reducible assumption | with_reducible apply State.modSite_kept)

theorem countFill_kept {K : Field → Bool} {o : State} [Free K .bays] {s : State} {b} {k} {since} (h : Kept K o s) : Kept K o
    (countFill s b k since) := by
  unfold countFill
  repeat' (first | with_reducible assumption | with_reducible apply State.modSite_kept)

theorem endFill_kept {K : Field → Bool} {o : State} [Free K .bays] {s : State} {b} {k} {i} (h : Kept K o s) : Kept K o
    (endFill s b k i) := by
  unfold endFill
  repeat' (first
    | with_reducible assumption | with_reducible apply modBuf_kept | with_reducible apply countFill_kept
    | with_reducible apply foldl_kept | split | dsimp only | intro _)

theorem askXlat_kept {K : Field → Bool} {o : State} [Free K .bays] {s : State} {b} {ctx} {va} {write} {goal} (h : Kept K o
    s) : Kept K o (askXlat s b ctx va write goal) := by
  unfold askXlat
  repeat' (first | with_reducible assumption | with_reducible apply State.modBay_kept)

theorem engineFault_kept {K : Field → Bool} {o : State} [Free K .bays] [Free K .parts] [Free K .pf] {s : State} {b} {k}
    {back} {code} {d} {full} (h : Kept K o s) : Kept K o (engineFault s b k back code d full) := by
  unfold engineFault
  repeat' (first | with_reducible assumption | with_reducible apply State.stopEngine_kept | split)

theorem holdFills_kept {K : Field → Bool} {o : State} [Free K .bays] {s : State} {b} {k} {p} {v} (h : Kept K o s) : Kept K o
    (holdFills s b k p v) := by
  unfold holdFills
  repeat' (first | with_reducible assumption | with_reducible apply State.modBay_kept)

theorem fillFault_kept {K : Field → Bool} {o : State} [Free K .bays] [Free K .parts] [Free K .pf] {s : State} {b} {k} {i}
    {code} {d} (h : Kept K o s) : Kept K o (fillFault s b k i code d) := by
  unfold fillFault
  repeat' (first | with_reducible assumption | with_reducible apply engineFault_kept | with_reducible apply holdFills_kept)

theorem startFill_kept {K : Field → Bool} {o : State} [Free K .bays] [Free K .parts] [Free K .pf] {s : State} {b} {k} {i}
    {base} (h : Kept K o s) : Kept K o (startFill s b k i base) := by
  unfold startFill
  repeat' (first
    | with_reducible assumption | with_reducible apply modBuf_kept | with_reducible apply endFill_kept
    | with_reducible apply askXlat_kept | with_reducible apply fillFault_kept | split)

theorem takeFill_kept {K : Field → Bool} {o : State} [Free K .bays] [Free K .parts] [Free K .pf] {s : State} {b} {k} {i}
    {base} {n} (h : Kept K o s) : Kept K o (takeFill s b k i base n) := by
  unfold takeFill
  repeat' (first
    | with_reducible assumption | with_reducible apply State.modSite_kept | with_reducible apply startFill_kept | split)

theorem preload_kept {K : Field → Bool} {o : State} [Free K .bays] [Free K .parts] [Free K .pf] {s : State} {b} {k} (h :
    Kept K o s) : Kept K o (preload s b k) := by
  unfold preload
  repeat' (first
    | with_reducible assumption | with_reducible apply takeFill_kept | with_reducible apply foldl_kept | split | intro _)

theorem openLife_kept {K : Field → Bool} {o : State} [Free K .bays] [Free K .parts] [Free K .pf] {s : State} {b} {k} {key}
    (h : Kept K o s) : Kept K o (openLife s b k key) := by
  unfold openLife
  repeat' (first
    | with_reducible assumption | with_reducible apply State.modSite_kept | with_reducible apply preload_kept | split)

theorem backDone_kept {K : Field → Bool} {o : State} [Free K .bays] {s : State} {b} {k} {i} (h : Kept K o s) : Kept K o
    (backDone s b k i) := by
  unfold backDone
  repeat' (first | with_reducible assumption | with_reducible apply modBuf_kept)

theorem sendOne_kept {K : Field → Bool} {o : State} [Free K .bays] [Free K .parts] [Free K .pf] [Free K .flight] {s : State}
    {b} {i} (h : Kept K o s) : Kept K o (sendOne s b i) := by
  unfold sendOne
  repeat' (first
    | with_reducible assumption | with_reducible apply State.sendReq_kept | with_reducible apply State.modBay_kept | split
    | dsimp only)

theorem pumpReqs_kept {K : Field → Bool} {o : State} [Free K .bays] [Free K .parts] [Free K .pf] [Free K .flight] {s :
    State} {b} (h : Kept K o s) : Kept K o (pumpReqs s b) := by
  unfold pumpReqs
  repeat' (first | with_reducible assumption | with_reducible apply sendOne_kept | with_reducible apply foldl_kept | intro _)

theorem issueReq_kept {K : Field → Bool} {o : State} [Free K .bays] [Free K .parts] [Free K .pf] [Free K .flight] {s :
    State} {b} {r} (h : Kept K o s) : Kept K o (issueReq s b r) := by
  unfold issueReq
  repeat' (first | with_reducible assumption | with_reducible apply State.modBay_kept | with_reducible apply pumpReqs_kept)

theorem parkWrite_kept {K : Field → Bool} {o : State} [Free K .bays] {s : State} {b} {ctx} {va} {g} (h : Kept K o s) : Kept
    K o (parkWrite s b ctx va g) := by
  unfold parkWrite
  repeat' (first | with_reducible assumption | with_reducible apply State.modBay_kept)

theorem writeRun_kept {K : Field → Bool} {o : State} [Free K .mem] [Free K .poison] [Free K .pkgBad] [Free K .bays] [Free K
    .parts] [Free K .pf] [Free K .flight] {s : State} {b} {ctx} {unit} {va} {scope} {phys} {n} {bs} {poi} {goal} {g} {back} (h :
    Kept K o s) : (writeRun s b ctx unit va scope phys n bs poi goal g back).Good K o := by
  unfold writeRun
  repeat' (first
    | with_reducible assumption | with_reducible apply Wr.good_done | with_reducible apply Wr.good_fault
    | with_reducible apply Wr.good_bad | with_reducible apply Wr.good_full | with_reducible apply Wr.good_wait
    | with_reducible apply issueReq_kept | with_reducible apply parkWrite_kept | with_reducible apply translateFor_kept
    | (refine Xlat.ok_kept (by assumption) ?_) | split)

theorem writeRuns_kept {K : Field → Bool} {o : State} [Free K .mem] [Free K .poison] [Free K .pkgBad] [Free K .bays] [Free K
    .parts] [Free K .pf] [Free K .flight] {b k i scope l s} (h : Kept K o s) : Kept K o (writeRuns b k i scope l s).2 := by
  induction l generalizing s with
  | nil => exact h
  | cons e es ih =>
    obtain ⟨va, p, n⟩ := e
    unfold writeRuns
    split
    · exact h
    · dsimp only
      split
      · rename_i he
        exact Wr.wait_kept he (writeRun_kept h)
      · rename_i he
        exact ih (modBuf_kept (Wr.done_kept he (writeRun_kept h)))
      · exact kept_mapD h (fun _ => engineFault_kept h) _

theorem writeBack_kept {K : Field → Bool} {o : State} [Free K .mem] [Free K .poison] [Free K .pkgBad] [Free K .bays] [Free K
    .parts] [Free K .pf] [Free K .flight] {s : State} {b} {k} {i} {scope} (h : Kept K o s) : Kept K o (writeBack s b k i
    scope).2 := by
  unfold writeBack
  repeat' (first
    | with_reducible assumption | with_reducible apply backDone_kept | with_reducible apply State.modSite_kept
    | with_reducible apply writeRuns_kept | split | dsimp only)

theorem writeBackSite_kept {K : Field → Bool} {o : State} [Free K .mem] [Free K .poison] [Free K .pkgBad] [Free K .bays]
    [Free K .parts] [Free K .pf] [Free K .flight] {s : State} {b} {k} {p} {scope} (h : Kept K o s) : Kept K o (writeBackSite s b
    k p scope).2 := by
  unfold writeBackSite
  repeat' (first
    | with_reducible assumption | with_reducible apply writeBack_kept | with_reducible apply foldl_kept2 | split | intro _)

theorem releaseActions_kept {K : Field → Bool} {o : State} [Free K .mem] [Free K .poison] [Free K .pkgBad] [Free K .bays]
    [Free K .parts] [Free K .pf] [Free K .flight] {s : State} {b} {ctx} {scope} (h : Kept K o s) : Kept K o (releaseActions s b
    ctx scope).2 := by
  unfold releaseActions
  repeat' (first
    | with_reducible assumption | with_reducible apply writeBackSite_kept | with_reducible apply foldl_kept2 | intro _)

theorem directoryUpdate_kept {K : Field → Bool} {o : State} [Free K .bays] {s : State} {b} {k} {va} {bs} {poi} (h : Kept K o
    s) : Kept K o (directoryUpdate s b k va bs poi) := by
  unfold directoryUpdate
  repeat' (first
    | with_reducible assumption | with_reducible apply State.modSite_kept | with_reducible apply foldl_kept | split
    | intro _)

theorem wholeLines_kept {K : Field → Bool} {o : State} [Free K .mem] [Free K .poison] [Free K .pkgBad] [Free K .bays] [Free
    K .parts] [Free K .pf] [Free K .flight] {s : State} {b} {k} (h : Kept K o s) : Kept K o (wholeLines s b k) := by
  unfold wholeLines
  repeat' (first
    | with_reducible assumption | with_reducible apply writeBack_kept | with_reducible apply foldl_kept | split | intro _)

theorem zeroLine_kept {K : Field → Bool} {o : State} [Free K .mem] [Free K .poison] [Free K .pkgBad] [Free K .bays] [Free K
    .parts] [Free K .pf] [Free K .flight] {s : State} {b} {k} {i} (h : Kept K o s) : Kept K o (zeroLine s b k i) := by
  unfold zeroLine
  repeat' (first
    | with_reducible assumption | with_reducible apply State.modSite_kept | with_reducible apply modBuf_kept
    | with_reducible apply directoryUpdate_kept | with_reducible apply wholeLines_kept | with_reducible apply foldl_kept
    | split | dsimp only | intro _)

theorem freeBuf_kept {K : Field → Bool} {o : State} [Free K .mem] [Free K .poison] [Free K .pkgBad] [Free K .bays] [Free K
    .parts] [Free K .pf] [Free K .flight] {s : State} {b} {k} (h : Kept K o s) : Kept K o (freeBuf s b k).2 := by
  unfold freeBuf
  repeat' (first
    | with_reducible assumption | with_reducible apply writeBack_kept | with_reducible apply zeroLine_kept | split
    | dsimp only)

theorem touchBuf_kept {K : Field → Bool} {o : State} [Free K .bays] {s : State} {b} {k} {i} (h : Kept K o s) : Kept K o
    (touchBuf s b k i) := by
  unfold touchBuf
  repeat' (first | with_reducible assumption | with_reducible apply State.modSite_kept)

theorem storeBuf_kept {K : Field → Bool} {o : State} [Free K .mem] [Free K .poison] [Free K .pkgBad] [Free K .bays] [Free K
    .parts] [Free K .pf] [Free K .flight] {s : State} {b} {k} {base} (h : Kept K o s) : Kept K o (storeBuf s b k base).2 := by
  unfold storeBuf
  repeat' (first
    | with_reducible assumption | with_reducible apply State.modSite_kept | with_reducible apply freeBuf_kept
    | (refine pair_kept (by assumption) ?_) | split)

theorem zskipLine_kept {K : Field → Bool} {o : State} [Free K .mem] [Free K .poison] [Free K .pkgBad] [Free K .bays] [Free K
    .parts] [Free K .pf] [Free K .flight] {s : State} {b} {k} {base} {scope} {keep} (h : Kept K o s) : Kept K o (zskipLine s b k
    base scope keep).2 := by
  unfold zskipLine
  repeat' (first
    | with_reducible assumption | with_reducible apply modBuf_kept | with_reducible apply zeroLine_kept
    | with_reducible apply writeBack_kept | with_reducible apply storeBuf_kept | (refine pair_kept (by assumption) ?_)
    | split | dsimp only)

theorem zskipComplete_kept {K : Field → Bool} {o : State} [Free K .mem] [Free K .poison] [Free K .pkgBad] [Free K .bays]
    [Free K .parts] [Free K .pf] [Free K .flight] {s : State} {b} {k} {scope} (h : Kept K o s) : Kept K o (zskipComplete s b k
    scope).2 := by
  unfold zskipComplete
  repeat' (first
    | with_reducible assumption | with_reducible apply zskipLine_kept | with_reducible apply foldl_kept2 | split | intro _)

theorem closeReq_kept {K : Field → Bool} {o : State} [Free K .bays] [Free K .parts] [Free K .pf] [Free K .flight] {s :
    State} {b} {r} {echo} (h : Kept K o s) : Kept K o (closeReq s b r echo) := by
  unfold closeReq
  repeat' (first | with_reducible assumption | with_reducible apply pumpReqs_kept | with_reducible apply State.modBay_kept)

theorem forgetFills_kept {K : Field → Bool} {o : State} [Free K .bays] {s : State} {b} {k} (h : Kept K o s) : Kept K o
    (forgetFills s b k) := by
  unfold forgetFills
  repeat' (first | with_reducible assumption | with_reducible apply State.modBay_kept)

theorem remerge_kept {K : Field → Bool} {o : State} [Free K .bays] [Free K .parts] [Free K .pf] {s : State} {b} {ctx} (h :
    Kept K o s) : Kept K o (remerge s b ctx) := by
  unfold remerge
  repeat' (first
    | with_reducible assumption | with_reducible apply modBuf_kept | with_reducible apply startFill_kept
    | with_reducible apply foldl_kept | split | dsimp only | intro _)

theorem endLife_kept {K : Field → Bool} {o : State} [Free K .mem] [Free K .poison] [Free K .pkgBad] [Free K .bays] [Free K
    .parts] [Free K .pf] [Free K .flight] {s : State} {b} {k} (h : Kept K o s) : Kept K o (endLife s b k).2 := by
  unfold endLife
  repeat' (first
    | with_reducible assumption | with_reducible apply forgetFills_kept | with_reducible apply State.modSite_kept
    | with_reducible apply remerge_kept | with_reducible apply writeBackSite_kept | with_reducible apply zskipComplete_kept
    | split | dsimp only)

theorem noteDirty_kept {K : Field → Bool} {o : State} [Free K .bays] {s : State} {ctx} {l} {n} (h : Kept K o s) : Kept K o
    (noteDirty s ctx l n) := by
  unfold noteDirty
  repeat' (first | with_reducible assumption | with_reducible apply State.modCtx_kept | split)

end Sys2Proof.Machine
end

