-- ==== Sys2Proof/Laws/FrameMemory.lean ====
section
/-!
SUPPORT. Sys2Proof/Laws/FrameMemory.lean: what the memory operations leave alone (`Kept`): one lemma per function, whose `Free` premises are the
fields it may change.
-/
namespace Sys2Proof.Machine

open Sys2Proof

theorem addWaiter_kept {K : Field → Bool} {o : State} [Free K .bays] {s : State} {b} {k} {w} (h : Kept K o s) : Kept K o
    (addWaiter s b k w) := by
  unfold addWaiter
  repeat' (first | with_reducible assumption | with_reducible apply State.modSite_kept)

theorem modOp_kept {K : Field → Bool} {o : State} [Free K .bays] {s : State} {b} {g} {ix} {lsid} {f} (h : Kept K o s) : Kept
    K o (modOp s b g ix lsid f) := by
  unfold modOp
  repeat' (first | with_reducible assumption | with_reducible apply State.modInst_kept)

theorem opSend_kept {K : Field → Bool} {o : State} [Free K .flight] {s : State} {b} {g} {ix} {y} {v0} {v1} (h : Kept K o s)
    : Kept K o (opSend s b g ix y v0 v1) := by
  unfold opSend
  repeat' (first | with_reducible assumption | with_reducible apply State.sendTarget_kept)

theorem opDone_kept {K : Field → Bool} {o : State} [Free K .bays] [Free K .flight] {s : State} {b} {g} {ix} {y} {v0} {v1} (h
    : Kept K o s) : Kept K o (opDone s b g ix y v0 v1) := by
  unfold opDone
  repeat' (first | with_reducible assumption | with_reducible apply modOp_kept | with_reducible apply opSend_kept)

theorem placeEnt_kept {K : Field → Bool} {o : State} [Free K .bays] [Free K .flight] {s : State} {b} {g} {ix} {y} {e} (h :
    Kept K o s) : Kept K o (placeEnt s b g ix y e) := by
  unfold placeEnt
  repeat' (first
    | with_reducible assumption | with_reducible apply opDone_kept | with_reducible apply State.modInst_kept
    | with_reducible apply State.modBay_kept)

theorem serveSrel_kept {K : Field → Bool} {o : State} [Free K .bays] [Free K .flight] {s : State} {b} {k} {w} {first} (h :
    Kept K o s) : Kept K o (serveSrel s b k w first) := by
  unfold serveSrel
  repeat' (first
    | with_reducible assumption | with_reducible apply opDone_kept | with_reducible apply modBuf_kept
    | with_reducible apply State.modSite_kept | split | dsimp only)

theorem doSinv_kept {K : Field → Bool} {o : State} [Free K .bays] [Free K .parts] [Free K .pf] {s : State} {b} {k} {key}
    {strt} (h : Kept K o s) : Kept K o (doSinv s b k key strt) := by
  unfold doSinv
  repeat' (first
    | with_reducible assumption | with_reducible apply preload_kept | with_reducible apply openLife_kept
    | with_reducible apply State.modSite_kept | split)

theorem opFault_kept {K : Field → Bool} {o : State} [Free K .bays] [Free K .parts] [Free K .pf] {s : State} {b} {g} {ix} {y}
    {code} {d} (h : Kept K o s) : Kept K o (opFault s b g ix y code d) := by
  unfold opFault
  repeat' (first | with_reducible assumption | with_reducible apply modOp_kept | with_reducible apply State.takeFault_kept)

theorem dropWaiter_kept {K : Field → Bool} {o : State} [Free K .bays] {s : State} {b} {k} {w} (h : Kept K o s) : Kept K o
    (dropWaiter s b k w) := by
  unfold dropWaiter
  repeat' (first | with_reducible assumption | with_reducible apply State.modSite_kept)

theorem countReply_kept {K : Field → Bool} {o : State} [Free K .bays] {s : State} {b} {g} {ix} {y} (h : Kept K o s) : Kept K
    o (countReply s b g ix y) := by
  unfold countReply
  repeat' (first | with_reducible assumption | with_reducible apply State.modHitch_kept | split)

theorem opValue_kept {K : Field → Bool} {o : State} [Free K .bays] [Free K .flight] {s : State} {b} {g} {ix} {y} {v0} {v1}
    (h : Kept K o s) : Kept K o (opValue s b g ix y v0 v1) := by
  unfold opValue
  repeat' (first | with_reducible assumption | with_reducible apply countReply_kept | with_reducible apply opDone_kept)

theorem finishLoad_kept {K : Field → Bool} {o : State} [Free K .bays] [Free K .parts] [Free K .pf] [Free K .flight] {s :
    State} {b} {x} {w} {y} {bs} {poi} (h : Kept K o s) : Kept K o (finishLoad s b x w y bs poi) := by
  unfold finishLoad
  repeat' (first
    | with_reducible assumption | with_reducible apply opValue_kept | with_reducible apply acquireActions_kept
    | with_reducible apply opFault_kept | split | dsimp only)

theorem serveOrFetch_kept {K : Field → Bool} {o : State} [Free K .mem] [Free K .poison] [Free K .pkgBad] [Free K .bays]
    [Free K .parts] [Free K .pf] [Free K .flight] {s : State} {b} {k} {x} {w} {y} (h : Kept K o s) : Kept K o (serveOrFetch s b
    k x w y) := by
  unfold serveOrFetch
  repeat' (first
    | with_reducible assumption | with_reducible apply takeFill_kept | with_reducible apply freeBuf_kept
    | with_reducible apply opFault_kept | with_reducible apply modBuf_kept | with_reducible apply startFill_kept
    | with_reducible apply dropWaiter_kept | with_reducible apply touchBuf_kept | with_reducible apply finishLoad_kept
    | (refine pair_kept (by assumption) ?_) | split | dsimp only)

theorem serveBuffered_kept {K : Field → Bool} {o : State} [Free K .mem] [Free K .poison] [Free K .pkgBad] [Free K .bays]
    [Free K .parts] [Free K .pf] [Free K .flight] {s : State} {b} {k} {x} {w} {y} (h : Kept K o s) : Kept K o (serveBuffered s b
    k x w y) := by
  unfold serveBuffered
  repeat' (first | with_reducible assumption | with_reducible apply serveOrFetch_kept | split | dsimp only)

theorem serveZskip_kept {K : Field → Bool} {o : State} [Free K .bays] [Free K .parts] [Free K .pf] [Free K .flight] {s :
    State} {b} {k} {x} {w} {y} (h : Kept K o s) : Kept K o (serveZskip s b k x w y) := by
  unfold serveZskip
  repeat' (first
    | with_reducible assumption | with_reducible apply opValue_kept | with_reducible apply acquireActions_kept
    | with_reducible apply State.modSite_kept | with_reducible apply dropWaiter_kept | with_reducible apply opFault_kept
    | split | dsimp only)

theorem serveWaiter_kept {K : Field → Bool} {o : State} [Free K .mem] [Free K .poison] [Free K .pkgBad] [Free K .bays] [Free
    K .parts] [Free K .pf] [Free K .flight] {s : State} {b} {k} {w} (h : Kept K o s) : Kept K o (serveWaiter s b k w) := by
  unfold serveWaiter
  repeat' (first
    | with_reducible assumption | with_reducible apply serveBuffered_kept | with_reducible apply serveZskip_kept
    | with_reducible apply askXlat_kept | with_reducible apply dropWaiter_kept | with_reducible apply placeEnt_kept
    | with_reducible apply openLife_kept | split | dsimp only)

theorem issueOp_kept {K : Field → Bool} {o : State} [Free K .mem] [Free K .poison] [Free K .pkgBad] [Free K .bays] [Free K
    .parts] [Free K .pf] [Free K .flight] {s : State} {b} {g} {ix} {y} (h : Kept K o s) : Kept K o (issueOp s b g ix y) := by
  unfold issueOp
  repeat' (first
    | with_reducible assumption | with_reducible apply placeEnt_kept | with_reducible apply acquireActions_kept
    | with_reducible apply State.modSite_kept | with_reducible apply serveSrel_kept | with_reducible apply doSinv_kept
    | with_reducible apply opDone_kept | with_reducible apply askXlat_kept | with_reducible apply releaseActions_kept
    | with_reducible apply addWaiter_kept | with_reducible apply serveWaiter_kept | with_reducible apply modOp_kept | split
    | dsimp only)

theorem pumpInst_kept {K : Field → Bool} {o : State} [Free K .mem] [Free K .poison] [Free K .pkgBad] [Free K .bays] [Free K
    .parts] [Free K .pf] [Free K .flight] {b g ix n s} (h : Kept K o s) : Kept K o (pumpInst b g ix n s) := by
  induction n generalizing s with
  | zero => exact h
  | succ n ih =>
    unfold pumpInst
    repeat' (first
      | with_reducible assumption | with_reducible apply ih | with_reducible apply issueOp_kept | split | dsimp only)

theorem kickOnce_kept {K : Field → Bool} {o : State} [Free K .mem] [Free K .poison] [Free K .pkgBad] [Free K .bays] [Free K
    .parts] [Free K .pf] [Free K .flight] {b} {s : State} (h : Kept K o s) : Kept K o (kickOnce b s) := by
  unfold kickOnce
  repeat' (first
    | with_reducible assumption | with_reducible apply pumpInst_kept | with_reducible apply serveSrel_kept
    | with_reducible apply serveWaiter_kept | with_reducible apply foldl_kept | split | intro _)

theorem kickBay_kept {K : Field → Bool} {o : State} [Free K .mem] [Free K .poison] [Free K .pkgBad] [Free K .bays] [Free K
    .parts] [Free K .pf] [Free K .flight] {b n s} (h : Kept K o s) : Kept K o (kickBay b n s) := by
  induction n generalizing s with
  | zero => exact h
  | succ n ih =>
    unfold kickBay
    repeat' (first
      | with_reducible assumption | with_reducible apply ih | with_reducible apply kickOnce_kept | split | dsimp only)

theorem kick_kept {K : Field → Bool} {o : State} [Free K .mem] [Free K .poison] [Free K .pkgBad] [Free K .bays] [Free K
    .parts] [Free K .pf] [Free K .flight] {s : State} {b} (h : Kept K o s) : Kept K o (kick s b) := by
  unfold kick
  repeat' (first | with_reducible assumption | with_reducible apply kickBay_kept)

theorem kickLdos_kept {K : Field → Bool} {o : State} [Free K .mem] [Free K .poison] [Free K .pkgBad] [Free K .bays] [Free K
    .parts] [Free K .pf] [Free K .flight] {s : State} (h : Kept K o s) : Kept K o (kickLdos s) := by
  unfold kickLdos
  repeat' (first
    | with_reducible assumption | with_reducible apply kick_kept | with_reducible apply foldl_kept | split | intro _)

theorem pinInst_kept {K : Field → Bool} {o : State} [Free K .bays] {b} {m} {s : State} (h : Kept K o s) : Kept K o (pinInst
    b m s) := by
  unfold pinInst
  repeat' (first | with_reducible assumption | with_reducible apply State.modInst_kept)

theorem noteFired_kept {K : Field → Bool} {o : State} [Free K .bays] {lsid} {b} {m} {s : State} (h : Kept K o s) : Kept K o
    (noteFired lsid b m s) := by
  unfold noteFired
  repeat' (first | with_reducible assumption | with_reducible apply State.modInst_kept)

theorem scopeOf_kept {K : Field → Bool} {o : State} [Free K .bays] [Free K .parts] [Free K .pf] {s : State} {b m sc p} (h :
    Kept K o s) (e : scopeOf s b m sc = .ok p) : Kept K o p.2 := by
  unfold scopeOf at e
  split at e
  · cases e
    exact h
  · dsimp only at e
    rename_i c hc
    by_cases h1 : sc ≤ c.scopePol % 8
    · rw [if_pos h1] at e
      cases e
      exact h
    · rw [if_neg h1] at e
      split at e
      · cases e
      · split at e
        · cases e
          exact h
        · cases e
          exact State.modCtx_kept (State.modPart_kept h)

theorem scopePol_kept {K : Field → Bool} {o : State} [Free K .bays] [Free K .parts] [Free K .pf] {s : State} {b m sc pol x
    p} (h : Kept K o s)
    (e : (if pol = true then scopeOf s b m sc else .ok (x, s)) = .ok p) : Kept K o p.2 := by
  split at e
  · exact scopeOf_kept h e
  · cases e
    exact h

theorem nullOp_kept {K : Field → Bool} {o : State} [Free K .mem] [Free K .poison] [Free K .pkgBad] [Free K .bays] [Free K
    .parts] [Free K .pf] [Free K .flight] {c} {f} {kind} {n0} {n1} {b} {m} {s : State} (h : Kept K o s) : Kept K o (nullOp c f
    kind n0 n1 b m s) := by
  unfold nullOp
  repeat' (first
    | with_reducible assumption | with_reducible apply sendNulls_kept | with_reducible apply kick_kept
    | with_reducible apply State.modBay_kept | with_reducible apply State.modInst_kept
    | with_reducible apply noteFired_kept | with_reducible apply pinInst_kept | split)

theorem fireOp_kept {K : Field → Bool} {o : State} [Free K .mem] [Free K .poison] [Free K .pkgBad] [Free K .bays] [Free K
    .parts] [Free K .pf] [Free K .flight] [Free K .fire] {c f kind op pol named off chk n0 n1} {s : State} (h : Kept K o s) :
    KeptRes K o (fireOp c f kind op pol named off chk n0 n1 s) := by
  unfold fireOp
  apply kept_next
  refine fireSlot_kept (fun b m t ht => nullOp_kept ht) (fun b m t ht => ?_) h
  split
  · exact slotFault_kept ht
  · rename_i he
    have hs := scopePol_kept ht he
    clear he
    dsimp only at hs ⊢
    repeat' first
      | with_reducible apply slotFault_kept
      | with_reducible apply kick_kept
      | with_reducible apply State.modInst_kept
      | with_reducible apply noteFired_kept
      | with_reducible apply pinInst_kept
      | exact hs
      | split

theorem execXlat_kept {K : Field → Bool} {o : State} [Free K .bays] [Free K .parts] [Free K .pf] [Free K .flight] [Free K
    .fire] {c} {f} {s : State} (h : Kept K o s) : KeptRes K o (execXlat c f s) := by
  unfold execXlat
  repeat' (first
    | with_reducible assumption | with_reducible apply kept_next | with_reducible apply askXlat_kept
    | with_reducible apply sendNulls_kept | with_reducible apply fireSlot_kept | intro _)

theorem execFence_kept {K : Field → Bool} {o : State} [Free K .mem] [Free K .poison] [Free K .pkgBad] [Free K .bays] [Free K
    .parts] [Free K .pf] [Free K .flight] [Free K .fire] {c} {f} {s : State} (h : Kept K o s) : KeptRes K o (execFence c f s) :=
    by
  unfold execFence
  repeat' (first | with_reducible assumption | with_reducible apply fireOp_kept)

theorem execSdepth_kept {K : Field → Bool} {o : State} [Free K .bays] [Free K .parts] [Free K .pf] [Free K .flight] [Free K
    .fire] {c} {f} {s : State} (h : Kept K o s) : KeptRes K o (execSdepth c f s) := by
  unfold execSdepth
  repeat' (first | with_reducible assumption | with_reducible apply fireVals_kept)

theorem execSrel_kept {K : Field → Bool} {o : State} [Free K .mem] [Free K .poison] [Free K .pkgBad] [Free K .bays] [Free K
    .parts] [Free K .pf] [Free K .flight] [Free K .fire] {c} {f} {s : State} (h : Kept K o s) : KeptRes K o (execSrel c f s) :=
    by
  unfold execSrel
  repeat' (first | with_reducible assumption | with_reducible apply fireOp_kept)

theorem execSinv_kept {K : Field → Bool} {o : State} [Free K .mem] [Free K .poison] [Free K .pkgBad] [Free K .bays] [Free K
    .parts] [Free K .pf] [Free K .flight] [Free K .fire] {c} {f} {s : State} (h : Kept K o s) : KeptRes K o (execSinv c f s) :=
    by
  unfold execSinv
  repeat' (first | with_reducible assumption | with_reducible apply fireOp_kept)

theorem execSflush_kept {K : Field → Bool} {o : State} [Free K .mem] [Free K .poison] [Free K .pkgBad] [Free K .bays] [Free
    K .parts] [Free K .pf] [Free K .flight] [Free K .fire] {c} {f} {s : State} (h : Kept K o s) : KeptRes K o (execSflush c f s)
    := by
  unfold execSflush
  repeat' (first | with_reducible assumption | with_reducible apply fireOp_kept)

theorem fireAccess_kept {K : Field → Bool} {o : State} [Free K .mem] [Free K .poison] [Free K .pkgBad] [Free K .bays] [Free
    K .parts] [Free K .pf] [Free K .flight] [Free K .fire] {c} {f} {kind} {op} {store} {s : State} (h : Kept K o s) : KeptRes K
    o (fireAccess c f kind op store s) := by
  unfold fireAccess
  repeat' (first | with_reducible assumption | with_reducible apply fireOp_kept)

theorem execSto_kept {K : Field → Bool} {o : State} [Free K .mem] [Free K .poison] [Free K .pkgBad] [Free K .bays] [Free K
    .parts] [Free K .pf] [Free K .flight] [Free K .fire] {c} {f} {s : State} (h : Kept K o s) : KeptRes K o (execSto c f s) :=
    by
  unfold execSto
  repeat' (first | with_reducible assumption | with_reducible apply fireAccess_kept)

theorem execLdo_kept {K : Field → Bool} {o : State} [Free K .mem] [Free K .poison] [Free K .pkgBad] [Free K .bays] [Free K
    .parts] [Free K .pf] [Free K .flight] [Free K .fire] {c} {f} {s : State} (h : Kept K o s) : KeptRes K o (execLdo c f s) :=
    by
  unfold execLdo
  repeat' (first | with_reducible assumption | with_reducible apply fireAccess_kept)

theorem execStv_kept {K : Field → Bool} {o : State} [Free K .mem] [Free K .poison] [Free K .pkgBad] [Free K .bays] [Free K
    .parts] [Free K .pf] [Free K .flight] [Free K .fire] {c} {f} {s : State} (h : Kept K o s) : KeptRes K o (execStv c f s) :=
    by
  unfold execStv
  repeat' (first | with_reducible assumption | with_reducible apply fireAccess_kept)

theorem execLdv_kept {K : Field → Bool} {o : State} [Free K .mem] [Free K .poison] [Free K .pkgBad] [Free K .bays] [Free K
    .parts] [Free K .pf] [Free K .flight] [Free K .fire] {c} {f} {s : State} (h : Kept K o s) : KeptRes K o (execLdv c f s) :=
    by
  unfold execLdv
  repeat' (first | with_reducible assumption | with_reducible apply fireAccess_kept)

theorem execSt_kept {K : Field → Bool} {o : State} [Free K .mem] [Free K .poison] [Free K .pkgBad] [Free K .bays] [Free K
    .parts] [Free K .pf] [Free K .flight] [Free K .fire] {c} {f} {s : State} (h : Kept K o s) : KeptRes K o (execSt c f s) := by
  unfold execSt
  repeat' (first | with_reducible assumption | with_reducible apply fireAccess_kept)

theorem execLd_kept {K : Field → Bool} {o : State} [Free K .mem] [Free K .poison] [Free K .pkgBad] [Free K .bays] [Free K
    .parts] [Free K .pf] [Free K .flight] [Free K .fire] {c} {f} {s : State} (h : Kept K o s) : KeptRes K o (execLd c f s) := by
  unfold execLd
  repeat' (first | with_reducible assumption | with_reducible apply fireAccess_kept)

theorem fireAtomic_kept {K : Field → Bool} {o : State} [Free K .mem] [Free K .poison] [Free K .pkgBad] [Free K .bays] [Free
    K .parts] [Free K .pf] [Free K .flight] [Free K .fire] {c} {f} {op} {s : State} (h : Kept K o s) : KeptRes K o (fireAtomic c
    f op s) := by
  unfold fireAtomic
  repeat' (first | with_reducible assumption | with_reducible apply fireOp_kept)

theorem execFaadd_kept {K : Field → Bool} {o : State} [Free K .mem] [Free K .poison] [Free K .pkgBad] [Free K .bays] [Free K
    .parts] [Free K .pf] [Free K .flight] [Free K .fire] {c} {f} {s : State} (h : Kept K o s) : KeptRes K o (execFaadd c f s) :=
    by
  unfold execFaadd
  repeat' (first | with_reducible assumption | with_reducible apply fireAtomic_kept)

theorem execAdec_kept {K : Field → Bool} {o : State} [Free K .mem] [Free K .poison] [Free K .pkgBad] [Free K .bays] [Free K
    .parts] [Free K .pf] [Free K .flight] [Free K .fire] {c} {f} {s : State} (h : Kept K o s) : KeptRes K o (execAdec c f s) :=
    by
  unfold execAdec
  repeat' (first | with_reducible assumption | with_reducible apply fireAtomic_kept)

theorem execAinc_kept {K : Field → Bool} {o : State} [Free K .mem] [Free K .poison] [Free K .pkgBad] [Free K .bays] [Free K
    .parts] [Free K .pf] [Free K .flight] [Free K .fire] {c} {f} {s : State} (h : Kept K o s) : KeptRes K o (execAinc c f s) :=
    by
  unfold execAinc
  repeat' (first | with_reducible assumption | with_reducible apply fireAtomic_kept)

theorem execAcas_kept {K : Field → Bool} {o : State} [Free K .mem] [Free K .poison] [Free K .pkgBad] [Free K .bays] [Free K
    .parts] [Free K .pf] [Free K .flight] [Free K .fire] {c} {f} {s : State} (h : Kept K o s) : KeptRes K o (execAcas c f s) :=
    by
  unfold execAcas
  repeat' (first | with_reducible assumption | with_reducible apply fireAtomic_kept)

theorem execAxch_kept {K : Field → Bool} {o : State} [Free K .mem] [Free K .poison] [Free K .pkgBad] [Free K .bays] [Free K
    .parts] [Free K .pf] [Free K .flight] [Free K .fire] {c} {f} {s : State} (h : Kept K o s) : KeptRes K o (execAxch c f s) :=
    by
  unfold execAxch
  repeat' (first | with_reducible assumption | with_reducible apply fireAtomic_kept)

theorem execAxor_kept {K : Field → Bool} {o : State} [Free K .mem] [Free K .poison] [Free K .pkgBad] [Free K .bays] [Free K
    .parts] [Free K .pf] [Free K .flight] [Free K .fire] {c} {f} {s : State} (h : Kept K o s) : KeptRes K o (execAxor c f s) :=
    by
  unfold execAxor
  repeat' (first | with_reducible assumption | with_reducible apply fireAtomic_kept)

theorem execAor_kept {K : Field → Bool} {o : State} [Free K .mem] [Free K .poison] [Free K .pkgBad] [Free K .bays] [Free K
    .parts] [Free K .pf] [Free K .flight] [Free K .fire] {c} {f} {s : State} (h : Kept K o s) : KeptRes K o (execAor c f s) :=
    by
  unfold execAor
  repeat' (first | with_reducible assumption | with_reducible apply fireAtomic_kept)

theorem execAand_kept {K : Field → Bool} {o : State} [Free K .mem] [Free K .poison] [Free K .pkgBad] [Free K .bays] [Free K
    .parts] [Free K .pf] [Free K .flight] [Free K .fire] {c} {f} {s : State} (h : Kept K o s) : KeptRes K o (execAand c f s) :=
    by
  unfold execAand
  repeat' (first | with_reducible assumption | with_reducible apply fireAtomic_kept)

theorem execAmax_kept {K : Field → Bool} {o : State} [Free K .mem] [Free K .poison] [Free K .pkgBad] [Free K .bays] [Free K
    .parts] [Free K .pf] [Free K .flight] [Free K .fire] {c} {f} {s : State} (h : Kept K o s) : KeptRes K o (execAmax c f s) :=
    by
  unfold execAmax
  repeat' (first | with_reducible assumption | with_reducible apply fireAtomic_kept)

theorem execAmin_kept {K : Field → Bool} {o : State} [Free K .mem] [Free K .poison] [Free K .pkgBad] [Free K .bays] [Free K
    .parts] [Free K .pf] [Free K .flight] [Free K .fire] {c} {f} {s : State} (h : Kept K o s) : KeptRes K o (execAmin c f s) :=
    by
  unfold execAmin
  repeat' (first | with_reducible assumption | with_reducible apply fireAtomic_kept)

theorem execAadd_kept {K : Field → Bool} {o : State} [Free K .mem] [Free K .poison] [Free K .pkgBad] [Free K .bays] [Free K
    .parts] [Free K .pf] [Free K .flight] [Free K .fire] {c} {f} {s : State} (h : Kept K o s) : KeptRes K o (execAadd c f s) :=
    by
  unfold execAadd
  repeat' (first | with_reducible assumption | with_reducible apply fireAtomic_kept)

theorem poisonConfig_kept {K : Field → Bool} {o : State} [Free K .bays] {s : State} {b} {e} (h : Kept K o s) : Kept K o
    (poisonConfig s b e) := by
  unfold poisonConfig
  repeat' (first
    | with_reducible assumption | with_reducible apply State.modSite_kept | with_reducible apply State.modHitch_kept
    | with_reducible apply State.modElem_kept | split)

theorem logEcc_kept {K : Field → Bool} {o : State} [Free K .parts] [Free K .pf] {s : State} {code} {loc} {idx} {bay} {addr}
    {n} (h : Kept K o s) : Kept K o (logEcc s code loc idx bay addr n) := by
  unfold logEcc
  repeat' (first | with_reducible assumption | with_reducible apply State.eventFor_kept)

theorem endInterval_kept {K : Field → Bool} {o : State} [Free K .parts] [Free K .pf] [Free K .ecc] {s : State} {e} (h : Kept
    K o s) : Kept K o (endInterval s e) := by
  unfold endInterval
  repeat' (first | with_reducible assumption | with_reducible apply logEcc_kept | simp only [kept_ecc_iff] | split)

theorem eccCorrected_kept {K : Field → Bool} {o : State} [Free K .parts] [Free K .pf] [Free K .ecc] {s : State} {loc} {idx}
    {bay} {addr} (h : Kept K o s) : Kept K o (eccCorrected s loc idx bay addr) := by
  unfold eccCorrected
  repeat' (first
    | with_reducible assumption | with_reducible apply endInterval_kept | with_reducible apply logEcc_kept
    | simp only [kept_ecc_iff] | split)

theorem eccDeferred_kept {K : Field → Bool} {o : State} [Free K .parts] [Free K .pf] {s : State} {loc} {idx} {bay} {addr} (h
    : Kept K o s) : Kept K o (eccDeferred s loc idx bay addr) := by
  unfold eccDeferred
  repeat' (first | with_reducible assumption | with_reducible apply logEcc_kept)

theorem execEccCorrectedInterval_kept {K : Field → Bool} {o : State} [Free K .parts] [Free K .pf] [Free K .ecc] {loc} {idx}
    {s : State} (h : Kept K o s) : KeptRes K o (execEccCorrectedInterval loc idx s) := by
  unfold execEccCorrectedInterval
  repeat' (first | with_reducible assumption | with_reducible apply kept_next | with_reducible apply endInterval_kept | split)

theorem execLpddrScrub_kept {K : Field → Bool} {o : State} [Free K .pkgBad] [Free K .parts] [Free K .pf] [Free K .ecc]
    {addr} {err} {s : State} (h : Kept K o s) : KeptRes K o (execLpddrScrub addr err s) := by
  unfold execLpddrScrub
  repeat' (first
    | with_reducible assumption | with_reducible apply kept_next | with_reducible apply eccDeferred_kept
    | with_reducible apply eccCorrected_kept | simp only [kept_pkgBad_iff] | split)

theorem execLoftScrub_kept {K : Field → Bool} {o : State} [Free K .poison] [Free K .parts] [Free K .pf] [Free K .ecc] {b}
    {off} {err} {s : State} (h : Kept K o s) : KeptRes K o (execLoftScrub b off err s) := by
  unfold execLoftScrub
  repeat' (first
    | with_reducible assumption | with_reducible apply kept_next | with_reducible apply eccDeferred_kept
    | with_reducible apply eccCorrected_kept | simp only [kept_poison_iff] | split)

theorem execConfigScrub_kept {K : Field → Bool} {o : State} [Free K .bays] [Free K .parts] [Free K .pf] [Free K .ecc] {b}
    {found} {s : State} (h : Kept K o s) : KeptRes K o (execConfigScrub b found s) := by
  unfold execConfigScrub
  repeat' (first
    | with_reducible assumption | with_reducible apply kept_next | with_reducible apply poisonConfig_kept
    | with_reducible apply eccDeferred_kept | with_reducible apply eccCorrected_kept | with_reducible apply foldl_kept
    | split | intro _)

theorem noteReadBack_kept {K : Field → Bool} {o : State} [Free K .bays] [Free K .parts] [Free K .pf] [Free K .ecc] {s :
    State} {b} {ctx} {e} (h : Kept K o s) : Kept K o (noteReadBack s b ctx e) := by
  unfold noteReadBack
  repeat' (first
    | with_reducible assumption | with_reducible apply State.modCtx_kept | with_reducible apply eccDeferred_kept
    | with_reducible apply eccCorrected_kept | split)

theorem poisonAt_kept {K : Field → Bool} {o : State} [Free K .poison] [Free K .pkgBad] [Free K .bays] [Free K .flight] {s :
    State} {x1} (h : Kept K o s) : Kept K o (poisonAt s x1) := by
  unfold poisonAt
  repeat' (first
    | with_reducible assumption | with_reducible apply State.modElem_kept | with_reducible apply State.modBay_kept
    | with_reducible apply State.modSite_kept | simp only [kept_flight_iff, kept_pkgBad_iff, kept_poison_iff] | split)

theorem upset_kept {K : Field → Bool} {o : State} [Free K .poison] [Free K .pkgBad] [Free K .bays] [Free K .parts] [Free K
    .pf] [Free K .ecc] [Free K .flight] {s : State} {u} (h : Kept K o s) : Kept K o (upset s u) := by
  unfold upset
  repeat' (first
    | with_reducible assumption | with_reducible apply poisonAt_kept | with_reducible apply eccCorrected_kept | split)

theorem nextUpset_kept {K : Field → Bool} {o : State} [Free K .poison] [Free K .pkgBad] [Free K .bays] [Free K .parts] [Free
    K .pf] [Free K .ecc] [Free K .flight] [Free K .upsets] {s : State} (h : Kept K o s) : Kept K o (nextUpset s) := by
  unfold nextUpset
  repeat' (first | with_reducible assumption | with_reducible apply upset_kept | simp only [kept_upsets_iff] | split)

theorem opAgain_kept {K : Field → Bool} {o : State} [Free K .bays] {s : State} {b} {g} {ix} {lsid} (h : Kept K o s) : Kept K
    o (opAgain s b g ix lsid) := by
  unfold opAgain
  repeat' (first | with_reducible assumption | with_reducible apply modOp_kept)

theorem sendMembers_kept {K : Field → Bool} {o : State} [Free K .bays] [Free K .parts] [Free K .pf] [Free K .flight] {s :
    State} {b} {ctx} {buf} {d} {y} {cx} {off} {members} (h : Kept K o s) : Kept K o (sendMembers s b ctx buf d y cx off members)
    := by
  unfold sendMembers
  repeat' (first
    | with_reducible assumption | with_reducible apply State.emit_kept | with_reducible apply foldl_kept | split | intro _)

theorem groupIssue_kept {K : Field → Bool} {o : State} [Free K .mem] [Free K .poison] [Free K .pkgBad] [Free K .bays] [Free
    K .parts] [Free K .pf] [Free K .flight] {s : State} {b} {g} {ix} {y} {gdi} (h : Kept K o s) : Kept K o (groupIssue s b g ix
    y gdi) := by
  unfold groupIssue
  repeat' (first
    | with_reducible assumption | with_reducible apply opAgain_kept | with_reducible apply State.modBay_kept
    | with_reducible apply sendMembers_kept | with_reducible apply releaseActions_kept | with_reducible apply opFault_kept
    | split | dsimp only)

theorem execStg_kept {K : Field → Bool} {o : State} [Free K .mem] [Free K .poison] [Free K .pkgBad] [Free K .bays] [Free K
    .parts] [Free K .pf] [Free K .flight] [Free K .fire] {c} {f} {s : State} (h : Kept K o s) : KeptRes K o (execStg c f s) :=
    by
  unfold execStg
  repeat' (first | with_reducible assumption | with_reducible apply fireOp_kept)

theorem execLdg_kept {K : Field → Bool} {o : State} [Free K .mem] [Free K .poison] [Free K .pkgBad] [Free K .bays] [Free K
    .parts] [Free K .pf] [Free K .flight] [Free K .fire] {c} {f} {s : State} (h : Kept K o s) : KeptRes K o (execLdg c f s) :=
    by
  unfold execLdg
  repeat' (first | with_reducible assumption | with_reducible apply fireOp_kept)

end Sys2Proof.Machine
end

