-- ==== Sys2Proof/Laws/FrameNets.lean ====
section
/-!
SUPPORT. Sys2Proof/Laws/FrameNets.lean: what the networks leave alone (`Kept`): one lemma per function, whose `Free` premises are the
fields it may change.
-/
namespace Sys2Proof.Machine

open Sys2Proof

theorem State.modStop_kept {K : Field → Bool} {o : State} [Free K .bays] {s : State} {ring} {b} {f} (h : Kept K o s) : Kept
    K o (State.modStop s ring b f) := by
  unfold State.modStop
  repeat' (first | with_reducible assumption | with_reducible apply State.modBay_kept)

theorem returnCredits_kept {K : Field → Bool} {o : State} [Free K .flight] {s : State} {ring} {b} {d} {p} (h : Kept K o s) :
    Kept K o (returnCredits s ring b d p) := by
  unfold returnCredits
  repeat' (first | with_reducible assumption | with_reducible apply State.send_kept | with_reducible apply foldl_kept | intro _)

theorem settleQueues_kept {K : Field → Bool} {o : State} [Free K .bays] {s : State} {b} (h : Kept K o s) : Kept K o
    (settleQueues s b) := by
  unfold settleQueues
  repeat' (first | with_reducible assumption | with_reducible apply State.modBay_kept | with_reducible apply State.modStop_kept)

theorem settleHead_kept {K : Field → Bool} {o : State} [Free K .bays] [Free K .parts] [Free K .pf] [Free K .flight] {ring}
    {b} {d} {s : State} {vc} (h : Kept K o s) : Kept K o (settleHead ring b d s vc) := by
  unfold settleHead
  repeat' (first
    | with_reducible assumption | with_reducible apply State.modBay_kept | with_reducible apply State.handOver_kept
    | with_reducible apply State.modStop_kept | with_reducible apply returnCredits_kept | split | dsimp only)

theorem settle_kept {K : Field → Bool} {o : State} [Free K .bays] [Free K .parts] [Free K .pf] [Free K .flight] {s : State}
    {b} (h : Kept K o s) : Kept K o (settle s b) := by
  unfold settle
  repeat' (first
    | with_reducible assumption | with_reducible apply settleQueues_kept | with_reducible apply settleHead_kept
    | with_reducible apply foldl_kept | intro _)

theorem combineAt_kept {K : Field → Bool} {o : State} [Free K .bays] [Free K .parts] [Free K .pf] [Free K .flight] {s :
    State} {e} {p} (h : Kept K o s) : Kept K o (combineAt s e p) := by
  unfold combineAt
  repeat' (first
    | with_reducible assumption | with_reducible apply State.modStop_kept | with_reducible apply returnCredits_kept
    | with_reducible apply settle_kept | split | dsimp only)

theorem countFlits_kept {K : Field → Bool} {o : State} [Free K .parts] [Free K .pf] [Free K .ecc] {s : State} {e} {errs} (h
    : Kept K o s) : Kept K o (countFlits s e errs) := by
  unfold countFlits
  repeat' (first
    | with_reducible assumption | with_reducible apply eccCorrected_kept | with_reducible apply foldl_kept | split
    | intro _)

theorem dropRecord_kept {K : Field → Bool} {o : State} [Free K .pf] {s : State} {e} {p} (h : Kept K o s) : Kept K o
    (dropRecord s e p) := by
  unfold dropRecord
  repeat' (first | with_reducible assumption | simp only [kept_pf_iff])

theorem linkError_kept {K : Field → Bool} {o : State} [Free K .flitErrs] {s : State} {n} (h : Kept K o s) : Kept K o
    (linkError s n).2 := by
  unfold linkError
  repeat' (first | with_reducible assumption | simp only [kept_flitErrs_iff])

theorem launchPacket_kept {K : Field → Bool} {o : State} [Free K .bays] [Free K .flight] [Free K .flitErrs] {s : State} {e}
    {p} {vc} (h : Kept K o s) : Kept K o (launchPacket s e p vc) := by
  unfold launchPacket
  repeat' (first
    | with_reducible assumption | with_reducible apply State.send_kept | with_reducible apply linkError_kept
    | with_reducible apply State.modStop_kept)

theorem takeFrom_kept {K : Field → Bool} {o : State} [Free K .bays] [Free K .flight] {s : State} {ring} {b} {f} {p} (h :
    Kept K o s) : Kept K o (takeFrom s ring b f p).2 := by
  unfold takeFrom
  repeat' (first
    | with_reducible assumption | with_reducible apply State.modBay_kept | with_reducible apply State.modStop_kept
    | with_reducible apply returnCredits_kept | split)

theorem sendNext_kept {K : Field → Bool} {o : State} [Free K .bays] [Free K .parts] [Free K .pf] [Free K .flight] [Free K
    .flitErrs] {s : State} {e} {f} {p} {vc} {k} (h : Kept K o s) : Kept K o (sendNext s e f p vc k) := by
  unfold sendNext
  repeat' (first
    | with_reducible assumption | with_reducible apply launchPacket_kept | with_reducible apply settle_kept
    | with_reducible apply State.modStop_kept | with_reducible apply takeFrom_kept | split)

theorem execBoundaryTokenSend_kept {K : Field → Bool} {o : State} [Free K .bays] [Free K .parts] [Free K .pf] [Free K
    .flight] [Free K .flitErrs] {b} {s : State} (h : Kept K o s) : KeptRes K o (execBoundaryTokenSend b s) := by
  unfold execBoundaryTokenSend
  repeat' (first | with_reducible assumption | with_reducible apply kept_next | with_reducible apply sendNext_kept | split)

theorem execCreditReturn_kept {K : Field → Bool} {o : State} [Free K .bays] {e} {c} {s : State} (h : Kept K o s) : KeptRes K
    o (execCreditReturn e c s) := by
  unfold execCreditReturn
  repeat' (first | with_reducible assumption | with_reducible apply kept_next | with_reducible apply State.modStop_kept)

theorem execPacketSend_kept {K : Field → Bool} {o : State} [Free K .bays] [Free K .parts] [Free K .pf] [Free K .flight]
    [Free K .flitErrs] {e} {s : State} (h : Kept K o s) : KeptRes K o (execPacketSend e s) := by
  unfold execPacketSend
  repeat' (first | with_reducible assumption | with_reducible apply kept_next | with_reducible apply sendNext_kept | split)

theorem takeIn_kept {K : Field → Bool} {o : State} [Free K .bays] [Free K .parts] [Free K .pf] [Free K .flight] {s : State}
    {e} {p} (h : Kept K o s) : Kept K o (takeIn s e p) := by
  unfold takeIn
  repeat' (first | with_reducible assumption | with_reducible apply State.modStop_kept | with_reducible apply settle_kept)

theorem execPacketArrive_kept {K : Field → Bool} {o : State} [Free K .bays] [Free K .parts] [Free K .pf] [Free K .ecc] [Free
    K .flight] {e} {p} {errs} {s : State} (h : Kept K o s) : KeptRes K o (execPacketArrive e p errs s) := by
  unfold execPacketArrive
  repeat' (first
    | with_reducible assumption | with_reducible apply kept_next | with_reducible apply takeIn_kept
    | with_reducible apply dropRecord_kept | with_reducible apply returnCredits_kept | with_reducible apply countFlits_kept
    | split)

theorem dropRed_kept {K : Field → Bool} {o : State} [Free K .bays] {s : State} {b} {n} (h : Kept K o s) : Kept K o (dropRed
    s b n) := by
  unfold dropRed
  repeat' (first | with_reducible assumption | with_reducible apply State.modBay_kept)

theorem groupFault_kept {K : Field → Bool} {o : State} [Free K .bays] [Free K .parts] [Free K .pf] {s : State} {b} {r} {y}
    {code} {d} (h : Kept K o s) : Kept K o (groupFault s b r y code d) := by
  unfold groupFault
  repeat' (first
    | with_reducible assumption | with_reducible apply opFault_kept | with_reducible apply State.modInst_kept | split)

theorem groupEnd_kept {K : Field → Bool} {o : State} [Free K .mem] [Free K .poison] [Free K .pkgBad] [Free K .bays] [Free K
    .parts] [Free K .pf] [Free K .flight] {s : State} {b n st go} (hg : ∀ r y ym t, Kept K o t → Kept K o (go r y ym t)) (h :
    Kept K o s) : Kept K o (groupEnd s b n st go) := by
  unfold groupEnd
  repeat' (first
    | with_reducible assumption | with_reducible apply hg | with_reducible apply kick_kept
    | with_reducible apply groupFault_kept | with_reducible apply dropRed_kept | split | dsimp only)

theorem execStgDone_kept {K : Field → Bool} {o : State} [Free K .mem] [Free K .poison] [Free K .pkgBad] [Free K .bays] [Free
    K .parts] [Free K .pf] [Free K .flight] {b} {n} {s : State} (h : Kept K o s) : KeptRes K o (execStgDone b n s) := by
  unfold execStgDone
  repeat' (first
    | with_reducible assumption | with_reducible apply kept_next | with_reducible apply opDone_kept
    | with_reducible apply groupEnd_kept | intro _)

theorem groupOmit_kept {K : Field → Bool} {o : State} [Free K .bays] [Free K .parts] [Free K .pf] {s : State} {b} {r} {y}
    {omitted} (h : Kept K o s) : Kept K o (groupOmit s b r y omitted) := by
  unfold groupOmit
  repeat' (first
    | with_reducible assumption | with_reducible apply State.modPart_kept | with_reducible apply State.modCtx_kept | split)

theorem execLdgResult_kept {K : Field → Bool} {o : State} [Free K .mem] [Free K .poison] [Free K .pkgBad] [Free K .bays]
    [Free K .parts] [Free K .pf] [Free K .flight] {b} {n} {s : State} (h : Kept K o s) : KeptRes K o (execLdgResult b n s) := by
  unfold execLdgResult
  repeat' (first
    | with_reducible assumption | with_reducible apply kept_next | with_reducible apply opValue_kept
    | with_reducible apply groupOmit_kept | with_reducible apply acquireActions_kept | with_reducible apply groupEnd_kept
    | split | intro _)

theorem modRed_kept {K : Field → Bool} {o : State} [Free K .bays] {s : State} {b} {ctx} {n} {f} (h : Kept K o s) : Kept K o
    (modRed s b ctx n f) := by
  unfold modRed
  repeat' (first | with_reducible assumption | with_reducible apply State.modBay_kept)

theorem execGack_kept {K : Field → Bool} {o : State} [Free K .bays] {b} {p} {s : State} (h : Kept K o s) : KeptRes K o
    (execGack b p s) := by
  unfold execGack
  repeat' (first | with_reducible assumption | with_reducible apply kept_next | with_reducible apply modRed_kept)

theorem execGwrite_kept {K : Field → Bool} {o : State} [Free K .mem] [Free K .poison] [Free K .pkgBad] [Free K .bays] [Free
    K .parts] [Free K .pf] [Free K .flight] {home} {p} {s : State} (h : Kept K o s) : KeptRes K o (execGwrite home p s) := by
  unfold execGwrite
  repeat' (first
    | with_reducible assumption | with_reducible apply kept_next | with_reducible apply State.emit_kept
    | with_reducible apply homeWrite_kept | with_reducible apply noteDirty_kept | split)

theorem execGpart_kept {K : Field → Bool} {o : State} [Free K .bays] [Free K .parts] [Free K .pf] [Free K .flight] {at_} {p}
    {s : State} (h : Kept K o s) : KeptRes K o (execGpart at_ p s) := by
  unfold execGpart
  repeat' (first
    | with_reducible assumption | with_reducible apply kept_next | with_reducible apply modRed_kept
    | with_reducible apply combineAt_kept | split)

theorem execGread_kept {K : Field → Bool} {o : State} [Free K .bays] [Free K .parts] [Free K .pf] [Free K .flight] {home}
    {p} {s : State} (h : Kept K o s) : KeptRes K o (execGread home p s) := by
  unfold execGread
  repeat' (first | with_reducible assumption | with_reducible apply kept_next | with_reducible apply State.emit_kept)

theorem firePinned_kept {K : Field → Bool} {o : State} [Free K .bays] [Free K .parts] [Free K .pf] [Free K .flight] [Free K
    .fire] {c n0 n1 go} {s : State} (hg : ∀ b m t, Kept K o t → Kept K o (go b m t)) (h : Kept K o s) : KeptRes K o (firePinned
    c n0 n1 go s) := by
  unfold firePinned
  apply kept_next
  refine fireSlot_kept (fun b m t ht => sendNulls_kept (pinInst_kept ht)) (fun b m t ht => ?_) h
  split
  · exact waitSet_kept ht
  · exact hg _ _ _ (pinInst_kept ht)

theorem fireIsland_kept {K : Field → Bool} {o : State} [Free K .bays] [Free K .parts] [Free K .pf] [Free K .flight] [Free K
    .fire] {op} {c} {f} {n1} {s : State} (h : Kept K o s) : KeptRes K o (fireIsland op c f n1 s) := by
  unfold fireIsland
  repeat' (first
    | with_reducible assumption | with_reducible apply State.modPort_kept | with_reducible apply firePinned_kept | intro _)

theorem execSstop_kept {K : Field → Bool} {o : State} [Free K .bays] [Free K .parts] [Free K .pf] [Free K .flight] [Free K
    .fire] {c} {f} {s : State} (h : Kept K o s) : KeptRes K o (execSstop c f s) := by
  unfold execSstop
  repeat' (first | with_reducible assumption | with_reducible apply fireIsland_kept)

theorem execSpeer_kept {K : Field → Bool} {o : State} [Free K .bays] [Free K .parts] [Free K .pf] [Free K .flight] [Free K
    .fire] {c} {f} {s : State} (h : Kept K o s) : KeptRes K o (execSpeer c f s) := by
  unfold execSpeer
  repeat' (first | with_reducible assumption | with_reducible apply fireIsland_kept)

theorem execSlay_kept {K : Field → Bool} {o : State} [Free K .bays] [Free K .parts] [Free K .pf] [Free K .flight] [Free K
    .fire] {c} {f} {s : State} (h : Kept K o s) : KeptRes K o (execSlay c f s) := by
  unfold execSlay
  repeat' (first | with_reducible assumption | with_reducible apply fireIsland_kept)

theorem execStrn_kept {K : Field → Bool} {o : State} [Free K .bays] [Free K .parts] [Free K .pf] [Free K .flight] [Free K
    .fire] {c} {f} {s : State} (h : Kept K o s) : KeptRes K o (execStrn c f s) := by
  unfold execStrn
  repeat' (first | with_reducible assumption | with_reducible apply fireIsland_kept)

theorem execSscat_kept {K : Field → Bool} {o : State} [Free K .bays] [Free K .parts] [Free K .pf] [Free K .flight] [Free K
    .fire] {c} {f} {s : State} (h : Kept K o s) : KeptRes K o (execSscat c f s) := by
  unfold execSscat
  repeat' (first | with_reducible assumption | with_reducible apply fireIsland_kept)

theorem execSgath_kept {K : Field → Bool} {o : State} [Free K .bays] [Free K .parts] [Free K .pf] [Free K .flight] [Free K
    .fire] {c} {f} {s : State} (h : Kept K o s) : KeptRes K o (execSgath c f s) := by
  unfold execSgath
  repeat' (first | with_reducible assumption | with_reducible apply fireIsland_kept)

theorem execScopy_kept {K : Field → Bool} {o : State} [Free K .bays] [Free K .parts] [Free K .pf] [Free K .flight] [Free K
    .fire] {c} {f} {s : State} (h : Kept K o s) : KeptRes K o (execScopy c f s) := by
  unfold execScopy
  repeat' (first | with_reducible assumption | with_reducible apply fireIsland_kept)

theorem execAdrn_kept {K : Field → Bool} {o : State} [Free K .bays] [Free K .parts] [Free K .pf] [Free K .flight] [Free K
    .fire] {c} {f} {s : State} (h : Kept K o s) : KeptRes K o (execAdrn c f s) := by
  unfold execAdrn
  repeat' (first | with_reducible assumption | with_reducible apply fireIsland_kept)

theorem execAclr_kept {K : Field → Bool} {o : State} [Free K .bays] [Free K .parts] [Free K .pf] [Free K .flight] [Free K
    .fire] {c} {f} {s : State} (h : Kept K o s) : KeptRes K o (execAclr c f s) := by
  unfold execAclr
  repeat' (first | with_reducible assumption | with_reducible apply fireIsland_kept)

theorem execMmaq_kept {K : Field → Bool} {o : State} [Free K .bays] [Free K .parts] [Free K .pf] [Free K .flight] [Free K
    .fire] {c} {f} {s : State} (h : Kept K o s) : KeptRes K o (execMmaq c f s) := by
  unfold execMmaq
  repeat' (first | with_reducible assumption | with_reducible apply fireIsland_kept)

theorem execMma_kept {K : Field → Bool} {o : State} [Free K .bays] [Free K .parts] [Free K .pf] [Free K .flight] [Free K
    .fire] {c} {f} {s : State} (h : Kept K o s) : KeptRes K o (execMma c f s) := by
  unfold execMma
  repeat' (first | with_reducible assumption | with_reducible apply fireIsland_kept)

theorem deliverSeed_kept {K : Field → Bool} {o : State} [Free K .flight] {s : State} {n} {l} {port} {tag} {k} (h : Kept K o
    s) : Kept K o (deliverSeed s n l port tag k) := by
  unfold deliverSeed
  repeat' (first | with_reducible assumption | with_reducible apply State.send_kept | split)

theorem releaseSeeds_kept {K : Field → Bool} {o : State} [Free K .parts] [Free K .pf] [Free K .flight] {s : State} {n} {l}
    (h : Kept K o s) : Kept K o (releaseSeeds s n l) := by
  unfold releaseSeeds
  repeat' (first
    | with_reducible assumption | with_reducible apply deliverSeed_kept | with_reducible apply State.modPart_kept
    | with_reducible apply foldl_kept | intro _)

theorem takeSeed_kept {K : Field → Bool} {o : State} [Free K .parts] [Free K .pf] [Free K .flight] {s : State} {n} {l}
    {hseq} {port} {tag} {k} (h : Kept K o s) : Kept K o (takeSeed s n l hseq port tag k) := by
  unfold takeSeed
  repeat' (first
    | with_reducible assumption | with_reducible apply State.modPart_kept | with_reducible apply deliverSeed_kept | split)

theorem execSeed_kept {K : Field → Bool} {o : State} [Free K .mem] [Free K .poison] [Free K .pkgBad] [Free K .bays] [Free K
    .parts] [Free K .pf] [Free K .flight] [Free K .fire] {c} {f} {s : State} (h : Kept K o s) : KeptRes K o (execSeed c f s) :=
    by
  unfold execSeed
  repeat' (first
    | with_reducible assumption | with_reducible apply deliver2_kept | with_reducible apply takeSeed_kept
    | with_reducible apply waitSet_kept | with_reducible apply releaseActions_kept | with_reducible apply firePinned_kept
    | (refine pair_kept (by assumption) ?_) | split | intro _)

theorem execRngsteal_kept {K : Field → Bool} {o : State} [Free K .bays] [Free K .parts] [Free K .pf] [Free K .flight] [Free
    K .fire] {c} {f} {s : State} (h : Kept K o s) : KeptRes K o (execRngsteal c f s) := by
  unfold execRngsteal
  repeat' (first
    | with_reducible assumption | with_reducible apply State.modBay_kept | with_reducible apply State.emit_kept
    | with_reducible apply deliver2_kept | with_reducible apply firePinned_kept | split | intro _)

theorem execRngnext_kept {K : Field → Bool} {o : State} [Free K .bays] [Free K .parts] [Free K .pf] [Free K .flight] [Free K
    .fire] {c} {f} {s : State} (h : Kept K o s) : KeptRes K o (execRngnext c f s) := by
  unfold execRngnext
  repeat' (first
    | with_reducible assumption | with_reducible apply State.modCtx_kept | with_reducible apply deliver2_kept
    | with_reducible apply firePinned_kept | split | intro _)

theorem execRngset_kept {K : Field → Bool} {o : State} [Free K .bays] [Free K .parts] [Free K .pf] [Free K .flight] [Free K
    .fire] {c} {f} {s : State} (h : Kept K o s) : KeptRes K o (execRngset c f s) := by
  unfold execRngset
  repeat' (first
    | with_reducible assumption | with_reducible apply deliver_kept | with_reducible apply State.modCtx_kept
    | with_reducible apply firePinned_kept | intro _)

theorem sendTrace_kept {K : Field → Bool} {o : State} [Free K .bays] [Free K .parts] [Free K .pf] [Free K .flight] {s :
    State} {b} {ctx} {c} {r} (h : Kept K o s) : Kept K o (sendTrace s b ctx c r) := by
  unfold sendTrace
  repeat' (first | with_reducible assumption | with_reducible apply State.emit_kept)

theorem putTrace_kept {K : Field → Bool} {o : State} [Free K .bays] [Free K .parts] [Free K .pf] [Free K .flight] {s :
    State} {b} {ctx} {kind} {p} {body} (h : Kept K o s) : Kept K o (putTrace s b ctx kind p body) := by
  unfold putTrace
  repeat' (first
    | with_reducible assumption | with_reducible apply sendTrace_kept | with_reducible apply State.modCtx_kept
    | with_reducible apply State.loseTrace_kept | split | dsimp only)

theorem traceInst_kept {K : Field → Bool} {o : State} [Free K .bays] [Free K .parts] [Free K .pf] [Free K .flight] {s :
    State} {b} {g} {ix} {kind} {bit} {body} (h : Kept K o s) : Kept K o (traceInst s b g ix kind bit body) := by
  unfold traceInst
  repeat' (first | with_reducible assumption | with_reducible apply putTrace_kept | split)

theorem stopBay_kept {K : Field → Bool} {o : State} [Free K .bays] {ctx} {brk} {s : State} {b} (h : Kept K o s) : Kept K o
    (stopBay ctx brk s b) := by
  unfold stopBay
  repeat' (first | with_reducible assumption | with_reducible apply State.modBay_kept | with_reducible apply State.modCtx_kept)

theorem beginStop_kept {K : Field → Bool} {o : State} [Free K .bays] [Free K .parts] [Free K .pf] {s : State} {b} {ctx} {g}
    {ix} {r} (h : Kept K o s) : Kept K o (beginStop s b ctx g ix r) := by
  unfold beginStop
  repeat' (first
    | with_reducible assumption | with_reducible apply State.modLaunch_kept | with_reducible apply stopBay_kept
    | with_reducible apply foldl_kept | split | intro _)

theorem traceIsland_kept {K : Field → Bool} {o : State} [Free K .bays] [Free K .parts] [Free K .pf] [Free K .flight] {s :
    State} {b} {k} {what} (h : Kept K o s) : Kept K o (traceIsland s b k what) := by
  unfold traceIsland
  repeat' (first | with_reducible assumption | with_reducible apply putTrace_kept | split)

theorem execProbe_kept {K : Field → Bool} {o : State} [Free K .bays] [Free K .parts] [Free K .pf] [Free K .flight] [Free K
    .fire] {c} {f} {s : State} (h : Kept K o s) : KeptRes K o (execProbe c f s) := by
  unfold execProbe
  repeat' (first
    | with_reducible assumption | with_reducible apply kept_next | with_reducible apply State.modBay_kept
    | with_reducible apply State.emit_kept | with_reducible apply sendNulls_kept | with_reducible apply fireSlot_kept
    | split | intro _)

theorem execHalt_kept {K : Field → Bool} {o : State} [Free K .bays] [Free K .parts] [Free K .pf] [Free K .flight] [Free K
    .fire] {c} {f} {s : State} (h : Kept K o s) : KeptRes K o (execHalt c f s) := by
  unfold execHalt
  repeat' (first
    | with_reducible assumption | with_reducible apply kept_next | with_reducible apply State.modInst_kept
    | with_reducible apply sendNulls_kept | with_reducible apply fireSlot_kept | intro _)

theorem execMark_kept {K : Field → Bool} {o : State} [Free K .bays] [Free K .parts] [Free K .pf] [Free K .flight] [Free K
    .fire] {c} {f} {s : State} (h : Kept K o s) : KeptRes K o (execMark c f s) := by
  unfold execMark
  repeat' (first
    | with_reducible assumption | with_reducible apply kept_next | with_reducible apply deliver_kept
    | with_reducible apply putTrace_kept | with_reducible apply sendNulls_kept | with_reducible apply fireSlot_kept | split
    | intro _)

theorem execSwr_kept {K : Field → Bool} {o : State} [Free K .bays] [Free K .parts] [Free K .pf] [Free K .flight] [Free K
    .fire] {c} {f} {s : State} (h : Kept K o s) : KeptRes K o (execSwr c f s) := by
  unfold execSwr
  repeat' (first
    | with_reducible assumption | with_reducible apply State.modCtx_kept | with_reducible apply deliver_kept
    | with_reducible apply firePinned_kept | intro _)

theorem execSrd_kept {K : Field → Bool} {o : State} [Free K .bays] [Free K .parts] [Free K .pf] [Free K .flight] [Free K
    .fire] {c} {f} {s : State} (h : Kept K o s) : KeptRes K o (execSrd c f s) := by
  unfold execSrd
  repeat' (first | with_reducible assumption | with_reducible apply fireVals_kept)

theorem execBrk_kept {K : Field → Bool} {o : State} [Free K .bays] [Free K .parts] [Free K .pf] [Free K .flight] [Free K
    .fire] {c} {f} {s : State} (h : Kept K o s) : KeptRes K o (execBrk c f s) := by
  unfold execBrk
  repeat' (first
    | with_reducible assumption | with_reducible apply kept_next | with_reducible apply State.modCtx_kept
    | with_reducible apply beginStop_kept | with_reducible apply deliver_kept | with_reducible apply sendNulls_kept
    | with_reducible apply fireSlot_kept | split | intro _)

theorem execTrap_kept {K : Field → Bool} {o : State} [Free K .bays] [Free K .parts] [Free K .pf] [Free K .flight] [Free K
    .fire] {c} {f} {s : State} (h : Kept K o s) : KeptRes K o (execTrap c f s) := by
  unfold execTrap
  repeat' (first
    | with_reducible assumption | with_reducible apply kept_next | with_reducible apply State.takeFault_kept
    | with_reducible apply sendNulls_kept | with_reducible apply fireSlot_kept | intro _)

end Sys2Proof.Machine
end

