-- ==== Sys2Proof/Laws/FrameGates.lean ====
section
/-!
SUPPORT. Sys2Proof/Laws/FrameGates.lean: what gates, commit and memory happenings leave alone (`Kept`): one lemma per function, whose `Free` premises are the
fields it may change.
-/
namespace Sys2Proof.Machine

open Sys2Proof

theorem enterToken_kept {K : Field → Bool} {o : State} [Free K .bays] [Free K .parts] [Free K .pf] [Free K .flight] {s :
    State} {b} {g} {ix} {m} (h : Kept K o s) : Kept K o (enterToken s b g ix m) := by
  unfold enterToken
  repeat' (first
    | with_reducible assumption | with_reducible apply State.sendTarget_kept | with_reducible apply State.modInst_kept
    | with_reducible apply State.takeFault_kept | with_reducible apply State.modGate_kept | split)

theorem countWait_kept {K : Field → Bool} {o : State} [Free K .bays] [Free K .flight] {s : State} {m} {w} (h : Kept K o s) :
    Kept K o (countWait s m w) := by
  unfold countWait
  repeat' (first
    | with_reducible assumption | with_reducible apply State.send_kept | with_reducible apply State.modElem_kept | split
    | dsimp only)

theorem placeToken_kept {K : Field → Bool} {o : State} [Free K .bays] [Free K .flight] {s : State} {m} {at_} (h : Kept K o
    s) : Kept K o (placeToken s m at_) := by
  unfold placeToken
  repeat' (first
    | with_reducible assumption | with_reducible apply countWait_kept | with_reducible apply State.modElem_kept | split
    | dsimp only)

theorem takeEntry_kept {K : Field → Bool} {o : State} [Free K .bays] [Free K .parts] [Free K .pf] [Free K .flight] {s :
    State} {m} (h : Kept K o s) : Kept K o (takeEntry s m) := by
  unfold takeEntry
  repeat' (first
    | with_reducible assumption | with_reducible apply State.modGate_kept | with_reducible apply enterToken_kept | split)

theorem placeEntry_kept {K : Field → Bool} {o : State} [Free K .bays] [Free K .parts] [Free K .pf] [Free K .flight] {s :
    State} {m} (h : Kept K o s) : Kept K o (placeEntry s m) := by
  unfold placeEntry
  repeat' (first
    | with_reducible assumption | with_reducible apply State.send_kept | with_reducible apply takeEntry_kept | split)

theorem haltBay_kept {K : Field → Bool} {o : State} [Free K .bays] {ctx} {s : State} {b} (h : Kept K o s) : Kept K o
    (haltBay ctx s b) := by
  unfold haltBay
  repeat' (first | with_reducible assumption | with_reducible apply State.modBay_kept | with_reducible apply State.modCtx_kept)

theorem clearRows_kept {K : Field → Bool} {o : State} [Free K .bays] {s : State} {b} {g} {ix} (h : Kept K o s) : Kept K o
    (clearRows s b g ix) := by
  unfold clearRows
  repeat' (first | with_reducible assumption | with_reducible apply State.modBay_kept)

theorem freeInst_kept {K : Field → Bool} {o : State} [Free K .bays] {s : State} {b} {g} {ix} (h : Kept K o s) : Kept K o
    (freeInst s b g ix) := by
  unfold freeInst
  repeat' (first | with_reducible assumption | with_reducible apply State.modBay_kept)

theorem haltLaunch_kept {K : Field → Bool} {o : State} [Free K .bays] [Free K .parts] [Free K .pf] {s : State} {n} {ctx}
    {hseq} {code} (h : Kept K o s) : Kept K o (haltLaunch s n ctx hseq code) := by
  unfold haltLaunch
  repeat' (first
    | with_reducible assumption | with_reducible apply State.modLaunch_kept | with_reducible apply haltBay_kept
    | with_reducible apply foldl_kept | split)

theorem discardInst_kept {K : Field → Bool} {o : State} [Free K .mem] [Free K .poison] [Free K .pkgBad] [Free K .bays] [Free
    K .parts] [Free K .pf] [Free K .flight] {s : State} {b} {g} {ix} (h : Kept K o s) : Kept K o (discardInst s b g ix) := by
  unfold discardInst
  repeat' (first
    | with_reducible assumption | with_reducible apply freeInst_kept | with_reducible apply State.modGate_kept
    | with_reducible apply kick_kept | with_reducible apply traceInst_kept | split)

theorem spillAdds_kept {K : Field → Bool} {o : State} [Free K .mem] [Free K .poison] [Free K .pkgBad] [Free K .bays] {b ctx
    l s t} (h : Kept K o s) (e : spillAdds b ctx l s = .done t) : Kept K o t := by
  induction l generalizing s with
  | nil =>
    cases e
    exact h
  | cons q qs ih =>
    unfold spillAdds at e
    split at e
    · rename_i he
      exact ih (noteDirty_kept (homeWrite_kept (Xlat.ok_kept he (translateVa_kept h)))) e
    all_goals cases e

theorem spillSlot_kept {K : Field → Bool} {o : State} [Free K .mem] [Free K .poison] [Free K .pkgBad] [Free K .bays] {s :
    State} {b ctx el slot} (h : Kept K o s) : Kept K o (spillSlot s b ctx el slot).2 := by
  unfold spillSlot
  dsimp only
  split
  · dsimp only
    exact State.modElem_kept h
  · split
    · exact h
    · split
      · dsimp only
        exact State.modElem_kept h
      · split
        · rename_i he
          dsimp only
          exact State.modElem_kept (spillAdds_kept h he)
        · dsimp only
          exact State.modElem_kept h
        · exact parkWrite_kept h
        · exact askXlat_kept h

theorem spillAll_kept {K : Field → Bool} {o : State} [Free K .mem] [Free K .poison] [Free K .pkgBad] [Free K .bays] {ctx r
    b} (h : Kept K o r.2) : Kept K o (spillAll ctx r b).2 := by
  unfold spillAll
  refine foldl_kept2 (fun q e hq => foldl_kept2 (fun q k hq => ?_) _ hq) _ h
  split
  · exact spillSlot_kept hq
  · exact hq

theorem purgeInst_kept {K : Field → Bool} {o : State} [Free K .bays] [Free K .flight] {s : State} {b} {g} {ix} (h : Kept K o
    s) : Kept K o (purgeInst s b g ix) := by
  unfold purgeInst
  repeat' (first | with_reducible assumption | with_reducible apply State.modBay_kept | simp only [kept_flight_iff])

theorem answerReader_kept {K : Field → Bool} {o : State} [Free K .bays] [Free K .parts] [Free K .pf] [Free K .flight] {s :
    State} {home} {r} (h : Kept K o s) : Kept K o (answerReader s home r) := by
  unfold answerReader
  repeat' (first | with_reducible assumption | with_reducible apply State.sendRep_kept)

theorem answerReaders_kept {K : Field → Bool} {o : State} [Free K .bays] [Free K .parts] [Free K .pf] [Free K .flight] {s :
    State} {home} {ctx} {y} (h : Kept K o s) : Kept K o (answerReaders s home ctx y) := by
  unfold answerReaders
  repeat' (first
    | with_reducible assumption | with_reducible apply State.modBay_kept | with_reducible apply answerReader_kept
    | with_reducible apply foldl_kept | split | intro _)

theorem ofTry_kept {K : Field → Bool} {o : State} {r} (h : Kept K o r.2) : (ofTry r).Good K o := by
  unfold ofTry
  split <;> exact h

theorem setWr_kept {K : Field → Bool} {o : State} [Free K .bays] {s : State} {e} {b} {v} (h : Kept K o s) : Kept K o (setWr
    s e b v) := by
  unfold setWr
  repeat' (first | with_reducible assumption | with_reducible apply State.modInst_kept)

theorem seekBuf_kept {K : Field → Bool} {o : State} [Free K .mem] [Free K .poison] [Free K .pkgBad] [Free K .bays] [Free K
    .parts] [Free K .pf] [Free K .flight] {s : State} {b} {k} {a} (h : Kept K o s) : Kept K o (seekBuf s b k a) := by
  unfold seekBuf
  repeat' (first | with_reducible assumption | with_reducible apply storeBuf_kept)

theorem bufferBytes_kept {K : Field → Bool} {o : State} [Free K .mem] [Free K .poison] [Free K .pkgBad] [Free K .bays] [Free
    K .parts] [Free K .pf] [Free K .flight] {s : State} {b} {k} {g} {ix} {a} {bs} {poi} {dirty} (h : Kept K o s) : KeptOpt K o
    (bufferBytes s b k g ix a bs poi dirty) := by
  unfold bufferBytes
  repeat' (first
    | with_reducible assumption | with_reducible apply kept_none | with_reducible apply kept_some
    | with_reducible apply directoryUpdate_kept | with_reducible apply wholeLines_kept | with_reducible apply modBuf_kept
    | with_reducible apply touchBuf_kept | with_reducible apply storeBuf_kept | with_reducible apply openLife_kept
    | (refine pair_kept (by assumption) ?_) | split | dsimp only)

theorem issueRun_kept {K : Field → Bool} {o : State} [Free K .mem] [Free K .poison] [Free K .pkgBad] [Free K .bays] [Free K
    .parts] [Free K .pf] [Free K .flight] {b x e bs poi l s} (h : Kept K o s) : (issueRun b x e bs poi l s).Good K o := by
  induction l generalizing s with
  | nil => exact h
  | cons q qs ih =>
    unfold issueRun
    dsimp only
    split
    · rename_i he
      exact ih (Wr.done_kept he (writeRun_kept h))
    · rename_i he
      exact Wr.wait_kept he (writeRun_kept h)
    · exact engineFault_kept h
    · split <;> exact h

theorem performRun_kept {K : Field → Bool} {o : State} [Free K .mem] [Free K .poison] [Free K .pkgBad] [Free K .bays] [Free
    K .parts] [Free K .pf] [Free K .flight] {s : State} {b} {x} {e} {a} {bs} {poi} (h : Kept K o s) : (performRun s b x e a bs
    poi).Good K o := by
  unfold performRun
  repeat' (first | with_reducible assumption | with_reducible apply issueRun_kept)

theorem performed_kept {K : Field → Bool} {o : State} [Free K .bays] {b e r} (h : r.Good K o) : (performed b e r).Good K o := by
  unfold performed
  split
  · split
    · exact Ap.good_done (setWr_kept h)
    · split
      · exact Ap.good_done (setWr_kept h)
      · exact Ap.good_wait (setWr_kept h)
  · exact h

theorem applyBuffered_kept {K : Field → Bool} {o : State} [Free K .mem] [Free K .poison] [Free K .pkgBad] [Free K .bays]
    [Free K .parts] [Free K .pf] [Free K .flight] {s : State} {b} {x} {e} (h : Kept K o s) : (applyBuffered s b x e).Good K o :=
    by
  unfold applyBuffered
  repeat' (first
    | with_reducible assumption | with_reducible apply Ap.good_wait | with_reducible apply setWr_kept
    | with_reducible apply seekBuf_kept | with_reducible apply bufferBytes_kept | with_reducible apply performRun_kept
    | with_reducible apply performed_kept | (refine some_kept (by assumption) ?_) | split | dsimp only)

def ExKept (K : Field → Bool) (o : State) : Except Ap (Option Loc × State) → Prop
  | .error r => r.Good K o
  | .ok p => Kept K o p.2

theorem ExKept.error {K : Field → Bool} {o : State} {x : Except Ap (Option Loc × State)} {r} (h : ExKept K o x) (e : x =
    .error r) :
    r.Good K o := by
  rw [e] at h
  exact h

theorem ExKept.ok {K : Field → Bool} {o : State} {x : Except Ap (Option Loc × State)} {l s} (h : ExKept K o x) (e : x = .ok
    (l, s)) :
    Kept K o s := by
  rw [e] at h
  exact h

theorem stoPlace_kept {K : Field → Bool} {o : State} [Free K .mem] [Free K .poison] [Free K .pkgBad] [Free K .bays] {s :
    State} {b e} (h : Kept K o s) : ExKept K o (stoPlace s b e) := by
  unfold stoPlace
  split
  · exact h
  · dsimp only
    split
    · exact h
    · split
      · exact parkWrite_kept h
      · exact h
      · exact h
      · exact h
      · rename_i he
        exact Xlat.ok_kept he (translateFor_kept h)

theorem performSto_kept {K : Field → Bool} {o : State} [Free K .mem] [Free K .poison] [Free K .pkgBad] [Free K .bays] [Free
    K .parts] [Free K .pf] [Free K .flight] {s : State} {b x e} (h : Kept K o s) : (performSto s b x e).Good K o := by
  unfold performSto
  split
  · rename_i he
    exact (stoPlace_kept h).error he
  · rename_i he
    exact (stoPlace_kept h).ok he
  · rename_i he
    exact Ap.good_done (issueReq_kept ((stoPlace_kept h).ok he))

theorem applyHome_kept {K : Field → Bool} {o : State} [Free K .mem] [Free K .poison] [Free K .pkgBad] [Free K .bays] [Free K
    .parts] [Free K .pf] [Free K .flight] {s : State} {b} {x} {e} {once} (h : Kept K o s) : (applyHome s b x e once).Good K o :=
    by
  unfold applyHome
  repeat' (first
    | with_reducible assumption | with_reducible apply performRun_kept | with_reducible apply performSto_kept
    | with_reducible apply performed_kept | split)

theorem zskipLines_kept {K : Field → Bool} {o : State} [Free K .mem] [Free K .poison] [Free K .pkgBad] [Free K .bays] [Free
    K .parts] [Free K .pf] [Free K .flight] {b k a sc n s} (h : Kept K o s) : Kept K o (zskipLines b k a sc n s).2 := by
  induction n generalizing s with
  | zero => exact h
  | succ n ih =>
    unfold zskipLines
    repeat' (first
      | with_reducible assumption | with_reducible apply ih | with_reducible apply zskipLine_kept
      | with_reducible apply State.modSite_kept | split | dsimp only)

theorem zskipLane_kept {K : Field → Bool} {o : State} [Free K .mem] [Free K .poison] [Free K .pkgBad] [Free K .bays] [Free K
    .parts] [Free K .pf] [Free K .flight] {s : State} {b} {e} {idx} {v} (h : Kept K o s) : (zskipLane s b e idx v).Good K o :=
    by
  unfold zskipLane
  repeat' (first
    | with_reducible assumption | with_reducible apply Ap.good_done | with_reducible apply Ap.good_wait
    | with_reducible apply State.modSite_kept | with_reducible apply seekBuf_kept | with_reducible apply bufferBytes_kept
    | with_reducible apply zskipLines_kept | with_reducible apply setWr_kept | with_reducible apply performRun_kept
    | (refine Ap.done_kept (by assumption) ?_) | (refine some_kept (by assumption) ?_) | split | dsimp only)

theorem zskipAll_kept {K : Field → Bool} {o : State} [Free K .mem] [Free K .poison] [Free K .pkgBad] [Free K .bays] [Free K
    .parts] [Free K .pf] [Free K .flight] {b e l s} (h : Kept K o s) : (zskipAll b e l s).Good K o := by
  induction l generalizing s with
  | nil => exact h
  | cons q qs ih =>
    have hl : (zskipLane s b e q.1 q.2).Good K o := zskipLane_kept h
    unfold zskipAll
    split
    · rename_i he
      exact ih (Ap.done_kept he hl)
    · exact hl

theorem applyZskip_kept {K : Field → Bool} {o : State} [Free K .mem] [Free K .poison] [Free K .pkgBad] [Free K .bays] [Free
    K .parts] [Free K .pf] [Free K .flight] {s : State} {b} {e} (h : Kept K o s) : (applyZskip s b e).Good K o := by
  unfold applyZskip
  repeat' (first | with_reducible assumption | with_reducible apply zskipAll_kept | with_reducible apply performed_kept)

theorem applyStore_kept {K : Field → Bool} {o : State} [Free K .mem] [Free K .poison] [Free K .pkgBad] [Free K .bays] [Free
    K .parts] [Free K .pf] [Free K .flight] {s : State} {b} {ctx} {e} {once} (h : Kept K o s) : (applyStore s b ctx e once).Good
    K o := by
  unfold applyStore
  repeat' (first
    | with_reducible assumption | with_reducible apply Ap.good_done | with_reducible apply Ap.good_wait
    | with_reducible apply applyBuffered_kept | with_reducible apply applyHome_kept | with_reducible apply applyZskip_kept
    | with_reducible apply releaseActions_kept | with_reducible apply setWr_kept | split | dsimp only)

theorem applyEnt_kept {K : Field → Bool} {o : State} [Free K .mem] [Free K .poison] [Free K .pkgBad] [Free K .bays] [Free K
    .parts] [Free K .pf] [Free K .flight] {s : State} {b e} (h : Kept K o s) : (applyEnt s b e).Good K o := by
  unfold applyEnt
  repeat' (first
    | with_reducible assumption | with_reducible apply Ap.good_done | with_reducible apply Ap.good_wait
    | with_reducible apply applyStore_kept | with_reducible apply releaseActions_kept | with_reducible apply zeroLine_kept
    | with_reducible apply zskipComplete_kept | with_reducible apply writeBackSite_kept | with_reducible apply modBuf_kept
    | with_reducible apply writeBack_kept | with_reducible apply State.modBay_kept | with_reducible apply ofTry_kept
    | split | dsimp only)

theorem applyAll_kept {K : Field → Bool} {o : State} [Free K .mem] [Free K .poison] [Free K .pkgBad] [Free K .bays] [Free K
    .parts] [Free K .pf] [Free K .flight] {b g ix es s} (h : Kept K o s) : (applyAll b g ix es s).Good K o := by
  induction es generalizing s with
  | nil => exact h
  | cons e es ih =>
    have he : (applyEnt s b e).Good K o := applyEnt_kept h
    unfold applyAll
    split
    · rename_i hd
      rw [hd] at he
      exact ih (State.modInst_kept he)
    · exact he

theorem applyUpdate_kept {K : Field → Bool} {o : State} [Free K .bays] {s : State} {b} {g} {u} (h : Kept K o s) : Kept K o
    (applyUpdate s b g u) := by
  unfold applyUpdate
  repeat' (first | with_reducible assumption | with_reducible apply State.modGate_kept)

theorem zskipCheck_kept {K : Field → Bool} {o : State} {s : State} {b} {es} (h : Kept K o s) : (zskipCheck s b es).Good K o
    := by
  unfold zskipCheck
  repeat' (first
    | with_reducible assumption | with_reducible apply Ap.good_done | with_reducible apply Ap.good_stop | split
    | dsimp only)

theorem onceCheck_kept {K : Field → Bool} {o : State} [Free K .mem] [Free K .poison] [Free K .pkgBad] [Free K .bays] {s :
    State} {b es seen} (h : Kept K o s) : (onceCheck s b es seen).Good K o := by
  induction es generalizing s seen with
  | nil => exact h
  | cons e es ih =>
    unfold onceCheck
    split
    · rename_i he
      exact (stoPlace_kept h).error he
    · rename_i he
      exact ih ((stoPlace_kept h).ok he)
    · rename_i he
      dsimp only
      split
      · exact (stoPlace_kept h).ok he
      · exact ih ((stoPlace_kept h).ok he)

theorem commitCheck_kept {K : Field → Bool} {o : State} [Free K .mem] [Free K .poison] [Free K .pkgBad] [Free K .bays] {s :
    State} {b} {es} (h : Kept K o s) : (commitCheck s b es).Good K o := by
  unfold commitCheck
  dsimp only
  split
  · rename_i he
    exact zskipCheck_kept (Ap.done_kept he (onceCheck_kept h))
  · exact onceCheck_kept h

theorem commitFault_kept {K : Field → Bool} {o : State} [Free K .bays] [Free K .parts] [Free K .pf] {s : State} {b} {g} {ix}
    {code} {el} {slot} {d} (h : Kept K o s) : Kept K o (commitFault s b g ix code el slot d) := by
  unfold commitFault
  repeat' (first | with_reducible assumption | with_reducible apply State.takeFault_kept)

theorem deliverEntry_kept {K : Field → Bool} {o : State} [Free K .bays] [Free K .parts] [Free K .pf] [Free K .flight] {s :
    State} {b} {ctx} {pos} {m} (h : Kept K o s) : Kept K o (deliverEntry s b ctx pos m) := by
  unfold deliverEntry
  repeat' (first
    | with_reducible assumption | with_reducible apply State.modCtx_kept | with_reducible apply State.emit_kept
    | with_reducible apply State.send_kept | split)

theorem deliverHeld_kept {K : Field → Bool} {o : State} [Free K .bays] [Free K .parts] [Free K .pf] [Free K .flight] {s :
    State} {b} {g} {ctx} {j} (h : Kept K o s) : Kept K o (deliverHeld s b g ctx j) := by
  unfold deliverHeld
  repeat' (first | with_reducible assumption | with_reducible apply deliverEntry_kept)

theorem finishCommit_kept {K : Field → Bool} {o : State} [Free K .mem] [Free K .poison] [Free K .pkgBad] [Free K .bays]
    [Free K .parts] [Free K .pf] [Free K .flight] {s : State} {b} {g} {ix} (h : Kept K o s) : Kept K o (finishCommit s b g ix)
    := by
  unfold finishCommit
  repeat' (first
    | with_reducible assumption | with_reducible apply freeInst_kept | with_reducible apply kick_kept
    | with_reducible apply traceInst_kept | with_reducible apply deliverHeld_kept | with_reducible apply haltLaunch_kept
    | with_reducible apply applyUpdate_kept | with_reducible apply foldl_kept | split | intro _)

theorem endLives_kept {K : Field → Bool} {o : State} [Free K .mem] [Free K .poison] [Free K .pkgBad] [Free K .bays] [Free K
    .parts] [Free K .pf] [Free K .flight] {s : State} {ks} (h : Kept K o s) : Kept K o (endLives s ks).2 := by
  unfold endLives
  repeat' (first | with_reducible assumption | with_reducible apply endLife_kept | with_reducible apply foldl_kept2 | intro _)

theorem commitInst_kept {K : Field → Bool} {o : State} [Free K .mem] [Free K .poison] [Free K .pkgBad] [Free K .bays] [Free
    K .parts] [Free K .pf] [Free K .flight] {s : State} {b g ix} (h : Kept K o s) : Kept K o (commitInst s b g ix) := by
  unfold commitInst
  split
  · exact h
  · dsimp only
    have hs (i : Inst) : Ap.Good K o (if i.applied = 0 then
        match commitCheck s b (entriesOf s b g ix) with
        | .done s => .done (s.modInst b g ix fun i => { i with applied := 1 })
        | r => r
      else .done s) := by
      split
      · have hc : (commitCheck s b (entriesOf s b g ix)).Good K o := commitCheck_kept h
        split
        · rename_i he
          rw [he] at hc
          exact State.modInst_kept hc
        · exact hc
      · exact h
    split
    · rename_i he
      exact Ap.wait_kept he (hs _)
    · rename_i he
      exact commitFault_kept (Ap.stop_kept he (hs _))
    · rename_i he
      have h1 := Ap.done_kept he (hs _)
      split
      · rename_i he2
        exact Ap.wait_kept he2 (applyAll_kept h1)
      · rename_i he2
        exact commitFault_kept (Ap.stop_kept he2 (applyAll_kept h1))
      · rename_i he2
        have h2 := Ap.done_kept he2 (applyAll_kept h1)
        split
        · exact h2
        · split
          · exact foldl_kept (fun _ _ ht => kick_kept ht) _ (finishCommit_kept (endLives_kept h2))
          · exact endLives_kept h2

theorem performOnce_kept {K : Field → Bool} {o : State} [Free K .mem] [Free K .poison] [Free K .pkgBad] [Free K .bays] [Free
    K .parts] [Free K .pf] [Free K .flight] {s : State} {home} {ctx} {y} {bs} {poi} (h : Kept K o s) : Kept K o (performOnce s
    home ctx y bs poi) := by
  unfold performOnce
  repeat' (first
    | with_reducible assumption | with_reducible apply noteDirty_kept | with_reducible apply State.modBay_kept
    | with_reducible apply answerReaders_kept | with_reducible apply homeWrite_kept)

theorem admitTag_kept {K : Field → Bool} {o : State} [Free K .bays] [Free K .parts] [Free K .pf] [Free K .flight] {s :
    State} {b} {g} {hn} {j} {c} {t} {ix} (h : Kept K o s) : Kept K o (admitTag s b g hn j c t ix) := by
  unfold admitTag
  repeat' (first
    | with_reducible assumption | with_reducible apply enterToken_kept | with_reducible apply traceInst_kept
    | with_reducible apply State.modElem_kept | with_reducible apply State.modGate_kept | with_reducible apply foldl_kept
    | intro _)

theorem holdToken_kept {K : Field → Bool} {o : State} [Free K .bays] [Free K .parts] [Free K .pf] {s : State} {m} {k} (h :
    Kept K o s) : Kept K o (holdToken s m k) := by
  unfold holdToken
  repeat' (first | with_reducible assumption | with_reducible apply State.modCtx_kept | with_reducible apply beginStop_kept)

theorem emptySlot_kept {K : Field → Bool} {o : State} [Free K .bays] [Free K .parts] [Free K .pf] {s : State} {m} (h : Kept
    K o s) : Kept K o (emptySlot s m) := by
  unfold emptySlot
  repeat' (first | with_reducible assumption | with_reducible apply State.takeRegionFault_kept)

theorem arriveToken_kept {K : Field → Bool} {o : State} [Free K .bays] [Free K .parts] [Free K .pf] [Free K .flight] {s :
    State} {m} (h : Kept K o s) : Kept K o (arriveToken s m) := by
  unfold arriveToken
  repeat' (first
    | with_reducible assumption | with_reducible apply placeToken_kept | with_reducible apply holdToken_kept
    | with_reducible apply emptySlot_kept | split)

theorem execLimUpdate_kept {K : Field → Bool} {o : State} [Free K .bays] {b} {g} {ctx} {hn} {s : State} (h : Kept K o s) :
    KeptRes K o (execLimUpdate b g ctx hn s) := by
  unfold execLimUpdate
  repeat' (first | with_reducible assumption | with_reducible apply kept_next | with_reducible apply State.modHitch_kept)

theorem execCommit_kept {K : Field → Bool} {o : State} [Free K .mem] [Free K .poison] [Free K .pkgBad] [Free K .bays] [Free
    K .parts] [Free K .pf] [Free K .flight] {b} {g} {ix} {s : State} (h : Kept K o s) : KeptRes K o (execCommit b g ix s) := by
  unfold execCommit
  repeat' (first | with_reducible assumption | with_reducible apply kept_next | with_reducible apply commitInst_kept | split)

theorem settleInst_kept {K : Field → Bool} {o : State} [Free K .mem] [Free K .poison] [Free K .pkgBad] [Free K .bays] [Free
    K .parts] [Free K .pf] [Free K .flight] {s : State} {b} {g} {ix} (h : Kept K o s) : Kept K o (settleInst s b g ix) := by
  unfold settleInst
  repeat' (first
    | with_reducible assumption | with_reducible apply State.takeFault_kept | with_reducible apply State.modInst_kept
    | with_reducible apply discardInst_kept | with_reducible apply clearRows_kept | split | dsimp only)

theorem execSettle_kept {K : Field → Bool} {o : State} [Free K .mem] [Free K .poison] [Free K .pkgBad] [Free K .bays] [Free
    K .parts] [Free K .pf] [Free K .flight] {b} {g} {ix} {s : State} (h : Kept K o s) : KeptRes K o (execSettle b g ix s) := by
  unfold execSettle
  repeat' (first | with_reducible assumption | with_reducible apply kept_next | with_reducible apply settleInst_kept | split)

theorem headerPoison_kept {K : Field → Bool} {o : State} [Free K .bays] [Free K .parts] [Free K .pf] {s : State} {b} {g}
    {hn} {j} {t} (h : Kept K o s) : Kept K o (headerPoison s b g hn j t) := by
  unfold headerPoison
  repeat' (first | with_reducible assumption | with_reducible apply State.takeRegionFault_kept)

theorem execAdmitTag_kept {K : Field → Bool} {o : State} [Free K .bays] [Free K .parts] [Free K .pf] [Free K .flight] {b}
    {g} {ctx} {hn} {s : State} (h : Kept K o s) : KeptRes K o (execAdmitTag b g ctx hn s) := by
  unfold execAdmitTag
  repeat' (first
    | with_reducible assumption | with_reducible apply kept_next | with_reducible apply admitTag_kept
    | with_reducible apply headerPoison_kept | split)

theorem execGateEntryToken_kept {K : Field → Bool} {o : State} [Free K .bays] [Free K .parts] [Free K .pf] [Free K .flight]
    {m} {s : State} (h : Kept K o s) : KeptRes K o (execGateEntryToken m s) := by
  unfold execGateEntryToken
  repeat' (first
    | with_reducible assumption | with_reducible apply kept_next | with_reducible apply takeEntry_kept
    | with_reducible apply State.modCtx_kept | simp only [kept_flight_iff] | split)

theorem execWaithistSpill_kept {K : Field → Bool} {o : State} [Free K .mem] [Free K .poison] [Free K .pkgBad] [Free K .bays]
    {b} {ctx} {el} {slot} {s : State} (h : Kept K o s) : KeptRes K o (execWaithistSpill b ctx el slot s) := by
  unfold execWaithistSpill
  repeat' (first | with_reducible assumption | with_reducible apply kept_next | with_reducible apply spillSlot_kept)

theorem execTokenArrive_kept {K : Field → Bool} {o : State} [Free K .bays] [Free K .parts] [Free K .pf] [Free K .flight] {m}
    {s : State} (h : Kept K o s) : KeptRes K o (execTokenArrive m s) := by
  unfold execTokenArrive
  repeat' (first
    | with_reducible assumption | with_reducible apply kept_next | with_reducible apply arriveToken_kept
    | simp only [kept_flight_iff] | split)

theorem bounceLdo_kept {K : Field → Bool} {o : State} [Free K .bays] [Free K .parts] [Free K .pf] [Free K .flight] {s :
    State} {p} (h : Kept K o s) : Kept K o (bounceLdo s p) := by
  unfold bounceLdo
  repeat' (first
    | with_reducible assumption | with_reducible apply addWaiter_kept | with_reducible apply State.modBay_kept
    | with_reducible apply pumpReqs_kept | split | dsimp only)

theorem dropFilled_kept {K : Field → Bool} {o : State} [Free K .bays] [Free K .parts] [Free K .pf] {s : State} {b} (h : Kept
    K o s) : Kept K o (dropFilled s b) := by
  unfold dropFilled
  repeat' (first
    | with_reducible assumption | with_reducible apply preload_kept | with_reducible apply State.modBay_kept
    | with_reducible apply foldl_kept | intro _)

theorem opReply_kept {K : Field → Bool} {o : State} [Free K .bays] [Free K .parts] [Free K .pf] [Free K .flight] {s : State}
    {b} {g} {ix} {y} {p} {deferred} (h : Kept K o s) : Kept K o (opReply s b g ix y p deferred) := by
  unfold opReply
  repeat' (first
    | with_reducible assumption | with_reducible apply opDone_kept | with_reducible apply countReply_kept
    | with_reducible apply acquireActions_kept | with_reducible apply finishLoad_kept | with_reducible apply opFault_kept
    | split | dsimp only)

theorem fillsEnded_kept {K : Field → Bool} {o : State} [Free K .mem] [Free K .poison] [Free K .pkgBad] [Free K .bays] [Free
    K .parts] [Free K .pf] [Free K .flight] {s : State} {b} (h : Kept K o s) : Kept K o (fillsEnded s b) := by
  unfold fillsEnded
  repeat' (first | with_reducible assumption | with_reducible apply dropFilled_kept | with_reducible apply kick_kept)

theorem execDepUpdate_kept {K : Field → Bool} {o : State} [Free K .bays] {b} {k} {s : State} (h : Kept K o s) : KeptRes K o
    (execDepUpdate b k s) := by
  unfold execDepUpdate
  repeat' (first | with_reducible assumption | with_reducible apply kept_next | with_reducible apply State.modSite_kept)

theorem execStreamFetch_kept {K : Field → Bool} {o : State} [Free K .mem] [Free K .poison] [Free K .pkgBad] [Free K .bays]
    [Free K .parts] [Free K .pf] [Free K .flight] {b} {k} {s : State} (h : Kept K o s) : KeptRes K o (execStreamFetch b k s) :=
    by
  unfold execStreamFetch
  repeat' (first
    | with_reducible assumption | with_reducible apply kept_next | with_reducible apply fillsEnded_kept
    | with_reducible apply State.modSite_kept | with_reducible apply takeFill_kept | with_reducible apply engineFault_kept
    | split | dsimp only)

theorem fillPiece_kept {K : Field → Bool} {o : State} [Free K .mem] [Free K .poison] [Free K .pkgBad] [Free K .bays] [Free K
    .parts] [Free K .pf] [Free K .flight] {s : State} {b} {k} {i} {y} {bs} {poi} (h : Kept K o s) : Kept K o (fillPiece s b k i
    y bs poi) := by
  unfold fillPiece
  repeat' (first
    | with_reducible assumption | with_reducible apply endFill_kept | with_reducible apply fillsEnded_kept
    | with_reducible apply modBuf_kept | split | dsimp only)

theorem execFillDataArrive_kept {K : Field → Bool} {o : State} [Free K .mem] [Free K .poison] [Free K .pkgBad] [Free K
    .bays] [Free K .parts] [Free K .pf] [Free K .flight] {b} {k} {i} {p} {s : State} (h : Kept K o s) : KeptRes K o
    (execFillDataArrive b k i p s) := by
  unfold execFillDataArrive
  repeat' (first
    | with_reducible assumption | with_reducible apply kept_next | with_reducible apply fillPiece_kept
    | with_reducible apply askXlat_kept | with_reducible apply fillFault_kept | with_reducible apply closeReq_kept | split)

theorem returnReader_kept {K : Field → Bool} {o : State} [Free K .bays] {s : State} {r} (h : Kept K o s) : Kept K o
    (returnReader s r) := by
  unfold returnReader
  repeat' (first | with_reducible assumption | with_reducible apply State.modBay_kept)

theorem placePiece_kept {K : Field → Bool} {o : State} [Free K .bays] {s : State} {b} {isl} {p} {n} {y} {bs} {poi} (h : Kept
    K o s) : Kept K o (placePiece s b isl p n y bs poi) := by
  unfold placePiece
  repeat' (first | with_reducible assumption | with_reducible apply State.modPort_kept)

theorem execMrep_kept {K : Field → Bool} {o : State} [Free K .mem] [Free K .poison] [Free K .pkgBad] [Free K .bays] [Free K
    .parts] [Free K .pf] [Free K .flight] {b} {p} {s : State} (h : Kept K o s) : KeptRes K o (execMrep b p s) := by
  unfold execMrep
  repeat' (first
    | with_reducible assumption | with_reducible apply kept_next | with_reducible apply opReply_kept
    | with_reducible apply State.modInst_kept | with_reducible apply returnReader_kept | with_reducible apply backDone_kept
    | with_reducible apply kick_kept | with_reducible apply placePiece_kept | with_reducible apply State.send_kept
    | with_reducible apply closeReq_kept | split | dsimp only)

theorem homeLdo_kept {K : Field → Bool} {o : State} [Free K .bays] [Free K .parts] [Free K .pf] [Free K .flight] {s : State}
    {home} {l} {n} {p} (h : Kept K o s) : Kept K o (homeLdo s home l n p) := by
  unfold homeLdo
  repeat' (first
    | with_reducible assumption | with_reducible apply State.modBay_kept | with_reducible apply bounceLdo_kept
    | with_reducible apply State.sendRep_kept | split | dsimp only)

theorem homeAtomic_kept {K : Field → Bool} {o : State} [Free K .mem] [Free K .poison] [Free K .pkgBad] [Free K .bays] [Free
    K .parts] [Free K .pf] [Free K .flight] {s : State} {home} {l} {n} {p} (h : Kept K o s) : Kept K o (homeAtomic s home l n p)
    := by
  unfold homeAtomic
  repeat' (first
    | with_reducible assumption | with_reducible apply homeWrite_kept | with_reducible apply noteDirty_kept
    | with_reducible apply State.sendRep_kept | split)

theorem execMreq_kept {K : Field → Bool} {o : State} [Free K .mem] [Free K .poison] [Free K .pkgBad] [Free K .bays] [Free K
    .parts] [Free K .pf] [Free K .flight] {home} {p} {s : State} (h : Kept K o s) : KeptRes K o (execMreq home p s) := by
  unfold execMreq
  repeat' (first
    | with_reducible assumption | with_reducible apply kept_next | with_reducible apply performOnce_kept
    | with_reducible apply kickLdos_kept | with_reducible apply homeLdo_kept | with_reducible apply homeAtomic_kept
    | with_reducible apply homeWrite_kept | with_reducible apply noteDirty_kept | with_reducible apply State.sendRep_kept
    | split)

theorem dropXreq_kept {K : Field → Bool} {o : State} [Free K .bays] {s : State} {b} {id} (h : Kept K o s) : Kept K o
    (dropXreq s b id) := by
  unfold dropXreq
  repeat' (first | with_reducible assumption | with_reducible apply State.modBay_kept)

theorem unpark_kept {K : Field → Bool} {o : State} [Free K .bays] {n} {s : State} {b} (h : Kept K o s) : Kept K o (unpark n
    s b) := by
  unfold unpark
  repeat' (first | with_reducible assumption | with_reducible apply State.modBay_kept)

theorem flushFull_kept {K : Field → Bool} {o : State} [Free K .bays] {n} {k} {s : State} {b} (h : Kept K o s) : Kept K o
    (flushFull n k s b) := by
  unfold flushFull
  repeat' (first | with_reducible assumption | with_reducible apply State.modBay_kept)

theorem shootBay_kept {K : Field → Bool} {o : State} [Free K .mem] [Free K .poison] [Free K .pkgBad] [Free K .bays] [Free K
    .parts] [Free K .pf] [Free K .flight] {n k r b} (h : Kept K o r.2) : Kept K o (shootBay n k r b).2 := by
  unfold shootBay
  repeat' (first
    | with_reducible assumption | with_reducible apply State.modBay_kept | with_reducible apply writeBackSite_kept
    | with_reducible apply foldl_kept2 | split | intro _)

theorem shootOn_kept {K : Field → Bool} {o : State} [Free K .mem] [Free K .poison] [Free K .pkgBad] [Free K .bays] [Free K
    .parts] [Free K .pf] [Free K .flight] {s : State} {n} (h : Kept K o s) : Kept K o (shootOn s n).2 := by
  unfold shootOn
  repeat' (first | with_reducible assumption | with_reducible apply shootBay_kept | with_reducible apply foldl_kept2 | split)

theorem execShootdownComplete_kept {K : Field → Bool} {o : State} [Free K .mem] [Free K .poison] [Free K .pkgBad] [Free K
    .bays] [Free K .parts] [Free K .pf] [Free K .flight] {n} {s : State} (h : Kept K o s) : KeptRes K o (execShootdownComplete n
    s) := by
  unfold execShootdownComplete
  repeat' (first
    | with_reducible assumption | with_reducible apply kept_next | with_reducible apply kick_kept
    | with_reducible apply unpark_kept | with_reducible apply State.modPart_kept | with_reducible apply flushFull_kept
    | with_reducible apply shootOn_kept | with_reducible apply foldl_kept | split | dsimp only)

theorem shootStart_kept {K : Field → Bool} {o : State} [Free K .mem] [Free K .poison] [Free K .pkgBad] [Free K .bays] [Free
    K .parts] [Free K .pf] [Free K .flight] {opn} {n} {cmd} {s : State} (h : Kept K o s) : Kept K o (shootStart opn n cmd s) :=
    by
  unfold shootStart
  repeat' (first
    | with_reducible assumption | with_reducible apply State.modPart_kept | with_reducible apply shootOn_kept | split
    | dsimp only)

theorem execShootdownMigrate_kept {K : Field → Bool} {o : State} [Free K .mem] [Free K .poison] [Free K .pkgBad] [Free K
    .bays] [Free K .parts] [Free K .pf] [Free K .flight] {n} {cmd} {s : State} (h : Kept K o s) : KeptRes K o
    (execShootdownMigrate n cmd s) := by
  unfold execShootdownMigrate
  repeat' (first | with_reducible assumption | with_reducible apply kept_next | with_reducible apply shootStart_kept)

theorem execShootdownFlush_kept {K : Field → Bool} {o : State} [Free K .mem] [Free K .poison] [Free K .pkgBad] [Free K
    .bays] [Free K .parts] [Free K .pf] [Free K .flight] {n} {cmd} {s : State} (h : Kept K o s) : KeptRes K o
    (execShootdownFlush n cmd s) := by
  unfold execShootdownFlush
  repeat' (first | with_reducible assumption | with_reducible apply kept_next | with_reducible apply shootStart_kept)

theorem execShootdownInval_kept {K : Field → Bool} {o : State} [Free K .mem] [Free K .poison] [Free K .pkgBad] [Free K
    .bays] [Free K .parts] [Free K .pf] [Free K .flight] {n} {cmd} {s : State} (h : Kept K o s) : KeptRes K o
    (execShootdownInval n cmd s) := by
  unfold execShootdownInval
  repeat' (first | with_reducible assumption | with_reducible apply kept_next | with_reducible apply shootStart_kept)

theorem parkXreq_kept {K : Field → Bool} {o : State} [Free K .bays] {s : State} {b} {id} (h : Kept K o s) : Kept K o
    (parkXreq s b id) := by
  unfold parkXreq
  repeat' (first | with_reducible assumption | with_reducible apply State.modBay_kept)

theorem xlatValue_kept {K : Field → Bool} {o : State} [Free K .mem] [Free K .poison] [Free K .pkgBad] [Free K .bays] [Free K
    .flight] [Free K .freeCtr] {s : State} {b} {id} {g} {ix} {va} {wr} {ctx} {c} (h : Kept K o s) : Kept K o (xlatValue s b id g
    ix va wr ctx c) := by
  unfold xlatValue
  repeat' (first
    | with_reducible assumption | with_reducible apply State.fresh_kept | with_reducible apply parkXreq_kept
    | with_reducible apply translateVa_kept | with_reducible apply dropXreq_kept
    | with_reducible apply State.sendTarget_kept | (refine Xlat.ok_kept (by assumption) ?_) | split)

theorem xlatOp_kept {K : Field → Bool} {o : State} [Free K .mem] [Free K .poison] [Free K .pkgBad] [Free K .bays] [Free K
    .parts] [Free K .pf] [Free K .flight] {s : State} {b} {id} {g} {ix} {y} (h : Kept K o s) : Kept K o (xlatOp s b id g ix y)
    := by
  unfold xlatOp
  repeat' (first
    | with_reducible assumption | with_reducible apply issueReq_kept | with_reducible apply groupIssue_kept
    | with_reducible apply dropXreq_kept | with_reducible apply opFault_kept | with_reducible apply parkXreq_kept
    | with_reducible apply translateFor_kept | (refine Xlat.ok_kept (by assumption) ?_) | split | dsimp only)

theorem translatePieces_kept {K : Field → Bool} {o : State} [Free K .mem] [Free K .poison] [Free K .pkgBad] [Free K .bays]
    {b no x l s} (h : Kept K o s) : (translatePieces b no x l s).Good K o := by
  induction l generalizing s with
  | nil => exact h
  | cons e es ih =>
    unfold translatePieces
    split
    · trivial
    · trivial
    · trivial
    · trivial
    · rename_i he
      have hg := ih (Xlat.ok_kept he (translateFor_kept h))
      split
      · rename_i hr
        rw [hr] at hg
        exact hg
      · exact hg

theorem xlatFill_kept {K : Field → Bool} {o : State} [Free K .mem] [Free K .poison] [Free K .pkgBad] [Free K .bays] [Free K
    .parts] [Free K .pf] [Free K .flight] {s : State} {b} {id} {k} {i} (h : Kept K o s) : Kept K o (xlatFill s b id k i) := by
  unfold xlatFill
  repeat' (first
    | with_reducible assumption | with_reducible apply issueReq_kept | with_reducible apply modBuf_kept
    | with_reducible apply parkXreq_kept | with_reducible apply translatePieces_kept | with_reducible apply fillFault_kept
    | with_reducible apply dropXreq_kept | with_reducible apply foldl_kept | (refine Pieces.ok_kept (by assumption) ?_)
    | split | dsimp only | intro _)

theorem execTranslate_kept {K : Field → Bool} {o : State} [Free K .mem] [Free K .poison] [Free K .pkgBad] [Free K .bays]
    [Free K .parts] [Free K .pf] [Free K .flight] [Free K .freeCtr] {b} {id} {s : State} (h : Kept K o s) : KeptRes K o
    (execTranslate b id s) := by
  unfold execTranslate
  repeat' (first
    | with_reducible assumption | with_reducible apply kept_next | with_reducible apply spillSlot_kept
    | with_reducible apply xlatValue_kept | with_reducible apply wholeLines_kept | with_reducible apply xlatOp_kept
    | with_reducible apply kick_kept | with_reducible apply dropXreq_kept | with_reducible apply xlatFill_kept | split)

end Sys2Proof.Machine
end

