-- ==== Sys2Proof/Laws/FrameIslands.lean ====
section
/-!
SUPPORT. Sys2Proof/Laws/FrameIslands.lean: what the islands and splices leave alone (`Kept`): one lemma per function, whose `Free` premises are the
fields it may change.
-/
namespace Sys2Proof.Machine

open Sys2Proof

theorem islandStall_kept {K : Field → Bool} {o : State} [Free K .bays] [Free K .parts] [Free K .pf] {s : State} {b} {isl}
    {p} {k} {cause} {gen} {addr} {line} (h : Kept K o s) : Kept K o (islandStall s b isl p k cause gen addr line) := by
  unfold islandStall
  repeat' (first | with_reducible assumption | with_reducible apply State.stallIsland_kept)

theorem Io.stopped_kept {K : Field → Bool} {o : State} [Free K .bays] [Free K .parts] [Free K .pf] {x : Io} {b isl p k g} (h
    : x.Good K o) : Kept K o (x.stopped b isl p k g) := by
  unfold Io.stopped
  cases x with
  | ok l s => exact h
  | wait s => exact h
  | stop c a n s => exact islandStall_kept h
  | poison a s => exact State.stallIsland_kept h

theorem sendFrame_kept {K : Field → Bool} {o : State} [Free K .spliceOut] {s : State} {port} {chan} {kind} {tile} {addr}
    {data} {poi} (h : Kept K o s) : Kept K o (sendFrame s port chan kind tile addr data poi) := by
  unfold sendFrame
  repeat' (first | with_reducible assumption | simp only [kept_spliceOut_iff])

theorem askTile_kept {K : Field → Bool} {o : State} [Free K .bays] [Free K .spliceOut] {s : State} {b} {isl} {p} {k} {r} {x}
    (h : Kept K o s) : Kept K o (askTile s b isl p k r x) := by
  unfold askTile
  repeat' (first | with_reducible assumption | with_reducible apply sendFrame_kept | with_reducible apply State.modPort_kept)

theorem cmdTokens_kept {K : Field → Bool} {o : State} [Free K .flight] {s : State} {b} {isl} {p} {k} {v1} (h : Kept K o s) :
    Kept K o (cmdTokens s b isl p k v1) := by
  unfold cmdTokens
  repeat' (first | with_reducible assumption | with_reducible apply State.sendTarget_kept)

theorem drainClear_kept {K : Field → Bool} {o : State} [Free K .bays] {s : State} {b} {r} (h : Kept K o s) : Kept K o
    (drainClear s b r) := by
  unfold drainClear
  repeat' (first | with_reducible assumption | with_reducible apply State.modBay_kept | split)

theorem retire_kept {K : Field → Bool} {o : State} [Free K .bays] [Free K .parts] [Free K .pf] [Free K .flight] {s : State}
    {b} {isl} {p} {k} {v1} (h : Kept K o s) : Kept K o (retire s b isl p k v1) := by
  unfold retire
  repeat' (first
    | with_reducible assumption | with_reducible apply cmdTokens_kept | with_reducible apply traceIsland_kept
    | with_reducible apply State.modBay_kept | with_reducible apply State.modPort_kept)

theorem drainEnd_kept {K : Field → Bool} {o : State} [Free K .bays] [Free K .parts] [Free K .pf] [Free K .flight] {s :
    State} {b} {p} {k} (h : Kept K o s) : Kept K o (drainEnd s b p k) := by
  unfold drainEnd
  repeat' (first | with_reducible assumption | with_reducible apply drainClear_kept | with_reducible apply retire_kept)

theorem drainStart_kept {K : Field → Bool} {o : State} [Free K .bays] [Free K .parts] [Free K .pf] {s : State} {b} {p} {k}
    (h : Kept K o s) : Kept K o (drainStart s b p k) := by
  unfold drainStart
  repeat' (first
    | with_reducible assumption | with_reducible apply State.modPort_kept | with_reducible apply islandStall_kept | split
    | dsimp only)

theorem dropTile_kept {K : Field → Bool} {o : State} [Free K .bays] {s : State} {b} {isl} {p} (h : Kept K o s) : Kept K o
    (dropTile s b isl p) := by
  unfold dropTile
  repeat' (first | with_reducible assumption | with_reducible apply State.modPort_kept)

theorem dropTiles_kept {K : Field → Bool} {o : State} [Free K .bays] {s : State} {b} {ctx} {tag} {fs} (h : Kept K o s) :
    Kept K o (dropTiles s b ctx tag fs) := by
  unfold dropTiles
  repeat' (first
    | with_reducible assumption | with_reducible apply State.modBay_kept | with_reducible apply foldl_kept | intro _)

theorem writePieces_kept {K : Field → Bool} {o : State} [Free K .mem] [Free K .poison] [Free K .pkgBad] [Free K .bays] [Free
    K .parts] [Free K .pf] [Free K .flight] {b isl p k len t l s} (h : Kept K o s) : Kept K o (writePieces b isl p k len t l s)
    := by
  induction l generalizing s with
  | nil => exact h
  | cons e es ih =>
    unfold writePieces
    dsimp only
    split
    · rename_i he
      exact Wr.wait_kept he (writeRun_kept h)
    · rename_i he
      exact ih (State.modPort_kept (Wr.done_kept he (writeRun_kept h)))
    · exact islandStall_kept h
    · exact State.stallIsland_kept h
    · exact State.stallIsland_kept h

theorem writeTile_kept {K : Field → Bool} {o : State} [Free K .mem] [Free K .poison] [Free K .pkgBad] [Free K .bays] [Free K
    .parts] [Free K .pf] [Free K .flight] {s : State} {b} {isl} {p} {k} {len} {t} {ps} (h : Kept K o s) : Kept K o (writeTile s
    b isl p k len t ps).2 := by
  unfold writeTile
  repeat' (first | with_reducible assumption | with_reducible apply writePieces_kept)

theorem routeToken_kept {K : Field → Bool} {o : State} [Free K .bays] [Free K .parts] [Free K .pf] [Free K .flight] {s :
    State} {b} {isl} {p} {k} {e} {idx} {v} {poi} (h : Kept K o s) : Kept K o (routeToken s b isl p k e idx v poi) := by
  unfold routeToken
  repeat' (first | with_reducible assumption | with_reducible apply deliverEntry_kept | split)

theorem served_kept {K : Field → Bool} {o : State} [Free K .bays] {s : State} {b} {isl} {p} (h : Kept K o s) : Kept K o
    (served s b isl p) := by
  unfold served
  repeat' (first | with_reducible assumption | with_reducible apply State.modBay_kept)

theorem execDrainExecute_kept {K : Field → Bool} {o : State} [Free K .mem] [Free K .poison] [Free K .pkgBad] [Free K .bays]
    [Free K .parts] [Free K .pf] [Free K .flight] {b} {p} {s : State} (h : Kept K o s) : KeptRes K o (execDrainExecute b p s) :=
    by
  unfold execDrainExecute
  repeat' (first
    | with_reducible assumption | with_reducible apply kept_next | with_reducible apply writeTile_kept
    | with_reducible apply routeToken_kept | with_reducible apply dropTile_kept | with_reducible apply State.modPort_kept
    | with_reducible apply drainEnd_kept | with_reducible apply drainStart_kept | with_reducible apply served_kept | split
    | dsimp only)

theorem execAclrExecute_kept {K : Field → Bool} {o : State} [Free K .bays] [Free K .parts] [Free K .pf] [Free K .flight] {b}
    {p} {s : State} (h : Kept K o s) : KeptRes K o (execAclrExecute b p s) := by
  unfold execAclrExecute
  repeat' (first
    | with_reducible assumption | with_reducible apply kept_next | with_reducible apply served_kept
    | with_reducible apply State.modBay_kept | with_reducible apply retire_kept | split)

theorem execMmaExecute_kept {K : Field → Bool} {o : State} [Free K .bays] [Free K .parts] [Free K .pf] [Free K .flight] {b}
    {p} {s : State} (h : Kept K o s) : KeptRes K o (execMmaExecute b p s) := by
  unfold execMmaExecute
  repeat' (first
    | with_reducible assumption | with_reducible apply kept_next | with_reducible apply dropTiles_kept
    | with_reducible apply retire_kept | with_reducible apply State.modBay_kept | with_reducible apply islandStall_kept
    | with_reducible apply served_kept | split | dsimp only)

theorem holdTile_kept {K : Field → Bool} {o : State} [Free K .bays] {s : State} {b} {isl} {p} {t} (h : Kept K o s) : Kept K
    o (holdTile s b isl p t) := by
  unfold holdTile
  repeat' (first | with_reducible assumption | with_reducible apply State.modPort_kept)

theorem execSstopExecute_kept {K : Field → Bool} {o : State} [Free K .bays] [Free K .parts] [Free K .pf] [Free K .flight]
    {b} {isl} {p} {s : State} (h : Kept K o s) : KeptRes K o (execSstopExecute b isl p s) := by
  unfold execSstopExecute
  repeat' (first
    | with_reducible assumption | with_reducible apply kept_next | with_reducible apply served_kept
    | with_reducible apply retire_kept | split)

theorem issueReads_kept {K : Field → Bool} {o : State} [Free K .bays] [Free K .parts] [Free K .pf] [Free K .flight] {b}
    {isl} {p} {k} {phys} {n} {ls} {s : State} (h : Kept K o s) : Kept K o (issueReads b isl p k phys n ls s) := by
  unfold issueReads
  repeat' (first | with_reducible assumption | with_reducible apply issueReq_kept | with_reducible apply foldl_kept | intro _)

theorem ioTranslate_kept {K : Field → Bool} {o : State} [Free K .mem] [Free K .poison] [Free K .pkgBad] [Free K .bays] {b
    isl p k phys len l s} (h : Kept K o s) : (ioTranslate b isl p k phys len l s).Good K o := by
  induction l generalizing s with
  | nil => exact h
  | cons e es ih =>
    unfold ioTranslate
    split
    · exact parkWrite_kept h
    · exact h
    · exact h
    · exact h
    · rename_i he
      have hg := ih (Xlat.ok_kept he (translateFor_kept h))
      split
      · rename_i hr
        rw [hr] at hg
        exact hg
      · exact hg

theorem siteStall_kept {K : Field → Bool} {o : State} [Free K .bays] [Free K .parts] [Free K .pf] {s : State} {b} {isl} {p}
    {k} {dst} {x} (h : Kept K o s) : Kept K o (siteStall s b isl p k dst x) := by
  unfold siteStall
  repeat' (first | with_reducible assumption | with_reducible apply State.stallIsland_kept)

theorem execIndexListRead_kept {K : Field → Bool} {o : State} [Free K .mem] [Free K .poison] [Free K .pkgBad] [Free K .bays]
    [Free K .parts] [Free K .pf] [Free K .flight] {b} {isl} {p} {s : State} (h : Kept K o s) : KeptRes K o (execIndexListRead b
    isl p s) := by
  unfold execIndexListRead
  repeat' (first
    | with_reducible assumption | with_reducible apply kept_next | with_reducible apply Io.stopped_kept
    | with_reducible apply State.modPort_kept | with_reducible apply issueReads_kept
    | with_reducible apply ioTranslate_kept | with_reducible apply islandStall_kept | with_reducible apply siteStall_kept
    | with_reducible apply served_kept | (refine Io.ok_kept (by assumption) ?_) | split | dsimp only)

theorem execPipelineEnd_kept {K : Field → Bool} {o : State} [Free K .bays] [Free K .parts] [Free K .pf] [Free K .flight] {b}
    {isl} {p} {s : State} (h : Kept K o s) : KeptRes K o (execPipelineEnd b isl p s) := by
  unfold execPipelineEnd
  repeat' (first
    | with_reducible assumption | with_reducible apply kept_next | with_reducible apply retire_kept
    | with_reducible apply State.modBay_kept | split)

theorem fedArrive_kept {K : Field → Bool} {o : State} [Free K .mem] [Free K .poison] [Free K .pkgBad] [Free K .bays] [Free K
    .parts] [Free K .pf] [Free K .flight] {s : State} {b} {n} {t} (h : Kept K o s) : Kept K o (fedArrive s b n t) := by
  unfold fedArrive
  repeat' (first
    | with_reducible assumption | with_reducible apply endFill_kept | with_reducible apply fillsEnded_kept
    | with_reducible apply modBuf_kept | split)

theorem tileDone_kept {K : Field → Bool} {o : State} [Free K .bays] [Free K .parts] [Free K .pf] [Free K .flight] {s :
    State} {b} {isl} {p} {k} {r} {t} (h : Kept K o s) : Kept K o (tileDone s b isl p k r t) := by
  unfold tileDone
  repeat' (first
    | with_reducible assumption | with_reducible apply routeToken_kept | with_reducible apply dropTile_kept
    | with_reducible apply State.modPort_kept)

theorem execTileArrive_kept {K : Field → Bool} {o : State} [Free K .mem] [Free K .poison] [Free K .pkgBad] [Free K .bays]
    [Free K .parts] [Free K .pf] [Free K .spliceOut] [Free K .flight] {b} {isl} {p} {s : State} (h : Kept K o s) : KeptRes K o
    (execTileArrive b isl p s) := by
  unfold execTileArrive
  repeat' (first
    | with_reducible assumption | with_reducible apply kept_next | with_reducible apply State.modPort_kept
    | with_reducible apply sendFrame_kept | with_reducible apply islandStall_kept | with_reducible apply writeTile_kept
    | with_reducible apply State.modBay_kept | with_reducible apply fedArrive_kept | with_reducible apply tileDone_kept
    | with_reducible apply foldl_kept | split | dsimp only | intro _)

theorem readLines_kept {K : Field → Bool} {o : State} [Free K .mem] [Free K .poison] [Free K .pkgBad] [Free K .bays] [Free K
    .parts] [Free K .pf] [Free K .flight] {s : State} {b} {isl} {p} {k} {len} {as} {t} (h : Kept K o s) : Kept K o (readLines s
    b isl p k len as t) := by
  unfold readLines
  repeat' (first
    | with_reducible assumption | with_reducible apply Io.stopped_kept | with_reducible apply holdTile_kept
    | with_reducible apply issueReads_kept | with_reducible apply ioTranslate_kept | (refine Io.ok_kept (by assumption) ?_)
    | split)

theorem readCopy_kept {K : Field → Bool} {o : State} [Free K .mem] [Free K .poison] [Free K .pkgBad] [Free K .bays] [Free K
    .parts] [Free K .pf] [Free K .flight] {s : State} {b} {isl} {p} {k} {r} {x} (h : Kept K o s) : Kept K o (readCopy s b isl p
    k r x) := by
  unfold readCopy
  repeat' (first | with_reducible assumption | with_reducible apply readLines_kept)

theorem indexStall_kept {K : Field → Bool} {o : State} [Free K .bays] [Free K .parts] [Free K .pf] {s : State} {b} {isl} {p}
    {k} {pos} {val} {row} {poi} (h : Kept K o s) : Kept K o (indexStall s b isl p k pos val row poi) := by
  unfold indexStall
  repeat' (first | with_reducible assumption | with_reducible apply State.stallIsland_kept)

theorem readGather_kept {K : Field → Bool} {o : State} [Free K .mem] [Free K .poison] [Free K .pkgBad] [Free K .bays] [Free
    K .parts] [Free K .pf] [Free K .flight] {s : State} {b} {isl} {p} {k} {r} {x} (h : Kept K o s) : Kept K o (readGather s b
    isl p k r x) := by
  unfold readGather
  repeat' (first
    | with_reducible assumption | with_reducible apply readLines_kept | with_reducible apply indexStall_kept | split
    | dsimp only)

theorem execTileRead_kept {K : Field → Bool} {o : State} [Free K .mem] [Free K .poison] [Free K .pkgBad] [Free K .bays]
    [Free K .parts] [Free K .pf] [Free K .spliceOut] [Free K .flight] {b} {isl} {p} {s : State} (h : Kept K o s) : KeptRes K o
    (execTileRead b isl p s) := by
  unfold execTileRead
  repeat' (first
    | with_reducible assumption | with_reducible apply kept_next | with_reducible apply readCopy_kept
    | with_reducible apply readGather_kept | with_reducible apply askTile_kept | with_reducible apply islandStall_kept
    | with_reducible apply served_kept | split | dsimp only)

theorem execPipelineStart_kept {K : Field → Bool} {o : State} [Free K .mem] [Free K .poison] [Free K .pkgBad] [Free K .bays]
    [Free K .parts] [Free K .pf] [Free K .flight] {b} {isl} {p} {s : State} (h : Kept K o s) : KeptRes K o (execPipelineStart b
    isl p s) := by
  unfold execPipelineStart
  repeat' (first
    | with_reducible assumption | with_reducible apply kept_next | with_reducible apply State.modBay_kept
    | with_reducible apply State.modSite_kept | with_reducible apply openLife_kept | with_reducible apply kick_kept
    | with_reducible apply siteStall_kept | with_reducible apply islandStall_kept | with_reducible apply State.modPort_kept
    | with_reducible apply served_kept | split | dsimp only)

theorem execIslandCommandAccept_kept {K : Field → Bool} {o : State} [Free K .bays] [Free K .parts] [Free K .pf] [Free K
    .flight] {b} {isl} {p} {s : State} (h : Kept K o s) : KeptRes K o (execIslandCommandAccept b isl p s) := by
  unfold execIslandCommandAccept
  repeat' (first
    | with_reducible assumption | with_reducible apply kept_next | with_reducible apply traceIsland_kept
    | with_reducible apply State.modPort_kept | split)

theorem Via.state_kept {K : Field → Bool} {o : State} {x : Via} (h : x.Good K o) : Kept K o x.state := by
  cases x <;> exact h

theorem modPipe_kept {K : Field → Bool} {o : State} [Free K .bays] {s : State} {e} {f} (h : Kept K o s) : Kept K o (modPipe
    s e f) := by
  unfold modPipe
  repeat' (first | with_reducible assumption | with_reducible apply State.modPort_kept)

theorem speerAgain_kept {K : Field → Bool} {o : State} [Free K .bays] {s : State} {e} {inward} (h : Kept K o s) : Kept K o
    (speerAgain s e inward) := by
  unfold speerAgain
  repeat' (first | with_reducible assumption | with_reducible apply modPipe_kept)

theorem chanBroken_kept {K : Field → Bool} {o : State} [Free K .bays] [Free K .parts] [Free K .pf] {s : State} {port} {chan}
    (h : Kept K o s) : Kept K o (chanBroken s port chan) := by
  unfold chanBroken
  repeat' (first
    | with_reducible assumption | with_reducible apply speerAgain_kept | with_reducible apply islandStall_kept
    | with_reducible apply foldl_kept | split | intro _)

theorem parkBare_kept {K : Field → Bool} {o : State} [Free K .parts] [Free K .pf] {s : State} {n} {va} (h : Kept K o s) :
    Kept K o (parkBare s n va) := by
  unfold parkBare
  repeat' (first | with_reducible assumption | with_reducible apply State.modPart_kept)

theorem translatePart_kept {K : Field → Bool} {o : State} [Free K .mem] [Free K .poison] [Free K .pkgBad] {s : State} {n}
    {va} {need} (h : Kept K o s) : (translatePart s n va need).Good K o := by
  unfold translatePart
  repeat' (first
    | with_reducible assumption | with_reducible apply Xlat.good_ok | with_reducible apply Xlat.good_fault
    | with_reducible apply Xlat.good_poison | with_reducible apply Xlat.good_park
    | with_reducible apply State.writeBytes_kept | split | dsimp only)

theorem partRead_kept {K : Field → Bool} {o : State} [Free K .mem] [Free K .poison] [Free K .pkgBad] [Free K .parts] [Free K
    .pf] {n l s} (h : Kept K o s) : (partRead n l s).Good K o := by
  induction l generalizing s with
  | nil => exact h
  | cons e es ih =>
    unfold partRead
    split
    · exact parkBare_kept h
    · exact parkBare_kept h
    · exact h
    · exact h
    · rename_i he
      have hg := ih (Xlat.ok_kept he (translatePart_kept h))
      split
      · rename_i hr
        rw [hr] at hg
        exact hg
      · exact hg

theorem partWrite_kept {K : Field → Bool} {o : State} [Free K .mem] [Free K .poison] [Free K .pkgBad] [Free K .parts] [Free
    K .pf] {n bs poi l s} (h : Kept K o s) : (partWrite n bs poi l s).Good K o := by
  induction l generalizing s with
  | nil => exact h
  | cons e es ih =>
    unfold partWrite
    split
    · exact parkBare_kept h
    · exact parkBare_kept h
    · exact h
    · exact h
    · rename_i he
      dsimp only
      split
      · exact h
      · exact ih (homeWrite_kept (Xlat.ok_kept he (translatePart_kept h)))

theorem linkLoss_kept {K : Field → Bool} {o : State} [Free K .parts] [Free K .pf] {s : State} {link} {ns} (h : Kept K o s) :
    Kept K o (linkLoss s link ns) := by
  unfold linkLoss
  repeat' (first
    | with_reducible assumption | with_reducible apply State.modPart_kept | simp only [kept_pf_iff]
    | with_reducible apply foldl_kept | intro _)

theorem execSpliceLinkUp_kept {K : Field → Bool} {o : State} [Free K .chans] [Free K .spliceDown] {port} {s : State} (h :
    Kept K o s) : KeptRes K o (execSpliceLinkUp port s) := by
  unfold execSpliceLinkUp
  repeat' (first | with_reducible assumption | with_reducible apply kept_next | simp only [kept_chans_spliceDown_iff])

theorem execSpliceLinkDown_kept {K : Field → Bool} {o : State} [Free K .bays] [Free K .parts] [Free K .pf] [Free K .chans]
    [Free K .spliceDown] {port} {s : State} (h : Kept K o s) : KeptRes K o (execSpliceLinkDown port s) := by
  unfold execSpliceLinkDown
  repeat' (first
    | with_reducible assumption | with_reducible apply kept_next | with_reducible apply chanBroken_kept
    | with_reducible apply linkLoss_kept | simp only [kept_chans_spliceDown_iff] | with_reducible apply foldl_kept | split
    | intro _)

theorem execSpliceBindingWrite_kept {K : Field → Bool} {o : State} [Free K .bays] [Free K .parts] [Free K .pf] [Free K
    .chans] {port} {chan} {v} {s : State} (h : Kept K o s) : KeptRes K o (execSpliceBindingWrite port chan v s) := by
  unfold execSpliceBindingWrite
  repeat' (first
    | with_reducible assumption | with_reducible apply kept_next | with_reducible apply chanBroken_kept
    | simp only [kept_chans_iff] | split)

theorem withFrame_kept {K : Field → Bool} {o : State} [Free K .spliceDrop] {k f g} {s : State} (hg : ∀ t, Kept K o t → Kept
    K o (g t)) (h : Kept K o s) : KeptRes K o (withFrame k f g s) := by
  unfold withFrame
  apply kept_next
  split
  · exact hg _ h
  · exact kept_spliceDrop h

theorem execSpliceDone_kept {K : Field → Bool} {o : State} [Free K .bays] [Free K .parts] [Free K .pf] [Free K .spliceDrop]
    {f} {s : State} (h : Kept K o s) : KeptRes K o (execSpliceDone f s) := by
  unfold execSpliceDone
  repeat' (first
    | with_reducible assumption | with_reducible apply modPipe_kept | with_reducible apply speerAgain_kept
    | with_reducible apply islandStall_kept | with_reducible apply withFrame_kept | split | dsimp only | intro _)

theorem execSpliceRead_kept {K : Field → Bool} {o : State} [Free K .mem] [Free K .poison] [Free K .pkgBad] [Free K .parts]
    [Free K .pf] [Free K .spliceDrop] [Free K .spliceOut] [Free K .inputs] {f} {s : State} (h : Kept K o s) : KeptRes K o
    (execSpliceRead f s) := by
  unfold execSpliceRead
  repeat' (first
    | with_reducible assumption | with_reducible apply sendFrame_kept | with_reducible apply partRead_kept
    | with_reducible apply withFrame_kept | simp only [kept_inputs_iff] | (refine Via.ok_kept (by assumption) ?_)
    | (refine Via.bad_kept (by assumption) ?_) | (refine Via.wait_kept (by assumption) ?_) | split | intro _)

theorem execSpliceNotice_kept {K : Field → Bool} {o : State} [Free K .bays] [Free K .spliceDrop] {f} {s : State} (h : Kept K
    o s) : KeptRes K o (execSpliceNotice f s) := by
  unfold execSpliceNotice
  repeat' (first
    | with_reducible assumption | with_reducible apply modPipe_kept | with_reducible apply withFrame_kept | split | intro _)

theorem execSpliceTile_kept {K : Field → Bool} {o : State} [Free K .mem] [Free K .poison] [Free K .pkgBad] [Free K .bays]
    [Free K .parts] [Free K .pf] [Free K .spliceDrop] [Free K .spliceOut] [Free K .inputs] {f} {s : State} (h : Kept K o s) :
    KeptRes K o (execSpliceTile f s) := by
  unfold execSpliceTile
  repeat' (first
    | with_reducible assumption | with_reducible apply sendFrame_kept | with_reducible apply partWrite_kept
    | with_reducible apply holdTile_kept | with_reducible apply withFrame_kept | simp only [kept_inputs_iff]
    | (refine Via.ok_kept (by assumption) ?_) | (refine Via.bad_kept (by assumption) ?_)
    | (refine Via.wait_kept (by assumption) ?_) | split | intro _)

theorem execPreply_kept {K : Field → Bool} {o : State} [Free K .bays] [Free K .flight] {b} {p} {s : State} (h : Kept K o s)
    : KeptRes K o (execPreply b p s) := by
  unfold execPreply
  repeat' (first
    | with_reducible assumption | with_reducible apply kept_next | with_reducible apply State.modBay_kept
    | with_reducible apply deliver_kept | split)

theorem execProbeRequest_kept {K : Field → Bool} {o : State} [Free K .bays] [Free K .parts] [Free K .pf] [Free K .flight]
    {b} {p} {s : State} (h : Kept K o s) : KeptRes K o (execProbeRequest b p s) := by
  unfold execProbeRequest
  repeat' (first | with_reducible assumption | with_reducible apply kept_next | with_reducible apply State.emit_kept)

theorem execGrant_kept {K : Field → Bool} {o : State} [Free K .bays] [Free K .flight] {b} {p} {s : State} (h : Kept K o s) :
    KeptRes K o (execGrant b p s) := by
  unfold execGrant
  repeat' (first
    | with_reducible assumption | with_reducible apply kept_next | with_reducible apply State.modBay_kept
    | with_reducible apply deliver2_kept | with_reducible apply State.modCtx_kept | split | dsimp only)

theorem execSteal_kept {K : Field → Bool} {o : State} [Free K .bays] [Free K .parts] [Free K .pf] [Free K .flight] {b} {p}
    {s : State} (h : Kept K o s) : KeptRes K o (execSteal b p s) := by
  unfold execSteal
  repeat' (first
    | with_reducible assumption | with_reducible apply kept_next | with_reducible apply State.modCtx_kept
    | with_reducible apply State.emit_kept | split | dsimp only)

end Sys2Proof.Machine
end

