-- ==== Sys2Proof/Laws/FrameLaunches.lean ====
section
/-!
SUPPORT. Sys2Proof/Laws/FrameLaunches.lean: what launches, loading and pre-emption leave alone (`Kept`): one lemma per function, whose `Free` premises are the
fields it may change.
-/
namespace Sys2Proof.Machine

open Sys2Proof

theorem freeCtx_kept {K : Field → Bool} {o : State} [Free K .mem] [Free K .poison] [Free K .pkgBad] [Free K .bays] [Free K
    .parts] [Free K .pf] [Free K .flight] {ctx} {s : State} {b} (h : Kept K o s) : Kept K o (freeCtx ctx s b) := by
  unfold freeCtx
  repeat' (first
    | with_reducible assumption | with_reducible apply State.modBay_kept | with_reducible apply kickLdos_kept
    | simp only [kept_flight_iff])

theorem unbind_kept {K : Field → Bool} {o : State} [Free K .mem] [Free K .poison] [Free K .pkgBad] [Free K .bays] [Free K
    .parts] [Free K .pf] [Free K .flight] {s : State} {n} {l} (h : Kept K o s) : Kept K o (unbind s n l) := by
  unfold unbind
  repeat' (first
    | with_reducible assumption | with_reducible apply State.modLaunch_kept | with_reducible apply freeCtx_kept
    | with_reducible apply foldl_kept)

theorem runTiles_kept {K : Field → Bool} {o : State} [Free K .mem] [Free K .poison] [Free K .pkgBad] [Free K .bays] [Free K
    .parts] [Free K .pf] [Free K .flight] {b} {ctx} {isl} {p} {s : State} (h : Kept K o s) : Kept K o (runTiles b ctx isl p s)
    := by
  unfold runTiles
  repeat' (first
    | with_reducible assumption | with_reducible apply dropTile_kept | with_reducible apply writeTile_kept
    | with_reducible apply foldl_kept | split | dsimp only | intro _)

theorem nextOf_kept {K : Field → Bool} {o : State} {s : State} {r} (h : Kept K o s) (hr : KeptRes K o r) : Kept K o (nextOf
    s r) := by
  unfold nextOf
  split
  · exact hr _ rfl
  · exact h

theorem finishDrain_kept {K : Field → Bool} {o : State} [Free K .mem] [Free K .poison] [Free K .pkgBad] [Free K .bays] [Free
    K .parts] [Free K .pf] [Free K .flight] {s : State} {b} {p} {k} (h : Kept K o s) : Kept K o (finishDrain s b p k) := by
  unfold finishDrain
  repeat' (first
    | with_reducible assumption | with_reducible apply drainEnd_kept | with_reducible apply execDrainExecute_kept
    | with_reducible apply nextOf_kept | with_reducible apply drainStart_kept | with_reducible apply foldl_kept | split
    | dsimp only | intro _)

theorem runMatrix_kept {K : Field → Bool} {o : State} [Free K .mem] [Free K .poison] [Free K .pkgBad] [Free K .bays] [Free K
    .parts] [Free K .pf] [Free K .flight] {b ctx p n s} (h : Kept K o s) : Kept K o (runMatrix b ctx p n s) := by
  induction n generalizing s with
  | zero => exact h
  | succ n ih =>
    unfold runMatrix
    split
    · exact h
    · split
      · exact h
      · split
        · split
          · exact ih (nextOf_kept h (execMmaExecute_kept h))
          · exact h
        · split
          · exact ih (nextOf_kept h (execAclrExecute_kept h))
          · exact ih (finishDrain_kept h)

theorem runIslands_kept {K : Field → Bool} {o : State} [Free K .mem] [Free K .poison] [Free K .pkgBad] [Free K .bays] [Free
    K .parts] [Free K .pf] [Free K .flight] {ctx} {s : State} {b} (h : Kept K o s) : Kept K o (runIslands ctx s b) := by
  unfold runIslands
  repeat' (first
    | with_reducible assumption | with_reducible apply runTiles_kept | with_reducible apply runMatrix_kept
    | with_reducible apply State.modBay_kept | with_reducible apply foldl_kept | intro _)

theorem endOf_kept {K : Field → Bool} {o : State} [Free K .mem] [Free K .poison] [Free K .pkgBad] [Free K .bays] [Free K
    .parts] [Free K .pf] [Free K .flight] {s : State} {n hs st c} (h : Kept K o s) : Kept K o (endOf s n hs st c) := by
  unfold endOf
  split
  · exact h
  · exact State.modPart_kept (unbind_kept (foldl_kept2 (fun _ _ hq => spillAll_kept hq) _ h))

theorem endLaunch_kept {K : Field → Bool} {o : State} [Free K .mem] [Free K .poison] [Free K .pkgBad] [Free K .bays] [Free K
    .parts] [Free K .pf] [Free K .flight] {s : State} {n} {j} {status} (h : Kept K o s) : Kept K o (endLaunch s n j status) :=
    by
  unfold endLaunch
  repeat' (first
    | with_reducible assumption | with_reducible apply runIslands_kept | with_reducible apply endOf_kept
    | with_reducible apply foldl_kept | split)

theorem endSites_kept {K : Field → Bool} {o : State} [Free K .mem] [Free K .poison] [Free K .pkgBad] [Free K .bays] [Free K
    .parts] [Free K .pf] [Free K .flight] {c r b} (h : Kept K o r.2) : Kept K o (endSites c r b).2 := by
  unfold endSites
  repeat' (first | with_reducible assumption | with_reducible apply endLives_kept)

theorem execLaunchComplete_kept {K : Field → Bool} {o : State} [Free K .mem] [Free K .poison] [Free K .pkgBad] [Free K
    .bays] [Free K .parts] [Free K .pf] [Free K .flight] {n hs} {s : State} (h : Kept K o s) : KeptRes K o (execLaunchComplete n
    hs s) := by
  unfold execLaunchComplete
  apply kept_next
  split
  · exact h
  · split
    · exact h
    · have hq {ctx} {l : List Nat} : Kept K o (l.foldl (spillAll ctx) (l.foldl (endSites ctx) (true, s))).2 :=
        foldl_kept2 (fun _ _ hx => spillAll_kept hx) _ (foldl_kept2 (fun _ _ hx => endSites_kept hx) _ h)
      dsimp only
      split
      · exact endOf_kept hq
      · exact hq

theorem cancelCut_kept {K : Field → Bool} {o : State} [Free K .bays] [Free K .parts] [Free K .pf] [Free K .flight] {s :
    State} {n} {l} {cause} (h : Kept K o s) : Kept K o (cancelCut s n l cause) := by
  unfold cancelCut
  repeat' (first
    | with_reducible assumption | with_reducible apply releaseSeeds_kept | with_reducible apply State.emit_kept
    | with_reducible apply State.modPart_kept | with_reducible apply foldl_kept | intro _)

theorem tagStarve_kept {K : Field → Bool} {o : State} [Free K .bays] [Free K .parts] [Free K .pf] {s : State} {n} {l} (h :
    Kept K o s) : Kept K o (tagStarve s n l) := by
  unfold tagStarve
  repeat' (first | with_reducible assumption | with_reducible apply State.takeRegionFault_kept | split)

theorem judgeWave_kept {K : Field → Bool} {o : State} [Free K .bays] [Free K .parts] [Free K .pf] [Free K .flight] {s :
    State} {n} {l} {x} (h : Kept K o s) : Kept K o (judgeWave s n l x) := by
  unfold judgeWave
  repeat' (first
    | with_reducible assumption | with_reducible apply tagStarve_kept | with_reducible apply cancelCut_kept
    | with_reducible apply State.modLaunch_kept | split | dsimp only)

theorem execQreply_kept {K : Field → Bool} {o : State} [Free K .bays] [Free K .parts] [Free K .pf] [Free K .flight] {b} {p}
    {s : State} (h : Kept K o s) : KeptRes K o (execQreply b p s) := by
  unfold execQreply
  repeat' (first
    | with_reducible assumption | with_reducible apply kept_next | with_reducible apply judgeWave_kept
    | with_reducible apply State.modLaunch_kept | split | dsimp only)

theorem execQuery_kept {K : Field → Bool} {o : State} [Free K .bays] [Free K .parts] [Free K .pf] [Free K .flight] {b} {p}
    {s : State} (h : Kept K o s) : KeptRes K o (execQuery b p s) := by
  unfold execQuery
  repeat' (first | with_reducible assumption | with_reducible apply kept_next | with_reducible apply State.emit_kept | split)

theorem execQuiescenceWave_kept {K : Field → Bool} {o : State} [Free K .bays] [Free K .parts] [Free K .pf] [Free K .flight]
    {n} {j} {s : State} (h : Kept K o s) : KeptRes K o (execQuiescenceWave n j s) := by
  unfold execQuiescenceWave
  repeat' (first
    | with_reducible assumption | with_reducible apply kept_next | with_reducible apply State.emit_kept
    | with_reducible apply State.modLaunch_kept | with_reducible apply foldl_kept | split | intro _)

theorem restoreReader_kept {K : Field → Bool} {o : State} [Free K .bays] [Free K .parts] [Free K .pf] [Free K .flight] {now}
    {b} {s : State} {r} (h : Kept K o s) : Kept K o (restoreReader now b s r) := by
  unfold restoreReader
  repeat' (first
    | with_reducible assumption | with_reducible apply State.modBay_kept | with_reducible apply answerReader_kept | split
    | dsimp only)

theorem restoreGranule_kept {K : Field → Bool} {o : State} [Free K .mem] [Free K .poison] [Free K .pkgBad] [Free K .bays]
    {ctx} {b} {s : State} {g} (h : Kept K o s) : Kept K o (restoreGranule ctx b s g) := by
  unfold restoreGranule
  repeat' (first
    | with_reducible assumption | with_reducible apply State.modBay_kept | with_reducible apply State.writeBytes_kept
    | simp only [kept_poison_iff])

theorem unloadBay_kept {K : Field → Bool} {o : State} [Free K .mem] [Free K .poison] [Free K .pkgBad] [Free K .bays] [Free K
    .parts] [Free K .pf] [Free K .flight] {ctx} {s : State} {b} (h : Kept K o s) : Kept K o (unloadBay ctx s b) := by
  unfold unloadBay
  repeat' (first | with_reducible assumption | with_reducible apply freeCtx_kept | with_reducible apply State.modBay_kept)

theorem execUnload_kept {K : Field → Bool} {o : State} [Free K .mem] [Free K .poison] [Free K .pkgBad] [Free K .bays] [Free
    K .parts] [Free K .pf] [Free K .flight] {n} {cmd} {s : State} (h : Kept K o s) : KeptRes K o (execUnload n cmd s) := by
  unfold execUnload
  repeat' (first
    | with_reducible assumption | with_reducible apply kept_next | with_reducible apply unloadBay_kept
    | with_reducible apply State.modPart_kept | with_reducible apply foldl_kept | split | dsimp only)

theorem execLoadComplete_kept {K : Field → Bool} {o : State} [Free K .parts] [Free K .pf] {n} {s : State} (h : Kept K o s) :
    KeptRes K o (execLoadComplete n s) := by
  unfold execLoadComplete
  repeat' (first | with_reducible assumption | with_reducible apply kept_next | with_reducible apply State.modPart_kept | split)

theorem installOn_kept {K : Field → Bool} {o : State} [Free K .bays] {c} {n} {win} {s : State} {b} (h : Kept K o s) : Kept K
    o (installOn c n win s b) := by
  unfold installOn
  repeat' (first | with_reducible assumption | with_reducible apply State.modBay_kept)

theorem readBackOf_kept {K : Field → Bool} {o : State} [Free K .bays] [Free K .parts] [Free K .pf] [Free K .ecc] [Free K
    .readBack] {p} {ctx} {s : State} (h : Kept K o s) : Kept K o (readBackOf p ctx s) := by
  unfold readBackOf
  repeat' (first
    | with_reducible assumption | with_reducible apply noteReadBack_kept | simp only [kept_readBack_iff]
    | with_reducible apply foldl_kept | split | intro _)

theorem writeImages_kept {K : Field → Bool} {o : State} [Free K .mem] [Free K .poison] [Free K .pkgBad] [Free K .parts]
    [Free K .pf] {n} {f} {s : State} (h : Kept K o s) : Kept K o (writeImages n f s) := by
  unfold writeImages
  repeat' (first
    | with_reducible assumption | with_reducible apply partWrite_kept | with_reducible apply Via.state_kept
    | with_reducible apply foldl_kept | intro _)

theorem sealPage_kept {K : Field → Bool} {o : State} [Free K .mem] [Free K .poison] [Free K .pkgBad] [Free K .bays] {n} {s :
    State} {va} (h : Kept K o s) : Kept K o (sealPage n s va) := by
  unfold sealPage
  repeat' (first | with_reducible assumption | with_reducible apply State.writeBytes_kept | simp only [kept_bays_iff] | split)

theorem sealConst_kept {K : Field → Bool} {o : State} [Free K .mem] [Free K .poison] [Free K .pkgBad] [Free K .bays] {n} {f}
    {s : State} (h : Kept K o s) : Kept K o (sealConst n f s) := by
  unfold sealConst
  repeat' (first | with_reducible assumption | with_reducible apply sealPage_kept | with_reducible apply foldl_kept)

theorem writeGroups_kept {K : Field → Bool} {o : State} [Free K .mem] [Free K .poison] [Free K .pkgBad] {s : State} {n} {c}
    (h : Kept K o s) : Kept K o (writeGroups s n c) := by
  unfold writeGroups
  repeat' (first
    | with_reducible assumption | with_reducible apply State.writeBytes_kept | with_reducible apply foldl_kept | intro _)

theorem parkImages_kept {K : Field → Bool} {o : State} [Free K .parts] [Free K .pf] {n} {ds} {s : State} (h : Kept K o s) :
    Kept K o (parkImages n ds s) := by
  unfold parkImages
  repeat' (first
    | with_reducible assumption | with_reducible apply parkBare_kept | with_reducible apply foldl_kept | split | intro _)

theorem gdEntry_kept {K : Field → Bool} {o : State} [Free K .parts] [Free K .pf] [Free K .freeCtr] {n} {taken} {s : State}
    (h : Kept K o s) : Kept K o (gdEntry n taken s).2 := by
  unfold gdEntry
  repeat' (first
    | with_reducible assumption | with_reducible apply State.fresh_kept | with_reducible apply State.modPart_kept | split
    | dsimp only)

theorem pairGroups_kept {K : Field → Bool} {o : State} [Free K .parts] [Free K .pf] [Free K .freeCtr] {n} {gs} {s : State}
    (h : Kept K o s) : Kept K o (pairGroups n gs s).2 := by
  unfold pairGroups
  repeat' (first
    | with_reducible assumption | with_reducible apply gdEntry_kept | with_reducible apply foldl_kept2 | split | intro _)

theorem loadObject_kept {K : Field → Bool} {o : State} [Free K .parts] [Free K .pf] [Free K .freeCtr] {s : State} {n ctx bs
    st e c f t} (h : Kept K o s) (he : loadObject s n ctx bs = (st, e, some (c, f, t))) : Kept K o t := by
  unfold loadObject at he
  dsimp only at he
  split at he
  · cases he
  · split at he
    · cases he
    · split at he
      · rename_i hp
        cases he
        exact pair_kept hp (pairGroups_kept h)
      · cases he
      · cases he

theorem execLoad_kept {K : Field → Bool} {o : State} [Free K .mem] [Free K .poison] [Free K .pkgBad] [Free K .bays] [Free K
    .parts] [Free K .pf] [Free K .ecc] [Free K .flight] [Free K .readBack] [Free K .freeCtr] {n cmd} {s : State} (h : Kept K o
    s) : KeptRes K o (execLoad n cmd s) := by
  unfold execLoad
  apply kept_next
  dsimp only
  split
  · exact h
  · split
    · exact State.modPart_kept h
    · split
      · exact State.modPart_kept h
      · rename_i he
        split
        · exact State.send_kept (State.modPart_kept (parkImages_kept h))
        · exact State.modPart_kept (readBackOf_kept (foldl_kept (fun _ _ ht => installOn_kept ht) _
            (writeGroups_kept (sealConst_kept (writeImages_kept (loadObject_kept h he))))))

theorem bindBay_kept {K : Field → Bool} {o : State} [Free K .bays] {c} {l} {m} {s : State} {pos} (h : Kept K o s) : Kept K o
    (bindBay c l m s pos) := by
  unfold bindBay
  repeat' (first
    | with_reducible assumption | with_reducible apply poisonConfig_kept | with_reducible apply State.modBay_kept
    | with_reducible apply foldl_kept | split | intro _)

theorem restoreReaders_kept {K : Field → Bool} {o : State} [Free K .bays] [Free K .parts] [Free K .pf] [Free K .flight]
    {old} {m} {s : State} {e} (h : Kept K o s) : Kept K o (restoreReaders old m s e) := by
  unfold restoreReaders
  repeat' (first
    | with_reducible assumption | with_reducible apply restoreReader_kept | with_reducible apply foldl_kept | split)

theorem restoreToks_kept {K : Field → Bool} {o : State} [Free K .bays] [Free K .parts] [Free K .pf] [Free K .flight] {l} {m}
    {s : State} {e} (h : Kept K o s) : Kept K o (restoreToks l m s e) := by
  unfold restoreToks
  repeat' (first
    | with_reducible assumption | with_reducible apply placeEntry_kept | with_reducible apply foldl_kept | split | intro _)

theorem restoreAt_kept {K : Field → Bool} {o : State} [Free K .mem] [Free K .poison] [Free K .pkgBad] [Free K .bays] {l}
    {old} {m} {s : State} {e} (h : Kept K o s) : Kept K o (restoreAt l old m s e) := by
  unfold restoreAt
  repeat' (first
    | with_reducible assumption | with_reducible apply restoreGranule_kept | with_reducible apply State.modBay_kept
    | with_reducible apply foldl_kept | split)

theorem restoreImage_kept {K : Field → Bool} {o : State} [Free K .mem] [Free K .poison] [Free K .pkgBad] [Free K .bays]
    [Free K .parts] [Free K .pf] [Free K .flight] {s : State} {n} {l} {i} {m} (h : Kept K o s) : Kept K o (restoreImage s n l i
    m) := by
  unfold restoreImage
  repeat' (first
    | with_reducible assumption | with_reducible apply State.modPart_kept | with_reducible apply restoreReaders_kept
    | with_reducible apply restoreToks_kept | with_reducible apply haltBay_kept | with_reducible apply restoreAt_kept
    | with_reducible apply foldl_kept | split)

theorem bindTo_kept {K : Field → Bool} {o : State} [Free K .mem] [Free K .poison] [Free K .pkgBad] [Free K .bays] [Free K
    .parts] [Free K .pf] [Free K .flight] {s : State} {n} {l} {m} (h : Kept K o s) : Kept K o (bindTo s n l m) := by
  unfold bindTo
  repeat' (first
    | with_reducible assumption | with_reducible apply State.emit_kept | with_reducible apply restoreImage_kept
    | with_reducible apply bindBay_kept | with_reducible apply State.modPart_kept | with_reducible apply foldl_kept | split
    | intro _)

theorem execTurn_kept {K : Field → Bool} {o : State} [Free K .parts] [Free K .pf] {b} {p} {s : State} (h : Kept K o s) :
    KeptRes K o (execTurn b p s) := by
  unfold execTurn
  repeat' (first
    | with_reducible assumption | with_reducible apply kept_next | with_reducible apply State.modLaunch_kept | split)

theorem execTurnNotice_kept {K : Field → Bool} {o : State} [Free K .bays] [Free K .parts] [Free K .pf] [Free K .flight] {b}
    {ctx} {s : State} (h : Kept K o s) : KeptRes K o (execTurnNotice b ctx s) := by
  unfold execTurnNotice
  repeat' (first
    | with_reducible assumption | with_reducible apply kept_next | with_reducible apply State.modCtx_kept
    | with_reducible apply State.emit_kept | split)

theorem execCfgack_kept {K : Field → Bool} {o : State} [Free K .parts] [Free K .pf] [Free K .flight] {b} {p} {s : State} (h
    : Kept K o s) : KeptRes K o (execCfgack b p s) := by
  unfold execCfgack
  repeat' (first
    | with_reducible assumption | with_reducible apply kept_next | with_reducible apply releaseSeeds_kept
    | with_reducible apply State.modPart_kept | with_reducible apply State.modLaunch_kept | split | dsimp only)

theorem execCfg_kept {K : Field → Bool} {o : State} [Free K .bays] [Free K .parts] [Free K .pf] [Free K .flight] {b} {p} {s
    : State} (h : Kept K o s) : KeptRes K o (execCfg b p s) := by
  unfold execCfg
  repeat' (first | with_reducible assumption | with_reducible apply kept_next | with_reducible apply State.emit_kept | split)

theorem holdLaunch_kept {K : Field → Bool} {o : State} [Free K .parts] [Free K .pf] {s : State} {n} {l} {off} (h : Kept K o
    s) : Kept K o (holdLaunch s n l off) := by
  unfold holdLaunch
  repeat' (first | with_reducible assumption | with_reducible apply State.fault_kept | with_reducible apply State.modPart_kept)

theorem preempt_kept {K : Field → Bool} {o : State} [Free K .bays] [Free K .parts] [Free K .pf] [Free K .flight] {n} {j}
    {tail} {s : State} {l} (h : Kept K o s) : Kept K o (preempt n j tail s l) := by
  unfold preempt
  repeat' (first
    | with_reducible assumption | with_reducible apply State.emit_kept | with_reducible apply State.modLaunch_kept
    | with_reducible apply cancelCut_kept | with_reducible apply foldl_kept | split | intro _)

theorem seekRoom_kept {K : Field → Bool} {o : State} [Free K .bays] [Free K .parts] [Free K .pf] [Free K .flight] {s :
    State} {n} {l} (h : Kept K o s) : Kept K o (seekRoom s n l) := by
  unfold seekRoom
  repeat' (first | with_reducible assumption | with_reducible apply preempt_kept | with_reducible apply foldl_kept | split)

theorem execBind_kept {K : Field → Bool} {o : State} [Free K .mem] [Free K .poison] [Free K .pkgBad] [Free K .bays] [Free K
    .parts] [Free K .pf] [Free K .flight] {n} {s : State} (h : Kept K o s) : KeptRes K o (execBind n s) := by
  unfold execBind
  repeat' (first
    | with_reducible assumption | with_reducible apply kept_next | with_reducible apply bindTo_kept
    | with_reducible apply holdLaunch_kept | with_reducible apply seekRoom_kept | split)

theorem execSelectLaunch_kept {K : Field → Bool} {o : State} [Free K .parts] [Free K .pf] {n} {s : State} (h : Kept K o s) :
    KeptRes K o (execSelectLaunch n s) := by
  unfold execSelectLaunch
  repeat' (first | with_reducible assumption | with_reducible apply kept_next | with_reducible apply State.modPart_kept | split)

theorem answerPresent_kept {K : Field → Bool} {o : State} [Free K .mem] [Free K .poison] [Free K .pkgBad] [Free K .bays]
    [Free K .parts] [Free K .pf] [Free K .flight] {ctx} {s : State} {b} (h : Kept K o s) : Kept K o (answerPresent ctx s b) :=
    by
  unfold answerPresent
  repeat' (first
    | with_reducible assumption | with_reducible apply answerReader_kept | with_reducible apply kickLdos_kept
    | with_reducible apply State.modBay_kept | with_reducible apply foldl_kept | intro _)

theorem completeImage_kept {K : Field → Bool} {o : State} [Free K .mem] [Free K .poison] [Free K .pkgBad] [Free K .bays]
    [Free K .parts] [Free K .pf] [Free K .flight] {s : State} {n} {l} (h : Kept K o s) : Kept K o (completeImage s n l) := by
  unfold completeImage
  repeat' (first
    | with_reducible assumption | with_reducible apply State.modPart_kept | with_reducible apply unbind_kept
    | with_reducible apply State.modBay_kept | with_reducible apply foldl_kept | intro _)

theorem leaveCut_kept {K : Field → Bool} {o : State} [Free K .mem] [Free K .poison] [Free K .pkgBad] [Free K .bays] [Free K
    .parts] [Free K .pf] [Free K .flight] {ctx} {s : State} {b} (h : Kept K o s) : Kept K o (leaveCut ctx s b) := by
  unfold leaveCut
  repeat' (first
    | with_reducible assumption | with_reducible apply answerPresent_kept | with_reducible apply placeEntry_kept
    | with_reducible apply State.modBay_kept | with_reducible apply foldl_kept | intro _)

theorem execCancel_kept {K : Field → Bool} {o : State} [Free K .mem] [Free K .poison] [Free K .pkgBad] [Free K .bays] [Free
    K .parts] [Free K .pf] [Free K .flight] {b} {p} {s : State} (h : Kept K o s) : KeptRes K o (execCancel b p s) := by
  unfold execCancel
  repeat' (first
    | with_reducible assumption | with_reducible apply kept_next | with_reducible apply leaveCut_kept
    | with_reducible apply kick_kept | split)

theorem execLsaved_kept {K : Field → Bool} {o : State} [Free K .mem] [Free K .poison] [Free K .pkgBad] [Free K .bays] [Free
    K .parts] [Free K .pf] [Free K .flight] {b} {p} {s : State} (h : Kept K o s) : KeptRes K o (execLsaved b p s) := by
  unfold execLsaved
  repeat' (first
    | with_reducible assumption | with_reducible apply kept_next | with_reducible apply completeImage_kept
    | with_reducible apply State.modLaunch_kept | split | dsimp only)

theorem growImage_kept {K : Field → Bool} {o : State} [Free K .mem] [Free K .poison] [Free K .pkgBad] [Free K .bays] [Free K
    .parts] [Free K .pf] [Free K .flight] {s : State} {n} {l} {f} (h : Kept K o s) : Kept K o (growImage s n l f) := by
  unfold growImage
  repeat' (first
    | with_reducible assumption | with_reducible apply homeWrite_kept | with_reducible apply State.modLaunch_kept
    | with_reducible apply cancelCut_kept | split | dsimp only)

theorem execLsave_kept {K : Field → Bool} {o : State} [Free K .mem] [Free K .poison] [Free K .pkgBad] [Free K .bays] [Free K
    .parts] [Free K .pf] [Free K .flight] {b} {p} {s : State} (h : Kept K o s) : KeptRes K o (execLsave b p s) := by
  unfold execLsave
  repeat' (first
    | with_reducible assumption | with_reducible apply kept_next | with_reducible apply growImage_kept
    | with_reducible apply State.emit_kept | split)

theorem execSaved_kept {K : Field → Bool} {o : State} [Free K .bays] [Free K .parts] [Free K .pf] [Free K .flight] {b} {p}
    {s : State} (h : Kept K o s) : KeptRes K o (execSaved b p s) := by
  unfold execSaved
  repeat' (first
    | with_reducible assumption | with_reducible apply kept_next | with_reducible apply State.emit_kept
    | with_reducible apply State.modLaunch_kept | with_reducible apply foldl_kept | split | dsimp only | intro _)

theorem execBaySaveComplete_kept {K : Field → Bool} {o : State} [Free K .bays] [Free K .parts] [Free K .pf] [Free K .flight]
    {b} {ctx} {s : State} (h : Kept K o s) : KeptRes K o (execBaySaveComplete b ctx s) := by
  unfold execBaySaveComplete
  repeat' (first
    | with_reducible assumption | with_reducible apply kept_next | with_reducible apply State.modCtx_kept
    | with_reducible apply State.emit_kept | split)

theorem saveFirst_kept {K : Field → Bool} {o : State} [Free K .mem] [Free K .poison] [Free K .pkgBad] [Free K .bays] [Free K
    .parts] [Free K .pf] [Free K .flight] {s : State} {b} {ctx} {wseq} (h : Kept K o s) : Kept K o (saveFirst s b ctx wseq) :=
    by
  unfold saveFirst
  repeat' (first | with_reducible assumption | with_reducible apply growImage_kept | split)

theorem gatherTokens_kept {K : Field → Bool} {o : State} [Free K .bays] [Free K .parts] [Free K .pf] [Free K .flight] {b}
    {ctx} {pos} {s : State} (h : Kept K o s) : Kept K o (gatherTokens b ctx pos s) := by
  unfold gatherTokens
  repeat' (first
    | with_reducible assumption | with_reducible apply State.modCtx_kept | with_reducible apply arriveToken_kept
    | simp only [kept_flight_iff] | with_reducible apply foldl_kept | split | intro _)

theorem execSnapshot_kept {K : Field → Bool} {o : State} [Free K .mem] [Free K .poison] [Free K .pkgBad] [Free K .bays]
    [Free K .parts] [Free K .pf] [Free K .flight] {b} {ctx} {s : State} (h : Kept K o s) : KeptRes K o (execSnapshot b ctx s) :=
    by
  unfold execSnapshot
  repeat' (first
    | with_reducible assumption | with_reducible apply kept_next | with_reducible apply State.emit_kept
    | with_reducible apply saveFirst_kept | with_reducible apply State.modCtx_kept | with_reducible apply gatherTokens_kept
    | with_reducible apply spillAll_kept | with_reducible apply foldl_kept | split | dsimp only | intro _)

theorem execMarker_kept {K : Field → Bool} {o : State} [Free K .mem] [Free K .poison] [Free K .pkgBad] [Free K .bays] [Free
    K .parts] [Free K .pf] [Free K .flight] {b} {p} {s : State} (h : Kept K o s) : KeptRes K o (execMarker b p s) := by
  unfold execMarker
  repeat' (first
    | with_reducible assumption | with_reducible apply kept_next | with_reducible apply State.modCtx_kept
    | with_reducible apply State.modBay_kept | with_reducible apply leaveCut_kept | split | dsimp only)

end Sys2Proof.Machine
end

