-- ==== Sys2Proof/Laws/FrameHost.lean ====
section
/-!
SUPPORT. Sys2Proof/Laws/FrameHost.lean: what the host interface and the choice of a step leave alone (`Kept`): one lemma per function, whose `Free` premises are the
fields it may change.
-/
namespace Sys2Proof.Machine

open Sys2Proof

theorem execMarkOffline_kept {K : Field → Bool} {o : State} [Free K .offline] {b} {off} {s : State} (h : Kept K o s) :
    KeptRes K o (execMarkOffline b off s) := by
  unfold execMarkOffline
  repeat' (first | with_reducible assumption | with_reducible apply kept_next | simp only [kept_offline_iff] | split)

theorem pfWrite_kept {K : Field → Bool} {o : State} [Free K .mem] [Free K .poison] [Free K .pkgBad] {s : State} {a} {bs} (h
    : Kept K o s) : Kept K o (pfWrite s a bs) := by
  unfold pfWrite
  repeat' (first
    | with_reducible assumption | with_reducible apply State.writeBytes_kept | with_reducible apply foldl_kept | split
    | intro _)

theorem execHostMemoryAccess_kept {K : Field → Bool} {o : State} [Free K .mem] [Free K .poison] [Free K .pkgBad] [Free K
    .parts] [Free K .pf] [Free K .inputs] {a} {s : State} (h : Kept K o s) : KeptRes K o (execHostMemoryAccess a s) := by
  unfold execHostMemoryAccess
  repeat' (first
    | with_reducible assumption | with_reducible apply kept_next | with_reducible apply partRead_kept
    | with_reducible apply Via.state_kept | with_reducible apply partWrite_kept | with_reducible apply pfWrite_kept
    | simp only [kept_inputs_iff] | (refine Via.wait_kept (by assumption) ?_) | split)

theorem execBridgeLinkDown_kept {K : Field → Bool} {o : State} [Free K .parts] [Free K .pf] [Free K .bridgeLost] {col} {s :
    State} (h : Kept K o s) : KeptRes K o (execBridgeLinkDown col s) := by
  unfold execBridgeLinkDown
  repeat' (first
    | with_reducible assumption | with_reducible apply kept_next | with_reducible apply linkLoss_kept
    | simp only [kept_bridgeLost_iff] | split)

theorem performRec_kept {K : Field → Bool} {o : State} [Free K .mem] [Free K .poison] [Free K .pkgBad] [Free K .parts] [Free
    K .pf] {n} {s : State} {r} (h : Kept K o s) : Kept K o (performRec n s r) := by
  unfold performRec
  repeat' (first
    | with_reducible assumption | with_reducible apply State.writeBytes_kept | with_reducible apply State.modPart_kept
    | split)

theorem tryRec_kept {K : Field → Bool} {o : State} [Free K .mem] [Free K .poison] [Free K .pkgBad] [Free K .parts] [Free K
    .pf] {n} {s : State} {r} (h : Kept K o s) : Kept K o (tryRec n s r) := by
  unfold tryRec
  repeat' (first | with_reducible assumption | with_reducible apply performRec_kept | split)

theorem execRecordWrite_kept {K : Field → Bool} {o : State} [Free K .mem] [Free K .poison] [Free K .pkgBad] [Free K .parts]
    [Free K .pf] {n} {dseq} {s : State} (h : Kept K o s) : KeptRes K o (execRecordWrite n dseq s) := by
  unfold execRecordWrite
  repeat' (first | with_reducible assumption | with_reducible apply kept_next | with_reducible apply tryRec_kept | split)

theorem writeRecs_kept {K : Field → Bool} {o : State} [Free K .mem] [Free K .poison] [Free K .pkgBad] [Free K .parts] [Free
    K .pf] {s : State} {n} (h : Kept K o s) : Kept K o (writeRecs s n) := by
  unfold writeRecs
  repeat' (first | with_reducible assumption | with_reducible apply tryRec_kept | with_reducible apply foldl_kept)

theorem execLinkUp_kept {K : Field → Bool} {o : State} [Free K .mem] [Free K .poison] [Free K .pkgBad] [Free K .parts] [Free
    K .pf] [Free K .link] {s : State} (h : Kept K o s) : KeptRes K o (execLinkUp s) := by
  unfold execLinkUp
  repeat' (first
    | with_reducible assumption | with_reducible apply kept_next | with_reducible apply writeRecs_kept
    | with_reducible apply linkLoss_kept | simp only [kept_parts_pf_link_iff] | with_reducible apply foldl_kept | split)

theorem execLinkDown_kept {K : Field → Bool} {o : State} [Free K .link] [Free K .inputs] {s : State} (h : Kept K o s) :
    KeptRes K o (execLinkDown s) := by
  unfold execLinkDown
  repeat' (first | with_reducible assumption | with_reducible apply kept_next | simp only [kept_link_inputs_iff] | split)

theorem seedWrite_kept {K : Field → Bool} {o : State} [Free K .parts] [Free K .pf] [Free K .flight] {n} {k} {w} {s : State}
    (h : Kept K o s) : Kept K o (seedWrite n k w s) := by
  unfold seedWrite
  repeat' (first
    | with_reducible assumption | with_reducible apply State.modLaunch_kept | with_reducible apply takeSeed_kept
    | with_reducible apply State.modPart_kept | split | dsimp only)

theorem execSeedWrite_kept {K : Field → Bool} {o : State} [Free K .parts] [Free K .pf] [Free K .flight] {n} {k} {w} {s :
    State} (h : Kept K o s) : KeptRes K o (execSeedWrite n k w s) := by
  unfold execSeedWrite
  repeat' (first | with_reducible assumption | with_reducible apply kept_next | with_reducible apply seedWrite_kept)

theorem launchPort_kept {K : Field → Bool} {o : State} [Free K .parts] [Free K .pf] {n} {w} {s : State} (h : Kept K o s) :
    Kept K o (launchPort n w s) := by
  unfold launchPort
  repeat' (first | with_reducible assumption | with_reducible apply State.modPart_kept | split)

theorem execPriorityChange_kept {K : Field → Bool} {o : State} [Free K .parts] [Free K .pf] {n} {w} {s : State} (h : Kept K
    o s) : KeptRes K o (execPriorityChange n w s) := by
  unfold execPriorityChange
  repeat' (first | with_reducible assumption | with_reducible apply kept_next | with_reducible apply launchPort_kept)

theorem execLaunchRecordWrite_kept {K : Field → Bool} {o : State} [Free K .parts] [Free K .pf] {n} {w} {s : State} (h : Kept
    K o s) : KeptRes K o (execLaunchRecordWrite n w s) := by
  unfold execLaunchRecordWrite
  repeat' (first | with_reducible assumption | with_reducible apply kept_next | with_reducible apply launchPort_kept)

theorem vfWrite_kept {K : Field → Bool} {o : State} [Free K .parts] [Free K .pf] [Free K .flight] {n} {off} {size} {d} {s :
    State} (h : Kept K o s) : Kept K o (vfWrite n off size d s) := by
  unfold vfWrite
  repeat' (first
    | with_reducible assumption | with_reducible apply seedWrite_kept | with_reducible apply launchPort_kept | split)

theorem deliverA_kept {K : Field → Bool} {o : State} [Free K .flight] {b} {m} {s : State} (h : Kept K o s) : Kept K o
    (deliverA b m s) := by
  unfold deliverA
  repeat' (first | with_reducible assumption | with_reducible apply deliver_kept | split)

theorem execPreciseStopComplete_kept {K : Field → Bool} {o : State} [Free K .bays] [Free K .parts] [Free K .pf] {n} {j} {s :
    State} (h : Kept K o s) : KeptRes K o (execPreciseStopComplete n j s) := by
  unfold execPreciseStopComplete
  repeat' (first
    | with_reducible assumption | with_reducible apply kept_next | with_reducible apply State.fault_kept
    | with_reducible apply State.freezeRegion_kept | with_reducible apply State.modLaunch_kept | split)

theorem releaseHeld_kept {K : Field → Bool} {o : State} [Free K .bays] [Free K .flight] {ctx} {s : State} {b} (h : Kept K o
    s) : Kept K o (releaseHeld ctx s b) := by
  unfold releaseHeld
  repeat' (first
    | with_reducible assumption | with_reducible apply deliverA_kept | with_reducible apply placeToken_kept
    | with_reducible apply State.modCtx_kept | split)

theorem resumeRegion_kept {K : Field → Bool} {o : State} [Free K .mem] [Free K .poison] [Free K .pkgBad] [Free K .bays]
    [Free K .parts] [Free K .pf] [Free K .flight] {n} {f} {j} {brk} {s : State} (h : Kept K o s) : Kept K o (resumeRegion n f j
    brk s) := by
  unfold resumeRegion
  repeat' (first
    | with_reducible assumption | with_reducible apply State.modLaunch_kept | with_reducible apply kick_kept
    | with_reducible apply State.freezeRegion_kept | with_reducible apply releaseHeld_kept
    | with_reducible apply foldl_kept | split)

theorem goAgain_kept {K : Field → Bool} {o : State} [Free K .bays] [Free K .parts] [Free K .pf] [Free K .flight] {b} {a} {s
    : State} (h : Kept K o s) : Kept K o (goAgain b a s) := by
  unfold goAgain
  repeat' (first
    | with_reducible assumption | with_reducible apply enterToken_kept | with_reducible apply deliverA_kept
    | with_reducible apply State.modElem_kept | split)

theorem takeReplies_kept {K : Field → Bool} {o : State} [Free K .bays] [Free K .parts] [Free K .pf] [Free K .flight] {b g ix
    l s} (h : Kept K o s) : Kept K o (takeReplies b g ix l s) := by
  induction l generalizing s with
  | nil => exact h
  | cons e es ih =>
    unfold takeReplies
    split
    · exact State.modInst_kept h
    · split
      · exact ih h
      · refine ih ?_
        split
        · exact opReply_kept h
        · exact opFault_kept h

theorem resumeInst_kept {K : Field → Bool} {o : State} [Free K .mem] [Free K .poison] [Free K .pkgBad] [Free K .bays] [Free
    K .parts] [Free K .pf] [Free K .flight] {b} {g} {ix} {s : State} (h : Kept K o s) : Kept K o (resumeInst b g ix s) := by
  unfold resumeInst
  repeat' (first
    | with_reducible assumption | with_reducible apply goAgain_kept | with_reducible apply takeReplies_kept
    | with_reducible apply kick_kept | with_reducible apply State.unfreeze_kept | with_reducible apply State.modInst_kept
    | split)

theorem resumeUnit_kept {K : Field → Bool} {o : State} [Free K .mem] [Free K .poison] [Free K .pkgBad] [Free K .bays] [Free
    K .parts] [Free K .pf] [Free K .flight] {n} {f} {s : State} (h : Kept K o s) : Kept K o (resumeUnit n f s) := by
  unfold resumeUnit
  repeat' (first
    | with_reducible assumption | with_reducible apply State.modLaunch_kept | with_reducible apply State.modPart_kept
    | with_reducible apply State.modPort_kept | with_reducible apply holdFills_kept
    | with_reducible apply State.modSite_kept | with_reducible apply kick_kept | with_reducible apply resumeRegion_kept
    | with_reducible apply resumeInst_kept | split)

theorem fcmdAct_kept {K : Field → Bool} {o : State} [Free K .mem] [Free K .poison] [Free K .pkgBad] [Free K .bays] [Free K
    .parts] [Free K .pf] [Free K .flight] {n} {y} {f} {s : State} (h : Kept K o s) : Kept K o (fcmdAct n y f s) := by
  unfold fcmdAct
  repeat' (first
    | with_reducible assumption | with_reducible apply State.modPort_kept | with_reducible apply endLaunch_kept
    | with_reducible apply purgeInst_kept | with_reducible apply discardInst_kept | with_reducible apply resumeUnit_kept
    | split)

theorem fcmd_kept {K : Field → Bool} {o : State} [Free K .mem] [Free K .poison] [Free K .pkgBad] [Free K .bays] [Free K
    .parts] [Free K .pf] [Free K .flight] {y} {again} {n} {cmd} {s : State} (h : Kept K o s) : Kept K o (fcmd y again n cmd s)
    := by
  unfold fcmd
  repeat' (first
    | with_reducible assumption | with_reducible apply fcmdAct_kept | with_reducible apply State.modPart_kept
    | simp only [kept_flight_iff] | split)

theorem execFcmdZfill_kept {K : Field → Bool} {o : State} [Free K .mem] [Free K .poison] [Free K .pkgBad] [Free K .bays]
    [Free K .parts] [Free K .pf] [Free K .flight] {n} {cmd} {s : State} (h : Kept K o s) : KeptRes K o (execFcmdZfill n cmd s)
    := by
  unfold execFcmdZfill
  repeat' (first | with_reducible assumption | with_reducible apply kept_next | with_reducible apply fcmd_kept)

theorem execFcmdEnd_kept {K : Field → Bool} {o : State} [Free K .mem] [Free K .poison] [Free K .pkgBad] [Free K .bays] [Free
    K .parts] [Free K .pf] [Free K .flight] {n} {cmd} {s : State} (h : Kept K o s) : KeptRes K o (execFcmdEnd n cmd s) := by
  unfold execFcmdEnd
  repeat' (first
    | with_reducible assumption | with_reducible apply kept_next | with_reducible apply endLaunch_kept
    | with_reducible apply fcmd_kept | split)

theorem execFcmdDiscard_kept {K : Field → Bool} {o : State} [Free K .mem] [Free K .poison] [Free K .pkgBad] [Free K .bays]
    [Free K .parts] [Free K .pf] [Free K .flight] {n} {cmd} {s : State} (h : Kept K o s) : KeptRes K o (execFcmdDiscard n cmd s)
    := by
  unfold execFcmdDiscard
  repeat' (first | with_reducible assumption | with_reducible apply kept_next | with_reducible apply fcmd_kept)

theorem execFcmdResume_kept {K : Field → Bool} {o : State} [Free K .mem] [Free K .poison] [Free K .pkgBad] [Free K .bays]
    [Free K .parts] [Free K .pf] [Free K .flight] {n} {cmd} {s : State} (h : Kept K o s) : KeptRes K o (execFcmdResume n cmd s)
    := by
  unfold execFcmdResume
  repeat' (first | with_reducible assumption | with_reducible apply kept_next | with_reducible apply fcmd_kept)

theorem keptOpt_getD {K : Field → Bool} {o : State} {r : Option State} {t} (h : KeptOpt K o r) (ht : Kept K o t) : Kept K o
    (r.getD t) := by
  cases r with
  | none => exact ht
  | some s => exact h s rfl

theorem appendRecords_kept {K : Field → Bool} {o : State} [Free K .mem] [Free K .poison] [Free K .pkgBad] [Free K .parts]
    [Free K .pf] {n ctx l s} (h : Kept K o s) : KeptOpt K o (appendRecords n ctx l s) := by
  induction l generalizing s with
  | nil => exact kept_some h
  | cons r rs ih =>
    unfold appendRecords
    dsimp only
    split
    · exact kept_none
    · refine ih (State.modPart_kept (State.writeBytes_kept ?_))
      split
      · exact h
      · exact State.writeBytes_kept h

theorem beginTrace_kept {K : Field → Bool} {o : State} [Free K .bays] [Free K .parts] [Free K .pf] [Free K .flight] {n}
    {ctx} {s : State} (h : Kept K o s) : Kept K o (beginTrace n ctx s) := by
  unfold beginTrace
  repeat' (first | with_reducible assumption | with_reducible apply putTrace_kept | with_reducible apply foldl_kept | intro _)

theorem endTrace_kept {K : Field → Bool} {o : State} [Free K .mem] [Free K .poison] [Free K .pkgBad] [Free K .parts] [Free K
    .pf] {n ctx kind} {s : State} (h : Kept K o s) : Kept K o (endTrace n ctx kind s) := by
  unfold endTrace
  exact State.modPart_kept (keptOpt_getD (appendRecords_kept h) (State.loseTrace_kept h))

theorem closeIfDrained_kept {K : Field → Bool} {o : State} [Free K .mem] [Free K .poison] [Free K .pkgBad] [Free K .parts]
    [Free K .pf] {n} {ctx} {s : State} (h : Kept K o s) : Kept K o (closeIfDrained n ctx s) := by
  unfold closeIfDrained
  repeat' (first | with_reducible assumption | with_reducible apply endTrace_kept | split)

theorem execTraceResetEnd_kept {K : Field → Bool} {o : State} [Free K .mem] [Free K .poison] [Free K .pkgBad] [Free K
    .parts] [Free K .pf] {n} {ctx} {s : State} (h : Kept K o s) : KeptRes K o (execTraceResetEnd n ctx s) := by
  unfold execTraceResetEnd
  repeat' (first | with_reducible assumption | with_reducible apply kept_next | with_reducible apply endTrace_kept | split)

theorem resetCtx_kept {K : Field → Bool} {o : State} [Free K .mem] [Free K .poison] [Free K .pkgBad] [Free K .bays] [Free K
    .parts] [Free K .pf] [Free K .flight] {n} {s : State} {ctx} (h : Kept K o s) : Kept K o (resetCtx n s ctx) := by
  unfold resetCtx
  repeat' (first
    | with_reducible assumption | with_reducible apply State.modPart_kept | with_reducible apply endLaunch_kept
    | with_reducible apply foldl_kept | split | dsimp only | intro _)

theorem execCqreset_kept {K : Field → Bool} {o : State} [Free K .mem] [Free K .poison] [Free K .pkgBad] [Free K .bays] [Free
    K .parts] [Free K .pf] [Free K .flight] {n} {v} {s : State} (h : Kept K o s) : KeptRes K o (execCqreset n v s) := by
  unfold execCqreset
  repeat' (first
    | with_reducible assumption | with_reducible apply kept_next | with_reducible apply resetCtx_kept
    | with_reducible apply foldl_kept | split)

theorem putRecord_kept {K : Field → Bool} {o : State} [Free K .mem] [Free K .poison] [Free K .pkgBad] [Free K .parts] [Free
    K .pf] {n} {ctx} {y} {src} {r} {s : State} (h : Kept K o s) : Kept K o (putRecord n ctx y src r s) := by
  unfold putRecord
  repeat' (first
    | with_reducible assumption | with_reducible apply State.loseTrace_kept | with_reducible apply State.modPart_kept
    | with_reducible apply appendRecords_kept | (refine some_kept (by assumption) ?_) | split)

theorem writeTrace_kept {K : Field → Bool} {o : State} [Free K .mem] [Free K .poison] [Free K .pkgBad] [Free K .parts] [Free
    K .pf] {n} {ctx} {s : State} (h : Kept K o s) : Kept K o (writeTrace n ctx s) := by
  unfold writeTrace
  repeat' (first
    | with_reducible assumption | with_reducible apply State.modPart_kept | with_reducible apply putRecord_kept | split
    | dsimp only)

theorem execTraceRecordWrite_kept {K : Field → Bool} {o : State} [Free K .mem] [Free K .poison] [Free K .pkgBad] [Free K
    .parts] [Free K .pf] {n} {ctx} {s : State} (h : Kept K o s) : KeptRes K o (execTraceRecordWrite n ctx s) := by
  unfold execTraceRecordWrite
  repeat' (first
    | with_reducible assumption | with_reducible apply kept_next | with_reducible apply writeTrace_kept
    | with_reducible apply closeIfDrained_kept | split)

theorem writeTbctl_kept {K : Field → Bool} {o : State} [Free K .mem] [Free K .poison] [Free K .pkgBad] [Free K .bays] [Free
    K .parts] [Free K .pf] [Free K .flight] {n} {ctx} {v} {s : State} (h : Kept K o s) : Kept K o (writeTbctl n ctx v s) := by
  unfold writeTbctl
  repeat' (first
    | with_reducible assumption | with_reducible apply closeIfDrained_kept | with_reducible apply State.modPart_kept
    | with_reducible apply beginTrace_kept | split | dsimp only)

theorem execTraceSessionClose_kept {K : Field → Bool} {o : State} [Free K .mem] [Free K .poison] [Free K .pkgBad] [Free K
    .bays] [Free K .parts] [Free K .pf] [Free K .flight] {n} {ctx} {v} {s : State} (h : Kept K o s) : KeptRes K o
    (execTraceSessionClose n ctx v s) := by
  unfold execTraceSessionClose
  repeat' (first | with_reducible assumption | with_reducible apply kept_next | with_reducible apply writeTbctl_kept)

theorem execTraceSessionOpen_kept {K : Field → Bool} {o : State} [Free K .mem] [Free K .poison] [Free K .pkgBad] [Free K
    .bays] [Free K .parts] [Free K .pf] [Free K .flight] {n} {ctx} {v} {s : State} (h : Kept K o s) : KeptRes K o
    (execTraceSessionOpen n ctx v s) := by
  unfold execTraceSessionOpen
  repeat' (first | with_reducible assumption | with_reducible apply kept_next | with_reducible apply writeTbctl_kept)

theorem State.modMon_kept {K : Field → Bool} {o : State} [Free K .bays] {s : State} {b} {f} (h : Kept K o s) : Kept K o
    (State.modMon s b f) := by
  unfold State.modMon
  repeat' (first | with_reducible assumption | with_reducible apply State.modBay_kept)

theorem alarm_kept {K : Field → Bool} {o : State} [Free K .parts] [Free K .pf] {s : State} {b} {code} {reading} {threshold}
    (h : Kept K o s) : Kept K o (alarm s b code reading threshold) := by
  unfold alarm
  repeat' (first | with_reducible assumption | with_reducible apply State.eventFor_kept)

theorem execOperatingPointSettled_kept {K : Field → Bool} {o : State} [Free K .dieop] {d} {s : State} (h : Kept K o s) :
    KeptRes K o (execOperatingPointSettled d s) := by
  unfold execOperatingPointSettled
  repeat' (first | with_reducible assumption | with_reducible apply kept_next | simp only [kept_dieop_iff])

theorem execDieopWrite_kept {K : Field → Bool} {o : State} [Free K .dieop] {d} {v} {s : State} (h : Kept K o s) : KeptRes K
    o (execDieopWrite d v s) := by
  unfold execDieopWrite
  repeat' (first | with_reducible assumption | with_reducible apply kept_next | simp only [kept_dieop_iff] | split)

theorem execProcessInterval_kept {K : Field → Bool} {o : State} [Free K .bays] [Free K .parts] [Free K .pf] {b} {c} {s :
    State} (h : Kept K o s) : KeptRes K o (execProcessInterval b c s) := by
  unfold execProcessInterval
  repeat' (first
    | with_reducible assumption | with_reducible apply kept_next | with_reducible apply alarm_kept
    | with_reducible apply State.modMon_kept | split | dsimp only)

theorem execVoltageDroop_kept {K : Field → Bool} {o : State} [Free K .bays] [Free K .parts] [Free K .pf] {b} {depth} {s :
    State} (h : Kept K o s) : KeptRes K o (execVoltageDroop b depth s) := by
  unfold execVoltageDroop
  repeat' (first
    | with_reducible assumption | with_reducible apply kept_next | with_reducible apply alarm_kept
    | with_reducible apply State.modMon_kept | split | dsimp only)

theorem execTempSample_kept {K : Field → Bool} {o : State} [Free K .bays] [Free K .parts] [Free K .pf] {b} {r} {s : State}
    (h : Kept K o s) : KeptRes K o (execTempSample b r s) := by
  unfold execTempSample
  repeat' (first
    | with_reducible assumption | with_reducible apply kept_next | with_reducible apply alarm_kept
    | with_reducible apply State.modMon_kept | split | dsimp only)

theorem execBoot_kept {K : Field → Bool} {o : State} [Free K .mem] [Free K .poison] [Free K .bays] [Free K .boot] {s :
    State} (h : Kept K o s) : KeptRes K o (execBoot s) := by
  unfold execBoot
  apply kept_next
  split
  · exact h
  · split
    · exact kept_mem_poison_bays_boot (fun w => memWf_filter _ (h.form w)) h
    · exact kept_boot h

theorem execAttest_kept {K : Field → Bool} {o : State} [Free K .mem] [Free K .poison] [Free K .pkgBad] {n} {v} {s : State}
    (h : Kept K o s) : KeptRes K o (execAttest n v s) := by
  unfold execAttest
  repeat' (first
    | with_reducible assumption | with_reducible apply kept_next | with_reducible apply State.writeBytes_kept | split)

theorem sealLoc_kept {K : Field → Bool} {o : State} [Free K .mem] [Free K .poison] [Free K .pkgBad] {s : State} {n} {va} (h
    : Kept K o s) : (sealLoc s n va).Good K o := by
  unfold sealLoc
  repeat' (first
    | with_reducible assumption | with_reducible apply SealLoc.good_ok | with_reducible apply SealLoc.good_wait
    | with_reducible apply SealLoc.good_bad | with_reducible apply State.writeBytes_kept | split | dsimp only)

theorem sealWrite_kept {K : Field → Bool} {o : State} [Free K .mem] [Free K .poison] [Free K .pkgBad] {n l s} (h : Kept K o
    s) : Kept K o (sealWrite n l s).2 := by
  induction l generalizing s with
  | nil => exact h
  | cons e es ih =>
    unfold sealWrite
    repeat' (first
      | with_reducible assumption | with_reducible apply ih | with_reducible apply homeWrite_kept
      | with_reducible apply sealLoc_kept | (refine SealLoc.ok_kept (by assumption) ?_) | split)

theorem execUnsealBlob_kept {K : Field → Bool} {o : State} [Free K .mem] [Free K .poison] [Free K .pkgBad] [Free K .parts]
    [Free K .pf] [Free K .flight] {n} {v} {s : State} (h : Kept K o s) : KeptRes K o (execUnsealBlob n v s) := by
  unfold execUnsealBlob
  repeat' (first
    | with_reducible assumption | with_reducible apply kept_next | with_reducible apply parkBare_kept
    | with_reducible apply State.send_kept | with_reducible apply sealWrite_kept | with_reducible apply State.modPart_kept
    | (refine pair_kept (by assumption) ?_) | split | dsimp only)

theorem execDbgctlWrite_kept {K : Field → Bool} {o : State} [Free K .parts] [Free K .pf] {n} {v} {s : State} (h : Kept K o
    s) : KeptRes K o (execDbgctlWrite n v s) := by
  unfold execDbgctlWrite
  repeat' (first | with_reducible assumption | with_reducible apply kept_next | with_reducible apply State.modPart_kept | split)

theorem execScopepolWrite_kept {K : Field → Bool} {o : State} [Free K .parts] [Free K .pf] {n} {v} {s : State} (h : Kept K o
    s) : KeptRes K o (execScopepolWrite n v s) := by
  unfold execScopepolWrite
  repeat' (first | with_reducible assumption | with_reducible apply kept_next | with_reducible apply State.modPart_kept | split)

theorem execZeroiseComplete_kept {K : Field → Bool} {o : State} [Free K .bays] [Free K .parts] [Free K .pf] [Free K .zeroQ]
    {n} {s : State} (h : Kept K o s) : KeptRes K o (execZeroiseComplete n s) := by
  unfold execZeroiseComplete
  repeat' (first
    | with_reducible assumption | with_reducible apply kept_next | with_reducible apply State.modPart_kept
    | with_reducible apply State.modBay_kept | simp only [kept_zeroQ_iff] | with_reducible apply foldl_kept | intro _)

theorem wipeBay_kept {K : Field → Bool} {o : State} [Free K .mem] [Free K .poison] [Free K .bays] [Free K .zeroQ] {n} {s :
    State} {b} (h : Kept K o s) : Kept K o (wipeBay n s b) := by
  have h1 : Kept K o (s.modBay b Bay.wipe) := State.modBay_kept h
  unfold wipeBay
  exact kept_mem_poison_zeroQ (fun w => memWf_filter _ (h.form w)) h1

theorem wipeBays_kept {K : Field → Bool} {o : State} [Free K .mem] [Free K .poison] [Free K .bays] [Free K .parts] [Free K
    .pf] [Free K .zeroQ] {s : State} {n} {bs} (h : Kept K o s) : Kept K o (wipeBays s n bs) := by
  unfold wipeBays
  repeat' (first
    | with_reducible assumption | with_reducible apply wipeBay_kept | with_reducible apply State.modPart_kept
    | with_reducible apply foldl_kept | split)

theorem execBaysWrite_kept {K : Field → Bool} {o : State} [Free K .mem] [Free K .poison] [Free K .bays] [Free K .parts]
    [Free K .pf] [Free K .zeroQ] {n} {k} {v} {s : State} (h : Kept K o s) : KeptRes K o (execBaysWrite n k v s) := by
  unfold execBaysWrite
  repeat' (first
    | with_reducible assumption | with_reducible apply kept_next | with_reducible apply wipeBays_kept
    | with_reducible apply State.modPart_kept | split | dsimp only)

theorem execPctlWrite_kept {K : Field → Bool} {o : State} [Free K .mem] [Free K .poison] [Free K .bays] [Free K .parts]
    [Free K .pf] [Free K .zeroQ] {n} {v} {s : State} (h : Kept K o s) : KeptRes K o (execPctlWrite n v s) := by
  unfold execPctlWrite
  repeat' (first
    | with_reducible assumption | with_reducible apply kept_next | with_reducible apply wipeBays_kept
    | with_reducible apply State.modPart_kept | split | dsimp only)

theorem storeIn_kept {K : Field → Bool} {o : State} [Free K .parts] [Free K .pf] {n} {v} {fs} {f} {s : State} (h : Kept K o
    s) : Kept K o (storeIn n v fs f s) := by
  unfold storeIn
  repeat' (first | with_reducible assumption | with_reducible apply State.modPart_kept | split)

theorem writeTraceReg_kept {K : Field → Bool} {o : State} [Free K .parts] [Free K .pf] {n} {ctx} {y} {v} {s : State} (h :
    Kept K o s) : Kept K o (writeTraceReg n ctx y v s) := by
  unfold writeTraceReg
  repeat' (first | with_reducible assumption | with_reducible apply storeIn_kept | split | dsimp only)

theorem writeCmpReg_kept {K : Field → Bool} {o : State} [Free K .bays] {b} {k} {y} {v} {s : State} (h : Kept K o s) : Kept K
    o (writeCmpReg b k y v s) := by
  unfold writeCmpReg
  repeat' (first | with_reducible assumption | with_reducible apply State.modBay_kept | split)

theorem writeMonReg_kept {K : Field → Bool} {o : State} [Free K .bays] {b} {y} {v} {s : State} (h : Kept K o s) : Kept K o
    (writeMonReg b y v s) := by
  unfold writeMonReg
  repeat' (first | with_reducible assumption | with_reducible apply State.modMon_kept | split | dsimp only)

theorem writeSealReg_kept {K : Field → Bool} {o : State} [Free K .parts] [Free K .pf] {n} {y} {v} {s : State} (h : Kept K o
    s) : Kept K o (writeSealReg n y v s) := by
  unfold writeSealReg
  repeat' (first | with_reducible assumption | with_reducible apply storeIn_kept | split)

theorem writeLoadReg_kept {K : Field → Bool} {o : State} [Free K .parts] [Free K .pf] {n} {y} {v} {s : State} (h : Kept K o
    s) : Kept K o (writeLoadReg n y v s) := by
  unfold writeLoadReg
  repeat' (first | with_reducible assumption | with_reducible apply storeIn_kept | split)

theorem writeRingReg_kept {K : Field → Bool} {o : State} [Free K .parts] [Free K .pf] {n} {y} {v} {s : State} (h : Kept K o
    s) : Kept K o (writeRingReg n y v s) := by
  unfold writeRingReg
  repeat' (first | with_reducible assumption | with_reducible apply storeIn_kept | split)

theorem writeXlatReg_kept {K : Field → Bool} {o : State} [Free K .parts] [Free K .pf] {n} {y} {v} {s : State} (h : Kept K o
    s) : Kept K o (writeXlatReg n y v s) := by
  unfold writeXlatReg
  repeat' (first | with_reducible assumption | with_reducible apply storeIn_kept | split)

theorem storeRegister_kept {K : Field → Bool} {o : State} [Free K .bays] [Free K .parts] [Free K .pf] [Free K .devnum] {off}
    {v} {s : State} (h : Kept K o s) : Kept K o (storeRegister off v s) := by
  unfold storeRegister
  repeat' (first
    | with_reducible assumption | with_reducible apply writeTraceReg_kept | with_reducible apply writeCmpReg_kept
    | with_reducible apply writeMonReg_kept | with_reducible apply writeSealReg_kept
    | with_reducible apply writeLoadReg_kept | with_reducible apply storeIn_kept | with_reducible apply writeRingReg_kept
    | with_reducible apply writeXlatReg_kept | with_reducible apply State.modPart_kept | simp only [kept_devnum_iff]
    | split)

theorem execRegisterWrite_kept {K : Field → Bool} {o : State} [Free K .bays] [Free K .parts] [Free K .pf] [Free K .devnum]
    {off} {v} {s : State} (h : Kept K o s) : KeptRes K o (execRegisterWrite off v s) := by
  unfold execRegisterWrite
  repeat' (first | with_reducible assumption | with_reducible apply kept_next | with_reducible apply storeRegister_kept)

theorem traceFire_kept {K : Field → Bool} {o : State} [Free K .bays] [Free K .parts] [Free K .pf] [Free K .flight] {result}
    {b} {m} {s : State} (h : Kept K o s) : Kept K o (traceFire result b m s) := by
  unfold traceFire
  repeat' (first
    | with_reducible assumption | with_reducible apply putTrace_kept | with_reducible apply State.modCtx_kept | split
    | dsimp only)

theorem takeSet_kept {K : Field → Bool} {o : State} [Free K .bays] {b} {e} {k} {waited} {s : State} (h : Kept K o s) : Kept
    K o (takeSet b e k waited s) := by
  unfold takeSet
  repeat' (first | with_reducible assumption | with_reducible apply State.modElem_kept)

theorem startSet_kept {K : Field → Bool} {o : State} [Free K .bays] [Free K .parts] [Free K .pf] [Free K .fire] {b} {m} {s :
    State} (h : Kept K o s) : Kept K o (startSet b m s).2 := by
  unfold startSet
  repeat' (first | with_reducible assumption | with_reducible apply slotFault_kept | simp only [kept_fire_iff] | split)

theorem Cand.start_kept {K : Field → Bool} {o : State} [Free K .bays] [Free K .parts] [Free K .pf] [Free K .flight] [Free K
    .inputs] [Free K .fire] {s : State} {c} (h : Kept K o s) : Kept K o (Cand.start s c).2 := by
  cases c with
  | fire b e k =>
    dsimp only [Cand.start]
    split
    · exact h
    · exact startSet_kept (takeSet_kept h)
  | waited b e k =>
    dsimp only [Cand.start]
    split
    · exact h
    · exact startSet_kept (takeSet_kept h)
  | flight k => exact kept_flight h
  | input k =>
    dsimp only [Cand.start]
    split
    · exact kept_flight_inputs h
    · exact kept_inputs h
  | own i => exact h

theorem chansTick_kept {K : Field → Bool} {o : State} [Free K .bays] [Free K .parts] [Free K .pf] [Free K .chans] {s :
    State} (h : Kept K o s) : Kept K o (chansTick s) := by
  unfold chansTick
  repeat' (first
    | with_reducible assumption | with_reducible apply chanBroken_kept | simp only [kept_chans_iff]
    | with_reducible apply foldl_kept | intro _)

theorem tick_kept {K : Field → Bool} {o : State} [Free K .poison] [Free K .pkgBad] [Free K .bays] [Free K .parts] [Free K
    .pf] [Free K .chans] [Free K .ecc] [Free K .flight] [Free K .picks] [Free K .upsets] [Free K .freeCtr] {s : State} (h : Kept
    K o s) : Kept K o (tick s) := by
  unfold tick
  repeat' (first
    | with_reducible assumption | with_reducible apply nextUpset_kept | with_reducible apply chansTick_kept
    | simp only [kept_bays_picks_freeCtr_iff])

end Sys2Proof.Machine
end

