-- ==== Sys2Proof/Laws/FrameStep.lean ====
section
/-!
SUPPORT. Sys2Proof/Laws/FrameStep.lean: an instruction changes only the fields of its `touches`; what surrounds it in a step.
-/
namespace Sys2Proof.Machine

open Sys2Proof

theorem afterFire_kept {K : Field → Bool} [Free K .bays] [Free K .parts] [Free K .pf] [Free K .flight] {o : State} {r b m} {s : State} (h : Kept K o s) :
    Kept K o (afterFire r b m s) := by
  unfold afterFire
  split
  · exact h
  · exact traceFire_kept (State.modCtx_kept h)

theorem traceFrozen_kept {K : Field → Bool} [Free K .bays] [Free K .parts] [Free K .pf] [Free K .flight] {o old s : State} (h : Kept K o s) : Kept K o (traceFrozen old s) := by
  unfold traceFrozen
  split
  · exact foldl_kept (fun _ _ ht => traceInst_kept ht) _ h
  · exact h

theorem Cand.finish_kept {K : Field → Bool} [Free K .bays] [Free K .parts] [Free K .pf] [Free K .flight] {o old : State} {r c} {s : State} (h : Kept K o s) :
    Kept K o (Cand.finish old r c s) := by
  unfold Cand.finish
  refine traceFrozen_kept ?_
  split
  · split
    · exact h
    · exact afterFire_kept h
  · exact h

/-- All fields of a list may change. -/
def FreeAll (K : Field → Bool) : List Field → Prop
  | [] => True
  | f :: l => Free K f ∧ FreeAll K l

theorem freeAll_of {K : Field → Bool} : ∀ {l : List Field}, (∀ f ∈ l, K f = false) → FreeAll K l
  | [], _ => trivial
  | f :: _, h => ⟨⟨h f (.head _)⟩, freeAll_of fun g hg => h g (.tail _ hg)⟩

/-- The instruction of every row leaves the fields outside its `touches` alone, and keeps the form of memory. -/
theorem exec_kept {K : Field → Bool} {o s : State} {i : Instr} (hk : FreeAll K (touches i)) (h : Kept K o s) :
    KeptRes K o (exec i s) := by
  cases i with
  | add _ _ => obtain ⟨_, _, _, _, _, _⟩ := hk; exact execAdd_kept h
  | sub _ _ => obtain ⟨_, _, _, _, _, _⟩ := hk; exact execSub_kept h
  | neg _ _ => obtain ⟨_, _, _, _, _, _⟩ := hk; exact execNeg_kept h
  | abs _ _ => obtain ⟨_, _, _, _, _, _⟩ := hk; exact execAbs_kept h
  | min _ _ => obtain ⟨_, _, _, _, _, _⟩ := hk; exact execMin_kept h
  | max _ _ => obtain ⟨_, _, _, _, _, _⟩ := hk; exact execMax_kept h
  | mul _ _ => obtain ⟨_, _, _, _, _, _⟩ := hk; exact execMul_kept h
  | mulh _ _ => obtain ⟨_, _, _, _, _, _⟩ := hk; exact execMulh_kept h
  | mad _ _ => obtain ⟨_, _, _, _, _, _⟩ := hk; exact execMad_kept h
  | div _ _ => obtain ⟨_, _, _, _, _, _⟩ := hk; exact execDiv_kept h
  | rem _ _ => obtain ⟨_, _, _, _, _, _⟩ := hk; exact execRem_kept h
  | and _ _ => obtain ⟨_, _, _, _, _, _⟩ := hk; exact execAnd_kept h
  | or _ _ => obtain ⟨_, _, _, _, _, _⟩ := hk; exact execOr_kept h
  | xor _ _ => obtain ⟨_, _, _, _, _, _⟩ := hk; exact execXor_kept h
  | andn _ _ => obtain ⟨_, _, _, _, _, _⟩ := hk; exact execAndn_kept h
  | not _ _ => obtain ⟨_, _, _, _, _, _⟩ := hk; exact execNot_kept h
  | shl _ _ => obtain ⟨_, _, _, _, _, _⟩ := hk; exact execShl_kept h
  | shr _ _ => obtain ⟨_, _, _, _, _, _⟩ := hk; exact execShr_kept h
  | sar _ _ => obtain ⟨_, _, _, _, _, _⟩ := hk; exact execSar_kept h
  | rol _ _ => obtain ⟨_, _, _, _, _, _⟩ := hk; exact execRol_kept h
  | clz _ _ => obtain ⟨_, _, _, _, _, _⟩ := hk; exact execClz_kept h
  | ctz _ _ => obtain ⟨_, _, _, _, _, _⟩ := hk; exact execCtz_kept h
  | popc _ _ => obtain ⟨_, _, _, _, _, _⟩ := hk; exact execPopc_kept h
  | brev _ _ => obtain ⟨_, _, _, _, _, _⟩ := hk; exact execBrev_kept h
  | bfx _ _ => obtain ⟨_, _, _, _, _, _⟩ := hk; exact execBfx_kept h
  | bfi _ _ => obtain ⟨_, _, _, _, _, _⟩ := hk; exact execBfi_kept h
  | sel _ _ => obtain ⟨_, _, _, _, _, _⟩ := hk; exact execSel_kept h
  | ceq _ _ => obtain ⟨_, _, _, _, _, _⟩ := hk; exact execCeq_kept h
  | cne _ _ => obtain ⟨_, _, _, _, _, _⟩ := hk; exact execCne_kept h
  | clt _ _ => obtain ⟨_, _, _, _, _, _⟩ := hk; exact execClt_kept h
  | cle _ _ => obtain ⟨_, _, _, _, _, _⟩ := hk; exact execCle_kept h
  | cvi _ _ => obtain ⟨_, _, _, _, _, _⟩ := hk; exact execCvi_kept h
  | adsc _ _ => obtain ⟨_, _, _, _, _, _⟩ := hk; exact execAdsc_kept h
  | fadd _ _ => obtain ⟨_, _, _, _, _, _⟩ := hk; exact execFadd_kept h
  | fsub _ _ => obtain ⟨_, _, _, _, _, _⟩ := hk; exact execFsub_kept h
  | fmul _ _ => obtain ⟨_, _, _, _, _, _⟩ := hk; exact execFmul_kept h
  | fma _ _ => obtain ⟨_, _, _, _, _, _⟩ := hk; exact execFma_kept h
  | fnma _ _ => obtain ⟨_, _, _, _, _, _⟩ := hk; exact execFnma_kept h
  | fmin _ _ => obtain ⟨_, _, _, _, _, _⟩ := hk; exact execFmin_kept h
  | fmax _ _ => obtain ⟨_, _, _, _, _, _⟩ := hk; exact execFmax_kept h
  | fabs _ _ => obtain ⟨_, _, _, _, _, _⟩ := hk; exact execFabs_kept h
  | fneg _ _ => obtain ⟨_, _, _, _, _, _⟩ := hk; exact execFneg_kept h
  | fdiv _ _ => obtain ⟨_, _, _, _, _, _⟩ := hk; exact execFdiv_kept h
  | fsqrt _ _ => obtain ⟨_, _, _, _, _, _⟩ := hk; exact execFsqrt_kept h
  | frsq _ _ => obtain ⟨_, _, _, _, _, _⟩ := hk; exact execFrsq_kept h
  | frcp _ _ => obtain ⟨_, _, _, _, _, _⟩ := hk; exact execFrcp_kept h
  | fexp2 _ _ => obtain ⟨_, _, _, _, _, _⟩ := hk; exact execFexp2_kept h
  | flog2 _ _ => obtain ⟨_, _, _, _, _, _⟩ := hk; exact execFlog2_kept h
  | fceq _ _ => obtain ⟨_, _, _, _, _, _⟩ := hk; exact execFceq_kept h
  | fclt _ _ => obtain ⟨_, _, _, _, _, _⟩ := hk; exact execFclt_kept h
  | fcle _ _ => obtain ⟨_, _, _, _, _, _⟩ := hk; exact execFcle_kept h
  | fcun _ _ => obtain ⟨_, _, _, _, _, _⟩ := hk; exact execFcun_kept h
  | fcvt _ _ => obtain ⟨_, _, _, _, _, _⟩ := hk; exact execFcvt_kept h
  | fcvi _ _ => obtain ⟨_, _, _, _, _, _⟩ := hk; exact execFcvi_kept h
  | icvf _ _ => obtain ⟨_, _, _, _, _, _⟩ := hk; exact execIcvf_kept h
  | frint _ _ => obtain ⟨_, _, _, _, _, _⟩ := hk; exact execFrint_kept h
  | fscal _ _ => obtain ⟨_, _, _, _, _, _⟩ := hk; exact execFscal_kept h
  | fclass _ _ => obtain ⟨_, _, _, _, _, _⟩ := hk; exact execFclass_kept h
  | fpk _ _ => obtain ⟨_, _, _, _, _, _⟩ := hk; exact execFpk_kept h
  | lperm _ f => obtain ⟨_, _, _, _, _, _⟩ := hk; exact execLperm_kept (f := f) h
  | lbcast _ f => obtain ⟨_, _, _, _, _, _⟩ := hk; exact execLbcast_kept (f := f) h
  | lext _ _ => obtain ⟨_, _, _, _, _, _⟩ := hk; exact execLext_kept h
  | lins _ _ => obtain ⟨_, _, _, _, _, _⟩ := hk; exact execLins_kept h
  | lred _ _ => obtain ⟨_, _, _, _, _, _⟩ := hk; exact execLred_kept h
  | lscan _ _ => obtain ⟨_, _, _, _, _, _⟩ := hk; exact execLscan_kept h
  | lcmpr _ f => obtain ⟨_, _, _, _, _, _⟩ := hk; exact execLcmpr_kept (f := f) h
  | lexpd _ f => obtain ⟨_, _, _, _, _, _⟩ := hk; exact execLexpd_kept (f := f) h
  | lrot _ _ => obtain ⟨_, _, _, _, _, _⟩ := hk; exact execLrot_kept h
  | lzip _ _ => obtain ⟨_, _, _, _, _, _⟩ := hk; exact execLzip_kept h
  | lunzip _ _ => obtain ⟨_, _, _, _, _, _⟩ := hk; exact execLunzip_kept h
  | lq4 _ _ => obtain ⟨_, _, _, _, _, _⟩ := hk; exact execLq4_kept h
  | mov _ f => obtain ⟨_, _, _, _, _, _⟩ := hk; exact execMov_kept (f := f) h
  | mov4 _ _ => obtain ⟨_, _, _, _, _, _⟩ := hk; exact execMov4_kept h
  | const _ _ => obtain ⟨_, _, _, _, _, _⟩ := hk; exact execConst_kept h
  | steer _ _ => obtain ⟨_, _, _, _, _, _⟩ := hk; exact execSteer_kept h
  | gate _ _ => obtain ⟨_, _, _, _, _, _⟩ := hk; exact execGate_kept h
  | null _ f => obtain ⟨_, _, _, _, _, _⟩ := hk; exact execNull_kept (f := f) h
  | sync _ f => obtain ⟨_, _, _, _, _, _⟩ := hk; exact execSync_kept (f := f) h
  | count _ _ => obtain ⟨_, _, _, _, _, _⟩ := hk; exact execCount_kept h
  | fold _ _ => obtain ⟨_, _, _, _, _, _⟩ := hk; exact execFold_kept h
  | incf _ _ => obtain ⟨_, _, _, _, _, _⟩ := hk; exact execIncf_kept h
  | pushf _ _ => obtain ⟨_, _, _, _, _, _⟩ := hk; exact execPushf_kept h
  | popf _ f => obtain ⟨_, _, _, _, _, _⟩ := hk; exact execPopf_kept (f := f) h
  | setf _ _ => obtain ⟨_, _, _, _, _, _⟩ := hk; exact execSetf_kept h
  | getf _ _ => obtain ⟨_, _, _, _, _, _⟩ := hk; exact execGetf_kept h
  | ordj _ f => obtain ⟨_, _, _, _, _, _⟩ := hk; exact execOrdj_kept (f := f) h
  | exit _ _ => obtain ⟨_, _, _, _, _⟩ := hk; exact execExit_kept h
  | call _ _ => obtain ⟨_, _, _, _, _⟩ := hk; exact execCall_kept h
  | ret _ _ => obtain ⟨_, _, _, _, _⟩ := hk; exact execRet_kept h
  | discard _ f => obtain ⟨_, _, _, _, _⟩ := hk; exact execDiscard_kept (f := f) h
  | kget _ _ => obtain ⟨_, _, _, _, _, _⟩ := hk; exact execKget_kept h
  | kput _ _ => obtain ⟨_, _, _, _, _⟩ := hk; exact execKput_kept h
  | ld _ _ => obtain ⟨_, _, _, _, _, _, _, _, _⟩ := hk; exact execLd_kept h
  | st _ _ => obtain ⟨_, _, _, _, _, _, _, _, _⟩ := hk; exact execSt_kept h
  | ldv _ _ => obtain ⟨_, _, _, _, _, _, _, _, _⟩ := hk; exact execLdv_kept h
  | stv _ _ => obtain ⟨_, _, _, _, _, _, _, _, _⟩ := hk; exact execStv_kept h
  | ldg _ _ => obtain ⟨_, _, _, _, _, _, _, _, _⟩ := hk; exact execLdg_kept h
  | stg _ _ => obtain ⟨_, _, _, _, _, _, _, _, _⟩ := hk; exact execStg_kept h
  | ldo _ _ => obtain ⟨_, _, _, _, _, _, _, _, _⟩ := hk; exact execLdo_kept h
  | sto _ _ => obtain ⟨_, _, _, _, _, _, _, _, _⟩ := hk; exact execSto_kept h
  | sflush _ _ => obtain ⟨_, _, _, _, _, _, _, _, _⟩ := hk; exact execSflush_kept h
  | sinv _ _ => obtain ⟨_, _, _, _, _, _, _, _, _⟩ := hk; exact execSinv_kept h
  | srel _ _ => obtain ⟨_, _, _, _, _, _, _, _, _⟩ := hk; exact execSrel_kept h
  | sdepth _ _ => obtain ⟨_, _, _, _, _, _⟩ := hk; exact execSdepth_kept h
  | fence _ _ => obtain ⟨_, _, _, _, _, _, _, _, _⟩ := hk; exact execFence_kept h
  | xlat _ _ => obtain ⟨_, _, _, _, _, _⟩ := hk; exact execXlat_kept h
  | aadd _ _ => obtain ⟨_, _, _, _, _, _, _, _, _⟩ := hk; exact execAadd_kept h
  | amin _ _ => obtain ⟨_, _, _, _, _, _, _, _, _⟩ := hk; exact execAmin_kept h
  | amax _ _ => obtain ⟨_, _, _, _, _, _, _, _, _⟩ := hk; exact execAmax_kept h
  | aand _ _ => obtain ⟨_, _, _, _, _, _, _, _, _⟩ := hk; exact execAand_kept h
  | aor _ _ => obtain ⟨_, _, _, _, _, _, _, _, _⟩ := hk; exact execAor_kept h
  | axor _ _ => obtain ⟨_, _, _, _, _, _, _, _, _⟩ := hk; exact execAxor_kept h
  | axch _ _ => obtain ⟨_, _, _, _, _, _, _, _, _⟩ := hk; exact execAxch_kept h
  | acas _ _ => obtain ⟨_, _, _, _, _, _, _, _, _⟩ := hk; exact execAcas_kept h
  | ainc _ _ => obtain ⟨_, _, _, _, _, _, _, _, _⟩ := hk; exact execAinc_kept h
  | adec _ _ => obtain ⟨_, _, _, _, _, _, _, _, _⟩ := hk; exact execAdec_kept h
  | faadd _ _ => obtain ⟨_, _, _, _, _, _, _, _, _⟩ := hk; exact execFaadd_kept h
  | mma _ _ => obtain ⟨_, _, _, _, _, _⟩ := hk; exact execMma_kept h
  | mmaq _ _ => obtain ⟨_, _, _, _, _, _⟩ := hk; exact execMmaq_kept h
  | aclr _ _ => obtain ⟨_, _, _, _, _, _⟩ := hk; exact execAclr_kept h
  | adrn _ _ => obtain ⟨_, _, _, _, _, _⟩ := hk; exact execAdrn_kept h
  | scopy _ _ => obtain ⟨_, _, _, _, _, _⟩ := hk; exact execScopy_kept h
  | sgath _ _ => obtain ⟨_, _, _, _, _, _⟩ := hk; exact execSgath_kept h
  | sscat _ _ => obtain ⟨_, _, _, _, _, _⟩ := hk; exact execSscat_kept h
  | strn _ _ => obtain ⟨_, _, _, _, _, _⟩ := hk; exact execStrn_kept h
  | slay _ _ => obtain ⟨_, _, _, _, _, _⟩ := hk; exact execSlay_kept h
  | speer _ _ => obtain ⟨_, _, _, _, _, _⟩ := hk; exact execSpeer_kept h
  | sstop _ _ => obtain ⟨_, _, _, _, _, _⟩ := hk; exact execSstop_kept h
  | rngset _ _ => obtain ⟨_, _, _, _, _, _⟩ := hk; exact execRngset_kept h
  | rngnext _ f => obtain ⟨_, _, _, _, _, _⟩ := hk; exact execRngnext_kept (f := f) h
  | rngsteal _ _ => obtain ⟨_, _, _, _, _, _⟩ := hk; exact execRngsteal_kept h
  | seed _ _ => obtain ⟨_, _, _, _, _, _, _, _, _⟩ := hk; exact execSeed_kept h
  | trap _ _ => obtain ⟨_, _, _, _, _, _⟩ := hk; exact execTrap_kept h
  | brk _ _ => obtain ⟨_, _, _, _, _, _⟩ := hk; exact execBrk_kept h
  | srd _ _ => obtain ⟨_, _, _, _, _, _⟩ := hk; exact execSrd_kept h
  | swr _ _ => obtain ⟨_, _, _, _, _, _⟩ := hk; exact execSwr_kept h
  | mark _ _ => obtain ⟨_, _, _, _, _, _⟩ := hk; exact execMark_kept h
  | halt _ _ => obtain ⟨_, _, _, _, _, _⟩ := hk; exact execHalt_kept h
  | probe _ _ => obtain ⟨_, _, _, _, _, _⟩ := hk; exact execProbe_kept h
  | tokenArrive _ => obtain ⟨_, _, _, _, _⟩ := hk; exact execTokenArrive_kept h
  | waithistSpill _ _ _ _ => obtain ⟨_, _, _, _, _⟩ := hk; exact execWaithistSpill_kept h
  | gateEntryToken _ => obtain ⟨_, _, _, _, _⟩ := hk; exact execGateEntryToken_kept h
  | admitTag _ _ _ _ => obtain ⟨_, _, _, _, _⟩ := hk; exact execAdmitTag_kept h
  | settle _ _ _ => obtain ⟨_, _, _, _, _, _, _, _⟩ := hk; exact execSettle_kept h
  | commit _ _ _ => obtain ⟨_, _, _, _, _, _, _, _⟩ := hk; exact execCommit_kept h
  | limUpdate _ _ _ _ => obtain ⟨_, _⟩ := hk; exact execLimUpdate_kept h
  | quiescenceWave _ _ => obtain ⟨_, _, _, _, _⟩ := hk; exact execQuiescenceWave_kept h
  | query _ _ => obtain ⟨_, _, _, _, _⟩ := hk; exact execQuery_kept h
  | qreply _ _ => obtain ⟨_, _, _, _, _⟩ := hk; exact execQreply_kept h
  | launchComplete _ _ => obtain ⟨_, _, _, _, _, _, _, _⟩ := hk; exact execLaunchComplete_kept h
  | packetArrive _ _ _ => obtain ⟨_, _, _, _, _, _⟩ := hk; exact execPacketArrive_kept h
  | packetSend _ => obtain ⟨_, _, _, _, _, _⟩ := hk; exact execPacketSend_kept h
  | creditReturn _ _ => obtain ⟨_, _⟩ := hk; exact execCreditReturn_kept h
  | boundaryTokenSend _ => obtain ⟨_, _, _, _, _, _⟩ := hk; exact execBoundaryTokenSend_kept h
  | mreq _ _ => obtain ⟨_, _, _, _, _, _, _, _⟩ := hk; exact execMreq_kept h
  | mrep _ _ => obtain ⟨_, _, _, _, _, _, _, _⟩ := hk; exact execMrep_kept h
  | fillDataArrive _ _ _ _ => obtain ⟨_, _, _, _, _, _, _, _⟩ := hk; exact execFillDataArrive_kept h
  | streamFetch _ _ => obtain ⟨_, _, _, _, _, _, _, _⟩ := hk; exact execStreamFetch_kept h
  | depUpdate _ _ => obtain ⟨_, _⟩ := hk; exact execDepUpdate_kept h
  | gread _ _ => obtain ⟨_, _, _, _, _⟩ := hk; exact execGread_kept h
  | gpart _ _ => obtain ⟨_, _, _, _, _⟩ := hk; exact execGpart_kept h
  | gwrite _ _ => obtain ⟨_, _, _, _, _, _, _, _⟩ := hk; exact execGwrite_kept h
  | gack _ _ => obtain ⟨_, _⟩ := hk; exact execGack_kept h
  | ldgResult _ _ => obtain ⟨_, _, _, _, _, _, _, _⟩ := hk; exact execLdgResult_kept h
  | stgDone _ _ => obtain ⟨_, _, _, _, _, _, _, _⟩ := hk; exact execStgDone_kept h
  | islandCommandAccept _ _ _ => obtain ⟨_, _, _, _, _⟩ := hk; exact execIslandCommandAccept_kept h
  | mmaExecute _ _ => obtain ⟨_, _, _, _, _⟩ := hk; exact execMmaExecute_kept h
  | aclrExecute _ _ => obtain ⟨_, _, _, _, _⟩ := hk; exact execAclrExecute_kept h
  | drainExecute _ _ => obtain ⟨_, _, _, _, _, _, _, _⟩ := hk; exact execDrainExecute_kept h
  | pipelineStart _ _ _ => obtain ⟨_, _, _, _, _, _, _, _⟩ := hk; exact execPipelineStart_kept h
  | tileRead _ _ _ => obtain ⟨_, _, _, _, _, _, _, _, _⟩ := hk; exact execTileRead_kept h
  | tileArrive _ _ _ => obtain ⟨_, _, _, _, _, _, _, _, _⟩ := hk; exact execTileArrive_kept h
  | pipelineEnd _ _ _ => obtain ⟨_, _, _, _, _⟩ := hk; exact execPipelineEnd_kept h
  | indexListRead _ _ _ => obtain ⟨_, _, _, _, _, _, _, _⟩ := hk; exact execIndexListRead_kept h
  | sstopExecute _ _ _ => obtain ⟨_, _, _, _, _⟩ := hk; exact execSstopExecute_kept h
  | spliceTile _ => obtain ⟨_, _, _, _, _, _, _, _, _, _⟩ := hk; exact execSpliceTile_kept h
  | spliceNotice _ => obtain ⟨_, _, _⟩ := hk; exact execSpliceNotice_kept h
  | spliceRead _ => obtain ⟨_, _, _, _, _, _, _, _, _⟩ := hk; exact execSpliceRead_kept h
  | spliceDone _ => obtain ⟨_, _, _, _, _⟩ := hk; exact execSpliceDone_kept h
  | steal _ _ => obtain ⟨_, _, _, _, _⟩ := hk; exact execSteal_kept h
  | grant _ _ => obtain ⟨_, _, _⟩ := hk; exact execGrant_kept h
  | probeRequest _ _ => obtain ⟨_, _, _, _, _⟩ := hk; exact execProbeRequest_kept h
  | preply _ _ => obtain ⟨_, _, _⟩ := hk; exact execPreply_kept h
  | launchRecordWrite _ _ => obtain ⟨_, _, _⟩ := hk; exact execLaunchRecordWrite_kept h
  | priorityChange _ _ => obtain ⟨_, _, _⟩ := hk; exact execPriorityChange_kept h
  | seedWrite _ _ _ => obtain ⟨_, _, _, _⟩ := hk; exact execSeedWrite_kept h
  | linkDown => obtain ⟨_, _, _⟩ := hk; exact execLinkDown_kept h
  | linkUp => obtain ⟨_, _, _, _, _, _, _⟩ := hk; exact execLinkUp_kept h
  | recordWrite _ _ => obtain ⟨_, _, _, _, _, _⟩ := hk; exact execRecordWrite_kept h
  | spliceBindingWrite _ _ _ => obtain ⟨_, _, _, _, _⟩ := hk; exact execSpliceBindingWrite_kept h
  | load _ _ => obtain ⟨_, _, _, _, _, _, _, _, _, _, _⟩ := hk; exact execLoad_kept h
  | loadComplete _ => obtain ⟨_, _, _⟩ := hk; exact execLoadComplete_kept h
  | unload _ _ => obtain ⟨_, _, _, _, _, _, _, _⟩ := hk; exact execUnload_kept h
  | selectLaunch _ => obtain ⟨_, _, _⟩ := hk; exact execSelectLaunch_kept h
  | bind _ => obtain ⟨_, _, _, _, _, _, _, _⟩ := hk; exact execBind_kept h
  | cfg _ _ => obtain ⟨_, _, _, _, _⟩ := hk; exact execCfg_kept h
  | cfgack _ _ => obtain ⟨_, _, _, _⟩ := hk; exact execCfgack_kept h
  | turnNotice _ _ => obtain ⟨_, _, _, _, _⟩ := hk; exact execTurnNotice_kept h
  | turn _ _ => obtain ⟨_, _, _⟩ := hk; exact execTurn_kept h
  | marker _ _ => obtain ⟨_, _, _, _, _, _, _, _⟩ := hk; exact execMarker_kept h
  | snapshot _ _ => obtain ⟨_, _, _, _, _, _, _, _⟩ := hk; exact execSnapshot_kept h
  | baySaveComplete _ _ => obtain ⟨_, _, _, _, _⟩ := hk; exact execBaySaveComplete_kept h
  | saved _ _ => obtain ⟨_, _, _, _, _⟩ := hk; exact execSaved_kept h
  | lsave _ _ => obtain ⟨_, _, _, _, _, _, _, _⟩ := hk; exact execLsave_kept h
  | lsaved _ _ => obtain ⟨_, _, _, _, _, _, _, _⟩ := hk; exact execLsaved_kept h
  | cancel _ _ => obtain ⟨_, _, _, _, _, _, _, _⟩ := hk; exact execCancel_kept h
  | fcmdResume _ _ => obtain ⟨_, _, _, _, _, _, _, _⟩ := hk; exact execFcmdResume_kept h
  | fcmdDiscard _ _ => obtain ⟨_, _, _, _, _, _, _, _⟩ := hk; exact execFcmdDiscard_kept h
  | fcmdEnd _ _ => obtain ⟨_, _, _, _, _, _, _, _⟩ := hk; exact execFcmdEnd_kept h
  | fcmdZfill _ _ => obtain ⟨_, _, _, _, _, _, _, _⟩ := hk; exact execFcmdZfill_kept h
  | translate _ _ => obtain ⟨_, _, _, _, _, _, _, _, _⟩ := hk; exact execTranslate_kept h
  | shootdownInval _ _ => obtain ⟨_, _, _, _, _, _, _, _⟩ := hk; exact execShootdownInval_kept h
  | shootdownFlush _ _ => obtain ⟨_, _, _, _, _, _, _, _⟩ := hk; exact execShootdownFlush_kept h
  | shootdownMigrate _ _ => obtain ⟨_, _, _, _, _, _, _, _⟩ := hk; exact execShootdownMigrate_kept h
  | shootdownComplete _ => obtain ⟨_, _, _, _, _, _, _, _⟩ := hk; exact execShootdownComplete_kept h
  | configScrub _ _ => obtain ⟨_, _, _, _, _⟩ := hk; exact execConfigScrub_kept h
  | loftScrub _ _ _ => obtain ⟨_, _, _, _, _⟩ := hk; exact execLoftScrub_kept h
  | lpddrScrub _ _ => obtain ⟨_, _, _, _, _⟩ := hk; exact execLpddrScrub_kept h
  | eccCorrectedInterval _ _ => obtain ⟨_, _, _, _⟩ := hk; exact execEccCorrectedInterval_kept h
  | pctlWrite _ _ => obtain ⟨_, _, _, _, _, _, _⟩ := hk; exact execPctlWrite_kept h
  | baysWrite _ _ _ => obtain ⟨_, _, _, _, _, _, _⟩ := hk; exact execBaysWrite_kept h
  | zeroiseComplete _ => obtain ⟨_, _, _, _, _⟩ := hk; exact execZeroiseComplete_kept h
  | scopepolWrite _ _ => obtain ⟨_, _, _⟩ := hk; exact execScopepolWrite_kept h
  | dbgctlWrite _ _ => obtain ⟨_, _, _⟩ := hk; exact execDbgctlWrite_kept h
  | unsealBlob _ _ => obtain ⟨_, _, _, _, _, _, _⟩ := hk; exact execUnsealBlob_kept h
  | attest _ _ => obtain ⟨_, _, _, _⟩ := hk; exact execAttest_kept h
  | boot => obtain ⟨_, _, _, _, _⟩ := hk; exact execBoot_kept h
  | tempSample _ _ => obtain ⟨_, _, _, _⟩ := hk; exact execTempSample_kept h
  | voltageDroop _ _ => obtain ⟨_, _, _, _⟩ := hk; exact execVoltageDroop_kept h
  | processInterval _ _ => obtain ⟨_, _, _, _⟩ := hk; exact execProcessInterval_kept h
  | dieopWrite _ _ => obtain ⟨_, _⟩ := hk; exact execDieopWrite_kept h
  | operatingPointSettled _ => obtain ⟨_, _⟩ := hk; exact execOperatingPointSettled_kept h
  | preciseStopComplete _ _ => obtain ⟨_, _, _, _⟩ := hk; exact execPreciseStopComplete_kept h
  | traceSessionOpen _ _ _ => obtain ⟨_, _, _, _, _, _, _, _⟩ := hk; exact execTraceSessionOpen_kept h
  | traceSessionClose _ _ _ => obtain ⟨_, _, _, _, _, _, _, _⟩ := hk; exact execTraceSessionClose_kept h
  | traceRecordWrite _ _ => obtain ⟨_, _, _, _, _, _⟩ := hk; exact execTraceRecordWrite_kept h
  | cqreset _ _ => obtain ⟨_, _, _, _, _, _, _, _⟩ := hk; exact execCqreset_kept h
  | traceResetEnd _ _ => obtain ⟨_, _, _, _, _, _⟩ := hk; exact execTraceResetEnd_kept h
  | registerWrite _ _ => obtain ⟨_, _, _, _, _⟩ := hk; exact execRegisterWrite_kept h
  | spliceLinkDown _ => obtain ⟨_, _, _, _, _, _⟩ := hk; exact execSpliceLinkDown_kept h
  | spliceLinkUp _ => obtain ⟨_, _, _⟩ := hk; exact execSpliceLinkUp_kept h
  | bridgeLinkDown _ => obtain ⟨_, _, _, _⟩ := hk; exact execBridgeLinkDown_kept h
  | hostMemoryAccess _ => obtain ⟨_, _, _, _, _, _, _⟩ := hk; exact execHostMemoryAccess_kept h
  | markOffline _ _ => obtain ⟨_, _⟩ := hk; exact execMarkOffline_kept h

/-- A candidate that is taken runs its instruction, if it has one, on the machine as the choice leaves it. -/
theorem runCand_cases {s t : State} {c : Cand} (h : runCand s c = .next t) :
    (∃ u, Cand.start (tick s) c = (none, u) ∧ t = Cand.finish s 0 c u) ∨
    (∃ i u v, Cand.start (tick s) c = (some i, u) ∧ exec i u = .next v ∧ t = Cand.finish s (Cand.result s u c) c v) := by
  unfold runCand at h
  split at h
  · rename_i u hu
    cases h
    exact .inl ⟨u, hu, rfl⟩
  · rename_i i u hu
    split at h
    · rename_i v hv
      cases h
      exact .inr ⟨i, u, v, hu, hv, rfl⟩
    · cases h
    · cases h

/-- What a step can do: time passes, or the candidate chosen is taken. -/
theorem step_cases {s t : State} (h : step s = .next t) :
    (chosen s = none ∧ t = tick s) ∨
    (∃ c u, chosen s = some c ∧ Cand.start (tick s) c = (none, u) ∧ t = Cand.finish s 0 c u) ∨
    (∃ c i u v, chosen s = some c ∧ Cand.start (tick s) c = (some i, u) ∧ exec i u = .next v ∧
      t = Cand.finish s (Cand.result s u c) c v) := by
  unfold step at h
  split at h
  · rename_i hc
    cases h
    exact .inl ⟨hc, rfl⟩
  · rename_i c hc
    obtain ⟨u, hu, ht⟩ | ⟨i, u, v, hu, hv, ht⟩ := runCand_cases h
    · exact .inr (.inl ⟨c, u, hc, hu, ht⟩)
    · exact .inr (.inr ⟨c, i, u, v, hc, hu, hv, ht⟩)

theorem start_kept {K : Field → Bool} [Free K .poison] [Free K .pkgBad] [Free K .bays] [Free K .parts] [Free K .pf] [Free K .chans]
    [Free K .ecc] [Free K .flight] [Free K .inputs] [Free K .picks] [Free K .upsets] [Free K .fire] [Free K .freeCtr] {o s : State} {c i u} (h : Kept K o s)
    (e : Cand.start (tick s) c = (i, u)) : Kept K o u :=
  pair_kept e (Cand.start_kept (tick_kept h))

end Sys2Proof.Machine
end

