-- ==== Sys2Proof/Laws/Lanes.lean ====
section
/-!
SUPPORT. Sys2Proof/Laws/Lanes.lean: lanes of vectors and the values of results (R48, R50, R63, R98), once for every family: what
a slot whose results are values of its operands answers.
-/
namespace Sys2Proof.Machine

open Sys2Proof

/-! ## Lanes -/

/-- An operand's lane as bits and as a pattern. -/
theorem laneBits_toNat (v : Bool) (w j : Nat) (k : Option Token) : (laneBits v w j k).toNat = patAt v w j k := by
  unfold laneBits patAt
  split
  · simp
  · split
    · simp [lane, bits]
    · simp

theorem laneB_toNat (c : Common) (f : FormA) (w j : Nat) (m : MSet) : (laneB c f w j m).toNat = patB c f w j m.b := by
  unfold laneB patB
  split
  · simp
  · exact laneBits_toNat _ _ _ _

theorem foldr_lanes_lt (w : Nat) (l : List Nat) : l.foldr (fun x n => n * 2 ^ w + x % 2 ^ w) 0 < 2 ^ (w * l.length) := by
  induction l with
  | nil => simp
  | cons x l ih =>
    have hx : x % 2 ^ w < 2 ^ w := Nat.mod_lt _ (Nat.two_pow_pos w)
    have he : (2 : Nat) ^ (w * (l.length + 1)) = 2 ^ (w * l.length) * 2 ^ w := by rw [Nat.mul_succ, Nat.pow_add]
    simp only [List.foldr_cons, List.length_cons, he]
    nlinarith [Nat.two_pow_pos w]

theorem foldr_lanes_get (w : Nat) (l : List Nat) (j : Nat) (h : j < l.length) :
    l.foldr (fun x n => n * 2 ^ w + x % 2 ^ w) 0 / 2 ^ (w * j) % 2 ^ w = l[j] % 2 ^ w := by
  induction l generalizing j with
  | nil => simp at h
  | cons x l ih =>
    have hx : x % 2 ^ w < 2 ^ w := Nat.mod_lt _ (Nat.two_pow_pos w)
    cases j with
    | zero => simp [Nat.add_mod]
    | succ j =>
      have hd (n : Nat) : (n * 2 ^ w + x % 2 ^ w) / 2 ^ (w * (j + 1)) = n / 2 ^ (w * j) := by
        rw [Nat.mul_succ, Nat.add_comm, Nat.pow_add, Nat.mul_comm (2 ^ (w * j)), ← Nat.div_div_eq_div_mul,
          Nat.add_mul_div_right _ _ (Nat.two_pow_pos w), Nat.div_eq_of_lt hx, Nat.zero_add]
      simp only [List.foldr_cons, List.getElem_cons_succ, hd]
      exact ih j (by simpa using h)

/-- Lane j of a vector made of lanes. -/
theorem ofLanes_lane {w : Nat} {l : List Nat} {j : Nat} (hl : w * l.length ≤ 1024) (h : j < l.length) :
    ((ofLanes w l).extractLsb' (w * j) w).toNat = l[j] % 2 ^ w := by
  have h2 : l.foldr (fun x n => n * 2 ^ w + x % 2 ^ w) 0 < 2 ^ 1024 :=
    lt_of_lt_of_le (foldr_lanes_lt w l) (Nat.pow_le_pow_right Nat.two_pos hl)
  unfold ofLanes
  rw [BitVec.extractLsb'_toNat, BitVec.toNat_ofNat, Nat.mod_eq_of_lt h2, Nat.shiftRight_eq_div_pow]
  exact foldr_lanes_get w l j h

/-- The bits above the last lane are zero. -/
theorem ofLanes_above {w : Nat} {l : List Nat} {j : Nat} (h : w * l.length ≤ j) : (ofLanes w l).getLsbD j = false := by
  unfold ofLanes
  rw [BitVec.getLsbD_ofNat, Nat.testBit_lt_two_pow (lt_of_lt_of_le (foldr_lanes_lt w l) (Nat.pow_le_pow_right (by norm_num) h)),
    Bool.and_false]

/-! ## Numbers -/

theorem readInt_toNat (sg : Bool) {w : Nat} (hw : 0 < w) (x : BitVec w) :
    readInt sg w x.toNat = if sg then x.toInt else (x.toNat : Int) := by
  unfold readInt
  have hx := x.isLt
  rw [Nat.mod_eq_of_lt hx]
  cases sg
  · simp
  · simp only [Bool.true_and, decide_eq_true_eq, if_true]
    rw [BitVec.toInt_eq_toNat_cond]
    have : 2 ^ w = 2 * 2 ^ (w - 1) := by rw [← Nat.pow_succ']; congr 1; omega
    split <;> split <;> omega

/-- An exact integer brought to w bits. -/
theorem wrapTo_ofInt (w : Nat) (x : Int) : wrapTo w x = (BitVec.ofInt w x).toNat := by
  rw [wrapTo, BitVec.toNat_ofInt]

theorem wrapTo_lt (w : Nat) (x : Int) : wrapTo w x < 2 ^ w := by
  rw [wrapTo_ofInt]
  exact BitVec.isLt _

theorem extendRes_toNat {t : Ty} {w : Nat} (hw : 0 < w) (h64 : w ≤ 64) (x : BitVec w) :
    extendRes t w x.toNat = if t.signed then x.signExtend 64 else x.setWidth 64 := by
  unfold extendRes
  split
  · rw [readInt_toNat true hw, if_pos rfl, ← BitVec.toInt_inj, BitVec.toInt_ofInt, BitVec.toInt_signExtend,
      Nat.min_eq_right h64]
    have h1 := BitVec.toInt_lt (x := x)
    have h2 := BitVec.le_toInt (x := x)
    rw [BitVec.toInt_bmod_cancel, Int.bmod_eq_of_le]
    · have : (2 : Int) ^ (w - 1) ≤ 2 ^ 63 := by exact_mod_cast Nat.pow_le_pow_right (by norm_num) (by omega)
      norm_num
      omega
    · have : (2 : Int) ^ (w - 1) ≤ 2 ^ 63 := by exact_mod_cast Nat.pow_le_pow_right (by norm_num) (by omega)
      norm_num
      omega
  · rw [Nat.mod_eq_of_lt x.isLt]
    exact BitVec.eq_of_toNat_eq (by simp [word])

/-! ## Results -/

theorem Ty.width_pos (t : Ty) (v : Bool) : 0 < t.width v := by
  cases t <;> cases v <;> decide

theorem Ty.width_le (t : Ty) (v : Bool) : t.width v ≤ 64 := by
  cases t <;> cases v <;> decide

theorem Ty.width_lanes (t : Ty) (v : Bool) : t.width v * (1024 / t.width v) = 1024 := by
  cases t <;> cases v <;> decide

/-- The value made of a result per lane holds it. -/
theorem holds_resultVal {c : Common} {op : Nat → Nat} {r : Nat → BitVec (c.ty.width c.w)}
    (h : ∀ j, op j % 2 ^ c.ty.width c.w = (r j).toNat) : Holds c r (resultVal c op) := by
  unfold resultVal
  dsimp only
  refine ⟨fun hw => ⟨_, by rw [if_pos hw], fun j hj => BitVec.eq_of_toNat_eq ?_⟩, fun hw ht => ?_, fun hw ht => ?_⟩
  · rw [ofLanes_lane (by rw [List.length_map, List.length_range, Ty.width_lanes]) (by simpa using hj)]
    simpa using h j
  · rw [if_neg (by simp [hw]), if_pos ht]
    congr 1
    refine BitVec.eq_of_toNat_eq ?_
    have h1 : c.ty.width c.w = 1 := by simp [ht, Ty.width]
    have h0 := h 0
    rw [BitVec.toNat_ofNat, BitVec.toNat_setWidth, ← h0, h1, Nat.mod_mod]
  · rw [if_neg (by simp [hw]), if_neg ht]
    congr 1
    rw [← extendRes_toNat (Ty.width_pos _ _) (Ty.width_le _ _), ← h 0]
    unfold extendRes readInt
    simp

/-- What a whole set that fires runs. -/
theorem fireSlot_ready {c : Common} {b : Nat} {m : MSet} {s : State} {n go : Nat → MSet → State → State} (h : Ready c b m s) :
    fireSlot c n go s = go b m s.taken := by
  obtain ⟨h1, h2, h3⟩ := h
  have hp : m.toks.any (·.poi) = false := by simpa using fun k hk => (h2 k hk).1
  have hn : m.toks.any (·.nul) = false := by simpa using fun k hk => (h2 k hk).2
  unfold fireSlot
  simp only [h1, hp, hn, h3]
  rfl

/-- What a set that fires on the null path runs. -/
theorem fireSlot_nulled {c : Common} {b : Nat} {m : MSet} {s : State} {n go : Nat → MSet → State → State} (h : Nulled c b m s) :
    fireSlot c n go s = n b m s.taken := by
  obtain ⟨h1, h2, h3⟩ := h
  have hp : m.toks.any (·.poi) = false := by simpa using h2
  have hn : (m.toks.any (·.nul) || !predOk c m) = true := by
    rcases h3 with ⟨k, hk, hn⟩ | h3
    · simp only [Bool.or_eq_true, List.any_eq_true]
      exact .inl ⟨k, hk, hn⟩
    · simp [h3]
  unfold fireSlot
  simp only [h1, hp, hn]
  rfl

theorem fireVals_ready {c : Common} {b : Nat} {m : MSet} {s : State} {v : Nat → MSet → State → Val × Val} {n0 n1 : Val}
    (h : Ready c b m s) :
    fireVals c v n0 n1 s = .next (deliver2 c (v b m s.taken).1 (v b m s.taken).2 b m s.taken) := by
  unfold fireVals
  rw [fireSlot_ready h]

/-- A member whose result is a function of its operands' patterns computes the same function of their bits. -/
theorem computes_bits {i : Instr} {c : Common} {f : FormA} {op : Pats → Nat}
    {bop : ∀ w : Nat, BitVec w → BitVec w → BitVec w → BitVec w} (hi : ∀ s, exec i s = fireBits c f op s)
    (hop : ∀ w, 0 < w → ∀ x y z : BitVec w, w = c.ty.width c.w → op ⟨w, x.toNat, y.toNat, z.toNat⟩ % 2 ^ w = (bop w x y z).toNat) :
    Computes i c f bop := by
  intro b m s h
  refine ⟨resultVal c fun j => op (patsOf c f m j), holds_resultVal fun j => ?_, ?_⟩
  · rw [← hop _ (Ty.width_pos _ _) _ _ _ rfl]
    unfold patsOf
    simp only [laneBits_toNat, laneB_toNat]
  · rw [hi, fireBits, fireVals_ready h]
    rfl

end Sys2Proof.Machine
end

