-- ==== Sys2Proof/Laws/State.lean ====
section
/-!
SUPPORT. Sys2Proof/Laws/State.lean: numbered lists, and one lemma for each field and each update of the state, so that no later proof
unfolds a record update.
-/
namespace Sys2Proof.Machine

open Sys2Proof

/-! ## Numbered lists -/

section Lists

variable {α : Type} {m : AMap α} {j k : Nat} {v w : α} {f g : α → α}

@[simp] theorem AMap.get?_set_self : AMap.get? (AMap.set m k v) k = some v := by
  induction m with
  | nil => simp [AMap.set, AMap.get?]
  | cons e m ih =>
    obtain ⟨i, x⟩ := e
    unfold AMap.set
    split
    · simp [AMap.get?]
    · split
      · simp [AMap.get?]
      · simp only [AMap.get?]
        rw [if_neg (by omega), ih]

theorem AMap.get?_set_ne (h : j ≠ k) : AMap.get? (AMap.set m k v) j = AMap.get? m j := by
  induction m with
  | nil => simp [AMap.set, AMap.get?, Ne.symm h]
  | cons e m ih =>
    obtain ⟨i, x⟩ := e
    unfold AMap.set
    split
    · simp [AMap.get?, Ne.symm h]
    · split
      · rename_i hk
        subst hk
        simp [AMap.get?, Ne.symm h]
      · simp only [AMap.get?, ih]

@[simp] theorem AMap.getD_set_self : AMap.getD (AMap.set m k v) k w = v := by
  simp [AMap.getD]

theorem AMap.getD_set_ne (h : j ≠ k) : AMap.getD (AMap.set m k v) j w = AMap.getD m j w := by
  simp [AMap.getD, AMap.get?_set_ne h]

@[simp] theorem AMap.set_set : AMap.set (AMap.set m k v) k w = AMap.set m k w := by
  induction m with
  | nil => simp [AMap.set]
  | cons e m ih =>
    obtain ⟨i, x⟩ := e
    by_cases h : k < i
    · simp [AMap.set, h]
    · by_cases h' : k = i
      · simp [AMap.set, h']
      · simp [AMap.set, h, h', ih]

theorem AMap.get?_upd : AMap.get? (AMap.upd m k f) j = if j = k then (AMap.get? m j).map f else AMap.get? m j := by
  unfold AMap.upd
  induction m with
  | nil => simp [AMap.get?]
  | cons e m ih =>
    obtain ⟨i, x⟩ := e
    by_cases h : i = k <;> by_cases h' : i = j <;> by_cases h2 : j = k <;> simp_all [AMap.get?]

@[simp] theorem AMap.get?_upd_self : AMap.get? (AMap.upd m k f) k = (AMap.get? m k).map f := by
  simp [AMap.get?_upd]

theorem AMap.get?_upd_ne (h : j ≠ k) : AMap.get? (AMap.upd m k f) j = AMap.get? m j := by
  simp [AMap.get?_upd, h]

@[simp] theorem AMap.upd_upd : AMap.upd (AMap.upd m k f) k g = AMap.upd m k (g ∘ f) := by
  unfold AMap.upd
  rw [List.map_map]
  refine List.map_congr_left fun e _ => ?_
  by_cases h : e.1 = k <;> simp [h]

end Lists

/-! ## Fields -/

namespace State

variable {s : State} {b c g k ix isl p n ctx : Nat} {y : Bay} {i : Instr}

@[simp] theorem setBay_mem : (s.setBay b y).mem = s.mem := rfl
@[simp] theorem setBay_poison : (s.setBay b y).poison = s.poison := rfl
@[simp] theorem setBay_pkgBad : (s.setBay b y).pkgBad = s.pkgBad := rfl
@[simp] theorem setBay_parts : (s.setBay b y).parts = s.parts := rfl
@[simp] theorem setBay_pf : (s.setBay b y).pf = s.pf := rfl
@[simp] theorem setBay_boot : (s.setBay b y).boot = s.boot := rfl
@[simp] theorem setBay_link : (s.setBay b y).link = s.link := rfl
@[simp] theorem setBay_devnum : (s.setBay b y).devnum = s.devnum := rfl
@[simp] theorem setBay_chans : (s.setBay b y).chans = s.chans := rfl
@[simp] theorem setBay_spliceDown : (s.setBay b y).spliceDown = s.spliceDown := rfl
@[simp] theorem setBay_spliceDrop : (s.setBay b y).spliceDrop = s.spliceDrop := rfl
@[simp] theorem setBay_spliceOut : (s.setBay b y).spliceOut = s.spliceOut := rfl
@[simp] theorem setBay_bridgeLost : (s.setBay b y).bridgeLost = s.bridgeLost := rfl
@[simp] theorem setBay_offline : (s.setBay b y).offline = s.offline := rfl
@[simp] theorem setBay_dieop : (s.setBay b y).dieop = s.dieop := rfl
@[simp] theorem setBay_ecc : (s.setBay b y).ecc = s.ecc := rfl
@[simp] theorem setBay_zeroQ : (s.setBay b y).zeroQ = s.zeroQ := rfl
@[simp] theorem setBay_flight : (s.setBay b y).flight = s.flight := rfl
@[simp] theorem setBay_inputs : (s.setBay b y).inputs = s.inputs := rfl
@[simp] theorem setBay_picks : (s.setBay b y).picks = s.picks := rfl
@[simp] theorem setBay_flitErrs : (s.setBay b y).flitErrs = s.flitErrs := rfl
@[simp] theorem setBay_upsets : (s.setBay b y).upsets = s.upsets := rfl
@[simp] theorem setBay_readBack : (s.setBay b y).readBack = s.readBack := rfl
@[simp] theorem setBay_fire : (s.setBay b y).fire = s.fire := rfl
@[simp] theorem setBay_freeCtr : (s.setBay b y).freeCtr = s.freeCtr := rfl

@[simp] theorem send_mem : (s.send i).mem = s.mem := rfl
@[simp] theorem send_poison : (s.send i).poison = s.poison := rfl
@[simp] theorem send_pkgBad : (s.send i).pkgBad = s.pkgBad := rfl
@[simp] theorem send_bays : (s.send i).bays = s.bays := rfl
@[simp] theorem send_parts : (s.send i).parts = s.parts := rfl
@[simp] theorem send_pf : (s.send i).pf = s.pf := rfl
@[simp] theorem send_boot : (s.send i).boot = s.boot := rfl
@[simp] theorem send_link : (s.send i).link = s.link := rfl
@[simp] theorem send_devnum : (s.send i).devnum = s.devnum := rfl
@[simp] theorem send_chans : (s.send i).chans = s.chans := rfl
@[simp] theorem send_spliceDown : (s.send i).spliceDown = s.spliceDown := rfl
@[simp] theorem send_spliceDrop : (s.send i).spliceDrop = s.spliceDrop := rfl
@[simp] theorem send_spliceOut : (s.send i).spliceOut = s.spliceOut := rfl
@[simp] theorem send_bridgeLost : (s.send i).bridgeLost = s.bridgeLost := rfl
@[simp] theorem send_offline : (s.send i).offline = s.offline := rfl
@[simp] theorem send_dieop : (s.send i).dieop = s.dieop := rfl
@[simp] theorem send_ecc : (s.send i).ecc = s.ecc := rfl
@[simp] theorem send_zeroQ : (s.send i).zeroQ = s.zeroQ := rfl
@[simp] theorem send_inputs : (s.send i).inputs = s.inputs := rfl
@[simp] theorem send_picks : (s.send i).picks = s.picks := rfl
@[simp] theorem send_flitErrs : (s.send i).flitErrs = s.flitErrs := rfl
@[simp] theorem send_upsets : (s.send i).upsets = s.upsets := rfl
@[simp] theorem send_readBack : (s.send i).readBack = s.readBack := rfl
@[simp] theorem send_fire : (s.send i).fire = s.fire := rfl
@[simp] theorem send_freeCtr : (s.send i).freeCtr = s.freeCtr := rfl

@[simp] theorem setBay_bays : (s.setBay b y).bays = AMap.set s.bays b y := rfl
@[simp] theorem send_flight : (s.send i).flight = s.flight ++ [i] := rfl

@[simp] theorem modBay_mem {fb : Bay → Bay} : (s.modBay b fb).mem = s.mem := rfl
@[simp] theorem modBay_poison {fb : Bay → Bay} : (s.modBay b fb).poison = s.poison := rfl
@[simp] theorem modBay_pkgBad {fb : Bay → Bay} : (s.modBay b fb).pkgBad = s.pkgBad := rfl
@[simp] theorem modBay_parts {fb : Bay → Bay} : (s.modBay b fb).parts = s.parts := rfl
@[simp] theorem modBay_pf {fb : Bay → Bay} : (s.modBay b fb).pf = s.pf := rfl
@[simp] theorem modBay_boot {fb : Bay → Bay} : (s.modBay b fb).boot = s.boot := rfl
@[simp] theorem modBay_link {fb : Bay → Bay} : (s.modBay b fb).link = s.link := rfl
@[simp] theorem modBay_devnum {fb : Bay → Bay} : (s.modBay b fb).devnum = s.devnum := rfl
@[simp] theorem modBay_chans {fb : Bay → Bay} : (s.modBay b fb).chans = s.chans := rfl
@[simp] theorem modBay_spliceDown {fb : Bay → Bay} : (s.modBay b fb).spliceDown = s.spliceDown := rfl
@[simp] theorem modBay_spliceDrop {fb : Bay → Bay} : (s.modBay b fb).spliceDrop = s.spliceDrop := rfl
@[simp] theorem modBay_spliceOut {fb : Bay → Bay} : (s.modBay b fb).spliceOut = s.spliceOut := rfl
@[simp] theorem modBay_bridgeLost {fb : Bay → Bay} : (s.modBay b fb).bridgeLost = s.bridgeLost := rfl
@[simp] theorem modBay_offline {fb : Bay → Bay} : (s.modBay b fb).offline = s.offline := rfl
@[simp] theorem modBay_dieop {fb : Bay → Bay} : (s.modBay b fb).dieop = s.dieop := rfl
@[simp] theorem modBay_ecc {fb : Bay → Bay} : (s.modBay b fb).ecc = s.ecc := rfl
@[simp] theorem modBay_zeroQ {fb : Bay → Bay} : (s.modBay b fb).zeroQ = s.zeroQ := rfl
@[simp] theorem modBay_flight {fb : Bay → Bay} : (s.modBay b fb).flight = s.flight := rfl
@[simp] theorem modBay_inputs {fb : Bay → Bay} : (s.modBay b fb).inputs = s.inputs := rfl
@[simp] theorem modBay_picks {fb : Bay → Bay} : (s.modBay b fb).picks = s.picks := rfl
@[simp] theorem modBay_flitErrs {fb : Bay → Bay} : (s.modBay b fb).flitErrs = s.flitErrs := rfl
@[simp] theorem modBay_upsets {fb : Bay → Bay} : (s.modBay b fb).upsets = s.upsets := rfl
@[simp] theorem modBay_readBack {fb : Bay → Bay} : (s.modBay b fb).readBack = s.readBack := rfl
@[simp] theorem modBay_fire {fb : Bay → Bay} : (s.modBay b fb).fire = s.fire := rfl
@[simp] theorem modBay_freeCtr {fb : Bay → Bay} : (s.modBay b fb).freeCtr = s.freeCtr := rfl

@[simp] theorem modGate_mem {fg : Gate → Gate} : (s.modGate b g fg).mem = s.mem := rfl
@[simp] theorem modGate_poison {fg : Gate → Gate} : (s.modGate b g fg).poison = s.poison := rfl
@[simp] theorem modGate_pkgBad {fg : Gate → Gate} : (s.modGate b g fg).pkgBad = s.pkgBad := rfl
@[simp] theorem modGate_parts {fg : Gate → Gate} : (s.modGate b g fg).parts = s.parts := rfl
@[simp] theorem modGate_pf {fg : Gate → Gate} : (s.modGate b g fg).pf = s.pf := rfl
@[simp] theorem modGate_boot {fg : Gate → Gate} : (s.modGate b g fg).boot = s.boot := rfl
@[simp] theorem modGate_link {fg : Gate → Gate} : (s.modGate b g fg).link = s.link := rfl
@[simp] theorem modGate_devnum {fg : Gate → Gate} : (s.modGate b g fg).devnum = s.devnum := rfl
@[simp] theorem modGate_chans {fg : Gate → Gate} : (s.modGate b g fg).chans = s.chans := rfl
@[simp] theorem modGate_spliceDown {fg : Gate → Gate} : (s.modGate b g fg).spliceDown = s.spliceDown := rfl
@[simp] theorem modGate_spliceDrop {fg : Gate → Gate} : (s.modGate b g fg).spliceDrop = s.spliceDrop := rfl
@[simp] theorem modGate_spliceOut {fg : Gate → Gate} : (s.modGate b g fg).spliceOut = s.spliceOut := rfl
@[simp] theorem modGate_bridgeLost {fg : Gate → Gate} : (s.modGate b g fg).bridgeLost = s.bridgeLost := rfl
@[simp] theorem modGate_offline {fg : Gate → Gate} : (s.modGate b g fg).offline = s.offline := rfl
@[simp] theorem modGate_dieop {fg : Gate → Gate} : (s.modGate b g fg).dieop = s.dieop := rfl
@[simp] theorem modGate_ecc {fg : Gate → Gate} : (s.modGate b g fg).ecc = s.ecc := rfl
@[simp] theorem modGate_zeroQ {fg : Gate → Gate} : (s.modGate b g fg).zeroQ = s.zeroQ := rfl
@[simp] theorem modGate_flight {fg : Gate → Gate} : (s.modGate b g fg).flight = s.flight := rfl
@[simp] theorem modGate_inputs {fg : Gate → Gate} : (s.modGate b g fg).inputs = s.inputs := rfl
@[simp] theorem modGate_picks {fg : Gate → Gate} : (s.modGate b g fg).picks = s.picks := rfl
@[simp] theorem modGate_flitErrs {fg : Gate → Gate} : (s.modGate b g fg).flitErrs = s.flitErrs := rfl
@[simp] theorem modGate_upsets {fg : Gate → Gate} : (s.modGate b g fg).upsets = s.upsets := rfl
@[simp] theorem modGate_readBack {fg : Gate → Gate} : (s.modGate b g fg).readBack = s.readBack := rfl
@[simp] theorem modGate_fire {fg : Gate → Gate} : (s.modGate b g fg).fire = s.fire := rfl
@[simp] theorem modGate_freeCtr {fg : Gate → Gate} : (s.modGate b g fg).freeCtr = s.freeCtr := rfl

@[simp] theorem modElem_mem {fe : Element → Element} : (s.modElem b k fe).mem = s.mem := rfl
@[simp] theorem modElem_poison {fe : Element → Element} : (s.modElem b k fe).poison = s.poison := rfl
@[simp] theorem modElem_pkgBad {fe : Element → Element} : (s.modElem b k fe).pkgBad = s.pkgBad := rfl
@[simp] theorem modElem_parts {fe : Element → Element} : (s.modElem b k fe).parts = s.parts := rfl
@[simp] theorem modElem_pf {fe : Element → Element} : (s.modElem b k fe).pf = s.pf := rfl
@[simp] theorem modElem_boot {fe : Element → Element} : (s.modElem b k fe).boot = s.boot := rfl
@[simp] theorem modElem_link {fe : Element → Element} : (s.modElem b k fe).link = s.link := rfl
@[simp] theorem modElem_devnum {fe : Element → Element} : (s.modElem b k fe).devnum = s.devnum := rfl
@[simp] theorem modElem_chans {fe : Element → Element} : (s.modElem b k fe).chans = s.chans := rfl
@[simp] theorem modElem_spliceDown {fe : Element → Element} : (s.modElem b k fe).spliceDown = s.spliceDown := rfl
@[simp] theorem modElem_spliceDrop {fe : Element → Element} : (s.modElem b k fe).spliceDrop = s.spliceDrop := rfl
@[simp] theorem modElem_spliceOut {fe : Element → Element} : (s.modElem b k fe).spliceOut = s.spliceOut := rfl
@[simp] theorem modElem_bridgeLost {fe : Element → Element} : (s.modElem b k fe).bridgeLost = s.bridgeLost := rfl
@[simp] theorem modElem_offline {fe : Element → Element} : (s.modElem b k fe).offline = s.offline := rfl
@[simp] theorem modElem_dieop {fe : Element → Element} : (s.modElem b k fe).dieop = s.dieop := rfl
@[simp] theorem modElem_ecc {fe : Element → Element} : (s.modElem b k fe).ecc = s.ecc := rfl
@[simp] theorem modElem_zeroQ {fe : Element → Element} : (s.modElem b k fe).zeroQ = s.zeroQ := rfl
@[simp] theorem modElem_flight {fe : Element → Element} : (s.modElem b k fe).flight = s.flight := rfl
@[simp] theorem modElem_inputs {fe : Element → Element} : (s.modElem b k fe).inputs = s.inputs := rfl
@[simp] theorem modElem_picks {fe : Element → Element} : (s.modElem b k fe).picks = s.picks := rfl
@[simp] theorem modElem_flitErrs {fe : Element → Element} : (s.modElem b k fe).flitErrs = s.flitErrs := rfl
@[simp] theorem modElem_upsets {fe : Element → Element} : (s.modElem b k fe).upsets = s.upsets := rfl
@[simp] theorem modElem_readBack {fe : Element → Element} : (s.modElem b k fe).readBack = s.readBack := rfl
@[simp] theorem modElem_fire {fe : Element → Element} : (s.modElem b k fe).fire = s.fire := rfl
@[simp] theorem modElem_freeCtr {fe : Element → Element} : (s.modElem b k fe).freeCtr = s.freeCtr := rfl

@[simp] theorem modInst_mem {fi : Inst → Inst} : (s.modInst b g ix fi).mem = s.mem := rfl
@[simp] theorem modInst_poison {fi : Inst → Inst} : (s.modInst b g ix fi).poison = s.poison := rfl
@[simp] theorem modInst_pkgBad {fi : Inst → Inst} : (s.modInst b g ix fi).pkgBad = s.pkgBad := rfl
@[simp] theorem modInst_parts {fi : Inst → Inst} : (s.modInst b g ix fi).parts = s.parts := rfl
@[simp] theorem modInst_pf {fi : Inst → Inst} : (s.modInst b g ix fi).pf = s.pf := rfl
@[simp] theorem modInst_boot {fi : Inst → Inst} : (s.modInst b g ix fi).boot = s.boot := rfl
@[simp] theorem modInst_link {fi : Inst → Inst} : (s.modInst b g ix fi).link = s.link := rfl
@[simp] theorem modInst_devnum {fi : Inst → Inst} : (s.modInst b g ix fi).devnum = s.devnum := rfl
@[simp] theorem modInst_chans {fi : Inst → Inst} : (s.modInst b g ix fi).chans = s.chans := rfl
@[simp] theorem modInst_spliceDown {fi : Inst → Inst} : (s.modInst b g ix fi).spliceDown = s.spliceDown := rfl
@[simp] theorem modInst_spliceDrop {fi : Inst → Inst} : (s.modInst b g ix fi).spliceDrop = s.spliceDrop := rfl
@[simp] theorem modInst_spliceOut {fi : Inst → Inst} : (s.modInst b g ix fi).spliceOut = s.spliceOut := rfl
@[simp] theorem modInst_bridgeLost {fi : Inst → Inst} : (s.modInst b g ix fi).bridgeLost = s.bridgeLost := rfl
@[simp] theorem modInst_offline {fi : Inst → Inst} : (s.modInst b g ix fi).offline = s.offline := rfl
@[simp] theorem modInst_dieop {fi : Inst → Inst} : (s.modInst b g ix fi).dieop = s.dieop := rfl
@[simp] theorem modInst_ecc {fi : Inst → Inst} : (s.modInst b g ix fi).ecc = s.ecc := rfl
@[simp] theorem modInst_zeroQ {fi : Inst → Inst} : (s.modInst b g ix fi).zeroQ = s.zeroQ := rfl
@[simp] theorem modInst_flight {fi : Inst → Inst} : (s.modInst b g ix fi).flight = s.flight := rfl
@[simp] theorem modInst_inputs {fi : Inst → Inst} : (s.modInst b g ix fi).inputs = s.inputs := rfl
@[simp] theorem modInst_picks {fi : Inst → Inst} : (s.modInst b g ix fi).picks = s.picks := rfl
@[simp] theorem modInst_flitErrs {fi : Inst → Inst} : (s.modInst b g ix fi).flitErrs = s.flitErrs := rfl
@[simp] theorem modInst_upsets {fi : Inst → Inst} : (s.modInst b g ix fi).upsets = s.upsets := rfl
@[simp] theorem modInst_readBack {fi : Inst → Inst} : (s.modInst b g ix fi).readBack = s.readBack := rfl
@[simp] theorem modInst_fire {fi : Inst → Inst} : (s.modInst b g ix fi).fire = s.fire := rfl
@[simp] theorem modInst_freeCtr {fi : Inst → Inst} : (s.modInst b g ix fi).freeCtr = s.freeCtr := rfl

@[simp] theorem modCtx_mem {fc : CtxRt → CtxRt} : (s.modCtx b k fc).mem = s.mem := rfl
@[simp] theorem modCtx_poison {fc : CtxRt → CtxRt} : (s.modCtx b k fc).poison = s.poison := rfl
@[simp] theorem modCtx_pkgBad {fc : CtxRt → CtxRt} : (s.modCtx b k fc).pkgBad = s.pkgBad := rfl
@[simp] theorem modCtx_parts {fc : CtxRt → CtxRt} : (s.modCtx b k fc).parts = s.parts := rfl
@[simp] theorem modCtx_pf {fc : CtxRt → CtxRt} : (s.modCtx b k fc).pf = s.pf := rfl
@[simp] theorem modCtx_boot {fc : CtxRt → CtxRt} : (s.modCtx b k fc).boot = s.boot := rfl
@[simp] theorem modCtx_link {fc : CtxRt → CtxRt} : (s.modCtx b k fc).link = s.link := rfl
@[simp] theorem modCtx_devnum {fc : CtxRt → CtxRt} : (s.modCtx b k fc).devnum = s.devnum := rfl
@[simp] theorem modCtx_chans {fc : CtxRt → CtxRt} : (s.modCtx b k fc).chans = s.chans := rfl
@[simp] theorem modCtx_spliceDown {fc : CtxRt → CtxRt} : (s.modCtx b k fc).spliceDown = s.spliceDown := rfl
@[simp] theorem modCtx_spliceDrop {fc : CtxRt → CtxRt} : (s.modCtx b k fc).spliceDrop = s.spliceDrop := rfl
@[simp] theorem modCtx_spliceOut {fc : CtxRt → CtxRt} : (s.modCtx b k fc).spliceOut = s.spliceOut := rfl
@[simp] theorem modCtx_bridgeLost {fc : CtxRt → CtxRt} : (s.modCtx b k fc).bridgeLost = s.bridgeLost := rfl
@[simp] theorem modCtx_offline {fc : CtxRt → CtxRt} : (s.modCtx b k fc).offline = s.offline := rfl
@[simp] theorem modCtx_dieop {fc : CtxRt → CtxRt} : (s.modCtx b k fc).dieop = s.dieop := rfl
@[simp] theorem modCtx_ecc {fc : CtxRt → CtxRt} : (s.modCtx b k fc).ecc = s.ecc := rfl
@[simp] theorem modCtx_zeroQ {fc : CtxRt → CtxRt} : (s.modCtx b k fc).zeroQ = s.zeroQ := rfl
@[simp] theorem modCtx_flight {fc : CtxRt → CtxRt} : (s.modCtx b k fc).flight = s.flight := rfl
@[simp] theorem modCtx_inputs {fc : CtxRt → CtxRt} : (s.modCtx b k fc).inputs = s.inputs := rfl
@[simp] theorem modCtx_picks {fc : CtxRt → CtxRt} : (s.modCtx b k fc).picks = s.picks := rfl
@[simp] theorem modCtx_flitErrs {fc : CtxRt → CtxRt} : (s.modCtx b k fc).flitErrs = s.flitErrs := rfl
@[simp] theorem modCtx_upsets {fc : CtxRt → CtxRt} : (s.modCtx b k fc).upsets = s.upsets := rfl
@[simp] theorem modCtx_readBack {fc : CtxRt → CtxRt} : (s.modCtx b k fc).readBack = s.readBack := rfl
@[simp] theorem modCtx_fire {fc : CtxRt → CtxRt} : (s.modCtx b k fc).fire = s.fire := rfl
@[simp] theorem modCtx_freeCtr {fc : CtxRt → CtxRt} : (s.modCtx b k fc).freeCtr = s.freeCtr := rfl

@[simp] theorem modSite_mem {fs : Site → Site} : (s.modSite b k fs).mem = s.mem := rfl
@[simp] theorem modSite_poison {fs : Site → Site} : (s.modSite b k fs).poison = s.poison := rfl
@[simp] theorem modSite_pkgBad {fs : Site → Site} : (s.modSite b k fs).pkgBad = s.pkgBad := rfl
@[simp] theorem modSite_parts {fs : Site → Site} : (s.modSite b k fs).parts = s.parts := rfl
@[simp] theorem modSite_pf {fs : Site → Site} : (s.modSite b k fs).pf = s.pf := rfl
@[simp] theorem modSite_boot {fs : Site → Site} : (s.modSite b k fs).boot = s.boot := rfl
@[simp] theorem modSite_link {fs : Site → Site} : (s.modSite b k fs).link = s.link := rfl
@[simp] theorem modSite_devnum {fs : Site → Site} : (s.modSite b k fs).devnum = s.devnum := rfl
@[simp] theorem modSite_chans {fs : Site → Site} : (s.modSite b k fs).chans = s.chans := rfl
@[simp] theorem modSite_spliceDown {fs : Site → Site} : (s.modSite b k fs).spliceDown = s.spliceDown := rfl
@[simp] theorem modSite_spliceDrop {fs : Site → Site} : (s.modSite b k fs).spliceDrop = s.spliceDrop := rfl
@[simp] theorem modSite_spliceOut {fs : Site → Site} : (s.modSite b k fs).spliceOut = s.spliceOut := rfl
@[simp] theorem modSite_bridgeLost {fs : Site → Site} : (s.modSite b k fs).bridgeLost = s.bridgeLost := rfl
@[simp] theorem modSite_offline {fs : Site → Site} : (s.modSite b k fs).offline = s.offline := rfl
@[simp] theorem modSite_dieop {fs : Site → Site} : (s.modSite b k fs).dieop = s.dieop := rfl
@[simp] theorem modSite_ecc {fs : Site → Site} : (s.modSite b k fs).ecc = s.ecc := rfl
@[simp] theorem modSite_zeroQ {fs : Site → Site} : (s.modSite b k fs).zeroQ = s.zeroQ := rfl
@[simp] theorem modSite_flight {fs : Site → Site} : (s.modSite b k fs).flight = s.flight := rfl
@[simp] theorem modSite_inputs {fs : Site → Site} : (s.modSite b k fs).inputs = s.inputs := rfl
@[simp] theorem modSite_picks {fs : Site → Site} : (s.modSite b k fs).picks = s.picks := rfl
@[simp] theorem modSite_flitErrs {fs : Site → Site} : (s.modSite b k fs).flitErrs = s.flitErrs := rfl
@[simp] theorem modSite_upsets {fs : Site → Site} : (s.modSite b k fs).upsets = s.upsets := rfl
@[simp] theorem modSite_readBack {fs : Site → Site} : (s.modSite b k fs).readBack = s.readBack := rfl
@[simp] theorem modSite_fire {fs : Site → Site} : (s.modSite b k fs).fire = s.fire := rfl
@[simp] theorem modSite_freeCtr {fs : Site → Site} : (s.modSite b k fs).freeCtr = s.freeCtr := rfl

@[simp] theorem modPort_mem {fp : IslPort → IslPort} : (s.modPort b isl p fp).mem = s.mem := rfl
@[simp] theorem modPort_poison {fp : IslPort → IslPort} : (s.modPort b isl p fp).poison = s.poison := rfl
@[simp] theorem modPort_pkgBad {fp : IslPort → IslPort} : (s.modPort b isl p fp).pkgBad = s.pkgBad := rfl
@[simp] theorem modPort_parts {fp : IslPort → IslPort} : (s.modPort b isl p fp).parts = s.parts := rfl
@[simp] theorem modPort_pf {fp : IslPort → IslPort} : (s.modPort b isl p fp).pf = s.pf := rfl
@[simp] theorem modPort_boot {fp : IslPort → IslPort} : (s.modPort b isl p fp).boot = s.boot := rfl
@[simp] theorem modPort_link {fp : IslPort → IslPort} : (s.modPort b isl p fp).link = s.link := rfl
@[simp] theorem modPort_devnum {fp : IslPort → IslPort} : (s.modPort b isl p fp).devnum = s.devnum := rfl
@[simp] theorem modPort_chans {fp : IslPort → IslPort} : (s.modPort b isl p fp).chans = s.chans := rfl
@[simp] theorem modPort_spliceDown {fp : IslPort → IslPort} : (s.modPort b isl p fp).spliceDown = s.spliceDown := rfl
@[simp] theorem modPort_spliceDrop {fp : IslPort → IslPort} : (s.modPort b isl p fp).spliceDrop = s.spliceDrop := rfl
@[simp] theorem modPort_spliceOut {fp : IslPort → IslPort} : (s.modPort b isl p fp).spliceOut = s.spliceOut := rfl
@[simp] theorem modPort_bridgeLost {fp : IslPort → IslPort} : (s.modPort b isl p fp).bridgeLost = s.bridgeLost := rfl
@[simp] theorem modPort_offline {fp : IslPort → IslPort} : (s.modPort b isl p fp).offline = s.offline := rfl
@[simp] theorem modPort_dieop {fp : IslPort → IslPort} : (s.modPort b isl p fp).dieop = s.dieop := rfl
@[simp] theorem modPort_ecc {fp : IslPort → IslPort} : (s.modPort b isl p fp).ecc = s.ecc := rfl
@[simp] theorem modPort_zeroQ {fp : IslPort → IslPort} : (s.modPort b isl p fp).zeroQ = s.zeroQ := rfl
@[simp] theorem modPort_flight {fp : IslPort → IslPort} : (s.modPort b isl p fp).flight = s.flight := rfl
@[simp] theorem modPort_inputs {fp : IslPort → IslPort} : (s.modPort b isl p fp).inputs = s.inputs := rfl
@[simp] theorem modPort_picks {fp : IslPort → IslPort} : (s.modPort b isl p fp).picks = s.picks := rfl
@[simp] theorem modPort_flitErrs {fp : IslPort → IslPort} : (s.modPort b isl p fp).flitErrs = s.flitErrs := rfl
@[simp] theorem modPort_upsets {fp : IslPort → IslPort} : (s.modPort b isl p fp).upsets = s.upsets := rfl
@[simp] theorem modPort_readBack {fp : IslPort → IslPort} : (s.modPort b isl p fp).readBack = s.readBack := rfl
@[simp] theorem modPort_fire {fp : IslPort → IslPort} : (s.modPort b isl p fp).fire = s.fire := rfl
@[simp] theorem modPort_freeCtr {fp : IslPort → IslPort} : (s.modPort b isl p fp).freeCtr = s.freeCtr := rfl

@[simp] theorem modHitch_mem {fh : HitchCfg → HitchCfg} : (s.modHitch b g ctx k fh).mem = s.mem := rfl
@[simp] theorem modHitch_poison {fh : HitchCfg → HitchCfg} : (s.modHitch b g ctx k fh).poison = s.poison := rfl
@[simp] theorem modHitch_pkgBad {fh : HitchCfg → HitchCfg} : (s.modHitch b g ctx k fh).pkgBad = s.pkgBad := rfl
@[simp] theorem modHitch_parts {fh : HitchCfg → HitchCfg} : (s.modHitch b g ctx k fh).parts = s.parts := rfl
@[simp] theorem modHitch_pf {fh : HitchCfg → HitchCfg} : (s.modHitch b g ctx k fh).pf = s.pf := rfl
@[simp] theorem modHitch_boot {fh : HitchCfg → HitchCfg} : (s.modHitch b g ctx k fh).boot = s.boot := rfl
@[simp] theorem modHitch_link {fh : HitchCfg → HitchCfg} : (s.modHitch b g ctx k fh).link = s.link := rfl
@[simp] theorem modHitch_devnum {fh : HitchCfg → HitchCfg} : (s.modHitch b g ctx k fh).devnum = s.devnum := rfl
@[simp] theorem modHitch_chans {fh : HitchCfg → HitchCfg} : (s.modHitch b g ctx k fh).chans = s.chans := rfl
@[simp] theorem modHitch_spliceDown {fh : HitchCfg → HitchCfg} : (s.modHitch b g ctx k fh).spliceDown = s.spliceDown := rfl
@[simp] theorem modHitch_spliceDrop {fh : HitchCfg → HitchCfg} : (s.modHitch b g ctx k fh).spliceDrop = s.spliceDrop := rfl
@[simp] theorem modHitch_spliceOut {fh : HitchCfg → HitchCfg} : (s.modHitch b g ctx k fh).spliceOut = s.spliceOut := rfl
@[simp] theorem modHitch_bridgeLost {fh : HitchCfg → HitchCfg} : (s.modHitch b g ctx k fh).bridgeLost = s.bridgeLost := rfl
@[simp] theorem modHitch_offline {fh : HitchCfg → HitchCfg} : (s.modHitch b g ctx k fh).offline = s.offline := rfl
@[simp] theorem modHitch_dieop {fh : HitchCfg → HitchCfg} : (s.modHitch b g ctx k fh).dieop = s.dieop := rfl
@[simp] theorem modHitch_ecc {fh : HitchCfg → HitchCfg} : (s.modHitch b g ctx k fh).ecc = s.ecc := rfl
@[simp] theorem modHitch_zeroQ {fh : HitchCfg → HitchCfg} : (s.modHitch b g ctx k fh).zeroQ = s.zeroQ := rfl
@[simp] theorem modHitch_flight {fh : HitchCfg → HitchCfg} : (s.modHitch b g ctx k fh).flight = s.flight := rfl
@[simp] theorem modHitch_inputs {fh : HitchCfg → HitchCfg} : (s.modHitch b g ctx k fh).inputs = s.inputs := rfl
@[simp] theorem modHitch_picks {fh : HitchCfg → HitchCfg} : (s.modHitch b g ctx k fh).picks = s.picks := rfl
@[simp] theorem modHitch_flitErrs {fh : HitchCfg → HitchCfg} : (s.modHitch b g ctx k fh).flitErrs = s.flitErrs := rfl
@[simp] theorem modHitch_upsets {fh : HitchCfg → HitchCfg} : (s.modHitch b g ctx k fh).upsets = s.upsets := rfl
@[simp] theorem modHitch_readBack {fh : HitchCfg → HitchCfg} : (s.modHitch b g ctx k fh).readBack = s.readBack := rfl
@[simp] theorem modHitch_fire {fh : HitchCfg → HitchCfg} : (s.modHitch b g ctx k fh).fire = s.fire := rfl
@[simp] theorem modHitch_freeCtr {fh : HitchCfg → HitchCfg} : (s.modHitch b g ctx k fh).freeCtr = s.freeCtr := rfl

/-! ## Bays -/

@[simp] theorem bay_setBay : (s.setBay b y).bay b = y := AMap.getD_set_self

theorem bay_setBay_ne (h : c ≠ b) : (s.setBay b y).bay c = s.bay c := AMap.getD_set_ne h

@[simp] theorem bay_modBay {f : Bay → Bay} : (s.modBay b f).bay b = f (s.bay b) := bay_setBay

theorem bay_modBay_ne {f : Bay → Bay} (h : c ≠ b) : (s.modBay b f).bay c = s.bay c := bay_setBay_ne h

@[simp] theorem setBay_setBay {z : Bay} : (s.setBay b y).setBay b z = s.setBay b z := by
  simp [setBay]

@[simp] theorem modBay_modBay {f f' : Bay → Bay} : (s.modBay b f).modBay b f' = s.modBay b (f' ∘ f) := by
  simp [modBay]

/-- An update of a bay that leaves the bay's contexts as they were. -/
theorem ctx?_modBay {f : Bay → Bay} (h : ∀ x, (f x).ctxs = x.ctxs) : (s.modBay b f).ctx? c k = s.ctx? c k := by
  unfold ctx?
  by_cases hc : c = b
  · subst hc
    rw [bay_modBay, h]
  · rw [bay_modBay_ne hc]

theorem site?_modBay {f : Bay → Bay} (h : ∀ x, (f x).sites = x.sites) : (s.modBay b f).site? c k = s.site? c k := by
  unfold site?
  by_cases hc : c = b
  · subst hc
    rw [bay_modBay, h]
  · rw [bay_modBay_ne hc]

theorem gate_modBay {f : Bay → Bay} (h : ∀ x, (f x).gates = x.gates) : (s.modBay b f).gate c g = s.gate c g := by
  unfold gate
  by_cases hc : c = b
  · subst hc
    rw [bay_modBay, h]
  · rw [bay_modBay_ne hc]

theorem elem_modBay {f : Bay → Bay} (h : ∀ x, (f x).elems = x.elems) : (s.modBay b f).elem c k = s.elem c k := by
  unfold elem
  by_cases hc : c = b
  · subst hc
    rw [bay_modBay, h]
  · rw [bay_modBay_ne hc]

@[simp] theorem ctx?_modGate {f : Gate → Gate} : (s.modGate b g f).ctx? c k = s.ctx? c k := ctx?_modBay fun _ => rfl
@[simp] theorem site?_modGate {f : Gate → Gate} : (s.modGate b g f).site? c k = s.site? c k := site?_modBay fun _ => rfl
@[simp] theorem elem_modGate {f : Gate → Gate} : (s.modGate b g f).elem c k = s.elem c k := elem_modBay fun _ => rfl
@[simp] theorem ctx?_modInst {f : Inst → Inst} : (s.modInst b g ix f).ctx? c k = s.ctx? c k := ctx?_modGate
@[simp] theorem site?_modInst {f : Inst → Inst} : (s.modInst b g ix f).site? c k = s.site? c k := site?_modGate
@[simp] theorem elem_modInst {f : Inst → Inst} : (s.modInst b g ix f).elem c k = s.elem c k := elem_modGate
@[simp] theorem ctx?_modElem {f : Element → Element} : (s.modElem b g f).ctx? c k = s.ctx? c k := ctx?_modBay fun _ => rfl
@[simp] theorem gate_modElem {f : Element → Element} : (s.modElem b k f).gate c g = s.gate c g := gate_modBay fun _ => rfl
@[simp] theorem gate_modCtx {f : CtxRt → CtxRt} : (s.modCtx b k f).gate c g = s.gate c g := gate_modBay fun _ => rfl
@[simp] theorem elem_modCtx {f : CtxRt → CtxRt} : (s.modCtx b ctx f).elem c k = s.elem c k := elem_modBay fun _ => rfl
@[simp] theorem gate_modSite {f : Site → Site} : (s.modSite b k f).gate c g = s.gate c g := gate_modBay fun _ => rfl
@[simp] theorem ctx?_modSite {f : Site → Site} : (s.modSite b k f).ctx? c n = s.ctx? c n := ctx?_modBay fun _ => rfl
@[simp] theorem slot_modInst {f : Inst → Inst} : (s.modInst b g ix f).slot c k n = s.slot c k n := by
  simp [slot]

@[simp] theorem gate_modGate {f : Gate → Gate} : (s.modGate b g f).gate b g = f (s.gate b g) := by
  simp [gate, modGate]

@[simp] theorem inst?_modInst {f : Inst → Inst} : (s.modInst b g ix f).inst? b g ix = (s.inst? b g ix).map f := by
  simp [inst?, modInst]

/-- An update of instances leaves the hitches of every gate alone. -/
@[simp] theorem hitch?_modInst {f : Inst → Inst} : (s.modInst b g ix f).hitch? c n ctx k = s.hitch? c n ctx k := by
  unfold hitch? modInst modGate gate
  by_cases hc : c = b
  · subst hc
    rw [bay_modBay]
    by_cases hn : n = g
    · subst hn
      simp
    · rw [AMap.getD_set_ne hn]
  · rw [bay_modBay_ne hc]

@[simp] theorem modInst_modInst {f f' : Inst → Inst} :
    (s.modInst b g ix f).modInst b g ix f' = s.modInst b g ix (f' ∘ f) := by
  unfold modInst modGate
  rw [modBay_modBay]
  congr 1
  funext x
  simp

end State

end Sys2Proof.Machine
end

