-- ==== Sys2Proof/Tests/Slice0.lean ====
section
/-!
SUPPORT. Sys2Proof/Tests/Slice0.lean: tests by kernel evaluation. Words and values come from the spec's own examples (the rule is
named) or from a calculation by hand; the witnesses at the end show states that meet the premises of the statements.
-/
namespace Sys2Proof.Tests.Slice0

set_option Elab.async false

open Sys2Proof Sys2Proof.Machine

/-! ## Well-formedness: an ill-formed term for each check, beside a well-formed one -/

/-- Common parts: a scalar, a vector and a control operand of a type; TY 0xF with no targets. -/
def tc (t : Ty) (w : Bool) : Common := ⟨.always, w, t, 0, 0x7FF⟩
def tPlain : Common := ⟨.always, false, .v, 0, 0x7FF⟩
def tNone : Common := ⟨.always, false, .v, 0x7FF, 0x7FF⟩
/-- Form A with only these fields set. -/
def ta (im : Bool) (rnd : Rnd) (sat : Bool) (aux : BitVec 7) (imm : BitVec 16) : FormA := ⟨im, rnd, sat, aux, imm⟩
def ta0 : FormA := ta false .rn false 0 0
def tx : FormX := ⟨0, 0, 0, 0, .same, 0, 0⟩
def tm : FormM := ⟨0, 0, .plain, .inst, false, 0⟩
def ti : FormI := ⟨.mx, 0, 0, 0⟩
def ts : FormS := ⟨0, 0⟩

/-- Every first one is well formed, every other one is not. -/
def sifts (good bad : List Instr) : Bool := good.all (·.wf) && bad.all fun i => !i.wf

/-- R100, R80: types, rounding, saturation, AUX7, immediate, 64-bit lanes. -/
theorem test_wf_integer : sifts
    [.add (tc .s16 true) (ta true .rn true 0 7), .clz (tc .n64 false) ta0, .sel (tc .f32 false) ta0]
    [.add (tc .f32 false) ta0, .add (tc .s16 false) (ta false .rz false 0 0), .min (tc .s16 false) (ta false .rn true 0 0),
     .add (tc .s16 false) (ta false .rn false 1 0), .clz (tc .n8 false) (ta true .rn false 0 0), .add (tc .s16 false) (ta false .rn false 0 7),
     .add (tc .s64 true) ta0, .and (tc .b1 false) (ta true .rn false 0 2), .abs (tc .n8 false) ta0] = true := by decide

/-- R100: the bounds of the bit fields and of adsc. -/
theorem test_wf_fields : sifts
    [.bfx (tc .n32 false) (ta false .rn false 16 16), .adsc (tc .n32 false) (ta false .rn false 31 0)]
    [.bfx (tc .n32 false) (ta false .rn false 17 16), .bfi (tc .n32 false) (ta false .rn false 0 0), .bfx (tc .f32 false) (ta false .rn false 0 8),
     .bfx (tc .n32 false) (ta true .rn false 0 8), .adsc (tc .n32 false) (ta false .rn false 32 0)] = true := by decide

/-- R102, R106, R107: the float family, the conversions and fpk. -/
theorem test_wf_float : sifts
    [.fadd (tc .f32 false) (ta false .ru true 0 0), .fcvt (tc .f16 true) (ta false .rd false 0x1A 0), .cvi (tc .s64 false) (ta false .rn true 0 0),
     .fpk (tc .e4m3 true) (ta false .rn false 1 0)]
    [.fadd (tc .e4m3 false) ta0, .fabs (tc .f32 false) (ta false .rz false 0 0), .frint (tc .f32 false) (ta false .rn true 0 0),
     .fadd (tc .f32 false) (ta false .rn false 1 0), .fsqrt (tc .f32 false) (ta true .rn false 0 0),
     .fcvt (tc .f16 true) (ta false .rd false 0x2A 0), .fcvt (tc .f16 false) (ta false .rn false 0x00 0), .cvi (tc .s64 true) (ta false .rn true 0 0),
     .cvi (tc .s8 false) (ta false .rz true 0 0), .fpk (tc .f16 false) (ta false .rn false 1 0), .fpk (tc .f32 false) ta0] = true := by decide

/-- R108 to R111: the lane family. -/
theorem test_wf_lanes : sifts
    [.lperm (tc .s8 true) ta0, .lext (tc .b1 true) (ta false .rn false 0 1023), .lred (tc .bf16 true) (ta false .rz false 0x18 0),
     .lrot (tc .s8 true) (ta true .rn false 0 5), .lq4 (tc .f16 true) (ta false .rn false 0x30 0), .lzip (tc .s8 true) (ta false .rn false 1 0)]
    [.lperm (tc .s8 false) ta0, .lperm (tc .s64 true) ta0, .lperm (tc .s8 true) (ta false .rn false 0 1), .lzip (tc .s8 true) (ta false .rn false 2 0),
     .lext (tc .s8 true) (ta false .rn false 0 128), .lred (tc .f32 true) (ta false .rn false 0x10 0), .lred (tc .s8 true) (ta false .rn false 6 0),
     .lred (tc .s8 true) (ta false .rz false 0 0), .lred (tc .s8 true) (ta false .rn true 1 0), .lscan (tc .s8 true) (ta false .rn false 0x10 0),
     .lrot (tc .s8 true) (ta false .rn false 0 5), .lq4 (tc .f16 true) (ta false .rn false 0x38 0), .lq4 (tc .s8 true) ta0] = true := by decide

/-- R114, R115, R117, R121, R122: the token family. -/
theorem test_wf_tokens : sifts
    [.mov (tc .v true) ta0, .mov4 (tc .v false) (ta false .rn false 7 0), .const (tc .s16 false) (ta false .rn false 3 9),
     .getf (tc .n32 false) (ta false .rn false 6 0), .setf (tc .n64 false) (ta true .rn false 6 3), .count (tc .n32 false) (ta true .rn false 0 8),
     .fold (tc .s64 false) (ta true .rn true 8 4)]
    [.mov (tc .s8 false) ta0, .mov4 (tc .v false) (ta false .rn false 8 0), .ordj (tc .v true) ta0, .const (tc .q4 false) ta0,
     .const (tc .f32 false) (ta false .rn false 1 9), .getf (tc .n64 false) (ta false .rn false 6 0), .getf (tc .n64 false) (ta false .rn false 9 0),
     .setf (tc .n64 false) (ta true .rn false 7 3), .popf (tc .n64 false) (ta true .rn false 0 3), .count (tc .s32 false) ta0,
     .fold (tc .s32 false) (ta false .rn false 8 4), .fold (tc .s32 false) (ta true .rn false 16 4)] = true := by decide

/-- R83, R123 to R129: exits, returns, keep registers. -/
theorem test_wf_exits : sifts
    [.exit tNone { tx with top := .inc, field := 3, exn := 2 }, .ret tNone { tx with top := .popinc }, .kget tPlain { tx with gate := 1, hnum := 31 },
     .discard tNone tx]
    [.exit tPlain tx, .exit tNone { tx with field := 1 }, .call tNone { tx with exn := 1 }, .ret tNone tx, .ret tNone { tx with top := .pop, gate := 1 },
     .kget tPlain { tx with gate := 2 }, .kput tPlain tx, .discard tNone { tx with hnum := 1 }, .kget tPlain { tx with top := .inc }] = true := by decide

/-- R82, R185, R193, R195, R223: the memory family. -/
theorem test_wf_memory : sifts
    [.ld (tc .f32 false) { tm with ord := .acq, scope := .sys }, .ldv (tc .q4 true) tm, .stg (tc .s8 true) { tm with ord := .rel, scope := .rgn },
     .sinv tPlain { tm with lo8 := 1 }, .sdepth (tc .n32 false) tm, .fence tPlain { tm with ord := .ar, scope := .tnt },
     .xlat (tc .n64 false) { tm with lo8 := 1 }, .faadd (tc .f32 false) { tm with lo8 := 0xE0 }]
    [.ld (tc .f32 false) { tm with scope := .sys }, .ld (tc .f32 false) { tm with ord := .rel, scope := .sys }, .ld (tc .q4 false) tm, .ld (tc .f32 true) tm,
     .ldv (tc .b1 true) tm, .st (tc .f32 false) { tm with nf := true }, .stg (tc .s8 true) { tm with ord := .rel, scope := .bay },
     .ldg (tc .s64 false) tm, .ldg (tc .s8 false) { tm with site := 1 }, .sflush tPlain { tm with lo8 := 1 }, .sinv tPlain { tm with lo8 := 2 },
     .sinv tPlain { tm with scope := .bay }, .sdepth (tc .n32 false) { tm with lsid := 1 }, .fence tPlain tm, .xlat (tc .n64 false) { tm with lo8 := 2 },
     .aadd (tc .s8 false) tm, .amin (tc .s32 false) { tm with lo8 := 0x20 }, .aadd (tc .s32 false) { tm with lo8 := 0x40 },
     .aand (tc .s32 false) tm] = true := by decide

/-- R84, R238, R263 to R274: island, work and system instructions. -/
theorem test_wf_others : sifts
    [.mma tPlain { ti with rcp := 5 }, .aclr tPlain { ti with aux11 := 3 }, .sscat tPlain { ti with isl := .ss, aux11 := 1 }, .rngset tPlain { ts with imm15 := 1 },
     .srd tPlain { ts with sreg := 0x67 }, .swr (tc .n64 false) { ts with sreg := 0x22 }, .halt tNone { ts with imm15 := 9 }]
    [.mma tPlain { ti with isl := .sn }, .mma tPlain { ti with iport := 4 }, .mma tPlain { ti with aux11 := 1 }, .aclr tPlain { ti with rcp := 1 },
     .aclr tPlain { ti with aux11 := 4 }, .sscat tPlain { ti with isl := .ss }, .scopy tPlain ti, .speer tPlain { ti with isl := .sn, aux11 := 2 },
     .rngset tPlain ts, .rngnext tPlain { ts with imm15 := 1 }, .rngsteal tPlain { ts with imm15 := 4 }, .srd tPlain { ts with sreg := 0x68 },
     .swr (tc .n64 false) { ts with sreg := 0x20 }, .swr (tc .n64 false) { ts with sreg := 0x22, imm15 := 1 }, .halt tPlain ts,
     .probe tPlain { ts with sreg := 0x10 }, .trap (tc .s8 false) ts, .seed (tc .s8 false) ts] = true := by decide

/-! ## Words of the spec and what they stand for -/

/-- 04_arithmetic: a div with its remainder, an add of an immediate. -/
theorem test_word_integer :
    decodeWord 0x0A08_2204_6800_0000 = .ok (.div ⟨.always, false, .s32, 0x088, 0x08D⟩ ta0) ∧
    decodeWord 0x0184_613F_FC80_FFFB = .ok (.add ⟨.ifFalse, false, .s16, 0x184, 0x7FF⟩ (ta true .rn true 0 0xFFFB)) := by decide

/-- OP, W and TY put together by hand from R73, R75 and R79: fsub.f32 with RND = ru and SAT, T0 = span 1, slot 0, port A. -/
theorem test_word_float : decodeWord (0x41#8 ++ 0#2 ++ 0#1 ++ 0xA#4 ++ 0x080#11 ++ 0x7FF#11 ++ 0#1 ++ 3#2 ++ 1#1 ++ 0#7 ++ 0#16) =
    .ok (.fsub ⟨.always, false, .f32, 0x080, 0x7FF⟩ (ta false .ru true 0 0)) := by decide

/-- 04_arithmetic, 05_tokens_and_hitches: lext.vec.n32, mov, incf, const, count, exit, ret, kput. -/
theorem test_word_lane : decodeWord 0x622A_013F_F800_0000 = .ok (.lext ⟨.always, true, .n32, 0x004, 0x7FF⟩ ta0) := by decide
theorem test_word_token :
    decodeWord 0x701E_0140_4800_0000 = .ok (.mov ⟨.always, false, .v, 0x005, 0x009⟩ ta0) ∧
    decodeWord 0x720E_273F_F801_0001 = .ok (.const ⟨.always, false, .n64, 0x09C, 0x7FF⟩ (ta false .rn false 1 1)) ∧
    decodeWord 0x770A_0300_8400_0008 = .ok (.count ⟨.always, false, .n32, 0x00C, 0x010⟩ (ta true .rn false 0 8)) ∧
    decodeWord 0x790A_4348_8001_0000 = .ok (.incf ⟨.always, false, .n32, 0x10D, 0x110⟩ (ta false .rn false 1 0)) := by decide
theorem test_word_exit :
    decodeWord 0x805F_FFFF_F800_0048 = .ok (.exit ⟨.ifTrue, false, .v, 0x7FF, 0x7FF⟩ { tx with top := .inc, field := 1 }) ∧
    decodeWord 0x825F_FFFF_F800_00C1 = .ok (.ret ⟨.ifTrue, false, .v, 0x7FF, 0x7FF⟩ { tx with top := .pop, exn := 1 }) ∧
    decodeWord 0x855F_FFFF_F800_0000 = .ok (.kput ⟨.ifTrue, false, .v, 0x7FF, 0x7FF⟩ tx) := by decide

/-- 03_encodings, 07_sites, 09_ridge: ld.s16.acq.bay, ldg, sto.rel.rgn, ldo.acq.rgn. -/
theorem test_word_memory :
    decodeWord 0x8844_4914_0818_92FF = .ok (.ld ⟨.ifTrue, false, .s16, 0x124, 0x281⟩ ⟨3, 2, .acq, .bay, false, 0xFF⟩) ∧
    (∃ c f, decodeWord 0x8C14_0B41_8801_4000 = .ok (.ldg c f) ∧ c.ty = .f32 ∧ f.lsid = 5) ∧
    (∃ c f, decodeWord 0x8F14_033F_F808_6400 = .ok (.sto c f) ∧ f.ord = .rel ∧ f.scope = .rgn) ∧
    (∃ c f, decodeWord 0x8E15_FFFF_F808_1400 = .ok (.ldo c f) ∧ f.ord = .acq ∧ f.scope = .rgn) := by
  refine ⟨by decide, ⟨_, _, rfl, rfl, rfl⟩, ⟨_, _, rfl, rfl, rfl⟩, ⟨_, _, rfl, rfl, rfl⟩⟩

/-- 10_islands, 12_work_and_system: mma.mx, rngnext, srd. -/
theorem test_word_island : decodeWord 0xB01E_043F_F820_2800 = .ok (.mma ⟨.always, false, .v, 0x010, 0x7FF⟩ ⟨.mx, 1, 5, 0⟩) := by decide
theorem test_word_system :
    decodeWord 0xC91E_0100_4000_0000 = .ok (.rngnext ⟨.always, false, .v, 0x004, 0x008⟩ ts) ∧
    decodeWord 0xDA1E_053F_F810_0000 = .ok (.srd ⟨.always, false, .v, 0x014, 0x7FF⟩ { ts with sreg := 0x020 }) := by decide

/-- R4: the bytes of a word lie least significant first; R78, R74, R91: the empty slot, PM 11, unassigned opcodes. -/
theorem test_word_refused :
    decodeBytes ([0x48, 0, 0, 0xF8, 0xFF, 0xFF, 0x5F, 0x80, 1].map (BitVec.ofNat 8)) =
      .ok (.exit ⟨.ifTrue, false, .v, 0x7FF, 0x7FF⟩ { tx with top := .inc, field := 1 }, [1]) ∧
    decodeWord 0 = .error .empty ∧ decodeWord 0x01C0_0000_0000_0000 = .error .pm ∧ decodeWord 0x2200_0000_0000_0000 = .error .opcode ∧
    decodeWord 0xFF00_0000_0000_0000 = .error .opcode ∧ decodeWord 0x805F_FFFF_F800_0188 = .error .code ∧
    decodeWord 0x0184_613F_FC81_FFFB = .error .field := by decide

/-! ## One slot fires -/

/-- A set of three operands and a predicate at slot 0 of element 0, and the machine that fires it: bay 0 of a device whose partition
0 has one launch bound there (log 5). -/
def tSet (a b c : Val) (p : Bool) : MSet :=
  { el := 0, slot := 0, gate := 0, ix := 0, ctx := 0, a := some ⟨a, false, false⟩, b := some ⟨b, false, false⟩, c := some ⟨c, false, false⟩
    p := some (ctTok p), since := 0 }
def tState (m : MSet) : State := { placeWord State.reset 0x701E_0000_0800_0000 with fire := some (0, m) }
/-- Its context, its hitch and its instance. -/
def ctx0 : CtxRt := placedCtx 0x701E_0000_0800_0000 []
def hitch0 : HitchCfg := placedHitch 7 0 false
def inst0 : Inst := placedInst 0

/-- What tokens are under way: slot, port, value, null bit. -/
def tokens (s : State) : List (Nat × Nat × Val × Bool) := s.flight.filterMap fun i => match i with
  | .tokenArrive t => some (t.slot, t.port, t.tok.val, t.tok.nul)
  | _ => none

/-- The state after an instruction; no meaning stops. -/
def after (i : Instr) (s : State) : State := match exec i s with
  | .next t => t
  | _ => s

/-- The values that a fire sends, in order. T0 is slot 1, port A; T1 slot 2, port B. -/
def tVals (i : Instr) (a b c : Val) (p : Bool := true) : List Val := (tokens (after i (tState (tSet a b c p)))).map (·.2.2.1)
def tt (t : Ty) (w : Bool) : Common := ⟨.always, w, t, 4, 9⟩

/-- R76: T0 and then T1, with slot and port. -/
theorem test_targets : tokens (after (.mov (tt .v false) ta0) (tState (tSet (.sc 7) (.sc 0) (.sc 0) true))) =
    [(1, 0, .sc 7, false), (2, 1, .sc 7, false)] := by decide

/-- R49, by hand: −32768 − 5 wraps to 32763 and saturates to −32768. -/
theorem test_add : tVals (.add (tt .s16 false) (ta true .rn false 0 0xFFFB)) (.sc 0xFFFF_FFFF_FFFF_8000) (.sc 0) (.sc 0) = [.sc 0x7FFB, .sc 0x7FFB] ∧
    tVals (.add (tt .s16 false) (ta true .rn true 0 0xFFFB)) (.sc 0xFFFF_FFFF_FFFF_8000) (.sc 0) (.sc 0) =
      [.sc 0xFFFF_FFFF_FFFF_8000, .sc 0xFFFF_FFFF_FFFF_8000] := by decide

/-- R101: −7 / 2 is −3 with remainder −1; a zero divisor gives all ones and the dividend; the least value over −1. -/
theorem test_div :
    (tVals (.div (tt .s32 false) ta0) (.sc (-7)) (.sc 2) (.sc 0)).head? = some (.sc (-3)) ∧
    (tVals (.rem (tt .s32 false) ta0) (.sc (-7)) (.sc 2) (.sc 0)).head? = some (.sc (-1)) ∧
    (tVals (.div (tt .n16 false) ta0) (.sc 9) (.sc 0) (.sc 0)).head? = some (.sc 0xFFFF) ∧
    (tVals (.rem (tt .n16 false) ta0) (.sc 9) (.sc 0) (.sc 0)).head? = some (.sc 9) ∧
    (tVals (.div (tt .s8 false) ta0) (.sc (-128)) (.sc (-1)) (.sc 0)).head? = some (.sc (-128)) := by decide

/-- R100, by hand: a shift amount is taken modulo the width; sar keeps the sign; bfx sign-extends; −1 is less than 1 for s types only. -/
theorem test_shifts :
    (tVals (.shl (tt .n8 false) ta0) (.sc 3) (.sc 9) (.sc 0)).head? = some (.sc 6) ∧
    (tVals (.sar (tt .s8 false) ta0) (.sc (-128)) (.sc 3) (.sc 0)).head? = some (.sc (-16)) ∧
    (tVals (.bfx (tt .s32 false) (ta false .rn false 4 4)) (.sc 0xF0) (.sc 0) (.sc 0)).head? = some (.sc (-1)) ∧
    (tVals (.clt (tt .s8 false) ta0) (.sc 0xFF) (.sc 1) (.sc 0)).head? = some (.ct 1) ∧
    (tVals (.clt (tt .n8 false) ta0) (.sc 0xFF) (.sc 1) (.sc 0)).head? = some (.ct 0) := by decide

/-- R56, by hand in f32: 1 + 2^−24 is a tie that goes to even; rounded up it is 1 + 2^−23. −0 is less than no +0 but the lesser of fmin. -/
theorem test_float :
    (tVals (.fadd (tt .f32 false) ta0) (.sc 0x3F80_0000) (.sc 0x3380_0000) (.sc 0)).head? = some (.sc 0x3F80_0000) ∧
    (tVals (.fadd (tt .f32 false) (ta false .ru false 0 0)) (.sc 0x3F80_0000) (.sc 0x3380_0000) (.sc 0)).head? = some (.sc 0x3F80_0001) ∧
    (tVals (.fmin (tt .f32 false) ta0) (.sc 0) (.sc 0x8000_0000) (.sc 0)).head? = some (.sc 0x8000_0000) ∧
    (tVals (.fclt (tt .f32 false) ta0) (.sc 0x8000_0000) (.sc 0) (.sc 0)).head? = some (.ct 0) ∧
    (tVals (.fclass (tt .f32 false) ta0) (.sc 0x8000_0000) (.sc 0) (.sc 0)).head? = some (.sc 8) := by decide

/-- R58, by hand: 2.5 to s32 ties to even and rounds up to 3; −1 in f32 saturates to 0 as n8; 300 in n32 to n8 keeps 44 or clamps. -/
theorem test_convert :
    (tVals (.fcvi (tt .s32 false) (ta false .rn true 0x0A 0)) (.sc 0x4020_0000) (.sc 0) (.sc 0)).head? = some (.sc 2) ∧
    (tVals (.fcvi (tt .s32 false) (ta false .ru true 0x0A 0)) (.sc 0x4020_0000) (.sc 0) (.sc 0)).head? = some (.sc 3) ∧
    (tVals (.fcvi (tt .n8 false) (ta false .rn true 0x0A 0)) (.sc 0xBF80_0000) (.sc 0) (.sc 0)).head? = some (.sc 0) ∧
    (tVals (.cvi (tt .n8 false) (ta false .rn false 0x05 0)) (.sc 300) (.sc 0) (.sc 0)).head? = some (.sc 44) ∧
    (tVals (.cvi (tt .n8 false) (ta false .rn true 0x05 0)) (.sc 300) (.sc 0) (.sc 0)).head? = some (.sc 255) := by decide

/-- R108, R109, by hand: lane 1 of n32 lanes 5, 6, …; the sum of all lanes of one vector of ones, and void with no lane present. -/
theorem test_lanes :
    (tVals (.lext (tt .n32 true) (ta false .rn false 0 1)) (.vec (5#1024 ||| 6#1024 <<< 32)) (.sc 0) (.sc 0)).head? = some (.sc 6) ∧
    tVals (.lred (tt .n32 true) (ta false .rn false 0 0)) (.vec (5#1024 ||| 6#1024 <<< 32)) (.sc 0) (.sc 0) = [.sc 11, .ct 0] ∧
    tVals (.lred (tt .n32 true) (ta false .rn false 8 0)) (.vec (5#1024 ||| 6#1024 <<< 32)) (.sc 0) (.vec 0) = [.sc 0, .ct 1] := by decide +kernel

/-- R115: steer sends to T0 or T1, with NUL a null to the other. -/
theorem test_steer :
    tokens (after (.steer (tt .v false) ta0) (tState (tSet (.sc 7) (.ct 0) (.sc 0) true))) = [(2, 1, .sc 7, false)] ∧
    tokens (after (.steer (tt .v false) (ta false .rn false 1 0)) (tState (tSet (.sc 7) (.ct 1) (.sc 0) true))) =
      [(1, 0, .sc 7, false), (2, 1, .sc 0, true)] := by decide

/-- R20, R74: with PM 01 and P = 0 a slot sends nulls. -/
theorem test_predicate : tokens (after (.add ⟨.ifTrue, false, .s32, 4, 9⟩ ta0) (tState (tSet (.sc 7) (.sc 1) (.sc 0) false))) =
    [(1, 0, .sc 0, true), (2, 1, .sc 0, true)] := by decide

/-- R121: the first of two counts, not the last; R270: a trap freezes the instance and records 0x30. -/
theorem test_count : tVals (.count (tt .n32 false) (ta true .rn false 0 2)) (.sc 0) (.sc 0) (.sc 0) = [.sc 1, .ct 0] := by decide
theorem test_trap :
    let t := after (.trap (tt .v false) { ts with imm15 := 9 }) (tState (tSet (.sc 7) (.sc 0) (.sc 0) true))
    (t.inst? 0 0 0).map (·.st) = some .frozen ∧
      (t.part 0).records.map (fun r => match r.kind with | .fault f => (r.dseq, f.code, f.d0, f.d1) | _ => (0, 0, 0, 0)) =
        [((State.reset.part 0).dnext, 0x30, 9, 7)] := by decide

/-- R31, R123, R124: an exit holds its token until commit; a second one raises HITCH_MULTIEXIT, 0x05. -/
theorem test_exit :
    let s := tState (tSet (.sc 7) (.sc 0) (.sc 0) true)
    let t := after (.exit tNone { tx with exn := 2 }) s
    let u := after (.exit tNone { tx with exn := 3 }) { t with fire := s.fire }
    ((t.inst? 0 0 0).bind (·.exit), (u.inst? 0 0 0).map (·.st)) = (some 2, some .frozen) := by decide

/-- R274: SREG 0x006 is the region's shape, rows × 256 + columns; R264: the next chunk of an empty range has size 0. -/
theorem test_srd : (tVals (.srd (tt .v false) { ts with sreg := 6 }) (.sc 0) (.sc 0) (.sc 0)).head? = some (.sc 0x1008) := by decide
theorem test_rngnext : tVals (.rngnext (tt .v false) ts) (.sc 0) (.sc 0) (.sc 0) = [.sc 0, .sc 0] := by decide

/-- R192: a fence takes its place in the wave. -/
theorem test_fence :
    ((after (.fence tPlain { tm with ord := .rel, scope := .rgn }) (tState (tSet (.sc 0) (.sc 0) (.sc 0) true))).inst? 0 0 0).map
      (fun i => i.fired) = some [0] := by decide

/-! ## Worked examples of the spec -/

/-- R88: W0 of PAR, DMIN 2, DMAX 4, one 8-bit field, a span of two, one entry. -/
theorem test_header :
    let h : HitchCfg := { hitch0 with words := [0x4040_C413_8000_0000, 0, 0, 0, 0, 0, 0, 0] }
    (h.mode, h.dmin, h.dmax, h.spanLen, h.entries, h.widths) = (1, 2, 4, 2, 1, [8]) := by decide

/-- R151: 64 drops to 32; marked replies to earlier requests change nothing; 32 unmarked ones raise it to 33; a marked one halves it. -/
theorem test_window :
    let old (w : Win) : Win := winReply w 90 120 true
    let plain (w : Win) : Win := winReply w 91 120 false
    let w1 := winReply Win.reset 10 100 true
    let w2 := old (old (old w1))
    let w3 := (List.range 32).foldl (fun w _ => plain w) w2
    (w1.win, w2.win, w3.win, (winReply w3 110 130 true).win) = (32, 32, 33, 16) := by decide

/-- R241: C0 for M = N = K = 128, e4m3 operands, tile A1 and overwrite. -/
theorem test_mma_recipe :
    let r := Recipe.of [0x1FFF_DDDB_0000_0000]
    (r.kind, r.m, r.n, r.k) = (1, 128, 128, 128) ∧ (r.tya, r.tyb, r.mmaAcc, r.ovw) = (Ty.e4m3, Ty.e4m3, 1, true) := by decide

/-- R246: the drain with FMT 10 of a 2 × 2 corner. -/
theorem test_drain :
    drainImage 2 (Recipe.of [word (1 * 2 ^ 53 + 1 * 2 ^ 46 + 2 * 2 ^ 42)])
      ⟨[(0, 0x4040_0000), (1, 0xC3FA_0000), (128, 0x3C23_D70A)], []⟩ = [[0x3C, 0xF8], [0x7A, 0x00], [0x20, 0x10]] := by decide

/-- R384: with TEMPTHR 90 °C and TEMPHYS 5 °C the readings 89, 91, 88, 92, 84, 90 °C give alarms at 91 and 90. -/
theorem test_thermal :
    (([89, 91, 88, 92, 84, 90].foldl (fun (r : State × List Nat) t =>
      let u := after (.tempSample 0 (BitVec.ofNat 32 (16 * t))) r.1
      (u, if u.pf.records.length + (u.part 0).records.length = r.1.pf.records.length + (r.1.part 0).records.length then r.2 else r.2 ++ [t]))
      (placeWord State.reset 0, [])).2) = [91, 90] := by decide

/-- R341: the worked translation: a write through a 2 MiB page, whose head takes A and D. -/
def walkState : State :=
  let s := placeWord State.reset 0
  let s := s.modPart 0 fun p => { p with troot := word (0x80_0020_0000 + 1) }
  let put (s : State) (a : Nat) (v : Word) : State := s.writeBytes a (leBytes 8 v.toNat) false
  put (put (put (put s 0x80_0020_0000 0x8010_0080_0010_0000) 0x80_0010_1000 0x8010_0080_0000_0000) 0x80_0000_0918 0x8E00_0012_3440_0000)
    0x80_0000_0900 0x8E00_0012_3440_0000

theorem test_walk :
    (match translateVa walkState 0 0 0x0000_0040_0123_4568 needW with
      | .ok l t => (l.pa, t.readWord 0x80_0000_0900)
      | _ => (0, 0)) = (0x12_3443_4568, 0x8F80_0012_3440_0000) := by decide +kernel

/-- R196, by hand: the count up to a bound wraps to 0, the count down to the bound. -/
theorem test_atomics :
    (atomicNew 0x9E .n32 .rn false 7 7 0, atomicNew 0x9E .n32 .rn false 6 7 0, atomicNew 0x9F .n32 .rn false 0 7 0,
      atomicNew 0x9F .n32 .rn false 9 7 0, atomicNew 0x96 .s32 .rn true 0x7FFF_FFFF 1 0) = (0, 7, 7, 7, 0x7FFF_FFFF) := by decide

/-! ## Steps of the machine -/

/-- R385: an operating point is taken up, a write while it settles is dropped, and 4 and above are dropped. -/
theorem test_dieop :
    let s := after (.dieopWrite 1 2) State.reset
    (s.dieOp 1, s.dieOp 0, (after (.dieopWrite 1 3) s).dieOp 1, (after (.operatingPointSettled 1) s).dieOp 1,
      (after (.dieopWrite 0 4) s).dieOp 0) = (⟨2, true⟩, ⟨0, false⟩, ⟨2, true⟩, ⟨2, false⟩, ⟨0, false⟩) := by decide

/-- R266: of a range of 5 the victim keeps the lower 3 and gives the upper 2. -/
theorem test_steal :
    let s := (placeWord State.reset 0).modCtx 0 0 fun c => { c with rngCur := 10, rngHi := 15, rngChunk := 1 }
    let t := after (.steal 0 (workPacket 0 0 0 0 0 0 0)) s
    (t.ctx? 0 0).map (fun c => (c.rngCur, c.rngHi)) = some (10, 13) := by decide

/-- R309, R310: writes that cannot be sequenced are counted: one of the wrong size, one again, one past a gap. -/
theorem test_port :
    let s := placeWord State.reset 0
    let w (n size : Nat) : PortWrite := ⟨size, true, BitVec.ofNat 1280 n⟩
    let p := (after (.launchRecordWrite 0 (w 5 64)) (after (.launchRecordWrite 0 (w 0 64)) (after (.launchRecordWrite 0 (w 1 32)) s))).part 0
    (p.hbad, p.hdup, p.hgapCnt, p.hgapSeq, p.hacc) = (1, 1, 1, 5, 0) := by decide +kernel

/-- R314, R316: a bay is marked offline and back; the link goes down and up once more. -/
theorem test_offline : (after (.markOffline 3 true) State.reset).offline = [3] ∧
    (after (.markOffline 3 false) (after (.markOffline 3 true) State.reset)).offline = [] := by decide
theorem test_link :
    let s := after .linkUp (after .linkDown (placeWord State.reset 0))
    (s.link, (s.part 0).lossCnt, (s.part 0).epoch, s.pf.lossCnt) = (0, 1, 1, 1) := by decide

/-- A placed word is what the next step runs (log 5): mov sends, and the sets it came from are gone. -/
theorem test_placed :
    (match step (State.reset.withFetchWord 64 0x701E_0000_0800_0000) with
      | .next t => ((t.elem 0 0).issue.length, t.flight.length)
      | _ => (9, 9)) = (0, 2) := by decide

/-- Memory: the last write is read, a zero on the die leaves no cell, and the cells stay in order. -/
theorem test_memory :
    let a := loftKey 0 0
    let s := (State.reset.writeBytes (a + 5) [1, 2] false).writeBytes a [3, 0] false
    let t := s.writeBytes (a + 5) [0] false
    (s.byte (a + 5), s.byte (a + 6), s.byte a, t.mem.length, Memory.wf t) = (1, 2, 3, 2, true) := by decide

/-! ## Witnesses: states and operands that meet the premises of the statements -/

/-- A set of clean operands with PM 00 fires whole. -/
theorem ready_set (c : Common) (h : c.pm = .always) (a b d : Val) (p : Bool) : Ready c 0 (tSet a b d p) (tState (tSet a b d p)) :=
  ⟨rfl, by simp [tSet, MSet.toks, ctTok], by simp [predOk, h]⟩

/-- A scalar set, and its machine. -/
def m0 : MSet := tSet (.sc 7) (.sc 2) (.sc 0) true
def s0 : State := tState m0

/-- IntegerBits, DivisionTable, IntegerCompares, FloatRounds, LaneMoves, LaneMasks, TagValues, IslandCommands: scalar and vector sets. -/
theorem wit_ready : Ready (tt .s16 false) 0 m0 s0 ∧
    Ready (tt .n8 true) 0 (tSet (.vec 5) (.vec 3) (.vec 1) true) (tState (tSet (.vec 5) (.vec 3) (.vec 1) true)) :=
  ⟨ready_set _ rfl _ _ _ _, ready_set _ rfl _ _ _ _⟩

/-- IntegerWraps and IntegerSaturates. -/
theorem wit_IntegerWraps : (ta false .rn false 0 0).sat = false ∧ (ta false .rn true 0 0).sat = true ∧ Ready (tt .s16 false) 0 m0 s0 :=
  ⟨rfl, rfl, ready_set _ rfl _ _ _ _⟩

/-- IntegerSelects: the whole lane, and its last bit. -/
theorem wit_IntegerSelects :
    (0 < fieldLen (ta false .rn false 0 16) ∧ fieldLow (ta false .rn false 0 16) + fieldLen (ta false .rn false 0 16) ≤ (Ty.s16).width false) ∧
    (0 < fieldLen (ta false .rn false 15 1) ∧ fieldLow (ta false .rn false 15 1) + fieldLen (ta false .rn false 15 1) ≤ (Ty.s16).width false) := by
  decide

/-- FloatNaN, FloatPicks, FloatClass: NaNs at ports A, B and C of f32. -/
def mNan : MSet := tSet (.sc 0x7FC0_0001) (.sc 0xFF80_0001) (.sc 0x7FFF_FFFF) true
theorem wit_FloatNaN : (tt .f32 false).ty.isFloat = true ∧ Ready (tt .f32 false) 0 mNan (tState mNan) ∧
    (laneF (tt .f32 false) 0 mNan.a).isNan = true ∧ (laneFB (tt .f32 false) ta0 0 mNan).isNan = true ∧
    (laneF (tt .f32 false) 0 mNan.c).isNan = true := ⟨rfl, ready_set _ rfl _ _ _ _, by decide, by decide, by decide⟩

/-- FloatCompares: two operands that are not NaN: the two zeros. -/
theorem wit_FloatCompares : ((fmtOf .f32).decode 0).isNan = false ∧ ((fmtOf .f32).decode 0x8000_0000).isNan = false ∧
    ((fmtOf .f32).decode 0).isZero = true ∧ ((fmtOf .f32).decode 0x8000_0000).isZero = true := by decide

/-- ExactUnchanged and DirectedRounding: the greatest finite and the least subnormal f16; a value below and above 1 + 2^−20. -/
theorem wit_ExactUnchanged : fmtF16 ∈ [fmtF32, fmtF16, fmtBf16, fmtE4m3, fmtE5m2] ∧ 0x7BFF < 2 ^ fmtF16.width ∧
    (fmtF16.decode 0x7BFF).isNan = false ∧ (fmtF16.decode 1).isNan = false := ⟨by simp, by decide, by decide, by decide⟩
theorem wit_DirectedRounding : fmtF16 ∈ [fmtF32, fmtF16, fmtBf16, fmtE5m2] ∧ (fmtF16.decode 0x3C00).isNan = false ∧
    (fmtF16.decode 0x3C00).le (FV.fin false 1048577 (-20)) = true ∧ (FV.fin false 1048577 (-20)).le (fmtF16.decode 0x3C01) = true :=
  ⟨by simp, by decide, by decide, by decide⟩

/-- Conversions: the types of fpk, scalar and vector, of 16 and of 8 bits. -/
theorem wit_Conversions : (tt .f16 false).ty ≠ .b1 ∧ (tt .f16 false).ty ∈ [Ty.f16, .bf16, .e4m3, .e5m2] ∧ (tt .f16 false).w = false ∧
    (tt .e5m2 true).ty ∈ [Ty.f16, .bf16, .e4m3, .e5m2] ∧ (tt .e5m2 true).w = true ∧ (tt .e5m2 true).ty.width true = 8 ∧
    Ready (tt .e5m2 true) 0 m0 s0 := ⟨by decide, by decide, rfl, by decide, rfl, rfl, ready_set _ rfl _ _ _ _⟩

/-- LaneMoves and LaneMasks: a lane that is marked, one that is not. -/
def mLane : MSet := tSet (.vec 5) (.vec 1) (.vec 0) true
theorem wit_LaneMasks : (tt .n8 true).w = true ∧ (tt .n8 true).ty ≠ .b1 ∧ Ready (tt .n8 true) 0 mLane (tState mLane) ∧
    0 ∈ markedLanes (tt .n8 true) mLane ∧ 0 < (markedLanes (tt .n8 true) mLane).length ∧ 127 ∉ markedLanes (tt .n8 true) mLane := by
  refine ⟨rfl, by decide, ready_set _ rfl _ _ _ _, ?_, ?_, ?_⟩ <;> decide +kernel

/-- LaneMasks, the blocks of lq4: the last place of a block of f32, of two of f16; places below and above. -/
theorem wit_LaneMasks_q4 : (tt .f32 true).w = true ∧ ((ta false .rn false 56 0).aux7.extractLsb' 3 3).toNat + 1 ≤ 8 ∧
    ((ta false .rn false 48 0).aux7.extractLsb' 3 3).toNat + 2 ≤ 8 ∧
    0 < ((ta false .rn false 56 0).aux7.extractLsb' 3 3).toNat ∧
    ((ta false .rn false 0 0).aux7.extractLsb' 3 3).toNat + 1 ≤ 7 := by decide

/-- IntegerSumIsOrderless. -/
theorem wit_IntegerSumIsOrderless : ta0.opsel = 0 ∧ ta0.sat = false ∧ (tt .n32 true).ty.isTo32 = true := by decide

/-- Delivery: the hitch of the set, and a target. -/
theorem wit_Delivery : s0.hitch? 0 m0.gate m0.ctx (hnumOf s0 0 m0) = some hitch0 ∧ (4#11 : Target) ≠ 0x7FF#11 := by decide

/-- NullPath: a null operand; a predicate that disagrees. -/
theorem wit_NullPath :
    let m : MSet := { m0 with a := some (nullOn (.sc 0)) }
    Nulled (tt .s16 false) 0 m (tState m) ∧ Nulled ⟨.ifFalse, false, .s16, 4, 9⟩ 0 m0 s0 :=
  ⟨⟨rfl, by simp [m0, tSet, MSet.toks, ctTok, nullOn], .inl ⟨nullOn (.sc 0), by simp [MSet.toks], rfl⟩⟩,
    ⟨rfl, by simp [m0, tSet, MSet.toks, ctTok], .inr rfl⟩⟩

/-- TokenMoves: control bits at B, a const of each kind, a route word. -/
theorem wit_TokenMoves :
    (laneBits false 1 0 (tSet (.sc 7) (.ct 1) (.sc 0) true).b = 1#1) ∧ ¬ (laneBits false 1 0 (tSet (.sc 7) (.ct 0) (.sc 0) true).b = 1#1) ∧
    (tt .s16 true).w = true ∧ (tt .s16 false).ty ≠ .b1 ∧
    AMap.get? ((s0.modElem 0 0 fun e => { e with routes := [(0, ⟨0, false, none⟩)] }).elem 0 m0.el).routes (ta0.aux7.extractLsb' 0 3).toNat =
      some ⟨0, false, none⟩ := by decide

/-- TagValues: a layout that fills the tag's 58 bits, its last field. -/
theorem wit_TagValues : [32, 26].foldl (· + ·) 0 ≤ 58 ∧ [32, 26].length ≤ 7 ∧ 1 < [32, 26].length := by decide

/-- AccumulationFires: a set that may fire; behind a lower live instance of its hitch in SEQ mode one that may not. -/
def sLower : State := (s0.modGate 0 0 fun g => { g with insts := [(0, inst0), (1, { inst0 with tag := 1 })] })
theorem wit_AccumulationFires : Ready (tt .n32 false) 0 m0 s0 ∧ s0.recReady 0 m0 = true ∧
    (let m := { m0 with ix := 1 }
     let s := { sLower with fire := some (0, m) }
     s.fire = some (0, m) ∧ s.recReady 0 m = false) := ⟨ready_set _ rfl _ _ _ _, by decide, by decide⟩

/-- ExitsAndReturns: an instance without and with an exit, a target hitch, tags that fit and do not, link values. -/
theorem wit_ExitsAndReturns : s0.inst? 0 m0.gate m0.ix = some inst0 ∧ inst0.exit = none ∧
    s0.hitchAt 0 m0.ctx tx.pos.toNat tx.gate.toNat tx.hnum.toNat = some hitch0 ∧
    (({ inst0 with exit := some 1 } : Inst).exit = some 1) ∧
    newTag [8] 0 .inc 0 0 = .ok (tagPut [8] 0 0 1) ∧ newTag [1] (tagPut [1] 0 0 1) .inc 0 0 = .error (word 0, word 1, word 1, 0) ∧
    newTag (ownWidths s0 0 m0) inst0.tag .pop 0 0 = .ok (newTag (ownWidths s0 0 m0) inst0.tag .pop 0 0 |>.toOption.getD 0) ∧
    (0x80000000#64).getLsbD 31 = true ∧ linkOk s0 0 m0 0x40 = none ∧
    linkOk (s0.modGate 0 0 fun g => { g with hitches := AMap.set g.hitches 1 (placedHitch 6 0 false) }) 0 m0 8 = some (placedHitch 6 0 false) := by
  decide

def sKeepBehind : State := s0.modGate 0 0 fun g =>
  { g with
    hitches := [(0, { hitch0 with words := [word (2 * 2 ^ 36 + 7 * 2 ^ 31 + 7 * 2 ^ 26), 0, 1, 0, 0, 0, 0, 0] })]
    insts := [(0, { inst0 with tag := tagPut [8, 8] 0 1 1 }), (1, inst0)] }
/-- KeepRegisters: a strand of this bay, one of another position, no strand; SEQ with and without a lower instance; PAR. -/
def keepHitch (mode : Nat) : HitchCfg := { hitch0 with words := [word (mode * 2 ^ 62 + 1 * 2 ^ 36 + 7 * 2 ^ 31), 0, 0, 0, 0, 0, 0, 0] }
def sKeep (mode : Nat) (tag : Word) : State := s0.modGate 0 0 fun g =>
  { g with hitches := [(0, keepHitch mode)], insts := [(0, { inst0 with tag := tag }), (1, { inst0 with tag := tag })] }
theorem wit_KeepRegisters :
    (∃ d, keepRow (s0.modGate 0 0 fun g => { g with hitches := [(0, placedHitch 0 0 false)] }) 0 m0 0 = .error d) ∧ (∃ d, keepRow (sKeep 0 (tagPut [8] 0 0 1)) 0 m0 0 = .error d) ∧
    keepRow (sKeep 0 0) 0 m0 63 = .ok 0 ∧ (sKeep 0 0).keepReady 0 0 0 0 = true ∧
    sKeepBehind.keepReady 0 0 0 0 = false ∧
    ((((sKeep 1 0).inst? 0 0 0).bind fun i => (sKeep 1 0).hitch? 0 0 i.ctx i.hnum).map (·.mode)) = some 1 := by
  refine ⟨⟨_, rfl⟩, ⟨_, rfl⟩, ?_, ?_, ?_, ?_⟩ <;> decide

/-- A physical RANDOM site over the first two lines of the bay's own loft, and a store site there, ordered or buffered. -/
def xLoad : Site :=
  { q0 := 1, q1 := word (2 * 2 ^ 30), q2 := 0, q3 := 0, poison := false, ctx := 0, isStore := false, fed := false, dep := 1, latCnt := 0
    latSum := 0, means := [], bufs := [emptyBuf], seq := 0, lifeOpen := false, key := 0, started := false, line := 0, lastIdx := none, zdone := 0
    zpart := [], stopped := none, stopBack := none, waiters := [], srels := [] }
def sSite (x : Site) : State := s0.modBay 0 fun y => { y with sites := [(0, x)] }
def mAddr (a : Word) : MSet := tSet (.sc a) (.sc 2) (.sc 0) true

/-- MemoryFires: a plain and an acquire access at the first and the last place of the window; its policy; a sound site. -/
theorem wit_MemoryFires :
    let u := (sSite xLoad).taken
    (scopeOf u 0 (mAddr 0) (Machine.Scope.code .rgn) = .ok (2, u)) ∧ siteOf u 0 0 tm = 0 ∧ u.site? 0 0 = some xLoad ∧ xLoad.poison = false ∧
    u.ctx? 0 0 = some ctx0 ∧ accessCheck (u.bay 0) ctx0 0 0 xLoad 0 4 false true = none ∧
    accessCheck (u.bay 0) ctx0 0 0 xLoad 124 4 false false = none ∧ Ready (tt .f32 false) 0 (mAddr 124) { sSite xLoad with fire := some (0, mAddr 124) } :=
  ⟨by rfl, by decide, by decide, rfl, by decide, by decide, by decide, ⟨rfl, by simp [mAddr, tSet, MSet.toks, ctTok], rfl⟩⟩

/-- MemoryFires, MemorySlotFaults: a ZSKIP store site whose pair, index 2, meets no guard, and one. -/
def xSkip : Site := { xLoad with q1 := word (2 * 2 ^ 30 + 3 * 2 ^ 19), isStore := true }
theorem wit_MemoryFires_zskip :
    let v : Vec := (BitVec.allOnes 1024 <<< 32 ||| 7#1024) &&& ~~~((BitVec.allOnes 1024 >>> 992) <<< 512) ||| 2#1024 <<< 512
    let y := (sSite xSkip).bay 0
    xSkip.isZskip = true ∧ xSkip.poison = false ∧ zskipGuard y 0 0 xSkip v = none ∧
    zskipGuard { y with guards := [⟨0, 3, 8, 4, true, 1⟩] } 0 0 xSkip v = some (8, ⟨0, 3, 8, 4, true, 1⟩) := by decide +kernel

/-- MemorySlotFaults: a scope past the policy; a poisoned site; accesses past the window and across its lines. -/
theorem wit_MemorySlotFaults :
    let u := ((sSite xLoad).modCtx 0 0 fun c => { c with scopePol := 8 + 3 }).taken
    (scopeOf u 0 (mAddr 0) 4 = .error (4, 3, 0, 0)) ∧ ({ xLoad with poison := true } : Site).poison = true ∧ tm.ord = .plain ∧ xLoad.isZskip = false ∧
    accessCheck (u.bay 0) ctx0 0 0 xLoad 128 4 false false = some (0x12, (128, 0, 4, 0)) ∧
    accessCheck (u.bay 0) ctx0 0 0 xLoad 62 4 false true = some (0x14, (62, 0, 4, 0)) := by
  refine ⟨by rfl, rfl, rfl, ?_, ?_, ?_⟩ <;> decide

/-- MemorySlotFaults: a policy that admits, with a poisoned site; an atomic past the window. -/
theorem wit_MemorySlotFaults_policy :
    let x := { xLoad with poison := true }
    let u := (sSite x).taken
    (scopeOf u 0 (mAddr 0) (Machine.Scope.code .rgn) = .ok (2, u)) ∧ u.site? 0 (siteOf u 0 0 tm) = some x ∧
    ({ tm with ord := .acq } : FormM).ord ≠ .plain ∧
    accessCheck ((sSite xLoad).bay 0) ctx0 0 0 xLoad 128 4 false false = some (0x12, (128, 0, 4, 0)) :=
  ⟨by rfl, by decide, by decide, by decide⟩

/-- NullPath: a count that may fire, a site that is no store site and one that is, a fence with and without release. -/
theorem wit_NullPath_memory : s0.recReady 0 m0 = true ∧ ((sSite xLoad).site? 0 (siteOf (sSite xLoad) 0 0 tm)).any (·.isStore) = false ∧
    ((sSite xSkip).site? 0 (siteOf (sSite xSkip) 0 0 tm)).any (·.isStore) = true ∧ ({ tm with ord := .rel } : FormM).ord = .rel ∧
    ¬ (tm.ord = .rel ∨ tm.ord = .ar) := by decide

/-- SiteQueries: the site. -/
theorem wit_SiteQueries : (sSite xLoad).site? 0 (siteOf (sSite xLoad) 0 m0.ctx tm) = some xLoad := by decide

/-- IslandCommands: in SEQ mode with and without a lower live instance of the strand. -/
def sStrand : State := s0.modGate 0 0 fun g =>
  { g with hitches := [(0, { hitch0 with words := [word (2 * 2 ^ 36 + 7 * 2 ^ 31 + 7 * 2 ^ 26), 0, 0, 0, 0, 0, 0, 0] })]
           insts := [(0, { inst0 with tag := tagPut [8, 8] 0 1 1 }), (1, inst0)] }
theorem wit_IslandCommands :
    (∃ i h, sStrand.inst? 0 m0.gate m0.ix = some i ∧ sStrand.hitch? 0 m0.gate i.ctx i.hnum = some h ∧ h.seq = true ∧
      sStrand.lowerDone 0 m0.gate m0.ix = false) ∧ s0.lowerDone 0 m0.gate m0.ix = true := ⟨⟨_, _, rfl, rfl, rfl, by decide⟩, by decide⟩

/-- A region of one row and two columns, bays 0 and 1, and a range. -/
def cPair : CtxRt := { ctx0 with rows := 1, cols := 2, map := [0, 1], rngCur := 10, rngHi := 15, rngChunk := 4 }
def sPair (c : CtxRt) : State := s0.modBay 0 fun y => { y with ctxs := [(0, c)] }

/-- RangeUnit: a range left; none left with CHUNK 0, with no neighbour, with one. A victim with five, with one; a waiting thief, another victim's
grant, a context that is not there; a probe that was asked and one that was not. -/
theorem wit_RangeUnit : heldBack s0.taken 0 m0 = false ∧ (sPair cPair).ctx? 0 m0.ctx = some cPair ∧ 0 < cPair.rngHi.toNat - cPair.rngCur.toNat ∧
    ({ cPair with rngHi := 10 } : CtxRt).rngHi.toNat - cPair.rngCur.toNat = 0 ∧ cPair.rngChunk ≠ 0 ∧ ctx0.rngChunk = 0 ∧
    (neighbour cPair 0).bind cPair.bayAt = some 1 ∧ (neighbour cPair 2).bind cPair.bayAt = none := by decide
/-- RangeUnit, SystemRegisters, SeedSlots: a set that a lower instance of its strand holds back. -/
theorem wit_held : Ready (tt .v false) 0 m0 sStrand ∧ heldBack sStrand.taken 0 m0 = true :=
  ⟨⟨rfl, by simp [m0, tSet, MSet.toks, ctTok], by simp [predOk, tt]⟩, by decide⟩
theorem wit_WorkPackets :
    let c : Common := tt .v false
    let s := (sPair cPair).modBay 0 fun y => { y with steals := [(m0, c, 1)], probes := [(mAddr 1, c, 0x20)] }
    let p := workPacket 1 0 1 0 0 0 0
    let q := workPacket 3 0 1 0 0x20 0 0
    s.ctx? 0 p.ctx = some cPair ∧ 2 ≤ cPair.rngHi.toNat - cPair.rngCur.toNat ∧ ctx0.rngHi.toNat - ctx0.rngCur.toNat < 2 ∧
    placeOf (grantFor p) (s.bay 0).steals 0 = some 0 ∧ (s.bay 0).steals[0]? = some (m0, c, 1) ∧
    (∀ e ∈ (s.bay 0).steals, e.1.ctx = p.ctx → e.2.2 ≠ (workPacket 1 0 2 0 0 0 0).src) ∧ s.ctx? 0 (workPacket 1 0 1 5 0 0 0).ctx = none ∧
    placeOf (probeFor s 0 q) (s.bay 0).probes 0 = some 0 ∧ (s.bay 0).probes[0]? = some (mAddr 1, c, 0x20) ∧
    placeOf (probeFor s0 0 q) (s0.bay 0).probes 0 = none := by decide

/-- SystemSlots: no session and an open one; breakpoints disabled and enabled. -/
def openBuf : TraceBuf := ⟨0, 1, 0x8000_0000_0000_0000, 0, 0, [], [], [], none, 0, 0, 0⟩
theorem wit_SystemSlots :
    let s := s0.modPart 0 fun p => { p with trace := [(0, openBuf)], dbgctl := true }
    traceWants s0.taken 0 m0.ctx none = false ∧ traceWants s.taken 0 m0.ctx none = true ∧ s.ctx? 0 m0.ctx = some ctx0 ∧
    (s0.part ctx0.part).brkEn = false ∧ (s.part ctx0.part).brkEn = true ∧ ctx0.stopRun = false ∧ ctx0.frozen = false := by decide

/-- SystemRegisters: the hitch; register numbers; a position of the region and one outside. -/
theorem wit_SystemRegisters : s0.ctx? 0 m0.ctx = some ctx0 ∧ s0.hitch? 0 m0.gate m0.ctx (hnumOf s0 0 m0) = some hitch0 ∧
    heldBack s0.taken 0 m0 = false ∧ ({ ts with sreg := 0x067 } : FormS).sreg.toNat = 0x060 + 7 ∧
    ({ ts with sreg := 0x022 } : FormS).sreg.toNat = 0x022 ∧ ctx0.bayAt 0 = some 0 ∧ ctx0.bayAt 128 = none := by decide

/-- A configuration of one hitch and one seed port. -/
def oHitch : ObjHitch := ⟨0, 0, 0, [0, 0, 0, 0, 0, 0, 0, 0], [], []⟩
def cfg1 : Loaded := ⟨1, 0, ⟨0, 0, 0, 1, 1, 1, [oHitch], [], [], [], [⟨0, 0, 0, 0⟩]⟩, ⟨[], (0, 0), (0, 0), (0, 0), []⟩, [], 0, 0⟩
def sSeed : State := s0.modPart 0 fun p => { p with configs := [(0, cfg1)] }

/-- SeedSlots: release actions that are complete; no launch, a port that is not there, a width that does not fit, a launch that takes
the seed, and one that is not bound with the held entries full. -/
theorem wit_SeedSlots :
    let l := placedLaunch
    heldBack sSeed.taken 0 m0 = false ∧
    releaseActions (sSeed.taken.modInst 0 m0.gate m0.ix fun i => { i with pinned := true }) 0 m0.ctx 3 =
      (true, sSeed.taken.modInst 0 m0.gate m0.ix fun i => { i with pinned := true }) ∧
    seedTarget sSeed 0 m0 5 = none ∧ seedTarget sSeed 0 m0 1 = some l ∧ l.takesSeeds = true ∧ l.seedsOpen = true ∧
    ((sSeed.part 0).loadedOf l).bind (·.seedPort 1) = none ∧ ((sSeed.part 0).loadedOf l).bind (·.seedPort 0) = some (⟨0, 0, 0, 0⟩, oHitch.cfg) ∧
    seedFits ⟨0, 0, 0, 0⟩ oHitch.cfg 0 true = false ∧ seedFits ⟨0, 0, 0, 0⟩ oHitch.cfg 0 false = true ∧
    ({ l with st := .binding } : Launch).seedsOpen = false ∧
    Config.heldSeeds ≤ ((sSeed.modPart 0 fun p => { p with seeds := List.replicate Config.heldSeeds ⟨1, none, 0, 0, scTok 0⟩ }).part 0).seeds.length := by
  refine ⟨by decide, by rfl, ?_, ?_, ?_, ?_, ?_, ?_, ?_, ?_, ?_, ?_⟩ <;> decide +kernel

/-- One launch bound on one bay; an add with two ports in slot 0, no set in the issue queue. -/
def sB : State := (placeWord State.reset 0x0108_013F_F800_0000).modElem 0 0 fun e => { e with issue := [] }
def tokM (port : Nat) : TokMsg := ⟨0, 0, 0, port, 0, 0, 0, 0, scTok 5⟩
def entM (tag : Word) : EntMsg := ⟨0, 0, 0, 0, 0, tag, scTok 5, none, 128⟩

/-- FaultsTaken: a poisoned operand of a slot instruction; an instance that is frozen, and one that is not. -/
theorem wit_FaultsTaken :
    let m : MSet := { m0 with a := some ⟨.sc 7, false, true⟩ }
    Field.fire ∈ touches (.add (tt .s16 false) ta0) ∧ (tState m).fire = some (0, m) ∧ (∃ k ∈ m.toks, k.poi = true) ∧
    s0.inst? 0 0 0 = some inst0 ∧ inst0.st ≠ .frozen ∧
    (∃ i, (s0.modInst 0 0 0 fun i => { i with st := .frozen }).inst? 0 0 0 = some i ∧ i.st = .frozen) :=
  ⟨by decide, rfl, ⟨⟨.sc 7, false, true⟩, by simp [m0, tSet, MSet.toks], rfl⟩, rfl, by decide, ⟨_, rfl, rfl⟩⟩

/-- TokensArrive: a full queue and room; an empty slot; one port; the first and the last of two operands; entry tokens with and
without a live instance, with and without room; a network; a spill block on a loft page. -/
def sFull : State := sB.modElem 0 0 fun e => { e with issue := List.replicate 16 (placedSet 0) }
def sHalf : State := sB.modElem 0 0 fun e => { e with rows := [⟨0, 0, .partly, [⟨0, 1, scTok 3, 0⟩]⟩] }
theorem wit_TokensArrive_queue : Config.issueSets ≤ issueLoad sFull 0 0 ∧ issueLoad sB 0 0 < Config.issueSets ∧ (sB.slot 0 0 1).word = 0 ∧
    (sB.slot 0 0 0).word ≠ 0 ∧ (sB.bay 0).cmps = [] ∧ (slotPorts s0 0 0 (s0.slot 0 0 0)).length ≤ 1 ∧
    1 < (slotPorts sB 0 0 (sB.slot 0 0 0)).length := by decide +kernel
theorem wit_TokensArrive_row :
    (sB.elem 0 0).rows.find? (fun r => r.gate == 0 && r.ix == 0) = some ⟨0, 0, .empty, []⟩ ∧
    (sHalf.elem 0 0).rows.find? (fun r => r.gate == 0 && r.ix == 0) = some ⟨0, 0, .partly, [⟨0, 1, scTok 3, 0⟩]⟩ ∧
    slotPorts sHalf 0 0 (sHalf.slot 0 0 0) = [0, 1] := by decide +kernel
theorem wit_TokensArrive_entry : (entM 0).chan = none ∧ sB.ctx? 0 0 = some ctx0 ∧ ctx0.halted = false ∧
    liveWith (sB.gate 0 0) 0 0 9 = none ∧ entryRoom (sB.bay 0) 0 0 = true ∧
    entryRoom ((sB.modGate 0 0 fun g => { g with ents := List.replicate 64 (entM 9) }).bay 0) 0 0 = false ∧
    liveWith (sB.gate 0 0) 0 0 0 = some 0 ∧ sB.inst? 0 0 0 = some inst0 ∧ sB.hitch? 0 0 0 0 = some hitch0 ∧
    inst0.discard = false ∧ 0 ∈ inst0.arrived ∧ 0 ∉ ({ inst0 with arrived := [] } : Inst).arrived ∧
    valNet (entM 0).tok.val = hitch0.entNet 0 ∧ debugOn sB 0 0 = false := by decide +kernel
/-- A page table with one 64 KiB loft page of position 0 at virtual address 0x1_0000, readable and writable. -/
def putWord (s : State) (a : Nat) (v : Word) : State := s.writeBytes a (leBytes 8 v.toNat) false
def sPage : State :=
  let s := sB.modPart 0 fun p => { p with troot := word (0x80_0020_0000 + 1) }
  putWord (putWord (putWord s 0x80_0020_0000 0x8010_0080_0010_0000) 0x80_0010_0000 0x8010_0080_0000_0000) 0x80_0000_0008 0x8601_0000_0000_0000
def xSpill : CtxRt := { ctx0 with waitHist := 0x1_0000 }
theorem wit_TokensArrive_spill :
    let s := (sPage.modBay 0 fun y => { y with ctxs := [(0, xSpill)] }).modElem 0 0 fun e =>
      { e with slots := AMap.upd e.slots 0 fun c => { c with hist := [0, 3] } }
    s.ctx? 0 0 = some xSpill ∧ xSpill.waitHist ≠ 0 ∧ (∃ n ∈ (s.slot 0 0 0).hist, n ≠ 0) ∧
    (∀ q ∈ (s.bay 0).xreqs, q.goal ≠ .spill 0 0) ∧
    (match translateVa s 0 0 0x1_0000 { needRW with kinds := [0, 2] } with | .ok _ _ => true | _ => false) = true := by
  refine ⟨by decide, by decide, ⟨3, by decide, by decide⟩, by decide, by decide +kernel⟩

/-- InstanceLives: a pending tag that can be admitted; instances that settle with a discard, whole, and lacking; one that is READY
and has its turn; the 63rd and the 64th
reply; a limit below, at and above its target, and a fixed one. -/
def sPend : State := sB.modGate 0 0 fun g => { g with insts := [], ents := [entM 3] }
theorem wit_InstanceLives_admit : canAdmit sPend 0 0 0 0 = true ∧ sPend.hitch? 0 0 0 0 = some hitch0 ∧ hitch0.poison = false ∧
    lowestPending (sPend.gate 0 0) 0 0 = some 3 ∧ sPend.ctx? 0 0 = some ctx0 ∧ freeIx (sPend.gate 0 0) hitch0 = some 0 := by
  decide +kernel
theorem wit_InstanceLives_settle :
    let h : HitchCfg := { hitch0 with words := hitch0.words.take 1 ++ [0xFF, 0] ++ hitch0.words.drop 3 }
    let s : State := sB.modGate 0 0 fun g => { g with hitches := [(0, h)] }
    let i : Inst := { inst0 with exit := some 0 }
    s.inst? 0 0 0 = some inst0 ∧ s.hitch? 0 0 0 0 = some h ∧ inst0.st = .live ∧ inst0.discards = false ∧
    ({ inst0 with discard := true } : Inst).discards = true ∧
    settles (s.modInst 0 0 0 fun i => { i with discard := true }) 0 0 0 = true ∧ s.inflight 0 0 0 = 0 ∧
    (i.ops.filter fun o => o.st == .waiting) = [] ∧ i.dropLsid = none ∧ i.exit ≠ none ∧
    (h.storeMask.filter fun l => !i.stores.contains l) = [] ∧ (h.keepMask.filter fun r => !i.keeps.contains r) = [] ∧
    inst0.exit = none := by decide +kernel
theorem wit_InstanceLives_commit :
    let i : Inst := { inst0 with st := .ready, exit := some 0 }
    let s := sB.modGate 0 0 fun g => { g with insts := [(0, i)] }
    s.inst? 0 0 0 = some i ∧ i.st = .ready ∧ s.lowerDone 0 0 0 = true ∧ writesOut (s.bay 0) 0 0 = 0 ∧ i.applied = 0 ∧ entriesOf s 0 0 0 = [] ∧
    commitCheck s 0 [] = .done s ∧ applyAll 0 0 0 [] (s.modInst 0 0 0 fun i => { i with applied := 1 }) =
      .done (s.modInst 0 0 0 fun i => { i with applied := 1 }) ∧ endLives s (endingSites s 0 0 0) = (true, s) := by
  refine ⟨by decide, rfl, by decide, by decide, rfl, by decide, rfl, rfl, rfl⟩
def limHitch (mean cnt : Nat) : HitchCfg := { hitch0 with words := [word (9 * 2 ^ 46), 0, 0, 0, 0, 0, 0, 0], mem := true, lim := 5, latCnt := cnt, means := [mean] }
theorem wit_InstanceLives_limit :
    let s (n : Nat) := sB.modGate 0 0 fun g => { g with hitches := [(0, limHitch n 0)] }
    (s 99).hitch? 0 0 0 0 = some (limHitch 99 0) ∧ (limHitch 99 62).latCnt < 63 ∧ (limHitch 99 63).latCnt = 63 ∧ (limHitch 99 0).means = 99 :: [] ∧
    (limHitch 99 0).dmin ≤ (limHitch 99 0).lim ∧ (limHitch 99 0).lim ≤ (limHitch 99 0).dmax ∧ (limHitch 99 0).lim < (99 + 15) / 16 ∧
    (16 + 15) / 16 < (limHitch 16 0).lim ∧ (80 + 15) / 16 = (limHitch 80 0).lim ∧ (limHitch 99 0).mem = true ∧
    ({ limHitch 99 0 with mem := false } : HitchCfg).mem = false := by decide +kernel

/-- LaunchWaves: a pending tag makes a wave due; a context that answers; the last reply of a wave; a launch that is complete. -/
theorem wit_LaunchWaves :
    let s := sB.modGate 0 0 fun g => { g with insts := [], ents := [entM 3] }
    let w : Launch := { placedLaunch with wave := some ⟨1, []⟩, wseq := 1 }
    let t := sB.modPart 0 fun p => { p with launches := [w] }
    let p := wavePacket 1 0 0 0 1 0 0 0 0
    s.launch? 0 1 = some placedLaunch ∧ s.ctx? 0 p.ctx = some ctx0 ∧ originLaunch t 0 p.ctx = some (0, w) ∧
    w.wave = some ⟨1, []⟩ ∧ 1 = p.body 212 8 := by decide +kernel
theorem wit_LaunchWaves_due : waveDue ((sB.modCtx 0 0 fun c => { c with frozen := false }).modPart 0 fun p =>
    { p with launches := [{ placedLaunch with brk := some (RecBody.blank 0x31 2) }] }) 0 { placedLaunch with brk := some (RecBody.blank 0x31 2) } = true := by
  decide +kernel
def sDone : State := sB.modGate 0 0 fun g => { g with insts := [] }
theorem wit_LaunchWaves_complete : sDone.launch? 0 1 = some placedLaunch ∧ placedLaunch.st = .bound ∧ placedLaunch.seedCnt ≤ placedLaunch.seeds ∧
    sDone.regionBays 0 0 1 = [0] ∧ outstanding sDone 0 0 = false ∧ sDone.ctx? 0 0 = some ctx0 ∧ ctx0.frozen = false ∧
    ctx0.stopRun = false ∧ (sDone.regionBays 0 0 1).foldl (spillAll 0) ((sDone.regionBays 0 0 1).foldl (endSites 0) (true, sDone)) = (true, sDone) := by
  refine ⟨by decide, rfl, by decide, by decide, by decide, by decide, rfl, rfl, rfl⟩

/-- RingNetworks: packets whose header stands and does not; heads at the row stop of bay 0: a token for bay 0, one for bay 8, which turns, into an
empty and into a full turn queue, a trace packet that turns, one for bay 1; queues of 10 flits; a packet that an output takes; a choice of
channels; a token at the boundary element of bay 72. -/
def tokP (dst : Nat) (t : Token) : Packet := tokenPacket 1 ⟨dst, 1, 0, 0, 0, 0, t, none, 128⟩
def sRing : State := s0.modStop .row 0 fun t => { t with inject := [tokP 1 (scTok 5)] }
def sHead (p : Packet) (l : List Packet) : State := (s0.modStop .row 0 fun t => { t with inCw := [p] }).modStop .col 0 fun t => { t with turn := l }
def trP : Packet := { mkPacket 5 8 1 0 0 [] false with vc := 3 }
theorem wit_RingNetworks_arrive :
    headerOk (tokP 0 (scTok 5)) = true ∧ headerOk { tokP 0 (scTok 5) with pay := [0] } = false ∧
    [FlitErr.bad].headD .none = .bad ∧ [FlitErr.none, .bad].headD .none ≠ .bad ∧
    (let p := tokenPacket 1 ⟨0, 1, 0, 0, 0, 0, vecTok 5, none, 128⟩
     headerOk p = true ∧ ((List.range p.pay.length).filter fun k => [FlitErr.none, .bad].getD (k + 1) .none = .bad) = [0] ∧
     ¬ (p.kind = 1 ∨ p.kind = 2 ∨ (p.kind = 3 ∧ p.body 220 4 = 2))) ∧
    (let p := mrepRead (reqPacket 0 1 ⟨0, 0, Config.lpddr, 0, 0, 0, none⟩ 0 6 2 64 0 0 0 0) (List.replicate 64 0) []
     headerOk p = true ∧ ((List.range p.pay.length).filter fun k => [FlitErr.none, .none, .bad].getD (k + 1) .none = .bad) = [1] ∧ p.kind = 2) := by
  decide +kernel
theorem wit_RingNetworks_head :
    (∀ p ∈ [tokP 0 (scTok 5), tokP 8 (scTok 5), tokP 1 (scTok 5)], headOf (((sHead p []).stopAt .row 0).port .cw) 0 = some 0 ∧
      (((sHead p []).stopAt .row 0).port .cw)[0]? = some p) ∧
    headOf (((sHead trP []).stopAt .row 0).port .cw) 3 = some 0 ∧
    wayOf s0 .row 0 (portCame .cw) (tokP 0 (scTok 5)) = .eject ∧ wayOf s0 .row 0 (portCame .cw) (tokP 8 (scTok 5)) = .turn ∧
    wayOf s0 .row 0 (portCame .cw) trP = .turn ∧ wayOf s0 .row 0 (portCame .cw) (tokP 1 (scTok 5)) = .out .cw ∧
    forBoundary 0 (tokP 1 (scTok 5)) = false ∧ queueFlits ((sHead trP []).stopAt .col 0).turn + (tokP 8 (scTok 5)).len ≤ 10 ∧
    ¬ queueFlits ((sHead trP (List.replicate 10 trP)).stopAt .col 0).turn + (tokP 8 (scTok 5)).len ≤ 10 := by decide +kernel
theorem wit_RingNetworks_queue : queueFlits (List.replicate 10 trP) ≤ 10 ∧ (fillQueue (List.replicate 10 trP) [trP]).2 = [trP] := by decide +kernel
def sOver : State := s0.modBay 72 fun y => { y with boundary := [tokP 152 (ctTok true)] }
theorem wit_RingNetworks_send : nextOut sRing .row 0 .cw = some (.inject, enterRing (tokP 1 (scTok 5)), 0, some 2) ∧
    forBoundary 72 (tokP 152 (ctTok true)) = true ∧ (sOver.bay 72).boundary = [tokP 152 (ctTok true)] ∧
    bridgeVc (sOver.bay 72).colStop.outBr 0 (tokP 152 (ctTok true)).len = some 0 ∧ (sOver.bay 72).colStop.rrBr = 0 ∧
    firstHead sOver .col 72 .bridge 2 = none ∧ firstHead sOver .col 72 .bridge 1 = none ∧
    nextOut sOver .col 72 .bridge = some (.boundary, tokP 152 (ctTok true), 0, some 0) := by decide +kernel
theorem wit_RingNetworks_choose : chooseVc Counts.reset false false 5 = some 0 ∧ chooseVc { Counts.reset with v0held := 11 } false false 5 = some 2 ∧
    chooseVc Counts.reset true false 5 = some 1 ∧ ({ Counts.reset with v0held := 11 } : Counts).v0held ≤ 11 := by decide

/-- A request of 4 bytes at the start of bay 0's loft slice, of each kind; poisoned bytes; a present word; requests for each goal. -/
def qReq (opc : Nat) : Packet := reqPacket 0 0 ⟨0, 0, Config.lpddr, 0, 0, 0, none⟩ opc 6 2 4 0 0 0 0
def sBad : State := { s0 with poison := [loftKey 0 0] }
def sReq (g : ReqFor) (d : Bool) : State := s0.modBay 0 fun y => { y with reqs := [⟨0, 0, 0, qReq 0, true, g, 0, 0, false, d, none⟩] }

/-- MemoryRequests, at the home. -/
theorem wit_MemoryRequests_home :
    ((List.range 5).all fun k => (qReq k).body 220 4 == k) = true ∧ headerOk (qReq 0) = true ∧ (homeLoc s0 0 (qReq 0)).key = loftKey 0 0 ∧
    (qReq 0).body 204 8 + 1 = 4 ∧ s0.poisoned (loftKey 0 0) 4 = false ∧ sBad.poisoned (loftKey 0 0) 4 = true ∧
    present (s0.bay 0) 0 0 = false ∧
    present ((s0.modBay 0 fun y => setPresent y 0 0).bay 0) 0 0 = true ∧
    (∃ r, reqOf ((sReq (.op 0 0 0) false).bay (qReq 3).src) (qReq 3) = some r ∧ r.dead = false) ∧
    (∃ r, reqOf ((sReq (.op 0 0 0) true).bay (qReq 3).src) (qReq 3) = some r ∧ r.dead = true) ∧
    Config.readersPerNode ≤ (((s0.modBay 0 fun y => { y with readers := List.replicate Config.readersPerNode ⟨nodeOf 0, 0, 0, qReq 3, none⟩ }).bay 0).readers.filter fun r =>
      r.node == nodeOf 0).length ∧
    (((sReq (.op 0 0 0) false).bay 0).readers.filter fun r => r.node == nodeOf 0).length < Config.readersPerNode := by
  refine ⟨by decide +kernel, by decide, by decide, by decide, by decide, by decide, by decide, by decide +kernel, ⟨_, rfl, rfl⟩, ⟨_, rfl, rfl⟩, by decide +kernel, by decide⟩

/-- MemoryRequests, at the requester: a fill, writes, a tile's piece, an operation, and a request that nobody waits for. -/
theorem wit_MemoryRequests_reply :
    let p := mrepOf (qReq 0) 0 0 (leBytes 4 7) false
    let o : MemOp := ⟨.load, 0, 0, 3, tt .f32 false, tm, 0, 0, scTok 0, 0, 0, .issued, 0⟩
    let s := ((sReq (.op 0 0 3) false).modBay 0 fun y => { y with sites := [(0, xLoad)] }).modInst 0 0 0 fun i => { i with ops := [o] }
    (∀ g ∈ [ReqFor.fill 0 0 0 4, .store 0 0, .back 0 0, .tile 1 0 1 0],
      (reqOf ((sReq g false).bay 0) p).map (fun r => (r.dead, r.goal)) = some (false, g)) ∧
    (∃ r, reqOf ((sReq .nothing true).bay 0) p = some r ∧ r.dead = true) ∧
    p.body 220 4 = 0 ∧ p.body 220 4 ≠ 2 ∧ (p.poi = false ∧ p.marks = []) ∧ (sSite xLoad).site? 0 0 = some xLoad ∧
    ∃ r, reqOf (s.bay 0) p = some r ∧ r.dead = false ∧ r.goal = .op 0 0 3 ∧ r.deferred = false ∧
      let t := closeReq s 0 r p.echo
      opOf t 0 ⟨0, 0, 3⟩ = some o ∧ o.kind = .load ∧ t.site? 0 (siteOf t 0 (ctxOf t 0 0 0) o.f) = some xLoad := by
  refine ⟨by decide +kernel, ⟨_, rfl, rfl⟩, by decide, by decide, by decide, by decide, _, rfl, rfl, rfl, rfl, ?_⟩
  decide +kernel
/-- MemoryRequests: an ldo whose node's list is full, and its operation. -/
theorem wit_MemoryRequests_full :
    let s := ((sReq (.op 0 0 3) false).modBay 0 fun y => { y with readers := List.replicate Config.readersPerNode ⟨nodeOf 0, 0, 0, qReq 3, none⟩ }).modInst
      0 0 0 fun i => { i with ops := [⟨.ldo, 0, 0, 3, tt .f32 false, tm, 0, 0, scTok 0, 0, 0, .issued, 0⟩] }
    let u := pumpReqs (s.modBay (qReq 3).src fun y => { y with reqs := y.reqs.filter fun q => !q.isOf (qReq 3) }) (qReq 3).src
    present (s.bay 0) 0 0 = false ∧ (reqOf (s.bay (qReq 3).src) (qReq 3)).map (fun r => (r.dead, r.goal)) = some (false, .op 0 0 3) ∧
    (opOf u 0 ⟨0, 0, 3⟩).isSome = true := by decide +kernel

/-- A stream site over two lines, its life open, with a buffer free; the 63rd and the 64th latency; means that call for a deeper, the
same and a shallower depth. -/
def xStream : Site := { xLoad with q1 := word (2 * 2 ^ 30 + 1 * 2 ^ 19), q2 := word (3 * 2 ^ 52 + 1 * 2 ^ 40), lifeOpen := true, bufs := [emptyBuf, emptyBuf], dep := 2 }
theorem wit_MemoryRequests_site :
    (sSite xStream).site? 0 0 = some xStream ∧ canStream xStream = true ∧ xStream.lineInside (xStream.patternAt xStream.line) = true ∧
    (∀ n ∈ [65, 64, 2], let x := { xStream with means := [n] }
      (sSite x).site? 0 0 = some x ∧ x.means = n :: [] ∧ x.dmin ≤ x.dep ∧ x.dep ≤ x.dmax) ∧ xStream.dep = 2 ∧
    2 < (65 + 31) / 32 ∧ (64 + 31) / 32 = 2 ∧ (2 + 31) / 32 < 2 ∧
    ({ xStream with latCnt := 62 } : Site).latCnt < 63 ∧ ({ xStream with latCnt := 63 } : Site).latCnt = 63 := by decide

/-- AtomicValues: saturating and not, f32. -/
theorem wit_AtomicValues : (∃ sat : Bool, sat = false) ∧ (∃ sat : Bool, sat = true) ∧ ∃ t : Ty, t = .f32 := ⟨⟨_, rfl⟩, ⟨_, rfl⟩, _, rfl⟩

/-- GroupAccesses: a read of a sound, a poisoned and an offline member; partials that are siblings at a stop; reduction buffers of a read
and a write that nobody is awaited for. -/
def dSum : GDesc := ⟨3, 0, word (1 * 2 ^ 60 + 2 * 2 ^ 56 + 2 ^ 54), 0⟩
def rRed (store : Bool) : RedBuf := ⟨store, 0, 0, 3, 0, 0, [0], 3, 0, dSum.g2, 0, 0, 3, 0, 0, 0, 0, [], false, 0⟩
def pPart (lo : Nat) : Packet := gpartPacket 0 1 0 1 2 0 0 5 lo 0 0 (some [7]) 0
def sRed (store : Bool) : State :=
  ((s0.modBay 0 fun y => { y with reds := [(5, rRed store)] }).modInst 0 0 0 fun i =>
    { i with ops := [⟨if store then .stg else .ldg, 0, 0, 3, tt .s16 false, tm, 0, 0, scTok 0, 0, 0, .issued, 0⟩] }).modStop .row 0 fun t =>
      { t with inCw := [pPart 0, pPart 1] }
theorem wit_GroupAccesses_home :
    let p := groupRequest 0 dSum false 0 0 5 0 0 0 0 []
    0 ∉ s0.offline ∧ 0 ∈ ({ s0 with offline := [0] } : State).offline ∧ s0.poisoned (memberKey 0 p) 2 = false ∧
    ({ s0 with poison := [memberKey 0 p] } : State).poisoned (memberKey 0 p) 2 = true := by decide +kernel
theorem wit_GroupAccesses_stop :
    let t := (sRed false).stopAt .row 0
    placeOf (fun q => q == pPart 0) (t.port .cw) 0 = some 0 ∧ siblingIn t .cw 0 (pPart 0) = some (.cw, 1) ∧ (t.port .cw)[1]? = some (pPart 1) ∧
    (pPart 0).rqid = 5 ∧ (pPart 0).poi = false ∧ (pPart 0).body 68 4 = 0 := by decide +kernel
theorem wit_GroupAccesses_end : ∀ store : Bool,
    AMap.get? ((sRed store).bay 0).reds 5 = some (rRed store) ∧ (rRed store).pend = 0 ∧ (rRed store).dead = false ∧ (rRed store).store = store ∧
    (opOf ((sRed store).modBay 0 fun y => { y with reds := AMap.erase y.reds 5 }) 0 ⟨0, 0, 3⟩).isSome = true ∧ groupStatus (rRed store) = .ok 0 ∧
    placeOf (fun d => d == 0) (rRed store).map 0 = some 0 := by
  intro store; cases store <;> exact ⟨rfl, by decide, rfl, rfl, by decide, rfl, by decide⟩

/-- A command at the head of port 0 of an island, its recipe, and what runs there. -/
def kCmd (op aux : Nat) (a b : Word) : IslCmd :=
  { op := op, c := tt .v false, f := ⟨.mx, 0, 0, BitVec.ofNat 11 aux⟩, el := 0, slot := 0, ctx := 0, gate := 0, ix := 0, tag := 0, a := a, b := b
    cc := 0, stop := false }
def sIsl (isl : Nat) (k : IslCmd) (r : List Word) (run : Option Pipe) : State :=
  (sPage.modPort 0 isl 0 fun _ => ⟨[], [k], run, 0, none, none⟩).modBay 0 fun y => { y with ctxs := AMap.upd y.ctxs 0 fun c => { c with recipes := [(0, r)] } }

/-- MatrixIsland: a command in the network; an mma of n8 by n8 whose tiles are there; drains with a route of each kind, and one that
has a token left. -/
theorem wit_MatrixIsland_accept :
    acceptNo ((s0.modPort 0 0 0 fun q => { q with net := [kCmd 0xB0 0 0 0] }).port 0 0 0) = some 0 ∧
    acceptNo ⟨List.replicate 2 (kCmd 0xBA 0 0 0), List.replicate 8 (kCmd 0xB0 0 0 0), none, 0, none, none⟩ = some 0 ∧
    ∀ x, s0.ctx? 0 (kCmd 0xB0 0 0 0).ctx = some x → x.halted = false := by
  refine ⟨by decide, by decide, fun x h => ?_⟩
  cases (show some ctx0 = some x from h); rfl
theorem wit_MatrixIsland_mma :
    let s := (sIsl 0 (kCmd 0xB0 0 0 0) [0, 0, 0, 0] none).modBay 0 fun y =>
      { y with feeds := [(0, [⟨0, 0, List.replicate 32 1, false⟩]), (1, [⟨0, 0, List.replicate 32 2, false⟩])] }
    headCmd s 0 0 0 = some (kCmd 0xB0 0 0 0) ∧ (s.port 0 0 0).stall = none ∧ mmaFeeds (cmdRecipe s 0 (kCmd 0xB0 0 0 0)) false = [(0, 32), (1, 32)] ∧
    feedTile s 0 0 0 0 = some ⟨0, 0, List.replicate 32 1, false⟩ ∧ feedTile s 0 0 1 0 = some ⟨0, 0, List.replicate 32 2, false⟩ := by decide +kernel
/-- A drain of an 8-bit tile with a route of each kind. -/
def kDrain (st : Word) : IslCmd := kCmd 0xB3 1 st 32
def sDrain (st : Word) (x : Option Pipe) : State := sIsl 0 (kDrain st) [0, word (1 * 2 ^ 46 + 2 * 2 ^ 22), 0, 0] x
def someTile : Pipe := { newPipe with tiles := [⟨0, [], [], 0, [], 0, 0⟩] }
theorem wit_MatrixIsland_routes :
    let r := cmdRecipe (sDrain 0 none) 0 (kDrain 0)
    routeKind (r.route 2) = 0 ∧ routeKind (r.route 1) = 1 ∧ routeKind (r.route 0) = 2 ∧ (kDrain 0).f.aux11.getLsbD 0 = true ∧
    (32#64).toNat % 16 = 0 ∧ newPipe.tiles = [] ∧ someTile.tiles = [⟨0, [], [], 0, [], 0, 0⟩] := by decide +kernel
def drainMeets (st : Word) (x : Option Pipe) : Prop :=
  headCmd (sDrain st x) 0 0 0 = some (kDrain st) ∧ ((sDrain st x).port 0 0 0).stall = none ∧ ((sDrain st x).port 0 0 0).run = x ∧
  dstStalled (sDrain st x) 0 0 0 (kDrain st) = false ∧ st.toNat < 8 ∧ tokenOut (sDrain st x) 0 (kDrain st) newPipe = false ∧
  landOut (sDrain st x) 0 0 0 = false ∧ routeWaits (sDrain st x) 0 (kDrain st) (drainRoute (sDrain st x) 0 (kDrain st)) = false ∧
  ioParked (sDrain st x) 0 0 0 true = false
theorem wit_MatrixIsland_drain : drainMeets 0 none ∧ drainMeets 1 (some someTile) ∧ drainMeets 2 (some newPipe) := by
  unfold drainMeets; decide +kernel

/-- Streamers: a copy that may start into memory, a feed port and a site, one that was stopped, one that reads, one with a tile under way, one
that is done; a gather that reads its index list. -/
def kCopy : IslCmd := kCmd 0xB4 0 0x10000 0x10000
def rCopy (dk : Nat) : List Word := [word (3 * 2 ^ 60 + dk * 2 ^ 58), 0, 0, 0]
theorem wit_Streamers_start : ∀ dk ∈ [0, 1, 2, 3],
    let x := { xStream with lifeOpen := false }
    let s := (sIsl 1 kCopy (rCopy dk) none).modBay 0 fun y => { y with sites := [(0, x)] }
    headCmd s 0 1 0 = some kCopy ∧ startReady s 0 1 0 = true ∧ kCopy.stop = false ∧ kCopy.a.toNat % 16 = 0 ∧ speerUp s 0 kCopy = true ∧
    (cmdRecipe s 0 kCopy).dk = dk ∧ s.site? 0 (destSite s 0 kCopy) = some x ∧ x.poison = false := by decide +kernel
theorem wit_Streamers_stopped :
    let k := { kCopy with stop := true }
    headCmd (sIsl 1 k (rCopy 2) none) 0 1 0 = some k ∧ startReady (sIsl 1 k (rCopy 2) none) 0 1 0 = true ∧ k.stop = true ∧
    endReady (sIsl 1 k (rCopy 2) (some newPipe)) 0 1 0 = true := by decide +kernel
def xVirt : Site := { xLoad with q0 := word (2 ^ 24) }
theorem wit_Streamers_index :
    let k := kCmd 0xB5 0 0x10000 0x10000
    let s := (sIsl 1 k [word (4 * 2 ^ 60), 0, 0, 0] (some newPipe)).modBay 0 fun y => { y with sites := [(0, xVirt)] }
    headCmd s 0 1 0 = some k ∧ indexReady s 0 1 0 = true ∧ s.site? 0 0 = some xVirt ∧ xVirt.poison = false ∧
    xVirt.wbase ≤ k.b.toNat ∧ k.b.toNat + 4 ≤ xVirt.wbase + xVirt.wsize ∧ k.b.toNat % 4 = 0 ∧ (cmdRecipe s 0 k).nidx = 1 ∧
    (match ioTranslate 0 1 0 k xVirt.phys 4 (cutRun (4 / 64 + 2) k.b.toNat 0 4) (served s 0 1 0) with | .ok l _ => l.length == 1 | _ => false) = true := by
  decide +kernel
theorem wit_Streamers_read :
    let s := sIsl 1 kCopy (rCopy 2) (some newPipe)
    (s.port 0 1 0).run = some newPipe ∧ readReady s 0 1 0 = true ∧ speerUp s 0 kCopy = true ∧ speerIn kCopy = false ∧
    (cmdRecipe s 0 kCopy).kind = 3 ∧ (cmdRecipe (sIsl 1 kCopy [word (4 * 2 ^ 60), 0, 0, 0] none) 0 kCopy).kind = 4 ∧
    (match ioTranslate 0 1 0 kCopy false 16 ([(0x10000, 0)].flatMap fun a => cutRun (16 / 64 + 2) a.1 a.2 16) s with | .ok l _ => l.length == 1 | _ => false) = true ∧
    ∃ t : Tile, ({ newPipe with listing := some t } : Pipe).listing = some t ∧ t.left = 0 := by
  refine ⟨by decide +kernel, by decide +kernel, by decide +kernel, by decide +kernel, by decide +kernel, by decide +kernel, by decide +kernel,
    ⟨0, [], [], 0, [], 0, 0⟩, rfl, rfl⟩
theorem wit_Streamers_arrive : ∀ dk ∈ [0, 1, 2, 3],
    let t : Tile := ⟨0, List.replicate 16 7, List.replicate 16 false, 0, [], 0, 0⟩
    let x : Pipe := { newPipe with tiles := [t], confirmed := 1 }
    let s := sIsl 1 kCopy (rCopy dk) (some x)
    headCmd s 0 1 0 = some kCopy ∧ (s.port 0 1 0).run = some x ∧ x.tiles = t :: [] ∧ arriveReady s 0 1 0 = true ∧
    (cmdRecipe s 0 kCopy).dk = dk ∧
    (t.idx + 1) * (peerFrames (cmdRecipe s 0 kCopy) kCopy.b.toNat (t.shaped (cmdRecipe s 0 kCopy))).length ≤ x.confirmed := by decide +kernel

/-- SpliceFrames. A channel, number 3 of port 2, bound to channel 7 of port 6 of device 5, which names it
in turn; frames of each kind from there. -/
def chan0 : Chan := ⟨true, 0, 5, 6, 7, false, true⟩
def fFrom (kind tile addr : Nat) : SpliceFrame :=
  ⟨2, BitVec.ofNat 256 (2 * 2 ^ 212 + 3 * 2 ^ 208 + 5 * 2 ^ 216 + 6 * 2 ^ 204 + 7 * 2 ^ 200 + kind * 2 ^ 196 + tile * 2 ^ 164 + addr * 2 ^ 100), [1, 2], false⟩
def kSpeer (inward : Bool) : IslCmd := kCmd 0xB9 (2 * 128 + 3 * 8 + if inward then 4 else 0) 0x10000 0x10000
/-- The page of sPage, in LPDDR. -/
def sMap : State := putWord { sPage with chans := [(35, chan0)] } 0x80_0000_0008 0x8600_0080_0030_0000
def sSpeer (inward : Bool) (x : Pipe) : State :=
  sMap.modPort 0 1 0 fun _ => ⟨[], [kSpeer inward], some x, 0, none, none⟩
theorem wit_SpliceFrames_ok : ∀ kind < 4, frameOk sMap kind (fFrom kind 0 0x10000) = true := by decide +kernel
theorem wit_SpliceFrames_drop : ∀ kind < 4, frameOk s0 kind (fFrom kind 0 0x10000) = false := by decide +kernel
theorem wit_SpliceFrames_speer :
    let x : Pipe := { newPipe with asked := 1 }
    speerOn (sSpeer true x) 2 3 true = some (0, 1, 0) ∧ ((sSpeer true x).port 0 1 0).run = some x ∧ x.next < x.asked ∧
    x.next % 2 ^ 32 = frameTile (fFrom 0 0 0x10000) ∧ speerOn (sSpeer false x) 2 3 false = some (0, 1, 0) ∧ speerOn sMap 2 3 true = none := by
  decide +kernel
theorem wit_SpliceFrames_memory :
    (match partWrite 0 [1, 2] false (runPieces 0x10000 2) sMap with | .ok _ _ _ => true | _ => false) = true ∧
    (match partRead 0 (runPieces 0x10000 2) sMap with | .ok _ _ _ => true | _ => false) = true := by decide +kernel
theorem wit_SpliceFrames_binding : bits (0x8000_0000_0000_0000 : Word) 0 28 = 0 ∧ bits (1 : Word) 0 28 ≠ 0 ∧ (s0.part 0).en = true ∧ (s0.part 1).en = false ∧
    bits (0x8400_0000_0000_0000 : Word) 58 5 = 1 ∧ 2 ∉ s0.spliceDown ∧ AMap.get? sMap.chans (16 * 2 + 3) = some chan0 ∧
    chan0.en = true := by decide

/-- HostPorts: the virtual function is up; writes with the number accepted last, with one before it, past a gap, and the next; launch
records that pass their checks and fail them; a priority change; a seed; a write of another size. -/
def wLaunch (hseq cfg prio rows cols nwait : Nat) : PortWrite :=
  ⟨64, true, BitVec.ofNat 1280 (hseq + cfg * 2 ^ 32 + prio * 2 ^ 64 + rows * 2 ^ 72 + cols * 2 ^ 80 + nwait * 2 ^ 88 + (if nwait = 0 then 0 else 1) * 2 ^ 128)⟩
def sTwo : State := sSeed.modPart 0 fun p => { p with hacc := 1, launches := [{ placedLaunch with seedCnt := 1 }] }
theorem wit_HostPorts_seq : vfUp sTwo 0 = true ∧ (sTwo.part 0).hacc = 1 ∧
    (let r (h : Nat) := launchRec (wLaunch h 1 0 1 1 0).data
     (r 1).hseq = 1 ∧ serialBefore (r 0xFFFF_FFFF).hseq 1 = true ∧ (r 5).hseq ≠ 1 ∧ serialBefore (r 5).hseq 1 = false ∧ (r 5).hseq ≠ 2 ∧ (r 2).hseq = 2) ∧
    (⟨32, true, 0⟩ : PortWrite).size ≠ 64 := by decide +kernel
theorem wit_HostPorts_launch :
    let q := { sTwo.part 0 with hacc := 2 }
    (match launchCheck q (launchRec (wLaunch 2 1 127 1 1 1).data) with | .ok _ => true | _ => false) = true ∧
    (match launchCheck q (launchRec (wLaunch 2 1 0 2 1 0).data) with | .error k => k | _ => 0) = 3 ∧
    (match launchCheck q (launchRec (wLaunch 2 7 0 1 1 0).data) with | .error k => k | _ => 0) = 2 ∧ (launchRec (wLaunch 2 1 127 1 1 1).data).cfg ≠ 0xFFFFFFFF := by
  decide +kernel
theorem wit_HostPorts_change :
    let r := launchRec (wLaunch 2 0xFFFF_FFFF 9 0 0 1).data
    r.cfg = 0xFFFFFFFF ∧ r.changeOk = true ∧ r.waitsOk = true ∧ r.waits.headD 0 = 1 ∧
    ∃ l, (sTwo.part 0).launches.find? (fun l => l.hseq == 1) = some l ∧ l.st = .bound := by
  refine ⟨by decide +kernel, by decide +kernel, by decide +kernel, by decide +kernel, _, rfl, rfl⟩
/-- A priority change refused for a zero field, and for a launch that it may not name; places of the window. -/
theorem wit_HostPorts_refused :
    let r := launchRec (wLaunch 2 0xFFFF_FFFF 9 1 0 1).data
    let q := launchRec (wLaunch 2 0xFFFF_FFFF 9 0 0 0).data
    r.cfg = 0xFFFFFFFF ∧ r.changeOk = false ∧ q.cfg = 0xFFFFFFFF ∧ (q.changeOk = false ∨ q.waitsOk = false) ∧
    vfPlace 0x1000 = .launch ∧ vfPlace 0x40 = .reserved ∧ vfPlace 0xFFF = .reserved ∧ vfPlace 0x1040 = .reserved ∧ vfPlace 0xFFFFF = .reserved ∧
    vfPlace 0x200000 = .reserved := by decide +kernel
theorem wit_HostPorts_seed :
    let w : PortWrite := ⟨32, true, BitVec.ofNat 1280 (2 + 1 * 2 ^ 32 + 7 * 2 ^ 128)⟩
    w.size = (if w.data.getLsbD 192 then 160 else 32) ∧ bits w.data 0 32 = ((sTwo.part 0).hacc + 1) % 2 ^ 32 ∧
    (match seedCheck { sTwo.part 0 with hacc := 2 } 0 w.data with | .ok l => l.hseq | _ => 0) = 1 := by decide +kernel

/-- LinkAndRecords: the link up and down; a record of each kind that may be written; the two functions' accesses; a bay; a bridge. -/
def rBody : RecBody := RecBody.blank 0x20 0
def sRec (k : RecKind) : State :=
  sMap.modPart 0 fun p => { p with records := [⟨1, k⟩], fqBase := word (0x1000 + 6), eqBase := word (0x2000 + 6) }
theorem wit_LinkAndRecords :
    s0.link = 0 ∧ ({ s0 with link := 2 } : State).link ≠ 0 ∧
    (∀ k ∈ [RecKind.fault rBody, .event rBody 0, .comp ⟨0x1000, 0, 0, 0, 0, 0, 0, 0, 0, 0, 0⟩],
      ((sRec k).part 0).records.find? (fun r => r.dseq == 1) = some ⟨1, k⟩ ∧ ((sRec k).part 0).recReady ⟨1, k⟩ = true) ∧
    vfUp sMap 0 = true ∧ (0 : Nat) < Config.bays ∧ Config.parts ≠ 0 ∧ (7 : Nat) < 8 ∧ 7 ∉ s0.bridgeLost := by decide +kernel

/-- Loading. An object of one hitch (R275 to R286): one slot, an exit of the hitch to itself that raises field 0 of an 8-bit tag. -/
def le (n v : Nat) : List Byte := leBytes n v
def objExit : List Byte :=
  le 4 0x1A4F5649 ++ le 2 1 ++ le 2 2 ++ [1, 0, 1, 1, 1, 1] ++ le 2 5 ++ le 4 64 ++ le 4 256 ++ List.replicate 40 0 ++
  le 4 1 ++ le 4 144 ++ le 4 8 ++ le 4 1 ++ le 4 2 ++ le 4 152 ++ le 4 64 ++ le 4 1 ++ le 4 3 ++ le 4 216 ++ le 4 16 ++ le 4 1 ++
  le 4 10 ++ le 4 232 ++ le 4 16 ++ le 4 1 ++ le 4 13 ++ le 4 248 ++ le 4 2 ++ le 4 0 ++
  [0, 0, 0, 0] ++ le 2 0 ++ le 2 1 ++
  le 8 (2 ^ 36 + 7 * 2 ^ 31) ++ le 8 (2 ^ 8) ++ le 8 0 ++ le 8 (0x7FF * 2 ^ 11 + 0x7FF * 2 ^ 22 + 0x7FF * 2 ^ 33) ++ le 8 (2 ^ 44 - 1) ++ le 8 0 ++ le 8 0 ++ le 8 1 ++
  le 8 0x801F_FFFF_F800_0040 ++ le 8 0 ++ List.replicate 16 0 ++ [0x61, 0, 0, 0, 0, 0, 0, 0]
/-- A list of bytes laid out from an address on. -/
def cellsAt (a : Nat) : List Byte → List Host.Cell
  | [] => []
  | v :: l => (a, v) :: cellsAt (a + 1) l
theorem memGet_cellsAt (l : List Byte) : ∀ a i, memGet? (cellsAt a l) (a + i) = l[i]? := by
  induction l with
  | nil => intro a i; rfl
  | cons v l ih =>
    intro a i
    cases i with
    | zero => simp [cellsAt, memGet?]
    | succ i =>
      rw [show a + (i + 1) = (a + 1) + i by omega]
      simp [cellsAt, memGet?, ih, show a ≠ a + 1 + i by omega]
theorem readBytes_cellsAt (s : State) (a : Nat) (l : List Byte) (h : s.mem = cellsAt a l) : s.readBytes a l.length = l := by
  refine List.ext_getElem (by simp [State.readBytes]) fun i _ hi => ?_
  simp [State.readBytes, State.byte, h, memGet_cellsAt, List.getElem?_eq_getElem hi]
def sLoad (l : List Byte) : State :=
  { s0 with mem := cellsAt (hostKey Config.parts 0x1000) l }.modPart 0 fun p =>
    { p with ldAddr := 0x1000, ldLen := word l.length, ldHandle := 9 }
def cLoad (ctx opc : Nat) : Word := word (1 * 2 ^ 32 + ctx * 2 ^ 8 + opc)
theorem sLoad_reads (l : List Byte) (hl : ((sLoad l).part 0).ldLen.toNat = l.length) (ha : ((sLoad l).part 0).ldAddr = 0x1000) :
    (sLoad l).readBytes (hostKey Config.parts ((sLoad l).part 0).ldAddr.toNat) ((sLoad l).part 0).ldLen.toNat = l := by
  rw [hl, ha]; exact readBytes_cellsAt _ _ _ rfl
/-- What a load of these bytes finds that is installed, with images that are written. -/
def clean (s : State) (bs : List Byte) : Bool :=
  match loadObject s 0 1 bs with
  | (_, _, some (_, f, _)) => !(imagesFate s 0 f.datas).2
  | _ => false
theorem wit_Loading_load : loadCmdOk (sLoad objExit) 0 (cLoad 1 1) 1 = true ∧ loadEarly (sLoad objExit) 0 1 = none ∧
    clean (sLoad objExit) ((sLoad objExit).readBytes (hostKey Config.parts ((sLoad objExit).part 0).ldAddr.toNat)
      ((sLoad objExit).part 0).ldLen.toNat) = true :=
  ⟨by decide +kernel, by decide +kernel, (sLoad_reads objExit (by decide +kernel) (by decide +kernel)).symm ▸
    (by decide +kernel : clean (sLoad objExit) objExit = true)⟩
theorem wit_Loading_fails :
    loadEarly ((sLoad objExit).modPart 0 fun p => { p with ldHandle := 0xFFFF_FFFF }) 0 1 = some 3 ∧
    (let s := sLoad [1, 2, 3]
     (match loadObject s 0 1 (s.readBytes (hostKey Config.parts (s.part 0).ldAddr.toNat) (s.part 0).ldLen.toNat) with
       | (st, _, none) => st | _ => 0) = 1) := by decide +kernel
theorem wit_Loading_complete : ∀ b ∈ ((sLoad objExit).part 0).bayList, ((sLoad objExit).bay b).zero = false := by decide +kernel
theorem wit_Loading_unload :
    let s (h : Nat) (ls : List Launch) := sSeed.modPart 0 fun p => { p with ldHandle := word h, launches := ls }
    loadCmdOk (s 1 []) 0 (cLoad 0 2) 2 = true ∧ noPart (s 1 []) ((s 1 []).part 0) = false ∧ ((s 7 []).part 0).byHandle 7 = none ∧
    ((s 1 []).part 0).byHandle 1 = some cfg1 ∧ cfg1.ctx = 0 ∧ ((s 1 []).part 0).inUse 1 = false ∧ ((s 1 [placedLaunch]).part 0).inUse 1 = true ∧
    (∃ j, (((s 1 []).modPart 0 fun p => { p with job := some ⟨1, 0, 0, some cfg1⟩ }).part 0).job = some j) := by
  refine ⟨?_, ?_, ?_, ?_, rfl, ?_, ?_, _, rfl⟩ <;> decide +kernel

/-- A launch on a region of one position, and its context. -/
def one : Launch := { placedLaunch with rows := 1, cols := 1 }
def ctxOne : CtxRt := { ctx0 with rows := 1, cols := 1, map := [0] }

/-- Distributor: a READY launch; a selected one that fits, without an image, with a sound one, with a poisoned one; a bound context, a launch
in BINDING and its last answer; a turn's fires; counts below and at 255. -/
def sSel (st : LaunchSt) (img : Option Image) (s : State) : State :=
  (s.modBay 0 fun y => { y with ctxs := AMap.upd y.ctxs 0 fun c => { c with bound := none } }).modPart 0 fun p =>
    { p with quota := 1, imgBase := 0x80_0040_0000, launches := [{ one with st := st, image := img }] }
def img0 : Image := ⟨0, 72, 0, []⟩
def sImg : State := s0.writeBytes 0x80_0040_0000 (le 4 0x31474D49 ++ List.replicate 39 0 ++ [1, 0, 0, 0, 0] ++ le 4 72 ++ List.replicate 20 0) false
theorem wit_Distributor_select :
    ((sSel .ready none s0).part 0).choice = some { one with st := .ready } ∧
    ((sSel .selected none s0).part 0).selected = some { one with st := .selected } ∧
    fitting (sSel .selected none s0) 0 { one with st := .selected } [] = some [0] ∧
    bindsTo (sSel .selected none s0) 0 { one with st := .selected } = some [0] := by decide +kernel
theorem wit_Distributor_image :
    imageFails (sSel .selected (some img0) sImg) 0 { one with st := .selected, image := some img0 } img0 = none ∧
    imageFails (sSel .selected (some img0) { sImg with poison := [0x80_0040_0020] }) 0 { one with st := .selected, image := some img0 } img0 = some 32 := by
  decide +kernel
theorem wit_Distributor_wave :
    let l := { one with st := .binding }
    let s := (s0.modBay 0 fun y => { y with ctxs := [(0, ctxOne)] }).modPart 0 fun p => { p with launches := [l] }
    let p := wavePacket 3 0 0 0 0 0 0 0 0
    s.ctx? 0 p.ctx = some ctxOne ∧ ctxOne.bound ≠ none ∧ originLaunch s 0 p.ctx = some (0, l) ∧ p.body 212 8 = l.wseq ∧
    l.rows * l.cols ≤ (insertNat (p.body 205 7) l.acks).length ∧ (insertNat 0 ([] : List Nat)).length < 2 ∧
    one.turns < 255 ∧ 255 ≤ ({ one with turns := 255 } : Launch).turns ∧ ({ ctxOne with fires := 2 ^ 24 } : CtxRt).fireStart + 2 ^ 24 ≤ ({ ctxOne with fires := 2 ^ 24 } : CtxRt).fires := by decide +kernel

/-- Cuts: a launch that is being saved; a bay not yet in the cut, in it, at rest, saved; the last of the reports. -/
def lSave : Launch := { one with st := .saving, cutNo := 3, image := some img0 }
def cCut (q : Option Cut) : CtxRt := { ctxOne with cut := q }
def sCut (q : Option Cut) : State :=
  (s0.modBay 0 fun y => { y with ctxs := [(0, cCut q)], gates := [] }).modPart 0 fun p => { p with launches := [lSave] }
theorem wit_Cuts_marker : ∀ flag < 2,
    let p := wavePacket 5 0 0 0 3 0 flag 0 0
    let q : Cut := ⟨3, true, false, [], false⟩
    boundLaunch (sCut none) 0 p.ctx = some (0, lSave) ∧ lSave.st = .saving ∧ lSave.cutNo = p.body 212 8 ∧ (sCut none).ctx? 0 p.ctx = some (cCut none) ∧
    p.body 200 1 = flag ∧ (sCut (some q)).ctx? 0 p.ctx = some (cCut (some q)) ∧ q.wseq = lSave.cutNo ∧ snapReady (sCut (some q)) 0 0 = true := by
  decide +kernel
/-- A bay with no wait counters to spill, and one whose block of counters migrates. -/
theorem wit_Cuts_spill :
    let k : Cut := ⟨3, true, false, [], false⟩
    let c := { cCut (some k) with waitHist := 0x1_0000 }
    let s := ((putWord sPage 0x80_0000_0008 0x8641_0000_0000_0000).modBay 0 fun y => { y with ctxs := [(0, c)], gates := [] }).modElem 0 0
      fun e => { e with issue := [], slots := AMap.upd e.slots 0 fun c => { c with hist := [0, 3] } }
    (spillAll 0 (true, gatherTokens 0 0 0 (sCut (some k))) 0).1 = true ∧
    snapReady s 0 0 = true ∧ (spillAll 0 (true, gatherTokens 0 0 0 s) 0).1 = false := by decide +kernel
/-- An image that has its run, and one that would pass its end. -/
theorem wit_Cuts_image :
    let p (n : Nat) : Part := { (sCut none).part 0 with imgSize := word n }
    let bs := imageBytes lSave ((p 1).nbvOf lSave) img0 (posIn ((sCut none).regionMap 0 lSave))
    lSave.image = some img0 ∧ img0.off + bs.length ≤ (p 1).runEnd img0.off ∧ (p 0).runEnd img0.off < img0.off + bs.length := by decide +kernel
theorem wit_Cuts_saved :
    let q : Cut := ⟨3, true, true, [], false⟩
    let p := wavePacket 6 0 0 0 3 0 0 0 0
    (sCut (some q)).ctx? 0 0 = some (cCut (some q)) ∧ (cCut (some q)).cut = some q ∧ q.snapped = true ∧ q.saved = false ∧ (cCut (some q)).chansIn = [] ∧
    cutOf (sCut (some q)) 0 p = some (0, lSave) ∧ lSave.rows * lSave.cols ≤ (insertNat (p.body 205 7) lSave.savedBy).length ∧
    p.body 205 7 ∉ lSave.savedBy ∧ lSave.image = some img0 ∧ (insertNat 0 ([] : List Nat)).length < 2 ∧
    ((sCut (some q)).ctx? 0 p.ctx).bind (·.cut) = some q ∧ q.wseq = p.body 212 8 := by decide +kernel

/-- FaultCommands: an outstanding fault of an instance, of a region, of a gather's row; the instance pinned and not; a stop that is complete. -/
def fAt (code : Nat) (u : FaultAt) : OutFault := ⟨5, { RecBody.blank code 1 with lseq := 1 }, u, false⟩
def sFault (f : OutFault) : State := s0.modPart 0 fun p => { p with faults := [f] }
def cFcmd (opc : Nat) : Word := word (5 * 2 ^ 32 + opc * 2 ^ 30)
theorem wit_FaultCommands : ∀ f ∈ [fAt 0x12 (.inst 0 0 0), fAt 0x12 (.region 1 false), fAt 0x22 (.island 0 1 0 false)], ∀ opc < 4,
    bitsZero (cFcmd opc) 0 30 = true ∧ bits (cFcmd opc) 30 2 = opc ∧ faultWaits (sFault f) 0 f = false ∧
    ((sFault f).part 0).faults.find? (fun f => f.dseq == bits (cFcmd opc) 32 32 && f.body.frz != 0) = some f := by decide +kernel
theorem wit_FaultCommands_waits :
    let f := fAt 0x12 (.inst 0 0 0)
    faultWaits ((sFault f).modCtx 0 0 fun c => { c with cut := some ⟨3, true, true, [], false⟩ }) 0 f = true := by decide +kernel
theorem wit_FaultCommands_units :
    s0.inst? 0 0 0 = some inst0 ∧ inst0.pinned = false ∧ ((s0.modInst 0 0 0 fun i => { i with pinned := true }).inst? 0 0 0).any (·.pinned) = true ∧
    zfillRow (fAt 0x12 (.inst 0 0 0)) = none ∧ zfillRow (fAt 0x22 (.island 0 1 0 false)) = some (0, 1, 0, 0) ∧
    (∀ b g ix, (fAt 0x12 (.region 1 false)).unit ≠ .inst b g ix) :=
  ⟨rfl, rfl, by decide, by decide, by decide, fun _ _ _ h => nomatch h⟩
theorem wit_FaultCommands_stop :
    let l := { placedLaunch with brk := some (RecBody.blank 0x31 2) }
    let s := (s0.modInst 0 0 0 fun i => { i with st := .frozen }).modPart 0 fun p => { p with launches := [l] }
    s.launch? 0 1 = some l ∧ l.st = .bound ∧ ∀ b ∈ s.regionBays 0 l.ctx l.hseq,
      othersAll s b l.ctx (fun _ _ i => i.st == .frozen) = true := by decide +kernel

/-- Translations: what waits for one, with a page that serves it, with none, with one that is migrating, and with no walk
free; a shootdown that may begin, an
entry outside its range, one that is complete. -/
def qX (g : XFor) : XReq := ⟨0, 0, 0x10000, false, g, false, false⟩
def sX (g : XFor) : State := ((putWord sPage 0x80_0000_0010 0).modBay 0 fun y =>
  { y with xreqs := [qX g], sites := [(0, { xVirt with bufs := [{ emptyBuf with st := .filling, line := 0x10000 }] })] }).modInst 0 0 0 fun i =>
    { i with ops := [⟨.load, 0, 0, 3, tt .f32 false, tm, 0, 0x10000, scTok 0, 0, 0, .issued, 0⟩] }
theorem wit_Translations : ∀ g ∈ [XFor.fill 0 0, .op 0 0 3, .xlat 0 0 0 0 (tt .v false)],
    ((sX g).bay 0).xreqs.find? (fun q => q.id == 0) = some (qX g) ∧ (qX g).parked = false ∧ (qX g).held = false ∧ (opOf (sX g) 0 ⟨0, 0, 3⟩).isSome = true ∧
    (match (sX g).site? 0 0 with
      | none => false
      | some x => (lineGuard ((sX g).bay 0) x.ctx 0 x 0x10000).isNone &&
          (match translatePieces 0 0 x (x.pieces 0x10000) (sX g) with | .ok l _ => l.length == 1 | _ => false)) = true ∧
    (match translateVa (sX g) 0 0 0x10000 { needR with kinds := [0, 2] } with | .ok _ _ => true | _ => false) = true ∧
    (match translateVa (sX g) 0 0 0x20000 { needR with kinds := [0, 2] } with | .fault _ _ => true | _ => false) = true := by decide +kernel
theorem wit_Translations_park :
    (match translateVa (putWord sPage 0x80_0000_0008 0x8641_0000_0000_0000) 0 0 0x10000 { needR with kinds := [0, 2] } with
      | .park => true | _ => false) = true ∧
    (match translateVa (sPage.modBay 0 fun y => { y with xreqs := List.replicate Config.walks { qX (.fill 0 0) with parked := true } }) 0 0 0x10000
        { needR with kinds := [0, 2] } with
      | .busy => true | _ => false) = true := by decide +kernel
theorem wit_Translations_shoot : ∀ k < 3,
    let cmd := word (1 * 2 ^ 32 + k * 2 ^ 26)
    (0 : Nat) < Config.parts ∧ bits cmd 32 32 = ((s0.part 0).shootDone + 1) % 2 ^ 32 ∧ bits cmd 28 4 = 0 ∧ (s0.part 0).shoot = none ∧ bits cmd 26 2 = k ∧
    (let h : Shoot := ⟨1, k, 0x20000, 1⟩
     let s := (s0.modPart 0 fun p => { p with shoot := some h }).modBay 0 fun y => { y with tlb := [⟨0, 0x10000, 0x10000, 0, 0⟩, ⟨0, 0x20000, 0x10000, 0, 0⟩] }
     let q := shootOn s 0
     q.1 = true ∧ accessesDone q.2 0 h = true ∧ ((shootBay 0 h (true, s) 0).2.bay 0).tlb = [⟨0, 0x10000, 0x10000, 0, 0⟩]) := by decide +kernel

/-- ErrorsAndMonitors: readings at the threshold, between it and the hysteresis, and below both; droops with and without a limit, short of it and
at it; the interval below and at its limit; the operating point. -/
theorem wit_ErrorsAndMonitors_pending :
    writePending { s0 with flight := [.gwrite 0 (groupRequest 2 dSum true 0 0 5 0 0 0 0 [])] } (loftKey 0 0) 8 = true ∧
    writePending s0 (loftKey 0 0) 8 = false ∧ writePending s0 0 32 = false ∧
    (let p := reqPacket 0 0 ⟨0, 0, 0, 0, 0, 0, none⟩ 1 6 2 4 0 0 0 0
     writePending (s0.modBay 0 fun y => { y with reqs := [⟨0, 0, 0, p, true, .nothing, 0, 0, false, false, none⟩] }) 0 32 = true) := by
  decide +kernel
theorem wit_ErrorsAndMonitors :
    let m := Monitor.reset
    m.tempThr.toInt ≤ (0x5A0#32).toInt ∧ m.armed = true ∧ ({ m with armed := false } : Monitor).armed = false ∧
    (0x54F#32).toInt < m.tempThr.toInt - m.tempHys.toNat ∧ (0x550#32).toInt < m.tempThr.toInt ∧ m.tempThr.toInt - m.tempHys.toNat ≤ (0x550#32).toInt ∧
    bits m.droopCfg 0 16 < 1 ∧ bits m.droopCfg 16 16 = 0 ∧
    (let d : Monitor := { m with droopCfg := 2 * 2 ^ 16 }
     (d.droopCnt + 1 - d.droopAt).toNat < bits d.droopCfg 16 16 ∧ ({ d with droopCnt := 1 }.droopCnt + 1 - d.droopAt).toNat = bits d.droopCfg 16 16) ∧
    (0 : Nat) < Config.slice ∧ Config.bays = 160 ∧ (0 : Nat) < Config.lpddr ∧ (s0.dieOp 1).busy = false ∧
    AMap.get? ({ s0 with dieop := [(0, ⟨3, true⟩)] } : State).dieop 0 = some ⟨3, true⟩ ∧
    (let e (b : Option Nat) : EccCnt := ⟨9, 4, b, 0, 0⟩
     let s (b : Option Nat) : State := { s0 with ecc := [e b] }
     ((s none).ecc.find? fun x => x.loc == 9 && x.key == (e none).key) = some (e none) ∧ (e none).over (s none) = true ∧
     ((s (some 0)).ecc.find? fun x => x.loc == 9 && x.key == (e (some 0)).key) = some (e (some 0)) ∧ (e (some 0)).over (s (some 0)) = false ∧
     (s0.ecc.find? fun x => x.loc == 9 && x.key == eccKey 4 (some 0)) = none) ∧
    exec (.configScrub 0 [⟨3, 0, true⟩]) s0 = .next (eccCorrected s0 3 (configIndex s0 0 ⟨3, 0, true⟩) (some 0) 0) :=
  ⟨by decide, rfl, rfl, by decide, by decide, by decide, by decide, by decide, by decide, by decide, rfl, by decide, rfl, rfl, by decide, rfl⟩

/-- Partitions: a still one, plain and an enclave, up and not; its bays; policies at the ends of their range; an unseal refused, malformed and with
a destination; an attest. -/
def sPart (v : Word) : State := sB.modPart 0 fun p => { p with launches := [], pctl := v }
theorem wit_Partitions_pctl :
    (∀ v ∈ [0, 2 ^ 63, 2 ^ 63 + 2 ^ 62], ((sPart (word v)).part 0).still = true ∧ bayTaken (sPart (word v)) 0 ((sPart (word v)).part 0) = false) ∧
    ((sPart 0).part 0).en = false ∧ ((sPart (word (2 ^ 63 + 2 ^ 62))).part 0).en = true ∧ ((sPart (word (2 ^ 63 + 2 ^ 62))).part 0).encl = true ∧
    onlyIn (word (2 ^ 63 + 2 ^ 62)) [(60, 4), (44, 16), (1, 1)] = true ∧ bitsZero (0xFFFF_FFFF : Word) 32 32 = true ∧
    ((sPart (word (2 ^ 63 + 2 ^ 62))).part 0).hidesBrk = true ∧ ((sPart (word (2 ^ 63))).part 0).hidesBrk = false ∧
    ((0, 0) ∈ ({ s0 with zeroQ := [(0, 0)] } : State).zeroQ) := by decide +kernel
/-- A blob of one unit at 0x80_0050_0000, to a page with E = 1 at 0x1_0000. -/
def sSeal (blob : List Byte) : State :=
  ((putWord sPage 0x80_0000_0008 0x8620_0080_0030_0000).modPart 0 fun p =>
    { p with pctl := word (2 ^ 63 + 2 ^ 62), sealSrc := 0x80_0050_0000, sealDst := 0x10000 }).writeBytes 0x80_0050_0000 blob false
theorem wit_Partitions_unseal :
    onlyIn (word (2 ^ 32)) [(32, 32)] = true ∧ sealParked s0 0 = false ∧ (s0.part 0).sealSt ≠ 1 ∧ bits (word (2 ^ 32)) 32 32 = ((s0.part 0).sealSeq + 1) % 2 ^ 32 ∧
    (s0.part 0).encl = false ∧ ((sSeal [0, 0, 0, 0, 0, 0, 0, 0]).part 0).encl = true ∧
    blobOk ((sSeal [0, 0, 0, 0, 0, 0, 0, 0]).readBytes 0x80_0050_0000 1664) 0 = false := by decide +kernel
theorem wit_Partitions_blob :
    let s := (sSeal (le 4 0x4C414553 ++ le 4 32)).writeBytes 0x80_0050_0668 (List.replicate 24 0) false
    let h := s.readBytes 0x80_0050_0000 1664
    fieldOf h 4 4 = 32 ∧ blobOk h 32 = true ∧ (match (sealWrite 0 [(0x10000, [])] s).1 with | .ok _ _ => true | _ => false) = true := by decide +kernel
theorem wit_Partitions_zeroise :
    let s : State := { s0 with zeroQ := [(0, 0), (0, 1), (1, 1)] }
    (0, 0) ∈ s.zeroQ ∧ (∀ z ∈ s.zeroQ, z.2 = 0 → z.1 = 0) ∧ (0, 1) ∈ s.zeroQ ∧ ∃ z ∈ s.zeroQ, z.2 = 1 ∧ z.1 ≠ 0 := by decide
theorem wit_Partitions_attest : onlyIn (word 0x40) [(6, 46)] = true ∧ vfUp s0 0 = true ∧
    onlyIn (word 0xFFF0_0001) [(20, 32), (0, 1)] = true ∧ onlyIn (word 0xFFFF_0000) [(16, 36)] = true ∧ onlyIn (word 0xFFFF_FFFF) [(0, 32)] = true ∧
    (word 160).toNat ≤ Config.bays := by decide +kernel
/-- Boot comes up where the firmware's stages are sound (log 7). -/
theorem wit_Partitions_boot (l : List Config.Stage) : (∀ e ∈ l, stageOk e = true) → ∀ i m, ∃ x, bootStages l i m = .up x := by
  induction l with
  | nil => exact fun _ _ m => ⟨_, rfl⟩
  | cons e l ih =>
    intro h i m
    obtain ⟨x, hx⟩ := ih (fun a ha => h a (by simp [ha])) (i + 1) (sha3 (m ++ sha3 e.image))
    exact ⟨x, by rw [bootStages, if_pos (h e (by simp))]; exact hx⟩

/-- TraceSessions: a buffer not open, open, closing; records that fit where the buffer stands, after a pad, and from its start. -/
theorem wit_TraceSessions :
    let v := word (2 ^ 63 + 2 ^ 7)
    let b : TraceBuf := openBuf
    onlyIn v [(63, 1), (62, 1), (7, 1), (6, 1), (5, 1), (4, 1), (0, 4)] = true ∧ v.getLsbD 63 = true ∧ ((s0.part 0).tbuf 0).isOpen = false ∧
    b.isOpen = true ∧ b.closing = none ∧ AMap.getD b.owed 3 0 = 0 ∧ b.placeFor 64 = some (0, 0) ∧ { b with wptr := 4064 }.placeFor 64 = some (32, 4096) ∧
    { b with wptr := 0xFFE0, ctl := word (2 ^ 63 + 2 ^ 62) }.placeFor 64 = some (32, 0) ∧ { b with wptr := 0x10000 }.placeFor 64 = none ∧
    onlyIn (word 0xFF) [(0, 8)] = true ∧
    (let s := s0.modPart 0 fun p => { p with trace := [(0, { b with closing := some true })] }
     ((s.part 0).tbuf 0).closing = some true ∧ traceDrained s 0 0 = true) := by decide +kernel

/-- DecodeEncode: a slot instruction with every field set and its word. -/
theorem wit_DecodeEncode :
    let i : Instr := .ld ⟨.ifTrue, false, .s16, 0x124, 0x281⟩ ⟨0x03, 0x02, .acq, .bay, false, 0xFF⟩
    i.wf = true ∧ encode i = some 0x8844_4914_0818_92FF := by decide

/-- StepRuns: nothing to do; a set whose slot is sound, poisoned, another context's; a happening under way. -/
def sSlot (c : SlotCell) : State := (placeWord State.reset c.word).modElem 0 0 fun e => { e with slots := [(0, c)] }
def cMov : SlotCell := ⟨0x701E_0000_0800_0000, false, true, 0, 0, 0, 0, []⟩
theorem wit_StepRuns_choice :
    chosen { State.reset with boot := .up 0 } = none ∧ chosen (sSlot cMov) = some (.fire 0 0 0) ∧
    faults (sSlot cMov) (.fire 0 0 0) = false ∧
    choose { State.reset with boot := .up 0 } = none ∧ choose (sSlot cMov) = some (.fire 0 0 0) ∧
    (∃ i t, Cand.start (tick (sSlot cMov)) (.fire 0 0 0) = (some i, t)) ∧
    choose (sSlot { cMov with poison := true }) = some (.fire 0 0 0) ∧
    ∃ t, Cand.start (tick (sSlot { cMov with poison := true })) (.fire 0 0 0) = (none, t) :=
  ⟨by decide +kernel, by decide +kernel, by decide +kernel, by decide +kernel, by decide +kernel, ⟨_, _, rfl⟩, by decide +kernel, _, rfl⟩
/-- Two sets of an instance, one for each unit of an element, that would both fault, the one of the higher slot picked. -/
def sTie : State := (placeWord State.reset cMov.word).modElem 0 0 fun e =>
  { e with slots := [(0, { cMov with poison := true, word := 0x703E_0000_0800_0000 }), (1, { cMov with poison := true })]
           issue := [{ placedSet cMov.word with slot := 1 }, placedSet cMov.word] }
theorem wit_StepRuns_tie :
    choose sTie = some (.fire 0 0 0) ∧ Cand.set sTie (.fire 0 0 0) = some (0, { placedSet cMov.word with slot := 1 }) ∧
    faults sTie (.fire 0 0 0) = true ∧ Cand.fire 0 0 0 ∈ fireCands sTie 0 (sTie.bay 0) ∧ Cand.fire 0 0 1 ∈ fireCands sTie 0 (sTie.bay 0) ∧
    faults sTie (.fire 0 0 1) = true ∧ reportedFor sTie 0 (.fire 0 0 1) (.fire 0 0 0) = true ∧
    firstFault sTie 0 [.fire 0 0 0, .fire 0 0 1] = some (.fire 0 0 1) := by decide +kernel
/-- A slot's fields that stand where it lies, and that do not: a target at a slot that is not the hitch's; words that are none; inputs. -/
theorem wit_StepRuns_fields :
    fieldsStand (sSlot cMov) 0 (placedSet cMov.word) cMov (.mov ⟨.always, false, .v, 0x080, 0x7FF⟩ ta0) = true ∧
    fieldsStand ((sSlot cMov).modElem 0 1 fun e => { e with slots := [] }) 0 (placedSet cMov.word) cMov (.mov ⟨.always, false, .v, 0x080, 0x7FF⟩ ta0) = false ∧
    decodeWord 0 = .error .empty ∧ decodeWord 0x01C0_0000_0000_0000 = .error .pm ∧ isFcmd .linkUp = false ∧ isFcmd (.fcmdResume 0 0) = true ∧
    ({ s0 with inputs := [.linkUp] } : State).inputs[0]? = some .linkUp := by decide +kernel
theorem wit_StepRuns_slot :
    ((sSlot cMov).elem 0 0).issue[0]? = some (placedSet cMov.word) ∧ stopDrops (sSlot cMov) 0 (placedSet cMov.word) = false ∧
    cMov.poison = false ∧ cMov.ctx = (placedSet cMov.word).ctx ∧ (∃ i, decodeWord cMov.word = .ok i) ∧ (1 : Nat) ≠ (placedSet cMov.word).ctx ∧
    ({ s0 with flight := [.boot] } : State).flight[0]? = some .boot ∧ ∃ i, decodeTableWord 64 0x701E_0000_0800_0000 = some i :=
  ⟨rfl, by decide, rfl, rfl, ⟨_, rfl⟩, by decide, rfl, _, rfl⟩

/-- ResetState: an address on the die, and the one choice. -/
theorem wit_ResetState : onDie (loftKey 0 0) = true ∧ ∃ c, choose State.reset = some c := by
  refine ⟨by decide, .own .boot, ?_⟩
  show [Cand.own .boot][Config.freePick 0 % 1]? = _
  rw [Nat.mod_one]; rfl

/-- MemoryKept, OnlyBy: a machine whose memory has its form, and which steps. -/
theorem wit_MemoryKept : Memory.wf (sSlot cMov) = true ∧ ∃ t, step (sSlot cMov) = .next t := ⟨by decide, _, rfl⟩

/-- ExecFrame: instructions that may and may not touch memory. -/
theorem wit_ExecFrame : Field.mem ∉ touches (.mov (tt .v false) ta0) ∧ Field.mem ∈ touches (.mreq 0 (qReq 0)) ∧ Memory.wf s0 = true := by decide

end Sys2Proof.Tests.Slice0
end

/-!
Proofs of the statements about scope: what every instruction answers and leaves alone (ExecFrame), and what a step runs (StepRuns).
-/
namespace Sys2Proof.Machine

open Sys2Proof

/-! ## Every instruction answers, and changes only the fields named for it -/

/-- A slot that works on its accumulation record answers a next state, whether it fires or waits. -/
theorem fireRec_next (c : Common) (v : Val) (go : Nat → MSet → State → State) (s : State) :
    ∃ t, fireRec c v go s = .next t := by
  unfold fireRec
  split
  · exact ⟨_, rfl⟩
  · split <;> exact ⟨_, rfl⟩

/-- Every arm of `exec` but two is written as one next state; `count` and `fold` may wait first. -/
theorem exec_next (i : Instr) (s : State) : ∃ t, exec i s = .next t := by
  cases i with
  | count c f => exact fireRec_next ..
  | fold c f => exact fireRec_next ..
  | _ => exact ⟨_, rfl⟩

/-- The fields that an instruction may not change. -/
def untouched (i : Instr) (f : Field) : Bool := decide (f ∉ touches i)

theorem exec_untouched {i : Instr} {s t : State} (h : exec i s = .next t) : Kept (untouched i) s t := by
  have hfree : FreeAll (untouched i) (touches i) := freeAll_of fun f hf => by simp [untouched, hf]
  have hself : Kept (untouched i) s s := ⟨id, fun f _ => by cases f <;> rfl⟩
  exact exec_kept hfree hself t h

theorem byte_eq_of_mem_same {s t : State} (h : Field.mem.same s t) (a : Nat) : t.byte a = s.byte a := by
  rw [byte_eq_memRead, byte_eq_memRead, show t.mem = s.mem from h]

/-- Settles O59: `exec_next` gives the next state, `exec_untouched` what it leaves alone. -/
theorem execFrame : Obligations.ExecFrame := by
  unfold Obligations.ExecFrame
  intro i s
  obtain ⟨t, ht⟩ := exec_next i s
  have hkept := exec_untouched ht
  have hsame : ∀ f, f ∉ touches i → f.same s t := fun f hf => hkept.same f (by simp [untouched, hf])
  exact ⟨t, ht, hsame, fun hmem => byte_eq_of_mem_same (hsame .mem hmem), hkept.form⟩

/-! ## The order of a stable sort -/

theorem mem_insertBy {α : Type} {key : α → Nat} {x y : α} {l : List α} : y ∈ insertBy key x l ↔ y = x ∨ y ∈ l := by
  induction l with
  | nil => simp [insertBy]
  | cons z l ih =>
    unfold insertBy
    split
    · simp
    · simp [ih, or_left_comm]

theorem pairwise_insertBy {α : Type} {key : α → Nat} {x : α} {l : List α} (h : l.Pairwise (key · ≤ key ·)) :
    (insertBy key x l).Pairwise (key · ≤ key ·) := by
  induction l with
  | nil => simp [insertBy]
  | cons z l ih =>
    obtain ⟨hz, hl⟩ := List.pairwise_cons.1 h
    unfold insertBy
    split
    · rename_i hx
      refine List.pairwise_cons.2 ⟨fun y hy => ?_, h⟩
      obtain rfl | hy := List.mem_cons.1 hy
      · exact hx.le
      · exact hx.le.trans (hz y hy)
    · rename_i hx
      refine List.pairwise_cons.2 ⟨fun y hy => ?_, ih hl⟩
      obtain rfl | hy := mem_insertBy.1 hy
      · exact Nat.le_of_not_lt hx
      · exact hz y hy

theorem foldl_insertBy {α : Type} (key : α → Nat) (l acc : List α) (h : acc.Pairwise (key · ≤ key ·)) :
    (∀ y, y ∈ l.foldl (fun acc x => insertBy key x acc) acc ↔ y ∈ l ∨ y ∈ acc) ∧
      (l.foldl (fun acc x => insertBy key x acc) acc).Pairwise (key · ≤ key ·) := by
  induction l generalizing acc with
  | nil => simpa using h
  | cons x l ih =>
    obtain ⟨hm, hp⟩ := ih _ (pairwise_insertBy (x := x) h)
    refine ⟨fun y => ?_, hp⟩
    simp only [List.foldl_cons, hm, mem_insertBy, List.mem_cons]
    tauto

theorem mem_sortBy {α : Type} {key : α → Nat} {l : List α} {y : α} : y ∈ sortBy key l ↔ y ∈ l :=
  ((foldl_insertBy key l [] .nil).1 y).trans (by simp)

theorem pairwise_sortBy {α : Type} (key : α → Nat) (l : List α) : (sortBy key l).Pairwise (key · ≤ key ·) :=
  (foldl_insertBy key l [] .nil).2

/-- The first of a sorted list is one of its least. -/
theorem head?_sortBy {α : Type} {key : α → Nat} {l : List α} {k : α} (h : (sortBy key l).head? = some k) :
    k ∈ l ∧ ∀ d ∈ l, key k ≤ key d := by
  obtain ⟨rest, hr⟩ := List.head?_eq_some_iff.1 h
  have hp := pairwise_sortBy key l
  rw [hr] at hp
  have hmem : ∀ d, d ∈ l ↔ d ∈ k :: rest := fun d => by rw [← hr, mem_sortBy]
  refine ⟨(hmem k).2 (List.mem_cons_self ..), fun d hd => ?_⟩
  obtain rfl | hd := List.mem_cons.1 ((hmem d).1 hd)
  · exact le_rfl
  · exact (List.pairwise_cons.1 hp).1 d hd

/-! ## Faults of one cycle (R36, R352) -/

/-- The place of a candidate's set in the order of R36; a candidate that names no set has none. -/
def candRank (s : State) (b : Nat) (c : Cand) : Nat := ((Cand.set s c).map fun e => e.2.rank s b).getD 0

theorem candRank_lt_of_reportedFor {s : State} {b : Nat} {c d : Cand} (h : reportedFor s b c d = true) :
    candRank s b c < candRank s b d := by
  unfold reportedFor at h
  split at h
  · rename_i m _ n hm hn
    simp only [candRank, hm, hn, Option.map_some, Option.getD_some]
    simp only [Bool.and_eq_true, decide_eq_true_eq] at h
    exact h.2
  · cases h

/-- Of candidates that fault in one cycle, one of the least rank is reported in place of no other. -/
theorem exists_unreported (s : State) (b : Nat) {l : List Cand} {c : Cand} (hc : c ∈ l) :
    ∃ k ∈ l, ∀ d ∈ l, reportedFor s b d k = false := by
  obtain ⟨k, hk, hmin⟩ := l.toFinset.exists_min_image (candRank s b) ⟨c, by simpa using hc⟩
  refine ⟨k, by simpa using hk, fun d hd => ?_⟩
  by_contra hr
  have := candRank_lt_of_reportedFor (by simpa using hr)
  have := hmin d (by simpa using hd)
  omega

/-- The place of a candidate's set in the order of R352. -/
def candPlace (s : State) (c : Cand) : Nat := ((Cand.set s c).map fun e => e.2.place).getD 0

/-- The candidate of a list that no other is reported in place of, and that lies lowest among those. -/
structure FirstOf (s : State) (b : Nat) (l : List Cand) (k : Cand) : Prop where
  mem : k ∈ l
  unreported : ∀ d ∈ l, reportedFor s b d k = false
  lowest : ∀ d ∈ l, (∀ x ∈ l, reportedFor s b x d = false) → candPlace s k ≤ candPlace s d

theorem firstFault_firstOf {s : State} {b : Nat} {l : List Cand} {c : Cand} (hc : c ∈ l) :
    ∃ k, firstFault s b l = some k ∧ FirstOf s b l k := by
  have hmem : ∀ d, d ∈ l.filter (fun c => !l.any fun d => reportedFor s b d c) ↔
      d ∈ l ∧ ∀ x ∈ l, reportedFor s b x d = false := by simp
  obtain ⟨u, hu, hun⟩ := exists_unreported s b hc
  have hne : firstFault s b l ≠ none := fun h =>
    List.not_mem_nil (List.head?_eq_none_iff.1 h ▸ mem_sortBy.2 ((hmem u).2 ⟨hu, hun⟩))
  obtain ⟨k, hk⟩ := Option.ne_none_iff_exists'.1 hne
  obtain ⟨hkl, hmin⟩ := head?_sortBy hk
  obtain ⟨hkm, hku⟩ := (hmem k).1 hkl
  exact ⟨k, hk, hkm, hku, fun d hd hdu => hmin d ((hmem d).2 ⟨hd, hdu⟩)⟩

/-! ## What a step runs (R9, R46) -/

theorem chosen_of_choose {s : State} {c : Cand} (h : choose s = some c) : chosen s = some (tieBreak s c) := by
  rw [chosen, h, Option.map_some]

/-- A candidate that names no set, or whose set does not fault, is taken itself. -/
theorem tieBreak_of_not_faults {s : State} {c : Cand} (h : Cand.set s c = none ∨ faults s c = false) : tieBreak s c = c := by
  unfold tieBreak
  split
  · rfl
  · rename_i e he
    rw [he] at h
    simp [h.resolve_left nofun]

/-- Where a set of a bay would fault, the one taken is it, or, where the bay's clock stands still, the first that would. -/
theorem tieBreak_of_faults {s : State} {c : Cand} {b : Nat} {m : MSet} (hset : Cand.set s c = some (b, m)) (hf : faults s c = true)
    (hc : c ∈ fireCands s b (s.bay b)) :
    ∃ k, tieBreak s c = (if Config.ticks b (s.freeCtr + 1) = 0 then k else c) ∧
      FirstOf s b ((fireCands s b (s.bay b)).filter (faults s)) k := by
  obtain ⟨k, hk, hfirst⟩ := firstFault_firstOf (s := s) (b := b) (List.mem_filter.2 ⟨hc, hf⟩)
  refine ⟨k, ?_, hfirst⟩
  unfold tieBreak
  rw [hset]
  dsimp only
  rw [hk, hf, Option.getD_some]
  by_cases hlen : 1 < (fireCands s b (s.bay b)).length
  · simp [hlen]
  · have hone : fireCands s b (s.bay b) = [c] := by
      obtain ⟨x, hx⟩ := List.length_eq_one_iff.1 (Nat.le_antisymm (Nat.le_of_not_lt hlen) (List.length_pos_of_mem hc))
      rw [hx] at hc ⊢
      rw [List.mem_singleton.1 hc]
    have hkc : k = c := by
      have := (List.mem_filter.1 hfirst.mem).1
      rwa [hone, List.mem_singleton] at this
    simp [hkc]

theorem step_of_chosen_none {s : State} (h : chosen s = none) : step s = .next (tick s) := by
  rw [step, h]

theorem step_of_start_none {s t : State} {c : Cand} (h : chosen s = some c) (hs : Cand.start (tick s) c = (none, t)) :
    step s = .next (Cand.finish s 0 c t) := by
  rw [step, h]
  dsimp only [runCand]
  rw [hs]

theorem step_of_start_some {s t u : State} {c : Cand} {i : Instr} (h : chosen s = some c)
    (hs : Cand.start (tick s) c = (some i, t)) (he : exec i t = .next u) :
    step s = .next (Cand.finish s (Cand.result s t c) c u) := by
  rw [step, h]
  dsimp only [runCand]
  rw [hs]
  dsimp only
  rw [he]

/-! ## A set that an element takes (R19, R77, R355) -/

/-- A set that leaves the issue queue is fetched by its element (R19). -/
theorem start_fire {s : State} {b e k : Nat} {m : MSet} (h : (s.elem b e).issue[k]? = some m) :
    Cand.start s (.fire b e k) = startSet b m (s.modElem b e fun x => { x with issue := dropAt x.issue k }) := by
  dsimp only [Cand.start]
  rw [h]
  rfl

theorem startSet_of_fault {s : State} {b : Nat} {m : MSet} {code : Nat} {d : Word × Word × Word × Word}
    (hd : stopDrops s b m = false) (h : fetchSlot s b m = .fault code d) : startSet b m s = (none, slotFault code d b m s) := by
  simp [startSet, hd, h]

theorem startSet_of_run {s : State} {b : Nat} {m : MSet} {i : Instr}
    (hd : stopDrops s b m = false) (h : fetchSlot s b m = .run i) : startSet b m s = (some i, { s with fire := some (b, m) }) := by
  simp [startSet, hd, h]

section Fetch

variable {s : State} {b : Nat} {m : MSet} {i : Instr}

theorem fetchSlot_of_poison (hp : (s.slot b m.el m.slot).poison = true) : fetchSlot s b m = .fault 0x20 (locWord 0 m.el, 0, 0, 0) := by
  simp [fetchSlot, hp]

theorem fetchSlot_of_ctx_ne (hp : (s.slot b m.el m.slot).poison = false) (hc : (s.slot b m.el m.slot).ctx ≠ m.ctx) :
    fetchSlot s b m = .fault 0x01 ((s.slot b m.el m.slot).word, 4, word m.ctx, 0) := by
  simp [fetchSlot, hp, hc]

theorem fetchSlot_of_decode (hp : (s.slot b m.el m.slot).poison = false) (hc : (s.slot b m.el m.slot).ctx = m.ctx)
    (hi : decodeWord (s.slot b m.el m.slot).word = .ok i) :
    fetchSlot s b m = if fieldsStand s b m (s.slot b m.el m.slot) i then .run i
      else .fault 0x01 ((s.slot b m.el m.slot).word, 2, 0, 0) := by
  simp [fetchSlot, hp, hc, hi]

theorem fetchSlot_of_decode_error {x : DecodeError} (hp : (s.slot b m.el m.slot).poison = false)
    (hc : (s.slot b m.el m.slot).ctx = m.ctx) (hx : decodeWord (s.slot b m.el m.slot).word = .error x) :
    fetchSlot s b m = .fault 0x01 ((s.slot b m.el m.slot).word, decodeCause x, 0, 0) := by
  simp [fetchSlot, hp, hc, hx]

end Fetch

theorem decodeCause_eq (x : DecodeError) : decodeCause x = if x = .short ∨ x = .empty ∨ x = .opcode then 1 else 2 := by
  cases x <;> rfl

theorem start_input {s : State} {i : Instr} {k : Nat} (h : s.inputs[k]? = some i) :
    Cand.start s (.input k) =
      if isFcmd i then (none, { s with inputs := dropAt s.inputs k, flight := s.flight ++ [i] })
      else (some i, { s with inputs := dropAt s.inputs k }) := by
  simp [Cand.start, h]

end Sys2Proof.Machine

namespace Sys2Proof

/-! ## A slot word and its parts (R4, R73) -/

theorem leNat_leBytes (n v : Nat) : leNat (leBytes n v) = v % 256 ^ n := by
  induction n generalizing v with
  | zero => simp [leBytes, leNat, Nat.mod_one]
  | succ n ih =>
    have hsplit : v % 256 ^ (n + 1) = v % 256 + 256 * (v / 256 % 256 ^ n) := by rw [Nat.pow_succ', Nat.mod_mul]
    simp [leBytes, leNat, ih, hsplit]

@[simp] theorem length_leBytes (n v : Nat) : (leBytes n v).length = n := by
  induction n generalizing v with
  | zero => rfl
  | succ n ih => simp [leBytes, ih]

/-- The eight bytes of a number are read as the word of that number (R4). -/
theorem decodeWord_of_decodeBytes {v : Nat} {i : Instr} {bs : List Byte} (h : decodeBytes (leBytes 8 v) = .ok (i, bs)) :
    decodeWord (Machine.word v) = .ok i := by
  have hword : BitVec.ofNat 64 (leNat ((leBytes 8 v).take 8)) = Machine.word v := by
    rw [List.take_of_length_le (length_leBytes 8 v).le, leNat_leBytes]
    exact BitVec.eq_of_toNat_eq (by simp only [Machine.word, BitVec.toNat_ofNat]; omega)
  have hlen : ¬ (leBytes 8 v).length < 8 := by rw [length_leBytes]; exact lt_irrefl 8
  unfold decodeBytes at h
  rw [if_neg hlen, hword] at h
  split at h
  · cases h
  · rename_i j hj
    cases h
    exact hj

/-- The numbered bits of the opcode table are the slot word they spell (R4). -/
theorem decodeWord_of_decodeTableWord {nbits w : Nat} {i : Instr} (h : decodeTableWord nbits w = some i) :
    decodeWord (Machine.word (w % 2 ^ Nat.min nbits 64)) = .ok i := by
  unfold decodeTableWord at h
  split at h
  · cases h
  · rename_i j bs hj
    cases h
    exact decodeWord_of_decodeBytes hj

/-- The form part that these bits are read as (R79, R81, R83 to R85). -/
def Body.ReadFrom (v : BitVec 27) : Body → Prop
  | .a f => f = decodeA v
  | .x f => decodeX v = some f
  | .m f => decodeM v = some f
  | .i f => decodeI v = some f
  | .s f => f = decodeS v

theorem opA_parts {n : Nat} {k : Common → FormA → Instr} (h : opA n = some k) (c : Common) (f : FormA) :
    (k c f).parts = some ⟨BitVec.ofNat 8 n, c, .a f⟩ := by
  unfold opA at h
  split at h <;> cases h <;> rfl

theorem opX_parts {n : Nat} {k : Common → FormX → Instr} (h : opX n = some k) (c : Common) (f : FormX) :
    (k c f).parts = some ⟨BitVec.ofNat 8 n, c, .x f⟩ := by
  unfold opX at h
  split at h <;> cases h <;> rfl

theorem opM_parts {n : Nat} {k : Common → FormM → Instr} (h : opM n = some k) (c : Common) (f : FormM) :
    (k c f).parts = some ⟨BitVec.ofNat 8 n, c, .m f⟩ := by
  unfold opM at h
  split at h <;> cases h <;> rfl

theorem opI_parts {n : Nat} {k : Common → FormI → Instr} (h : opI n = some k) (c : Common) (f : FormI) :
    (k c f).parts = some ⟨BitVec.ofNat 8 n, c, .i f⟩ := by
  unfold opI at h
  split at h <;> cases h <;> rfl

theorem opS_parts {n : Nat} {k : Common → FormS → Instr} (h : opS n = some k) (c : Common) (f : FormS) :
    (k c f).parts = some ⟨BitVec.ofNat 8 n, c, .s f⟩ := by
  unfold opS at h
  split at h <;> cases h <;> rfl

theorem decodeBody_parts {c : Common} {n : Nat} {v : BitVec 27} {i : Instr} (h : decodeBody c n v = .ok i) :
    ∃ b : Body, i.parts = some ⟨BitVec.ofNat 8 n, c, b⟩ ∧ b.ReadFrom v := by
  unfold decodeBody at h
  repeat' split at h
  all_goals cases h
  · rename_i hk
    exact ⟨.a _, opA_parts hk .., rfl⟩
  · rename_i hk _ _ hf
    exact ⟨.x _, opX_parts hk .., hf⟩
  · rename_i hk _ _ hf
    exact ⟨.m _, opM_parts hk .., hf⟩
  · rename_i hk _ _ hf
    exact ⟨.i _, opI_parts hk .., hf⟩
  · rename_i hk
    exact ⟨.s _, opS_parts hk .., rfl⟩

/-- A word that is read as an instruction: the loader accepts it by itself, and its parts are the fields of the word. -/
theorem decodeWord_parts {w : Word} {i : Instr} (h : decodeWord w = .ok i) :
    i.wf = true ∧ ∃ c b, i.parts = some ⟨wordOp w, c, b⟩ ∧ b.ReadFrom (w.extractLsb' 0 27) := by
  unfold decodeWord at h
  split at h
  · cases h
  split at h
  · cases h
  split at h
  · cases h
  rename_i c hc
  split at h
  · cases h
  rename_i j hj
  split at h
  · rename_i hwf
    cases h
    obtain ⟨b, hp, hb⟩ := decodeBody_parts hj
    rw [BitVec.ofNat_toNat, BitVec.setWidth_eq] at hp
    exact ⟨hwf, c, b, hp, hb⟩
  · cases h

end Sys2Proof

namespace Sys2Proof.Machine

open Sys2Proof

/-! ## The machine with a word placed (log 5) -/

/-- The number of the hitch that a placed word stands in: not the one its exit or call names. -/
def placedNum (w : Word) : Nat :=
  if (wordOp w).toNat / 2 = 0x40 then (if bits w 12 8 = 0 then 1 else 0) else 0

/-- The tag fields of the hitch it stands in. -/
def placedDepth (i : Instr) : Nat := if placedBare i then 0 else 7

/-- The hitch it stands in, and the one its exit or call names. -/
def placedHome (w : Word) (i : Instr) : HitchCfg :=
  placedHitch (placedDepth i) (bits w 14 5) (inStoreMask i (placedStore i))
def placedLink (i : Instr) : HitchCfg := placedHitch (placedLinkDepth i) 0 false

def placedGate (w : Word) (i : Instr) : Gate :=
  { Gate.reset with hitches := [(placedNum w, placedHome w i)], insts := [(0, placedInst (placedNum w))] }

def placedGates (w : Word) (i : Instr) : AMap Gate :=
  let g := placedGate w i
  if (wordOp w).toNat / 2 ≠ 0x40 then [(0, g)]
  else if bits w 17 3 = 0 then [(0, { g with hitches := AMap.set g.hitches (bits w 12 5) (placedLink i) })]
  else [(0, g), (bits w 17 3, { Gate.reset with hitches := [(bits w 12 5, placedLink i)] })]

def placedRecipes (i : Instr) : List Word :=
  match i.parts with
  | some ⟨op, _, .i f⟩ => placedRecipe op.toNat f
  | _ => []

def placedSlot (w : Word) : SlotCell := ⟨w, false, true, 0, 0, placedNum w, 0, []⟩
def placedRoute : RouteCell := ⟨0x7FFFFFFFF80#64 &&& ~~~(0x7FF#64), false, some 0⟩

/-- The element of the placed word, with these sets to issue. -/
def placedFirst (w : Word) (sets : List MSet) : Element :=
  { Element.reset with
    slots := [(0, placedSlot w)], routes := (List.range 8).map (·, placedRoute), rows := [⟨0, 0, .empty, []⟩], issue := sets }

def placedBay (w : Word) (i : Instr) (sets : List MSet) (clk : Nat) : Bay :=
  { Bay.reset with
    elems := [(0, placedFirst w sets), (1, placedElement (placedNum w))], gates := placedGates w i
    sites := [(bits w 19 8, placedSite i)], ctxs := [(0, placedCtx w (placedRecipes i))], clk := clk }

/-- A reset machine, booted, with this bay for the word of an instruction. -/
def placedState (y : Bay) (picks : List Nat) (n : Nat) : State :=
  { State.reset with
    boot := .up 0, bays := [(0, y)]
    parts := [(0, { Part.reset with bays0 := 1, pctl := 1#64 <<< 63, launches := [placedLaunch] })], picks := picks, freeCtr := n }

/-- The machine as the word of instruction `i` is placed, and as its set is taken after time has passed. -/
def placedNow (w : Word) (i : Instr) : State := placedState (placedBay w i [placedSet w] 0) [0] 0
def placedTaken (w : Word) (i : Instr) : State := placedState (placedBay w i [] (Config.ticks 0 0)) [] 1

theorem placeWord_reset {w : Word} {i : Instr} (h : decodeWord w = .ok i) : placeWord State.reset w = placedNow w i := by
  unfold placeWord
  rw [h]
  rfl

/-- GATE and HNUM stand side by side (R83). -/
theorem bits_gate_hnum (w : Word) : bits w 12 8 = bits w 12 5 + 32 * bits w 17 3 := by
  simp only [bits, BitVec.extractLsb'_toNat, Nat.shiftRight_eq_div_pow]
  omega

theorem placedNum_ne_hnum {w : Word} (hop : (wordOp w).toNat / 2 = 0x40) (hg : bits w 17 3 = 0) : placedNum w ≠ bits w 12 5 := by
  have hbits := bits_gate_hnum w
  rw [placedNum, if_pos hop]
  split <;> omega

theorem placedNum_lt (w : Word) : placedNum w < 2 := by
  unfold placedNum
  repeat' split
  all_goals omega

section Placed

variable (w : Word) (i : Instr)

theorem tick_placedNow_take :
    ((tick (placedNow w i)).modElem 0 0 fun x => { x with issue := dropAt x.issue 0 }) = placedTaken w i := by
  have htick : tick (placedNow w i) = placedState (placedBay w i [placedSet w] (Config.ticks 0 0)) [] 1 := by
    show placedState (placedBay w i [placedSet w] (0 + Config.ticks 0 0)) [] 1 = _
    rw [Nat.zero_add]
  rw [htick]
  rfl

theorem placedGates_inst : AMap.get? (AMap.getD (placedGates w i) 0 Gate.reset).insts 0 = some (placedInst (placedNum w)) := by
  unfold placedGates
  dsimp only
  split
  · rfl
  · split <;> rfl

theorem placedGates_home :
    AMap.get? (AMap.getD (placedGates w i) 0 Gate.reset).hitches (placedNum w) = some (placedHome w i) := by
  unfold placedGates
  dsimp only
  split
  · simp [AMap.getD, AMap.get?, placedGate]
  · rename_i hop
    split
    · rename_i hg
      have hne := placedNum_ne_hnum (not_not.1 hop) hg
      simp [AMap.getD, AMap.get?, placedGate, AMap.get?_set_ne hne]
    · simp [AMap.getD, AMap.get?, placedGate]

variable {w} in
theorem placedGates_link (hop : (wordOp w).toNat / 2 = 0x40) :
    AMap.get? (AMap.getD (placedGates w i) (bits w 17 3) Gate.reset).hitches (bits w 12 5) = some (placedLink i) := by
  unfold placedGates
  dsimp only
  rw [if_neg (not_not.2 hop)]
  split
  · rename_i hg
    simp [AMap.getD, AMap.get?, hg]
  · rename_i hg
    simp [AMap.getD, AMap.get?, Ne.symm hg]

theorem placedNow_setGoes : setGoes (placedNow w i) 0 (placedSet w) = true := by
  have hlive : frozenInst (placedNow w i) 0 0 0 = false := by
    rw [frozenInst, show (placedNow w i).inst? 0 0 0 = _ from placedGates_inst w i]
    rfl
  have hctx : ctxGoes (placedNow w i) 0 0 = true := rfl
  show (!frozenInst (placedNow w i) 0 0 0 && (ctxGoes (placedNow w i) 0 0 && true && true)) = true
  rw [hlive, hctx]
  rfl

/-- The placed set is all that the elements of its bay can issue. -/
theorem placedNow_fireCands : fireCands (placedNow w i) 0 ((placedNow w i).bay 0) = [.fire 0 0 0] := by
  have hgoes := placedNow_setGoes w i
  have hunit : ∀ unit, nextSet (placedNow w i) 0 0 unit (placedFirst w [placedSet w]) =
      if w.getLsbD 53 = unit then some (.fire 0 0 0) else none := by
    intro unit
    show Option.map _ (if (w.getLsbD 53 == unit && setGoes (placedNow w i) 0 (placedSet w)) = true then some 0 else none) = _
    rw [hgoes]
    by_cases h : w.getLsbD 53 = unit <;> simp
  show (nextSet (placedNow w i) 0 0 false (placedFirst w [placedSet w])).toList ++
    (nextSet (placedNow w i) 0 0 true (placedFirst w [placedSet w])).toList ++ [] ++ [] = _
  rw [hunit, hunit]
  cases w.getLsbD 53 <;> rfl

/-- What the placed machine does next is to fire the placed set. -/
theorem placedNow_chosen : chosen (placedNow w i) = some (.fire 0 0 0) := by
  have hfire := placedNow_fireCands w i
  have hchoose : choose (placedNow w i) = some (.fire 0 0 0) := by
    show (fireCands (placedNow w i) 0 ((placedNow w i).bay 0) ++ [] ++ flightCands (placedNow w i) ++
      (ownEvents (placedNow w i)).map .own ++ inputCands (placedNow w i))[0]? = _
    rw [hfire]
    rfl
  rw [chosen_of_choose hchoose]
  show some (if (1 < (fireCands (placedNow w i) 0 ((placedNow w i).bay 0)).length && _ && _) = true then _ else _) = _
  rw [hfire]
  rfl

theorem placedTaken_hitch : (placedTaken w i).hitch? 0 0 0 (placedNum w) = some (placedHome w i) := by
  have hkey : hKey 0 (placedNum w) = placedNum w := by
    have := placedNum_lt w
    unfold hKey
    omega
  show AMap.get? (AMap.getD (placedGates w i) 0 Gate.reset).hitches (hKey 0 (placedNum w)) = _
  rw [hkey]
  exact placedGates_home w i

variable {w} in
/-- The hitch that an exit or call names lies at every position of the region. -/
theorem placedTaken_hitchAt (hop : (wordOp w).toNat / 2 = 0x40) {pos : Nat} (hpos : pos < 128) :
    (placedTaken w i).hitchAt 0 0 pos (bits w 17 3) (bits w 12 5) = some (placedLink i) := by
  have hbay : ((placedTaken w i).ctx? 0 0).bind (·.bayAt pos) = some 0 := by
    show (if pos < 128 then (List.replicate 128 0)[pos]? else none) = some 0
    rw [if_pos hpos, List.getElem?_replicate_of_lt hpos]
  have hkey : hKey 0 (bits w 12 5) = bits w 12 5 := by
    have : bits w 12 5 < 2 ^ 5 := BitVec.isLt _
    unfold hKey
    omega
  rw [State.hitchAt, hbay]
  show AMap.get? (AMap.getD (placedGates w i) (bits w 17 3) Gate.reset).hitches (hKey 0 (bits w 12 5)) = _
  rw [hkey]
  exact placedGates_link i hop

end Placed

/-! ## Fields of the form part -/

theorem toNat_extractLsb'_form (w : Word) {lo n : Nat} (h : lo + n ≤ 27) :
    ((w.extractLsb' 0 27).extractLsb' lo n).toNat = bits w lo n := by
  have hsplit : (2 : Nat) ^ 27 = 2 ^ lo * 2 ^ (27 - lo) := by rw [← Nat.pow_add]; congr 1; omega
  have hdvd : (2 : Nat) ^ n ∣ 2 ^ (27 - lo) := Nat.pow_dvd_pow 2 (by omega)
  simp only [bits, BitVec.extractLsb'_toNat, Nat.shiftRight_eq_div_pow, Nat.pow_zero, Nat.div_one]
  rw [hsplit, Nat.mod_mul_right_div_self, Nat.mod_mod_of_dvd _ hdvd]

theorem decodeIsl_code {v : BitVec 2} {x : Isl} (h : decodeIsl v = some x) : x.code = v := by
  revert v x
  decide

theorem FormX.fields_of_read {w : Word} {f : FormX} (h : (Body.x f).ReadFrom (w.extractLsb' 0 27)) :
    f.gate.toNat = bits w 17 3 ∧ f.hnum.toNat = bits w 12 5 := by
  obtain ⟨top, _, rfl⟩ := Option.map_eq_some_iff.1 h
  exact ⟨toNat_extractLsb'_form w (by decide), toNat_extractLsb'_form w (by decide)⟩

theorem FormM.fields_of_read {w : Word} {f : FormM} (h : (Body.m f).ReadFrom (w.extractLsb' 0 27)) :
    f.site.toNat = bits w 19 8 ∧ f.lsid.toNat = bits w 14 5 := by
  obtain ⟨scope, _, rfl⟩ := Option.map_eq_some_iff.1 h
  exact ⟨toNat_extractLsb'_form w (by decide), toNat_extractLsb'_form w (by decide)⟩

theorem FormI.fields_of_read {w : Word} {f : FormI} (h : (Body.i f).ReadFrom (w.extractLsb' 0 27)) :
    f.isl.code.toNat = bits w 25 2 ∧ f.iport.toNat = bits w 21 4 ∧ f.rcp.toNat = bits w 11 10 := by
  obtain ⟨isl, hisl, rfl⟩ := Option.map_eq_some_iff.1 h
  refine ⟨?_, toNat_extractLsb'_form w (by decide), toNat_extractLsb'_form w (by decide)⟩
  rw [decodeIsl_code hisl]
  exact toNat_extractLsb'_form w (by decide)

/-! ## The hitch of a placed word -/

section Hitch

variable {d l : Nat} {st : Bool}

theorem placedHitch_widths (hd : d < 8) : (placedHitch d l st).widths = List.replicate d 1 := by
  show (List.range (bits (word (0x3F8000000000 + d * 2 ^ 36)) 36 3)).map
    (fun i => bits (word (0x3F8000000000 + d * 2 ^ 36)) (31 - 5 * i) 5 + 1) = _
  revert d
  decide

theorem placedHitch_depth (hd : d < 8) : (placedHitch d l st).depth = d := by
  show bits (word (0x3F8000000000 + d * 2 ^ 36)) 36 3 = d
  revert d
  decide

theorem placedHitch_mode (hd : d < 8) : (placedHitch d l st).mode = 0 := by
  show bits (word (0x3F8000000000 + d * 2 ^ 36)) 62 2 = 0
  revert d
  decide

theorem placedHitch_entries (hd : d < 8) : (placedHitch d l st).entries = 8 := by
  show bits (word (0x3F8000000000 + d * 2 ^ 36)) 39 3 + 1 = 8
  revert d
  decide

theorem placedHitch_spanLen (hd : d < 8) : (placedHitch d l st).spanLen = 16 := by
  show bits (word (0x3F8000000000 + d * 2 ^ 36)) 42 4 + 1 = 16
  revert d
  decide

theorem placedHitch_spanEl {j : Nat} (hj : j < 16) : (placedHitch d l st).spanEl j = 1 := by
  show (if j < 8 then bits (0x0002040810204081 : Word) (7 * j) 7 else bits (0x0002040810204081 : Word) (7 * (j - 8)) 7) = 1
  revert j
  decide

theorem placedHitch_entNet {j : Nat} (hj : j < 8) : (placedHitch d l false).entNet j = 0 := by
  show bits (word (0xFF00 + 0)) (16 + 2 * j) 2 = 0
  revert j
  decide

theorem placedHitch_storeMask (hl : l < 32) : (placedHitch d l st).storeMask.contains l = st := by
  show (setBits ((word (0xFF00 + (if st then 2 ^ (32 + l) else 0))).extractLsb' 32 32)).contains l = st
  revert st
  revert l
  decide

theorem placedHitch_exitMask {n : Nat} (hl : l < 32) (hn : n < 8) : (placedHitch d l st).exitMask.contains n = true := by
  have hall : ∀ l < 32, ∀ st : Bool, (word (0xFF00 + (if st then 2 ^ (32 + l) else 0))).extractLsb' 8 8 = 0xFF := by decide
  show (setBits ((word (0xFF00 + (if st then 2 ^ (32 + l) else 0))).extractLsb' 8 8)).contains n = true
  rw [hall l hl st]
  revert n
  decide

theorem placedHitch_keepMask {n : Nat} (hn : n < 64) : (placedHitch d l st).keepMask.contains n = true := by
  show (setBits (BitVec.allOnes 64)).contains n = true
  simp only [setBits, List.contains_iff_mem, List.mem_filter, List.mem_range, BitVec.getLsbD_allOnes]
  exact ⟨hn, decide_eq_true hn⟩

end Hitch

/-! ## What the fields of a placed word name -/

/-- A numbered list of places from 0 on. -/
theorem AMap.get?_map_range {α : Type} (f : Nat → α) {k n : Nat} (h : k < n) :
    AMap.get? ((List.range n).map fun k => (k, f k)) k = some (f k) := by
  have hget : ∀ l : List Nat, k ∈ l → AMap.get? (l.map fun k => (k, f k)) k = some (f k) := by
    intro l hl
    induction l with
    | nil => cases hl
    | cons j l ih =>
      by_cases hj : j = k
      · simp [AMap.get?, hj]
      · simp [AMap.get?, hj, ih ((List.mem_cons.1 hl).resolve_left (Ne.symm hj))]
  exact hget _ (List.mem_range.2 h)

/-- The slots that a placed word's targets may name: each waits at all four ports. -/
def placedMate (w : Word) : SlotCell := ⟨0x094FFFFFF8000000, false, true, 0, 0, placedNum w, 0, []⟩

section Placed

variable {w : Word} {i : Instr}

theorem placedTaken_slot {k : Nat} (hk : k < 32) : (placedTaken w i).slot 0 1 k = placedMate w := by
  show (AMap.get? ((List.range 32).map fun k => (k, placedMate w)) k).getD SlotCell.reset = _
  rw [AMap.get?_map_range (fun _ => placedMate w) hk]
  rfl

theorem slotInstr_placedMate :
    slotInstr (placedMate w) = some (.mad ⟨.ifTrue, false, .n64, noTarget, noTarget⟩ ⟨false, .rn, false, 0, 0⟩) := by
  have hword : decodeWord 0x094FFFFFF8000000 =
      .ok (.mad ⟨.ifTrue, false, .n64, noTarget, noTarget⟩ ⟨false, .rn, false, 0, 0⟩) := by decide
  unfold slotInstr
  rw [show (placedMate w).word = 0x094FFFFFF8000000 from rfl, hword]

theorem slotPorts_placedMate (s : State) (b ctx : Nat) : slotPorts s b ctx (placedMate w) = [0, 1, 2, 3] := by
  rw [slotPorts, slotInstr_placedMate]
  rfl

theorem placedDepth_lt : placedDepth i < 8 := by
  unfold placedDepth
  split <;> decide

theorem placed_targetStands (x : Target) :
    targetStands (placedTaken w i) 0 (placedSet w) (placedSlot w) (placedHome w i) x = true := by
  have hse : targetSe x < 16 := BitVec.isLt _
  have hport : targetPort x < 4 := BitVec.isLt _
  have hports : [0, 1, 2, 3].contains (targetPort x) = true := by
    revert hport
    generalize targetPort x = p
    revert p
    decide
  unfold targetStands
  dsimp only
  rw [placedHome, placedHitch_spanEl hse, placedTaken_slot (BitVec.isLt _), placedHitch_spanLen placedDepth_lt,
    slotPorts_placedMate, hports]
  simp [hse, placedMate, placedSlot]

theorem word_of_mem_mates {d : SlotCell} (h : d ∈ mates (placedTaken w i) 0 (placedSet w) (placedSlot w)) :
    d.word = 0x094FFFFFF8000000 := by
  obtain ⟨e, he, hd⟩ := List.mem_flatMap.1 h
  obtain ⟨k, hk, rfl⟩ := List.mem_map.1 hd
  obtain ⟨hmem, hown⟩ := List.mem_filter.1 hk
  obtain rfl | he := List.mem_cons.1 he
  · rw [List.mem_singleton.1 hmem] at hown
    simp [show (placedSet w).el = 0 from rfl, show (placedSet w).slot = 0 from rfl] at hown
  · rw [List.mem_singleton.1 he] at hmem
    obtain ⟨j, -, rfl⟩ := List.mem_map.1 hmem
    rfl

/-- No other slot of the hitch bears a number of its own. -/
theorem placed_borneTwice {lo hi : Nat} (hlo : 9 < lo) (no : Instr → Parts → Option Nat) (k : Nat) :
    borneTwice (placedTaken w i) 0 (placedSet w) (placedSlot w) lo hi no k = false := by
  refine List.any_eq_false.2 fun d hd => ?_
  have hop : ¬ lo ≤ (wordOp d.word).toNat := by
    rw [word_of_mem_mates hd, show (wordOp 0x094FFFFFF8000000).toNat = 9 from rfl]
    omega
  simp [hop]

theorem placedTaken_site {f : FormM} (hf : f.site.toNat = bits w 19 8) :
    (placedTaken w i).site? 0 (siteOf (placedTaken w i) 0 (placedSet w).ctx f) = some (placedSite i) := by
  show AMap.get? [(bits w 19 8, placedSite i)] (0 + f.site.toNat) = _
  rw [Nat.zero_add, hf]
  exact if_pos rfl

theorem placed_atStore {p : Parts} {f : FormM} (hb : p.b = .m f) (hf : f.site.toNat = bits w 19 8) :
    atStore (placedTaken w i) 0 (placedSet w) p = placedStore i := by
  unfold atStore
  rw [hb]
  dsimp only
  rw [placedTaken_site hf]
  rfl

/-! ### Numbers and tags (R18, R117, R184) -/

theorem lsidOf_eq_some {p : Parts} {k : Nat} (h : lsidOf i p = some k) : ∃ f, p.b = .m f ∧ k = f.lsid.toNat := by
  unfold lsidOf at h
  split at h
  · cases h
  · cases h
  · rename_i f _ _ hb
    cases h
    exact ⟨f, hb, rfl⟩
  · cases h

theorem exnOf_lt {k : Nat} (h : exnOf i = some k) : k < 8 := by
  unfold exnOf at h
  split at h <;> cases h <;> exact BitVec.isLt _

theorem putOf_lt {k : Nat} (h : putOf i = some k) : k < 64 := by
  unfold putOf at h
  split at h <;> cases h
  rename_i f
  have : f.hnum.toNat < 2 ^ 5 := BitVec.isLt _
  unfold keepRegOf
  omega

theorem placed_numbersStand {p : Parts} (hb : p.b.ReadFrom (w.extractLsb' 0 27)) :
    numbersStand (placedTaken w i) 0 (placedSet w) (placedSlot w) (placedHome w i) i p = true := by
  have hl : bits w 14 5 < 32 := BitVec.isLt _
  have hlsid : ∀ k, lsidOf i p = some k → k = bits w 14 5 ∧ atStore (placedTaken w i) 0 (placedSet w) p = placedStore i := by
    intro k hk
    obtain ⟨f, hf, rfl⟩ := lsidOf_eq_some hk
    rw [hf] at hb
    obtain ⟨hsite, hlsid⟩ := FormM.fields_of_read hb
    exact ⟨hlsid, placed_atStore hf hsite⟩
  have hmates : ∀ d ∈ mates (placedTaken w i) 0 (placedSet w) (placedSlot w), wordOp d.word = 9 := by
    intro d hd
    rw [word_of_mem_mates hd]
    rfl
  unfold numbersStand
  dsimp only
  simp only [Bool.and_eq_true]
  refine ⟨⟨⟨(Option.all_eq_true _ _).2 fun k hk => ?_, (Option.all_eq_true _ _).2 fun k hk => ?_⟩,
    (Option.all_eq_true _ _).2 fun k hk => ?_⟩, ?_⟩
  · obtain ⟨rfl, hstore⟩ := hlsid k hk
    rw [hstore, show (placedHome w i).storeMask.contains (bits w 14 5) = _ from placedHitch_storeMask hl,
      placed_borneTwice (by decide), show (placedHome w i).lsids = [bits w 14 5] from rfl]
    simp
  · rw [show (placedHome w i).exitMask.contains k = true from placedHitch_exitMask hl (exnOf_lt hk),
      placed_borneTwice (by decide)]
    rfl
  · rw [show (placedHome w i).keepMask.contains k = true from placedHitch_keepMask (putOf_lt hk), placed_borneTwice (by decide)]
    rfl
  · split
    · exact List.all_eq_true.2 fun d hd => by rw [hmates d hd]; rfl
    · rw [Bool.or_eq_true]
      exact .inr (List.all_eq_true.2 fun d hd => by rw [hmates d hd]; rfl)

theorem tagField_lt_of_tagReadWf {c : Common} {f : FormA} {getf : Bool} (h : tagReadWf c f getf = true) : f.tagField < 7 := by
  simp only [tagReadWf, Bool.and_eq_true, decide_eq_true_eq] at h
  obtain ⟨⟨⟨-, hfield⟩, -⟩, -⟩ := h
  exact hfield

theorem placed_tagOk (hwf : i.wf = true) : tagOk (placedHome w i) i = true := by
  have hw : (placedHome w i).widths = List.replicate (placedDepth i) 1 := placedHitch_widths placedDepth_lt
  have hm : (placedHome w i).mode = 0 := placedHitch_mode placedDepth_lt
  unfold tagOk
  dsimp only
  rw [hw, hm]
  cases i with
  | getf c f =>
    exact decide_eq_true (tagField_lt_of_tagReadWf hwf)
  | incf c f =>
    exact decide_eq_true (tagField_lt_of_tagReadWf hwf)
  | setf c f =>
    have hfield : f.tagField < 7 := by
      have haux : f.aux7.toNat < 7 := by simp [Instr.wf, tagBuildWf] at hwf; omega
      simp only [FormA.tagField, BitVec.extractLsb'_toNat, Nat.shiftRight_zero]
      omega
    exact decide_eq_true hfield
  | pushf c f =>
    have hroom : f.aux7.toNat % 32 + 1 ≤ 58 := by omega
    simpa [placedDepth, placedBare] using hroom
  | _ => rfl

/-! ### Exits, calls, returns (R83) -/

/-- The layout of a placed hitch leads by its tag operation to that of the hitch it names (R124; log 5). -/
theorem placed_joins {top : TagOp} {k : Nat} (hk : k < 7) :
    joins (List.replicate (if top == .push then 0 else 7) 1) top k
      (List.replicate (if top == .push then 1 else if top == .pop ∨ top == .popinc then 6 else 7) 1) = true := by
  cases top
  case inc | set => simpa [joins] using hk
  all_goals rfl

theorem placed_linkFits {f : FormX} (hbare : placedBare i = (f.top == .push)) (hfield : f.field.toNat < 7)
    (hdepth : placedLinkDepth i = if f.top == .push then 1 else if f.top == .pop ∨ f.top == .popinc then 6 else 7) :
    linkFits (placedHome w i) (placedLink i) f = true := by
  have hlt : placedLinkDepth i < 8 := by
    rw [hdepth]
    repeat' split
    all_goals decide
  have hentry : f.entry.toNat < 8 := BitVec.isLt _
  have hhome : (placedHome w i).widths = List.replicate (if f.top == .push then 0 else 7) 1 := by
    rw [← hbare]
    exact placedHitch_widths placedDepth_lt
  unfold linkFits
  have hlw : (placedLink i).widths = List.replicate (placedLinkDepth i) 1 := placedHitch_widths hlt
  have hle : (placedLink i).entries = 8 := placedHitch_entries hlt
  have hln : (placedLink i).entNet f.entry.toNat = 0 := placedHitch_entNet hentry
  rw [hhome, hlw, hle, hln, hdepth, placed_joins hfield, decide_eq_true hentry]
  simp

theorem field_lt_of_exitWf {c : Common} {f : FormX} {exn : Bool} (h : exitWf c f exn = true) : f.field.toNat < 7 := by
  simp only [exitWf, Bool.and_eq_true, decide_eq_true_eq] at h
  obtain ⟨⟨-, hfield⟩, -⟩ := h
  exact hfield

theorem placed_linkStands {f : FormX} (hop : (wordOp w).toNat / 2 = 0x40) (hb : (Body.x f).ReadFrom (w.extractLsb' 0 27))
    (hbare : placedBare i = (f.top == .push)) (hfield : f.field.toNat < 7)
    (hdepth : placedLinkDepth i = if f.top == .push then 1 else if f.top == .pop ∨ f.top == .popinc then 6 else 7) :
    linkStands (placedTaken w i) 0 (placedSet w) (placedHome w i) f = true := by
  obtain ⟨hgate, hnum⟩ := FormX.fields_of_read hb
  unfold linkStands
  rw [hgate, hnum, show (placedSet w).ctx = 0 from rfl, placedTaken_hitchAt i hop (BitVec.isLt f.pos), Option.any_some]
  exact placed_linkFits hbare hfield hdepth

theorem placed_retFits {f : FormX} (hbare : placedBare i = false) : retFits (placedHome w i) f = true := by
  have hw : (placedHome w i).widths = List.replicate 7 1 := by
    rw [show (7 : Nat) = placedDepth i by rw [placedDepth, hbare]; rfl]
    exact placedHitch_widths placedDepth_lt
  unfold retFits
  rw [hw]
  split <;> decide

/-! ### Route words, sites, recipes (R81, R84, R89) -/

theorem placed_routeStands {k : Nat} (hk : k < 8) :
    routeStands (placedTaken w i) 0 (placedSet w) (placedSlot w) (placedHome w i) k = true := by
  have hroute : AMap.get? ((placedTaken w i).elem 0 (placedSet w).el).routes k = some placedRoute :=
    AMap.get?_map_range (fun _ => placedRoute) hk
  have hany : (placedRoute.targets.any (· != noTarget)) = true := by decide
  unfold routeStands
  rw [hroute]
  dsimp only
  rw [hany, List.all_eq_true.2 fun x _ => placed_targetStands x]
  rfl

theorem placedMode_lt (i : Instr) : placedMode i < 3 := by
  unfold placedMode
  split <;> decide

/-- The entry of a placed site is zero but for its MODE (R159). -/
theorem placedSite_fields (i : Instr) : (placedSite i).life = 0 ∧ (placedSite i).lfield = 0 ∧ (placedSite i).fill = 0 ∧
    (placedSite i).src = 0 ∧ (placedSite i).mode = placedMode i := by
  have hbits : ∀ m < 3, bits (word (m * 2 ^ 17)) 11 2 = 0 ∧ bits (word (m * 2 ^ 17)) 8 3 = 0 ∧ bits (word (m * 2 ^ 17)) 19 3 = 0 ∧
      bits (word (m * 2 ^ 17)) 15 2 = 0 ∧ bits (word (m * 2 ^ 17)) 17 2 = m := by decide
  exact hbits _ (placedMode_lt i)

theorem placed_siteUseOk (hbare : placedBare i = false) : siteUseOk (placedSite i) (placedStore i) (placedHome w i) i = true := by
  have hdepth : (placedHome w i).depth = 7 := by
    rw [placedHome, placedHitch_depth placedDepth_lt, placedDepth, hbare]
    rfl
  obtain ⟨hlife, hlfield, hfill, hsrc, hmode⟩ := placedSite_fields i
  simp only [siteUseOk, Site.isZskip, Site.isNofill, Site.ordered, Site.streamMode, hlife, hlfield, hfill, hsrc, hmode, hdepth]
  clear hdepth hlife hlfield hfill hsrc hmode
  -- what is left asks the MODE that `placedMode` gives the instruction
  cases i <;> rfl

theorem placedBare_of_formM {op : BitVec 8} {c : Common} {f : FormM} (hp : i.parts = some ⟨op, c, .m f⟩) : placedBare i = false := by
  cases i
  all_goals cases hp
  all_goals rfl

theorem placed_siteStands {f : FormM} (hb : (Body.m f).ReadFrom (w.extractLsb' 0 27)) (hbare : placedBare i = false) :
    siteStands (placedTaken w i) 0 (placedSet w) (placedHome w i) i f = true := by
  have hsite := placedTaken_site (w := w) (i := i) (FormM.fields_of_read hb).1
  unfold siteStands
  rw [hsite, Option.any_some, show (placedSite i).isStore = placedStore i from rfl, placed_siteUseOk hbare]
  rfl

/-- Flags that every word of two island commands bears (R84, R238): bit 0 of an sscat; bit 2 of an speer that has bit 0. -/
theorem island_flags {op : BitVec 8} {c : Common} {f : FormI} (hp : i.parts = some ⟨op, c, .i f⟩) (hwf : i.wf = true) :
    (op = 0xB6 → f.aux11.getLsbD 0 = true) ∧ (op = 0xB9 → f.aux11.getLsbD 0 = true → f.aux11.getLsbD 2 = true) := by
  cases i
  all_goals cases hp
  case sscat =>
    have haux : f.aux11 = 1 := by simp [Instr.wf, islandWf] at hwf; exact hwf.2
    exact ⟨fun _ => by rw [haux]; rfl, fun h => absurd h (by decide)⟩
  case speer =>
    refine ⟨fun h => absurd h (by decide), fun _ h0 => ?_⟩
    simp only [Instr.wf, islandWf, Bool.and_eq_true, h0] at hwf
    obtain ⟨-, -, hpeer⟩ := hwf
    simpa using hpeer
  all_goals exact ⟨fun h => absurd h (by decide), fun h => absurd h (by decide)⟩

theorem placedRecipe_fits {op : BitVec 8} {c : Common} {f : FormI} (hp : i.parts = some ⟨op, c, .i f⟩) (hwf : i.wf = true) :
    (recipeKind op.toNat == 0 || recipeFits op.toNat f (Recipe.of (placedRecipe op.toNat f))) = true := by
  have hflags := island_flags hp hwf
  unfold recipeFits placedRecipe
  revert hflags
  generalize f.aux11.getLsbD 0 = z, f.aux11.getLsbD 2 = y
  revert z y
  cases i
  all_goals cases hp
  all_goals decide

theorem placed_recipeStands {op : BitVec 8} {c : Common} {f : FormI} (hp : i.parts = some ⟨op, c, .i f⟩) (hwf : i.wf = true)
    (hb : (Body.i f).ReadFrom (w.extractLsb' 0 27)) : recipeStands (placedTaken w i) 0 (placedSet w) op.toNat f = true := by
  obtain ⟨hisl, hport, hrcp⟩ := FormI.fields_of_read hb
  have hctx : (placedTaken w i).ctx? 0 (placedSet w).ctx = some (placedCtx w (placedRecipes i)) := rfl
  have hports : (placedCtx w (placedRecipes i)).ports = [(bits w 25 2, bits w 21 4)] := rfl
  have hrecipes : AMap.get? (placedCtx w (placedRecipes i)).recipes (bits w 11 10) = some (placedRecipe op.toNat f) := by
    rw [show (placedCtx w (placedRecipes i)).recipes = [(bits w 11 10, placedRecipes i)] from rfl, placedRecipes, hp]
    exact if_pos rfl
  unfold recipeStands
  rw [hctx, hisl, hport, hrcp]
  dsimp only [Option.any_some]
  rw [hports, hrecipes]
  simpa using placedRecipe_fits hp hwf

/-- The fields of a placed word stand (R77). -/
theorem placed_fieldsStand {c : Common} {b : Body} (hwf : i.wf = true) (hp : i.parts = some ⟨wordOp w, c, b⟩)
    (hb : b.ReadFrom (w.extractLsb' 0 27)) :
    fieldsStand (placedTaken w i) 0 (placedSet w) (placedSlot w) i = true := by
  unfold fieldsStand
  rw [show (placedTaken w i).hitch? 0 (placedSet w).gate (placedSet w).ctx (placedSlot w).hnum = _ from placedTaken_hitch w i, hp]
  dsimp only
  rw [placed_targetStands, placed_targetStands, placed_tagOk hwf, placed_numbersStand hb]
  simp only [Bool.true_and]
  split
  case h_1 f _ g =>
    obtain ⟨hop, rfl, rfl⟩ : 0x80 = wordOp w ∧ _ ∧ g = f := by simpa [Instr.parts] using hp
    exact placed_linkStands (by rw [← hop]; rfl) hb rfl (field_lt_of_exitWf hwf) rfl
  case h_2 f _ g =>
    obtain ⟨hop, rfl, rfl⟩ : 0x81 = wordOp w ∧ _ ∧ g = f := by simpa [Instr.parts] using hp
    exact placed_linkStands (by rw [← hop]; rfl) hb rfl (field_lt_of_exitWf hwf) rfl
  case h_3 => exact placed_retFits rfl
  case h_4 f _ g =>
    obtain ⟨_, rfl, rfl⟩ : 0x71 = wordOp w ∧ _ ∧ g = f := by simpa [Instr.parts] using hp
    have hroute : g.aux7.toNat < 8 := by simp [Instr.wf, tokWf] at hwf; omega
    exact placed_routeStands hroute
  case h_9 => exact placed_siteStands hb (placedBare_of_formM hp)
  case h_10 => exact placed_recipeStands hp hwf hb
  all_goals rfl

end Placed

/-! ## The statement -/

/-- The placed set is taken, and its instruction fires (log 5). -/
theorem start_placedNow {w : Word} {i : Instr} (h : decodeWord w = .ok i) :
    Cand.start (tick (placedNow w i)) (.fire 0 0 0) = (some i, { placedTaken w i with fire := some (0, placedSet w) }) := by
  obtain ⟨hwf, c, b, hp, hb⟩ := decodeWord_parts h
  have hfetch : fetchSlot (placedTaken w i) 0 (placedSet w) = .run i := by
    have hslot : (placedTaken w i).slot 0 (placedSet w).el (placedSet w).slot = placedSlot w := rfl
    rw [fetchSlot_of_decode (congrArg SlotCell.poison hslot) (congrArg SlotCell.ctx hslot) (by rw [hslot]; exact h), hslot,
      placed_fieldsStand hwf hp hb]
    rfl
  rw [start_fire (m := placedSet w) rfl, tick_placedNow_take, startSet_of_run rfl hfetch]

/-- Settles O56: the branches of `step`, the tie, the slot word's faults, and the placed word. -/
theorem stepRuns : Obligations.StepRuns := by
  unfold Obligations.StepRuns
  refine ⟨fun _ => step_of_chosen_none, fun _ _ _ => step_of_start_none, fun _ _ _ _ _ => step_of_start_some, ?_, ?_, ?_, ?_, ?_⟩
  case refine_1 =>
    intro s c hc
    refine ⟨fun h => by rw [chosen_of_choose hc, tieBreak_of_not_faults h], fun b m hset hf hmem => ?_⟩
    obtain ⟨k, hk, hfirst⟩ := tieBreak_of_faults hset hf hmem
    have hfaults : ∀ d, d ∈ (fireCands s b (s.bay b)).filter (faults s) ↔ d ∈ fireCands s b (s.bay b) ∧ faults s d = true :=
      fun d => List.mem_filter
    obtain ⟨hkmem, hkf⟩ := (hfaults k).1 hfirst.mem
    refine ⟨k, hkmem, by rw [chosen_of_choose hc, hk], hkf, fun d hd hdf => ?_⟩
    exact ⟨hfirst.unreported d ((hfaults d).2 ⟨hd, hdf⟩), fun hx => hfirst.lowest d ((hfaults d).2 ⟨hd, hdf⟩) fun x hxm =>
      hx x ((hfaults x).1 hxm).1 ((hfaults x).1 hxm).2⟩
  case refine_2 =>
    intro s b e k m hm t c illegal hstop
    have hstart : Cand.start s (.fire b e k) = startSet b m t := start_fire hm
    rw [hstart]
    refine ⟨fun hp => ?_, fun hp hctx => ?_, fun hp hctx => ⟨fun i hi hf => ?_, fun i hi hf => ?_, fun x hx => ?_⟩⟩
    · exact startSet_of_fault hstop (fetchSlot_of_poison hp)
    · exact startSet_of_fault hstop (fetchSlot_of_ctx_ne hp hctx)
    · exact startSet_of_run hstop (by rw [fetchSlot_of_decode hp hctx hi, if_pos hf])
    · exact startSet_of_fault hstop (by rw [fetchSlot_of_decode hp hctx hi, if_neg (by rw [hf]; decide)]; rfl)
    · rw [← decodeCause_eq]
      exact startSet_of_fault hstop (fetchSlot_of_decode_error hp hctx hx)
  case refine_3 =>
    intro s i k hi
    rw [Cand.start, hi]
  case refine_4 =>
    intro s i k hi
    rw [start_input hi]
    exact ⟨fun h => by rw [h]; rfl, fun h => by rw [h]; rfl⟩
  case refine_5 =>
    intro nbits w i hi
    have hdecode := decodeWord_of_decodeTableWord hi
    rw [State.withFetchWord, placeWord_reset hdecode]
    exact ⟨_, placedNow_chosen _ i, start_placedNow hdecode, rfl⟩

end Sys2Proof.Machine

namespace Sys2Proof.Machine

open Sys2Proof

/-! ## Fields of a tag (R12, R13) -/

theorem getLsbD_putBits {t : Word} {lo n v k : Nat} (hn : lo + n ≤ 64) (hk : k < 64) :
    (putBits t lo n v).getLsbD k = if lo ≤ k ∧ k < lo + n then v.testBit (k - lo) else t.getLsbD k := by
  unfold putBits
  simp only [BitVec.getLsbD_or, BitVec.getLsbD_and, BitVec.getLsbD_not, BitVec.getLsbD_shiftLeft, BitVec.getLsbD_ofNat,
    Nat.testBit_two_pow_sub_one, Nat.testBit_mod_two_pow, hk, decide_true, Bool.true_and]
  by_cases hlo : k < lo
  · simp [hlo, Nat.not_le.2 hlo]
  · have h64 : k - lo < 64 := by omega
    by_cases hin : k < lo + n
    · have : k - lo < n := by omega
      simp [hlo, Nat.le_of_not_lt hlo, hin, this, h64]
    · have : ¬ k - lo < n := by omega
      simp [hin, this]

/-- The bits put are read back. -/
theorem bits_putBits_self {t : Word} {lo n v : Nat} (hn : lo + n ≤ 64) : bits (putBits t lo n v) lo n = v % 2 ^ n := by
  have h : (putBits t lo n v).extractLsb' lo n = BitVec.ofNat n v := by
    refine BitVec.eq_of_getLsbD_eq fun k hk => ?_
    rw [BitVec.getLsbD_extractLsb', getLsbD_putBits hn (by omega), BitVec.getLsbD_ofNat]
    simp [hk]
  rw [bits, h, BitVec.toNat_ofNat]

/-- A run of bits beside those put is as it was. -/
theorem extractLsb'_putBits_disjoint {t : Word} {lo n v p k : Nat} (hn : lo + n ≤ 64) (hp : p + k ≤ 64)
    (hd : p + k ≤ lo ∨ lo + n ≤ p) : (putBits t lo n v).extractLsb' p k = t.extractLsb' p k := by
  refine BitVec.eq_of_getLsbD_eq fun j hj => ?_
  rw [BitVec.getLsbD_extractLsb', BitVec.getLsbD_extractLsb', getLsbD_putBits hn (by omega), if_neg (by omega)]

theorem sum_take_succ_getD (ws : List Nat) (i : Nat) : (ws.take (i + 1)).sum = (ws.take i).sum + ws.getD i 0 := by
  rw [List.take_add_one, List.sum_append]
  cases h : ws[i]? <;> simp [List.getD, h]

theorem foldl_add_eq_sum (ws : List Nat) : ws.foldl (· + ·) 0 = ws.sum := by
  rw [List.sum_eq_foldl]

/-- The places above a field's lowest bit that are taken by the fields before it. -/
theorem fieldLo_eq (ws : List Nat) (i : Nat) : fieldLo ws i = 58 - ((ws.take i).sum + ws.getD i 0) := by
  rw [fieldLo, foldl_add_eq_sum, sum_take_succ_getD]

theorem sum_take_le (ws : List Nat) {i j : Nat} (h : i ≤ j) : (ws.take i).sum ≤ (ws.take j).sum :=
  (List.take_sublist_take_left h).sum_le_sum fun _ _ => Nat.zero_le _

section TagLayout

variable {ws : List Nat} {i j : Nat} (hsum : ws.sum ≤ 58)

include hsum

/-- A field ends where the fields before it begin. -/
theorem fieldLo_add_width : fieldLo ws i + ws.getD i 0 = 58 - (ws.take i).sum := by
  have hle : (ws.take (i + 1)).sum ≤ ws.sum := (List.take_sublist _ _).sum_le_sum fun _ _ => Nat.zero_le _
  rw [sum_take_succ_getD] at hle
  rw [fieldLo_eq]
  omega

/-- Two fields share no bit: one lies wholly below the other. -/
theorem fields_disjoint (h : j ≠ i) :
    fieldLo ws j + ws.getD j 0 ≤ fieldLo ws i ∨ fieldLo ws i + ws.getD i 0 ≤ fieldLo ws j := by
  have below : ∀ {a b : Nat}, a < b → fieldLo ws b + ws.getD b 0 ≤ fieldLo ws a := fun {a b} hab => by
    have hs := sum_take_le ws (Nat.succ_le_of_lt hab)
    rw [sum_take_succ_getD] at hs
    rw [fieldLo_add_width hsum, fieldLo_eq]
    omega
  rcases Nat.lt_or_gt_of_ne h with h | h
  · exact .inr (below h)
  · exact .inl (below h)

theorem tagField_tagPut_self (t : Word) (v : Nat) : tagField ws (tagPut ws t i v) i = v % 2 ^ ws.getD i 0 := by
  refine bits_putBits_self ?_
  rw [fieldLo_add_width hsum]
  omega

theorem tagField_tagPut_ne (t : Word) (v : Nat) (h : j ≠ i) : tagField ws (tagPut ws t i v) j = tagField ws t j := by
  have hi := fieldLo_add_width hsum (i := i)
  have hj := fieldLo_add_width hsum (i := j)
  unfold tagField tagPut bits
  rw [extractLsb'_putBits_disjoint (by omega) (by omega) (fields_disjoint hsum h)]

/-- DEPTH and CTX lie above every field. -/
theorem extractLsb'_tagPut_top (t : Word) (v : Nat) : (tagPut ws t i v).extractLsb' 58 6 = t.extractLsb' 58 6 := by
  have hi := fieldLo_add_width hsum (i := i)
  exact extractLsb'_putBits_disjoint (by omega) (by omega) (by omega)

end TagLayout

/-! ## Slots that compute a tag (R117) -/

section FireTag

variable {c : Common} {b : Nat} {m : MSet} {s : State} {v : Word → List Nat → MSet → Except (Word × Word × Word × Word) Word}

/-- A tag or field that fits goes to both targets. -/
theorem fireTag_of_ok {x : Word} (h : Ready c b m s) (hv : v (ownTag s b m) (ownWidths s b m) m = .ok x) :
    fireTag c v s = .next (deliver c (.sc x) b m s.taken) := by
  rw [fireTag, fireSlot_ready h]
  rw [show v (ownTag s.taken b m) (ownWidths s.taken b m) m = .ok x from hv]

/-- One that does not fit raises TAG_OVERFLOW (R38). -/
theorem fireTag_of_error {d : Word × Word × Word × Word} (h : Ready c b m s)
    (hv : v (ownTag s b m) (ownWidths s b m) m = .error d) : fireTag c v s = .next (slotFault 0x02 d b m s.taken) := by
  rw [fireTag, fireSlot_ready h]
  rw [show v (ownTag s.taken b m) (ownWidths s.taken b m) m = .error d from hv]

/-- A slot that tests whether its value fits does the one or the other. -/
theorem fireTag_of_ite {d : Word × Word × Word × Word} {x : Word} {p : Prop} [Decidable p] (h : Ready c b m s)
    (hv : v (ownTag s b m) (ownWidths s b m) m = if p then .error d else .ok x) :
    fireTag c v s = if p then .next (slotFault 0x02 d b m s.taken) else .next (deliver c (.sc x) b m s.taken) := by
  by_cases hp : p
  · rw [if_pos hp]
    exact fireTag_of_error h (hv.trans (if_pos hp))
  · rw [if_neg hp]
    exact fireTag_of_ok h (hv.trans (if_neg hp))

end FireTag

/-- Settles O21: `tagPut` writes a run of bits that no other field shares; each slot is a case of `fireTag`. -/
theorem tagValues : Obligations.TagValues := by
  unfold Obligations.TagValues
  refine ⟨fun ws t i v hsum _ _ => ?_, fun c f b m s h => ⟨?getf, ?incf, ?setf, ?pushf, ?popf⟩⟩
  · rw [foldl_add_eq_sum] at hsum
    exact ⟨tagField_tagPut_self hsum t v, fun j _ hj => tagField_tagPut_ne hsum t v hj, extractLsb'_tagPut_top hsum t v⟩
  case getf =>
    show execGetf c f s = _
    exact fireTag_of_ok h rfl
  case incf =>
    show execIncf c f s = _
    exact fireTag_of_ite h rfl
  case setf =>
    show execSetf c f s = _
    exact fireTag_of_ite h rfl
  case pushf =>
    show execPushf c f s = _
    exact fireTag_of_ite h rfl
  case popf =>
    show execPopf c f s = _
    exact fireTag_of_ok h rfl

end Sys2Proof.Machine

namespace Sys2Proof.Machine

open Sys2Proof

/-! ## The null path (R20) -/

/-- An instruction fires here as slots do, with this null path. -/
def NullsBy (c : Common) (onNull : Nat → MSet → State → State) (i : Instr) (s : State) : Prop :=
  ∃ go, exec i s = .next (fireSlot c onNull go s)

section Nulled

variable {c : Common} {b : Nat} {m : MSet} {s : State} {i : Instr} {n0 n1 : Val} {onNull : Nat → MSet → State → State}
  (h : Nulled c b m s)

include h

theorem NullsBy.exec (hi : NullsBy c onNull i s) : exec i s = .next (onNull b m s.taken) := by
  obtain ⟨go, hgo⟩ := hi
  rw [hgo, fireSlot_nulled h]

theorem exec_of_sendNulls (hi : NullsBy c (sendNulls c n0 n1) i s) : exec i s = .next (sendNulls c n0 n1 b m s.taken) :=
  hi.exec h

/-- An instruction that pins its instance pins it for a null too (R33). -/
theorem exec_of_pinnedNulls (hi : NullsBy c (fun b m s => sendNulls c n0 n1 b m (pinInst b m s)) i s) :
    exec i s = .next (sendNulls c n0 n1 b m (pinInst b m s.taken)) :=
  hi.exec h

theorem exec_of_noNulls (hi : NullsBy c (fun _ _ s => s) i s) : exec i s = .next s.taken :=
  hi.exec h

/-- A count or fold that may fire nulls as any slot does (R120). -/
theorem fireRec_nulled {go : Nat → MSet → State → State} (hr : s.recReady b m = true) :
    fireRec c n0 go s = .next (sendNulls c n0 (.ct 0) b m s.taken) := by
  unfold fireRec
  simp only [h.here, hr, if_true]
  rw [fireSlot_nulled h]

/-- mov4 sends its nulls to the targets of its route word too (R115). -/
theorem execMov4_nulled {f : FormA} {r : RouteCell}
    (hr : AMap.get? (s.elem b m.el).routes (f.aux7.extractLsb' 0 3).toNat = some r) (hp : r.poison = false) :
    execMov4 c f s = .next (r.targets.foldl (fun u t => sendTo u b m t (nullOn (valA m)))
      (sendNulls c (valA m) (valA m) b m s.taken)) := by
  have hroute : routeOf s.taken b m.el (bits f.aux7 0 3) = r := by
    rw [routeOf, show AMap.get? (s.taken.elem b m.el).routes (bits f.aux7 0 3) = some r from hr, Option.getD_some]
  rw [execMov4, fireSlot_nulled h, sendRouted]
  simp only [hroute, hp]
  rfl

end Nulled

theorem zeroVal_b1 (w : Bool) (t : Ty) : zeroVal w (t == .b1) = if w then .vec 0 else if t = .b1 then .ct 0 else .sc 0 := by
  simp only [zeroVal, beq_iff_eq]

/-- Is an operation of this kind placed in the wave buffer (R184)? -/
def OpKind.placed : OpKind → Bool
  | .store _ | .sflush | .srelStore => true
  | .fence _ r => r
  | _ => false

theorem MemOp.placed_eq (o : MemOp) : o.placed = o.kind.placed := by
  obtain ⟨kind, _⟩ := o
  cases kind <;> rfl

/-- The entry that a null of the store mask leaves: it names its LSID and writes nothing (R184). -/
def nullEnt (c : Common) (f : FormM) (kind : OpKind) (m : MSet) : WaveEnt :=
  { waveEnt ⟨kind, m.el, m.slot, f.lsid.toNat, c, f, 0, 0, noTok, 0, 0, .done, 0⟩ m.gate m.ix 0 .fence [] false with nul := true }

section NullOp

variable (c : Common) (f : FormM) {kind : OpKind} (n0 n1 : Val) (b : Nat) (m : MSet) (s : State)

/-- A null of an operation outside the store mask (R20, R184). -/
theorem nullOp_of_plain (hpin : ¬ (kind = .atomic ∨ kind = .stg)) (hp : kind.placed = false) :
    nullOp c f kind n0 n1 b m s = kick (sendNulls c n0 n1 b m (noteFired f.lsid.toNat b m s)) b := by
  simp only [nullOp, MemOp.placed_eq, hpin, hp, if_false, Bool.false_eq_true]

/-- A null of an operation that pins its instance. -/
theorem nullOp_of_pins (hpin : kind = .atomic ∨ kind = .stg) :
    nullOp c f kind n0 n1 b m s = kick (sendNulls c n0 n1 b m (noteFired f.lsid.toNat b m (pinInst b m s))) b := by
  have hp : kind.placed = false := by rcases hpin with rfl | rfl <;> rfl
  simp only [nullOp, MemOp.placed_eq, hpin, hp, if_true, if_false, Bool.false_eq_true]

/-- A null of the store mask. -/
theorem nullOp_of_placed (hp : kind.placed = true) :
    nullOp c f kind n0 n1 b m s = kick (sendNulls c n0 n1 b m
      (((noteFired f.lsid.toNat b m s).modBay b fun y => { y with wave := y.wave ++ [nullEnt c f kind m] }).modInst b m.gate m.ix
        fun i => { i with stores := insertNat f.lsid.toNat i.stores })) b := by
  have hpin : ¬ (kind = .atomic ∨ kind = .stg) := by
    rintro (rfl | rfl) <;> cases hp
  simp only [nullOp, MemOp.placed_eq, hpin, hp, if_true, if_false]
  rfl

end NullOp

section NullPath

variable {c : Common} {f : FormM} {b : Nat} {m : MSet} {s : State} {i : Instr} {kind : OpKind} {n0 n1 : Val} (h : Nulled c b m s)

include h

theorem exec_of_plainNull (hi : NullsBy c (nullOp c f kind n0 n1) i s) (hpin : ¬ (kind = .atomic ∨ kind = .stg)) (hp : kind.placed = false) :
    exec i s = .next (kick (sendNulls c n0 n1 b m (noteFired f.lsid.toNat b m s.taken)) b) := by
  rw [hi.exec h, nullOp_of_plain c f n0 n1 b m _ hpin hp]

theorem exec_of_pinnedNull (hi : NullsBy c (nullOp c f kind n0 n1) i s) (hpin : kind = .atomic ∨ kind = .stg) :
    exec i s = .next (kick (sendNulls c n0 n1 b m (noteFired f.lsid.toNat b m (pinInst b m s.taken))) b) := by
  rw [hi.exec h, nullOp_of_pins c f n0 n1 b m _ hpin]

/-- The null of the store mask leaves an entry that names its LSID and writes nothing. -/
theorem exec_of_placedNull (hi : NullsBy c (nullOp c f kind (.ct 0) (.ct 0)) i s) (hp : kind.placed = true) :
    ∃ e : WaveEnt, e.nul = true ∧ e.gate = m.gate ∧ e.ix = m.ix ∧ e.lsid = f.lsid.toNat ∧
      exec i s = .next (kick (sendNulls c (.ct 0) (.ct 0) b m
        (((noteFired f.lsid.toNat b m s.taken).modBay b fun y => { y with wave := y.wave ++ [e] }).modInst b m.gate m.ix fun i =>
          { i with stores := insertNat f.lsid.toNat i.stores })) b) :=
  ⟨nullEnt c f kind m, rfl, rfl, rfl, rfl, by rw [hi.exec h, nullOp_of_placed c f _ _ b m _ hp]⟩

end NullPath

/-- An srel is in the store mask on a store site (R190). -/
theorem srel_nullsBy {c : Common} {b : Nat} {m : MSet} {s : State} (f : FormM) (hs : s.fire = some (b, m)) {kind : OpKind}
    (hk : (if ((s.site? b (siteOf s b m.ctx f)).any (·.isStore)) = true then OpKind.srelStore else .srel) = kind) :
    NullsBy c (nullOp c f kind (.ct 0) (.ct 0)) (.srel c f) s := by
  have hfires : firesStoreSite f s = (s.site? b (siteOf s b m.ctx f)).any (·.isStore) := by
    rw [firesStoreSite, hs]
  rw [← hfires] at hk
  subst hk
  exact ⟨_, rfl⟩

/-- A fence is in the store mask when it has a release (R192). -/
theorem fence_nullsBy (c : Common) (f : FormM) (s : State) :
    NullsBy c (nullOp c f (.fence (f.ord == .acq || f.ord == .ar) (f.ord == .rel || f.ord == .ar)) (.ct 0) (.ct 0)) (.fence c f) s :=
  ⟨_, rfl⟩

/-- Settles O19: each instruction's null path is read off its meaning, and is what its set does on that path. -/
theorem nullPath : Obligations.NullPath := by
  unfold Obligations.NullPath
  refine ⟨fun c f b m s h => ?_, fun c f b m s h => ?_, fun c x y z u b m s h => ?_⟩
  · intro z zb zf nulls
    have hz : z = zeroVal c.w (c.ty == .b1) := (zeroVal_b1 _ _).symm
    refine ⟨fun i hi => ?integer, fun i hi => ?compare, fun i hi => ?float, fun i hi => ?lanes, exec_of_sendNulls h ⟨_, rfl⟩,
      fun hr i hi => ?record, ?lext, fun i hi => ?masks, fun i hi => ?tags, exec_of_sendNulls h ⟨_, rfl⟩, fun i hi => ?copies,
      fun r hr hp => execMov4_nulled h hr hp⟩
    case integer =>
      rw [hz]
      refine exec_of_sendNulls h ?_
      fin_cases hi <;> exact ⟨_, rfl⟩
    case compare | float | lanes | masks | tags =>
      refine exec_of_sendNulls h ?_
      fin_cases hi <;> exact ⟨_, rfl⟩
    case record =>
      fin_cases hi
      · exact fireRec_nulled h hr
      · exact fireRec_nulled h hr
    case lext =>
      have hlext := exec_of_sendNulls (i := .lext c f) h ⟨_, rfl⟩
      rw [hlext, zeroVal_b1]
      by_cases hb : c.ty = .b1
      · rw [if_pos hb, if_pos hb]
        rfl
      · rw [if_neg hb, if_neg hb]
        rfl
    case copies =>
      refine NullsBy.exec (onNull := nullsAsA c) h ?_
      fin_cases hi <;> exact ⟨_, rfl⟩
  · intro pinned nulls z nullEntry onStore rel
    refine ⟨fun i hi => ?loads, exec_of_plainNull (kind := .ldg) h ⟨_, rfl⟩ (by decide) rfl,
      exec_of_pinnedNull (kind := .stg) h ⟨_, rfl⟩ (by decide), fun i hi => ?atomics, fun i hi => ?stores,
      exec_of_plainNull (kind := .sinv) h ⟨_, rfl⟩ (by decide) rfl,
      fun hs => exec_of_placedNull h (srel_nullsBy f h.here (if_pos hs)) rfl,
      fun hs => exec_of_plainNull h (srel_nullsBy f h.here (if_neg hs)) (by decide) rfl,
      fun hr => exec_of_placedNull h (fence_nullsBy c f s) ?release,
      fun hr => exec_of_plainNull h (fence_nullsBy c f s) nofun ?noRelease⟩
    case loads =>
      fin_cases hi
      · exact exec_of_plainNull (kind := .load) h ⟨_, rfl⟩ (by decide) rfl
      · exact exec_of_plainNull (kind := .load) h ⟨_, rfl⟩ (by decide) rfl
      · exact exec_of_plainNull (kind := .ldo) h ⟨_, rfl⟩ (by decide) rfl
    case atomics =>
      refine exec_of_pinnedNull (kind := .atomic) h ?_ (by decide)
      fin_cases hi <;> exact ⟨_, rfl⟩
    case stores =>
      fin_cases hi
      · exact exec_of_placedNull (kind := .store false) h ⟨_, rfl⟩ rfl
      · exact exec_of_placedNull (kind := .store false) h ⟨_, rfl⟩ rfl
      · exact exec_of_placedNull (kind := .store true) h ⟨_, rfl⟩ rfl
      · exact exec_of_placedNull (kind := .sflush) h ⟨_, rfl⟩ rfl
    case release => simpa [OpKind.placed] using hr
    case noRelease => simpa [OpKind.placed, rel] using hr
  · intro nulls pinned
    refine ⟨fun i hi => ?exits, exec_of_sendNulls h ⟨_, rfl⟩, NullsBy.exec (onNull := putKeep x true 0) h ⟨_, rfl⟩,
      fun i hi => ?system, fun i hi => ?writes, exec_of_pinnedNulls h ⟨_, rfl⟩, exec_of_pinnedNulls h ⟨_, rfl⟩,
      exec_of_pinnedNulls h ⟨_, rfl⟩, fun i hi => ?islands, fun i hi => ?gathers⟩
    case exits =>
      refine exec_of_noNulls h ?_
      fin_cases hi <;> exact ⟨_, rfl⟩
    case system =>
      refine exec_of_sendNulls h ?_
      fin_cases hi <;> exact ⟨_, rfl⟩
    case writes | islands | gathers =>
      refine exec_of_pinnedNulls h ?_
      fin_cases hi <;> exact ⟨_, rfl⟩

end Sys2Proof.Machine

namespace Sys2Proof.Machine

open Sys2Proof

/-! ## The state with the set that fires taken up -/

namespace State

variable {s : State} {b g ix k n ctx : Nat}

@[simp] theorem taken_bay : s.taken.bay b = s.bay b := rfl
@[simp] theorem taken_gate : s.taken.gate b g = s.gate b g := rfl
@[simp] theorem taken_slot : s.taken.slot b k n = s.slot b k n := rfl
@[simp] theorem taken_inst? : s.taken.inst? b g ix = s.inst? b g ix := rfl
@[simp] theorem taken_hitch? : s.taken.hitch? b g ctx k = s.hitch? b g ctx k := rfl
@[simp] theorem taken_ctx? : s.taken.ctx? b ctx = s.ctx? b ctx := rfl
@[simp] theorem taken_part : s.taken.part n = s.part n := rfl
@[simp] theorem taken_hitchAt {pos : Nat} : s.taken.hitchAt b ctx pos g k = s.hitchAt b ctx pos g k := rfl
@[simp] theorem taken_keepReady : s.taken.keepReady b g ix k = s.keepReady b g ix k := rfl
@[simp] theorem taken_lowerDone : s.taken.lowerDone b g ix = s.lowerDone b g ix := rfl

end State

section Taken

variable {s : State} {b : Nat} {m : MSet}

@[simp] theorem ownTag_taken : ownTag s.taken b m = ownTag s b m := rfl
@[simp] theorem ownWidths_taken : ownWidths s.taken b m = ownWidths s b m := rfl
@[simp] theorem secondExit_taken : secondExit s.taken b m = secondExit s b m := rfl
@[simp] theorem linkOk_taken {l : Word} : linkOk s.taken b m l = linkOk s b m l := rfl
@[simp] theorem keepRow_taken {r : Nat} : keepRow s.taken b m r = keepRow s b m r := rfl
@[simp] theorem heldBack_taken : heldBack s.taken b m = heldBack s b m := rfl
@[simp] theorem hnumOf_taken : hnumOf s.taken b m = hnumOf s b m := rfl

end Taken

/-! ## Exits, calls, returns (R123 to R128) -/

/-- The link value of a ret (R127). -/
def linkOf (m : MSet) : Word := ((m.c.map fun k => valWord k.val).getD 0) &&& 0xFFFFFFFF#64

section Exits

variable {c : Common} {f : FormX} {b : Nat} {m : MSet} {s : State} {i : Inst} {tag : Word} {d : Word × Word × Word × Word}

theorem ownTag_of_inst (hi : s.inst? b m.gate m.ix = some i) : ownTag s b m = i.tag := by
  rw [ownTag, hi, Option.map_some, Option.getD_some]

theorem secondExit_of_inst (hi : s.inst? b m.gate m.ix = some i) : secondExit s b m = i.exit.isSome := by
  rw [secondExit, hi, Option.bind_some]

/-- The first exit of an instance is noted, and its tokens are held (R125). -/
theorem countExit_of_none (e : Bool) (depth : Nat) (hs : List Held) (hi : s.inst? b m.gate m.ix = some i) (hx : i.exit = none) :
    countExit f e depth hs b m s = holdTokens hs b m (s.modInst b m.gate m.ix fun i =>
      { i with exit := some f.exn.toNat, endStrand := e,
               popTo := if f.top = .pop ∨ f.top = .popinc then some (depth - 1) else none }) := by
  simp only [countExit, hi, hx, Option.bind_some]

/-- A second one raises HITCH_MULTIEXIT (R31). -/
theorem countExit_of_some {x : Nat} (e : Bool) (depth : Nat) (hs : List Held) (hi : s.inst? b m.gate m.ix = some i)
    (hx : i.exit = some x) : countExit f e depth hs b m s =
      s.takeFault b m.gate m.ix 0x05 (some m.el) m.slot (word x, word f.exn.toNat, 0, 0) .multi := by
  simp only [countExit, hi, hx, Option.bind_some]

variable (h : Ready c b m s)

include h

/-- A second exit faults before its tag is formed (log 77). -/
theorem fireExit_of_second (hx : secondExit s b m = true) : fireExit false c f s = .next (countExit f false 0 [] b m s.taken) := by
  simp only [fireExit, fireSlot_ready h, secondExit_taken, hx, Bool.not_false, Bool.and_self, if_true]

section First

variable {call : Bool} (hx : (!call && secondExit s b m) = false)

include hx

/-- A tag that does not fit stops an exit or call (R124). -/
theorem fireExit_of_error (hd : newTag (ownWidths s b m) (ownTag s b m) f.top f.field.toNat (valWord (valA m)) = .error d) :
    fireExit call c f s = .next (slotFault 0x02 d b m s.taken) := by
  simp only [fireExit, fireSlot_ready h, secondExit_taken, hx, Bool.false_eq_true, if_false, ownTag_taken, ownWidths_taken, hd]

theorem fireExit_of_ok {g : HitchCfg}
    (ht : newTag (ownWidths s b m) (ownTag s b m) f.top f.field.toNat (valWord (valA m)) = .ok tag)
    (hg : s.hitchAt b m.ctx f.pos.toNat f.gate.toNat f.hnum.toNat = some g) :
    let hs := exitTokens call f g tag (s.slot b m.el m.slot).se m
    fireExit call c f s =
      .next (if call then holdTokens hs b m s.taken else countExit f false (ownWidths s b m).length hs b m s.taken) := by
  simp only [fireExit, fireSlot_ready h, secondExit_taken, hx, Bool.false_eq_true, if_false, ownTag_taken, ownWidths_taken, ht,
    State.taken_hitchAt, hg, State.taken_slot]

end First

section Ret

variable (hx : secondExit s b m = false)
  (ht : newTag (ownWidths s b m) (ownTag s b m) f.top f.field.toNat (valWord (valA m)) = .ok tag)

include hx ht

/-- A link with END ends the strand (R127). -/
theorem execRet_of_end (hl : (linkOf m).getLsbD 31 = true) :
    execRet c f s = .next (countExit f true (ownWidths s b m).length [] b m s.taken) := by
  rw [linkOf] at hl
  simp only [execRet, fireSlot_ready h, secondExit_taken, hx, Bool.false_eq_true, if_false, ownTag_taken, ownWidths_taken, ht, hl,
    if_true]

variable (hl : (linkOf m).getLsbD 31 = false)

include hl

/-- A link that names no entry to return to raises ILLEGAL_SLOT, cause 6. -/
theorem execRet_of_badLink (hk : linkOk s b m (linkOf m) = none) :
    execRet c f s = .next (slotFault 0x01 ((s.slot b m.el m.slot).word, 6, linkOf m, 0) b m s.taken) := by
  rw [linkOf] at hl hk ⊢
  simp only [execRet, fireSlot_ready h, secondExit_taken, hx, Bool.false_eq_true, if_false, ownTag_taken, ownWidths_taken, ht, hl,
    linkOk_taken, hk, State.taken_slot]

/-- A link that names one gives it port A's value. -/
theorem execRet_of_link {g : HitchCfg} (hk : linkOk s b m (linkOf m) = some g) :
    let e := bits (linkOf m) 0 3
    execRet c f s = .next (countExit f false (ownWidths s b m).length
      [⟨false, (s.slot b m.el m.slot).se, m.slot, bits (linkOf m) 11 7, bits (linkOf m) 8 3, bits (linkOf m) 3 5, e, tag,
        ⟨onNet (g.entNet e) (valA m), false, false⟩⟩] b m s.taken) := by
  rw [linkOf] at hl hk ⊢
  simp only [execRet, fireSlot_ready h, secondExit_taken, hx, Bool.false_eq_true, if_false, ownTag_taken, ownWidths_taken, ht, hl,
    linkOk_taken, hk, State.taken_slot]

end Ret

end Exits

/-- Settles O23: an exit by the cases of `newTag` and then of `countExit`, a ret by the END bit and the link of its value. -/
theorem exitsAndReturns : Obligations.ExitsAndReturns := by
  unfold Obligations.ExitsAndReturns
  refine ⟨fun c f b m s i g h hi hg => ?_, fun c f b m s i tag h hi hx ht => ?_⟩
  · intro t ws tokens tooBig
    have htag := ownTag_of_inst hi
    have hsecond := secondExit_of_inst hi
    refine ⟨fun hx => ?exit, fun e hx => ?second, ?call, ?discard⟩
    case exit =>
      have hfirst : (!false && secondExit s b m) = false := by rw [hsecond, hx]; rfl
      cases hnew : newTag ws i.tag f.top f.field.toNat (valWord (valA m)) with
      | error d => exact fireExit_of_error h hfirst (htag ▸ hnew)
      | ok tag =>
        refine (fireExit_of_ok h hfirst (htag ▸ hnew) hg).trans ?_
        rw [if_neg Bool.false_ne_true, countExit_of_none false _ _ (s := s.taken) hi hx]
        rfl
    case second =>
      refine (fireExit_of_second h (by rw [hsecond, hx]; rfl)).trans ?_
      rw [countExit_of_some false 0 [] (s := s.taken) hi hx]
    case call =>
      cases hnew : newTag ws i.tag f.top f.field.toNat (valWord (valA m)) with
      | error d => exact fireExit_of_error h rfl (htag ▸ hnew)
      | ok tag => exact (fireExit_of_ok h rfl (htag ▸ hnew) hg).trans rfl
    case discard =>
      show execDiscard c f s = _
      rw [execDiscard, fireSlot_ready h]
  · intro t link exits
    have hfirst : secondExit s b m = false := by rw [secondExit_of_inst hi, hx]; rfl
    rw [← ownTag_of_inst hi] at ht
    refine ⟨fun hl => ?ends, fun hl hk => execRet_of_badLink h hfirst ht hl hk, fun g hl hk => ?link⟩
    case ends =>
      refine (execRet_of_end h hfirst ht hl).trans ?_
      rw [countExit_of_none true _ _ (s := s.taken) hi hx]
      rfl
    case link =>
      refine (execRet_of_link h hfirst ht hl hk).trans ?_
      rw [countExit_of_none false _ _ (s := s.taken) hi hx]
      rfl

end Sys2Proof.Machine

namespace Sys2Proof.Machine

open Sys2Proof

/-! ## Keep registers (R129) -/

section Keep

variable {c : Common} {f : FormX} {b : Nat} {m : MSet} {s : State} {row : Nat}

/-- The mode of the hitch of a set's instance. -/
def hitchMode (s : State) (b : Nat) (m : MSet) : Option Nat :=
  ((s.inst? b m.gate m.ix).bind fun i => s.hitch? b m.gate i.ctx i.hnum).map (·.mode)

variable (h : Ready c b m s)

include h

/-- Away from the strand's home bay both raise KEEP_CONFLICT (R22). -/
theorem execKget_of_error {d : Word × Word × Word × Word} (hr : keepRow s b m (keepRegOf f) = .error d) :
    execKget c f s = .next (slotFault 0x06 d b m s.taken) := by
  simp only [execKget, fireSlot_ready h, keepRow_taken, hr]

theorem execKput_of_error {d : Word × Word × Word × Word} (hr : keepRow s b m (keepRegOf f) = .error d) :
    execKput c f s = .next (slotFault 0x06 d b m s.taken) := by
  simp only [execKput, fireSlot_ready h, keepRow_taken, hr]

theorem execKput_of_ok (hr : keepRow s b m (keepRegOf f) = .ok row) :
    execKput c f s = .next (putKeep f false (valWord (valA m)) b m s.taken) := by
  simp only [execKput, fireSlot_ready h, keepRow_taken, hr]

section Row

variable (hr : keepRow s b m (keepRegOf f) = .ok row)

include hr

/-- In SEQ mode a kget delivers the register once no lower instance is live (R24). -/
theorem execKget_of_ready (hmode : hitchMode s b m = some 0) (hready : s.keepReady b m.gate m.ix (keepRegOf f) = true) :
    execKget c f s = .next (deliverPoi c (.sc ((s.bay b).keepReg row (keepRegOf f)))
      ((s.bay b).keepPoi.contains (64 * row + keepRegOf f)) b m s.taken) := by
  unfold hitchMode at hmode
  simp only [execKget, fireSlot_ready h, keepRow_taken, hr, State.taken_inst?, State.taken_hitch?, hmode, if_true,
    State.taken_keepReady, hready, State.taken_bay]

/-- Till then it waits with its frame row. -/
theorem execKget_of_not_ready (hmode : hitchMode s b m = some 0) (hready : s.keepReady b m.gate m.ix (keepRegOf f) = false) :
    execKget c f s = .next (waitSet b m s.taken) := by
  unfold hitchMode at hmode
  simp only [execKget, fireSlot_ready h, keepRow_taken, hr, State.taken_inst?, State.taken_hitch?, hmode, if_true,
    State.taken_keepReady, hready, Bool.false_eq_true, if_false]

/-- In the other modes it delivers what stood at admission. -/
theorem execKget_of_snapshot {i : Inst} (hmode : hitchMode s b m ≠ some 0) (hi : s.inst? b m.gate m.ix = some i) :
    execKget c f s =
      .next (deliverPoi c (.sc (AMap.getD i.keepSnap (keepRegOf f) 0)) (i.keepPoi.contains (keepRegOf f)) b m s.taken) := by
  unfold hitchMode at hmode
  simp only [execKget, fireSlot_ready h, keepRow_taken, hr, State.taken_inst?, State.taken_hitch?, hmode, if_false]
  simp only [hi, Option.map_some, Option.getD_some, Option.any_some]

end Row

end Keep

/-- Settles O24: the cases of `keepRow`, then those of the hitch's mode. -/
theorem keepRegisters : Obligations.KeepRegisters := by
  unfold Obligations.KeepRegisters
  intro c f b m s h t r mode
  refine ⟨fun d hd i hi => ?conflict, fun row hrow => ⟨fun hmode hready => execKget_of_ready h hrow hmode hready,
    fun hmode hready => execKget_of_not_ready h hrow hmode hready, fun i hmode hi => execKget_of_snapshot h hrow hmode hi,
    _, rfl, rfl, rfl, rfl, rfl, rfl, execKput_of_ok h hrow⟩⟩
  case conflict =>
    fin_cases hi
    · exact execKget_of_error h hd
    · exact execKput_of_error h hd

end Sys2Proof.Machine

namespace Sys2Proof.Machine

open Sys2Proof

/-! ## Instructions that pin their instance (R33, R202) -/

section Pinned

variable {c : Common} {b : Nat} {m : MSet} {s : State} {n0 n1 : Val} {go : Nat → MSet → State → State}

theorem heldBack_iff : heldBack s b m = true ↔ ∃ i h, s.inst? b m.gate m.ix = some i ∧ s.hitch? b m.gate i.ctx i.hnum = some h ∧
    h.seq = true ∧ s.lowerDone b m.gate m.ix = false := by
  unfold heldBack
  split
  · next hnone =>
    refine ⟨nofun, fun ⟨i, h, hi, hh, _⟩ => ?_⟩
    rw [hi, Option.bind_some, hh] at hnone
    cases hnone
  · next h hsome =>
    obtain ⟨i, hi, hh⟩ := Option.bind_eq_some_iff.1 hsome
    constructor
    · intro hb
      simp only [Bool.and_eq_true, Bool.not_eq_true'] at hb
      exact ⟨i, h, hi, hh, hb.1, hb.2⟩
    · rintro ⟨j, k, hj, hk, hseq, hdone⟩
      obtain rfl : i = j := Option.some.inj (hi.symm.trans hj)
      obtain rfl : h = k := Option.some.inj (hh.symm.trans hk)
      rw [hseq, hdone]
      rfl

/-- Pinning leaves the tag alone. -/
@[simp] theorem ownTag_pinInst : ownTag (pinInst b m s) b m = ownTag s b m := by
  simp only [ownTag, pinInst, State.inst?_modInst, Option.map_map]
  rfl

variable (h : Ready c b m s)

include h

/-- Held back, it waits with its frame row. -/
theorem firePinned_of_held (hb : heldBack s b m = true) : firePinned c n0 n1 go s = .next (waitSet b m s.taken) := by
  simp only [firePinned, fireSlot_ready h, heldBack_taken, hb, if_true]

theorem firePinned_of_free (hb : heldBack s b m = false) :
    firePinned c n0 n1 go s = .next (go b m (pinInst b m s.taken)) := by
  simp only [firePinned, fireSlot_ready h, heldBack_taken, hb, Bool.false_eq_true, if_false]

end Pinned

/-! ## Island commands (R235, R236) -/

/-- Settles O28: every island command is `fireIsland`, which waits when it is held back. -/
theorem islandCommands : Obligations.IslandCommands := by
  unfold Obligations.IslandCommands
  intro c f b m s h t isl sc held all
  have hall : ∀ e ∈ all, ∃ n1, exec e.1 s = fireIsland e.2 c f n1 s := by
    intro e he
    dsimp only [all] at he
    fin_cases he <;> exact ⟨_, rfl⟩
  have hisl : Isl.code f.isl = isl := by cases hf : f.isl <;> simp only [isl, hf] <;> rfl
  refine ⟨fun hheld e he => ?_, fun hfree e he => ?_⟩
  · obtain ⟨n1, hn⟩ := hall e he
    rw [hn, fireIsland, firePinned_of_held h (heldBack_iff.2 hheld)]
    rfl
  · obtain ⟨n1, hn⟩ := hall e he
    rw [hn, fireIsland, firePinned_of_free h (Bool.eq_false_iff.2 fun hb => hfree (heldBack_iff.1 hb)), hisl, ownTag_pinInst]
    rfl

end Sys2Proof.Machine

namespace Sys2Proof.Machine

open Sys2Proof

/-! ## The range unit (R265, R266) -/

/-- Port A read as a scalar, whether it is used or not. -/
theorem portWord_a (m : MSet) : portWord m.a = valWord (valA m) := by
  unfold portWord valA
  cases m.a <;> rfl

@[simp] theorem ctx?_pinInst {b ctx : Nat} {m : MSet} {s : State} : (pinInst b m s).ctx? b ctx = s.ctx? b ctx := State.ctx?_modInst

section RangeSlots

variable {c : Common} {f : FormS} {b : Nat} {m : MSet} {s : State} {x : CtxRt} (h : Ready c b m s) (hb : heldBack s b m = false)
  (hx : s.ctx? b m.ctx = some x)

include h hb hx

theorem execRngnext_of_free : execRngnext c f s = .next (deliver2 c (.sc x.rngCur) (.sc (word (min x.rngChunk x.rngLeft))) b m
    ((pinInst b m s.taken).modCtx b m.ctx fun y => { y with rngCur := y.rngCur + word (min x.rngChunk x.rngLeft) })) := by
  simp only [execRngnext, firePinned_of_free h hb, ctx?_pinInst, State.taken_ctx?, hx]

/-- With work left, or nothing to steal from, rngsteal delivers at once. -/
theorem execRngsteal_at_once (hn : 0 < x.rngLeft ∨ x.rngChunk = 0 ∨ (neighbour x (f.imm15.toNat % 4)).bind x.bayAt = none) :
    execRngsteal c f s = .next (deliver2 c (.sc 0) (.ct 1) b m (pinInst b m s.taken)) := by
  simp only [execRngsteal, firePinned_of_free h hb, ctx?_pinInst, State.taken_ctx?, hx, Bool.or_eq_true, decide_eq_true_eq]
  split
  · rfl
  · next hleft =>
    rw [(or_assoc.2 hn).resolve_left hleft]

/-- Else it sends a STEAL, and its set waits for the GRANT. -/
theorem execRngsteal_asks {d : Nat} (hleft : x.rngLeft = 0) (hchunk : x.rngChunk ≠ 0)
    (hd : (neighbour x (f.imm15.toNat % 4)).bind x.bayAt = some d) :
    execRngsteal c f s = .next (((pinInst b m s.taken).modBay b fun y => { y with steals := y.steals ++ [(m, c, d)] }).emit
      (workPacket 0 d b m.ctx 0 0 0)) := by
  simp [execRngsteal, firePinned_of_free h hb, hx, hleft, hchunk, hd]

end RangeSlots

/-- What a victim gives and keeps (R266): the upper half goes, the lower half stays. -/
theorem stealMid_toNat {lo hi : Word} (h : 2 ≤ hi.toNat - lo.toNat) :
    (lo + word ((hi.toNat - lo.toNat + 1) / 2)).toNat = lo.toNat + (hi.toNat - lo.toNat + 1) / 2 ∧
      hi.toNat - (lo + word ((hi.toNat - lo.toNat + 1) / 2)).toNat = (hi.toNat - lo.toNat) / 2 := by
  have hmid : (lo + word ((hi.toNat - lo.toNat + 1) / 2)).toNat = lo.toNat + (hi.toNat - lo.toNat + 1) / 2 := by
    have := hi.isLt
    rw [BitVec.toNat_add, word, BitVec.toNat_ofNat]
    omega
  exact ⟨hmid, by rw [hmid]; omega⟩

section RangePackets

variable {b : Nat} {p : Packet} {s : State}

theorem execSteal_of_some {c : CtxRt} (hc : s.ctx? b p.ctx = some c) :
    execSteal b p s = .next (if c.rngLeft < 2 then s.emit (workPacket 1 p.src b p.ctx 0 0 0)
      else (s.modCtx b p.ctx fun y => { y with rngHi := c.rngCur + word ((c.rngLeft + 1) / 2) }).emit
        (workPacket 1 p.src b p.ctx 0 (c.rngCur + word ((c.rngLeft + 1) / 2)) c.rngHi)) := by
  simp only [execSteal, hc]

theorem execSteal_of_none (hc : s.ctx? b p.ctx = none) : execSteal b p s = .next (s.emit (workPacket 1 p.src b p.ctx 0 0 0)) := by
  simp only [execSteal, hc]

theorem placeOf_eq_none {α : Type} {q : α → Bool} {l : List α} {n : Nat} : placeOf q l n = none ↔ ∀ e ∈ l, q e = false := by
  induction l generalizing n with
  | nil => simp [placeOf]
  | cons e l ih =>
    unfold placeOf
    cases hq : q e <;> simp [hq, ih]

/-- The element found passes. -/
theorem of_placeOf {α : Type} {q : α → Bool} {l : List α} {n i : Nat} (h : placeOf q l n = some i) :
    n ≤ i ∧ ∀ e, l[i - n]? = some e → q e = true := by
  induction l generalizing n with
  | nil => cases h
  | cons x l ih =>
    unfold placeOf at h
    split at h
    · next hx =>
      obtain rfl := Option.some.inj h
      refine ⟨le_rfl, fun e he => ?_⟩
      simp at he
      exact he ▸ hx
    · obtain ⟨hle, he⟩ := ih h
      refine ⟨by omega, fun e hi => he e ?_⟩
      rwa [show i - n = i - (n + 1) + 1 by omega, List.getElem?_cons_succ] at hi

/-- The range of a context on its bay becomes what a GRANT brings (R266). -/
def takeGrant (b : Nat) (p : Packet) (s : State) : State :=
  s.modCtx b p.ctx fun c => { c with rngCur := word (p.body 64 64), rngHi := word (p.body 0 64) }

theorem steals_takeGrant : ((takeGrant b p s).bay b).steals = (s.bay b).steals := by
  rw [takeGrant, State.modCtx, State.bay_modBay]

/-- A GRANT that no rngsteal waits for is the range and no more. -/
theorem execGrant_of_none (hn : placeOf (grantFor p) (s.bay b).steals 0 = none) : execGrant b p s = .next (takeGrant b p s) := by
  rw [← steals_takeGrant (p := p)] at hn
  unfold takeGrant at hn ⊢
  simp only [execGrant, hn]

/-- The first rngsteal that waits for it delivers how much it got. -/
theorem execGrant_of_place {i : Nat} {e : MSet × Common × Nat} (hi : placeOf (grantFor p) (s.bay b).steals 0 = some i)
    (he : (s.bay b).steals[i]? = some e) : execGrant b p s =
      .next (deliver2 e.2.1 (.sc (word ((word (p.body 0 64) - word (p.body 64 64)).toNat % 2 ^ 32))) (.ct 1) b e.1
        ((takeGrant b p s).modBay b fun y => { y with steals := dropAt y.steals i })) := by
  rw [← steals_takeGrant (p := p)] at hi he
  unfold takeGrant at hi he ⊢
  simp only [execGrant, hi, he]

theorem execPreply_of_none (hn : placeOf (probeFor s b p) (s.bay b).probes 0 = none) : execPreply b p s = .next s := by
  simp only [execPreply, hn]

theorem execPreply_of_place {i : Nat} {e : MSet × Common × Nat} (hi : placeOf (probeFor s b p) (s.bay b).probes 0 = some i)
    (he : (s.bay b).probes[i]? = some e) : execPreply b p s = .next (deliver e.2.1 (.sc (word (p.body 64 64))) b e.1
      (s.modBay b fun y => { y with probes := dropAt y.probes i })) := by
  simp only [execPreply, hi, he]

theorem grantFor_iff {e : MSet × Common × Nat} : grantFor p e = true ↔ e.1.ctx = p.ctx ∧ e.2.2 = p.src := by
  simp [grantFor]

end RangePackets

/-- Settles O29: the slots go through `firePinned`, the packets through the cases of their range and of who waits. -/
theorem rangeUnit : Obligations.RangeUnit := by
  unfold Obligations.RangeUnit
  refine ⟨fun c f b m s x h hb hx => ?slots, fun c f b m s h hb i hi => ?held, fun b p s c hc => ?victim, fun b p s => ?grant,
    fun b p s hc => ?gone, fun b p s => ?preply⟩
  case slots =>
    intro t lo hi left n mate
    refine ⟨?_, execRngnext_of_free (f := f) h hb hx, fun hn => execRngsteal_at_once h hb hx hn,
      fun d hleft hchunk hd => execRngsteal_asks h hb hx hleft hchunk hd⟩
    show execRngset c f s = _
    rw [execRngset, firePinned_of_free h hb, portWord_a]
    rfl
  case held =>
    fin_cases hi
    · show execRngset c f s = _
      exact firePinned_of_held h hb
    · show execRngnext c f s = _
      exact firePinned_of_held h hb
    · show execRngsteal c f s = _
      exact firePinned_of_held h hb
  case victim =>
    intro n m
    have hsteal := execSteal_of_some (b := b) hc
    refine ⟨fun hn => ?_, fun hn => ⟨?_, stealMid_toNat hn⟩, ?_⟩
    · exact hsteal.trans (by rw [if_pos (show c.rngLeft < 2 from hn)])
    · exact hsteal.trans (by rw [if_neg (show ¬ c.rngLeft < 2 from Nat.not_lt.2 hn)]; rfl)
    · show execProbeRequest b p s = _
      simp only [execProbeRequest, hc]
  case grant =>
    intro lo hi t
    refine ⟨fun hnone => execGrant_of_none (placeOf_eq_none.2 fun e he => ?_), fun i m c v hi he => ?_⟩
    · exact Bool.eq_false_iff.2 fun hg => hnone e he (grantFor_iff.1 hg).1 (grantFor_iff.1 hg).2
    · obtain ⟨hctx, hsrc⟩ := grantFor_iff.1 ((of_placeOf hi).2 _ he)
      exact ⟨hctx, hsrc, execGrant_of_place hi he⟩
  case gone =>
    refine ⟨execSteal_of_none hc, ?_⟩
    show execProbeRequest b p s = _
    simp only [execProbeRequest, hc]
  case preply =>
    exact ⟨execPreply_of_none, fun i m c r hi he => execPreply_of_place hi he⟩

end Sys2Proof.Machine

namespace Sys2Proof.Machine

open Sys2Proof

/-! ## System registers (R274) -/

section Registers

variable {s : State} {b : Nat} {m : MSet} {x : CtxRt} {g : HitchCfg}

@[simp] theorem readReg_taken {n : Nat} : readReg s.taken b m n = readReg s b m n := rfl

/-- The registers of a set whose hitch is there: two are the hitch's, the others every context of the bay has. -/
theorem readReg_of_hitch (n : Nat) (hx : s.ctx? b m.ctx = some x) (hg : s.hitch? b m.gate m.ctx (hnumOf s b m) = some g) :
    readReg s b m n = if n = 0x10 then word g.lim
      else if n = 0x11 then word (ixFree (s.gate b m.gate) m.ctx (hnumOf s b m) g) else bayReg s b m.ctx x n := by
  simp only [readReg, hx, hg]

theorem bayReg_user {ctx n : Nat} (hn : n < 8) : bayReg s b ctx x (0x60 + n) = AMap.getD x.user n 0 := by
  simp only [bayReg]
  rw [if_pos (by omega), Nat.add_sub_cancel_left]

theorem writeReg_waitHist (v : Word) : writeReg x 0x22 v = { x with waitHist := v } := rfl

theorem writeReg_user {n : Nat} (hn : n < 8) (v : Word) :
    writeReg x (0x60 + n) v = { x with user := AMap.set x.user n v } := by
  rw [writeReg, if_neg (by omega), if_pos (by omega), Nat.add_sub_cancel_left]

variable {c : Common} {f : FormS} (h : Ready c b m s)

include h

theorem execSrd_ready : execSrd c f s = .next (deliver c (.sc (readReg s b m f.sreg.toNat)) b m s.taken) := by
  rw [execSrd, fireVals_ready h]
  rfl

theorem execSwr_of_free (hb : heldBack s b m = false) :
    execSwr c f s = .next (deliver c (.ct 1) b m ((pinInst b m s.taken).modCtx b m.ctx fun x =>
      writeReg x f.sreg.toNat (if c.ty = .v then word f.imm15.toNat else valWord (valA m)))) := by
  rw [execSwr, firePinned_of_free h hb, portWord_a]

theorem execProbe_of_outside (hd : (s.ctx? b m.ctx).bind (·.bayAt ((valWord (valA m)).toNat % 2 ^ 32)) = none) :
    execProbe c f s = .next (sendNulls c (.sc 0) (.sc 0) b m s.taken) := by
  simp only [execProbe, fireSlot_ready h, portWord_a, State.taken_ctx?, hd]

theorem execProbe_of_inside {d : Nat} (hd : (s.ctx? b m.ctx).bind (·.bayAt ((valWord (valA m)).toNat % 2 ^ 32)) = some d) :
    execProbe c f s = .next ((s.taken.modBay b fun y => { y with probes := y.probes ++ [(m, c, f.sreg.toNat)] }).emit
      (workPacket 2 d b m.ctx f.sreg.toNat 0 0)) := by
  simp only [execProbe, fireSlot_ready h, portWord_a, State.taken_ctx?, hd]

end Registers

/-- Settles O31: `readReg` and `writeReg` at each number; swr goes through `firePinned`. -/
theorem systemRegisters : Obligations.SystemRegisters := by
  unfold Obligations.SystemRegisters
  intro c f b m s x h hx t p reads
  refine ⟨fun g hg => ?read, fun hb => ?held, fun hb => ⟨fun hreg => ?waitHist, fun n hn hreg => ?user⟩, fun hout => ?outside,
    fun d hd => ?inside⟩
  case read =>
    have hread : ∀ n v, (if n = 0x10 then word g.lim else if n = 0x11 then word (ixFree (s.gate b m.gate) m.ctx (hnumOf s b m) g)
        else bayReg s b m.ctx x n) = v → reads n v := fun n v hv hn => by
      show execSrd c f s = _
      rw [execSrd_ready h, hn, readReg_of_hitch n hx hg, hv]
    refine ⟨hread _ _ rfl, hread _ _ rfl, hread _ _ rfl, hread _ _ rfl, hread _ _ rfl, hread _ _ rfl, hread _ _ rfl, hread _ _ rfl,
      hread _ _ rfl, hread _ _ rfl, hread _ _ rfl, hread _ _ rfl, hread _ _ rfl, hread _ _ rfl, hread _ _ rfl, hread _ _ rfl,
      hread _ _ rfl, hread _ _ rfl, hread _ _ rfl, hread _ _ rfl, fun n hn => hread _ _ ?_⟩
    rw [if_neg (by omega), if_neg (by omega), bayReg_user hn]
  case held =>
    show execSwr c f s = _
    exact firePinned_of_held h hb
  case waitHist =>
    refine (execSwr_of_free h hb).trans ?_
    rw [hreg]
    rfl
  case user =>
    refine (execSwr_of_free h hb).trans ?_
    simp only [hreg, writeReg_user hn]
    rfl
  case outside => exact execProbe_of_outside h (by rw [hx]; exact hout)
  case inside => exact execProbe_of_inside h (by rw [hx]; exact hd)

end Sys2Proof.Machine

namespace Sys2Proof.Machine

open Sys2Proof

/-! ## Seed slots (R269) -/

section SeedStatus

variable {s : State} {n : Nat} {l : Launch} {port : Nat} {tag : Word} {vector : Bool}

/-- A launch that is not there, or has ended or halted, takes no seed. -/
theorem seedStatus_of_closed {o : Option Launch} (hl : ∀ l, o = some l → l.takesSeeds = false) :
    seedStatus s n o port tag vector = 1 := by
  have hnone : o.filter (·.takesSeeds) = none := by
    cases o with
    | none => rfl
    | some l => simp [hl l rfl]
  simp only [seedStatus, hnone]

variable (hopen : l.takesSeeds = true)

include hopen

theorem seedStatus_of_noPort (hp : ((s.part n).loadedOf l).bind (·.seedPort port) = none) :
    seedStatus s n (some l) port tag vector = 3 := by
  simp only [seedStatus, Option.filter_some, hopen, if_true, hp]

theorem seedStatus_of_port {e : SeedEnt} {g : HitchCfg} (hp : ((s.part n).loadedOf l).bind (·.seedPort port) = some (e, g)) :
    seedStatus s n (some l) port tag vector = if !seedFits e g tag vector then 2
      else if !l.seedsOpen && Config.heldSeeds ≤ (s.part n).seeds.length then 4 else 0 := by
  simp only [seedStatus, Option.filter_some, hopen, if_true, hp]

end SeedStatus

section Seed

variable {c : Common} {f : FormS} {b : Nat} {m : MSet} {s u : State} (h : Ready c b m s) (hb : heldBack s b m = false)

/-- The tag of a seed, and the launch that it names. -/
def seedTag (m : MSet) : Word := (m.b.map fun k => valWord k.val).getD 0
def seedSel (m : MSet) : Nat := ((m.c.map fun k => valWord k.val).getD 0).toNat % 2 ^ 32

include h hb

/-- The release actions come first; the set waits while they cannot complete. -/
theorem execSeed_of_not_released (hr : releaseActions (pinInst b m s.taken) b m.ctx 3 = (false, u)) :
    execSeed c f s = .next (waitSet b m u) := by
  simp only [execSeed, firePinned_of_free h hb, hr]

variable (hr : releaseActions (pinInst b m s.taken) b m.ctx 3 = (true, u))

include hr

theorem execSeed_of_refused {st : Nat} (hst : st ≠ 0)
    (hs : seedStatus u (u.partOf b m.ctx) (seedTarget u b m (seedSel m)) f.sreg.toNat (seedTag m) c.w = st) :
    execSeed c f s = .next (deliver2 c (.ct 1) (.sc (word st)) b m u) := by
  unfold seedTag seedSel at hs
  simp only [execSeed, firePinned_of_free h hb, hr, portWord, hs, hst, if_false]
  split <;> rfl

theorem execSeed_of_accepted {l : Launch} (hl : seedTarget u b m (seedSel m) = some l)
    (hs : seedStatus u (u.partOf b m.ctx) (some l) f.sreg.toNat (seedTag m) c.w = 0) :
    execSeed c f s = .next (deliver2 c (.ct 1) (.sc (word 0)) b m
      (takeSeed u (u.partOf b m.ctx) l none f.sreg.toNat (seedTag m) ⟨valA m, false, false⟩)) := by
  unfold seedTag seedSel at *
  simp only [execSeed, firePinned_of_free h hb, hr, portWord, hl, hs, if_true]

end Seed

/-- Settles O32: the cases of `seedStatus` once the release actions have completed. -/
theorem seedSlots : Obligations.SeedSlots := by
  unfold Obligations.SeedSlots
  refine ⟨fun c f b m s h hb => ?held, fun c f b m s u ok h hb hr => ?free⟩
  case held =>
    show execSeed c f s = _
    exact firePinned_of_held h hb
  case free =>
    intro n port tag sel answers
    refine ⟨fun hok => execSeed_of_not_released h hb (hok ▸ hr), fun hok => ?_⟩
    subst hok
    have refused : ∀ {st}, st ≠ 0 → seedStatus u n (seedTarget u b m sel) port tag c.w = st → answers st u :=
      fun hst hs => execSeed_of_refused h hb hr hst hs
    refine ⟨fun hclosed => refused (by decide) (seedStatus_of_closed hclosed), fun l hl hopen => ⟨fun hp => ?noPort, fun e g hp =>
      ⟨fun hfits => ?misfit, fun hfits hbind hfull => ?full, fun hfits hroom => ?taken⟩⟩⟩
    case noPort => exact refused (by decide) (hl ▸ seedStatus_of_noPort hopen hp)
    case misfit =>
      refine refused (by decide) ?_
      rw [hl, seedStatus_of_port hopen hp, hfits]
      rfl
    case full =>
      refine refused (by decide) ?_
      rw [hl, seedStatus_of_port hopen hp, hfits, hbind, decide_eq_true hfull]
      rfl
    case taken =>
      refine execSeed_of_accepted h hb hr hl ?_
      rw [seedStatus_of_port hopen hp]
      have : (!l.seedsOpen && decide (Config.heldSeeds ≤ (u.part n).seeds.length)) = false := by
        rcases hroom with ho | hlt
        · rw [ho]
          rfl
        · rw [decide_eq_false (Nat.not_le.2 hlt), Bool.and_false]
      rw [show seedFits e g (seedTag m) c.w = true from hfits, this]
      rfl

end Sys2Proof.Machine

namespace Sys2Proof.Machine

open Sys2Proof

/-! ## A poisoned set that waits (R20, R120) -/

/-- Records of a gate that are all taken, by a key that is no set's here: the own one of context 0, and every shared one. -/
def takenRecs : List AccRec := ⟨0, 1, 0, 0, true, 1, 0, []⟩ :: List.replicate Config.accRecords ⟨0, 1, 0, 0, false, 1, 0, []⟩

/-- A set with a poisoned operand at port A. -/
def poisonedSet : MSet := ⟨0, 0, 0, 0, 0, some ⟨.sc 0, false, true⟩, none, none, none, 0⟩

/-- It is the set that fires, on a bay whose gate has no record free for it. -/
def waitingState : State :=
  { State.reset with
    bays := [(0, { Bay.reset with gates := [(0, { Gate.reset with recs := takenRecs })] })]
    fire := some (0, poisonedSet) }

theorem waitingState_not_recReady : waitingState.recReady 0 poisonedSet = false := by decide

/-- A count or fold whose set may not fire waits, whatever its operands (R120). -/
theorem fireRec_of_not_ready {c : Common} {n0 : Val} {go : Nat → MSet → State → State} {b : Nat} {m : MSet} {s : State}
    (hf : s.fire = some (b, m)) (hr : s.recReady b m = false) : fireRec c n0 go s = .next (waitSet b m s.taken) := by
  simp only [fireRec, hf, hr, Bool.false_eq_true, if_false]
  rfl

/-- A set that waits is noted with its element. -/
theorem wait_waitSet (b : Nat) (m : MSet) (s : State) : ((waitSet b m s).elem b m.el).wait = (s.elem b m.el).wait ++ [m] := by
  simp [waitSet, State.elem, State.modElem]

/-- Refutes O33: a count whose key has no record, and none free, waits with its frame row though port A is poisoned; ECC_POISON is not
raised. -/
theorem not_faultsTaken : ¬ Obligations.FaultsTaken := by
  unfold Obligations.FaultsTaken
  rintro ⟨hpoison, -⟩
  let c : Common := ⟨.always, false, .n32, 0, 0⟩
  let f : FormA := ⟨true, .rn, false, 0, 0⟩
  have hfault := hpoison (.count c f) 0 poisonedSet waitingState (by decide) rfl ⟨_, List.mem_singleton.2 rfl, rfl⟩
  have hwait : exec (.count c f) waitingState = .next (waitSet 0 poisonedSet waitingState.taken) := by
    show execCount c f waitingState = _
    exact fireRec_of_not_ready rfl waitingState_not_recReady
  rw [hwait] at hfault
  have hsame := congrArg (fun s => (s.elem 0 0).wait) (Host.Outcome.next.inj hfault)
  rw [show (waitSet 0 poisonedSet waitingState.taken |>.elem 0 0).wait = _ from wait_waitSet 0 poisonedSet _] at hsame
  revert hsame
  decide

end Sys2Proof.Machine

namespace Sys2Proof.Machine

open Sys2Proof

/-! ## A strand that ends with an access waiting on another bay (R176) -/

/-- An ordered site with STRAND lives, the life of strand 0 open; a load waits in it. -/
def strandSite : Site :=
  { placedSite .boot with q1 := word (2 * 2 ^ 17 + 2 ^ 11), dep := 1, lifeOpen := true, waiters := [⟨0, 0, 0⟩] }

/-- A load through it, issued. -/
def strandLoad : MemOp :=
  ⟨.load, 0, 0, 0, ⟨.always, false, .n32, 0, 0⟩, ⟨0, 0, .plain, .inst, false, 0⟩, 0, 0, ctTok true, 0, 0, .issued, 0⟩

/-- The bays of the region: on bay 0 the instance whose exit ends strand 0, on bay 1 the site, with the load of an instance of strand 1. -/
def strandBay0 : Bay :=
  { Bay.reset with
    ctxs := [(0, placedCtx 0 [])]
    gates := [(0, { Gate.reset with
      hitches := [(0, placedHitch 7 0 false)]
      insts := [(0, { placedInst 0 with st := .ready, exit := some 0, endStrand := true })] })] }
def strandBay1 : Bay :=
  { Bay.reset with
    ctxs := [(0, placedCtx 0 [])]
    sites := [(0, strandSite)]
    gates := [(0, { Gate.reset with
      hitches := [(0, placedHitch 7 0 false)]
      insts := [(0, { placedInst 0 with tag := tagPut [1, 1, 1, 1, 1, 1, 1] 0 0 1, ops := [strandLoad] })] })] }
def strandState : State := { State.reset with bays := [(0, strandBay0), (1, strandBay1)] }

/-- What waits in the site of bay 1 after a step. -/
def strandWaits (r : Res) : Option (List Waiter) := ((nextOf strandState r).site? 1 0).map (·.waiters)

/-- The commit that ends strand 0 lets the load of strand 1 go (R176). -/
theorem strandWaits_commit : strandWaits (exec (.commit 0 0 0) strandState) = some [] := by decide

/-- The state in which the life of the site has ended. -/
def strandEnded : State :=
  (endLives (strandState.modInst 0 0 0 fun i => { i with applied := 1 }) [(1, 0)]).2

/-- The end of the commit by itself leaves the load waiting. -/
theorem strandWaits_finishCommit : strandWaits (.next (finishCommit strandEnded 0 0 0)) = some [⟨0, 0, 0⟩] := by decide

/-- Refutes O35: a commit that ends the life of a site on another bay also lets go what waits there, which the end of the commit alone
does not. -/
theorem not_instanceLives : ¬ Obligations.InstanceLives := by
  unfold Obligations.InstanceLives
  rintro ⟨-, -, hcommit, -⟩
  have hstep := hcommit 0 0 0 strandState _ _ rfl rfl rfl (by decide) rfl rfl strandState
    (strandState.modInst 0 0 0 fun i => { i with applied := 1 }) strandEnded rfl rfl rfl rfl
  have hwaits := congrArg strandWaits hstep
  rw [strandWaits_commit, strandWaits_finishCommit] at hwaits
  exact absurd hwaits (by decide)

end Sys2Proof.Machine

namespace Sys2Proof.Machine

open Sys2Proof

/-! ## Waves and the end of a launch (R39, R43, R357) -/

/-- A launch found by its handle has it. -/
theorem hseq_of_launch? {s : State} {n h : Nat} {l : Launch} (hl : s.launch? n h = some l) : l.hseq = h :=
  eq_of_beq (List.find?_some (p := fun k : Launch => k.hseq == h) hl)

theorem exec_quiescenceWave {n h : Nat} {s : State} {l : Launch} (hl : s.launch? n h = some l) (hdue : waveDue s n l = true) :
    exec (.quiescenceWave n h) s = .next ((s.regionMap n l).foldl
      (fun u t => u.emit (wavePacket 0 t ((s.regionMap n l).headD 0) l.ctx ((l.wseq + 1) % 256) 0 0 0 0))
      (s.modLaunch n h fun l' => { l' with wseq := (l.wseq + 1) % 256, wave := some ⟨(l.wseq + 1) % 256, []⟩ })) := by
  show execQuiescenceWave n h s = _
  simp only [execQuiescenceWave, hl, hdue, Bool.not_true, Bool.false_eq_true, if_false]

theorem exec_query {b : Nat} {p : Packet} {s : State} {c : CtxRt} (hc : s.ctx? b p.ctx = some c) :
    exec (.query b p) s = .next (s.emit (wavePacket 1 p.src b p.ctx (p.body 212 8) c.position
      (16 * (!c.cut.isSome && bayIdle s b p.ctx).toNat + 8 * (bayPending s b p.ctx).toNat + 4 * (bayFrozen s b p.ctx).toNat +
        2 * (c.cut.isSome && pinWaits s b p.ctx).toNat) c.fires 0)) := by
  show execQuery b p s = _
  simp only [execQuery, hc]

/-- A reply to the running wave from a position that has not answered is noted; the last one completes the wave. -/
theorem exec_qreply {b : Nat} {p : Packet} {s : State} {n : Nat} {l : Launch} {w : Wave}
    (ho : originLaunch s b p.ctx = some (n, l)) (hw : l.wave = some w) (hseq : w.wseq = p.body 212 8)
    (hnew : ∀ r ∈ w.replies, r.1 ≠ p.body 205 7) :
    let rs := (p.body 205 7, BitVec.ofNat 4 (p.body 201 4), p.body 160 32) :: w.replies
    exec (.qreply b p) s = .next (if rs.length < l.rows * l.cols
      then s.modLaunch n l.hseq fun l => { l with wave := some { w with replies := rs } } else judgeWave s n l (waveSum l rs)) := by
  have hold : (w.wseq != p.body 212 8 || w.replies.any (·.1 == p.body 205 7)) = false := by
    simpa [hseq] using hnew
  show execQreply b p s = _
  simp only [execQreply, ho, hw, hold, Bool.false_eq_true, if_false]

/-- What the hypotheses of a completion say (R43, R273). -/
theorem completes_of {s : State} {n : Nat} {l : Launch} (hbound : l.st = .bound) (hseeds : l.halt.isSome = true ∨ l.seedCnt ≤ l.seeds)
    (hbays : ∀ b ∈ s.regionBays n l.ctx l.hseq, outstanding s b l.ctx = false ∧
      ∀ c, s.ctx? b l.ctx = some c → c.frozen = false ∧ c.stopRun = false) : completes s n l = true := by
  simp only [completes, hbound, Bool.and_eq_true, List.all_eq_true, Bool.or_eq_true, decide_eq_true_eq]
  refine ⟨⟨by decide, hseeds⟩, fun b hb => ?_⟩
  obtain ⟨hout, hctx⟩ := hbays b hb
  cases hc : s.ctx? b l.ctx with
  | none => simp [hout]
  | some c =>
    obtain ⟨hfrozen, hstop⟩ := hctx c hc
    simp [hout, hfrozen, hstop]

/-- A launch that completes ends once its sites are flushed and its counters spilled. -/
theorem exec_launchComplete {n h : Nat} {s t : State} {l : Launch} (hl : s.launch? n h = some l) (hcomp : completes s n l = true)
    (hends : (s.regionBays n l.ctx h).foldl (spillAll l.ctx) ((s.regionBays n l.ctx h).foldl (endSites l.ctx) (true, s)) = (true, t)) :
    exec (.launchComplete n h) s = .next (endOf t n h l.halt.isSome.toNat (l.halt.getD 0)) := by
  show execLaunchComplete n h s = _
  simp only [execLaunchComplete, hl, hcomp, Bool.not_true, Bool.false_eq_true, if_false, hends, if_true]

/-- Settles O36: each wave step unfolds to its one case; a completion has every condition of `completes`. -/
theorem launchWaves : Obligations.LaunchWaves := by
  unfold Obligations.LaunchWaves
  refine ⟨fun n h s l hl hdue => exec_quiescenceWave hl hdue, fun b p s c hc => exec_query hc, ?_, ?_⟩
  · intro b p s n l w ho hw hseq hnew rs
    have hstep := exec_qreply ho hw hseq hnew
    exact ⟨fun hlt => by rw [hstep, if_pos hlt], fun hge => by rw [hstep, if_neg (Nat.not_lt.2 hge)]⟩
  · intro n h s l hl hbound hseeds hbays bs t hends
    obtain rfl := hseq_of_launch? hl
    rw [exec_launchComplete hl (completes_of hbound hseeds hbays) hends]
    cases l.halt <;> rfl

end Sys2Proof.Machine

namespace Sys2Proof.Machine

open Sys2Proof

/-! ## The element that an operand comes to (R17, R398) -/

@[simp] theorem State.elem_modElem {s : State} {b k : Nat} {f : Element → Element} : (s.modElem b k f).elem b k = f (s.elem b k) := by
  simp [State.elem, State.modElem]

theorem State.modElem_modElem {s : State} {b k : Nat} {f f' : Element → Element} :
    (s.modElem b k f).modElem b k f' = s.modElem b k (f' ∘ f) := by
  unfold State.modElem
  rw [State.modBay_modBay]
  congr 1
  funext y
  simp

@[simp] theorem State.elem_send {s : State} {b k : Nat} {i : Instr} : (s.send i).elem b k = s.elem b k := rfl

/-- An element whose slots are kept shows the same slot. -/
theorem State.slot_modElem_of_slots {s : State} {b k n : Nat} {f : Element → Element} (h : (f (s.elem b k)).slots = (s.elem b k).slots) :
    (s.modElem b k f).slot b k n = s.slot b k n := by
  simp only [State.slot, State.elem_modElem, h]

/-- The operands of a row that wait for the set of a slot, but for the port at hand. -/
def WaitTok.joins (m : TokMsg) (w : WaitTok) : Bool := w.slot == m.slot && w.port != m.port

/-- A row of an instance gives up the operands of a slot (R17). -/
def Row.drop (m : TokMsg) (r : Row) : Row :=
  if r.gate == m.gate && r.ix == m.ix then
    let l := r.ents.filter fun w => w.slot != m.slot
    { r with ents := l, st := if l.isEmpty then .empty else .partly }
  else r

theorem Row.drop_ents {m : TokMsg} {r : Row} (hg : (r.drop m).gate = m.gate) (hix : (r.drop m).ix = m.ix) :
    ∀ w ∈ (r.drop m).ents, w.slot ≠ m.slot := by
  intro w hw
  unfold Row.drop at hw hg hix
  split at hw
  · simpa using (List.mem_filter.1 hw).2
  · next hother =>
    rw [if_neg hother] at hg hix
    simp [hg, hix] at hother

/-- The element once the set of a slot has joined its issue queue. -/
def Element.complete (m : TokMsg) (x : MSet) (e : Element) : Element :=
  { e with rows := e.rows.map (Row.drop m), issue := e.issue ++ [x] }

/-- A completed set is counted, and nothing else of its element changes but the slot's counters (R398). -/
theorem countWait_elem {s : State} {m : TokMsg} {w : Nat} :
    ((countWait s m w).elem m.bay m.el).issue = (s.elem m.bay m.el).issue ∧
    ((countWait s m w).elem m.bay m.el).rows = (s.elem m.bay m.el).rows := by
  unfold countWait
  dsimp only
  split <;> simp

theorem bucketOf_lt {w : Nat} : bucketOf w < 8 := by
  unfold bucketOf
  split <;> omega

theorem countWait_hist {s : State} {m : TokMsg} {w : Nat} :
    ((countWait s m w).slot m.bay m.el m.slot).hist.getD (bucketOf w) 0 = (s.slot m.bay m.el m.slot).hist.getD (bucketOf w) 0 + 1 := by
  unfold countWait
  dsimp only
  split <;> simp [State.slot, List.getD_eq_getElem?_getD, bucketOf_lt]

/-! ## Placing an operand (R17, R78) -/

theorem exec_tokenArrive_of_full {m : TokMsg} {s : State} (h : Config.issueSets ≤ issueLoad s m.bay m.el) :
    exec (.tokenArrive m) s = .next { s with flight := .tokenArrive m :: s.flight } := by
  show execTokenArrive m s = _
  rw [execTokenArrive, if_pos h]

theorem exec_tokenArrive_of_room {m : TokMsg} {s : State} (h : issueLoad s m.bay m.el < Config.issueSets) :
    exec (.tokenArrive m) s = .next (arriveToken s m) := by
  show execTokenArrive m s = _
  rw [execTokenArrive, if_neg (Nat.not_le.2 h)]

theorem arriveToken_of_empty {m : TokMsg} {s : State} (h : (s.slot m.bay m.el m.slot).word = 0) : arriveToken s m = emptySlot s m := by
  rw [arriveToken, if_pos h]

/-- With no comparator on the bay an operand at an installed slot is placed. -/
theorem arriveToken_of_word {m : TokMsg} {s : State} (hword : (s.slot m.bay m.el m.slot).word ≠ 0) (hcmps : (s.bay m.bay).cmps = []) :
    arriveToken s m = placeToken s m (s.bay m.bay).clk := by
  have hmatch : cmpMatch s m = none := by simp [cmpMatch, hcmps]
  rw [arriveToken, if_neg hword]
  cases (s.ctx? m.bay m.ctx).filter fun c => !stopBars c <;> simp [hmatch]

section Placing

variable {m : TokMsg} {s : State} {at_ : Nat} {r : Row}

/-- The operand of a slot that uses one port is a set. -/
theorem placeToken_of_single (h : (slotPorts s m.bay m.ctx (s.slot m.bay m.el m.slot)).length ≤ 1) :
    placeToken s m at_ = s.modElem m.bay m.el fun e =>
      { e with issue := e.issue ++ [setOf m (s.bay m.bay).clk [(m.port, m.tok)]] } := by
  simp only [placeToken, h, if_true]

/-- The last operand completes its set. -/
theorem placeToken_of_last (hmany : 1 < (slotPorts s m.bay m.ctx (s.slot m.bay m.el m.slot)).length)
    (hrow : (s.elem m.bay m.el).rows.find? (fun r => r.gate == m.gate && r.ix == m.ix) = some r)
    (hall : ∀ p ∈ slotPorts s m.bay m.ctx (s.slot m.bay m.el m.slot), p = m.port ∨ ∃ w ∈ r.ents.filter (WaitTok.joins m), w.port = p) :
    let mine := r.ents.filter (WaitTok.joins m)
    let since := (mine.map (·.since)).foldl min at_
    placeToken s m at_ = countWait (s.modElem m.bay m.el
      (Element.complete m (setOf m since ((m.port, m.tok) :: mine.map fun w => (w.port, w.tok))))) m
      ((mine.map (·.since)).foldl max at_ - since) := by
  intro mine since
  have hports : ((slotPorts s m.bay m.ctx (s.slot m.bay m.el m.slot)).all fun p => p == m.port || mine.any (·.port == p)) = true := by
    simpa only [List.all_eq_true, Bool.or_eq_true, beq_iff_eq, List.any_eq_true] using hall
  unfold placeToken
  dsimp only
  rw [if_neg (Nat.not_le.2 hmany), hrow]
  exact (if_pos hports).trans (by rw [State.modElem_modElem]; rfl)

/-- An operand before the last waits in its row. -/
theorem placeToken_of_partly (hmany : 1 < (slotPorts s m.bay m.ctx (s.slot m.bay m.el m.slot)).length)
    (hrow : (s.elem m.bay m.el).rows.find? (fun r => r.gate == m.gate && r.ix == m.ix) = some r)
    (hlacks : ∃ p ∈ slotPorts s m.bay m.ctx (s.slot m.bay m.el m.slot), p ≠ m.port ∧ ∀ w ∈ r.ents.filter (WaitTok.joins m), w.port ≠ p) :
    placeToken s m at_ = s.modElem m.bay m.el fun e =>
      { e with rows := e.rows.map fun r =>
          if r.gate == m.gate && r.ix == m.ix then { r with ents := r.ents ++ [⟨m.slot, m.port, m.tok, (s.bay m.bay).clk⟩], st := .partly }
          else r } := by
  have hports : ((slotPorts s m.bay m.ctx (s.slot m.bay m.el m.slot)).all fun p =>
      p == m.port || (r.ents.filter (WaitTok.joins m)).any (·.port == p)) = false := by
    obtain ⟨p, hp, hother, hnone⟩ := hlacks
    refine List.all_eq_false.2 ⟨p, hp, ?_⟩
    simpa only [Bool.or_eq_true, beq_iff_eq, List.any_eq_true, not_or, not_exists, not_and] using ⟨hother, hnone⟩
  unfold placeToken
  dsimp only
  rw [if_neg (Nat.not_le.2 hmany), hrow]
  exact if_neg (ne_true_of_eq_false hports)

end Placing

end Sys2Proof.Machine

namespace Sys2Proof.Machine

open Sys2Proof

/-! ## Regions and debugging under an update of an instance (R389) -/

theorem AMap.mem_of_get? {α : Type} {m : AMap α} {k : Nat} {x : α} (h : AMap.get? m k = some x) : (k, x) ∈ m := by
  induction m with
  | nil => simp [AMap.get?] at h
  | cons e m ih =>
    obtain ⟨j, y⟩ := e
    by_cases hj : j = k
    · simp_all [AMap.get?]
    · simp only [AMap.get?, if_neg hj] at h
      exact List.mem_cons_of_mem _ (ih h)

theorem AMap.mem_set {α : Type} {m : AMap α} {k : Nat} {v : α} {e : Nat × α} (h : e ∈ AMap.set m k v) : e = (k, v) ∨ e ∈ m := by
  induction m with
  | nil => exact .inl (by simpa [AMap.set] using h)
  | cons d m ih =>
    obtain ⟨j, y⟩ := d
    unfold AMap.set at h
    split at h
    · exact (List.mem_cons.1 h)
    · split at h
      · exact (List.mem_cons.1 h).imp_right (List.mem_cons_of_mem _)
      · obtain rfl | hm := List.mem_cons.1 h
        · exact .inr List.mem_cons_self
        · exact (ih hm).imp_right (List.mem_cons_of_mem _)

theorem State.mem_regionBays {s : State} {n ctx h t : Nat} :
    t ∈ s.regionBays n ctx h ↔ ∃ y c, (t, y) ∈ s.bays ∧ AMap.get? y.ctxs ctx = some c ∧ c.part = n ∧ c.bound = some h := by
  unfold State.regionBays
  constructor
  · intro ht
    obtain ⟨⟨t', y⟩, hy, rfl⟩ := List.mem_map.1 ht
    obtain ⟨hmem, hbound⟩ := List.mem_filter.1 hy
    cases hc : AMap.get? y.ctxs ctx with
    | none => simp [hc] at hbound
    | some c => exact ⟨y, c, hmem, hc, by simpa [hc] using hbound⟩
  · rintro ⟨y, c, hmem, hc, hpart, hbound⟩
    exact List.mem_map.2 ⟨(t, y), List.mem_filter.2 ⟨hmem, by simp [hc, hpart, hbound]⟩, rfl⟩

/-- An update of a bay that leaves its contexts alone binds no further bay to a region. -/
theorem State.mem_regionBays_of_modBay {s : State} {b n ctx h t : Nat} {f : Bay → Bay} (hf : ∀ y, (f y).ctxs = y.ctxs)
    (ht : t ∈ (s.modBay b f).regionBays n ctx h) : t ∈ s.regionBays n ctx h := by
  obtain ⟨y, c, hmem, hc, hbound⟩ := State.mem_regionBays.1 ht
  refine State.mem_regionBays.2 ?_
  obtain heq | hold := AMap.mem_set hmem
  · obtain ⟨rfl, rfl⟩ := Prod.mk.inj heq
    rw [hf] at hc
    cases hb : AMap.get? s.bays t with
    | none => simp [State.bay, AMap.getD, hb, Bay.reset, AMap.get?] at hc
    | some z =>
      have hz : s.bay t = z := by simp [State.bay, AMap.getD, hb]
      exact ⟨z, c, AMap.mem_of_get? hb, hz ▸ hc, hbound⟩
  · exact ⟨y, c, hold, hc, hbound⟩

theorem State.cmps_modBay {s : State} {b t : Nat} {f : Bay → Bay} (hf : ∀ y, (f y).cmps = y.cmps) :
    ((s.modBay b f).bay t).cmps = (s.bay t).cmps := by
  by_cases ht : t = b
  · rw [ht, State.bay_modBay, hf]
  · rw [State.bay_modBay_ne ht]

theorem State.mem_regionBays_of_modInst {s : State} {b g ix n ctx h t : Nat} {f : Inst → Inst}
    (ht : t ∈ (s.modInst b g ix f).regionBays n ctx h) : t ∈ s.regionBays n ctx h := by
  unfold State.modInst State.modGate at ht
  refine State.mem_regionBays_of_modBay ?_ ht
  exact fun _ => rfl

theorem State.cmps_modInst {s : State} {b g ix t : Nat} {f : Inst → Inst} : ((s.modInst b g ix f).bay t).cmps = (s.bay t).cmps := by
  unfold State.modInst State.modGate
  exact State.cmps_modBay fun _ => rfl

/-- An update of an instance does not put a region under debugging. -/
theorem debugOn_modInst {s : State} {b g ix t ctx : Nat} {f : Inst → Inst} (h : debugOn s t ctx = false) :
    debugOn (s.modInst b g ix f) t ctx = false := by
  unfold debugOn at h ⊢
  rw [State.ctx?_modInst]
  cases hc : s.ctx? t ctx with
  | none => rfl
  | some c =>
    rw [hc] at h
    obtain ⟨hbrk, hcmp⟩ := Bool.or_eq_false_iff.1 h
    refine Bool.or_eq_false_iff.2 ⟨hbrk, ?_⟩
    cases hb : c.bound with
    | none => rfl
    | some k =>
      rw [hb] at hcmp
      refine List.any_eq_false.2 fun u hu => ?_
      simpa only [cmpOn, State.cmps_modInst] using List.any_eq_false.1 hcmp u (State.mem_regionBays_of_modInst hu)

end Sys2Proof.Machine

namespace Sys2Proof.Machine

open Sys2Proof

/-! ## Entry tokens at a gate (R28) -/

section Entries

variable {m : EntMsg} {s : State}

/-- A token from the gate's own bay is taken where the gate can take it, else it stays in the network. -/
theorem exec_gateEntryToken (hchan : m.chan = none) :
    exec (.gateEntryToken m) s =
      .next (if entryTakes s m then takeEntry s m else { s with flight := .gateEntryToken m :: s.flight }) := by
  show execGateEntryToken m s = _
  simp only [execGateEntryToken, hchan]

variable {x : CtxRt}

/-- A token of a tag that has no live instance needs a place in the entry buffer. -/
theorem entryTakes_of_new (hx : s.ctx? m.bay m.ctx = some x) (hhalt : x.halted = false)
    (hnew : liveWith (s.gate m.bay m.gate) m.ctx m.hnum m.tag = none) : entryTakes s m = entryRoom (s.bay m.bay) m.gate m.ctx := by
  simp [entryTakes, hx, hhalt, hnew]

theorem takeEntry_of_new (hx : s.ctx? m.bay m.ctx = some x) (hhalt : x.halted = false)
    (hnew : liveWith (s.gate m.bay m.gate) m.ctx m.hnum m.tag = none) :
    takeEntry s m = s.modGate m.bay m.gate fun g => { g with ents := g.ents ++ [m] } := by
  simp only [takeEntry, hnew, hx, hhalt, Bool.false_eq_true, if_false]

variable {ix : Nat}

/-- A token of a live instance is taken whatever the buffer holds. -/
theorem exec_gateEntryToken_of_live (hchan : m.chan = none) (hlive : liveWith (s.gate m.bay m.gate) m.ctx m.hnum m.tag = some ix) :
    exec (.gateEntryToken m) s = .next (enterToken s m.bay m.gate ix m) := by
  have htakes : entryTakes s m = true := by simp [entryTakes, hlive]
  rw [exec_gateEntryToken hchan, if_pos htakes]
  simp only [takeEntry, hlive]

variable {b g : Nat} {i : Inst} {h : HitchCfg}

/-- A second token for an entry is a fault of the instance. -/
theorem enterToken_of_arrived (hi : s.inst? b g ix = some i) (hh : s.hitch? b g i.ctx i.hnum = some h) (hd : i.discard = false)
    (harr : m.entry ∈ i.arrived) :
    enterToken s b g ix m = s.takeFault b g ix 0x05 none 0 (word (i.exit.getD 0), 0xFF, 0, 0) .multi := by
  simp [enterToken, hi, hh, hd, harr]

/-- The first one, on the network of its entry, goes on to the span. -/
theorem enterToken_of_first (hi : s.inst? b g ix = some i) (hh : s.hitch? b g i.ctx i.hnum = some h) (hd : i.discard = false)
    (harr : m.entry ∉ i.arrived) (hnet : valNet m.tok.val = h.entNet m.entry) (hdbg : debugOn s b i.ctx = false) :
    enterToken s b g ix m = (s.modInst b g ix fun i => { i with arrived := insertNat m.entry i.arrived }).sendTarget b g ix i.hnum i.ctx
      (gateSrc g) (h.entTarget m.entry) m.tok := by
  simp [enterToken, hi, hh, hd, harr, hnet, debugOn_modInst hdbg]

end Entries

/-! ## The spill of a slot's counters (R399) -/

section Spills

variable {s : State} {b ctx el slot : Nat} {x : CtxRt}

/-- The counters of a slot replaced. -/
def setHist (s : State) (b el slot : Nat) (h : List Nat) : State :=
  s.modElem b el fun e => { e with slots := AMap.upd e.slots slot fun c => { c with hist := h } }

/-- The state that a spill leaves, by what its adds come to. -/
def Spill.result (s : State) (b ctx el slot va : Nat) : Spill → State
  | .done t => setHist t b el slot []
  | .fail => setHist s b el slot ((s.slot b el slot).hist.map fun n => min n 0xFFFF)
  | .wait true => parkWrite s b ctx va (.spill el slot)
  | .wait false => askXlat s b ctx va true (.spill el slot)

/-- A spill with a block, a count and no translation under way comes to what its adds do. -/
theorem exec_waithistSpill {va : Nat} (hx : s.ctx? b ctx = some x) (hblock : x.waitHist ≠ 0)
    (hva : x.waitHist.toNat + (el * 32 + slot) * 64 = va) (hcount : ∃ n ∈ (s.slot b el slot).hist, n ≠ 0) (halign : va % 8 = 0)
    (hfree : ∀ q ∈ (s.bay b).xreqs, q.goal ≠ .spill el slot) :
    exec (.waithistSpill b ctx el slot) s = .next (Spill.result s b ctx el slot va
      (spillAdds b ctx ((List.range 8).map fun i => (va + 8 * i, (s.slot b el slot).hist.getD i 0)) s)) := by
  have hasked : ((s.bay b).xreqs.any fun q => q.goal == .spill el slot) = false := by simpa using hfree
  have hspills : ¬ (x.waitHist = 0 ∨ (s.slot b el slot).hist.all (· == 0) = true ∨ va % 8 ≠ 0) := by
    rintro (hzero | hall | hodd)
    · exact hblock hzero
    · obtain ⟨n, hn, hpos⟩ := hcount
      exact hpos (by simpa using List.all_eq_true.1 hall n hn)
    · exact hodd halign
  show execWaithistSpill b ctx el slot s = _
  simp only [execWaithistSpill, spillSlot, hx, hva, hasked, Bool.false_eq_true, if_false, if_neg hspills]
  cases spillAdds b ctx ((List.range 8).map fun i => (va + 8 * i, (s.slot b el slot).hist.getD i 0)) s with
  | done t => rfl
  | fail => rfl
  | wait parked => cases parked <;> rfl

/-- One add of a spill whose translation stands (R399). -/
theorem spillAdds_cons {va n : Nat} {l : List (Nat × Nat)} {t : State} {k : Loc}
    (hk : translateVa s b ctx va { needRW with kinds := [0, 2] } = .ok k t) :
    spillAdds b ctx ((va, n) :: l) s = spillAdds b ctx l (noteDirty (homeWrite t k.enc k.key
      (leBytes 8 (leNat (homeRead t k.enc k.key 8) + n)) (List.replicate 8 (t.poisoned k.key 8))) ctx k 8) := by
  simp only [spillAdds, hk]

end Spills

/-! ## O34 -/

/-- What a completed set leaves of its element: the set at the end of the queue, no operand of its slot, one more count. -/
theorem complete_spec {m : TokMsg} {s : State} {x : MSet} {w : Nat} {t : State}
    (ht : t = countWait (s.modElem m.bay m.el (Element.complete m x)) m w) :
    (t.elem m.bay m.el).issue = (s.elem m.bay m.el).issue ++ [x] ∧
    (∀ q ∈ (t.elem m.bay m.el).rows, q.gate = m.gate → q.ix = m.ix → ∀ w ∈ q.ents, w.slot ≠ m.slot) ∧
    (t.slot m.bay m.el m.slot).hist.getD (bucketOf w) 0 = (s.slot m.bay m.el m.slot).hist.getD (bucketOf w) 0 + 1 := by
  obtain ⟨hissue, hrows⟩ := countWait_elem (s := s.modElem m.bay m.el (Element.complete m x)) (m := m) (w := w)
  rw [ht, hissue, hrows, State.elem_modElem, countWait_hist, State.slot_modElem_of_slots rfl]
  refine ⟨rfl, fun q hq hg hix => ?_, rfl⟩
  obtain ⟨r, -, rfl⟩ := List.mem_map.1 hq
  exact Row.drop_ents hg hix

/-- Settles O34: an operand by the cases of its slot's ports, an entry token by whether its tag lives, a spill by what its adds come to. -/
theorem tokensArrive : Obligations.TokensArrive := by
  unfold Obligations.TokensArrive
  refine ⟨?operand, ?entry, ?spill, ?add⟩
  case operand =>
    intro m s y c ports now
    refine ⟨exec_tokenArrive_of_full, fun hroom => ⟨fun hempty => ?_, fun hword hcmps => ⟨fun hone => ?_, ?_⟩⟩⟩
    · rw [exec_tokenArrive_of_room hroom, arriveToken_of_empty hempty]
      rfl
    · rw [exec_tokenArrive_of_room hroom, arriveToken_of_word hword hcmps, placeToken_of_single hone]
    · intro r hmany hrow mine
      have hplaced : exec (.tokenArrive m) s = .next (placeToken s m now) := by
        rw [exec_tokenArrive_of_room hroom, arriveToken_of_word hword hcmps]
      exact ⟨fun hall => ⟨_, hplaced, complete_spec (placeToken_of_last hmany hrow hall)⟩,
        fun hlacks => hplaced.trans (congrArg _ (placeToken_of_partly hmany hrow hlacks))⟩
  case entry =>
    intro m s x hchan hx hhalt
    refine ⟨fun hnew hroom => ?_, fun hnew hroom => ?_, fun ix i h hlive hi hh hd => ⟨fun harr => ?_, fun harr hnet hdbg => ?_⟩⟩
    · rw [exec_gateEntryToken hchan, entryTakes_of_new hx hhalt hnew, if_pos hroom, takeEntry_of_new hx hhalt hnew]
    · rw [exec_gateEntryToken hchan, entryTakes_of_new hx hhalt hnew, if_neg (ne_true_of_eq_false hroom)]
    · rw [exec_gateEntryToken_of_live hchan hlive, enterToken_of_arrived hi hh hd harr]
    · rw [exec_gateEntryToken_of_live hchan hlive, enterToken_of_first hi hh hd harr hnet hdbg]
      rfl
  case spill =>
    intro b ctx el slot s x hx hblock c va leaves asks hcount halign hfree
    have hstep := exec_waithistSpill hx hblock rfl hcount halign hfree
    cases hadds : spillAdds b ctx ((List.range 8).map fun i => (va + 8 * i, c.hist.getD i 0)) s with
    | done t => exact hstep.trans (by rw [hadds]; rfl)
    | fail => exact hstep.trans (by rw [hadds]; rfl)
    | wait parked => exact hstep.trans (by rw [hadds]; cases parked <;> rfl)
  case add => exact fun b ctx va n l s k t hk => spillAdds_cons hk

end Sys2Proof.Machine

/-!
Proofs of the statements about numbers: integer results (IntegerWraps, IntegerSaturates), a reduction's sum
(IntegerSumIsOrderless), the order of float values (FloatCompares), rounding (ExactUnchanged, DirectedRounding), members that select
(FloatPicks), NaN operands (FloatNaN) and conversions (Conversions).
-/
namespace Sys2Proof.Machine

open Sys2Proof

/-! ## Integers brought to a width (R47 to R50) -/

/-- A lane's pattern read as an integer. -/
theorem readInt_signed_toNat (t : Ty) {w : Nat} (hw : 0 < w) (x : BitVec w) : readInt t.signed w x.toNat = readBits t x :=
  readInt_toNat t.signed hw x

/-- Reading an integer in either way loses nothing modulo 2^w. -/
@[simp] theorem ofInt_readBits (t : Ty) {w : Nat} (x : BitVec w) : BitVec.ofInt w (readBits t x) = x := by
  unfold readBits
  split
  · exact BitVec.ofInt_toInt
  · rw [BitVec.ofInt_natCast, BitVec.ofNat_toNat, BitVec.setWidth_eq]

/-- The least value of a type is not above its greatest. -/
theorem intMin_le_intMax (sg : Bool) (w : Nat) : intMin sg w ≤ intMax sg w := by
  have h1 : 0 < 2 ^ (w - 1) := Nat.two_pow_pos _
  have h2 : 0 < 2 ^ w := Nat.two_pow_pos _
  unfold intMin intMax
  cases sg
  · simp only [Bool.false_eq_true, if_false]; omega
  · simp only [if_true]; omega

/-- Saturation is clamping to the range of the type (R49). -/
theorem satTo_eq_clampBits (t : Ty) (w : Nat) (x : Int) : satTo t.signed w x = (clampBits t w x).toNat := by
  have hle := intMin_le_intMax t.signed w
  have hclamp : clampBits t w x = BitVec.ofInt w (max (intMin t.signed w) (min (intMax t.signed w) x)) := by
    unfold clampBits intMin intMax
    push_cast
    rfl
  rw [hclamp, satTo, wrapTo_ofInt]
  congr 2
  split
  · rw [min_eq_left (by omega), max_eq_right hle]
  · split
    · rw [min_eq_right (by omega), max_eq_left (by omega)]
    · rw [min_eq_right (by omega), max_eq_right (by omega)]

/-- An exact result brought to its type (R49), as bits. -/
theorem narrow_eq (t : Ty) (sat : Bool) (w : Nat) (x : Int) :
    narrow t.signed sat w x = (if sat then clampBits t w x else BitVec.ofInt w x).toNat := by
  unfold narrow
  split
  · exact satTo_eq_clampBits t w x
  · exact wrapTo_ofInt w x

/-! ## The members of class WRAP (R98, R100) -/

/-- What a member of class WRAP makes of its exact result: SAT chooses between clamping and wrapping. -/
def brought (c : Common) (f : FormA) (x : ∀ w : Nat, BitVec w → BitVec w → BitVec w → Int) (w : Nat) (a b d : BitVec w) :
    BitVec w :=
  if f.sat then clampBits c.ty w (x w a b d) else BitVec.ofInt w (x w a b d)

section Wrap

variable {i : Instr} {c : Common} {f : FormA} {op : Pats → Int} {x : ∀ w : Nat, BitVec w → BitVec w → BitVec w → Int}

theorem computes_brought (hi : ∀ s, exec i s = fireWrap c f op s)
    (hx : ∀ w, 0 < w → ∀ a b d : BitVec w, op ⟨w, a.toNat, b.toNat, d.toNat⟩ = x w a b d) :
    Computes i c f (brought c f x) := by
  refine computes_bits hi fun w hw a b d _ => ?_
  rw [hx w hw, narrow_eq, Nat.mod_eq_of_lt (BitVec.isLt _), brought]

theorem computes_wrapped (hsat : f.sat = false) {bop : ∀ w : Nat, BitVec w → BitVec w → BitVec w → BitVec w}
    (hi : Computes i c f (brought c f x)) (hb : ∀ w (a b d : BitVec w), BitVec.ofInt w (x w a b d) = bop w a b d) :
    Computes i c f bop := by
  have heq : brought c f x = bop := by
    funext w a b d
    rw [brought, hsat, if_neg Bool.false_ne_true, hb]
  rwa [← heq]

theorem computes_clamped (hsat : f.sat = true) (hi : Computes i c f (brought c f x)) :
    Computes i c f (fun w a b d => clampBits c.ty w (x w a b d)) := by
  have heq : brought c f x = fun w a b d => clampBits c.ty w (x w a b d) := by
    funext w a b d
    rw [brought, if_pos hsat]
  rwa [← heq]

end Wrap

/-- The exact results of the eight members (R100). -/
theorem computes_wrapMembers (c : Common) (f : FormA) :
    Computes (.add c f) c f (brought c f fun _ a b _ => readBits c.ty a + readBits c.ty b) ∧
    Computes (.sub c f) c f (brought c f fun _ a b _ => readBits c.ty a - readBits c.ty b) ∧
    Computes (.neg c f) c f (brought c f fun _ a _ _ => -readBits c.ty a) ∧
    Computes (.abs c f) c f (brought c f fun _ a _ _ => (readBits c.ty a).natAbs) ∧
    Computes (.mul c f) c f (brought c f fun _ a b _ => readBits c.ty a * readBits c.ty b) ∧
    Computes (.mad c f) c f (brought c f fun _ a b d => readBits c.ty a * readBits c.ty b + readBits c.ty d) ∧
    Computes (.shl c f) c f (brought c f fun w a b _ => readBits c.ty a * 2 ^ (b.toNat % w)) ∧
    Computes (.adsc c f) c f (brought c f fun _ a b _ => readBits c.ty a + readBits c.ty b * 2 ^ fieldLow f) := by
  refine ⟨computes_brought (op := fun p => p.ia c + p.ib c) (fun _ => rfl) ?_,
    computes_brought (op := fun p => p.ia c - p.ib c) (fun _ => rfl) ?_,
    computes_brought (op := fun p => -(p.ia c)) (fun _ => rfl) ?_,
    computes_brought (op := fun p => ((p.ia c).natAbs : Int)) (fun _ => rfl) ?_,
    computes_brought (op := fun p => p.ia c * p.ib c) (fun _ => rfl) ?_,
    computes_brought (op := fun p => p.ia c * p.ib c + p.ic c) (fun _ => rfl) ?_,
    computes_brought (op := fun p => p.ia c * (2 ^ p.sh : Nat)) (fun _ => rfl) ?_,
    computes_brought (op := fun p => p.ia c + p.ib c * (2 ^ fieldLow f : Nat)) (fun _ => rfl) ?_⟩
  all_goals
    intro w hw a b d
    simp [Pats.ia, Pats.ib, Pats.ic, Pats.sh, readInt_signed_toNat _ hw]

/-- The magnitude of a lane modulo 2^w: the two's complement where the lane is negative. -/
theorem ofInt_natAbs_readBits (t : Ty) {w : Nat} (a : BitVec w) :
    BitVec.ofInt w (readBits t a).natAbs = if t.signed && a.msb then -a else a := by
  have hback := ofInt_readBits t a
  cases hs : t.signed
  · have hpos : 0 ≤ readBits t a := by simp [readBits, hs]
    rw [Int.natAbs_of_nonneg hpos, hback]
    simp
  · have hread : readBits t a = a.toInt := by simp [readBits, hs]
    cases hm : a.msb
    · have hpos : 0 ≤ a.toInt := by rw [BitVec.toInt_eq_msb_cond, hm]; simp
      rw [hread, Int.natAbs_of_nonneg hpos, ← hread, hback]
      simp
    · have hneg : a.toInt < 0 := by rw [BitVec.msb_eq_toInt] at hm; exact of_decide_eq_true hm
      rw [hread, Int.ofNat_natAbs_of_nonpos hneg.le, BitVec.ofInt_neg, ← hread, hback]
      simp

/-- A lane times a power of two, modulo 2^w, is the lane shifted. -/
theorem ofInt_mul_two_pow (t : Ty) {w : Nat} (a : BitVec w) (k : Nat) :
    BitVec.ofInt w (readBits t a * 2 ^ k) = a <<< k := by
  have hpow : BitVec.ofInt w (2 ^ k) = BitVec.twoPow w k := BitVec.eq_of_toNat_eq (by
    rw [BitVec.toNat_twoPow, ← BitVec.toNat_ofNat, ← BitVec.ofInt_natCast]
    push_cast
    rfl)
  rw [BitVec.ofInt_mul, ofInt_readBits, hpow, BitVec.mul_twoPow_eq_shiftLeft]

/-- Settles O1: each member's exact result, taken modulo 2^w. -/
theorem integerWraps : Obligations.IntegerWraps := by
  unfold Obligations.IntegerWraps
  intro c f hsat
  obtain ⟨hadd, hsub, hneg, habs, hmul, hmad, hshl, hadsc⟩ := computes_wrapMembers c f
  exact ⟨computes_wrapped hsat hadd fun _ a b _ => by rw [BitVec.ofInt_add, ofInt_readBits, ofInt_readBits],
    computes_wrapped hsat hsub fun _ a b _ => by
      rw [Int.sub_eq_add_neg, BitVec.ofInt_add, BitVec.ofInt_neg, ofInt_readBits, ofInt_readBits, BitVec.sub_eq_add_neg],
    computes_wrapped hsat hneg fun _ a _ _ => by rw [BitVec.ofInt_neg, ofInt_readBits],
    computes_wrapped hsat habs fun _ a _ _ => ofInt_natAbs_readBits c.ty a,
    computes_wrapped hsat hmul fun _ a b _ => by rw [BitVec.ofInt_mul, ofInt_readBits, ofInt_readBits],
    computes_wrapped hsat hmad fun _ a b d => by simp only [BitVec.ofInt_add, BitVec.ofInt_mul, ofInt_readBits],
    computes_wrapped hsat hshl fun _ a _ _ => ofInt_mul_two_pow c.ty a _,
    computes_wrapped hsat hadsc fun _ a b _ => by rw [BitVec.ofInt_add, ofInt_readBits, ofInt_mul_two_pow]⟩

/-- Settles O2: each member's exact result, clamped. -/
theorem integerSaturates : Obligations.IntegerSaturates := by
  unfold Obligations.IntegerSaturates
  intro c f hsat
  obtain ⟨hadd, hsub, hneg, habs, hmul, hmad, hshl, hadsc⟩ := computes_wrapMembers c f
  exact ⟨computes_clamped hsat hadd, computes_clamped hsat hsub, computes_clamped hsat hneg, computes_clamped hsat habs,
    computes_clamped hsat hmul, computes_clamped hsat hmad, computes_clamped hsat hshl, computes_clamped hsat hadsc⟩

end Sys2Proof.Machine

namespace Sys2Proof.Machine

open Sys2Proof

/-! ## Reductions of integers (R65 to R68, R72, R109) -/

section Tree

variable {α β : Type} {f : α → α → α} {h : β → β → β} {φ : β → α}

/-! A map that carries one operation into another carries its reductions. -/

theorem joinNode_map (hφ : ∀ x y, f (φ x) (φ y) = φ (h x y)) (a b : Option β) :
    joinNode f (a.map φ) (b.map φ) = (joinNode h a b).map φ := by
  cases a <;> cases b <;> simp [joinNode, hφ]

theorem treeLevel_map (hφ : ∀ x y, f (φ x) (φ y) = φ (h x y)) : ∀ l : List (Option β),
    treeLevel f (l.map (Option.map φ)) = (treeLevel h l).map (Option.map φ)
  | [] | [_] => rfl
  | a :: b :: l => by
    simp only [List.map_cons, treeLevel, joinNode_map hφ, treeLevel_map hφ l]

theorem treeUp_map (hφ : ∀ x y, f (φ x) (φ y) = φ (h x y)) (n : Nat) (l : List (Option β)) :
    treeUp f n (l.map (Option.map φ)) = (treeUp h n l).map φ := by
  induction n generalizing l with
  | zero => cases l <;> rfl
  | succ n ih => rw [treeUp, treeLevel_map hφ, ih, treeUp]

theorem linearReduce_map (hφ : ∀ x y, f (φ x) (φ y) = φ (h x y)) (l : List (Option β)) :
    linearReduce f (l.map (Option.map φ)) = (linearReduce h l).map φ := by
  have hfold (l : List (Option β)) (acc : Option β) :
      (l.map (Option.map φ)).foldl (joinNode f) (acc.map φ) = (l.foldl (joinNode h) acc).map φ := by
    induction l generalizing acc with
    | nil => rfl
    | cons a l ih => rw [List.map_cons, List.foldl_cons, List.foldl_cons, joinNode_map hφ, ih]
  exact hfold l none

end Tree

/-- The sum of the nodes that are not void. -/
def presentSum (l : List (Option Int)) : Int := (l.map (·.getD 0)).sum

theorem joinNode_add (a b : Option Int) : (joinNode (· + ·) a b).getD 0 = a.getD 0 + b.getD 0 := by
  cases a <;> cases b <;> simp [joinNode]

theorem presentSum_treeLevel : ∀ l : List (Option Int), presentSum (treeLevel (· + ·) l) = presentSum l
  | [] | [_] => rfl
  | a :: b :: l => by
    have ih := presentSum_treeLevel l
    unfold presentSum at ih ⊢
    simp only [treeLevel, List.map_cons, List.sum_cons, joinNode_add, ih, add_assoc]

/-- A level halves the number of nodes. -/
theorem treeLevel_length {α : Type} (f : α → α → α) : ∀ l : List (Option α), (treeLevel f l).length = (l.length + 1) / 2
  | [] => by simp [treeLevel]
  | [_] => by simp [treeLevel]
  | a :: b :: l => by
    simp only [treeLevel, List.length_cons, treeLevel_length f l]
    omega

/-- Enough levels leave the sum at the root. -/
theorem treeUp_add (n : Nat) (l : List (Option Int)) (hl : l.length ≤ 2 ^ n) : (treeUp (· + ·) n l).getD 0 = presentSum l := by
  induction n generalizing l with
  | zero =>
    match l with
    | [] => rfl
    | [a] => simp [treeUp, presentSum]
    | a :: b :: l => simp at hl
  | succ n ih =>
    have hhalf : (treeLevel (· + ·) l).length ≤ 2 ^ n := by
      rw [treeLevel_length]
      rw [Nat.pow_succ] at hl
      omega
    rw [treeUp, ih _ hhalf, presentSum_treeLevel]

theorem linearReduce_add (l : List (Option Int)) : (linearReduce (· + ·) l).getD 0 = presentSum l := by
  have hfold (l : List (Option Int)) (acc : Option Int) :
      (l.foldl (joinNode (· + ·)) acc).getD 0 = acc.getD 0 + presentSum l := by
    induction l generalizing acc with
    | nil => simp [presentSum]
    | cons a l ih =>
      rw [List.foldl_cons, ih, joinNode_add]
      simp [presentSum, add_assoc]
  exact (hfold l none).trans (zero_add _)

/-! ## Wrapped sums -/

/-- Reading a pattern and bringing it to its width again changes nothing but the bits above. -/
theorem wrapTo_readInt (sg : Bool) (w p : Nat) : wrapTo w (readInt sg w p) = p % 2 ^ w := by
  unfold wrapTo readInt
  dsimp only
  split
  · rw [Int.sub_emod_right, ← Int.natCast_mod, Int.toNat_natCast, Nat.mod_mod]
  · rw [← Int.natCast_mod, Int.toNat_natCast, Nat.mod_mod]

theorem wrapTo_add (w : Nat) (x y : Int) : wrapTo w (x + y) = (wrapTo w x + wrapTo w y) % 2 ^ w := by
  rw [wrapTo_ofInt, BitVec.ofInt_add, BitVec.toNat_add, ← wrapTo_ofInt, ← wrapTo_ofInt]

/-- Wrapped values add as their integers do. -/
theorem wrapTo_add_wrapTo (sg : Bool) (w : Nat) (x y : Int) :
    wrapTo w (readInt sg w (wrapTo w x) + readInt sg w (wrapTo w y)) = wrapTo w (x + y) := by
  rw [wrapTo_add, wrapTo_readInt, wrapTo_readInt, ← Nat.add_mod, ← wrapTo_add]

namespace Red

variable {r : Red}

/-- The integers of the lanes that are present. -/
def ints (r : Red) (vs : List Nat) (present : Nat → Bool) : List (Option Int) :=
  (List.range vs.length).map fun i => if present i then some (readInt r.src.signed r.sw (vs.getD i 0)) else none

theorem presentSum_ints (vs : List Nat) (present : Nat → Bool) : presentSum (r.ints vs present) =
    ((List.range vs.length).filter present).foldl (fun n j => n + readInt r.src.signed r.sw (vs.getD j 0)) 0 := by
  have hsum (v : Nat → Int) (l : List Nat) :
      presentSum (l.map fun i => if present i then some (v i) else none) = ((l.filter present).map v).sum := by
    induction l with
    | nil => rfl
    | cons i l ih =>
      unfold presentSum at ih ⊢
      cases hp : present i <;> simpa [hp] using ih
  rw [ints, hsum, List.sum_eq_foldl, List.foldl_map]

theorem reduce_fst (vs : List Nat) (present : Nat → Bool) : (r.reduce vs present).1 =
    (if r.nbv = 1 then linearReduce r.combine (r.leaves vs present) else treeReduce r.combine (r.leaves vs present)).getD r.identity := by
  unfold reduce
  dsimp only
  split <;> simp [*]

/-- A reduction whose leaves and nodes are wrapped integers is their wrapped sum, in the order of the tree as in the chain. -/
theorem reduce_eq_wrapTo {vs : List Nat} {present : Nat → Bool} (hlen : vs.length ≤ 2 ^ 64)
    (hleaf : ∀ p, r.widen p = wrapTo r.w (readInt r.src.signed r.sw p))
    (hnode : ∀ x y, r.combine (wrapTo r.w x) (wrapTo r.w y) = wrapTo r.w (x + y)) (hid : r.identity = wrapTo r.w 0) :
    (r.reduce vs present).1 = wrapTo r.w (presentSum (r.ints vs present)) := by
  have hleaves : r.leaves vs present = (r.ints vs present).map (Option.map (wrapTo r.w)) := by
    unfold leaves ints
    rw [List.map_map]
    refine List.map_congr_left fun i _ => ?_
    cases hp : present i <;> simp [hp, hleaf]
  rw [reduce_fst, hleaves, treeReduce, linearReduce_map hnode, treeUp_map hnode, hid]
  split
  · rw [Option.getD_map, linearReduce_add]
  · rw [Option.getD_map, treeUp_add 64 _ (by simpa [ints] using hlen)]

end Red

section LaneSum

variable {c : Common} {f : FormA} {nbv : Nat}

/-- The result type of a reduction of integers is an integer's, with the same width only where it is the same type. -/
theorem laneRed_ty (h : c.ty.isTo32 = true) :
    (laneRed c f nbv).ty.isFloat = false ∧ (laneRed c f nbv).src.isFmt = false ∧ (laneRed c f nbv).src = c.ty ∧
      ((laneRed c f nbv).src = (laneRed c f nbv).ty → (laneRed c f nbv).w = (laneRed c f nbv).sw) := by
  unfold laneRed
  generalize c.ty = t at h
  cases f.wide <;> cases t <;> simp [Ty.isTo32, Ty.isFloat, Ty.isFmt, wideTy] at h ⊢

theorem laneRed_widen (h : c.ty.isTo32 = true) (p : Nat) : (laneRed c f nbv).widen p =
    wrapTo (laneRed c f nbv).w (readInt (laneRed c f nbv).src.signed (laneRed c f nbv).sw p) := by
  obtain ⟨hty, hsrc, -, hw⟩ := laneRed_ty (f := f) (nbv := nbv) h
  unfold Red.widen
  rw [hsrc, hty, Bool.false_and, if_neg Bool.false_ne_true, if_neg Bool.false_ne_true]
  split
  · rw [hw ‹_›, wrapTo_readInt]
  · rfl

theorem laneRed_combine (h : c.ty.isTo32 = true) (hop : f.opsel = 0) (hsat : f.sat = false) (x y : Int) :
    (laneRed c f nbv).combine (wrapTo (laneRed c f nbv).w x) (wrapTo (laneRed c f nbv).w y) = wrapTo (laneRed c f nbv).w (x + y) := by
  have hop' : (laneRed c f nbv).op = 0 := by unfold laneRed; split <;> exact hop
  have hsat' : (laneRed c f nbv).sat = false := by unfold laneRed; split <;> exact hsat
  unfold Red.combine
  rw [hop', hsat', (laneRed_ty h).1]
  exact wrapTo_add_wrapTo ..

theorem laneRed_identity (hop : f.opsel = 0) : (laneRed c f nbv).identity = wrapTo (laneRed c f nbv).w 0 := by
  have hop' : (laneRed c f nbv).op = 0 := by unfold laneRed; split <;> exact hop
  unfold Red.identity
  rw [hop']
  simp [wrapTo]

end LaneSum

/-- Settles O17: wrapping carries the addition of integers into the node's operation, so that the tree and the chain give the
wrapped sum. -/
theorem integerSumIsOrderless : Obligations.IntegerSumIsOrderless := by
  unfold Obligations.IntegerSumIsOrderless
  intro c f nbv m hop hsat hty r vs
  have hlen : vs.length ≤ 2 ^ 64 := by
    have : vs.length = 1024 / r.sw := by simp [vs, lanesOf]
    rw [this]
    exact (Nat.div_le_self ..).trans (by norm_num)
  rw [Red.reduce_eq_wrapTo hlen (laneRed_widen hty) (laneRed_combine hty hop hsat) (laneRed_identity hop), Red.presentSum_ints,
    (laneRed_ty hty).2.2.1]

end Sys2Proof.Machine

namespace Sys2Proof.Machine

open Sys2Proof

/-! ## Float values as extended reals (R51, R54) -/

/-- The magnitude `m × 2^e`. -/
noncomputable def magnitude (m : Nat) (e : Int) : ℝ := m * 2 ^ e

theorem magnitude_nonneg (m : Nat) (e : Int) : 0 ≤ magnitude m e := by
  unfold magnitude
  positivity

/-- A magnitude in units of a lower exponent. -/
theorem magnitude_align (m : Nat) {e q : Int} (h : q ≤ e) : magnitude (m * 2 ^ (e - q).toNat : Nat) q = magnitude m e := by
  unfold magnitude
  push_cast
  rw [mul_assoc, ← zpow_natCast, Int.toNat_of_nonneg (by omega), ← zpow_add₀ two_ne_zero, Int.sub_add_cancel]

/-- A magnitude with a sign. -/
noncomputable def signedBy (neg : Bool) (x : EReal) : EReal := if neg then -x else x

/-- The number a value stands for. NaN stands for none; every lemma below excludes it. -/
noncomputable def FV.toEReal : FV → EReal
  | .nan => 0
  | .inf n => signedBy n ⊤
  | .fin n m e => signedBy n (magnitude m e : ℝ)

/-- A value aligned to a lower exponent stands for the same number. -/
theorem scaled_toEReal (n : Bool) (m : Nat) {e low : Int} (h : low ≤ e) :
    (FV.fin n m e).toEReal = ((scaled n m e low * 2 ^ low : ℝ) : EReal) := by
  rw [FV.toEReal, ← magnitude_align m h, magnitude, scaled]
  cases n <;> simp [signedBy]

/-- A finite value is a real number, and lies between the ranks that the model gives the infinities. -/
theorem toEReal_fin (n : Bool) (m : Nat) (e : Int) : ∃ v : ℝ, (FV.fin n m e).toEReal = v :=
  ⟨_, scaled_toEReal n m le_rfl⟩

theorem cmpVal_fin (n : Bool) (m : Nat) (e : Int) : ∃ k, (FV.fin n m e).cmpVal = some k ∧ -1 ≤ k ∧ k ≤ 1 := by
  refine ⟨_, rfl, ?_⟩
  split
  · decide
  · cases n <;> decide

/-- The model's order is the order of the numbers. -/
theorem FV.lt_iff {x y : FV} (hx : x.isNan = false) (hy : y.isNan = false) : x.lt y = true ↔ x.toEReal < y.toEReal := by
  match x, y with
  | .fin n m e, .fin n' m' e' =>
    rw [scaled_toEReal n m (min_le_left e e'), scaled_toEReal n' m' (min_le_right e e'), EReal.coe_lt_coe_iff,
      mul_lt_mul_iff_left₀ (zpow_pos two_pos _), Int.cast_lt]
    exact decide_eq_true_iff
  | .inf n, .inf n' => cases n <;> cases n' <;> simp [FV.lt, FV.cmpVal, FV.toEReal, signedBy]
  | .inf n, .fin n' m e =>
    obtain ⟨k, hk, hlow, hhigh⟩ := cmpVal_fin n' m e
    obtain ⟨v, hv⟩ := toEReal_fin n' m e
    change decide ((FV.inf n).cmpVal.getD 0 < (FV.fin n' m e).cmpVal.getD 0) = true ↔ _
    rw [hv, hk]
    cases n
    · simpa [FV.cmpVal, FV.toEReal, signedBy] using by omega
    · simpa [FV.cmpVal, FV.toEReal, signedBy] using by omega
  | .fin n m e, .inf n' =>
    obtain ⟨k, hk, hlow, hhigh⟩ := cmpVal_fin n m e
    obtain ⟨v, hv⟩ := toEReal_fin n m e
    change decide ((FV.fin n m e).cmpVal.getD 0 < (FV.inf n').cmpVal.getD 0) = true ↔ _
    rw [hv, hk]
    cases n'
    · simpa [FV.cmpVal, FV.toEReal, signedBy] using by omega
    · simpa [FV.cmpVal, FV.toEReal, signedBy] using by omega

theorem FV.eq_iff {x y : FV} (hx : x.isNan = false) (hy : y.isNan = false) : x.eq y = true ↔ x.toEReal = y.toEReal := by
  simp only [FV.eq, hx, hy, Bool.not_false, Bool.true_and, Bool.and_eq_true, Bool.not_eq_true', ← Bool.not_eq_true,
    FV.lt_iff hx hy, FV.lt_iff hy hx, not_lt]
  rw [le_antisymm_iff, and_comm]

theorem FV.le_iff {x y : FV} (hx : x.isNan = false) (hy : y.isNan = false) : x.le y = true ↔ x.toEReal ≤ y.toEReal := by
  rw [FV.le, Bool.or_eq_true, FV.lt_iff hx hy, FV.eq_iff hx hy, le_iff_lt_or_eq]

theorem FV.lt_of_isNan {x y : FV} (h : (x.isNan || y.isNan) = true) : x.lt y = false := by
  match x, y with
  | .nan, _ => rfl
  | .inf _, .nan | .fin _ _ _, .nan => rfl

theorem FV.eq_of_isNan {x y : FV} (h : (x.isNan || y.isNan) = true) : x.eq y = false := by
  cases hx : x.isNan
  · have hy : y.isNan = true := by simpa [hx] using h
    simp [FV.eq, hy]
  · simp [FV.eq, hx]

theorem FV.le_of_isNan {x y : FV} (h : (x.isNan || y.isNan) = true) : x.le y = false := by
  rw [FV.le, FV.lt_of_isNan h, FV.eq_of_isNan h, Bool.or_self]

theorem FV.toEReal_of_isZero {x : FV} (h : x.isZero = true) : x.toEReal = 0 := by
  match x with
  | .fin n 0 e => simp [FV.toEReal, signedBy, magnitude]

/-! ## Comparisons (R54, R98, R100) -/

/-- The value made of a truth value per lane tells it. -/
theorem tells_boolVal {c : Common} {p q : Nat → Bool} (h : ∀ j, p j = q j) : Tells c q (boolVal c p) := by
  have hpq : p = q := funext h
  subst hpq
  refine ⟨fun hw => ⟨_, by rw [boolVal, if_pos hw], fun j hj => ?_⟩, fun hw => by rw [boolVal, if_neg (by simp [hw])]⟩
  by_cases hlane : j < 1024 / c.ty.width true
  · have hbit : (ofLanes 1 ((List.range (1024 / c.ty.width true)).map fun j => (p j).toNat)).extractLsb' (1 * j) 1 =
        BitVec.ofBool (p j) := BitVec.eq_of_toNat_eq (by
      rw [ofLanes_lane (by simpa using Nat.div_le_self ..) (by simpa using hlane)]
      cases hp : p j <;> simp [hp])
    simpa [hlane] using congrArg (·.getLsbD 0) hbit
  · rw [ofLanes_above (by simpa using hlane)]
    simp [hlane]

/-- A comparison of its operands' patterns compares their bits in the same way. -/
theorem compares_bits {i : Instr} {c : Common} {f : FormA} {op : Pats → Bool} {bop : ∀ w : Nat, BitVec w → BitVec w → Bool}
    (hi : ∀ s, exec i s = fireCmp c f op s)
    (hop : ∀ w, ∀ x y z : BitVec w, op ⟨w, x.toNat, y.toNat, z.toNat⟩ = bop w x y) : Compares i c f bop := by
  intro b m s h
  refine ⟨boolVal c fun j => op (patsOf c f m j), tells_boolVal fun j => ?_, ?_⟩
  · rw [← hop _ _ _ (laneBits c.w _ j m.c)]
    simp only [patsOf, laneBits_toNat, laneB_toNat]
  · rw [hi, fireCmp, fireVals_ready h]
    rfl

/-- Settles O10: the model's order is that of the extended reals. -/
theorem floatCompares : Obligations.FloatCompares := by
  unfold Obligations.FloatCompares
  intro c f dec nan
  refine ⟨compares_bits (op := fun p => ((fmtOf c.ty).decode p.a).isNan || ((fmtOf c.ty).decode p.b).isNan) (fun _ => rfl)
      fun _ _ _ _ => rfl,
    compares_bits (op := fun p => ((fmtOf c.ty).decode p.a).lt ((fmtOf c.ty).decode p.b)) (fun _ => rfl) fun _ a b _ => ?_,
    compares_bits (op := fun p => ((fmtOf c.ty).decode p.a).eq ((fmtOf c.ty).decode p.b)) (fun _ => rfl) fun _ a b _ => ?_,
    compares_bits (op := fun p => ((fmtOf c.ty).decode p.a).le ((fmtOf c.ty).decode p.b)) (fun _ => rfl) fun _ a b _ => ?_,
    fun w a b hnan => ?_⟩
  · cases hnan : nan a b
    · rfl
    · exact FV.lt_of_isNan hnan
  · cases hnan : nan a b
    · rfl
    · exact FV.eq_of_isNan hnan
  · cases hnan : nan a b
    · rfl
    · exact FV.le_of_isNan hnan
  · have ⟨ha, hb⟩ : (dec a).isNan = false ∧ (dec b).isNan = false := by simpa [nan] using hnan
    simp only [Bool.or_eq_true, ← Bool.not_eq_true, Bool.and_eq_true, FV.lt_iff ha hb, FV.lt_iff hb ha, FV.eq_iff ha hb]
    refine ⟨?_, ?_, ?_, ?_⟩
    · rcases lt_trichotomy (dec a).toEReal (dec b).toEReal with h | h | h <;> simp [h]
    · exact fun h => lt_asymm h.1 h.2
    · exact fun h => h.1.ne h.2
    · exact fun h => by rw [FV.toEReal_of_isZero h.1, FV.toEReal_of_isZero h.2]
end Sys2Proof.Machine

namespace Sys2Proof.Machine

open Sys2Proof

/-! ## Codes of a format (R51, R52) -/

namespace Fmt

variable {g : Fmt}

/-- What the five formats have in common: the codes above the greatest finite one are the infinity and the NaNs. -/
structure Regular (g : Fmt) : Prop where
  exps : 0 < g.eb
  subs : 2 ^ g.mb ≤ g.top
  above : g.inf = true → g.top + 1 = g.infCode ∧ g.infCode < g.nan ∧ g.nan < 2 ^ (g.eb + g.mb)
  last : g.inf = false → g.top + 1 = g.nan ∧ g.nan + 1 = 2 ^ (g.eb + g.mb)

theorem regular_of_mem (h : g ∈ [fmtF32, fmtF16, fmtBf16, fmtE4m3, fmtE5m2]) : g.Regular := by
  simp only [List.mem_cons, List.not_mem_nil, or_false] at h
  rcases h with rfl | rfl | rfl | rfl | rfl <;> exact ⟨by decide, by decide, by decide, by decide⟩

theorem regular_fmtOf (t : Ty) : (fmtOf t).Regular := regular_of_mem (by cases t <;> simp [fmtOf])

/-- The mantissa and the exponent of a finite code less its sign. -/
def mant (g : Fmt) (c : Nat) : Nat := if c / 2 ^ g.mb = 0 then c % 2 ^ g.mb else c % 2 ^ g.mb + 2 ^ g.mb
def expo (g : Fmt) (c : Nat) : Int :=
  if c / 2 ^ g.mb = 0 then 1 - (g.bias : Int) - g.mb else (c / 2 ^ g.mb : Nat) - (g.bias : Int) - g.mb

/-- The value of a sign and the other bits of a code. -/
def ofParts (g : Fmt) (neg : Bool) (c : Nat) : FV :=
  if g.inf && c / 2 ^ g.mb == 2 ^ g.eb - 1 then (if c % 2 ^ g.mb = 0 then .inf neg else .nan)
  else if !g.inf && c == g.nan then .nan
  else .fin neg (g.mant c) (g.expo c)

theorem decode_eq_ofParts (g : Fmt) (p : Nat) :
    g.decode p = g.ofParts (natBit p (g.eb + g.mb)) (p % 2 ^ (g.eb + g.mb)) := by
  have hwidth : g.width = g.eb + g.mb + 1 := by unfold width; omega
  have hbits : p % 2 ^ g.width % 2 ^ (g.eb + g.mb) = p % 2 ^ (g.eb + g.mb) :=
    Nat.mod_mod_of_dvd _ (pow_dvd_pow 2 (by omega))
  have hsign : natBit (p % 2 ^ g.width) (g.eb + g.mb) = natBit p (g.eb + g.mb) := by
    simp [natBit, Nat.testBit_mod_two_pow, hwidth]
  unfold decode ofParts mant expo
  simp only [hbits, hsign]
  congr 2
  split <;> rfl

theorem withSign_parts {neg : Bool} {c : Nat} (h : c < 2 ^ (g.eb + g.mb)) :
    natBit (g.withSign neg c) (g.eb + g.mb) = neg ∧ g.withSign neg c % 2 ^ (g.eb + g.mb) = c := by
  unfold natBit withSign
  cases neg
  · exact ⟨Nat.testBit_lt_two_pow h, Nat.mod_eq_of_lt h⟩
  · simp [Nat.add_comm c, Nat.testBit_two_pow_add_eq, Nat.testBit_lt_two_pow h, Nat.mod_eq_of_lt h]

theorem withSign_of_parts {p : Nat} (h : p < 2 ^ g.width) :
    g.withSign (natBit p (g.eb + g.mb)) (p % 2 ^ (g.eb + g.mb)) = p := by
  have hdiv : p / 2 ^ (g.eb + g.mb) < 2 := by
    rw [Nat.div_lt_iff_lt_mul (Nat.two_pow_pos _), ← Nat.pow_succ']
    exact h.trans_eq (by unfold width; congr 1; omega)
  have hsplit := Nat.div_add_mod p (2 ^ (g.eb + g.mb))
  unfold withSign natBit
  rw [Nat.testBit_eq_decide_div_mod_eq]
  rcases Nat.le_one_iff_eq_zero_or_eq_one.1 (Nat.lt_succ_iff.1 hdiv) with h0 | h1
  · rw [h0] at hsplit ⊢
    simpa using hsplit
  · rw [h1] at hsplit ⊢
    simpa [Nat.add_comm] using hsplit

theorem decode_withSign {neg : Bool} {c : Nat} (h : c < 2 ^ (g.eb + g.mb)) : g.decode (g.withSign neg c) = g.ofParts neg c := by
  obtain ⟨hneg, hc⟩ := withSign_parts (neg := neg) h
  rw [decode_eq_ofParts, hneg, hc]

section Regular

variable (hg : g.Regular)
include hg

theorem Regular.top_lt : g.top < 2 ^ (g.eb + g.mb) := by
  cases hi : g.inf
  · have := hg.last hi; omega
  · have := hg.above hi; omega

theorem ofParts_of_le {neg : Bool} {c : Nat} (h : c ≤ g.top) : g.ofParts neg c = .fin neg (g.mant c) (g.expo c) := by
  unfold ofParts
  cases hi : g.inf
  · have := (hg.last hi).1
    simp [show c ≠ g.nan by omega]
  · have hexp : c / 2 ^ g.mb ≠ 2 ^ g.eb - 1 := by
      have habove : g.top + 1 = (2 ^ g.eb - 1) * 2 ^ g.mb := (hg.above hi).1
      have : c / 2 ^ g.mb < 2 ^ g.eb - 1 := (Nat.div_lt_iff_lt_mul (Nat.two_pow_pos _)).2 (by omega)
      omega
    simp [hexp]

omit hg in
theorem ofParts_infCode {neg : Bool} (hi : g.inf = true) : g.ofParts neg g.infCode = .inf neg := by
  simp [ofParts, hi, infCode]

theorem infCode_lt (hi : g.inf = true) : g.infCode < 2 ^ (g.eb + g.mb) := by
  have := hg.above hi; omega

/-- Above the greatest finite code the only value is the infinity. -/
theorem ofParts_of_gt {neg : Bool} {c : Nat} (h : g.top < c) (hc : c < 2 ^ (g.eb + g.mb)) (hn : (g.ofParts neg c).isNan = false) :
    g.inf = true ∧ c = g.infCode := by
  cases hi : g.inf
  · obtain ⟨hnan, hlast⟩ := hg.last hi
    have : c = g.nan := by omega
    simp [ofParts, hi, this, FV.isNan] at hn
  · refine ⟨rfl, ?_⟩
    have habove : g.top + 1 = g.infCode := (hg.above hi).1
    have hexp : c / 2 ^ g.mb = 2 ^ g.eb - 1 := by
      have h1 : 2 ^ g.eb - 1 ≤ c / 2 ^ g.mb := (Nat.le_div_iff_mul_le (Nat.two_pow_pos _)).2 (show g.infCode ≤ c by omega)
      have h2 : c / 2 ^ g.mb < 2 ^ g.eb := (Nat.div_lt_iff_lt_mul (Nat.two_pow_pos _)).2 (by rwa [← Nat.pow_add])
      omega
    have hfrac : c % 2 ^ g.mb = 0 := by
      by_contra hf
      simp [ofParts, hi, hexp, hf, FV.isNan] at hn
    have := Nat.div_add_mod' c (2 ^ g.mb)
    rw [hexp, hfrac] at this
    exact this.symm

/-- A code that is no NaN is a sign and a finite code, or a sign and an infinity. -/
theorem decode_cases {p : Nat} (hn : (g.decode p).isNan = false) :
    ∃ neg c, g.withSign neg c = p % 2 ^ g.width ∧
      ((c ≤ g.top ∧ g.decode p = .fin neg (g.mant c) (g.expo c)) ∨
        (g.inf = true ∧ c = g.infCode ∧ g.decode p = .inf neg)) := by
  have hlt := Nat.mod_lt p (Nat.two_pow_pos g.width)
  have hc := Nat.mod_lt (p % 2 ^ g.width) (Nat.two_pow_pos (g.eb + g.mb))
  have hp : g.decode p = g.decode (p % 2 ^ g.width) := by
    unfold decode
    rw [Nat.mod_mod]
  rw [hp, decode_eq_ofParts] at hn ⊢
  refine ⟨_, _, withSign_of_parts hlt, ?_⟩
  rcases Nat.lt_or_ge g.top (p % 2 ^ g.width % 2 ^ (g.eb + g.mb)) with htop | htop
  · obtain ⟨hi, hinf⟩ := ofParts_of_gt hg htop hc hn
    exact .inr ⟨hi, hinf, by rw [hinf, ofParts_infCode hi]⟩
  · exact .inl ⟨htop, ofParts_of_le hg htop⟩

end Regular

/-! ## The values of the codes, in ascending order -/

noncomputable def codeValue (g : Fmt) (c : Nat) : ℝ := magnitude (g.mant c) (g.expo c)

/-- The code of `n` units of the binade `j` above the subnormals. It stands for `n` units too where `n` is the first of the next
binade. -/
theorem codeValue_grid {j n : Nat} (hn : n ≤ 2 ^ (g.mb + 1)) (hj : j = 0 ∨ 2 ^ g.mb ≤ n) :
    g.codeValue (j * 2 ^ g.mb + n) = magnitude n (1 - (g.bias : Int) - g.mb + j) := by
  have hpos := Nat.two_pow_pos g.mb
  have hdiv : (j * 2 ^ g.mb + n) / 2 ^ g.mb = j + n / 2 ^ g.mb := by
    rw [Nat.add_comm, Nat.add_mul_div_right _ _ hpos, Nat.add_comm]
  have hmod : (j * 2 ^ g.mb + n) % 2 ^ g.mb = n % 2 ^ g.mb := Nat.mul_add_mod_self_right ..
  have hsplit := Nat.div_add_mod n (2 ^ g.mb)
  have hle : n / 2 ^ g.mb ≤ 2 := Nat.div_le_of_le_mul (by rwa [← Nat.pow_succ])
  unfold codeValue mant expo
  rw [hdiv, hmod]
  obtain hk | hk | hk : n / 2 ^ g.mb = 0 ∨ n / 2 ^ g.mb = 1 ∨ n / 2 ^ g.mb = 2 := by
    generalize n / 2 ^ g.mb = k at hle
    omega
  all_goals rw [hk] at hsplit ⊢
  · have hj0 : j = 0 := hj.resolve_right fun hge => by
      have := (Nat.le_div_iff_mul_le hpos).2 (show 1 * 2 ^ g.mb ≤ n by omega)
      omega
    rw [if_pos (by omega), if_pos (by omega), ← hsplit, hj0]
    simp
  · rw [if_neg (by omega), if_neg (by omega)]
    congr 1 <;> push_cast <;> omega
  · have hn2 : n % 2 ^ g.mb = 0 ∧ n = 2 ^ g.mb * 2 := by rw [Nat.pow_succ] at hn; omega
    rw [if_neg (by omega), if_neg (by omega), hn2.1, hn2.2]
    unfold magnitude
    push_cast
    rw [zero_add, mul_assoc, ← zpow_one_add₀ two_ne_zero]
    congr 2
    ring

theorem exists_grid (g : Fmt) (c : Nat) : ∃ j n, n < 2 ^ (g.mb + 1) ∧ (j = 0 ∨ 2 ^ g.mb ≤ n) ∧ c = j * 2 ^ g.mb + n := by
  by_cases hc : c < 2 ^ g.mb
  · exact ⟨0, c, by rw [Nat.pow_succ]; omega, .inl rfl, by omega⟩
  · have hdiv : 1 ≤ c / 2 ^ g.mb := (Nat.le_div_iff_mul_le (Nat.two_pow_pos _)).2 (by omega)
    have hmod := Nat.mod_lt c (Nat.two_pow_pos g.mb)
    refine ⟨c / 2 ^ g.mb - 1, c % 2 ^ g.mb + 2 ^ g.mb, by rw [Nat.pow_succ]; omega, .inr (by omega), ?_⟩
    rw [Nat.sub_mul, Nat.one_mul]
    have := Nat.div_add_mod' c (2 ^ g.mb)
    have : 2 ^ g.mb ≤ c / 2 ^ g.mb * 2 ^ g.mb := Nat.le_mul_of_pos_left _ hdiv
    omega

theorem magnitude_strictMono (e : Int) : StrictMono (magnitude · e) := fun m n h => by
  unfold magnitude
  exact mul_lt_mul_of_pos_right (Nat.cast_lt.2 h) (zpow_pos two_pos e)

theorem codeValue_strictMono (g : Fmt) : StrictMono g.codeValue := strictMono_nat_of_lt_succ fun c => by
  obtain ⟨j, n, hn, hj, rfl⟩ := g.exists_grid c
  rw [Nat.add_assoc, codeValue_grid hn.le hj, codeValue_grid (by omega) (by omega)]
  exact magnitude_strictMono _ n.lt_succ_self

/-! ## The grid of a rounding (R56) -/


theorem onGrid_spec (m : Nat) (e q : Int) {n rem half : Nat} (h : onGrid m e q = (n, rem, half)) :
    magnitude n q ≤ magnitude m e ∧ magnitude m e < magnitude (n + 1) q ∧ (rem = 0 ↔ magnitude n q = magnitude m e) := by
  by_cases hq : q ≤ e
  · have heq : magnitude (m * 2 ^ (e - q).toNat) q = magnitude m e := magnitude_align m hq
    rw [onGrid, if_pos hq] at h
    obtain ⟨rfl, rfl, -⟩ : m * 2 ^ (e - q).toNat = n ∧ 0 = rem ∧ 1 = half := by simpa using h
    exact ⟨heq.le, heq ▸ magnitude_strictMono q (Nat.lt_succ_self _), by simp [heq]⟩
  · obtain ⟨hn, hrem⟩ : n = m / 2 ^ (q - e).toNat ∧ (rem = 0 ↔ m % 2 ^ (q - e).toNat = 0) := by
      rw [onGrid, if_neg hq] at h
      dsimp only at h
      split at h
      · have hlt : m < 2 ^ (q - e).toNat := Nat.lt_log2_self.trans_le (Nat.pow_le_pow_right two_pos (by omega))
        obtain ⟨rfl, rfl, -⟩ : 0 = n ∧ (if m = 0 then 0 else 1) = rem ∧ 2 = half := by simpa using h
        rw [Nat.div_eq_of_lt hlt, Nat.mod_eq_of_lt hlt]
        simp
      · obtain ⟨rfl, rfl, -⟩ : _ = n ∧ _ = rem ∧ _ = half := by simpa using h
        exact ⟨rfl, Iff.rfl⟩
    have hpos := Nat.two_pow_pos (q - e).toNat
    have hsplit := Nat.div_add_mod' m (2 ^ (q - e).toNat)
    have hmod := Nat.mod_lt m hpos
    rw [← hn] at hsplit
    have halign (k : Nat) : magnitude k q = magnitude (k * 2 ^ (q - e).toNat) e := (magnitude_align k (by omega)).symm
    rw [hrem, halign, halign, (magnitude_strictMono e).le_iff_le, (magnitude_strictMono e).lt_iff_lt,
      (magnitude_strictMono e).injective.eq_iff]
    refine ⟨by omega, by rw [Nat.add_mul]; omega, by omega⟩

/-- The code that a finite magnitude is given once it is rounded to the grid. -/
def place (g : Fmt) (neg : Bool) (mode : Rnd) (sat : Bool) (c : Nat) : Nat :=
  if g.top < c then g.overflow neg mode sat else g.withSign neg c

/-- The exponent of the grid that a magnitude is rounded on. -/
def gridExp (g : Fmt) (m : Nat) (e : Int) : Int := max ((Nat.log2 m : Int) + e - g.mb) (1 - (g.bias : Int) - g.mb)

/-- A magnitude takes up to `mb + 1` bits of its grid, and all of them above the subnormals. -/
theorem gridExp_bounds {m n : Nat} {e : Int} (hm : m ≠ 0) (hle : magnitude n (g.gridExp m e) ≤ magnitude m e)
    (hlt : magnitude m e < magnitude (n + 1) (g.gridExp m e)) :
    n < 2 ^ (g.mb + 1) ∧ ((g.gridExp m e - (1 - (g.bias : Int) - g.mb)).toNat = 0 ∨ 2 ^ g.mb ≤ n) := by
  have hfirst : (2 ^ Nat.log2 m : ℝ) ≤ m := by exact_mod_cast Nat.log2_self_le hm
  have hnext : (m : ℝ) < 2 ^ (Nat.log2 m + 1) := by exact_mod_cast Nat.lt_log2_self
  constructor
  · refine (magnitude_strictMono (g.gridExp m e)).lt_iff_lt.1 (hle.trans_lt ?_)
    calc magnitude m e < 2 ^ (Nat.log2 m + 1) * 2 ^ e := mul_lt_mul_of_pos_right hnext (zpow_pos two_pos e)
      _ = 2 ^ ((Nat.log2 m : Int) + 1 + e) := by rw [zpow_add₀ two_ne_zero]; norm_cast
      _ ≤ 2 ^ ((g.mb : Int) + 1 + g.gridExp m e) := zpow_le_zpow_right₀ one_le_two (by unfold gridExp; omega)
      _ = magnitude (2 ^ (g.mb + 1) : Nat) (g.gridExp m e) := by rw [magnitude, zpow_add₀ two_ne_zero]; norm_cast
  · refine or_iff_not_imp_left.2 fun hsub => Nat.lt_succ_iff.1 <|
      (magnitude_strictMono (g.gridExp m e)).lt_iff_lt.1 (hlt.trans_le' ?_)
    calc magnitude (2 ^ g.mb : Nat) (g.gridExp m e) = 2 ^ ((g.mb : Int) + g.gridExp m e) := by
          rw [magnitude, zpow_add₀ two_ne_zero]; norm_cast
      _ = 2 ^ ((Nat.log2 m : Int) + e) := by congr 1; unfold gridExp at hsub ⊢; omega
      _ = 2 ^ Nat.log2 m * 2 ^ e := by rw [zpow_add₀ two_ne_zero]; norm_cast
      _ ≤ magnitude m e := mul_le_mul_of_nonneg_right hfirst (zpow_pos two_pos e).le

theorem round_fin {m : Nat} (hm : m ≠ 0) (e : Int) :
    ∃ c n rem half, g.codeValue c ≤ magnitude m e ∧ magnitude m e < g.codeValue (c + 1) ∧
      (rem = 0 ↔ g.codeValue c = magnitude m e) ∧ ∀ neg mode sat, g.round (.fin neg m e) mode sat =
        g.place neg mode sat (if roundUp mode neg n rem half then c + 1 else c) := by
  obtain ⟨n, rem, half, hgrid⟩ : ∃ n rem half, onGrid m e (g.gridExp m e) = (n, rem, half) := ⟨_, _, _, rfl⟩
  obtain ⟨hle, hlt, hexact⟩ := onGrid_spec m e _ hgrid
  obtain ⟨hn, hj⟩ := gridExp_bounds hm hle hlt
  have hq : 1 - (g.bias : Int) - g.mb + (g.gridExp m e - (1 - (g.bias : Int) - g.mb)).toNat = g.gridExp m e := by
    unfold gridExp; omega
  have hvalue (k : Nat) (hk : k ≤ 2 ^ (g.mb + 1)) (hk' : n ≤ k) :
      g.codeValue ((g.gridExp m e - (1 - (g.bias : Int) - g.mb)).toNat * 2 ^ g.mb + k) = magnitude k (g.gridExp m e) := by
    rw [codeValue_grid hk (by omega), hq]
  refine ⟨(g.gridExp m e - (1 - (g.bias : Int) - g.mb)).toNat * 2 ^ g.mb + n, n, rem, half, ?_, ?_, ?_, fun neg mode sat => ?_⟩
  · rwa [hvalue n hn.le le_rfl]
  · rwa [Nat.add_assoc, hvalue (n + 1) hn (Nat.le_succ n)]
  · rwa [hvalue n hn.le le_rfl]
  · rw [Fmt.round, if_neg hm]
    unfold gridExp at hgrid
    dsimp only
    rw [hgrid]
    dsimp only
    unfold place
    cases roundUp mode neg n rem half <;> rfl
end Fmt
end Sys2Proof.Machine

namespace Sys2Proof.Machine

open Sys2Proof

namespace Fmt

variable {g : Fmt}

/-! ## Values that need no rounding (R56) -/

/-- With no remainder no mode rounds up. -/
theorem roundUp_of_exact (mode : Rnd) (neg : Bool) (n half : Nat) : roundUp mode neg n 0 half = false := by
  cases mode <;> simp [roundUp]

theorem mant_eq_zero {c : Nat} (h : g.mant c = 0) : c = 0 := by
  have hpos := Nat.two_pow_pos g.mb
  have hsplit := Nat.div_add_mod c (2 ^ g.mb)
  unfold mant at h
  split at h
  · rename_i hdiv
    rw [hdiv, h] at hsplit
    simpa using hsplit.symm
  · omega

/-- A finite code is what its value is rounded to. -/
theorem round_codeValue {c : Nat} (h : c ≤ g.top) (neg : Bool) (mode : Rnd) (sat : Bool) :
    g.round (.fin neg (g.mant c) (g.expo c)) mode sat = g.withSign neg c := by
  by_cases hm : g.mant c = 0
  · rw [mant_eq_zero hm, round, if_pos (mant_eq_zero hm ▸ hm)]
  · obtain ⟨d, n, rem, half, hle, hlt, hexact, hround⟩ := round_fin (g := g) hm (g.expo c)
    have hdc : d = c := by
      have h1 := (codeValue_strictMono g).le_iff_le.1 hle
      have h2 := (codeValue_strictMono g).lt_iff_lt.1 hlt
      omega
    rw [hround, hexact.2 (hdc ▸ rfl), roundUp_of_exact, if_neg Bool.false_ne_true, hdc, place, if_neg (by omega)]

theorem round_inf {neg : Bool} (hi : g.inf = true) (mode : Rnd) (sat : Bool) :
    g.round (.inf neg) mode sat = g.withSign neg g.infCode := by
  rw [round, if_pos hi]

theorem round_decode (hg : g.Regular) {p : Nat} (hp : p < 2 ^ g.width) (hn : (g.decode p).isNan = false) (mode : Rnd)
    (sat : Bool) : g.round (g.decode p) mode sat = p := by
  obtain ⟨neg, c, hparts, ⟨hc, hfin⟩ | ⟨hi, rfl, hinf⟩⟩ := decode_cases hg hn <;> rw [Nat.mod_eq_of_lt hp] at hparts
  · rw [hfin, round_codeValue hc, hparts]
  · rw [hinf, round_inf hi, hparts]

end Fmt

/-- Settles O11: between the code of a value and the next lies no other, and an exact value leaves nothing to round up. -/
theorem exactUnchanged : Obligations.ExactUnchanged := by
  unfold Obligations.ExactUnchanged
  exact fun g hg p hp hn mode sat => Fmt.round_decode (Fmt.regular_of_mem hg) hp hn mode sat

namespace Fmt

variable {g : Fmt}

/-! ## Directed rounding (R56) -/

/-- The numbers that the codes of a format stand for. -/
def values (g : Fmt) : Set EReal := {v | ∃ p, (g.decode p).isNan = false ∧ (g.decode p).toEReal = v}

/-- The magnitude of a code without its sign, the infinity's above the finite ones. -/
noncomputable def size (g : Fmt) (c : Nat) : EReal := if c ≤ g.top then (g.codeValue c : EReal) else ⊤

theorem size_mono (g : Fmt) : Monotone g.size := fun c d h => by
  unfold size
  split
  · split
    · exact EReal.coe_le_coe_iff.2 ((codeValue_strictMono g).monotone h)
    · exact le_top
  · rw [if_neg (by omega)]

theorem size_nonneg (g : Fmt) (c : Nat) : 0 ≤ g.size c := by
  unfold size
  split
  · exact EReal.coe_nonneg.2 (magnitude_nonneg _ _)
  · exact le_top

section Regular

variable (hg : g.Regular) (hi : g.inf = true)
include hg hi

/-- A sign and a code up to the infinity's stand for the code's magnitude with the sign. -/
theorem decode_of_le_infCode {neg : Bool} {c : Nat} (hc : c ≤ g.infCode) :
    (g.decode (g.withSign neg c)).isNan = false ∧ (g.decode (g.withSign neg c)).toEReal = signedBy neg (g.size c) := by
  have habove := (hg.above hi).1
  rw [decode_withSign (hc.trans_lt (infCode_lt hg hi))]
  by_cases htop : c ≤ g.top
  · rw [ofParts_of_le hg htop, size, if_pos htop]
    exact ⟨rfl, rfl⟩
  · obtain rfl : c = g.infCode := by omega
    rw [ofParts_infCode hi, size, if_neg htop]
    exact ⟨rfl, rfl⟩

theorem mem_values {v : EReal} : v ∈ g.values ↔ ∃ neg, ∃ c ≤ g.infCode, v = signedBy neg (g.size c) := by
  have habove := (hg.above hi).1
  constructor
  · rintro ⟨p, hn, rfl⟩
    obtain ⟨neg, c, -, ⟨hc, hfin⟩ | ⟨-, rfl, hinf⟩⟩ := decode_cases hg hn
    · exact ⟨neg, c, by omega, by rw [hfin, size, if_pos hc]; rfl⟩
    · exact ⟨neg, g.infCode, le_rfl, by rw [hinf, size, if_neg (by omega)]; rfl⟩
  · rintro ⟨neg, c, hc, rfl⟩
    exact ⟨_, decode_of_le_infCode hg hi hc⟩

theorem neg_mem_values {v : EReal} : -v ∈ g.values ↔ v ∈ g.values := by
  have key {v : EReal} (h : v ∈ g.values) : -v ∈ g.values := by
    obtain ⟨neg, c, hc, rfl⟩ := (mem_values hg hi).1 h
    exact (mem_values hg hi).2 ⟨!neg, c, hc, by cases neg <;> simp [signedBy]⟩
  exact ⟨fun h => neg_neg v ▸ key h, key⟩

/-- Of the values not above a positive magnitude, the greatest is that of the code below it. -/
theorem isGreatest_of_between {x : ℝ} {c : Nat} (hle : g.codeValue c ≤ x) (hlt : x < g.codeValue (c + 1)) :
    IsGreatest {v | v ∈ g.values ∧ v ≤ (x : EReal)} (g.size (min c g.top)) := by
  have habove := (hg.above hi).1
  refine ⟨⟨(mem_values hg hi).2 ⟨false, _, by omega, rfl⟩, ?_⟩, ?_⟩
  · rw [size, if_pos (min_le_right ..)]
    exact EReal.coe_le_coe_iff.2 (((codeValue_strictMono g).monotone (min_le_left ..)).trans hle)
  · rintro v ⟨hv, hvx⟩
    obtain ⟨neg, d, hd, rfl⟩ := (mem_values hg hi).1 hv
    cases neg
    · have htop : d ≤ g.top := by
        by_contra htop
        rw [signedBy, if_neg Bool.false_ne_true, size, if_neg htop] at hvx
        exact absurd hvx (not_le.2 (EReal.coe_lt_top x))
      have hdx : g.codeValue d ≤ x := by simpa [signedBy, size, htop] using hvx
      have := (codeValue_strictMono g).lt_iff_lt.1 (hdx.trans_lt hlt)
      exact size_mono g (le_min (by omega) htop)
    · exact (EReal.neg_le_zero.2 (size_nonneg g d)).trans (size_nonneg g _)

/-- Of the values not below a positive magnitude, the least is that of the first code not below it. -/
theorem isLeast_of_between {x : ℝ} (hx : 0 < x) {c : Nat} (hle : x ≤ g.codeValue c) (hlt : ∀ d, x ≤ g.codeValue d → c ≤ d) :
    IsLeast {v | v ∈ g.values ∧ (x : EReal) ≤ v} (g.size (min c g.infCode)) := by
  have habove := (hg.above hi).1
  refine ⟨⟨(mem_values hg hi).2 ⟨false, _, min_le_right .., rfl⟩, ?_⟩, ?_⟩
  · unfold size
    split
    · exact EReal.coe_le_coe_iff.2 (by rwa [min_eq_left (by omega)])
    · exact le_top
  · rintro v ⟨hv, hxv⟩
    obtain ⟨neg, d, hd, rfl⟩ := (mem_values hg hi).1 hv
    cases neg
    · refine size_mono g ?_
      by_cases htop : d ≤ g.top
      · have hxd : x ≤ g.codeValue d := by simpa [signedBy, size, htop] using hxv
        exact (min_le_left ..).trans (hlt d hxd)
      · exact (min_le_right ..).trans (by omega)
    · have := hxv.trans (EReal.neg_le_zero.2 (size_nonneg g d))
      exact absurd (EReal.coe_le_coe_iff.1 this) (not_le.2 hx)

/-- Rounding toward zero in a directed mode. -/
theorem round_inward (neg : Bool) {m : Nat} (hm : m ≠ 0) (e : Int) :
    ∃ c ≤ g.infCode, g.round (.fin neg m e) (if neg then .ru else .rd) false = g.withSign neg c ∧
      IsGreatest {v | v ∈ g.values ∧ v ≤ (magnitude m e : EReal)} (g.size c) := by
  have habove := (hg.above hi).1
  obtain ⟨c, n, rem, half, hle, hlt, -, hround⟩ := round_fin (g := g) hm e
  refine ⟨min c g.top, by omega, ?_, isGreatest_of_between hg hi hle hlt⟩
  have hdown : roundUp (if neg then .ru else .rd) neg n rem half = false := by cases neg <;> rfl
  rw [hround, hdown, if_neg Bool.false_ne_true, place]
  split
  · rw [min_eq_right (by omega)]
    cases neg <;> rfl
  · rw [min_eq_left (by omega)]

/-- Rounding away from zero in a directed mode. -/
theorem round_outward (neg : Bool) {m : Nat} (hm : m ≠ 0) (e : Int) :
    ∃ c ≤ g.infCode, g.round (.fin neg m e) (if neg then .rd else .ru) false = g.withSign neg c ∧
      IsLeast {v | v ∈ g.values ∧ (magnitude m e : EReal) ≤ v} (g.size c) := by
  have habove := (hg.above hi).1
  obtain ⟨c, n, rem, half, hle, hlt, hexact, hround⟩ := round_fin (g := g) hm e
  have hpos : 0 < magnitude m e := mul_pos (Nat.cast_pos.2 (Nat.pos_of_ne_zero hm)) (zpow_pos two_pos e)
  have hup : roundUp (if neg then .rd else .ru) neg n rem half = (rem != 0) := by cases neg <;> simp [roundUp]
  have hplace (d : Nat) : g.place neg (if neg then .rd else .ru) false d = g.withSign neg (min d g.infCode) := by
    unfold place
    split
    · rw [min_eq_right (by omega)]
      cases neg <;> simp [overflow, hi]
    · rw [min_eq_left (by omega)]
  refine ⟨_, min_le_right .., by rw [hround, hplace, hup], ?_⟩
  have hmono := codeValue_strictMono g
  by_cases hrem : rem = 0
  · have heq := hexact.1 hrem
    rw [hrem]
    exact isLeast_of_between hg hi hpos heq.ge fun d hd => hmono.le_iff_le.1 (heq.trans_le hd)
  · have hne : g.codeValue c < magnitude m e := lt_of_le_of_ne hle fun h => hrem (hexact.2 h)
    rw [if_pos (by simpa using hrem)]
    exact isLeast_of_between hg hi hpos hlt.le fun d hd => hmono.lt_iff_lt.1 (hne.trans_le hd)

/-- A zero is rounded to a zero. -/
theorem round_zero (neg : Bool) (e : Int) (mode : Rnd) :
    (g.decode (g.round (.fin neg 0 e) mode false)).isNan = false ∧
      (g.decode (g.round (.fin neg 0 e) mode false)).toEReal = (FV.fin neg 0 e).toEReal := by
  obtain ⟨hn, hv⟩ := decode_of_le_infCode hg hi (neg := neg) (Nat.zero_le g.infCode)
  rw [round, if_pos rfl, hv]
  exact ⟨hn, by simp [FV.toEReal, size, codeValue, mant, magnitude]⟩

/-- The least value not below a number is the negative of the greatest not above its negative. -/
theorem isLeast_neg {x v : EReal} (h : IsGreatest {v | v ∈ g.values ∧ v ≤ x} v) :
    IsLeast {v | v ∈ g.values ∧ -x ≤ v} (-v) := by
  obtain ⟨⟨hv, hvx⟩, hmax⟩ := h
  refine ⟨⟨(neg_mem_values hg hi).2 hv, EReal.neg_le_neg_iff.2 hvx⟩, fun u ⟨hu, hxu⟩ => ?_⟩
  exact EReal.neg_le.1 (hmax ⟨(neg_mem_values hg hi).2 hu, EReal.neg_le.1 hxu⟩)

/-- The greatest value not above a number is the negative of the least not below its negative. -/
theorem isGreatest_neg {x v : EReal} (h : IsLeast {v | v ∈ g.values ∧ x ≤ v} v) :
    IsGreatest {v | v ∈ g.values ∧ v ≤ -x} (-v) := by
  obtain ⟨⟨hv, hxv⟩, hmin⟩ := h
  refine ⟨⟨(neg_mem_values hg hi).2 hv, EReal.neg_le_neg_iff.2 hxv⟩, fun u ⟨hu, hux⟩ => ?_⟩
  exact EReal.le_neg.1 (hmin ⟨(neg_mem_values hg hi).2 hu, EReal.le_neg.1 hux⟩)

/-- Rounding down gives the greatest value that is not above. -/
theorem round_down (neg : Bool) (m : Nat) (e : Int) :
    (g.decode (g.round (.fin neg m e) .rd false)).isNan = false ∧
      IsGreatest {v | v ∈ g.values ∧ v ≤ (FV.fin neg m e).toEReal} (g.decode (g.round (.fin neg m e) .rd false)).toEReal := by
  by_cases hm : m = 0
  · subst hm
    obtain ⟨hn, hv⟩ := round_zero hg hi neg e .rd
    exact ⟨hn, ⟨⟨_, hn, rfl⟩, hv.le⟩, fun u hu => hv ▸ hu.2⟩
  · cases neg
    · obtain ⟨c, hc, hround, hgreatest⟩ := round_inward hg hi false hm e
      obtain ⟨hn, hv⟩ := decode_of_le_infCode hg hi (neg := false) hc
      exact hround ▸ ⟨hn, hv ▸ hgreatest⟩
    · obtain ⟨c, hc, hround, hleast⟩ := round_outward hg hi true hm e
      obtain ⟨hn, hv⟩ := decode_of_le_infCode hg hi (neg := true) hc
      exact hround ▸ ⟨hn, hv ▸ isGreatest_neg hg hi hleast⟩

/-- Rounding up gives the least value that is not below. -/
theorem round_up (neg : Bool) (m : Nat) (e : Int) :
    (g.decode (g.round (.fin neg m e) .ru false)).isNan = false ∧
      IsLeast {v | v ∈ g.values ∧ (FV.fin neg m e).toEReal ≤ v} (g.decode (g.round (.fin neg m e) .ru false)).toEReal := by
  by_cases hm : m = 0
  · subst hm
    obtain ⟨hn, hv⟩ := round_zero hg hi neg e .ru
    exact ⟨hn, ⟨⟨_, hn, rfl⟩, hv.ge⟩, fun u hu => hv ▸ hu.2⟩
  · cases neg
    · obtain ⟨c, hc, hround, hleast⟩ := round_outward hg hi false hm e
      obtain ⟨hn, hv⟩ := decode_of_le_infCode hg hi (neg := false) hc
      exact hround ▸ ⟨hn, hv ▸ hleast⟩
    · obtain ⟨c, hc, hround, hgreatest⟩ := round_inward hg hi true hm e
      obtain ⟨hn, hv⟩ := decode_of_le_infCode hg hi (neg := true) hc
      exact hround ▸ ⟨hn, hv ▸ isLeast_neg hg hi hgreatest⟩

end Regular

end Fmt

/-- Settles O14: the code below a magnitude and the next one bound it, and codes ascend with their values. -/
theorem directedRounding : Obligations.DirectedRounding := by
  unfold Obligations.DirectedRounding
  intro g hmem neg m e x down up
  have hg : g.Regular := Fmt.regular_of_mem (by simp only [List.mem_cons, List.not_mem_nil, or_false] at hmem ⊢; tauto)
  have hi : g.inf = true := by
    simp only [List.mem_cons, List.not_mem_nil, or_false] at hmem
    rcases hmem with rfl | rfl | rfl | rfl <;> rfl
  obtain ⟨hdown, ⟨-, hle⟩, hmax⟩ := Fmt.round_down hg hi neg m e
  obtain ⟨hup, ⟨-, hge⟩, hmin⟩ := Fmt.round_up hg hi neg m e
  refine ⟨(FV.le_iff hdown rfl).2 hle, (FV.le_iff rfl hup).2 hge, fun p hp => ⟨fun h => ?_, fun h => ?_⟩⟩
  · exact (FV.le_iff hp hdown).2 (hmax ⟨⟨p, hp, rfl⟩, (FV.le_iff hp rfl).1 h⟩)
  · exact (FV.le_iff hup hp).2 (hmin ⟨⟨p, hp, rfl⟩, (FV.le_iff rfl hp).1 h⟩)

end Sys2Proof.Machine

namespace Sys2Proof.Machine

open Sys2Proof

/-! ## Members that select or re-sign an operand (R54, R102) -/

theorem Ty.ne_b1_of_isFloat {t : Ty} (h : t.isFloat = true) : t ≠ .b1 := by
  rintro rfl
  cases h

/-- A float type fills its lane. -/
theorem fmtOf_width {t : Ty} (h : t.isFloat = true) (v : Bool) : (fmtOf t).width = t.width v := by
  have hmem : t = .f16 ∨ t = .bf16 ∨ t = .f32 := by cases t <;> simp_all [Ty.isFloat]
  rcases hmem with rfl | rfl | rfl <;> rfl

/-- A member that selects or re-signs computes what it makes of the bits of a float lane. -/
theorem computes_pick {i : Instr} {c : Common} {f : FormA} {op : Pats → Nat}
    {bop : ∀ w : Nat, BitVec w → BitVec w → BitVec w → BitVec w} (hfloat : c.ty.isFloat = true)
    (hi : ∀ s, exec i s = firePick c f op s) (hop : ∀ w, (fmtOf c.ty).width = w → ∀ a b d : BitVec w,
      BitVec.ofNat w (op ⟨w, a.toNat, b.toNat, d.toNat⟩) = bop w a b d) : Computes i c f bop := by
  have hb : (c.ty == .b1) = false := by simpa using Ty.ne_b1_of_isFloat hfloat
  refine computes_bits (op := op) (fun s => by rw [hi, firePick, fireBits, hb]) fun w _ a b d hw => ?_
  rw [← hop w (hw ▸ fmtOf_width hfloat c.w), BitVec.toNat_ofNat]

namespace Fmt

variable {g : Fmt}

theorem neg_decode {p : Nat} (hn : (g.decode p).isNan = false) : (g.decode p).neg = natBit p (g.eb + g.mb) := by
  rw [decode_eq_ofParts] at hn ⊢
  revert hn
  unfold ofParts
  split
  · split
    · exact fun _ => rfl
    · exact nofun
  · split
    · exact nofun
    · exact fun _ => rfl

theorem natBit_toNat {w : Nat} (hw : g.width = w) (a : BitVec w) : natBit a.toNat (g.eb + g.mb) = a.msb := by
  have : w - 1 = g.eb + g.mb := by unfold width at hw; omega
  rw [natBit, BitVec.testBit_toNat, BitVec.msb_eq_getLsbD_last, this]

/-- The bits below the sign bit are the pattern without it. -/
theorem mod_eq_clear {w : Nat} (hw : g.width = w) (a : BitVec w) :
    a.toNat % 2 ^ (g.eb + g.mb) = (a &&& ~~~BitVec.twoPow w (w - 1)).toNat := by
  have hlast : w - 1 = g.eb + g.mb := by unfold width at hw; omega
  refine Nat.eq_of_testBit_eq fun i => ?_
  rw [Nat.testBit_mod_two_pow, BitVec.testBit_toNat, BitVec.testBit_toNat, hlast, BitVec.getLsbD_and, BitVec.getLsbD_not,
    BitVec.getLsbD_twoPow]
  rcases Nat.lt_trichotomy i (g.eb + g.mb) with h | h | h
  · simp [h, h.ne', show i < w by omega]
  · simp [h]
  · simp [h.not_gt, BitVec.getLsbD_of_ge a i (by omega)]

theorem withSign_not {w : Nat} (hw : g.width = w) (a : BitVec w) :
    g.withSign (!natBit a.toNat (g.eb + g.mb)) (a.toNat % 2 ^ (g.eb + g.mb)) = (a ^^^ BitVec.twoPow w (w - 1)).toNat := by
  have hlast : w - 1 = g.eb + g.mb := by unfold width at hw; omega
  have htop : g.eb + g.mb < w := by unfold width at hw; omega
  have hsign : natBit (a ^^^ BitVec.twoPow w (w - 1)).toNat (g.eb + g.mb) = !natBit a.toNat (g.eb + g.mb) := by
    simp only [natBit, BitVec.testBit_toNat, BitVec.getLsbD_xor, BitVec.getLsbD_twoPow, hlast]
    simp [htop]
  have hrest : (a ^^^ BitVec.twoPow w (w - 1)).toNat % 2 ^ (g.eb + g.mb) = a.toNat % 2 ^ (g.eb + g.mb) := by
    refine Nat.eq_of_testBit_eq fun i => ?_
    simp only [Nat.testBit_mod_two_pow, BitVec.testBit_toNat, BitVec.getLsbD_xor, BitVec.getLsbD_twoPow, hlast]
    by_cases h : i < g.eb + g.mb
    · simp [h.ne']
    · simp [h]
  rw [← hsign, ← hrest]
  exact withSign_of_parts (hw.symm ▸ BitVec.isLt _)

end Fmt

/-- An operand is the lesser but where the other is below it, −0 below +0. -/
theorem FV.minFirst_eq {x y : FV} (hx : x.isNan = false) (hy : y.isNan = false) :
    x.minFirst y = !(y.lt x || (y.eq x && y.neg && !x.neg)) := by
  have hasymm : (x.lt y && y.lt x) = false := by
    simpa [← Bool.not_eq_true, FV.lt_iff hx hy, FV.lt_iff hy hx] using le_of_lt
  unfold FV.minFirst FV.eq
  rw [hx, hy]
  generalize x.lt y = l at hasymm
  generalize y.lt x = r at hasymm
  generalize x.neg = n
  generalize y.neg = k
  revert l r n k
  decide

/-- Is a lane below another in the order of values with −0 below +0? -/
def belowBits (g : Fmt) {w : Nat} (a b : BitVec w) : Bool :=
  (g.decode a.toNat).lt (g.decode b.toNat) || ((g.decode a.toNat).eq (g.decode b.toNat) && a.msb && !b.msb)

section Picks

variable {g : Fmt} {w : Nat} (hw : g.width = w) (a b : BitVec w)
include hw

theorem fabs_bits : BitVec.ofNat w (if (g.decode a.toNat).isNan then g.nan else a.toNat % 2 ^ (g.eb + g.mb)) =
    if (g.decode a.toNat).isNan then BitVec.ofNat w g.nan else a &&& ~~~BitVec.twoPow w (w - 1) := by
  rw [apply_ite (BitVec.ofNat w), Fmt.mod_eq_clear hw, BitVec.ofNat_toNat, BitVec.setWidth_eq]

theorem fneg_bits : BitVec.ofNat w (if (g.decode a.toNat).isNan then g.nan
      else g.withSign (!natBit a.toNat (g.eb + g.mb)) (a.toNat % 2 ^ (g.eb + g.mb))) =
    if (g.decode a.toNat).isNan then BitVec.ofNat w g.nan else a ^^^ BitVec.twoPow w (w - 1) := by
  rw [apply_ite (BitVec.ofNat w), Fmt.withSign_not hw, BitVec.ofNat_toNat, BitVec.setWidth_eq]

theorem minFirst_bits (h : ((g.decode a.toNat).isNan || (g.decode b.toNat).isNan) = false) :
    (g.decode a.toNat).minFirst (g.decode b.toNat) = !belowBits g b a := by
  obtain ⟨ha, hb⟩ := Bool.or_eq_false_iff.1 h
  rw [FV.minFirst_eq ha hb, Fmt.neg_decode ha, Fmt.neg_decode hb, Fmt.natBit_toNat hw, Fmt.natBit_toNat hw, belowBits]

theorem floatMin_bits : BitVec.ofNat w (floatMin g a.toNat b.toNat) =
    if (g.decode a.toNat).isNan || (g.decode b.toNat).isNan then BitVec.ofNat w g.nan else if belowBits g b a then b else a := by
  unfold floatMin
  dsimp only
  split
  · rfl
  · rename_i h
    rw [minFirst_bits hw a b (by simpa using h)]
    cases belowBits g b a <;> simp

theorem floatMax_bits : BitVec.ofNat w (floatMax g a.toNat b.toNat) =
    if (g.decode a.toNat).isNan || (g.decode b.toNat).isNan then BitVec.ofNat w g.nan else if belowBits g b a then a else b := by
  unfold floatMax
  dsimp only
  split
  · rfl
  · rename_i h
    rw [minFirst_bits hw a b (by simpa using h)]
    cases belowBits g b a <;> simp

end Picks

/-- Settles O9: the sign bit is the last of the lane, and the order of values decides between two operands. -/
theorem floatPicks : Obligations.FloatPicks := by
  unfold Obligations.FloatPicks
  refine ⟨fun c f hfloat => ⟨?fabs, ?fneg⟩, fun c f hfloat => ⟨?fmin, ?fmax⟩⟩
  case fabs =>
    exact computes_pick (op := fun p => if ((fmtOf c.ty).decode p.a).isNan then (fmtOf c.ty).nan
      else p.a % 2 ^ ((fmtOf c.ty).eb + (fmtOf c.ty).mb)) hfloat (fun _ => rfl) fun _ hw a _ _ => fabs_bits hw a
  case fneg =>
    exact computes_pick (op := fun p => if ((fmtOf c.ty).decode p.a).isNan then (fmtOf c.ty).nan
      else (fmtOf c.ty).withSign (!natBit p.a ((fmtOf c.ty).eb + (fmtOf c.ty).mb)) (p.a % 2 ^ ((fmtOf c.ty).eb + (fmtOf c.ty).mb)))
      hfloat (fun _ => rfl) fun _ hw a _ _ => fneg_bits hw a
  case fmin =>
    exact computes_pick (op := fun p => floatMin (fmtOf c.ty) p.a p.b) hfloat (fun _ => rfl) fun _ hw a b _ => floatMin_bits hw a b
  case fmax =>
    exact computes_pick (op := fun p => floatMax (fmtOf c.ty) p.a p.b) hfloat (fun _ => rfl) fun _ hw a b _ => floatMax_bits hw a b

end Sys2Proof.Machine

namespace Sys2Proof.Machine

open Sys2Proof

/-! ## NaN operands (R53, R102) -/

theorem FV.eq_nan_of_isNan {x : FV} (h : x.isNan = true) : x = .nan := by
  match x with
  | .nan => rfl

theorem FV.add_nan (x : FV) (mode : Rnd) : x.add .nan mode = .nan := by cases x <;> rfl
theorem FV.mul_nan (x : FV) : x.mul .nan = .nan := by cases x <;> rfl
theorem FV.div_nan (x : FV) : x.div .nan = .nan := by cases x <;> rfl

/-- A NaN is neither rounded nor flushed. -/
theorem roundTo_nan (t : Ty) (nbv : Nat) (mode : Rnd) (sat : Bool) :
    roundTo nbv t mode sat .nan = (fmtOf t).nan := by
  have hnan : ¬ (fmtOf t).nan % 2 ^ ((fmtOf t).eb + (fmtOf t).mb) < 2 ^ (fmtOf t).mb := by
    cases t <;> decide
  unfold roundTo flush
  dsimp only [Fmt.round]
  rw [if_neg hnan, ite_self]

section Results

variable {i : Instr} {c : Common} {f : FormA} {b : Nat} {m : MSet} {s : State}

/-- The instruction delivers a value whose lanes are the canonical NaN wherever `bad` says, and changes nothing else. -/
def GivesNan (i : Instr) (c : Common) (b : Nat) (m : MSet) (s : State) (bad : Nat → Prop) : Prop :=
  ∃ (v : Val) (r : Nat → BitVec (c.ty.width c.w)), Holds c r v ∧ exec i s = .next (deliver c v b m s.taken) ∧
    ∀ j, bad j → r j = BitVec.ofNat (c.ty.width c.w) (fmtOf c.ty).nan

/-- A member that rounds a function of its operands' patterns. -/
theorem givesNan_of_rounded {x : Pats → FV} {z : Val} {bad : Nat → Prop}
    (hi : ∀ s, exec i s = fireVals c (fun b m s =>
      let v := resultVal c fun j => roundTo (nbvOf s b m.ctx) c.ty f.rnd f.sat (x (patsOf c f m j)); (v, v)) z z s)
    (h : Ready c b m s) (hx : ∀ j, bad j → x (patsOf c f m j) = .nan) : GivesNan i c b m s bad := by
  refine ⟨_, fun j => BitVec.ofNat _ (roundTo (nbvOf s.taken b m.ctx) c.ty f.rnd f.sat (x (patsOf c f m j))),
    holds_resultVal fun j => (BitVec.toNat_ofNat ..).symm, ?_, fun j hj => by
      dsimp only
      rw [hx j hj, roundTo_nan]⟩
  rw [hi, fireVals_ready h]
  rfl

theorem givesNan_of_flt {op : FV → FV → FV → FV} {bad : Nat → Prop}
    (hi : ∀ s, exec i s = fireFlt c f op s) (h : Ready c b m s)
    (hop : ∀ j, bad j → op (laneF c j m.a) (laneFB c f j m) (laneF c j m.c) = .nan) : GivesNan i c b m s bad := by
  refine givesNan_of_rounded (f := f) (x := fun p => op ((fmtOf c.ty).decode p.a) ((fmtOf c.ty).decode p.b) ((fmtOf c.ty).decode p.c)) hi h
    fun j hj => ?_
  simp only [patsOf, ← laneBits_toNat, ← laneB_toNat]
  exact hop j hj

theorem givesNan_of_computes {op : ∀ w : Nat, BitVec w → BitVec w → BitVec w → BitVec w} {bad : Nat → Prop}
    (hi : Computes i c f op) (h : Ready c b m s)
    (hop : ∀ j, bad j → op _ (laneBits c.w _ j m.a) (laneB c f _ j m) (laneBits c.w _ j m.c) =
      BitVec.ofNat (c.ty.width c.w) (fmtOf c.ty).nan) :
    GivesNan i c b m s bad := by
  obtain ⟨v, hv, hexec⟩ := hi b m s h
  exact ⟨v, _, hv, hexec, hop⟩

/-! Members of one, two and three operands: what a NaN among them gives, for whatever the others are. -/

theorem givesNan_of_unary {op : FV → FV} (hi : ∀ s, exec i s = fireFlt c f (fun a _ _ => op a) s)
    (ha : op .nan = .nan) (h : Ready c b m s) : GivesNan i c b m s fun j => (laneF c j m.a).isNan = true :=
  givesNan_of_flt hi h fun j hj => by rw [FV.eq_nan_of_isNan hj, ha]

theorem givesNan_of_binary {op : FV → FV → FV}
    (hi : ∀ s, exec i s = fireFlt c f (fun a b _ => op a b) s) (ha : ∀ y, op .nan y = .nan) (hb : ∀ x, op x .nan = .nan)
    (h : Ready c b m s) : GivesNan i c b m s fun j => (laneF c j m.a).isNan = true ∨ (laneFB c f j m).isNan = true :=
  givesNan_of_flt hi h fun j hj => by
    rcases hj with hj | hj <;> rw [FV.eq_nan_of_isNan hj]
    · exact ha _
    · exact hb _

theorem givesNan_of_ternary {op : FV → FV → FV → FV} (hi : ∀ s, exec i s = fireFlt c f op s)
    (ha : ∀ y z, op .nan y z = .nan) (hb : ∀ x z, op x .nan z = .nan) (hc : ∀ x y, op x y .nan = .nan) (h : Ready c b m s) :
    GivesNan i c b m s fun j =>
      (laneF c j m.a).isNan = true ∨ (laneFB c f j m).isNan = true ∨ (laneF c j m.c).isNan = true :=
  givesNan_of_flt hi h fun j hj => by
    rcases hj with hj | hj | hj <;> rw [FV.eq_nan_of_isNan hj]
    · exact ha ..
    · exact hb ..
    · exact hc ..

theorem givesNan_of_sign {op : ∀ w : Nat, BitVec w → BitVec w} (hi : Computes i c f fun w a _ _ =>
      if ((fmtOf c.ty).decode a.toNat).isNan then BitVec.ofNat w (fmtOf c.ty).nan else op w a) (h : Ready c b m s) :
    GivesNan i c b m s fun j => (laneF c j m.a).isNan = true :=
  givesNan_of_computes hi h fun _ hj => if_pos hj

theorem givesNan_of_select {op : ∀ w : Nat, BitVec w → BitVec w → BitVec w} (hi : Computes i c f fun w a b _ =>
      if ((fmtOf c.ty).decode a.toNat).isNan || ((fmtOf c.ty).decode b.toNat).isNan then BitVec.ofNat w (fmtOf c.ty).nan
      else op w a b) (h : Ready c b m s) :
    GivesNan i c b m s fun j => (laneF c j m.a).isNan = true ∨ (laneFB c f j m).isNan = true :=
  givesNan_of_computes hi h fun _ hj => if_pos (Bool.or_eq_true_iff.2 hj)

theorem fscal_givesNan (h : Ready c b m s) :
    GivesNan (.fscal c f) c b m s fun j => (laneF c j m.a).isNan = true := by
  refine givesNan_of_rounded (f := f) (x := fun p => ((fmtOf c.ty).decode p.a).scale (readInt true (scaleWidth c.ty) p.b))
    (fun _ => rfl) h fun j hj => ?_
  simp only [patsOf, ← laneBits_toNat]
  exact congrArg (FV.scale · _) (FV.eq_nan_of_isNan hj)

end Results

/-- Settles O8: the exact operations pass a NaN on, rounding makes it the canonical one, and the members that do not round give it
themselves. -/
theorem floatNaN : Obligations.FloatNaN := by
  unfold Obligations.FloatNaN
  intro c f hfloat nan two one three
  obtain ⟨habs, hneg⟩ := floatPicks.1 c f hfloat
  obtain ⟨hmin, hmax⟩ := floatPicks.2 c f hfloat
  refine ⟨?fadd, ?fsub, ?fmul, ?fdiv, fun _ _ _ => givesNan_of_select hmin, fun _ _ _ => givesNan_of_select hmax, ?fma, ?fnma,
    ?fsqrt, ?frsq, ?frcp, ?fexp2, ?flog2, ?frint, fun _ _ _ => fscal_givesNan, fun _ _ _ => givesNan_of_sign habs,
    fun _ _ _ => givesNan_of_sign hneg⟩ <;> intro b m s
  case fadd =>
    exact givesNan_of_binary (op := fun a b => a.add b f.rnd) (fun _ => rfl) (fun _ => rfl) fun _ => FV.add_nan ..
  case fsub =>
    exact givesNan_of_binary (op := fun a b => a.add b.flip f.rnd) (fun _ => rfl) (fun _ => rfl) fun _ => FV.add_nan ..
  case fmul => exact givesNan_of_binary (op := FV.mul) (fun _ => rfl) (fun _ => rfl) FV.mul_nan
  case fdiv => exact givesNan_of_binary (op := FV.div) (fun _ => rfl) (fun _ => rfl) FV.div_nan
  case fma =>
    exact givesNan_of_ternary (op := fun a b d => (a.mul b).add d f.rnd) (fun _ => rfl) (fun _ _ => rfl)
      (fun x _ => by rw [FV.mul_nan]; rfl) fun _ _ => FV.add_nan ..
  case fnma =>
    exact givesNan_of_ternary (op := fun a b d => (a.mul b).flip.add d f.rnd) (fun _ => rfl) (fun _ _ => rfl)
      (fun x _ => by rw [FV.mul_nan]; rfl) fun _ _ => FV.add_nan ..
  case fsqrt => exact givesNan_of_unary (op := FV.sqrt) (fun _ => rfl) rfl
  case frsq => exact givesNan_of_unary (op := FV.rsqrt) (fun _ => rfl) rfl
  case frcp => exact givesNan_of_unary (op := (FV.fin false 1 0).div) (fun _ => rfl) rfl
  case fexp2 => exact givesNan_of_unary (op := FV.exp2) (fun _ => rfl) rfl
  case flog2 => exact givesNan_of_unary (op := FV.log2) (fun _ => rfl) rfl
  case frint => exact givesNan_of_unary (op := (FV.rint · f.rnd)) (fun _ => rfl) rfl

end Sys2Proof.Machine

namespace Sys2Proof.Machine

open Sys2Proof

/-! ## Conversions (R58, R106) -/

/-- A conversion's value is a result per lane, as every member's. -/
theorem convVal_eq_resultVal {c : Common} (ht : c.ty ≠ .b1) (f : FormA) (conv : Nat → Nat) (m : MSet) :
    convVal c f conv m = resultVal c fun j =>
      if !c.w then conv (patAt false (f.srcTy.width c.w) 0 m.a)
      else if f.srcTy.width c.w ≤ c.ty.width c.w then
        conv (patAt true (f.srcTy.width c.w) (f.part * (1024 / c.ty.width c.w) + j) m.a)
      else if f.part * (1024 / f.srcTy.width c.w) ≤ j ∧ j < (f.part + 1) * (1024 / f.srcTy.width c.w) then
        conv (patAt true (f.srcTy.width c.w) (j - f.part * (1024 / f.srcTy.width c.w)) m.a)
      else 0 := by
  unfold convVal resultVal
  cases hw : c.w
  · simp [ht]
  · by_cases hle : f.srcTy.width true ≤ c.ty.width true <;> simp [hle]

/-- A conversion whose pattern is that of `bconv` on the bits converts as `bconv`. -/
theorem converts_of {i : Instr} {c : Common} {f : FormA} {conv : Nat → Nat → Nat} {z : Val}
    {bconv : Nat → ∀ ws wd : Nat, BitVec ws → BitVec wd} (ht : c.ty ≠ .b1)
    (hi : ∀ s, exec i s = fireVals c (fun b m s => let v := convVal c f (conv (nbvOf s b m.ctx)) m; (v, v)) z z s)
    (hconv : ∀ nbv (x : BitVec (f.srcTy.width c.w)),
      BitVec.ofNat (c.ty.width c.w) (conv nbv x.toNat) = bconv nbv (f.srcTy.width c.w) (c.ty.width c.w) x) :
    Converts i c f bconv := by
  intro b m s h
  refine ⟨convVal c f (conv (nbvOf s b m.ctx)) m, ?_, ?_⟩
  · rw [convVal_eq_resultVal ht]
    refine holds_resultVal fun j => ?_
    simp only [← laneBits_toNat, ← hconv, ← BitVec.toNat_ofNat]
    simp only [apply_ite (BitVec.ofNat _)]
    rfl
  · rw [hi, fireVals_ready h]
    rfl

/-! ## Codes fit their format -/

namespace Fmt

variable {g : Fmt}

theorem withSign_lt {neg : Bool} {c : Nat} (h : c < 2 ^ (g.eb + g.mb)) : g.withSign neg c < 2 ^ g.width := by
  have hwidth : 2 ^ g.width = 2 ^ (g.eb + g.mb) + 2 ^ (g.eb + g.mb) := by
    rw [← Nat.two_mul, ← Nat.pow_succ']
    unfold width
    congr 1
    omega
  unfold withSign
  split <;> omega

section Regular

variable (hg : g.Regular)
include hg

theorem nan_lt : g.nan < 2 ^ (g.eb + g.mb) := by
  cases hi : g.inf
  · have := hg.last hi; omega
  · exact (hg.above hi).2.2

/-- The code of an infinite or overflowing magnitude is a code without a sign. -/
theorem overflow_lt (neg : Bool) (mode : Rnd) (sat : Bool) : g.overflow neg mode sat < 2 ^ g.width := by
  refine withSign_lt ?_
  split
  · split
    · exact infCode_lt hg ‹_›
    · exact nan_lt hg
  · exact hg.top_lt

theorem place_lt (neg : Bool) (mode : Rnd) (sat : Bool) (c : Nat) : g.place neg mode sat c < 2 ^ g.width := by
  unfold place
  split
  · exact overflow_lt hg neg mode sat
  · exact withSign_lt (lt_of_le_of_lt (Nat.le_of_not_lt ‹_›) hg.top_lt)

theorem round_lt (x : FV) (mode : Rnd) (sat : Bool) : g.round x mode sat < 2 ^ g.width := by
  match x with
  | .nan => exact withSign_lt (neg := false) (nan_lt hg)
  | .inf neg =>
    by_cases hi : g.inf = true
    · rw [round_inf hi]
      exact withSign_lt (infCode_lt hg hi)
    · rw [round, if_neg hi]
      cases sat
      · exact withSign_lt (nan_lt hg)
      · exact withSign_lt hg.top_lt
  | .fin neg m e =>
    by_cases hm : m = 0
    · rw [round, if_pos hm]
      exact withSign_lt (Nat.two_pow_pos _)
    · obtain ⟨c, n, rem, half, -, -, -, hround⟩ := round_fin (g := g) hm e
      rw [hround]
      exact place_lt hg neg mode sat _

end Regular

end Fmt

theorem flush_lt {t : Ty} {p : Nat} (h : p < 2 ^ (fmtOf t).width) (nbv : Nat) : flush nbv t p < 2 ^ (fmtOf t).width := by
  unfold flush
  split
  · dsimp only
    split
    · exact Fmt.withSign_lt (Nat.two_pow_pos _)
    · exact h
  · exact h

theorem fcvtPat_lt (nbv : Nat) (src dst : Ty) (mode : Rnd) (sat : Bool) (p : Nat) :
    fcvtPat nbv src dst mode sat p < 2 ^ (fmtOf dst).width := by
  have hg := Fmt.regular_fmtOf dst
  unfold fcvtPat
  dsimp only
  split
  · rename_i heq
    split
    · exact Fmt.withSign_lt (neg := false) (Fmt.nan_lt hg)
    · exact heq ▸ Nat.mod_lt _ (Nat.two_pow_pos _)
  · exact flush_lt (Fmt.round_lt hg ..) nbv

/-! ## fpk (R107) -/

/-- A lane of a vector made of lanes, as bits. -/
theorem ofLanes_extract {w : Nat} {l : List Nat} {j p : Nat} (hl : w * l.length ≤ 1024) (h : l[j]? = some p) :
    (ofLanes w l).extractLsb' (w * j) w = BitVec.ofNat w p := by
  obtain ⟨hj, rfl⟩ := List.getElem?_eq_some_iff.1 h
  exact BitVec.eq_of_toNat_eq (by rw [ofLanes_lane hl hj, BitVec.toNat_ofNat])

theorem ofLanes_extract_above {w : Nat} {l : List Nat} {j : Nat} (h : l.length ≤ j) :
    (ofLanes w l).extractLsb' (w * j) w = 0 := by
  refine BitVec.eq_of_getLsbD_eq fun i hi => ?_
  have hi' : w * l.length ≤ w * j + i := le_trans (Nat.mul_le_mul_left w h) (Nat.le_add_right ..)
  simp [ofLanes_above hi']

/-- The pair of a scalar fpk: the pattern of B above that of A. -/
theorem word_pair {w p q : Nat} (hp : p < 2 ^ w) (hq : q < 2 ^ w) :
    word (q * 2 ^ w + p) = (BitVec.ofNat w q ++ BitVec.ofNat w p).setWidth 64 := by
  refine BitVec.eq_of_toNat_eq ?_
  rw [word, BitVec.toNat_ofNat, BitVec.toNat_setWidth, BitVec.toNat_append, BitVec.toNat_ofNat, BitVec.toNat_ofNat,
    Nat.mod_eq_of_lt hp, Nat.mod_eq_of_lt hq, ← Nat.shiftLeft_add_eq_or_of_lt hp, Nat.shiftLeft_eq]

section Pack

variable {c : Common} {f : FormA} {b : Nat} {m : MSet} {s : State}

/-- The lanes of C that stand before the results of a vector fpk, where AUX7 asks for them. -/
def packFront (c : Common) (f : FormA) (m : MSet) : List Nat :=
  if c.ty.width true = 8 ∧ f.aux7.getLsbD 0 then (List.range 64).map fun j => patAt true 8 j m.c else []

/-- The lanes of a vector fpk: those before, the results of A, the results of B. -/
def packLanes (c : Common) (f : FormA) (m : MSet) (cvt : Nat → Nat) : List Nat :=
  packFront c f m ++ ((List.range 32).map fun j => cvt (patAt true 32 j m.a)) ++ (List.range 32).map fun j => cvt (patAt true 32 j m.b)

theorem packFront_length : (packFront c f m).length = if c.ty.width true = 8 ∧ f.aux7.getLsbD 0 then 64 else 0 := by
  unfold packFront
  split <;> simp

theorem packLanes_a {cvt : Nat → Nat} {j : Nat} (hj : j < 32) :
    (packLanes c f m cvt)[(packFront c f m).length + j]? = some (cvt (patAt true 32 j m.a)) := by
  simp [packLanes, List.getElem?_append, hj]

theorem packLanes_b {cvt : Nat → Nat} {j : Nat} (hj : j < 32) :
    (packLanes c f m cvt)[(packFront c f m).length + 32 + j]? = some (cvt (patAt true 32 j m.b)) := by
  simp [packLanes, List.getElem?_append, hj, Nat.add_assoc]

theorem packLanes_length {cvt : Nat → Nat} : (packLanes c f m cvt).length = (packFront c f m).length + 64 := by
  simp [packLanes]

theorem packLanes_c {cvt : Nat → Nat} {k : Nat} (hk : k < 64) (hfront : c.ty.width true = 8 ∧ f.aux7.getLsbD 0) :
    (packLanes c f m cvt)[k]? = some (patAt true 8 k m.c) := by
  simp [packLanes, packFront, hfront, List.getElem?_append, hk]

theorem packLanes_fit {cvt : Nat → Nat} (hw : c.ty.width true = 8 ∨ c.ty.width true = 16) :
    c.ty.width true * (packLanes c f m cvt).length ≤ 1024 := by
  rw [packLanes_length, packFront_length]
  split <;> omega

/-- The 64 lanes of eight bits beside the results: those of C, or zeros. -/
theorem packLanes_beside {cvt : Nat → Nat} {k : Nat} (hk : k < 64) (h8 : c.ty.width true = 8) :
    (ofLanes 8 (packLanes c f m cvt)).extractLsb' (8 * (if f.aux7.getLsbD 0 then k else 64 + k)) 8 =
      if f.aux7.getLsbD 0 then laneBits true 8 k m.c else 0 := by
  cases haux : f.aux7.getLsbD 0
  · rw [if_neg Bool.false_ne_true, if_neg Bool.false_ne_true]
    exact ofLanes_extract_above (by rw [packLanes_length, packFront_length, haux]; simp)
  · rw [if_pos rfl, if_pos rfl, ofLanes_extract (h8 ▸ packLanes_fit (.inl h8)) (packLanes_c hk ⟨h8, haux⟩), ← laneBits_toNat,
      BitVec.ofNat_toNat, BitVec.setWidth_eq]

/-- What fpk delivers. -/
def packVal (c : Common) (f : FormA) (m : MSet) (cvt : Nat → Nat) : Val :=
  if c.w then .vec (ofLanes (c.ty.width true) (packLanes c f m cvt))
  else .sc (word (cvt (patAt false 32 0 m.b) * 2 ^ c.ty.width true + cvt (patAt false 32 0 m.a)))

/-- The two layouts of a vector fpk are one: with and without lanes before the results. -/
theorem packVec_eq (cvt : Nat → Nat) :
    (if c.ty.width true = 8 && f.aux7.getLsbD 0 then
      Val.vec (ofLanes 8 ((List.range 64).map (fun j => patAt true 8 j m.c) ++
        ((List.range 32).map fun j => cvt (patAt true 32 j m.a)) ++ (List.range 32).map fun j => cvt (patAt true 32 j m.b)))
    else .vec (ofLanes (c.ty.width true)
      (((List.range 32).map fun j => cvt (patAt true 32 j m.a)) ++ (List.range 32).map fun j => cvt (patAt true 32 j m.b)))) =
    .vec (ofLanes (c.ty.width true) (packLanes c f m cvt)) := by
  by_cases hfront : c.ty.width true = 8 ∧ f.aux7.getLsbD 0 = true
  · rw [if_pos (by simpa using hfront), packLanes, packFront, if_pos hfront, hfront.1]
  · rw [if_neg (by simpa using hfront), packLanes, packFront, if_neg hfront, List.nil_append]

theorem exec_fpk (h : Ready c b m s) : exec (.fpk c f) s = .next (deliver c
    (packVal c f m (fcvtPat (nbvOf s b m.ctx) .f32 c.ty f.rnd f.sat)) b m s.taken) := by
  change execFpk c f s = _
  rw [execFpk, fireVals_ready h, packVal, ← packVec_eq]
  cases c.w <;> rfl

end Pack

/-- Settles O13: the integer conversions are narrowings of what is read, the float ones deliver the model's pattern, and fpk's results
fit their halves of the lane layout. -/
theorem conversions : Obligations.Conversions := by
  unfold Obligations.Conversions
  intro c f ht
  refine ⟨?cvi, ?fcvt, ?fcvi, ?icvf, ?fpk⟩
  case cvi =>
    refine converts_of (conv := fun _ p => narrow c.ty.signed f.sat (c.ty.width c.w) (readInt f.srcTy.signed (f.srcTy.width c.w) p))
      ht (fun _ => rfl) fun _ x => ?_
    rw [readInt_signed_toNat _ (Ty.width_pos ..), narrow_eq, BitVec.ofNat_toNat, BitVec.setWidth_eq]
  case fcvt =>
    exact converts_of (conv := fun nbv => fcvtPat nbv f.srcTy c.ty f.rnd f.sat) ht (fun _ => rfl) fun _ _ => rfl
  case fcvi =>
    exact converts_of (conv := fun _ p => floatToInt c.ty f.rnd f.sat ((fmtOf f.srcTy).decode p)) ht (fun _ => rfl) fun _ _ => rfl
  case icvf =>
    refine converts_of (conv := fun nbv p => roundTo nbv c.ty f.rnd f.sat (ofInt (readInt f.srcTy.signed (f.srcTy.width c.w) p))) ht
      (fun _ => rfl) fun _ x => ?_
    rw [readInt_signed_toNat _ (Ty.width_pos ..)]
  case fpk =>
    intro b m s h hmem w cvt
    have hw : w = 8 ∨ w = 16 := by
      simp only [List.mem_cons, List.not_mem_nil, or_false] at hmem
      rcases hmem with ht | ht | ht | ht <;> simp [w, ht, Ty.width]
    have hwidth : (fmtOf c.ty).width = w := by
      simp only [List.mem_cons, List.not_mem_nil, or_false] at hmem
      rcases hmem with ht | ht | ht | ht <;> simp only [w, ht] <;> rfl
    refine ⟨_, exec_fpk h, fun hs => ?scalar, fun hv => ⟨_, by rw [packVal, if_pos hv], fun j hj => ?vector⟩⟩
    case scalar =>
      have hlt (p : Nat) := hwidth ▸ fcvtPat_lt (nbvOf s b m.ctx) .f32 c.ty f.rnd f.sat p
      rw [packVal, if_neg (by simp [hs]), word_pair (hlt _) (hlt _), ← laneBits_toNat, ← laneBits_toNat]
    case vector =>
      rw [← packFront_length (m := m)]
      refine ⟨?_, ?_, fun h8 k hk => ?_⟩
      · rw [ofLanes_extract (packLanes_fit hw) (packLanes_a hj), ← laneBits_toNat]
      · rw [ofLanes_extract (packLanes_fit hw) (packLanes_b hj), ← laneBits_toNat]
      · have h8' : c.ty.width true = 8 := h8
        rw [h8']
        exact packLanes_beside hk h8'

end Sys2Proof.Machine

/-!
Proofs of the statements about encodings: what slot words stand for (DecodeEncode, DecodeWords), where a value goes (Delivery), and the
place of a memory slot in wave order (MemoryFires).
-/
namespace Sys2Proof

open BitVec

/-! ## Codes and what they stand for (R56, R74, R75, R81 to R84) -/

theorem Pm.decode_code (x : Pm) : decodePm x.code = some x := by cases x <;> rfl
theorem Rnd.decode_code (x : Rnd) : decodeRnd x.code = x := by cases x <;> rfl
theorem MemOrd.decode_code (x : MemOrd) : decodeOrd x.code = x := by cases x <;> rfl
theorem Scope.decode_code (x : Scope) : decodeScope x.code = some x := by cases x <;> rfl
theorem TagOp.decode_code (x : TagOp) : decodeTop x.code = some x := by cases x <;> rfl
theorem Isl.decode_code (x : Isl) : decodeIsl x.code = some x := by cases x <;> rfl
theorem Ty.ofCode_code (x : Ty) : Ty.ofCode x.code = x := by cases x <;> rfl

theorem Ty.code_ofCode (v : BitVec 4) : (Ty.ofCode v).code = v := by
  revert v
  decide

theorem decodeRnd_code (v : BitVec 2) : (decodeRnd v).code = v := by
  revert v
  decide

theorem decodeOrd_code (v : BitVec 2) : (decodeOrd v).code = v := by
  revert v
  decide

theorem decodePm_code {v : BitVec 2} {x : Pm} (h : decodePm v = some x) : x.code = v := by
  revert v x
  decide

theorem decodeScope_code {v : BitVec 3} {x : Scope} (h : decodeScope v = some x) : x.code = v := by
  revert v x
  decide

theorem decodeTop_code {v : BitVec 3} {x : TagOp} (h : decodeTop v = some x) : x.code = v := by
  revert v x
  decide

/-! ## The bits of a form part (R79, R81, R83 to R85) -/

theorem ofBool_getLsbD {n : Nat} (v : BitVec n) (k : Nat) : ofBool (v.getLsbD k) = v.extractLsb' k 1 := by
  ext j hj
  simp [Nat.lt_one_iff.1 hj]

/-- The bits written for a form part are read as it: each field is first found by its place among the others, then read. -/
theorem Body.readFrom_bits (b : Body) : b.ReadFrom b.bits := by
  cases b with
  | a f =>
    unfold ReadFrom Body.bits decodeA
    simp (disch := decide) only [extractLsb'_append_eq_of_le, extractLsb'_append_eq_of_add_le, getLsbD_append]
    simp [extractLsb'_eq_self, Rnd.decode_code]
  | x f =>
    unfold ReadFrom Body.bits decodeX
    simp (disch := decide) only [extractLsb'_append_eq_of_le, extractLsb'_append_eq_of_add_le]
    simp [extractLsb'_eq_self, TagOp.decode_code]
  | m f =>
    unfold ReadFrom Body.bits decodeM
    simp (disch := decide) only [extractLsb'_append_eq_of_le, extractLsb'_append_eq_of_add_le, getLsbD_append]
    simp [extractLsb'_eq_self, MemOrd.decode_code, Scope.decode_code]
  | i f =>
    unfold ReadFrom Body.bits decodeI
    simp (disch := decide) only [extractLsb'_append_eq_of_le, extractLsb'_append_eq_of_add_le]
    simp [extractLsb'_eq_self, Isl.decode_code]
  | s f =>
    unfold ReadFrom Body.bits decodeS
    simp (disch := decide) only [extractLsb'_append_eq_of_le, extractLsb'_append_eq_of_add_le]
    simp [extractLsb'_eq_self]

/-- A form part that is read from bits is written as those bits. -/
theorem Body.bits_of_readFrom {b : Body} {v : BitVec 27} (h : b.ReadFrom v) : b.bits = v := by
  cases b with
  | a f =>
    obtain rfl := h
    simp (disch := decide) only [Body.bits, decodeA, ofBool_getLsbD, decodeRnd_code, extractLsb'_append_extractLsb'_eq_extractLsb']
    exact extractLsb'_eq_self
  | x f =>
    obtain ⟨top, htop, rfl⟩ := Option.map_eq_some_iff.1 h
    simp (disch := decide) only [Body.bits, decodeTop_code htop, extractLsb'_append_extractLsb'_eq_extractLsb']
    exact extractLsb'_eq_self
  | m f =>
    obtain ⟨scope, hscope, rfl⟩ := Option.map_eq_some_iff.1 h
    simp (disch := decide) only [Body.bits, ofBool_getLsbD, decodeOrd_code, decodeScope_code hscope,
      extractLsb'_append_extractLsb'_eq_extractLsb']
    exact extractLsb'_eq_self
  | i f =>
    obtain ⟨isl, hisl, rfl⟩ := Option.map_eq_some_iff.1 h
    simp (disch := decide) only [Body.bits, Machine.decodeIsl_code hisl, extractLsb'_append_extractLsb'_eq_extractLsb']
    exact extractLsb'_eq_self
  | s f =>
    obtain rfl := h
    simp (disch := decide) only [Body.bits, decodeS, extractLsb'_append_extractLsb'_eq_extractLsb']
    exact extractLsb'_eq_self

/-! ## The fields of a word (R73) -/

theorem wordOp_word (p : Parts) : wordOp p.word = p.op := by
  unfold wordOp Parts.word
  simp (disch := decide) only [extractLsb'_append_eq_of_le]
  exact extractLsb'_eq_self

theorem decodeCommon_word (p : Parts) : decodeCommon p.word = some p.c := by
  unfold decodeCommon Parts.word
  simp (disch := decide) only [extractLsb'_append_eq_of_le, extractLsb'_append_eq_of_add_le, getLsbD_append]
  simp [extractLsb'_eq_self, Pm.decode_code, Ty.ofCode_code]

theorem extractLsb'_word (p : Parts) : p.word.extractLsb' 0 27 = p.b.bits := by
  unfold Parts.word
  exact extractLsb'_append_eq_right

/-- A word is what its opcode, the common part read from it and the bits of its form part are written as. -/
theorem word_of_fields {w : Word} {c : Common} {b : Body} (hc : decodeCommon w = some c) (hb : b.bits = w.extractLsb' 0 27) :
    (Parts.mk (wordOp w) c b).word = w := by
  obtain ⟨pm, hpm, rfl⟩ := Option.map_eq_some_iff.1 hc
  simp (disch := decide) only [Parts.word, wordOp, decodePm_code hpm, ofBool_getLsbD, Ty.code_ofCode, hb,
    extractLsb'_append_extractLsb'_eq_extractLsb']
  exact extractLsb'_eq_self

/-! ## The member an opcode names (R90, R91) -/

theorem opA_lt {n : Nat} {k : Common → FormA → Instr} (h : opA n = some k) : n < 0x80 := by
  unfold opA at h
  split at h <;> cases h <;> decide

theorem opX_range {n : Nat} {k : Common → FormX → Instr} (h : opX n = some k) : 0x80 ≤ n ∧ n < 0x88 := by
  unfold opX at h
  split at h <;> cases h <;> decide

theorem opM_range {n : Nat} {k : Common → FormM → Instr} (h : opM n = some k) : 0x88 ≤ n ∧ n < 0xB0 := by
  unfold opM at h
  split at h <;> cases h <;> decide

theorem opI_range {n : Nat} {k : Common → FormI → Instr} (h : opI n = some k) : 0xB0 ≤ n ∧ n < 0xC8 := by
  unfold opI at h
  split at h <;> cases h <;> decide

theorem opS_ge {n : Nat} {k : Common → FormS → Instr} (h : opS n = some k) : 0xC8 ≤ n := by
  unfold opS at h
  split at h <;> cases h <;> decide

/-- The instruction that these parts name, by the table of their form (R79, R90). -/
def Parts.instr : Parts → Option Instr
  | ⟨op, c, .a f⟩ => (opA op.toNat).map fun k => k c f
  | ⟨op, c, .x f⟩ => (opX op.toNat).map fun k => k c f
  | ⟨op, c, .m f⟩ => (opM op.toNat).map fun k => k c f
  | ⟨op, c, .i f⟩ => (opI op.toNat).map fun k => k c f
  | ⟨op, c, .s f⟩ => (opS op.toNat).map fun k => k c f

/-- The tables name each slot instruction by its own opcode; a step of the machine has no parts. -/
theorem Instr.instr_of_parts {i : Instr} {p : Parts} (h : i.parts = some p) : p.instr = some i := by
  cases i <;> cases h <;> rfl

/-- The instruction that parts name is the one read from their opcode and the bits of their form part. -/
theorem decodeBody_of_instr {p : Parts} {i : Instr} {v : BitVec 27} (h : p.instr = some i) (hb : p.b.ReadFrom v) :
    decodeBody p.c p.op.toNat v = .ok i := by
  obtain ⟨op, c, b⟩ := p
  change decodeBody c op.toNat v = .ok i
  cases b with
  | a f =>
    obtain ⟨k, hk, rfl⟩ := Option.map_eq_some_iff.1 h
    have hhi := opA_lt hk
    obtain rfl := hb
    simp only [decodeBody, if_pos hhi, hk]
  | x f =>
    obtain ⟨k, hk, rfl⟩ := Option.map_eq_some_iff.1 h
    obtain ⟨hlo, hhi⟩ := opX_range hk
    have hf : decodeX v = some f := hb
    rw [decodeBody, if_neg (by omega), if_pos hhi]
    simp only [hk, hf]
  | m f =>
    obtain ⟨k, hk, rfl⟩ := Option.map_eq_some_iff.1 h
    obtain ⟨hlo, hhi⟩ := opM_range hk
    have hf : decodeM v = some f := hb
    rw [decodeBody, if_neg (by omega), if_neg (by omega), if_pos hhi]
    simp only [hk, hf]
  | i f =>
    obtain ⟨k, hk, rfl⟩ := Option.map_eq_some_iff.1 h
    obtain ⟨hlo, hhi⟩ := opI_range hk
    have hf : decodeI v = some f := hb
    rw [decodeBody, if_neg (by omega), if_neg (by omega), if_neg (by omega), if_pos hhi]
    simp only [hk, hf]
  | s f =>
    obtain ⟨k, hk, rfl⟩ := Option.map_eq_some_iff.1 h
    have hlo := opS_ge hk
    obtain rfl := hb
    rw [decodeBody, if_neg (by omega), if_neg (by omega), if_neg (by omega), if_neg (by omega)]
    simp only [hk]

theorem opAssigned_of_decodeBody {c : Common} {n : Nat} {v : BitVec 27} {i : Instr} (h : decodeBody c n v = .ok i) :
    opAssigned n = true := by
  unfold decodeBody at h
  unfold opAssigned
  repeat' split at h
  all_goals cases h
  all_goals simp [*]

/-! ## Words read and written -/

/-- What a word is read as: its common part and its body are read, and the loader accepts what they give. The empty slot and the
unassigned opcodes have no body. -/
theorem decodeWord_eq_ok_iff {w : Word} {i : Instr} :
    decodeWord w = .ok i ↔ ∃ c, decodeCommon w = some c ∧ decodeBody c (wordOp w).toNat (w.extractLsb' 0 27) = .ok i ∧ i.wf = true := by
  constructor
  · intro h
    unfold decodeWord at h
    repeat' split at h
    all_goals cases h
    rename_i c hc _ hbody hwf
    exact ⟨c, hc, hbody, hwf⟩
  · rintro ⟨c, hc, hbody, hwf⟩
    have hop := opAssigned_of_decodeBody hbody
    have hw : w ≠ 0 := by
      rintro rfl
      cases hop
    rw [decodeWord, if_neg hw]
    simp [hop, hc, hbody, hwf]

/-- The word of a well-formed instruction is read as that instruction. -/
theorem decodeWord_encode {i : Instr} {w : Word} (hwf : i.wf = true) (h : encode i = some w) : decodeWord w = .ok i := by
  obtain ⟨p, hp, rfl⟩ := Option.map_eq_some_iff.1 h
  refine decodeWord_eq_ok_iff.2 ⟨p.c, decodeCommon_word p, ?_, hwf⟩
  rw [wordOp_word, extractLsb'_word]
  exact decodeBody_of_instr (Instr.instr_of_parts hp) p.b.readFrom_bits

/-- What a word is read as is well formed, and is written as that word. -/
theorem encode_decodeWord {i : Instr} {w : Word} (h : decodeWord w = .ok i) : i.wf = true ∧ encode i = some w := by
  obtain ⟨c, hc, hbody, hwf⟩ := decodeWord_eq_ok_iff.1 h
  obtain ⟨b, hp, hb⟩ := decodeBody_parts hbody
  rw [ofNat_toNat, setWidth_eq] at hp
  exact ⟨hwf, by rw [encode, hp, Option.map_some, word_of_fields hc (Body.bits_of_readFrom hb)]⟩

/-- The eight bytes of a word stand for the word (R4). -/
theorem ofNat_leNat_leBytes (w : Word) : BitVec.ofNat 64 (leNat (leBytes 8 w.toNat)) = w := by
  rw [leNat_leBytes, show 256 ^ 8 = 2 ^ 64 from rfl, Nat.mod_eq_of_lt w.isLt, ofNat_toNat, setWidth_eq]

theorem decodeBytes_leBytes_append {w : Word} {i : Instr} (h : decodeWord w = .ok i) (bs : List Byte) :
    decodeBytes (leBytes 8 w.toNat ++ bs) = .ok (i, bs) := by
  have hlen := length_leBytes 8 w.toNat
  have htake : (leBytes 8 w.toNat ++ bs).take 8 = leBytes 8 w.toNat := List.take_left' hlen
  have hdrop : (leBytes 8 w.toNat ++ bs).drop 8 = bs := List.drop_left' hlen
  simp [decodeBytes, htake, hdrop, ofNat_leNat_leBytes, h]

theorem decodeTableWord_toNat {w : Word} {i : Instr} (h : decodeWord w = .ok i) : decodeTableWord 64 w.toNat = some i := by
  have hbytes := decodeBytes_leBytes_append h []
  rw [List.append_nil] at hbytes
  rw [decodeTableWord, show Nat.min 64 64 = 64 from rfl, Nat.mod_eq_of_lt w.isLt, hbytes]

/-- Settles O54: the fields of a word and the parts of an instruction are each read and written back, form by form. -/
theorem decodeEncode : Obligations.DecodeEncode := by
  unfold Obligations.DecodeEncode
  refine ⟨fun i w hwf he => ?_, fun i w h => encode_decodeWord h⟩
  have h := decodeWord_encode hwf he
  exact ⟨h, decodeBytes_leBytes_append h, decodeTableWord_toNat h⟩

/-- Settles O55: each word is closed, so reading it is an evaluation. -/
theorem decodeWords : Obligations.DecodeWords := by
  unfold Obligations.DecodeWords
  refine ⟨?_, ?_, ?_, ?_, ?_, ?_, ?_, ?_, ?_⟩ <;> decide

end Sys2Proof

namespace Sys2Proof.Machine

open Sys2Proof

/-! ## Where a delivered value goes (R76, R132) -/

section Targets

variable {s : State} {b : Nat} {m : MSet} {k : Token}

theorem sendTo_noTarget : sendTo s b m noTarget k = s := by
  rw [sendTo, State.sendTarget, if_pos rfl]

/-- A token is put under way to the element of the span, the slot and the port that its target names. -/
theorem sendTo_of_target {t : Target} {h : HitchCfg} (ht : t ≠ noTarget) (hh : s.hitch? b m.gate m.ctx (hnumOf s b m) = some h) :
    sendTo s b m t k = s.send (.tokenArrive
      { bay := b, el := h.spanEl (targetSe t), slot := targetSlot t, port := targetPort t
        ctx := m.ctx, gate := m.gate, ix := m.ix, src := m.el, tok := k }) := by
  rw [sendTo, State.sendTarget, if_neg ht, hh]

end Targets

/-- Settles O18: a value is sent to T0 and then to T1, and each target takes one token or none. -/
theorem delivery : Obligations.Delivery := by
  unfold Obligations.Delivery
  intro c v w b m s
  exact ⟨rfl, rfl, fun k h hh => ⟨sendTo_noTarget, fun t ht => sendTo_of_target ht hh⟩⟩

/-! ## A memory slot that takes its place in wave order (R81, R179, R184, R212) -/

theorem effAddr_eq (m : MSet) (off : Int) (size : Nat) :
    effAddr m off size = (valWord (valA m) + BitVec.ofInt 64 (off * size)).toNat := by
  rw [effAddr, wrapTo_ofInt, BitVec.ofInt_add, BitVec.ofInt_natCast, BitVec.ofNat_toNat, BitVec.setWidth_eq]

theorem effAddr_zero (m : MSet) : effAddr m 0 1 = (valWord (valA m)).toNat := by
  rw [effAddr_eq, Int.zero_mul, show BitVec.ofInt 64 0 = 0#64 from rfl, BitVec.add_zero]

/-- The scope and the machine that a memory slot goes on with: what the scope policy gives where it is asked (R212). -/
def ScopeGiven (asked : Bool) (f : FormM) (b : Nat) (m : MSet) (t : State) (scope : Nat) (u : State) : Prop :=
  if asked then scopeOf t b m (Scope.code f.scope) = .ok (scope, u) else u = t ∧ scope = Scope.code f.scope

/-- The access at address `a` passes the check of site `x` (R179); at a ZSKIP site only a store has one (R170, R178). -/
def AccessPasses (u : State) (b : Nat) (m : MSet) (k : Nat) (x : Site) (cx : CtxRt) (a n : Nat) (vector store : Bool) : Prop :=
  if x.isZskip = true then store = true → zskipGuard (u.bay b) m.ctx k x (valVec (m.b.getD noTok).val) = none
  else accessCheck (u.bay b) cx m.ctx k x a n vector store = none

section WaveFire

variable {c : Common} {f : FormM} {b : Nat} {m : MSet} {s u : State} {scope op : Nat} {kind : OpKind} {asked : Bool} {off : Int}
  {n0 n1 : Val}

theorem ScopeGiven.scopeOf_eq {t : State} (h : ScopeGiven asked f b m t scope u) :
    (if asked then scopeOf t b m (Scope.code f.scope) else .ok (Scope.code f.scope, t)) = .ok (scope, u) := by
  cases asked with
  | false =>
    obtain ⟨rfl, rfl⟩ := h
    rfl
  | true => exact h

/-- An access whose order is plain does not ask the scope policy. -/
theorem scopeGiven_of_ord {t : State} (h : if f.ord = .plain then u = t ∧ scope = Scope.code f.scope
      else scopeOf t b m (Scope.code f.scope) = .ok (scope, u)) : ScopeGiven (f.ord != .plain) f b m t scope u := by
  by_cases hord : f.ord = .plain
  · simpa [ScopeGiven, hord] using h
  · simpa [ScopeGiven, hord] using h

variable (h : Ready c b m s) (hscope : ScopeGiven asked f b m s.taken scope u)

include h hscope

/-- An operation that names no site is not checked when it fires. -/
theorem fireOp_unnamed {chk : Option (Nat × Bool × Bool)} {size : Nat} (hsize : (chk.map (·.1)).getD 1 = size) :
    fireOp c f kind op asked false off chk n0 n1 s = .next (waveFire c f m b kind op (effAddr m off size) scope u) := by
  rw [fireOp, fireSlot_ready h, hscope.scopeOf_eq, ← hsize, waveFire]
  cases chk <;> simp only [Bool.false_eq_true, if_false, Option.any_none]

/-- An operation on a whole site, whose entry is sound. -/
theorem fireOp_sound {x : Site} (hx : u.site? b (siteOf u b m.ctx f) = some x) (hpoison : x.poison = false) :
    fireOp c f kind op asked true 0 none n0 n1 s = .next (waveFire c f m b kind op (valWord (valA m)).toNat scope u) := by
  rw [fireOp, fireSlot_ready h, hscope.scopeOf_eq, ← effAddr_zero]
  simp only [hx, if_true, Option.any_some, hpoison, Bool.false_eq_true, if_false, Option.map_none, Option.getD_none, waveFire]

/-- An access whose site is sound, and which passes its check. -/
theorem fireOp_checked {n : Nat} {vector store : Bool} {x : Site} {cx : CtxRt} (hx : u.site? b (siteOf u b m.ctx f) = some x)
    (hpoison : x.poison = false) (hcx : u.ctx? b m.ctx = some cx)
    (hpass : AccessPasses u b m (siteOf u b m.ctx f) x cx (effAddr m off n) n vector store) :
    fireOp c f kind op asked true off (some (n, vector, store)) n0 n1 s =
      .next (waveFire c f m b kind op (effAddr m off n) scope u) := by
  rw [fireOp, fireSlot_ready h, hscope.scopeOf_eq]
  unfold AccessPasses at hpass
  simp only [hx, if_true, Option.any_some, hpoison, hcx, Bool.false_eq_true, if_false, Option.map_some, Option.getD_some, waveFire]
  cases hz : x.isZskip with
  | false =>
    rw [hz, if_neg Bool.false_ne_true] at hpass
    simp only [Bool.not_false, if_true, hpass]
  | true =>
    rw [hz, if_pos rfl] at hpass
    cases store with
    | false => simp only [Bool.not_true, Bool.false_eq_true, if_false]
    | true => simp only [Bool.not_true, Bool.false_eq_true, if_false, if_true, hpass rfl, Option.map_none]

end WaveFire

/-- Settles O25: each member is an operation of the wave that is not checked, or whose site is sound, or whose access passes. -/
theorem memoryFires : Obligations.MemoryFires := by
  unfold Obligations.MemoryFires
  intro c f b m s scope u h k ea any policy plain sound checked n n1 a a1 a5 acq rel
  have ha : a = effAddr m (off8 f) n := (effAddr_eq ..).symm
  have ha1 : a1 = effAddr m (off8 f) n1 := (effAddr_eq ..).symm
  have ha5 : a5 = effAddr m (off5 f) n1 := (effAddr_eq ..).symm
  have haccess {store : Bool} (hp : plain f.ord policy) (hc : checked a n c.w store) (kind : OpKind) (op : Nat) :
      fireAccess c f kind op store s = .next (waveFire c f m b kind op a scope u) := by
    obtain ⟨x, cx, hx, hpoison, hcx, hpass⟩ := hc
    rw [ha] at hpass ⊢
    exact fireOp_checked h (scopeGiven_of_ord hp) hx hpoison hcx hpass
  have hatomic (hp : policy) (hc : checked a5 n1 false false) (op : Nat) :
      fireAtomic c f op s = .next (waveFire c f m b .atomic op a5 scope u) := by
    obtain ⟨x, cx, hx, hpoison, hcx, hpass⟩ := hc
    rw [ha5] at hpass ⊢
    exact fireOp_checked (asked := true) h hp hx hpoison hcx hpass
  refine ⟨fun hp hc => ?loads, fun hp hc => ?stores, fun hp hc => ?atomics, fun hp => ?groups, fun hp => ?fence, ?site, ?sinv⟩
  case loads => exact ⟨haccess hp hc .load _, haccess hp hc .load _, haccess hp hc .ldo _⟩
  case stores => exact ⟨haccess hp hc (.store false) _, haccess hp hc (.store false) _, haccess hp hc (.store true) _⟩
  case atomics =>
    have hfire := hatomic hp hc
    exact ⟨hfire _, hfire _, hfire _, hfire _, hfire _, hfire _, hfire _, hfire _, hfire _, hfire _, hfire _⟩
  case groups =>
    rw [ha1]
    have hscope := scopeGiven_of_ord hp
    exact ⟨fireOp_unnamed (chk := some (n1, c.w, false)) h hscope rfl, fireOp_unnamed (chk := some (n1, c.w, true)) h hscope rfl⟩
  case fence =>
    rw [← effAddr_zero]
    exact fireOp_unnamed (asked := true) (chk := none) (off := 0) h hp rfl
  case site =>
    rintro hp ⟨x, hx, hpoison⟩
    have hkind : firesStoreSite f s = (s.site? b (siteOf s b m.ctx f)).any (·.isStore) := by rw [firesStoreSite, h.here]
    rw [← hkind]
    exact ⟨fireOp_sound (asked := true) h hp hx hpoison, fireOp_sound (asked := true) h hp hx hpoison⟩
  case sinv =>
    rintro hp ⟨x, hx, hpoison⟩
    exact fireOp_sound (asked := false) h hp hx hpoison

end Sys2Proof.Machine

/-!
Proofs of the statements about arithmetic: the integer members whose results are bits (IntegerBits), that select or divide
(IntegerSelects, DivisionTable) and that compare (IntegerCompares), the rounded float members (FloatRounds), fclass (FloatClass) and
the lane family (LaneMoves, LaneMasks).
-/
namespace Sys2Proof.Machine

open Sys2Proof

/-! ## Members whose result is a pattern (R98, R100) -/

section Members

variable {i : Instr} {c : Common} {f : FormA}

/-- A member whose result is already the pattern of `bop`. -/
theorem computes_toNat {op : Pats → Nat} {bop : ∀ w : Nat, BitVec w → BitVec w → BitVec w → BitVec w}
    (hi : ∀ s, exec i s = fireBits c f op s)
    (hop : ∀ w, 0 < w → ∀ a b d : BitVec w, op ⟨w, a.toNat, b.toNat, d.toNat⟩ = (bop w a b d).toNat) : Computes i c f bop :=
  computes_bits hi fun w hw a b d _ => by rw [hop w hw, Nat.mod_eq_of_lt (BitVec.isLt _)]

/-- The patterns of lane j are those of its bits. -/
theorem patsOf_eq (m : MSet) (j : Nat) : patsOf c f m j = ⟨c.ty.width c.w, (laneBits c.w (c.ty.width c.w) j m.a).toNat,
    (laneB c f (c.ty.width c.w) j m).toNat, (laneBits c.w (c.ty.width c.w) j m.c).toNat⟩ := by
  simp only [patsOf, laneBits_toNat, laneB_toNat]

/-- A member that delivers a result per lane, which it may take from the set and the state. -/
theorem delivers_resultVal {op : Nat → MSet → State → Nat → Nat} {z : Val} {b : Nat} {m : MSet} {s : State}
    {r : Nat → BitVec (c.ty.width c.w)}
    (hi : ∀ s, exec i s = fireVals c (fun b m s => let v := resultVal c (op b m s); (v, v)) z z s) (h : Ready c b m s)
    (hop : ∀ j, BitVec.ofNat _ (op b m s.taken j) = r j) :
    ∃ v, Holds c r v ∧ exec i s = .next (deliver c v b m s.taken) := by
  refine ⟨resultVal c (op b m s.taken), holds_resultVal fun j => ?_, ?_⟩
  · rw [← hop, BitVec.toNat_ofNat]
  · rw [hi, fireVals_ready h]
    rfl

end Members

/-! ## Shifts, rotation, counts, reversal -/

section Bits

variable {w : Nat}

theorem wrapTo_fdiv_two_pow (hw : 0 < w) (a : BitVec w) (k : Nat) :
    wrapTo w (Int.fdiv (readInt true w a.toNat) (2 ^ k : Nat)) = (a.sshiftRight k).toNat := by
  rw [readInt_toNat true hw, if_pos rfl, wrapTo_ofInt, BitVec.sshiftRight_eq, Int.shiftRight_eq_div_pow,
    Int.fdiv_eq_ediv_of_nonneg _ (Int.natCast_nonneg _)]

/-- The bits that leave a rotation at the top come in below: the two parts do not overlap. -/
theorem rotateLeft_toNat (hw : 0 < w) (a : BitVec w) (n : Nat) :
    (a.toNat * 2 ^ (n % w) + a.toNat / 2 ^ (w - n % w)) % 2 ^ w = (a.rotateLeft n).toNat := by
  have hs : n % w < w := Nat.mod_lt _ hw
  rw [BitVec.toNat_rotateLeft]
  generalize n % w = k at hs
  have hpow : 2 ^ w = 2 ^ (w - k) * 2 ^ k := by rw [← Nat.pow_add]; congr 1; omega
  have hlow : a.toNat / 2 ^ (w - k) < 2 ^ k :=
    (Nat.div_lt_iff_lt_mul (Nat.two_pow_pos _)).2 (by rw [Nat.mul_comm, ← hpow]; exact a.isLt)
  have hhigh : a.toNat * 2 ^ k % 2 ^ w = (a.toNat % 2 ^ (w - k)) <<< k := by
    rw [hpow, Nat.mul_mod_mul_right, Nat.shiftLeft_eq]
  have hfit : (a.toNat % 2 ^ (w - k)) <<< k + a.toNat / 2 ^ (w - k) < 2 ^ w := by
    have hrest : (a.toNat % 2 ^ (w - k) + 1) * 2 ^ k ≤ 2 ^ (w - k) * 2 ^ k :=
      Nat.mul_le_mul_right _ (Nat.mod_lt _ (Nat.two_pow_pos _))
    rw [Nat.shiftLeft_eq, hpow]
    linarith
  rw [Nat.add_mod, hhigh, Nat.mod_eq_of_lt (hlow.trans_le (Nat.pow_le_pow_right two_pos hs.le)), Nat.mod_eq_of_lt hfit,
    Nat.shiftLeft_add_eq_or_of_lt hlow, Nat.shiftLeft_eq a.toNat, hhigh, Nat.shiftRight_eq_div_pow]

theorem clzPat_toNat (hw : 0 < w) (a : BitVec w) : clzPat w a.toNat = a.clz.toNat := by
  unfold clzPat
  split
  case isTrue h =>
    have hclz : a.clz = BitVec.ofNat w w := BitVec.clz_eq_iff_eq_zero.2 (BitVec.eq_of_toNat_eq h)
    rw [hclz, BitVec.toNat_ofNat, Nat.mod_eq_of_lt Nat.lt_two_pow_self]
  case isFalse h =>
    have hne : a ≠ 0#w := fun h0 => h (by rw [h0]; rfl)
    have hclz : a.clz.toNat < w := by
      have := BitVec.clz_lt_iff_ne_zero.2 hne
      rwa [BitVec.lt_def, BitVec.natCast_eq_ofNat, BitVec.toNat_ofNat, Nat.mod_eq_of_lt Nat.lt_two_pow_self] at this
    have hlog : Nat.log2 a.toNat = w - 1 - a.clz.toNat := by
      refine (Nat.log2_eq_iff h).2 ⟨BitVec.two_pow_sub_clz_le_toNat_of_ne_zero hw hne, ?_⟩
      rw [show w - 1 - a.clz.toNat + 1 = w - a.clz.toNat by omega]
      exact BitVec.toNat_lt_two_pow_sub_clz
    omega

theorem ctzPat_toNat (a : BitVec w) : ctzPat w a.toNat = a.ctz.toNat := by
  unfold ctzPat
  by_cases h : a = 0#w
  · have hnone : (List.range w).find? (fun i => natBit a.toNat i) = none := by simp [h, natBit]
    have hctz : a.ctz = BitVec.ofNat w w := by
      rw [BitVec.ctz_eq_reverse_clz]
      refine BitVec.clz_eq_iff_eq_zero.2 (BitVec.eq_of_getLsbD_eq fun i _ => ?_)
      rw [BitVec.getLsbD_reverse, h, BitVec.getMsbD_zero, BitVec.getLsbD_zero]
    rw [hnone, Option.getD_none, hctz, BitVec.toNat_ofNat, Nat.mod_eq_of_lt Nat.lt_two_pow_self]
  · have hbit := BitVec.getLsbD_true_ctz_of_ne_zero h
    have hsome : (List.range w).find? (fun i => natBit a.toNat i) = some a.ctz.toNat := by
      rw [List.find?_range_eq_some]
      refine ⟨hbit, List.mem_range.2 (BitVec.lt_of_getLsbD hbit), fun j hj => ?_⟩
      rw [natBit, BitVec.testBit_toNat, BitVec.getLsbD_false_of_lt_ctz hj]
      rfl
    rw [hsome, Option.getD_some]

theorem popPat_toNat (a : BitVec w) : popPat w a.toNat = a.cpop.toNat := by
  have hcount (n : Nat) : ((List.range n).filter fun i => natBit a.toNat i).length = a.cpopNatRec n 0 := by
    induction n with
    | zero => rfl
    | succ n ih =>
      rw [List.range_succ, List.filter_append, List.length_append, ih, BitVec.cpopNatRec_succ, BitVec.cpopNatRec_eq (0 + _)]
      cases hbit : a.getLsbD n <;> simp [natBit, BitVec.testBit_toNat, hbit]
  rw [popPat, hcount, BitVec.toNat_cpop]

theorem testBit_ofBits (l : List Bool) (i : Nat) : (ofBits l).testBit i = l.getD i false := by
  induction l generalizing i with
  | nil => simp [ofBits]
  | cons b l ih =>
    have hcons : ofBits (b :: l) = Nat.bit b (ofBits l) := by rw [Nat.bit_val]; rfl
    rw [hcons]
    cases i with
    | zero => simp
    | succ i => rw [Nat.testBit_bit_succ, ih]; rfl

theorem revPat_toNat (a : BitVec w) : revPat w a.toNat = a.reverse.toNat := by
  refine Nat.eq_of_testBit_eq fun i => ?_
  rw [revPat, testBit_ofBits, BitVec.testBit_toNat, BitVec.getLsbD_reverse, BitVec.getMsbD]
  by_cases hi : i < w
  · simp [hi, natBit, BitVec.testBit_toNat]
  · simp [hi]

end Bits

/-- Settles O3: each member's pattern is that of the operation on bits. -/
theorem integerBits : Obligations.IntegerBits := by
  unfold Obligations.IntegerBits
  intro c f
  refine ⟨computes_toNat (op := fun p => p.a &&& p.b) (fun _ => rfl) fun w _ a b _ => (BitVec.toNat_and ..).symm,
    computes_toNat (op := fun p => p.a ||| p.b) (fun _ => rfl) fun w _ a b _ => (BitVec.toNat_or ..).symm,
    computes_toNat (op := fun p => p.a ^^^ p.b) (fun _ => rfl) fun w _ a b _ => (BitVec.toNat_xor ..).symm,
    computes_toNat (op := fun p => p.a &&& (2 ^ p.w - 1 - p.b)) (fun _ => rfl) fun w _ a b _ => by
      rw [BitVec.toNat_and, BitVec.toNat_not],
    computes_toNat (op := fun p => 2 ^ p.w - 1 - p.a) (fun _ => rfl) fun w _ a _ _ => BitVec.toNat_not.symm,
    computes_toNat (op := fun p => p.a / 2 ^ p.sh) (fun _ => rfl) fun w _ a b _ => by
      rw [BitVec.toNat_ushiftRight, Nat.shiftRight_eq_div_pow]
      rfl,
    computes_toNat (op := fun p => wrapTo p.w (Int.fdiv (readInt true p.w p.a) (2 ^ p.sh : Nat))) (fun _ => rfl)
      fun w hw a _ _ => wrapTo_fdiv_two_pow hw a _,
    computes_toNat (op := fun p => (p.a * 2 ^ p.sh + p.a / 2 ^ (p.w - p.sh)) % 2 ^ p.w) (fun _ => rfl)
      fun w hw a b _ => rotateLeft_toNat hw a b.toNat,
    computes_toNat (op := fun p => clzPat p.w p.a) (fun _ => rfl) fun w hw a _ _ => clzPat_toNat hw a,
    computes_toNat (op := fun p => ctzPat p.w p.a) (fun _ => rfl) fun w _ a _ _ => ctzPat_toNat a,
    computes_toNat (op := fun p => popPat p.w p.a) (fun _ => rfl) fun w _ a _ _ => popPat_toNat a,
    computes_toNat (op := fun p => revPat p.w p.a) (fun _ => rfl) fun w _ a _ _ => revPat_toNat a⟩

end Sys2Proof.Machine

namespace Sys2Proof.Machine

open Sys2Proof

/-! ## Selections, high products, fields (R100) -/

/-- What is read of a pattern lies in its low bits. -/
theorem readInt_mod (sg : Bool) (w p : Nat) : readInt sg w (p % 2 ^ w) = readInt sg w p := by
  simp only [readInt, Nat.mod_mod]

/-- Reading in either way tells zero from the others. -/
theorem readBits_eq_zero (t : Ty) {w : Nat} {a : BitVec w} : readBits t a = 0 ↔ a = 0 := by
  refine ⟨fun h => ?_, fun h => by simp [h, readBits]⟩
  rw [← ofInt_readBits t a, h]
  exact BitVec.ofInt_natCast w 0

section Fields

variable {w : Nat} (l k : Nat)

/-- A field of a lane, extended as its type asks. -/
theorem field_extended (t : Ty) (hk : 0 < k) (a : BitVec w) :
    wrapTo w (readInt t.signed k (a.toNat / 2 ^ l)) =
      (if t.signed then (a.extractLsb' l k).signExtend w else (a.extractLsb' l k).setWidth w).toNat := by
  have hfield : readInt t.signed k (a.toNat / 2 ^ l) = readBits t (a.extractLsb' l k) := by
    rw [← readInt_signed_toNat t hk, BitVec.extractLsb'_toNat, readInt_mod, Nat.shiftRight_eq_div_pow]
  rw [hfield, wrapTo_ofInt, readBits]
  split
  · rfl
  · rw [BitVec.ofInt_natCast, BitVec.ofNat_toNat]

/-- The ones of a field, at its place. -/
def fieldMask (w l k : Nat) : BitVec w := BitVec.ofNat w (2 ^ k - 1) <<< l

theorem getLsbD_fieldMask (i : Nat) : (fieldMask w l k).getLsbD i = (decide (i < w) && decide (l ≤ i) && decide (i < l + k)) := by
  rw [fieldMask, BitVec.getLsbD_shiftLeft, BitVec.getLsbD_ofNat, Nat.testBit_two_pow_sub_one]
  rcases Nat.lt_or_ge i l with hl | hl
  · simp [hl, hl.not_ge]
  · by_cases hi : i < w
    · simp [hi, hl, hl.not_gt, show i - l < w by omega, Nat.sub_lt_iff_lt_add' hl]
    · simp [hi]

/-- A field put into a lane: the bits below and above it stay. -/
theorem field_inserted (hfit : l + k ≤ w) (a b : BitVec w) :
    a.toNat % 2 ^ l + b.toNat % 2 ^ k * 2 ^ l + a.toNat / 2 ^ (l + k) * 2 ^ (l + k) =
      ((a &&& ~~~fieldMask w l k) ||| ((b <<< l) &&& fieldMask w l k)).toNat := by
  have hbelow : a.toNat % 2 ^ l < 2 ^ l := Nat.mod_lt _ (Nat.two_pow_pos _)
  have hfield : b.toNat % 2 ^ k < 2 ^ k := Nat.mod_lt _ (Nat.two_pow_pos _)
  have hsplit : a.toNat % 2 ^ l + b.toNat % 2 ^ k * 2 ^ l + a.toNat / 2 ^ (l + k) * 2 ^ (l + k) =
      2 ^ l * (2 ^ k * (a.toNat / 2 ^ (l + k)) + b.toNat % 2 ^ k) + a.toNat % 2 ^ l := by rw [Nat.pow_add]; ring
  refine Nat.eq_of_testBit_eq fun i => ?_
  rw [hsplit, Nat.testBit_two_pow_mul_add _ hbelow, Nat.testBit_two_pow_mul_add _ hfield]
  simp only [Nat.testBit_mod_two_pow, Nat.testBit_div_two_pow, BitVec.testBit_toNat, BitVec.getLsbD_or, BitVec.getLsbD_and,
    BitVec.getLsbD_not, BitVec.getLsbD_shiftLeft, getLsbD_fieldMask]
  rcases Nat.lt_or_ge i l with h1 | h1
  · simp [h1, show i < w by omega, show ¬ l ≤ i by omega]
  rcases Nat.lt_or_ge i (l + k) with h2 | h2
  · simp [h1, h2, show i < w by omega, show i - l < k by omega, show ¬ i < l by omega]
  · rw [if_neg (by omega), if_neg (by omega), show i - l - k + (l + k) = i by omega]
    simpa [show ¬ i < l + k by omega] using BitVec.lt_of_getLsbD

end Fields

/-- Settles O4: each selection picks the pattern that the read values name, and the fields are placed bit by bit. -/
theorem integerSelects : Obligations.IntegerSelects := by
  unfold Obligations.IntegerSelects
  intro c f
  refine ⟨?min, ?max, ?mulh, fun hk hfit => ⟨?bfx, ?bfi⟩, fun b m s h => ?sel⟩
  case min =>
    refine computes_toNat (op := fun p => if p.ib c < p.ia c then p.b else p.a) (fun _ => rfl) fun w hw a b _ => ?_
    rw [apply_ite BitVec.toNat, Pats.ia, Pats.ib, readInt_signed_toNat _ hw, readInt_signed_toNat _ hw]
  case max =>
    refine computes_toNat (op := fun p => if p.ia c < p.ib c then p.b else p.a) (fun _ => rfl) fun w hw a b _ => ?_
    rw [apply_ite BitVec.toNat, Pats.ia, Pats.ib, readInt_signed_toNat _ hw, readInt_signed_toNat _ hw]
  case mulh =>
    refine computes_toNat (op := fun p => wrapTo p.w (Int.fdiv (p.ia c * p.ib c) (2 ^ p.w : Nat))) (fun _ => rfl)
      fun w hw a b _ => ?_
    rw [wrapTo_ofInt, Pats.ia, Pats.ib, readInt_signed_toNat _ hw, readInt_signed_toNat _ hw,
      Int.fdiv_eq_ediv_of_nonneg _ (Int.natCast_nonneg _), Nat.cast_pow]
    rfl
  case bfx =>
    exact computes_toNat (op := fun p => wrapTo p.w (readInt c.ty.signed (fieldLen f) (p.a / 2 ^ fieldLow f))) (fun _ => rfl)
      fun w _ a _ _ => field_extended _ _ c.ty hk a
  case bfi =>
    refine computes_bits (op := fun p => p.a % 2 ^ fieldLow f + p.b % 2 ^ fieldLen f * 2 ^ fieldLow f +
      p.a / 2 ^ (fieldLow f + fieldLen f) * 2 ^ (fieldLow f + fieldLen f)) (fun _ => rfl) fun w _ a b _ hw => ?_
    rw [field_inserted _ _ (hw ▸ hfit), Nat.mod_eq_of_lt (BitVec.isLt _)]
    rfl
  case sel =>
    refine delivers_resultVal (op := fun _ m _ j =>
      if patAt c.w 1 j m.c = 1 then (patsOf c f m j).a else (patsOf c f m j).b) (fun _ => rfl) h fun j => ?_
    simp only [patsOf_eq, ← laneBits_toNat, apply_ite (BitVec.ofNat _), BitVec.ofNat_toNat, BitVec.setWidth_eq, BitVec.toNat_eq]
    rfl

/-! ## Division (R101) -/

section Divide

variable (t : Ty) {w : Nat} (a b : BitVec w)

theorem divPat_toNat : divPat w (readBits t a) (readBits t b) =
    (if b = 0 then BitVec.allOnes w else BitVec.ofInt w ((readBits t a).tdiv (readBits t b))).toNat := by
  rw [divPat, apply_ite BitVec.toNat, BitVec.toNat_allOnes, wrapTo_ofInt]
  simp only [readBits_eq_zero]

theorem remPat_toNat : remPat w (readBits t a) (readBits t b) =
    (if b = 0 then a else BitVec.ofInt w (readBits t a - readBits t b * (readBits t a).tdiv (readBits t b))).toNat := by
  rw [remPat, apply_ite BitVec.toNat, wrapTo_ofInt, wrapTo_ofInt, ofInt_readBits]
  simp only [readBits_eq_zero]

end Divide

/-- Settles O5: a divisor is zero exactly where the value read is. -/
theorem divisionTable : Obligations.DivisionTable := by
  unfold Obligations.DivisionTable
  intro c f
  refine ⟨computes_toNat (op := fun p => divPat p.w (p.ia c) (p.ib c)) (fun _ => rfl) fun w hw a b _ => ?_,
    computes_toNat (op := fun p => remPat p.w (p.ia c) (p.ib c)) (fun _ => rfl) fun w hw a b _ => ?_⟩
  · rw [Pats.ia, Pats.ib, readInt_signed_toNat _ hw, readInt_signed_toNat _ hw, divPat_toNat]
  · rw [Pats.ia, Pats.ib, readInt_signed_toNat _ hw, readInt_signed_toNat _ hw, remPat_toNat]

/-! ## Integer comparisons (R50, R100) -/

/-- What a lane reads as, the empty lane too. -/
theorem readInt_eq_readBits (t : Ty) {w : Nat} (a : BitVec w) : readInt t.signed w a.toNat = readBits t a := by
  rcases Nat.eq_zero_or_pos w with rfl | hw
  · rw [BitVec.eq_nil a]
    simp [readInt, readBits]
  · exact readInt_signed_toNat t hw a

theorem toNat_beq {w : Nat} (a b : BitVec w) : (a.toNat == b.toNat) = (a == b) :=
  Bool.eq_iff_iff.2 (by rw [beq_iff_eq, beq_iff_eq, BitVec.toNat_inj])

/-- Settles O6: patterns are equal where the lanes are, and the order is that of the values read. -/
theorem integerCompares : Obligations.IntegerCompares := by
  unfold Obligations.IntegerCompares
  intro c f
  refine ⟨compares_bits (op := fun p => p.a == p.b) (fun _ => rfl) fun w a b _ => ?ceq,
    compares_bits (op := fun p => p.a != p.b) (fun _ => rfl) fun w a b _ => ?cne,
    compares_bits (op := fun p => decide (p.ia c < p.ib c)) (fun _ => rfl) fun w a b _ => ?clt,
    compares_bits (op := fun p => decide (p.ia c ≤ p.ib c)) (fun _ => rfl) fun w a b _ => ?cle⟩
  case ceq => exact toNat_beq a b
  case cne => exact congrArg not (toNat_beq a b)
  case clt => rw [Pats.ia, Pats.ib, readInt_eq_readBits, readInt_eq_readBits]
  case cle => rw [Pats.ia, Pats.ib, readInt_eq_readBits, readInt_eq_readBits]

end Sys2Proof.Machine

namespace Sys2Proof.Machine

open Sys2Proof

/-! ## Rounded members (R102, R103) -/

/-- A rounded member delivers its operation on the lanes' values, rounded. -/
theorem rounds_of {i : Instr} {c : Common} {f : FormA} {op : FV → FV → FV → FV} (hi : ∀ s, exec i s = fireFlt c f op s) :
    Rounds i c f op := by
  intro b m s h
  refine delivers_resultVal (op := fun b m s j => roundTo (nbvOf s b m.ctx) c.ty f.rnd f.sat
    (op ((fmtOf c.ty).decode (patsOf c f m j).a) ((fmtOf c.ty).decode (patsOf c f m j).b)
      ((fmtOf c.ty).decode (patsOf c f m j).c))) hi h fun j => ?_
  simp only [patsOf_eq]
  rfl

/-- Settles O7: every rounded member is the shared rounding slot with its own operation; fscal reads its exponent from port B. -/
theorem floatRounds : Obligations.FloatRounds := by
  unfold Obligations.FloatRounds
  intro c f
  refine ⟨rounds_of fun _ => rfl, rounds_of fun _ => rfl, rounds_of fun _ => rfl, rounds_of fun _ => rfl, rounds_of fun _ => rfl,
    rounds_of fun _ => rfl, rounds_of fun _ => rfl, rounds_of fun _ => rfl, rounds_of fun _ => rfl, rounds_of fun _ => rfl,
    rounds_of fun _ => rfl, rounds_of fun _ => rfl, fun b m s h => ?fscal⟩
  case fscal =>
    refine delivers_resultVal (op := fun b m s j => roundTo (nbvOf s b m.ctx) c.ty f.rnd f.sat
      (((fmtOf c.ty).decode (patsOf c f m j).a).scale (readInt true (scaleWidth c.ty) (patsOf c f m j).b))) (fun _ => rfl) h
      fun j => ?_
    simp only [patsOf_eq]
    rfl

/-! ## Classes (R105) -/

namespace Fmt

variable {g : Fmt}

/-- The bit of R105 for the class of a code with this sign, exponent field and fraction, in a format with an infinity. -/
def classBit (g : Fmt) (neg : Bool) (e frac : Nat) : Nat :=
  if e = 2 ^ g.eb - 1 then (if frac ≠ 0 then 8 else if neg then 0 else 7)
  else if e = 0 then (if frac = 0 then (if neg then 3 else 4) else if neg then 2 else 5)
  else if neg then 1 else 6

theorem fclass_eq (hi : g.inf = true) (p : Nat) :
    fclass g p = 2 ^ g.classBit (natBit p (g.eb + g.mb)) (p / 2 ^ g.mb % 2 ^ g.eb) (p % 2 ^ g.mb) := by
  have hexp : p % 2 ^ (g.eb + g.mb) / 2 ^ g.mb = p / 2 ^ g.mb % 2 ^ g.eb := by
    rw [Nat.add_comm, Nat.pow_add, Nat.mod_mul_right_div_self]
  have hfrac : p % 2 ^ (g.eb + g.mb) % 2 ^ g.mb = p % 2 ^ g.mb := Nat.mod_mod_of_dvd _ (pow_dvd_pow 2 (by omega))
  have hlt : p % 2 ^ g.mb < 2 ^ g.mb := Nat.mod_lt _ (Nat.two_pow_pos _)
  rw [fclass, decode_eq_ofParts, ofParts, mant, hexp, hfrac, hi, classBit]
  generalize natBit p (g.eb + g.mb) = neg
  generalize p / 2 ^ g.mb % 2 ^ g.eb = e
  generalize p % 2 ^ g.mb = frac at hlt
  by_cases htop : e = 2 ^ g.eb - 1
  · by_cases hf : frac = 0 <;> cases neg <;> simp [htop, hf]
  by_cases hzero : e = 0
  · subst hzero
    by_cases hf : frac = 0 <;> cases neg <;> simp [htop, hf, hlt]
  · cases neg <;> simp [htop, hzero]

end Fmt

/-- Settles O12: the class follows the sign, the exponent field and the fraction of the code. -/
theorem floatClass : Obligations.FloatClass := by
  unfold Obligations.FloatClass
  intro c f hfloat
  have hinf : (fmtOf c.ty).inf = true := by
    revert hfloat
    cases c.ty <;> decide
  refine computes_pick (op := fun p => fclass (fmtOf c.ty) p.a) hfloat (fun _ => rfl) fun w hw a _ _ => ?_
  rw [Fmt.fclass_eq hinf, Fmt.natBit_toNat hw, ← Nat.shiftRight_eq_div_pow, ← BitVec.toNat_ushiftRight]
  rfl

end Sys2Proof.Machine

namespace Sys2Proof.Machine

open Sys2Proof

/-! ## Lanes placed (R108) -/

section Place

variable {w : Nat}

/-- Lane j of a vector made of a result per lane. -/
theorem ofLanes_map_extract (op : Nat → Nat) {n j : Nat} (hfit : w * n ≤ 1024) (hj : j < n) :
    (ofLanes w ((List.range n).map op)).extractLsb' (w * j) w = BitVec.ofNat w (op j) :=
  ofLanes_extract (by simpa using hfit) (by simp [hj])

/-- An operand's lane, from its pattern back to its bits. -/
theorem ofNat_patAt (v : Bool) (w j : Nat) (k : Option Token) : BitVec.ofNat w (patAt v w j k) = laneBits v w j k := by
  rw [← laneBits_toNat, BitVec.ofNat_toNat, BitVec.setWidth_eq]

theorem toNat_mod_two {n : Nat} (x : BitVec n) : x.toNat % 2 = if x.getLsbD 0 then 1 else 0 := by
  rw [← BitVec.testBit_toNat, Nat.testBit_zero]
  rcases Nat.mod_two_eq_zero_or_one x.toNat with h | h <;> rw [h] <;> rfl

end Place

section Gives

variable {i : Instr} {c : Common} {b : Nat} {m : MSet} {s : State}

/-- A lane instruction that delivers a vector with a result per lane. -/
theorem gives_of_lanes {op : Nat → MSet → Nat → Nat} {r : Nat → BitVec (c.ty.width true)}
    (hi : ∀ s, exec i s = fireVec c (fun w m => ofLanes w ((List.range (1024 / w)).map (op w m))) s) (h : Ready c b m s)
    (hop : ∀ j, BitVec.ofNat _ (op (c.ty.width true) m j) = r j) :
    ∃ u : Vec, (∀ j < 1024 / c.ty.width true, u.extractLsb' (c.ty.width true * j) (c.ty.width true) = r j) ∧
      exec i s = .next (deliver c (.vec u) b m s.taken) := by
  refine ⟨ofLanes (c.ty.width true) ((List.range (1024 / c.ty.width true)).map (op (c.ty.width true) m)), fun j hj => ?_, ?_⟩
  · rw [ofLanes_map_extract _ (Ty.width_lanes ..).le hj, hop]
  · rw [hi, fireVec, fireLane, fireVals_ready h]
    rfl

/-- A lane of its own: a control bit for b1, else a scalar extended as its type asks (R48, R131). -/
theorem extendedLane_eq (t : Ty) (j : Nat) (k : Option Token) :
    (if t = .b1 then Val.ct (BitVec.ofNat 1 (patAt true (t.width true) j k))
      else .sc (extendRes t (t.width true) (patAt true (t.width true) j k))) =
    if t = .b1 then .ct (laneBits true 1 j k)
    else .sc (if t.signed then (laneBits true (t.width true) j k).signExtend 64
      else (laneBits true (t.width true) j k).setWidth 64) := by
  split
  case isTrue ht => rw [ht, ← ofNat_patAt]; rfl
  case isFalse => rw [← laneBits_toNat, extendRes_toNat (Ty.width_pos ..) (Ty.width_le ..)]

end Gives

/-- Settles O15: every lane delivered is the operand's lane that the table names. -/
theorem laneMoves : Obligations.LaneMoves := by
  unfold Obligations.LaneMoves
  intro c f _ w n gives a b
  refine ⟨?lperm, ?lbcast, ?lins, ?lrot, ?lzip, ?lunzip, ?lext⟩ <;> intro b m s h
  case lperm =>
    exact gives_of_lanes (op := fun w m j => patAt true w (patAt true w j m.b % (1024 / w)) m.a) (fun _ => rfl) h fun j => by
      rw [ofNat_patAt, ← laneBits_toNat]
  case lbcast =>
    exact gives_of_lanes (op := fun w m _ => patAt false w 0 m.a) (fun _ => rfl) h fun j => ofNat_patAt ..
  case lins =>
    exact gives_of_lanes (op := fun w m j => if j = f.imm16.toNat then patAt false w 0 m.b else patAt true w j m.a)
      (fun _ => rfl) h fun j => by rw [apply_ite (BitVec.ofNat _), ofNat_patAt, ofNat_patAt]
  case lrot =>
    exact gives_of_lanes (op := fun w m j => patAt true w
      ((j + if f.im then f.imm16.toNat % (1024 / w) else patAt false 32 0 m.b % (1024 / w)) % (1024 / w)) m.a)
      (fun _ => rfl) h fun j => by
        rw [ofNat_patAt, ← apply_ite (· % (1024 / c.ty.width true)), Nat.add_mod_mod, ← laneBits_toNat]
  case lzip =>
    exact gives_of_lanes (op := fun w m j => if j % 2 = 0 then patAt true w (j / 2 + f.aux7.toNat % 2 * (1024 / w / 2)) m.a
      else patAt true w (j / 2 + f.aux7.toNat % 2 * (1024 / w / 2)) m.b) (fun _ => rfl) h fun j => by
        rw [apply_ite (BitVec.ofNat _), ofNat_patAt, ofNat_patAt, toNat_mod_two, ite_mul, one_mul, zero_mul]
  case lunzip =>
    exact gives_of_lanes (op := fun w m j => if j < 1024 / w / 2 then patAt true w (2 * j + f.aux7.toNat % 2) m.a
      else patAt true w (2 * (j - 1024 / w / 2) + f.aux7.toNat % 2) m.b) (fun _ => rfl) h fun j => by
        rw [apply_ite (BitVec.ofNat _), ofNat_patAt, ofNat_patAt, toNat_mod_two]
  case lext =>
    change execLext c f s = _
    rw [execLext, fireLane, fireVals_ready h, ← extendedLane_eq]
    rfl

end Sys2Proof.Machine

namespace Sys2Proof.Machine

open Sys2Proof

/-! ## Marked lanes (R110) -/

section Marks

variable {c : Common} {f : FormA} {b : Nat} {m : MSet} {s : State}

theorem maskLanes_eq (c : Common) (m : MSet) : maskLanes (c.ty.width true) m = markedLanes c m := by
  refine List.filter_congr fun j _ => ?_
  rw [← laneBits_toNat]
  exact toNat_beq _ 1#1

theorem markedLanes_length : (markedLanes c m).length ≤ 1024 / c.ty.width true :=
  (List.length_filter_le ..).trans_eq List.length_range

theorem markedLanes_nodup : (markedLanes c m).Nodup := List.nodup_range.filter _

theorem lt_of_mem_markedLanes {j : Nat} (h : j ∈ markedLanes c m) : j < 1024 / c.ty.width true :=
  List.mem_range.1 (List.mem_of_mem_filter h)

/-- Without repetitions an element's place is its index. -/
theorem placeOf_getElem {l : List Nat} (hl : l.Nodup) {k : Nat} (h : k < l.length) (n : Nat) :
    placeOf (· == l[k]) l n = some (n + k) := by
  induction l generalizing k n with
  | nil => simp at h
  | cons x l ih =>
    obtain ⟨hx, hl⟩ := List.nodup_cons.1 hl
    cases k with
    | zero => simp [placeOf]
    | succ k =>
      have hk : k < l.length := by simpa using h
      have hne : (x == l[k]) = false := beq_eq_false_iff_ne.2 fun he => hx (he ▸ List.getElem_mem hk)
      rw [List.getElem_cons_succ, placeOf, hne, if_neg Bool.false_ne_true, ih hl hk]
      congr 1
      omega

/-- The lanes that lcmpr delivers. -/
def packedLanes (c : Common) (m : MSet) : Vec :=
  ofLanes (c.ty.width true) ((markedLanes c m).map fun j => patAt true (c.ty.width true) j m.a)

theorem exec_lcmpr (h : Ready c b m s) : exec (.lcmpr c f) s =
    .next (deliver2 c (.vec (packedLanes c m)) (.sc (word (markedLanes c m).length)) b m s.taken) := by
  change execLcmpr c f s = _
  rw [execLcmpr, fireLane, fireVals_ready h, packedLanes, ← maskLanes_eq]

theorem packedLanes_extract (k : Nat) : (packedLanes c m).extractLsb' (c.ty.width true * k) (c.ty.width true) =
    if h : k < (markedLanes c m).length then laneBits true (c.ty.width true) (markedLanes c m)[k] m.a else 0 := by
  have hfit : c.ty.width true * ((markedLanes c m).map fun j => patAt true (c.ty.width true) j m.a).length ≤ 1024 := by
    rw [List.length_map]
    exact (Nat.mul_le_mul_left _ markedLanes_length).trans_eq (Ty.width_lanes ..)
  split
  case isTrue h => rw [packedLanes, ofLanes_extract hfit (List.getElem?_eq_getElem (by simpa using h)), List.getElem_map, ofNat_patAt]
  case isFalse h => exact ofLanes_extract_above (by simpa using h)

/-- What lexpd puts in lane j: the lane of A whose number is the place of j among the marks. -/
def expandedLane (c : Common) (m : MSet) (j : Nat) : Nat :=
  match placeOf (· == j) (markedLanes c m) 0 with
  | some k => patAt true (c.ty.width true) k m.a
  | none => 0

def expandedLanes (c : Common) (m : MSet) : Vec :=
  ofLanes (c.ty.width true) ((List.range (1024 / c.ty.width true)).map (expandedLane c m))

theorem exec_lexpd (h : Ready c b m s) : exec (.lexpd c f) s =
    .next (deliver2 c (.vec (expandedLanes c m)) (.sc (word (markedLanes c m).length)) b m s.taken) := by
  change execLexpd c f s = _
  rw [execLexpd, fireLane, fireVals_ready h, maskLanes_eq]
  rfl

theorem expandedLanes_extract {j : Nat} (hj : j < 1024 / c.ty.width true) :
    (expandedLanes c m).extractLsb' (c.ty.width true * j) (c.ty.width true) = BitVec.ofNat _ (expandedLane c m j) :=
  ofLanes_map_extract _ (Ty.width_lanes ..).le hj

theorem expandedLanes_extract_marked {k : Nat} (hk : k < (markedLanes c m).length) :
    (expandedLanes c m).extractLsb' (c.ty.width true * (markedLanes c m)[k]) (c.ty.width true) =
      laneBits true (c.ty.width true) k m.a := by
  rw [expandedLanes_extract (lt_of_mem_markedLanes (List.getElem_mem hk)), expandedLane, placeOf_getElem markedLanes_nodup hk,
    Nat.zero_add, ofNat_patAt]

theorem expandedLanes_extract_unmarked {j : Nat} (hj : j < 1024 / c.ty.width true) (hmark : j ∉ markedLanes c m) :
    (expandedLanes c m).extractLsb' (c.ty.width true * j) (c.ty.width true) = 0 := by
  have hnone : placeOf (· == j) (markedLanes c m) 0 = none :=
    placeOf_eq_none.2 fun e he => beq_eq_false_iff_ne.2 fun heq => hmark (heq ▸ he)
  rw [expandedLanes_extract hj, expandedLane, hnone]
  rfl

end Marks

/-! ## Bytes of words and vectors (R4, R63) -/

section Bytes

theorem leNat_eq_foldr (l : List Byte) :
    leNat l = (l.map BitVec.toNat).foldr (fun x n => n * 2 ^ 8 + x % 2 ^ 8) 0 := by
  induction l with
  | nil => rfl
  | cons x l ih =>
    rw [leNat, ih, List.map_cons, List.foldr_cons, Nat.mod_eq_of_lt x.isLt]
    omega

/-- Byte j of a number made of bytes. -/
theorem ofNat_leNat_extract {w : Nat} {l : List Byte} {j : Nat} {x : Byte} (hfit : 8 * l.length ≤ w) (h : l[j]? = some x) :
    (BitVec.ofNat w (leNat l)).extractLsb' (8 * j) 8 = x := by
  obtain ⟨hj, rfl⟩ := List.getElem?_eq_some_iff.1 h
  have hlt : leNat l < 2 ^ w := by
    rw [leNat_eq_foldr]
    exact (foldr_lanes_lt 8 _).trans_le (Nat.pow_le_pow_right two_pos (by simpa using hfit))
  refine BitVec.eq_of_toNat_eq ?_
  rw [BitVec.extractLsb'_toNat, BitVec.toNat_ofNat, Nat.mod_eq_of_lt hlt, Nat.shiftRight_eq_div_pow, leNat_eq_foldr,
    foldr_lanes_get 8 _ j (by simpa using hj), List.getElem_map, Nat.mod_eq_of_lt (BitVec.isLt _)]

/-- Byte j of a number's bytes. -/
theorem getElem?_leBytes {n j : Nat} (h : j < n) (v : Nat) : (leBytes n v)[j]? = some (BitVec.ofNat 8 (v >>> (8 * j))) := by
  induction n generalizing j v with
  | zero => cases h
  | succ n ih =>
    cases j with
    | zero => rfl
    | succ j =>
      rw [leBytes, List.getElem?_cons_succ, ih (by omega), Nat.mul_succ, Nat.add_comm, Nat.shiftRight_add,
        Nat.shiftRight_eq_div_pow v]

/-- A part of a byte, counted from the start of the whole. -/
theorem extractLsb'_of_byte {w : Nat} (x : BitVec w) (k : Nat) {i n : Nat} (h : i + n ≤ 8) :
    x.extractLsb' (8 * k + i) n = (x.extractLsb' (8 * k) 8).extractLsb' i n := by
  refine BitVec.eq_of_getLsbD_eq fun j hj => ?_
  rw [BitVec.getLsbD_extractLsb', BitVec.getLsbD_extractLsb', BitVec.getLsbD_extractLsb', Nat.add_assoc]
  simp [show i + j < 8 by omega]

end Bytes

/-! ## Runs put into a list -/

section Runs

variable {α : Type} {l r : List α}

theorem putRun_length {k : Nat} (h : k + r.length ≤ l.length) : (putRun l k r).length = l.length := by
  simp only [putRun, List.length_append, List.length_take, List.length_drop]
  omega

theorem getElem?_putRun {k : Nat} (h : k + r.length ≤ l.length) (i : Nat) :
    (putRun l k r)[i]? = if k ≤ i ∧ i < k + r.length then r[i - k]? else l[i]? := by
  have htake : (l.take k).length = k := List.length_take_of_le (by omega)
  rw [putRun, List.append_assoc, List.getElem?_append, htake]
  rcases Nat.lt_or_ge i k with h1 | h1
  · rw [if_pos h1, List.getElem?_take_of_lt h1, if_neg (by omega)]
  · rw [if_neg (by omega), List.getElem?_append]
    rcases Nat.lt_or_ge i (k + r.length) with h2 | h2
    · rw [if_pos (by omega), if_pos ⟨h1, h2⟩]
    · rw [if_neg (by omega), if_neg (by omega), List.getElem?_drop]
      congr 1
      omega

/-- A list with the runs of `n` blocks of length `len` put at the block numbers from `k0` on. -/
def putBlocks (l : List α) (len k0 : Nat) (run : Nat → List α) (n : Nat) : List α :=
  (List.range n).foldl (fun l k => putRun l (len * (k0 + k)) (run k)) l

variable {len k0 : Nat} {run : Nat → List α} (hrun : ∀ k, (run k).length = len)
include hrun

theorem putBlocks_spec {n : Nat} (hfit : len * (k0 + n) ≤ l.length) :
    (putBlocks l len k0 run n).length = l.length ∧ ∀ j, ∀ i < len,
      (putBlocks l len k0 run n)[len * j + i]? = if k0 ≤ j ∧ j < k0 + n then (run (j - k0))[i]? else l[len * j + i]? := by
  induction n with
  | zero => exact ⟨rfl, fun j i _ => by rw [if_neg (by omega)]; rfl⟩
  | succ n ih =>
    have hnext : len * (k0 + n) + len ≤ l.length := hfit
    obtain ⟨hlen, hget⟩ := ih (by omega)
    have hput : putBlocks l len k0 run (n + 1) = putRun (putBlocks l len k0 run n) (len * (k0 + n)) (run n) := by
      simp [putBlocks, List.range_succ]
    have hroom : len * (k0 + n) + (run n).length ≤ (putBlocks l len k0 run n).length := by rw [hrun, hlen]; exact hnext
    refine ⟨by rw [hput, putRun_length hroom, hlen], fun j i hi => ?_⟩
    rw [hput, getElem?_putRun hroom, hrun]
    rcases Nat.lt_trichotomy j (k0 + n) with hj | rfl | hj
    · have : len * j + len ≤ len * (k0 + n) := Nat.mul_le_mul_left len hj
      rw [if_neg (by omega), hget j i hi]
      simp [hj, show j < k0 + (n + 1) by omega]
    · rw [if_pos (by omega), if_pos (by omega)]
      congr 2 <;> omega
    · have : len * (k0 + n) + len ≤ len * j := Nat.mul_le_mul_left len hj
      rw [if_neg (by omega), hget j i hi, if_neg (by omega), if_neg (by omega)]

end Runs

end Sys2Proof.Machine

namespace Sys2Proof.Machine

open Sys2Proof

/-! ## Codes of q4 (R61, R62) -/

section Codes

variable {nbv ty : Nat}

theorem q4Codes_lt : ∀ c ∈ q4Codes nbv ty, c < 16 := by
  unfold q4Codes
  split <;> decide

theorem q4Pick_cases (mode : Rnd) (t lo hi : Int) (cl ch : Nat) :
    q4Pick mode t lo hi cl ch = cl ∨ q4Pick mode t lo hi cl ch = ch := by
  unfold q4Pick
  split
  · exact .inl rfl
  · cases mode <;> simp only [true_or, or_true] <;> split_ifs <;> simp

/-- A scan answers one of the codes it scans. -/
theorem q4Scan_mem (mode : Rnd) (t u : Int) (c : Nat) (l : List Nat) : q4Scan nbv ty mode t u (c :: l) ∈ c :: l := by
  induction l generalizing c with
  | nil => exact List.mem_singleton.2 rfl
  | cons d l ih =>
    unfold q4Scan
    split
    · exact List.mem_cons_self
    · split
      · rcases q4Pick_cases mode t (q4Decode nbv ty c * u) (q4Decode nbv ty d * u) c d with h | h <;> simp [h]
      · exact List.mem_cons_of_mem c (ih d)

theorem q4Encode_lt (mode : Rnd) (x : FV) : q4Encode nbv ty mode x < 16 := by
  obtain ⟨c, l, hl⟩ : ∃ c l, q4Codes nbv ty = c :: l := by
    unfold q4Codes
    split <;> exact ⟨_, _, rfl⟩
  have hlt : ∀ d ∈ c :: l, d < 16 := hl ▸ q4Codes_lt
  have hends (neg : Bool) : (if neg then (q4Codes nbv ty).headD 0 else (q4Codes nbv ty).getLastD 0) < 16 := by
    rw [hl]
    cases neg
    · exact hlt _ (List.getLast_mem _)
    · exact hlt c List.mem_cons_self
  match x with
  | .nan => exact Nat.zero_lt_succ 15
  | .inf n => exact hends n
  | .fin n m e =>
    rw [q4Encode]
    split
    · exact hends n
    · rw [hl]
      exact hlt _ (q4Scan_mem ..)

theorem q4Block_getD_lt (mode : Rnd) (xs : List FV) (i : Nat) : (q4Block nbv ty mode xs).1.getD i 0 < 16 := by
  rcases Nat.lt_or_ge i (q4Block nbv ty mode xs).1.length with h | h
  · rw [List.getD_eq_getElem _ _ h]
    simp only [q4Block, List.getElem_map]
    exact q4Encode_lt ..
  · rw [List.getD_eq_default _ _ h]
    exact Nat.zero_lt_succ 15

theorem codeBytes_length (cs : List Nat) : (codeBytes cs).length = 16 := by simp [codeBytes]

/-- Two codes in one byte. -/
theorem nibbles_of_pair {lo : Nat} (hi : Nat) (hlo : lo < 16) :
    (BitVec.ofNat 8 (lo + 16 * hi)).extractLsb' 0 4 = BitVec.ofNat 4 lo ∧
      (BitVec.ofNat 8 (lo + 16 * hi)).extractLsb' 4 4 = BitVec.ofNat 4 hi := by
  refine ⟨BitVec.eq_of_toNat_eq ?_, BitVec.eq_of_toNat_eq ?_⟩
  all_goals
    rw [BitVec.extractLsb'_toNat, BitVec.toNat_ofNat, BitVec.toNat_ofNat, Nat.shiftRight_eq_div_pow]
    omega

/-- Code i of a block is a half of byte i / 2 (R59). -/
theorem codeBytes_nibble {cs : List Nat} (hcs : ∀ i, cs.getD i 0 < 16) {i : Nat} (hi : i < 32) :
    ∃ x, (codeBytes cs)[i / 2]? = some x ∧ x.extractLsb' (4 * (i % 2)) 4 = BitVec.ofNat 4 (cs.getD i 0) := by
  obtain ⟨hlow, hhigh⟩ := nibbles_of_pair (cs.getD (2 * (i / 2) + 1) 0) (hcs (2 * (i / 2)))
  refine ⟨BitVec.ofNat 8 (cs.getD (2 * (i / 2)) 0 + 16 * cs.getD (2 * (i / 2) + 1) 0), ?_, ?_⟩
  · simp [codeBytes, show i / 2 < 16 by omega]
  · rcases Nat.mod_two_eq_zero_or_one i with h | h
    · rw [h, hlow, show 2 * (i / 2) = i by omega]
    · rw [h, hhigh, show 2 * (i / 2) + 1 = i by omega]

end Codes

/-! ## lq4 (R111) -/

section Lq4

variable {c : Common} {f : FormA} {b : Nat} {m : MSet} {s : State}

/-- Block k of an lq4 slot: its codes and its scale byte. -/
def lq4Block (c : Common) (f : FormA) (nbv : Nat) (m : MSet) (k : Nat) : List Nat × Nat :=
  q4Block nbv (bits f.aux7 0 2) f.rnd
    ((List.range 32).map fun i => (fmtOf c.ty).decode (patAt true (c.ty.width true) (32 * k + i) m.a))

/-- The bytes beside the blocks: those of ports B and C under MRG, else zeros. -/
def lq4CodesBefore (f : FormA) (m : MSet) : List Byte :=
  if f.aux7.getLsbD 2 then vecBytes ((m.b.map fun t => valVec t.val).getD 0) else List.replicate 128 0

def lq4ScalesBefore (f : FormA) (m : MSet) : List Byte :=
  if f.aux7.getLsbD 2 then leBytes 8 ((m.c.map fun t => valWord t.val).getD 0).toNat else List.replicate 8 0

/-- How many blocks an lq4 slot makes. -/
def lq4Count (c : Common) : Nat := if c.ty = .f32 then 1 else 2

/-- The bytes of codes and of scales that an lq4 slot delivers. -/
def lq4Codes (c : Common) (f : FormA) (nbv : Nat) (m : MSet) : List Byte :=
  putBlocks (lq4CodesBefore f m) 16 (bits f.aux7 3 3) (fun k => codeBytes (lq4Block c f nbv m k).1) (lq4Count c)

def lq4Scales (c : Common) (f : FormA) (nbv : Nat) (m : MSet) : List Byte :=
  putBlocks (lq4ScalesBefore f m) 1 (bits f.aux7 3 3) (fun k => [BitVec.ofNat 8 (lq4Block c f nbv m k).2]) (lq4Count c)

/-- Both lists of bytes, as the slot fills them block by block. -/
def lq4Bytes (c : Common) (f : FormA) (nbv : Nat) (m : MSet) : List Byte × List Byte :=
  (List.range (lq4Count c)).foldl (fun acc k =>
    (putRun acc.1 (16 * (bits f.aux7 3 3 + k)) (codeBytes (lq4Block c f nbv m k).1),
      putRun acc.2 (bits f.aux7 3 3 + k) [BitVec.ofNat 8 (lq4Block c f nbv m k).2])) (lq4CodesBefore f m, lq4ScalesBefore f m)

/-- The two lists are filled each on its own. -/
theorem lq4Bytes_eq (nbv : Nat) : lq4Bytes c f nbv m = (lq4Codes c f nbv m, lq4Scales c f nbv m) :=
  List.foldl_hom₂ _ Prod.mk _ _ _ _ _ fun _ _ _ => by rw [Nat.one_mul]

theorem exec_lq4 (h : Ready c b m s) : exec (.lq4 c f) s = .next (deliver2 c (.vec (bytesVec (lq4Codes c f (nbvOf s b m.ctx) m)))
    (.sc (word (leNat (lq4Scales c f (nbvOf s b m.ctx) m)))) b m s.taken) := by
  have hfilled : exec (.lq4 c f) s = .next (deliver2 c (.vec (bytesVec (lq4Bytes c f (nbvOf s b m.ctx) m).1))
      (.sc (word (leNat (lq4Bytes c f (nbvOf s b m.ctx) m).2))) b m s.taken) := by
    change execLq4 c f s = _
    rw [execLq4, fireVals_ready h]
    rfl
  rwa [lq4Bytes_eq] at hfilled

theorem lq4CodesBefore_get {j : Nat} (h : j < 128) :
    (lq4CodesBefore f m)[j]? = some (if f.aux7.getLsbD 2 then laneBits true 8 j m.b else 0) := by
  unfold lq4CodesBefore
  split
  · rw [vecBytes, getElem?_leBytes h]
    cases m.b with
    | none =>
      change some (BitVec.ofNat 8 ((0#1024).toNat >>> (8 * j))) = some 0#8
      rw [BitVec.toNat_zero, Nat.zero_shiftRight]
    | some t => rfl
  · exact List.getElem?_replicate_of_lt h

theorem lq4ScalesBefore_get {j : Nat} (h : j < 8) :
    (lq4ScalesBefore f m)[j]? = some (if f.aux7.getLsbD 2 then (laneBits false 64 0 m.c).extractLsb' (8 * j) 8 else 0) := by
  unfold lq4ScalesBefore
  split
  · rw [getElem?_leBytes h]
    cases m.c with
    | none => simp [laneBits]
    | some t => simp [laneBits, BitVec.extractLsb']
  · exact List.getElem?_replicate_of_lt h

theorem lq4CodesBefore_length : (lq4CodesBefore f m).length = 128 := by
  unfold lq4CodesBefore
  split
  · exact length_leBytes ..
  · exact List.length_replicate

theorem lq4ScalesBefore_length : (lq4ScalesBefore f m).length = 8 := by
  unfold lq4ScalesBefore
  split
  · exact length_leBytes ..
  · exact List.length_replicate

section Fits

variable {nbv : Nat} (hfit : bits f.aux7 3 3 + lq4Count c ≤ 8)
include hfit

theorem lq4Codes_spec : (lq4Codes c f nbv m).length = 128 ∧ ∀ j, ∀ i < 16, (lq4Codes c f nbv m)[16 * j + i]? =
    if bits f.aux7 3 3 ≤ j ∧ j < bits f.aux7 3 3 + lq4Count c then
      (codeBytes (lq4Block c f nbv m (j - bits f.aux7 3 3)).1)[i]?
    else (lq4CodesBefore f m)[16 * j + i]? := by
  have hroom : 16 * (bits f.aux7 3 3 + lq4Count c) ≤ (lq4CodesBefore f m).length := by rw [lq4CodesBefore_length]; omega
  obtain ⟨hlen, hget⟩ := putBlocks_spec (run := fun k => codeBytes (lq4Block c f nbv m k).1) (fun _ => codeBytes_length _) hroom
  exact ⟨hlen.trans lq4CodesBefore_length, hget⟩

theorem lq4Scales_spec : (lq4Scales c f nbv m).length = 8 ∧ ∀ j, (lq4Scales c f nbv m)[j]? =
    if bits f.aux7 3 3 ≤ j ∧ j < bits f.aux7 3 3 + lq4Count c then
      some (BitVec.ofNat 8 (lq4Block c f nbv m (j - bits f.aux7 3 3)).2)
    else (lq4ScalesBefore f m)[j]? := by
  have hroom : 1 * (bits f.aux7 3 3 + lq4Count c) ≤ (lq4ScalesBefore f m).length := by rw [lq4ScalesBefore_length]; omega
  obtain ⟨hlen, hget⟩ := putBlocks_spec (run := fun k => [BitVec.ofNat 8 (lq4Block c f nbv m k).2]) (fun _ => rfl) hroom
  refine ⟨hlen.trans lq4ScalesBefore_length, fun j => ?_⟩
  have := hget j 0 Nat.one_pos
  rwa [Nat.one_mul] at this

/-- The scale byte and the codes of a block stand at its place. -/
theorem lq4_block {k : Nat} (hk : k < lq4Count c) :
    (word (leNat (lq4Scales c f nbv m))).extractLsb' (8 * (bits f.aux7 3 3 + k)) 8 = BitVec.ofNat 8 (lq4Block c f nbv m k).2 ∧
      ∀ i < 32, (bytesVec (lq4Codes c f nbv m)).extractLsb' (128 * (bits f.aux7 3 3 + k) + 4 * i) 4 =
        BitVec.ofNat 4 ((lq4Block c f nbv m k).1.getD i 0) := by
  obtain ⟨hcodes, hcode⟩ := lq4Codes_spec (nbv := nbv) (m := m) hfit
  obtain ⟨hscales, hscale⟩ := lq4Scales_spec (nbv := nbv) (m := m) hfit
  have hin : bits f.aux7 3 3 ≤ bits f.aux7 3 3 + k ∧ bits f.aux7 3 3 + k < bits f.aux7 3 3 + lq4Count c := by omega
  refine ⟨ofNat_leNat_extract (by rw [hscales]) ?_, fun i hi => ?_⟩
  · rw [hscale, if_pos hin, Nat.add_sub_cancel_left]
  · obtain ⟨x, hx, hnibble⟩ := codeBytes_nibble (cs := (lq4Block c f nbv m k).1) (fun i => q4Block_getD_lt ..) hi
    have hbyte := hcode (bits f.aux7 3 3 + k) (i / 2) (by omega)
    rw [if_pos hin, Nat.add_sub_cancel_left, hx] at hbyte
    rw [show 128 * (bits f.aux7 3 3 + k) + 4 * i = 8 * (16 * (bits f.aux7 3 3 + k) + i / 2) + 4 * (i % 2) by omega,
      extractLsb'_of_byte _ _ (by omega), bytesVec, ofNat_leNat_extract (by rw [hcodes]) hbyte, hnibble]

/-- Beside the blocks stand the bytes of before. -/
theorem lq4_beside {j : Nat} (hj : j < 8) (hout : j < bits f.aux7 3 3 ∨ bits f.aux7 3 3 + lq4Count c ≤ j) :
    (word (leNat (lq4Scales c f nbv m))).extractLsb' (8 * j) 8 =
        (if f.aux7.getLsbD 2 then (laneBits false 64 0 m.c).extractLsb' (8 * j) 8 else 0) ∧
      ∀ i < 16, (bytesVec (lq4Codes c f nbv m)).extractLsb' (8 * (16 * j + i)) 8 =
        if f.aux7.getLsbD 2 then laneBits true 8 (16 * j + i) m.b else 0 := by
  obtain ⟨hcodes, hcode⟩ := lq4Codes_spec (nbv := nbv) (m := m) hfit
  obtain ⟨hscales, hscale⟩ := lq4Scales_spec (nbv := nbv) (m := m) hfit
  have hin : ¬ (bits f.aux7 3 3 ≤ j ∧ j < bits f.aux7 3 3 + lq4Count c) := by omega
  refine ⟨ofNat_leNat_extract (by rw [hscales]) ?_, fun i hi => ofNat_leNat_extract (by rw [hcodes]) ?_⟩
  · rw [hscale, if_neg hin, lq4ScalesBefore_get hj]
  · rw [hcode j i hi, if_neg hin, lq4CodesBefore_get (by omega)]

end Fits

end Lq4

/-! ## lred and lscan (R109) -/

section Reduce

variable {c : Common} {f : FormA} {b : Nat} {m : MSet} {s : State}

/-- What lscan delivers under an NBV. -/
def prefixLanes (c : Common) (f : FormA) (nbv : Nat) (m : MSet) : Vec :=
  ofLanes (laneRed c f nbv).sw ((List.range (1024 / (laneRed c f nbv).sw)).map
    ((laneRed c f nbv).prefixAt (lanesOf (laneRed c f nbv).sw ((m.a.map fun t => valVec t.val).getD 0)) (lanePresent f m)))

theorem exec_lscan (h : Ready c b m s) :
    exec (.lscan c f) s = .next (deliver c (.vec (prefixLanes c f (nbvOf s b m.ctx) m)) b m s.taken) := by
  change execLscan c f s = _
  rw [execLscan, fireVals_ready h]
  rfl

theorem exec_lred (h : Ready c b m s) :
    let r := laneRed c f (nbvOf s b m.ctx)
    let x := r.reduce (lanesOf r.sw ((m.a.map fun t => valVec t.val).getD 0)) (lanePresent f m)
    exec (.lred c f) s = .next (deliver2 c (.sc (extendRes r.ty r.w x.1)) (.ct (BitVec.ofBool x.2)) b m s.taken) := by
  change execLred c f s = _
  rw [execLred, fireVals_ready h]
  rfl

theorem laneRed_sw (c : Common) (f : FormA) (nbv : Nat) : (laneRed c f nbv).sw = c.ty.width true := by
  unfold laneRed
  split <;> rfl

end Reduce

/-- Settles O16: the marked lanes have their places, the prefixes theirs, and the blocks are runs of whole bytes. -/
theorem laneMasks : Obligations.LaneMasks := by
  unfold Obligations.LaneMasks
  refine ⟨fun c f b m s h => ⟨?lcmpr, ?lexpd⟩, fun c f b m s h => ⟨exec_lred h, ?lscan, ?lq4⟩⟩
  case lcmpr => exact ⟨packedLanes c m, exec_lcmpr h, fun k _ => packedLanes_extract k⟩
  case lexpd =>
    exact ⟨expandedLanes c m, exec_lexpd h, fun _ => expandedLanes_extract_marked, fun _ => expandedLanes_extract_unmarked⟩
  case lscan =>
    refine ⟨_, exec_lscan h, fun k hk => ?_⟩
    have hsw := laneRed_sw c f (nbvOf s b m.ctx)
    rw [prefixLanes, ofLanes_map_extract _ (by rw [hsw]; exact (Ty.width_lanes ..).le) hk, BitVec.toNat_ofNat]
  case lq4 =>
    refine ⟨_, _, exec_lq4 h, fun hvec hfit => ⟨fun k hk => ?_, fun j hj hout => lq4_beside hfit hj hout⟩⟩
    have hblock : lq4Block c f (nbvOf s b m.ctx) m k = q4Block (nbvOf s b m.ctx) (bits f.aux7 0 2) f.rnd
        ((List.range 32).map fun i => laneF c (32 * k + i) m.a) := by
      simp only [lq4Block, laneF, laneBits_toNat, hvec]
    have hplaced := lq4_block (nbv := nbvOf s b m.ctx) (m := m) hfit hk
    rwa [hblock] at hplaced

end Sys2Proof.Machine

namespace Sys2Proof.Machine

open Sys2Proof

/-! ## The bit at a port -/

/-- A slot that tests a port tests bit 0 of its token; a port that is not used reads 0. -/
theorem portBit_eq (k : Option Token) : (k.map fun t => valBit t.val).getD false = decide (laneBits false 1 0 k = 1#1) := by
  cases k with
  | none => rfl
  | some t =>
    have hbit : laneBits false 1 0 (some t) = BitVec.ofBool (valBit t.val) := by
      change (valWord t.val).setWidth 1 = _
      exact BitVec.setWidth_one
    rw [hbit, Option.map_some, Option.getD_some]
    cases valBit t.val <;> rfl

/-! ## Count and fold (R118 to R122) -/

section Accumulation

variable {c : Common} {f : FormA} {b : Nat} {m : MSet} {s : State}

/-- A whole set of a count or fold that may fire does its work (R120). -/
theorem fireRec_ready {n0 : Val} {go : Nat → MSet → State → State} (h : Ready c b m s) (hr : s.recReady b m = true) :
    fireRec c n0 go s = .next (go b m s.taken) := by
  simp only [fireRec, h.here, hr, if_true]
  rw [fireSlot_ready h]

/-- A count delivers its record's count and whether it is the last, and holds the update (R121). -/
theorem exec_count (h : Ready c b m s) (hr : s.recReady b m = true) :
    let q := takeRec (fieldOperand c f m) b m s.taken
    let n := q.1.cnt + 1
    exec (.count c f) s = .next (deliver2 c (.sc (word (n % 2 ^ 32))) (.ct (BitVec.ofBool (n == q.1.n))) b m
      (holdUpd ⟨{ q.1 with cnt := n }, n == q.1.n⟩ b m q.2)) :=
  fireRec_ready h hr

/-- How many indices a fold says its key has: the immediate, or port B. -/
def foldCount (f : FormA) (m : MSet) : Nat := if f.im then f.imm16.toNat else patAt false 32 0 m.b

/-- What a fold does with two partials. -/
def foldComb (r : Red) (x y : Word) : Word := word (r.combine x.toNat y.toNat)

/-- The leaf of a fold set: none where the bit at port C masks it. -/
def foldLeaf (f : FormA) (r : Red) (m : MSet) : Partial :=
  if !f.msk || (m.c.map fun t => valBit t.val).getD false then some (word (r.widen (patAt false r.sw 0 m.a))) else none

/-- What a fold delivers of a partial: the identity of its operation where there is none. -/
def foldOut (c : Common) (r : Red) (x : Partial) : Val :=
  .sc (extendRes c.ty r.w (match x with | some v => v.toNat | none => r.identity))

theorem foldCount_eq (f : FormA) (m : MSet) : foldCount f m = if f.im then f.imm16.toNat else (laneBits false 32 0 m.b).toNat := by
  rw [foldCount, laneBits_toNat]

theorem foldLeaf_eq (f : FormA) (r : Red) (m : MSet) : foldLeaf f r m =
    if f.msk = true ∧ laneBits false 1 0 m.c ≠ 1#1 then none else some (word (r.widen (laneBits false r.sw 0 m.a).toNat)) := by
  rw [foldLeaf, portBit_eq, laneBits_toNat, ← ite_not]
  congr 1
  cases f.msk <;> simp

theorem foldOut_eq (c : Common) (r : Red) (x : Partial) :
    foldOut c r x = .sc (extendRes c.ty r.w ((x.map (·.toNat)).getD r.identity)) := by
  cases x <;> rfl

/-- A fold whose index is already applied or beyond n delivers the reduction so far and changes nothing; any other puts its leaf in,
delivers the reduction up to it and whether it is the last, and holds the update (R122). -/
theorem exec_fold (h : Ready c b m s) (hr : s.recReady b m = true) :
    let t := s.taken
    let r := foldRed c f (nbvOf t b m.ctx)
    let j := recIndex (ownWidths t b m) (ownTag t b m)
    let q := takeRec (foldCount f m) b m t
    let ls := foldPush r.nbv (foldComb r) q.1.levels (j - q.1.cnt) (foldLeaf f r m)
    exec (.fold c f) s = .next (
      if j < q.1.cnt || q.1.n ≤ j then deliver2 c (foldOut c r (prefixOf (foldComb r) q.1.levels)) (.ct 0) b m q.2
      else deliver2 c (foldOut c r (prefixOf (foldComb r) ls)) (.ct (BitVec.ofBool (j + 1 == q.1.n))) b m
        (holdUpd ⟨{ q.1 with cnt := j + 1, levels := ls }, j + 1 == q.1.n⟩ b m q.2)) :=
  fireRec_ready h hr

end Accumulation

/-- Settles O22: a set that may not fire waits; one that may takes its record, and a fold puts its leaf in if its index is still to come. -/
theorem accumulationFires : Obligations.AccumulationFires := by
  unfold Obligations.AccumulationFires
  refine ⟨fun c f b m s h => ?count, fun c f b m s hf hr i hi => ?waits, fun c f b m s h hr => ?fold⟩
  case count => exact exec_count h
  case waits =>
    fin_cases hi
    · exact fireRec_of_not_ready hf hr
    · exact fireRec_of_not_ready hf hr
  case fold =>
    have hfold := exec_fold (f := f) h hr
    simp only [foldCount_eq, foldLeaf_eq, foldOut_eq, Bool.or_eq_true, decide_eq_true_eq, apply_ite Host.Outcome.next] at hfold
    exact hfold

/-! ## Constants (R115) -/

section Constants

variable {c : Common} {f : FormA}

/-- The 64 bits of a constant: the immediate, moved up by SH places of 16 bits (R80, R115). -/
def constBits (c : Common) (f : FormA) : Word := immValue c.ty f.imm16 <<< (16 * bits f.aux7 0 2)

/-- The lane of a constant, as a pattern. -/
def constLane (c : Common) (f : FormA) : Nat := (constBits c f).toNat % 2 ^ c.ty.width c.w

theorem constLane_holds : Holds c (fun _ => (constBits c f).setWidth (c.ty.width c.w)) (resultVal c fun _ => constLane c f) :=
  holds_resultVal fun _ => by rw [constLane, Nat.mod_mod, BitVec.toNat_setWidth]

/-- A vector or b1 constant is its lane in every place. -/
theorem constVal_of_lanes (h : c.w = true ∨ c.ty = .b1) : constVal c f = resultVal c fun _ => constLane c f := by
  unfold constVal resultVal constLane
  cases hw : c.w with
  | true => rfl
  | false =>
    have ht : c.ty = .b1 := h.resolve_left (by rw [hw]; decide)
    have hwidth : Ty.b1.width false = 1 := rfl
    simp only [ht, hwidth, if_true, Bool.false_eq_true, if_false]
    rw [← BitVec.toNat_setWidth, BitVec.ofNat_toNat, BitVec.setWidth_eq, constBits, ht]

theorem constVal_of_scalar (hw : c.w = false) (ht : c.ty ≠ .b1) : constVal c f = .sc (constBits c f) := by
  simp only [constVal, hw, ht, Bool.false_eq_true, if_false, constBits]

end Constants

/-! ## Tokens sent on (R115) -/

section Moves

variable {c : Common} {f : FormA} {b : Nat} {m : MSet} {s : State}

theorem exec_const (h : Ready c b m s) : exec (.const c f) s = .next (deliver c (constVal c f) b m s.taken) := by
  change execConst c f s = _
  rw [execConst, fireVals_ready h]
  rfl

theorem exec_ordj (h : Ready c b m s) : exec (.ordj c f) s = .next (deliver c (.ct 1) b m s.taken) := by
  change execOrdj c f s = _
  rw [execOrdj, fireVals_ready h]
  rfl

theorem exec_null (h : Ready c b m s) :
    exec (.null c f) s = .next (sendNulls c (if c.w then .vec 0 else .sc 0) (if c.w then .vec 0 else .sc 0) b m s.taken) := by
  change execNull c f s = _
  rw [execNull, fireSlot_ready h]
  rfl

theorem fireCopy_ready (h : Ready c b m s) : fireCopy c s = .next (deliver c (valA m) b m s.taken) := by
  rw [fireCopy, fireSlot_ready h]

/-- A token goes to T0, T1 and the four targets of a route word that is sound (R89, R115). -/
theorem sendRouted_of_route {r : RouteCell} (k : Token)
    (hr : AMap.get? (s.elem b m.el).routes (f.aux7.extractLsb' 0 3).toNat = some r) (hp : r.poison = false) :
    sendRouted c f k b m s = ([c.t0, c.t1] ++ r.targets).foldl (fun u t => sendTo u b m t k) s := by
  have hroute : routeOf s b m.el (bits f.aux7 0 3) = r := by
    rw [routeOf, bits, hr, Option.getD_some]
  simp only [sendRouted, hroute, hp, Bool.false_eq_true, if_false]

theorem exec_mov4 (h : Ready c b m s) {r : RouteCell}
    (hr : AMap.get? (s.elem b m.el).routes (f.aux7.extractLsb' 0 3).toNat = some r) (hp : r.poison = false) :
    exec (.mov4 c f) s =
      .next (([c.t0, c.t1] ++ r.targets).foldl (fun u t => sendTo u b m t ⟨valA m, false, false⟩) s.taken) := by
  change execMov4 c f s = _
  rw [execMov4, fireSlot_ready h, sendRouted_of_route (s := s.taken) _ hr hp]

/-- steer sends port A to the target that the bit at port B names, and with NUL = 1 a null to the other (R115). -/
theorem exec_steer (h : Ready c b m s) :
    let yes := if laneBits false 1 0 m.b = 1#1 then c.t0 else c.t1
    let no := if laneBits false 1 0 m.b = 1#1 then c.t1 else c.t0
    let u := sendTo s.taken b m yes ⟨valA m, false, false⟩
    exec (.steer c f) s = .next (if f.aux7.getLsbD 0 = true then sendTo u b m no (nullOn (valA m)) else u) := by
  change execSteer c f s = _
  simp only [execSteer, fireSlot_ready h, portBit_eq, decide_eq_true_eq]

/-- gate lets port A through where the bit at port B is 1, and with NUL = 1 sends nulls where it is not (R115). -/
theorem exec_gate (h : Ready c b m s) : exec (.gate c f) s = .next (
    if laneBits false 1 0 m.b = 1#1 then deliver c (valA m) b m s.taken
    else if f.aux7.getLsbD 0 = true then sendNulls c (valA m) (valA m) b m s.taken else s.taken) := by
  change execGate c f s = _
  simp only [execGate, fireSlot_ready h, portBit_eq, decide_eq_true_eq, nullsAsA]

end Moves

/-- Settles O20: each member is read off its work on a whole set, by the bit at port B, the kind of the constant, the route word. -/
theorem tokenMoves : Obligations.TokenMoves := by
  unfold Obligations.TokenMoves
  intro c f b m s h t a na yes nul send
  refine ⟨fireCopy_ready h, fireCopy_ready h, exec_null h, exec_ordj h, fun hy => ?steerYes, fun hy => ?steerNo, fun hy => ?gateYes,
    fun hy => ?gateNo, ⟨_, constLane_holds, fun hl => ?constLanes, fun hw ht => ?constScalar⟩, fun r hr hp => exec_mov4 h hr hp⟩
  case steerYes => rw [exec_steer h, if_pos hy, if_pos hy]
  case steerNo => rw [exec_steer h, if_neg hy, if_neg hy]
  case gateYes =>
    rw [exec_gate h, if_pos hy]
    rfl
  case gateNo =>
    rw [exec_gate h, if_neg hy]
    rfl
  case constLanes => rw [exec_const h, constVal_of_lanes hl]
  case constScalar =>
    rw [exec_const h, constVal_of_scalar hw ht]
    rfl

end Sys2Proof.Machine

namespace Sys2Proof.Machine

open Sys2Proof

/-! ## A packet arrives (R140, R146) -/

section Arrival

variable {e : LinkEnd} {p : Packet} {errs : List FlitErr} {s : State}

/-- The payload flits of a packet that fail at the stop. -/
def badFlits (p : Packet) (errs : List FlitErr) : List Nat :=
  (List.range p.pay.length).filter fun k => errs.getD (k + 1) .none = .bad

theorem exec_packetArrive_of_bad_header (h : errs.headD .none = .bad ∨ headerOk p = false) :
    exec (.packetArrive e p errs) s =
      .next (returnCredits (dropRecord (countFlits s e errs) e p) e.ring e.bay e.dir p) := by
  change execPacketArrive e p errs s = _
  unfold execPacketArrive
  rw [if_pos (by simpa using h)]

theorem exec_packetArrive_of_header (hb : errs.headD .none ≠ .bad) (hk : headerOk p = true) :
    exec (.packetArrive e p errs) s = .next (takeIn (countFlits s e errs) e (strike p (badFlits p errs))) := by
  change execPacketArrive e p errs s = _
  unfold execPacketArrive
  rw [decide_eq_false hb, hk]
  rfl

theorem strike_nil : strike p [] = p := rfl

theorem strike_of_ne_nil {bad : List Nat} (hne : bad ≠ []) : strike p bad =
    if p.kind = 1 ∨ p.kind = 2 ∨ (p.kind = 3 ∧ p.body 220 4 = 2) then
      { p with marks := p.marks ++ bad.flatMap fun k => (List.range 32).map fun i => 32 * k + i }
    else { p with poi := true } :=
  if_neg (by simpa using hne)

end Arrival

/-! ## The head of a channel leaves its port (R135, R141, R144) -/

/-- The packet at a place of a port leaves it, and its slots go back as credits. -/
def leavePort (ring : Ring) (b : Nat) (d : Dir) (l : List Packet) (i : Nat) (p : Packet) (s : State) : State :=
  returnCredits (s.modStop ring b fun t => t.setPort d (dropAt l i)) ring b d p

section Heads

variable {ring : Ring} {b vc i : Nat} {d : Dir} {s : State} {p : Packet}
  (hi : headOf ((s.stopAt ring b).port d) vc = some i) (hp : ((s.stopAt ring b).port d)[i]? = some p)
include hi hp

theorem settleHead_eject (hw : wayOf s ring b (portCame d) p = .eject) : settleHead ring b d s vc =
    leavePort ring b d ((s.stopAt ring b).port d) i p (s.handOver b (markLeaving ((s.stopAt ring b).port d) p)) := by
  simp only [settleHead, hi, List.getD_eq_getElem?_getD, hp, Option.getD_some, hw]
  rfl

theorem settleHead_turn (hw : wayOf s ring b (portCame d) p = .turn) : settleHead ring b d s vc =
    if vc ≠ 3 ∧ queueFlits (s.stopAt .col b).turn + p.len ≤ 10 then
      leavePort ring b d ((s.stopAt ring b).port d) i p
        (s.modStop .col b fun t => { t with turn := t.turn ++ [enterRing (markLeaving ((s.stopAt ring b).port d) p)] })
    else s := by
  simp only [settleHead, hi, List.getD_eq_getElem?_getD, hp, Option.getD_some, hw, Bool.and_eq_true, decide_eq_true_eq]
  rfl

/-- A head that leaves by a link, and not through the boundary element, waits for its output. -/
theorem settleHead_out {o : Dir} (hw : wayOf s ring b (portCame d) p = .out o) (hf : forBoundary b p = false) :
    settleHead ring b d s vc = s := by
  simp [settleHead, hi, hp, hw, hf]

end Heads

/-! ## The local queues (R141) -/

section Queues

variable {q l : List Packet} {p : Packet}

theorem queueFlits_concat : queueFlits (q ++ [p]) = queueFlits q + p.len := by
  simp [queueFlits]

theorem fillQueue_cons_of_fits (h : queueFlits q + p.len ≤ 10) : fillQueue q (p :: l) = fillQueue (q ++ [p]) l := if_pos h

theorem fillQueue_cons_of_full (h : ¬ queueFlits q + p.len ≤ 10) : fillQueue q (p :: l) = (q, p :: l) := if_neg h

theorem queueFlits_fillQueue_le (h : queueFlits q ≤ 10) : queueFlits (fillQueue q l).1 ≤ 10 := by
  induction l generalizing q with
  | nil => exact h
  | cons p l ih =>
    by_cases hf : queueFlits q + p.len ≤ 10
    · rw [fillQueue_cons_of_fits hf]
      exact ih (queueFlits_concat.trans_le hf)
    · rw [fillQueue_cons_of_full hf]
      exact h

/-- Filling a queue neither loses a packet nor changes their order. -/
theorem fillQueue_append : (fillQueue q l).1 ++ (fillQueue q l).2 = q ++ l := by
  induction l generalizing q with
  | nil => rfl
  | cons p l ih =>
    by_cases hf : queueFlits q + p.len ≤ 10
    · rw [fillQueue_cons_of_fits hf, ih, List.append_assoc, List.singleton_append]
    · rw [fillQueue_cons_of_full hf]

/-- What still waits begins with a packet that has no room. -/
theorem fillQueue_rest_full {r : List Packet} (h : (fillQueue q l).2 = p :: r) : 10 < queueFlits (fillQueue q l).1 + p.len := by
  induction l generalizing q with
  | nil => cases h
  | cons x l ih =>
    by_cases hf : queueFlits q + x.len ≤ 10
    · rw [fillQueue_cons_of_fits hf] at h ⊢
      exact ih h
    · rw [fillQueue_cons_of_full hf] at h ⊢
      obtain ⟨rfl, -⟩ := List.cons.inj h
      exact Nat.lt_of_not_le hf

end Queues

/-! ## What an output takes (R145, R149) -/

section Outputs

variable {s : State} {ring : Ring} {b v vc : Nat} {d : Dir} {f : From} {p : Packet} {k : Option Nat}

theorem portCand_source {pd : Dir} (h : portCand s ring b d v pd = some (f, p, vc)) : ∃ i, f = .port pd i := by
  simp only [portCand] at h
  split at h
  · cases h
  · next i _ =>
    obtain ⟨-, ho⟩ := Option.ite_none_right_eq_some.1 h
    obtain ⟨w, -, hw⟩ := Option.map_eq_some_iff.1 ho
    exact ⟨i, (congrArg Prod.fst hw).symm⟩

theorem firstHead_source (h : firstHead s ring b d v = some (f, p, vc)) : ∃ pd i, f = .port pd i := by
  obtain ⟨pd, -, hc⟩ := List.exists_of_findSome?_eq_some h
  exact ⟨pd, portCand_source hc⟩

theorem queueCand_source {g : From} {l : List Packet} (h : queueCand s ring b d g l = some (f, p, vc)) : f = g := by
  cases l with
  | nil => cases h
  | cons x l =>
    obtain ⟨-, ho⟩ := Option.ite_none_right_eq_some.1 h
    obtain ⟨w, -, hw⟩ := Option.map_eq_some_iff.1 ho
    exact (congrArg Prod.fst hw).symm

theorem turningCand_source (h : turningCand s ring b d = some (f, p, vc)) : ∃ pd i, f = .turning pd i := by
  obtain ⟨-, ht⟩ := Option.ite_none_right_eq_some.1 h
  obtain ⟨pd, -, hc⟩ := List.exists_of_findSome?_eq_some ht
  obtain ⟨i, -, hi⟩ := Option.bind_eq_some_iff.1 hc
  obtain ⟨-, ho⟩ := Option.ite_none_right_eq_some.1 hi
  obtain ⟨w, -, hw⟩ := Option.map_eq_some_iff.1 ho
  exact ⟨pd, i, (congrArg Prod.fst hw).symm⟩

/-- Only the bridge of a column stop takes from the boundary element. -/
theorem boundaryCand_output (h : boundaryCand s ring b d = some (f, p, vc)) : ring = .col ∧ d = .bridge :=
  (Option.ite_none_right_eq_some.1 h).1

theorem roundRobin_cases {n j : Nat} (h : roundRobin s ring b d n = some (j, f, p, vc)) :
    boundaryCand s ring b d = some (f, p, vc) ∨ firstHead s ring b d 0 = some (f, p, vc) ∨
    queueCand s ring b d .turn (s.stopAt ring b).turn = some (f, p, vc) ∨
    queueCand s ring b d .inject (s.stopAt ring b).inject = some (f, p, vc) := by
  obtain ⟨c, -, hc⟩ := List.exists_of_findSome?_eq_some h
  obtain ⟨x, hx, he⟩ := Option.map_eq_some_iff.1 hc
  obtain ⟨-, rfl⟩ := Prod.mk.inj he
  split at hx
  · rcases (Option.orElse_eq_some _ _ _).1 hx with hb | ⟨-, h0⟩
    · exact .inl hb
    · exact .inr (.inl h0)
  · exact .inr (.inr (.inl hx))
  · exact .inr (.inr (.inr hx))

/-- Where the packet that an output takes comes from, and whether the round robin chose it. -/
theorem nextOut_cases (h : nextOut s ring b d = some (f, p, vc, k)) :
    (k = none ∧ ∃ v, firstHead s ring b d v = some (f, p, vc)) ∨
    (∃ j, k = some j ∧ roundRobin s ring b d ((s.stopAt ring b).rr d) = some (j, f, p, vc)) ∨
    (k = none ∧ turningCand s ring b d = some (f, p, vc)) ∨
    (k = none ∧ queueCand s ring b d .trace (s.stopAt ring b).trace = some (f, p, vc)) := by
  simp only [nextOut, Option.orElse_eq_or, Option.or_eq_some_iff] at h
  rcases h with ((((h | ⟨-, h⟩) | ⟨-, h⟩) | ⟨-, h⟩) | ⟨-, h⟩) | ⟨-, h⟩ <;>
    obtain ⟨c, hc, he⟩ := Option.map_eq_some_iff.1 h <;> cases he
  · exact .inl ⟨rfl, 2, hc⟩
  · exact .inl ⟨rfl, 1, hc⟩
  · exact .inr (.inl ⟨_, rfl, hc⟩)
  · exact .inl ⟨rfl, 3, hc⟩
  · exact .inr (.inr (.inl ⟨rfl, hc⟩))
  · exact .inr (.inr (.inr ⟨rfl, hc⟩))

theorem nextOut_boundary (h : nextOut s ring b d = some (.boundary, p, vc, k)) : ring = .col ∧ d = .bridge := by
  have noHead {v} : firstHead s ring b d v ≠ some (.boundary, p, vc) := fun hc => by
    obtain ⟨_, _, hf⟩ := firstHead_source hc
    cases hf
  rcases nextOut_cases h with ⟨-, _, hc⟩ | ⟨_, -, hc⟩ | ⟨-, hc⟩ | ⟨-, hc⟩
  · exact absurd hc noHead
  · rcases roundRobin_cases hc with hb | h0 | ht | hi
    · exact boundaryCand_output hb
    · exact absurd h0 noHead
    · cases queueCand_source ht
    · cases queueCand_source hi
  · obtain ⟨_, _, hf⟩ := turningCand_source hc
    cases hf
  · cases queueCand_source hc

theorem exec_packetSend_of_nextOut {e : LinkEnd} (h : nextOut s e.ring e.bay e.dir = some (f, p, vc, k)) (hf : f ≠ .boundary) :
    exec (.packetSend e) s = .next (sendNext s e f p vc k) := by
  change execPacketSend e s = _
  unfold execPacketSend
  rw [h]
  cases f with
  | boundary => exact absurd rfl hf
  | _ => rfl

/-- PACKET_SEND leaves what the boundary element holds to BOUNDARY_TOKEN_SEND (R149). -/
theorem exec_packetSend_of_boundary {e : LinkEnd} (h : nextOut s e.ring e.bay e.dir = some (.boundary, p, vc, k)) :
    exec (.packetSend e) s = .next s := by
  change execPacketSend e s = _
  unfold execPacketSend
  rw [h]

theorem exec_boundaryTokenSend_of_nextOut (h : nextOut s .col b .bridge = some (.boundary, p, vc, k)) :
    exec (.boundaryTokenSend b) s = .next (sendNext s ⟨b, .col, .bridge⟩ .boundary p vc k) := by
  change execBoundaryTokenSend b s = _
  unfold execBoundaryTokenSend
  rw [h]

theorem boundaryCand_cons {l : List Packet} (hl : (s.bay b).boundary = p :: l)
    (hv : bridgeVc (s.bay b).colStop.outBr 0 p.len = some vc) : boundaryCand s .col b .bridge = some (.boundary, p, vc) := by
  have hv' : bridgeVc (s.stopAt .col b).outBr 0 p.len = some vc := hv
  simp [boundaryCand, hl, hv']

/-- With no head in the two channels before it, the boundary element's token goes when the round robin stands at the VC0 heads (R149). -/
theorem nextOut_of_boundaryCand (hb : boundaryCand s ring b d = some (.boundary, p, vc)) (hr : (s.stopAt ring b).rr d = 0)
    (h2 : firstHead s ring b d 2 = none) (h1 : firstHead s ring b d 1 = none) :
    nextOut s ring b d = some (.boundary, p, vc, some 0) := by
  have hrr : roundRobin s ring b d 0 = some (0, .boundary, p, vc) := by
    simp [roundRobin, hb]
  simp [nextOut, h2, h1, hr, hrr]

end Outputs

/-! ## Channels and credits (R143, R144) -/

section Channels

variable {c : Counts} {dl crossing : Bool} {len v : Nat}

/-- Each channel with its condition; a packet past the dateline, or about to cross it, takes no other than VC1. -/
theorem chooseVc_cases (h : chooseVc c dl crossing len = some v) :
    (v = 1 ∧ (dl = true ∨ crossing = true) ∧ len ≤ c.shfree) ∨
    (v = 0 ∧ (dl = false ∧ crossing = false) ∧ len ≤ c.shfree ∧ c.v0held + len ≤ 11) ∨
    (v = 2 ∧ (dl = false ∧ crossing = false) ∧ len ≤ c.escfree) := by
  unfold chooseVc at h
  split at h
  · next hd =>
    obtain ⟨hl, hv⟩ := Option.ite_none_right_eq_some.1 h
    exact .inl ⟨(Option.some.inj hv).symm, by simpa using hd, hl⟩
  · next hd =>
    have hno : dl = false ∧ crossing = false := by simpa using hd
    split at h
    · next hl =>
      obtain ⟨hs, h0⟩ : len ≤ c.shfree ∧ c.v0held + len ≤ 11 := by simpa using hl
      exact .inr (.inl ⟨(Option.some.inj h).symm, hno, hs, h0⟩)
    · obtain ⟨hl, hv⟩ := Option.ite_none_right_eq_some.1 h
      exact .inr (.inr ⟨(Option.some.inj hv).symm, hno, hl⟩)

theorem reserve_vc0 : c.reserve 0 len = { c with shfree := c.shfree - len, v0held := c.v0held + len } := rfl
theorem reserve_vc1 : c.reserve 1 len = { c with shfree := c.shfree - len } := rfl
theorem reserve_vc2 : c.reserve 2 len = { c with escfree := c.escfree - len } := rfl

theorem exec_creditReturn {e : LinkEnd} {cls : CreditClass} {s : State} : exec (.creditReturn e cls) s =
    .next (s.modStop e.ring e.bay fun t => t.setCounts e.dir ((t.counts e.dir).credit cls)) := rfl

end Channels

/-- Settles O37: a packet by what its flits fail in, a head by its way, the queues by induction on what waits, an output by where its packet
comes from, and a reservation by the channel chosen. -/
theorem ringNetworks : Obligations.RingNetworks := by
  unfold Obligations.RingNetworks
  refine ⟨fun e p errs s => ?arrive, fun s e l => ⟨rfl, rfl, rfl, rfl⟩, fun ring b d s vc i p hi hp => ?heads, fun q l hq => ?queues,
    fun e s f p vc k h => ?send, fun b s p l vc hl hv hr h2 h1 => ?boundary, fun c dl crossing len v h h0 => ?channel,
    fun e cls s => ?credit⟩
  case arrive =>
    intro t bad bytes joins
    refine ⟨exec_packetArrive_of_bad_header, fun hb hk => ?_⟩
    have htake : exec (.packetArrive e p errs) s = .next (takeIn t e (strike p bad)) := exec_packetArrive_of_header hb hk
    refine ⟨fun h0 => ?_, fun h0 hy => ?_, fun h0 hy => ?_⟩
    · rw [h0, strike_nil] at htake
      exact htake
    · rw [strike_of_ne_nil h0, if_pos hy] at htake
      exact htake
    · rw [strike_of_ne_nil h0, if_neg hy] at htake
      exact htake
  case heads =>
    refine ⟨settleHead_eject hi hp, fun hw hv hf => ?_, fun hw hno => ?_, fun o => settleHead_out hi hp⟩
    · rw [settleHead_turn hi hp hw, if_pos ⟨hv, hf⟩]
      rfl
    · rw [settleHead_turn hi hp hw, if_neg fun ⟨hv, hf⟩ => hno.elim hv (· hf)]
  case queues => exact ⟨queueFlits_fillQueue_le hq, fillQueue_append, fun p r => fillQueue_rest_full⟩
  case send =>
    refine ⟨exec_packetSend_of_nextOut h, fun hf => ?_⟩
    subst hf
    obtain ⟨bay, ring, dir⟩ := e
    obtain ⟨rfl, rfl⟩ := nextOut_boundary h
    exact ⟨rfl, rfl, exec_packetSend_of_boundary h, exec_boundaryTokenSend_of_nextOut h⟩
  case boundary => exact nextOut_of_boundaryCand (boundaryCand_cons hl hv) hr h2 h1
  case channel =>
    rcases chooseVc_cases h with ⟨rfl, hd, hs⟩ | ⟨rfl, hd, hs, hh⟩ | ⟨rfl, hd, hs⟩
    · rw [reserve_vc1]
      exact ⟨h0, rfl, .inr (.inl ⟨rfl, hd, Nat.sub_add_cancel hs, rfl, rfl⟩)⟩
    · rw [reserve_vc0]
      exact ⟨hh, rfl, .inl ⟨rfl, hd.1, hd.2, Nat.sub_add_cancel hs, rfl⟩⟩
    · rw [reserve_vc2]
      exact ⟨h0, rfl, .inr (.inr ⟨rfl, hd.1, hd.2, Nat.sub_add_cancel hs, rfl, rfl⟩)⟩
  case credit =>
    rw [exec_creditReturn]
    cases cls <;> rfl

end Sys2Proof.Machine

/-!
Proofs of two statements about sites: what sdepth and xlat do (SiteQueries), what an atomic writes at its home (AtomicValues).
-/
namespace Sys2Proof.Machine

open Sys2Proof

/-! ## Slots that ask about a site or an address (R191, R193) -/

@[simp] theorem State.site?_taken {s : State} {b k : Nat} : s.taken.site? b k = s.site? b k := rfl

@[simp] theorem siteOf_taken {s : State} {b ctx : Nat} {f : FormM} : siteOf s.taken b ctx f = siteOf s b ctx f := rfl

section SiteSlots

variable {c : Common} {f : FormM} {b : Nat} {m : MSet} {s : State} (h : Ready c b m s)

include h

theorem exec_sdepth {x : Site} (hx : s.site? b (siteOf s b m.ctx f) = some x) :
    exec (.sdepth c f) s = .next (deliver c (.sc (word x.dep)) b m s.taken) := by
  change execSdepth c f s = _
  rw [execSdepth, fireVals_ready h, siteOf_taken, State.site?_taken, hx]
  rfl

theorem exec_xlat : exec (.xlat c f) s =
    .next (askXlat s.taken b m.ctx (valWord (valA m)).toNat (f.lo8.getLsbD 0) (.xlat m.el m.slot m.gate m.ix c)) := by
  change execXlat c f s = _
  rw [execXlat, fireSlot_ready h]

end SiteSlots

/-- Settles O27: sdepth delivers the DEP of its site, and an xlat joins the requests of the translation node. -/
theorem siteQueries : Obligations.SiteQueries := by
  unfold Obligations.SiteQueries
  exact fun c f b m s h => ⟨fun x hx => exec_sdepth h hx, exec_xlat h⟩

/-! ## What an atomic writes (R195 to R197) -/

section Atomics

variable {w : Nat} {x y : BitVec w}

theorem toNat_add_one_of_lt (h : x < y) : (x + 1).toNat = x.toNat + 1 := by
  have hlt : x.toNat + 1 < 2 ^ w := Nat.lt_of_le_of_lt (BitVec.lt_def.1 h) y.isLt
  rw [BitVec.toNat_add, BitVec.ofNat_eq_ofNat, BitVec.toNat_ofNat, Nat.add_mod_mod, Nat.mod_eq_of_lt hlt]

theorem toNat_sub_one_of_ne_zero (h : x ≠ 0) : (x - 1).toNat = x.toNat - 1 := by
  have hpos : 1 ≤ x.toNat := BitVec.toNat_pos_of_ne_zero h
  have hone : (1 : BitVec w).toNat = 1 := by
    rw [BitVec.ofNat_eq_ofNat, BitVec.toNat_ofNat, Nat.mod_eq_of_lt (Nat.lt_of_le_of_lt hpos x.isLt)]
  rw [BitVec.toNat_sub_of_le (BitVec.le_def.2 (hone ▸ hpos)), hone]

end Atomics

/-- Settles O39: what is read are the patterns' values, so each operation on patterns is that on bits. -/
theorem atomicValues : Obligations.AtomicValues := by
  unfold Obligations.AtomicValues
  intro t rnd sat old b c new w
  refine ⟨?wrap, ?clamp, ?min, ?max, ?and, ?or, ?xor, ?xch, ?cas, ?inc, ?dec, ?float⟩
  all_goals simp only [new, atomicNew, readInt_eq_readBits, Nat.mod_eq_of_lt (BitVec.isLt _)]
  case wrap =>
    rintro rfl
    rw [narrow_eq, BitVec.ofInt_add, ofInt_readBits, ofInt_readBits]
    rfl
  case clamp =>
    rintro rfl
    exact narrow_eq ..
  case min => exact (apply_ite BitVec.toNat ..).symm
  case max => exact (apply_ite BitVec.toNat ..).symm
  case and => exact (BitVec.toNat_and ..).symm
  case or => exact (BitVec.toNat_or ..).symm
  case xor => exact (BitVec.toNat_xor ..).symm
  case cas => simp only [BitVec.toNat_inj, apply_ite BitVec.toNat]
  case inc =>
    simp only [BitVec.le_def, apply_ite BitVec.toNat]
    exact ite_congr rfl (fun _ => rfl) fun h => (toNat_add_one_of_lt (BitVec.lt_def.2 (Nat.lt_of_not_le h))).symm
  case dec =>
    have hzero : old.toNat = 0 ↔ old = 0 := by rw [← BitVec.toNat_inj, BitVec.ofNat_eq_ofNat, BitVec.toNat_zero]
    simp only [hzero, ← BitVec.lt_def, apply_ite BitVec.toNat]
    exact ite_congr rfl (fun _ => rfl) fun h => (toNat_sub_one_of_ne_zero fun h0 => h (.inl h0)).symm
  case float => exact fun _ => trivial

end Sys2Proof.Machine

/-!
Proof of the statement about memory slots at fault (MemorySlotFaults).
-/
namespace Sys2Proof.Machine

open Sys2Proof

/-! ## A memory slot at fault (R179, R212, R355) -/

section Faults

variable {c : Common} {f : FormM} {kind : OpKind} {op : Nat} {asked named : Bool} {off : Int} {chk : Option (Nat × Bool × Bool)}
  {n0 n1 : Val} {b : Nat} {m : MSet} {s u : State} {scope : Nat} {x : Site} {cx : CtxRt} (h : Ready c b m s)

include h

/-- The scope policy forbids the slot's scope: nothing else is looked at (log 77). -/
theorem fireOp_scopeFault {d : Word × Word × Word × Word} (hd : scopeOf s.taken b m (Scope.code f.scope) = .error d) :
    fireOp c f kind op true named off chk n0 n1 s = .next (slotFault 0x19 d b m s.taken) := by
  rw [fireOp, fireSlot_ready h]
  simp only [if_true, hd]

variable (hscope : ScopeGiven asked f b m s.taken scope u) (hx : u.site? b (siteOf u b m.ctx f) = some x)

include hscope hx

/-- The site's entry is poisoned. -/
theorem fireOp_poisonFault (hpoison : x.poison = true) : fireOp c f kind op asked true off chk n0 n1 s =
    .next (slotFault 0x20 (locWord 3 x.node, 0, 0, 0) b m u) := by
  rw [fireOp, fireSlot_ready h, hscope.scopeOf_eq]
  simp only [hx, if_true, Option.any_some, hpoison, Option.map_some, Option.getD_some]

variable (hpoison : x.poison = false) (hcx : u.ctx? b m.ctx = some cx)

include hpoison hcx

/-- The access fails its check (R179). -/
theorem fireOp_checkFault {n code : Nat} {vector store : Bool} {d : Word × Word × Word × Word} (hzskip : x.isZskip = false)
    (hfail : accessCheck (u.bay b) cx m.ctx (siteOf u b m.ctx f) x (effAddr m off n) n vector store = some (code, d)) :
    fireOp c f kind op asked true off (some (n, vector, store)) n0 n1 s = .next (slotFault code d b m u) := by
  rw [fireOp, fireSlot_ready h, hscope.scopeOf_eq]
  simp only [hx, if_true, Option.any_some, hpoison, Bool.false_eq_true, if_false, hcx, hzskip, Bool.not_false, Option.map_some,
    Option.getD_some, hfail]

/-- A unit of a ZSKIP store meets a guard (R170, R178). -/
theorem fireOp_guardFault {n : Nat} {vector : Bool} {e : Nat × Guard} (hzskip : x.isZskip = true)
    (hhit : zskipGuard (u.bay b) m.ctx (siteOf u b m.ctx f) x (valVec (m.b.getD noTok).val) = some e) :
    fireOp c f kind op asked true off (some (n, vector, true)) n0 n1 s =
      .next (slotFault 0x13 (word e.1, word (siteNo cx (siteOf u b m.ctx f)), 4, word (siteNo cx e.2.site)) b m u) := by
  rw [fireOp, fireSlot_ready h, hscope.scopeOf_eq]
  simp only [hx, if_true, Option.any_some, hpoison, Bool.false_eq_true, if_false, hcx, hzskip, Bool.not_true, Option.map_some, hhit]

end Faults

/-! ## The members, as what fires them (R184, R194) -/

section Members

variable {c : Common} {f : FormM} {s : State} {i : Instr}

/-- The slot is an operation of the wave: whether it asks the scope policy, and whether it names a site. -/
def FiresOp (asked named : Bool) (c : Common) (f : FormM) (i : Instr) (s : State) : Prop :=
  ∃ kind op off chk n0 n1, exec i s = fireOp c f kind op asked named off chk n0 n1 s

theorem exec_load (hi : i ∈ [Instr.ld c f, .ldv c f, .ldo c f]) : ∃ kind op, exec i s = fireAccess c f kind op false s := by
  simp only [List.mem_cons, List.not_mem_nil, or_false] at hi
  rcases hi with rfl | rfl | rfl <;> exact ⟨_, _, rfl⟩

theorem exec_store (hi : i ∈ [Instr.st c f, .stv c f, .sto c f]) : ∃ kind op, exec i s = fireAccess c f kind op true s := by
  simp only [List.mem_cons, List.not_mem_nil, or_false] at hi
  rcases hi with rfl | rfl | rfl <;> exact ⟨_, _, rfl⟩

/-- The atomics. -/
def atomicSlots (c : Common) (f : FormM) : List Instr :=
  [.aadd c f, .amin c f, .amax c f, .aand c f, .aor c f, .axor c f, .axch c f, .acas c f, .ainc c f, .adec c f, .faadd c f]

theorem exec_atomic (hi : i ∈ atomicSlots c f) : ∃ op, exec i s = fireAtomic c f op s := by
  simp only [atomicSlots, List.mem_cons, List.not_mem_nil, or_false] at hi
  rcases hi with rfl | rfl | rfl | rfl | rfl | rfl | rfl | rfl | rfl | rfl | rfl <;> exact ⟨_, rfl⟩

theorem fireAccess_firesOp {kind : OpKind} {op : Nat} {store : Bool} (he : exec i s = fireAccess c f kind op store s) :
    FiresOp (f.ord != .plain) true c f i s := ⟨_, _, _, _, _, _, he⟩

theorem access_firesOp (hi : i ∈ [Instr.ld c f, .st c f, .ldv c f, .stv c f, .ldo c f, .sto c f]) :
    FiresOp (f.ord != .plain) true c f i s := by
  simp only [List.mem_cons, List.not_mem_nil, or_false] at hi
  rcases hi with rfl | rfl | rfl | rfl | rfl | rfl <;> exact fireAccess_firesOp rfl

theorem group_firesOp (hi : i ∈ [Instr.ldg c f, .stg c f]) : FiresOp (f.ord != .plain) false c f i s := by
  simp only [List.mem_cons, List.not_mem_nil, or_false] at hi
  rcases hi with rfl | rfl
  · exact ⟨.ldg, 0x8C, off8 f, some (c.ty.size, c.w, false), zeroVal c.w false, .sc 0, rfl⟩
  · exact ⟨.stg, 0x8D, off8 f, some (c.ty.size, c.w, true), .ct 0, .sc 0, rfl⟩

/-- The slots that name a site and ask the policy whatever their order. -/
theorem asking_firesOp (hi : i ∈ [Instr.sflush c f, .srel c f] ++ atomicSlots c f) : FiresOp true true c f i s := by
  simp only [List.cons_append, List.nil_append, List.mem_cons] at hi
  rcases hi with rfl | rfl | hi
  · exact ⟨.sflush, 0x90, 0, none, .ct 0, .ct 0, rfl⟩
  · exact ⟨if firesStoreSite f s then .srelStore else .srel, 0x92, 0, none, .ct 0, .ct 0, rfl⟩
  · obtain ⟨op, he⟩ := exec_atomic (s := s) hi
    exact ⟨.atomic, op, off5 f, some (c.ty.size, false, false), .sc 0, .ct 0, he⟩

theorem fence_firesOp : FiresOp true false c f (.fence c f) s :=
  ⟨.fence (f.ord == .acq || f.ord == .ar) (f.ord == .rel || f.ord == .ar), 0x94, 0, none, .ct 0, .ct 0, rfl⟩

variable {asked named : Bool} {b : Nat} {m : MSet} (h : Ready c b m s)

include h

theorem FiresOp.scopeFault {d : Word × Word × Word × Word} (hop : FiresOp true named c f i s)
    (hd : scopeOf s.taken b m (Scope.code f.scope) = .error d) : exec i s = .next (slotFault 0x19 d b m s.taken) := by
  obtain ⟨kind, op, off, chk, n0, n1, he⟩ := hop
  exact he.trans (fireOp_scopeFault h hd)

theorem FiresOp.poisonFault {scope : Nat} {u : State} {x : Site} (hop : FiresOp asked true c f i s)
    (hscope : ScopeGiven asked f b m s.taken scope u) (hx : u.site? b (siteOf u b m.ctx f) = some x) (hpoison : x.poison = true) :
    exec i s = .next (slotFault 0x20 (locWord 3 x.node, 0, 0, 0) b m u) := by
  obtain ⟨kind, op, off, chk, n0, n1, he⟩ := hop
  exact he.trans (fireOp_poisonFault h hscope hx hpoison)

end Members

/-- Settles O26: the checks of a firing slot in their order: the policy, the site's poison, the access. -/
theorem memorySlotFaults : Obligations.MemorySlotFaults := by
  unfold Obligations.MemorySlotFaults
  intro c f b m s h t k faultsOn faults policy admits named n a a5 atomics
  have ha : a = effAddr m (off8 f) n := (effAddr_eq ..).symm
  have ha5 : a5 = effAddr m (off5 f) c.ty.size := (effAddr_eq ..).symm
  have hgiven {u : State} (hu : admits u) : ∃ scope, ScopeGiven (f.ord != .plain) f b m s.taken scope u := by
    by_cases hord : f.ord = .plain
    · exact ⟨_, scopeGiven_of_ord ((if_pos hord).mpr ⟨(if_pos hord).mp hu, rfl⟩)⟩
    · obtain ⟨scope, hs⟩ := (if_neg hord).mp hu
      exact ⟨scope, scopeGiven_of_ord ((if_neg hord).mpr hs)⟩
  refine ⟨fun d hd hord i hi => ?scope, fun d hd i hi => ?policy, fun x hx hpoison => ?sinv, fun u x hu hx hpoison i hi => ?access,
    fun u x hu hx hpoison i hi => ?asking, fun u x cx code d hx hpoison hzskip hcx =>
    ⟨fun hu hfail i hi => ?loads, fun hu hfail i hi => ?stores, fun hu hfail i hi => ?atomics⟩,
    fun u x cx e hu hx hpoison hzskip hcx hhit i hi => ?guard⟩
  case scope =>
    have hasked : (f.ord != .plain) = true := bne_iff_ne.2 hord
    rcases List.mem_append.1 (show i ∈ [Instr.ld c f, .st c f, .ldv c f, .stv c f, .ldo c f, .sto c f] ++ [.ldg c f, .stg c f] from hi)
      with hi | hi
    · exact (hasked ▸ access_firesOp hi).scopeFault h hd
    · exact (hasked ▸ group_firesOp hi).scopeFault h hd
  case policy =>
    have hi : i = .fence c f ∨ i ∈ [Instr.sflush c f, .srel c f] ++ atomicSlots c f := by
      simp only [List.cons_append, List.nil_append, List.mem_cons] at hi ⊢
      tauto
    rcases hi with rfl | hi
    · exact fence_firesOp.scopeFault h hd
    · exact (asking_firesOp hi).scopeFault h hd
  case sinv =>
    have hop : FiresOp false true c f (.sinv c f) s := ⟨.sinv, 0x91, 0, none, .ct 0, .ct 0, rfl⟩
    exact hop.poisonFault h (scope := Scope.code f.scope) ⟨rfl, rfl⟩ hx hpoison
  case access =>
    obtain ⟨scope, hscope⟩ := hgiven hu
    exact (access_firesOp hi).poisonFault h hscope hx hpoison
  case asking =>
    obtain ⟨scope, hscope⟩ := hu
    exact (asking_firesOp hi).poisonFault (asked := true) h hscope hx hpoison
  case loads =>
    obtain ⟨scope, hscope⟩ := hgiven hu
    obtain ⟨kind, op, he⟩ := exec_load (s := s) hi
    exact he.trans (fireOp_checkFault h hscope hx hpoison hcx hzskip (ha ▸ hfail))
  case stores =>
    obtain ⟨scope, hscope⟩ := hgiven hu
    obtain ⟨kind, op, he⟩ := exec_store (s := s) hi
    exact he.trans (fireOp_checkFault h hscope hx hpoison hcx hzskip (ha ▸ hfail))
  case atomics =>
    obtain ⟨scope, hscope⟩ := hu
    obtain ⟨op, he⟩ := exec_atomic (s := s) hi
    exact he.trans (fireOp_checkFault (asked := true) h hscope hx hpoison hcx hzskip (ha5 ▸ hfail))
  case guard =>
    obtain ⟨scope, hscope⟩ := hgiven hu
    obtain ⟨kind, op, he⟩ := exec_store (s := s) hi
    exact he.trans (fireOp_guardFault h hscope hx hpoison hcx hzskip hhit)

end Sys2Proof.Machine

/-!
Proof of the statement about memory requests (MemoryRequests): what a home answers, what a reply does at its requester, and the
engines of a site.
-/
namespace Sys2Proof.Machine

open Sys2Proof

/-! ## A request at its home (R172, R182, R195) -/

section Home

variable {home : Nat} {p : Packet} {s : State}

theorem exec_mreq_read (hop : p.body 220 4 = 0) : exec (.mreq home p) s =
    .next (s.sendRep home (mrepRead p (homeRead s (homeLoc s home p).enc (homeLoc s home p).key (p.body 204 8 + 1))
      ((List.range (p.body 204 8 + 1)).filter fun i => s.poisoned ((homeLoc s home p).key + i) 1))) := by
  change execMreq home p s = _
  simp only [execMreq, hop]

theorem exec_mreq_write (hop : p.body 220 4 = 1) : exec (.mreq home p) s =
    .next ((noteDirty (homeWrite s (homeLoc s home p).enc (homeLoc s home p).key (p.bytes.take (p.body 204 8 + 1))
      (p.badBytes (p.body 204 8 + 1))) p.ctx (homeLoc s home p) (p.body 204 8 + 1)).sendRep home (mrepOf p 0 0 [] false)) := by
  change execMreq home p s = _
  simp only [execMreq, hop]

theorem exec_mreq_atomic (hop : p.body 220 4 = 2) :
    exec (.mreq home p) s = .next (homeAtomic s home (homeLoc s home p) (p.body 204 8 + 1) p) := by
  change execMreq home p s = _
  simp only [execMreq, hop]

theorem exec_mreq_ldo (hop : p.body 220 4 = 3) :
    exec (.mreq home p) s = .next (homeLdo s home (homeLoc s home p) (p.body 204 8 + 1) p) := by
  change execMreq home p s = _
  simp only [execMreq, hop]

theorem exec_mreq_sto (hop : p.body 220 4 = 4) : exec (.mreq home p) s =
    .next (kickLdos ((performOnce s home p.ctx ((homeLoc s home p).key - loftKey home 0) (p.bytes.take (p.body 204 8 + 1))
      (p.badBytes (p.body 204 8 + 1))).sendRep home (mrepOf p 0 0 [] false))) := by
  change execMreq home p s = _
  simp only [execMreq, hop]

variable {l : Loc} {n : Nat}

theorem homeAtomic_of_poisoned (hp : s.poisoned l.key n = true) :
    homeAtomic s home l n p = s.sendRep home (mrepOf p 1 0 [] false) := by
  simp only [homeAtomic, hp, if_true]

theorem homeAtomic_of_sound (hp : s.poisoned l.key n = false) : homeAtomic s home l n p =
    (noteDirty (homeWrite s l.enc l.key (leBytes n (atomicNew (if p.body 216 4 = 0 then 0xA0 else 0x90 + p.body 216 4)
      (Ty.ofCode (BitVec.ofNat 4 (p.body 212 4))) (packetRnd p) (packetSat p) (leNat (homeRead s l.enc l.key n)) (p.body 64 64)
      (p.body 0 64))) []) p.ctx l n).sendRep home (mrepOf p 0 (word (leNat (homeRead s l.enc l.key n))) [] false) := by
  simp only [homeAtomic, hp, Bool.false_eq_true, if_false]

theorem homeLdo_of_present (hp : present (s.bay home) p.ctx (l.key - loftKey home 0) = true) : homeLdo s home l n p =
    s.sendRep home (mrepOf p (if s.poisoned l.key n then 1 else 0) (word (leNat (s.readBytes l.key n))) [] false) := by
  simp only [homeLdo, hp, if_true, Bool.toNat, Bool.cond_eq_ite]

section Absent

variable (hp : present (s.bay home) p.ctx (l.key - loftKey home 0) = false)

include hp

/-- No request waits for the answer: it is given at once. -/
theorem homeLdo_of_unasked (hr : ∀ r, reqOf (s.bay p.src) p = some r → r.dead = true) :
    homeLdo s home l n p = s.sendRep home (mrepOf p 0 0 [] false) := by
  have hall : (reqOf (s.bay p.src) p).all (·.dead) = true := (Option.all_eq_true ..).2 hr
  simp only [homeLdo, hp, hall, Bool.false_eq_true, if_false, if_true]

variable {r : Req} (hr : reqOf (s.bay p.src) p = some r) (hdead : r.dead = false)

include hr hdead

/-- The node's list is full. -/
theorem homeLdo_of_full (hfull : Config.readersPerNode ≤
      ((s.bay home).readers.filter fun r => r.node == nodeOf (l.key - loftKey home 0)).length) : homeLdo s home l n p = bounceLdo s p := by
  simp only [homeLdo, hp, hr, hdead, listFull, Option.all_some, hfull, Bool.false_eq_true, if_false, Bool.not_false, Bool.true_and,
    decide_true, if_true]

/-- The list has an entry free. -/
theorem homeLdo_of_room (hroom :
      ((s.bay home).readers.filter fun r => r.node == nodeOf (l.key - loftKey home 0)).length < Config.readersPerNode) :
    homeLdo s home l n p = (s.modBay home fun y =>
      { y with readers := y.readers ++ [⟨nodeOf (l.key - loftKey home 0), p.ctx, l.key - loftKey home 0, p, r.va⟩] }).modBay p.src fun y =>
      { y with reqs := y.reqs.map fun r => if r.isOf p then { r with deferred := true } else r } := by
  simp only [homeLdo, hp, hr, hdead, listFull, Option.all_some, Nat.not_le.2 hroom, Bool.false_eq_true, if_false, Bool.not_false,
    Bool.true_and, decide_false, Option.bind_some]

end Absent

/-- The request that a packet names leaves its bay, and the windows let out what they can. -/
def dropReqOf (s : State) (p : Packet) : State :=
  pumpReqs (s.modBay p.src fun y => { y with reqs := y.reqs.filter fun q => !q.isOf p }) p.src

/-- The reader goes back to wait in its operation's site. -/
theorem bounceLdo_of_op {r : Req} {g ix lsid : Nat} {o : MemOp} (hr : reqOf (s.bay p.src) p = some r) (hg : r.goal = .op g ix lsid)
    (ho : opOf (dropReqOf s p) p.src ⟨g, ix, lsid⟩ = some o) :
    bounceLdo s p = addWaiter (dropReqOf s p) p.src (siteOf (dropReqOf s p) p.src r.ctx o.f) ⟨g, ix, lsid⟩ := by
  unfold dropReqOf at ho ⊢
  simp only [bounceLdo, hr, hg, ho]

/-- A word written once: the bytes given, zeros beside them. -/
theorem performOnce_eq (ctx o : Nat) (bs : List Byte) (poi : List Bool) : performOnce s home ctx o bs poi =
    answerReaders ((noteDirty (homeWrite s none (loftKey home (o / 32 * 32))
      ((List.range 32).map fun i => if o % 32 ≤ i ∧ i < o % 32 + bs.length then bs.getD (i - o % 32) 0 else 0)
      ((List.range 32).map fun i => decide (o % 32 ≤ i) && decide (i < o % 32 + bs.length) && poi.getD (i - o % 32) false)) ctx
        ⟨loftKey home (o / 32 * 32), home, 0, 0, 2, 0, none⟩ 32).modBay home fun y => setPresent y ctx (o / 32 * 32))
      home ctx (o / 32 * 32) := by
  simp only [performOnce, Bool.and_eq_true, decide_eq_true_eq]

end Home

/-! ## A reply at its requester (R183) -/

section Requester

variable {b : Nat} {p : Packet} {s : State} {r : Req} (hr : reqOf (s.bay b) p = some r)

include hr

theorem exec_mrep_dead (hdead : r.dead = true) : exec (.mrep b p) s = .next (closeReq s b r p.echo) := by
  change execMrep b p s = _
  simp only [execMrep, hr, hdead, if_true]

variable (hdead : r.dead = false)

include hdead

/-- Fill data goes on to its buffer. -/
theorem exec_mrep_fill {k i o n : Nat} (hg : r.goal = .fill k i o n) :
    exec (.mrep b p) s = .next (s.send (.fillDataArrive b k i p)) := by
  change execMrep b p s = _
  simp only [execMrep, hr, hdead, hg, Bool.false_eq_true, if_false]

theorem exec_mrep_store {g ix : Nat} (hg : r.goal = .store g ix) : exec (.mrep b p) s = .next (closeReq s b r p.echo) := by
  change execMrep b p s = _
  simp only [execMrep, hr, hdead, hg, Bool.false_eq_true, if_false]

theorem exec_mrep_back {k i : Nat} (hg : r.goal = .back k i) :
    exec (.mrep b p) s = .next (kick (backDone (closeReq s b r p.echo) b k i) b) := by
  change execMrep b p s = _
  simp only [execMrep, hr, hdead, hg, Bool.false_eq_true, if_false]

theorem exec_mrep_tile {isl q n o : Nat} (hg : r.goal = .tile isl q n o) : exec (.mrep b p) s =
    .next (placePiece (closeReq s b r p.echo) b isl q n o (p.bytes.take (r.pkt.body 204 8 + 1)) (p.badBytes (r.pkt.body 204 8 + 1))) := by
  change execMrep b p s = _
  simp only [execMrep, hr, hdead, hg, Bool.false_eq_true, if_false]

theorem exec_mrep_op {g ix lsid : Nat} {o : MemOp} (hg : r.goal = .op g ix lsid) (hdef : r.deferred = false)
    (ho : opOf (closeReq s b r p.echo) b ⟨g, ix, lsid⟩ = some o)
    (hkeep : (badReply p && frozenInst (closeReq s b r p.echo) b g ix) = false) :
    exec (.mrep b p) s = .next (kick (opReply (closeReq s b r p.echo) b g ix o p) b) := by
  change execMrep b p s = _
  simp only [execMrep, hr, hdead, hg, hdef, ho, hkeep, Bool.false_and, Bool.false_eq_true, if_false]

/-- Data without a fault goes into the fill's buffer (R164). -/
theorem exec_fillDataArrive {k i j o n : Nat} {x : Site} (hg : r.goal = .fill k i o n) (hx : s.site? b k = some x)
    (hstat : p.body 220 4 ≠ 2) :
    exec (.fillDataArrive b k j p) s =
      .next (fillPiece (closeReq s b r p.echo) b k j o (p.bytes.take n) (p.badBytes n)) := by
  change execFillDataArrive b k j p s = _
  simp only [execFillDataArrive, hr, hdead, hg, hx, hstat, Bool.false_eq_true, if_false]

end Requester

theorem opReply_load {b g ix : Nat} {o : MemOp} {p : Packet} {s : State} {x : Site} {d : Bool} (hload : o.kind = .load)
    (hx : s.site? b (siteOf s b (ctxOf s b g ix) o.f) = some x) (hstat : p.body 220 4 ≠ 2) : opReply s b g ix o p d =
      finishLoad s b x ⟨g, ix, o.lsid⟩ o (p.bytes.take (if o.c.w then 128 else o.c.ty.size))
        (p.badBytes (if o.c.w then 128 else o.c.ty.size)) := by
  simp only [opReply, hx, hstat, hload, if_false]

/-! ## Site engines (R167, R174) -/

section Engines

variable {b k : Nat} {s : State} {x : Site}

theorem empty_of_canStream (h : canStream x = true) : (x.bufs.getD x.ringNext emptyBuf).st = .empty := by
  simp only [canStream, Bool.and_eq_true, beq_iff_eq] at h
  exact h.1.2

theorem exec_streamFetch (hx : s.site? b k = some x) (hcan : canStream x = true) (hin : x.lineInside (x.patternAt x.line) = true) :
    exec (.streamFetch b k) s = .next (
      let t := takeFill (s.modSite b k fun x => { x with line := x.line + 1 }) b k x.ringNext (x.patternAt x.line) x.line
      if ((t.site? b k).any fun y => (y.bufs.getD x.ringNext emptyBuf).left == 0) = true then fillsEnded t b else t) := by
  change execStreamFetch b k s = _
  simp only [execStreamFetch, hx, hcan, hin, Bool.not_true, Bool.false_eq_true, if_false]

theorem Site.count_of_lt {d : Nat} (h : x.latCnt < 63) : x.count d = { x with latCnt := x.latCnt + 1, latSum := x.latSum + d } := by
  rw [Site.count, if_pos (by omega)]

theorem Site.count_of_last {d : Nat} (h : x.latCnt = 63) :
    x.count d = { x with latCnt := 0, latSum := 0, means := x.means ++ [(x.latSum + d) / 64] } := by
  rw [Site.count, h, if_neg (by decide)]

@[simp] theorem State.site?_modSite {f : Site → Site} : (s.modSite b k f).site? b k = (s.site? b k).map f := by
  rw [State.site?, State.modSite, State.bay_modBay, AMap.get?_upd_self]
  rfl

/-- A depth's step stays within its bounds and goes one toward the target, unless a bound is met (R174). -/
theorem stepToward_spec {cur want lo hi : Nat} (hlo : lo ≤ cur) (hhi : cur ≤ hi) :
    let next := stepToward cur want lo hi
    lo ≤ next ∧ next ≤ hi ∧ (cur < want → cur < hi → next = cur + 1) ∧ (want < cur → lo < cur → next = cur - 1) ∧
      (cur = want → next = cur) := by
  simp only [stepToward]
  split
  · omega
  · split <;> omega

theorem exec_depUpdate {l : Nat} {ms : List Nat} (hx : s.site? b k = some x) (hm : x.means = l :: ms) :
    ∃ u, exec (.depUpdate b k) s = .next u ∧
      u.site? b k = some { x with dep := stepToward x.dep ((l + 31) / 32) x.dmin x.dmax, means := ms } := by
  refine ⟨_, rfl, ?_⟩
  rw [State.site?_modSite, hx, Option.map_some, hm]

end Engines

/-- Settles O38: a request by its OPC, an ldo by who waits and what room there is, a reply by what asked, a site by its ring. -/
theorem memoryRequests : Obligations.MemoryRequests := by
  unfold Obligations.MemoryRequests
  refine ⟨fun home p s => ?home, fun b p s r hr => ?reply, fun b k s x hx hcan hin => ⟨empty_of_canStream hcan, exec_streamFetch hx hcan hin⟩,
    fun x d => ⟨Site.count_of_lt, Site.count_of_last⟩, fun b k s x l ms hx hm hlo hhi => ?depth⟩
  case home =>
    intro l n o
    refine ⟨exec_mreq_read, exec_mreq_write, fun hop hp => ?poisoned, fun hop hp => ?atomic, fun hop hp => ?present,
      fun hop hp => ⟨fun hr => ?unasked, fun r hr hdead => ⟨fun hfull => ?full, fun hroom => ?room⟩⟩, fun hop => ?sto⟩
    case poisoned => rw [exec_mreq_atomic hop, homeAtomic_of_poisoned hp]
    case atomic => rw [exec_mreq_atomic hop, homeAtomic_of_sound hp]
    case present => rw [exec_mreq_ldo hop, homeLdo_of_present hp]
    case unasked => rw [exec_mreq_ldo hop, homeLdo_of_unasked hp hr]
    case full =>
      intro u g ix lsid q hg hq
      rw [exec_mreq_ldo hop, homeLdo_of_full hp hr hdead hfull]
      exact congrArg _ (bounceLdo_of_op hr hg hq)
    case room => rw [exec_mreq_ldo hop, homeLdo_of_room hp hr hdead hroom]
    case sto => rw [exec_mreq_sto hop, performOnce_eq]
  case reply =>
    intro t
    refine ⟨exec_mrep_dead hr, fun hdead => ⟨fun k i o n hg => ⟨exec_mrep_fill hr hdead hg, fun x j hx hstat =>
      exec_fillDataArrive hr hdead hg hx hstat⟩, fun g ix => exec_mrep_store hr hdead, fun k i => exec_mrep_back hr hdead,
      fun isl q n o => exec_mrep_tile hr hdead, fun g ix lsid o x hg hdef ho hload hx hstat hpoi hmarks => ?load⟩⟩
    have hkeep : (badReply p && frozenInst t b g ix) = false := by
      rcases hmarks with hmarks | hfrozen
      · simp [badReply, hstat, hpoi, hmarks]
      · rw [hfrozen, Bool.and_false]
    rw [exec_mrep_op hr hdead hg hdef ho hkeep, opReply_load hload hx (by omega)]
  case depth =>
    intro want
    obtain ⟨u, he, hu⟩ := exec_depUpdate hx hm
    exact ⟨u, _, he, hu, rfl, stepToward_spec hlo hhi⟩

end Sys2Proof.Machine

/-!
Proof of the statement about translations and shootdowns (Translations).
-/
namespace Sys2Proof.Machine

open Sys2Proof

/-! ## A translation, by what asked for it (R175, R193, R194, R341) -/

section Translate

variable {b id : Nat} {s : State} {q : XReq} (hq : (s.bay b).xreqs.find? (fun q => q.id == id) = some q) (hparked : q.parked = false)
  (hheld : q.held = false)

include hq hparked hheld

theorem exec_translate_fill {k i : Nat} (hg : q.goal = .fill k i) : exec (.translate b id) s = .next (xlatFill s b id k i) := by
  change execTranslate b id s = _
  simp only [execTranslate, hq, hparked, hheld, hg, Bool.or_self, Bool.false_eq_true, if_false]

theorem exec_translate_op {g ix l : Nat} {o : MemOp} (hg : q.goal = .op g ix l) (ho : opOf s b ⟨g, ix, l⟩ = some o) :
    exec (.translate b id) s = .next (kick (xlatOp s b id g ix o) b) := by
  change execTranslate b id s = _
  simp only [execTranslate, hq, hparked, hheld, hg, ho, Bool.or_self, Bool.false_eq_true, if_false]

theorem exec_translate_xlat {el sl g ix : Nat} {c : Common} (hg : q.goal = .xlat el sl g ix c) :
    exec (.translate b id) s = .next (xlatValue s b id g ix q.va q.write q.ctx c) := by
  change execTranslate b id s = _
  simp only [execTranslate, hq, hparked, hheld, hg, Bool.or_self, Bool.false_eq_true, if_false]

end Translate

/-- The read of one piece of a line: its home, its place in the line and its length (R175). -/
def pieceRead (s : State) (b k i : Nat) (x : Site) (e : Loc × (Nat × Nat × Nat)) : Req :=
  { unit := x.node, rqid := 0, home := e.1.homeNo, pkt := reqPacket b x.ctx e.1 0 0 0 e.2.2.2 x.node 1 0 0, sent := false
    goal := .fill k i e.2.2.1 e.2.2.2, since := (s.bay b).clk, ctx := x.ctx, deferred := false
    dead := false, va := if x.phys then none else some e.2.1 }

/-- A line that meets no guard and translates whole becomes its reads. -/
theorem xlatFill_of_ok {b id k i : Nat} {s t : State} {x : Site} {ls : List (Loc × (Nat × Nat × Nat))} (hx : s.site? b k = some x)
    (hguard : lineGuard (s.bay b) x.ctx k x (x.bufs.getD i emptyBuf).line = none)
    (hls : translatePieces b (k - ((s.ctx? b x.ctx).map (·.siteBase)).getD 0) x (x.pieces (x.bufs.getD i emptyBuf).line) s = .ok ls t) :
    xlatFill s b id k i = ls.foldl (fun u e => issueReq u b (pieceRead u b k i x e))
      (modBuf (dropXreq t b id) b k i fun u => { u with left := ls.length }) := by
  simp only [xlatFill, hx, hguard, hls]
  rfl

/-! ## What an xlat delivers (R193) -/

section XlatValue

variable {s : State} {b id g ix va ctx : Nat} {wr : Bool} {c : Common}

/-- What an xlat asks of its page. -/
def xlatNeed (wr : Bool) : Need := { (if wr then needW else needR) with kinds := [0, 2] }

/-- The two results of an xlat go to its targets in the hitch named by `hn`. -/
def sendXlat (u : State) (b g ix hn ctx : Nat) (c : Common) (v w : Token) : State :=
  (u.sendTarget b g ix hn ctx xlatSrc c.t0 v).sendTarget b g ix hn ctx xlatSrc c.t1 w

theorem xlatValue_of_ok {l : Loc} {t : State} (h : translateVa s b ctx va (xlatNeed wr) = .ok l t) : xlatValue s b id g ix va wr ctx c =
    sendXlat (dropXreq t b id) b g ix (((s.inst? b g ix).map (·.hnum)).getD 0) ctx c (scTok (word l.pa)) (nullOn (.sc 0)) := by
  unfold xlatNeed at h
  simp only [xlatValue, h]
  rfl

theorem xlatValue_of_fault {code lvl : Nat} (h : translateVa s b ctx va (xlatNeed wr) = .fault code lvl) :
    xlatValue s b id g ix va wr ctx c =
      sendXlat (dropXreq s b id) b g ix (((s.inst? b g ix).map (·.hnum)).getD 0) ctx c (nullOn (.sc 0)) (scTok (word code)) := by
  unfold xlatNeed at h
  simp only [xlatValue, h]
  rfl

theorem xlatValue_of_busy (h : translateVa s b ctx va (xlatNeed wr) = .busy) : xlatValue s b id g ix va wr ctx c = s := by
  unfold xlatNeed at h
  simp only [xlatValue, h]

theorem xlatValue_of_park (h : translateVa s b ctx va (xlatNeed wr) = .park) : xlatValue s b id g ix va wr ctx c = parkXreq s b id := by
  unfold xlatNeed at h
  simp only [xlatValue, h]

end XlatValue

/-! ## Shootdowns (R343, R344) -/

/-- A command with the next SSEQ, its zero field zero and no shootdown under way begins one. -/
theorem shootStart_begins {n kind : Nat} {cmd : Word} {s : State} (hn : n < Config.parts)
    (hseq : bits cmd 32 32 = ((s.part n).shootDone + 1) % 2 ^ 32) (hzero : bits cmd 28 4 = 0) (hnone : (s.part n).shoot = none)
    (hkind : bits cmd 26 2 = kind) : shootStart kind n cmd s =
      (shootOn (s.modPart n fun p => { p with shoot := some ⟨bits cmd 32 32, kind, p.shootVa.toNat, bits cmd 0 26⟩ }) n).2 := by
  exact if_neg (by simp [hseq, hzero, hnone, hkind, hn])

/-- A bay's TLB keeps no entry that the shootdown covers. -/
theorem shootBay_tlb {n : Nat} {k : Shoot} {r : Bool × State} {b : Nat} {e : TlbEnt} (he : e ∈ ((shootBay n k r b).2.bay b).tlb)
    (hpart : e.part = n) : k.covers e.base e.size = false := by
  rw [shootBay, State.bay_modBay, tlbShoot, List.mem_filter] at he
  simpa [hpart] using he.2

/-- A shootdown whose write-backs are done and whose accesses are performed is complete. -/
theorem exec_shootdownComplete {n : Nat} {s t : State} {k : Shoot} (hk : (s.part n).shoot = some k) (hon : shootOn s n = (true, t))
    (hdone : accessesDone t n k = true) : exec (.shootdownComplete n) s = .next (
      let u := if k.kind = 1 then t.bayNos.foldl (flushFull n k) t else t
      let v := u.modPart n fun p =>
        { p with
          shoot := none, parked := [], shootDone := k.sseq
          shootStat := (if onceWaits t n k then 1 else 0) +
            (if (t.part n).launches.any fun l => l.image.any fun i => imageHolds k i then 2 else 0) }
      let w := v.bayNos.foldl (unpark n) v
      w.bayNos.foldl kick w) := by
  change execShootdownComplete n s = _
  simp only [execShootdownComplete, hk, hon, hdone, Bool.and_self, if_true, Bool.toNat, Bool.cond_eq_ite, mul_ite, Nat.mul_one,
    Nat.mul_zero]

/-- Settles O50: a translation by its goal and by what its walk comes to, a shootdown by its start, its sweep of a bay and its end. -/
theorem translations : Obligations.Translations := by
  unfold Obligations.Translations
  refine ⟨fun b id s q hq hparked hheld => ?serves, fun n cmd s hn hseq hzero hnone => ?begins, fun n k s b e he hpart => shootBay_tlb he hpart,
    fun n s k t => exec_shootdownComplete⟩
  case serves =>
    intro taken
    refine ⟨fun k i x ls t hg hx => ?fill, fun g ix l o hg ho => exec_translate_op hq hparked hheld hg ho, fun el sl g ix c hg => ?xlat⟩
    case fill =>
      intro line hguard hls
      rw [exec_translate_fill hq hparked hheld hg, xlatFill_of_ok hx hguard hls]
      rfl
    case xlat =>
      intro hn out need
      have hexec := exec_translate_xlat hq hparked hheld hg
      exact ⟨fun loc t h => hexec.trans (congrArg _ (xlatValue_of_ok h)), fun code lvl h => hexec.trans (congrArg _ (xlatValue_of_fault h)),
        fun h => hexec.trans (congrArg _ (xlatValue_of_busy h)), fun h => hexec.trans (congrArg _ (xlatValue_of_park h))⟩
  case begins =>
    intro begun
    have hstart {kind : Nat} (hkind : bits cmd 26 2 = kind) : Host.Outcome.next (shootStart kind n cmd s) = begun kind :=
      congrArg _ (shootStart_begins hn hseq hzero hnone hkind)
    exact ⟨hstart, hstart, hstart⟩

end Sys2Proof.Machine

/-!
Proof of the statement about the device-wide state (OnlyBy).
-/
namespace Sys2Proof.Machine

open Sys2Proof

/-! ## What a step changes beside the instruction it runs (R9, R17, R319, R379) -/

/-- The fields that taking up a candidate and what follows it may change, whatever it runs. -/
def aroundRun : List Field := [.bays, .parts, .pf, .flight, .inputs, .fire]

/-- The fields that the passing of time may change. -/
def byTime : List Field := [.poison, .pkgBad, .bays, .parts, .pf, .chans, .ecc, .flight, .picks, .upsets, .freeCtr]

/-- One field alone. -/
def oneField (f g : Field) : Bool := decide (g = f)

theorem freeAll_oneField {f : Field} {l : List Field} (h : f ∉ l) : FreeAll (oneField f) l :=
  freeAll_of fun _ hg => decide_eq_false fun he => h (he ▸ hg)

theorem Field.same_self (f : Field) (s : State) : f.same s s := by cases f <;> rfl

theorem kept_self {K : Field → Bool} {s : State} : Kept K s s := ⟨id, fun f _ => f.same_self s⟩

theorem Kept.same_one {f : Field} {o s : State} (h : Kept (oneField f) o s) : f.same o s := h.same f (decide_eq_true rfl)

/-- The chosen candidate runs an instruction of which `p` holds. -/
def RunsSome (s : State) (p : Instr → Prop) : Prop :=
  ∃ c i u, chosen s = some c ∧ Cand.start (tick s) c = (some i, u) ∧ p i

theorem RunsSome.imp {s : State} {p q : Instr → Prop} (h : RunsSome s p) (hpq : ∀ i, p i → q i) : RunsSome s q := by
  obtain ⟨c, i, u, hc, hu, hp⟩ := h
  exact ⟨c, i, u, hc, hu, hpq i hp⟩

theorem tick_same {f : Field} (hf : f ∉ byTime) (s : State) : f.same s (tick s) := by
  obtain ⟨_, _, _, _, _, _, _, _, _, _, _, _⟩ := freeAll_oneField hf
  exact (tick_kept kept_self).same_one

/-- A field that a step changes beyond the passing of time is one that the instruction it runs may change. -/
theorem step_same_tick_or_runs {f : Field} (hf : f ∉ aroundRun) {s t : State} (h : step s = .next t) :
    f.same (tick s) t ∨ RunsSome s fun i => f ∈ touches i := by
  obtain ⟨_, _, _, _, _, _, _⟩ := freeAll_oneField hf
  have hstart {c : Cand} {i : Option Instr} {u : State} (hu : Cand.start (tick s) c = (i, u)) : Kept (oneField f) (tick s) u :=
    pair_kept hu (Cand.start_kept kept_self)
  obtain ⟨-, rfl⟩ | ⟨c, u, -, hu, rfl⟩ | ⟨c, i, u, v, hc, hu, hv, rfl⟩ := step_cases h
  · exact .inl (f.same_self _)
  · exact .inl ((Cand.finish_kept (hstart hu)).same_one)
  · by_cases hi : f ∈ touches i
    · exact .inr ⟨c, i, u, hc, hu, hi⟩
    · have hexec := exec_kept (freeAll_oneField hi) (hstart hu) v hv
      exact .inl ((Cand.finish_kept hexec).same_one)

/-- What time and the taking up leave alone changes only by the instruction that runs. -/
theorem runs_of_not_same {f : Field} (ht : f ∉ byTime) (hf : f ∉ aroundRun) {s t : State} (h : step s = .next t)
    (hne : ¬ f.same s t) : RunsSome s fun i => f ∈ touches i := by
  refine (step_same_tick_or_runs hf h).resolve_left fun hsame => hne ?_
  have htick := tick_same ht s
  cases f <;> exact Eq.trans hsame htick

/-! ## Which instruction may change a field of the device as a whole -/

section Touches

variable {i : Instr}

theorem eq_of_boot_mem_touches (h : .boot ∈ touches i) : i = .boot := by
  cases i with
  | boot => rfl
  | _ => simp [touches] at h

theorem eq_of_link_mem_touches (h : .link ∈ touches i) : i = .linkDown ∨ i = .linkUp := by
  cases i with
  | linkDown => exact .inl rfl
  | linkUp => exact .inr rfl
  | _ => simp [touches] at h

theorem eq_of_devnum_mem_touches (h : .devnum ∈ touches i) : ∃ a v, i = .registerWrite a v := by
  cases i with
  | registerWrite a v => exact ⟨a, v, rfl⟩
  | _ => simp [touches] at h

theorem eq_of_offline_mem_touches (h : .offline ∈ touches i) : ∃ b off, i = .markOffline b off := by
  cases i with
  | markOffline b off => exact ⟨b, off, rfl⟩
  | _ => simp [touches] at h

theorem eq_of_dieop_mem_touches (h : .dieop ∈ touches i) :
    (∃ d v, i = .dieopWrite d v) ∨ ∃ d, i = .operatingPointSettled d := by
  cases i with
  | dieopWrite d v => exact .inl ⟨d, v, rfl⟩
  | operatingPointSettled d => exact .inr ⟨d, rfl⟩
  | _ => simp [touches] at h

theorem eq_of_bridgeLost_mem_touches (h : .bridgeLost ∈ touches i) : ∃ col, i = .bridgeLinkDown col := by
  cases i with
  | bridgeLinkDown col => exact ⟨col, rfl⟩
  | _ => simp [touches] at h

theorem eq_of_spliceDown_mem_touches (h : .spliceDown ∈ touches i) :
    (∃ p, i = .spliceLinkDown p) ∨ ∃ p, i = .spliceLinkUp p := by
  cases i with
  | spliceLinkDown p => exact .inl ⟨p, rfl⟩
  | spliceLinkUp p => exact .inr ⟨p, rfl⟩
  | _ => simp [touches] at h

theorem eq_of_chans_mem_touches (h : .chans ∈ touches i) :
    (∃ n c v, i = .spliceBindingWrite n c v) ∨ (∃ p, i = .spliceLinkDown p) ∨ ∃ p, i = .spliceLinkUp p := by
  cases i with
  | spliceBindingWrite n c v => exact .inl ⟨n, c, v, rfl⟩
  | spliceLinkDown p => exact .inr (.inl ⟨p, rfl⟩)
  | spliceLinkUp p => exact .inr (.inr ⟨p, rfl⟩)
  | _ => simp [touches] at h

end Touches

/-! ## Channels as time passes (R319) -/

/-- A channel but for whether it is UP: its number, what binds it, whether its link has been lost. -/
def chanLink (e : Nat × Chan) : Nat × Word × Bool := (e.1, e.2.word, e.2.lost)

theorem chanLink_chanTick (n : Nat) (e : Nat × Chan) : chanLink (chanTick n e) = chanLink e := rfl

/-- A pipeline that stalls for its channel leaves the channels as they are. -/
theorem chansTick_chans (s : State) : (chansTick s).chans = s.chans.map (chanTick s.freeCtr) := by
  obtain ⟨_, _, _, _⟩ := freeAll_oneField (f := .chans) (l := [.bays, .parts, .pf]) (by decide)
  have hkept : Kept (oneField .chans) { s with chans := s.chans.map (chanTick s.freeCtr) } (chansTick s) :=
    foldl_kept (fun _ _ hu => chanBroken_kept hu) _ kept_self
  exact hkept.same_one

theorem tick_chans (s : State) : (tick s).chans = s.chans.map (chanTick s.freeCtr) := by
  obtain ⟨_, _, _, _, _, _, _, _, _, _, _⟩ := freeAll_oneField (f := .chans)
    (l := [.poison, .pkgBad, .bays, .parts, .pf, .ecc, .flight, .picks, .upsets, .freeCtr]) (by decide)
  have hkept : Kept (oneField .chans) (chansTick s) (tick s) := nextUpset_kept (kept_bays_picks_freeCtr kept_self)
  exact hkept.same_one.trans (chansTick_chans s)

/-- Time makes channels UP, or no longer UP, and changes nothing else of them. -/
theorem map_chanLink_tick (s : State) : (tick s).chans.map chanLink = s.chans.map chanLink := by
  rw [tick_chans, List.map_map]
  exact List.map_congr_left fun e _ => chanLink_chanTick s.freeCtr e

/-- Settles O60: what a step changes of a field beyond the passing of time, the instruction it runs may change (`runs_of_not_same`), and
which those are is read off `touches`; of the channels time changes only whether they are UP. -/
theorem onlyBy : Obligations.OnlyBy := by
  unfold Obligations.OnlyBy
  intro s t h through
  have hruns {f : Field} (ht : f ∉ byTime) (hf : f ∉ aroundRun) (hne : ¬ f.same s t) : through fun i => f ∈ touches i :=
    runs_of_not_same ht hf h hne
  refine ⟨fun hne => ?boot, fun hne => ?link, fun hne => ?devnum, fun hne => ?offline, fun hne => ?dieop, fun hne => ?bridgeLost,
    fun hne => ?spliceDown, fun hne => ?chans, fun a hne => ?mem⟩
  case boot => exact RunsSome.imp (hruns (f := .boot) (by decide) (by decide) hne) fun _ => eq_of_boot_mem_touches
  case link => exact RunsSome.imp (hruns (f := .link) (by decide) (by decide) hne) fun _ => eq_of_link_mem_touches
  case devnum => exact RunsSome.imp (hruns (f := .devnum) (by decide) (by decide) hne) fun _ => eq_of_devnum_mem_touches
  case offline => exact RunsSome.imp (hruns (f := .offline) (by decide) (by decide) hne) fun _ => eq_of_offline_mem_touches
  case dieop => exact RunsSome.imp (hruns (f := .dieop) (by decide) (by decide) hne) fun _ => eq_of_dieop_mem_touches
  case bridgeLost =>
    exact RunsSome.imp (hruns (f := .bridgeLost) (by decide) (by decide) hne) fun _ => eq_of_bridgeLost_mem_touches
  case spliceDown =>
    exact RunsSome.imp (hruns (f := .spliceDown) (by decide) (by decide) hne) fun _ => eq_of_spliceDown_mem_touches
  case chans =>
    refine RunsSome.imp ((step_same_tick_or_runs (f := .chans) (by decide) h).resolve_left fun hsame => hne ?_)
      fun _ => eq_of_chans_mem_touches
    change t.chans.map chanLink = s.chans.map chanLink
    rw [show t.chans = (tick s).chans from hsame, map_chanLink_tick]
  case mem => exact hruns (f := .mem) (by decide) (by decide) fun hsame => hne (byte_eq_of_mem_same hsame a)

end Sys2Proof.Machine

/-!
Proof of the statement about the Zahorn link, the records to the host, the host's accesses, offline bays and bridges (LinkAndRecords).
-/
namespace Sys2Proof.Machine

open Sys2Proof

/-! ## The link (R309, R313) -/

section Link

variable {s : State}

theorem exec_linkDown (h : s.link = 0) : exec .linkDown s = .next { s with link := 2, inputs := loseWrites s.inputs } := by
  change execLinkDown s = _
  rw [execLinkDown, if_pos h]

/-- The link is up again: the loss is counted in every partition and in the physical function. -/
def linkBackAll (s : State) : State :=
  { s with link := 0, pf := s.pf.linkBack, parts := s.parts.map fun e => if e.2.en then (e.1, e.2.linkBack) else e }

/-- The partitions with a configuration loaded. -/
def loadedParts (s : State) : List Nat := (s.parts.filter fun e => e.2.en && !e.2.configs.isEmpty).map (·.1)

theorem exec_linkUp (h : s.link ≠ 0) :
    let u := linkLoss (linkBackAll s) 0 (loadedParts (linkBackAll s))
    exec .linkUp s = .next ((u.parts.map (·.1) ++ [Config.parts]).foldl writeRecs u) := by
  change execLinkUp s = _
  rw [execLinkUp, if_neg h]
  rfl

end Link

/-! ## Records (R312, R347) -/

section Records

variable {s : State} {n d : Nat} {r : OutRec}

theorem State.modPart_congr {f g : Part → Part} (h : f (s.part n) = g (s.part n)) : s.modPart n f = s.modPart n g := by
  unfold State.part at h
  unfold State.modPart
  split
  · rename_i hn
    rw [if_pos hn] at h
    rw [h]
  · rename_i hn
    rw [if_neg hn] at h
    rw [h]

@[simp] theorem State.part_writeBytes {a : Nat} {bs : List Byte} {poi : Bool} : (s.writeBytes a bs poi).part n = s.part n := by
  unfold State.writeBytes
  dsimp only
  split <;> rfl

/-- A record goes as the number `v` to the place `a` of its function's memory; the partition keeps it no longer and changes by `f`. -/
def putRec (s : State) (n d a v : Nat) (f : Part → Part) : State :=
  (s.writeBytes (hostKey n a) (leBytes 64 v) false).modPart n fun p =>
    f { p with records := (s.part n).records.filter fun x => x.dseq != d }

theorem putRec_eq (a v : Nat) (f : Part → Part) : putRec s n d a v f =
    (s.writeBytes (hostKey n a) (leBytes 64 v) false).modPart n fun p =>
      f { p with records := p.records.filter fun x => x.dseq != d } :=
  State.modPart_congr (by rw [State.part_writeBytes])

theorem performRec_of_fault {x : RecBody} (hk : r.kind = .fault x) : performRec n s r =
    putRec s n r.dseq (ringAt (s.part n).fqBase (s.part n).fqProd) (recNat r.dseq 0 x) fun p =>
      { p with fqProd := (p.fqProd + 1) % 2 ^ 32, dlFault := r.dseq } := by
  rw [putRec_eq]
  simp only [performRec, hk]

theorem performRec_of_event {x : RecBody} {lost : Nat} (hk : r.kind = .event x lost) : performRec n s r =
    putRec s n r.dseq (ringAt (s.part n).eqBase (s.part n).eqProd) (recNat r.dseq lost x) fun p =>
      { p with eqProd := (p.eqProd + 1) % 2 ^ 32, dlEvent := r.dseq } := by
  rw [putRec_eq]
  simp only [performRec, hk]

theorem performRec_of_comp {x : CompBody} (hk : r.kind = .comp x) : performRec n s r =
    putRec s n r.dseq (x.notify / 64 * 64) (compNat r.dseq x) fun p => { p with dlComp := r.dseq } := by
  rw [putRec_eq]
  simp only [performRec, hk]

theorem exec_recordWrite (hlink : s.link = 0) (hr : (s.part n).records.find? (fun r => r.dseq == d) = some r)
    (hready : (s.part n).recReady r = true) : exec (.recordWrite n d) s = .next (performRec n s r) := by
  change execRecordWrite n d s = _
  simp only [execRecordWrite, hlink, hr, tryRec, hready, ne_eq, not_true_eq_false, if_false, if_true]

end Records

/-! ## Accesses of the host (R316) -/

section Accesses

variable {s : State} {a : HostAccess} (hlink : s.link = 0)

include hlink

theorem exec_hostMemoryAccess_pf (hfn : a.fn = Config.parts) (hw : a.write = true) :
    exec (.hostMemoryAccess a) s = .next (pfWrite s a.addr a.data) := by
  change execHostMemoryAccess a s = _
  simp only [execHostMemoryAccess, hlink, hfn, hw, ne_eq, not_true_eq_false, if_false, if_true]

variable (hfn : a.fn ≠ Config.parts) (hup : vfUp s a.fn = true) {bs : List Byte} {poi : List Bool} {u : State}

include hfn hup

theorem exec_hostMemoryAccess_write (hw : a.write = true)
    (hok : partWrite a.fn a.data false (runPieces a.addr a.data.length) s = .ok bs poi u) :
    exec (.hostMemoryAccess a) s = .next u := by
  change execHostMemoryAccess a s = _
  simp only [execHostMemoryAccess, hlink, hfn, hup, hw, hok, Via.state, ne_eq, not_true_eq_false, Bool.not_true, Bool.false_eq_true,
    if_false, if_true]

theorem exec_hostMemoryAccess_read (hw : a.write = false)
    (hok : partRead a.fn (runPieces a.addr a.len) s = .ok bs poi u) : exec (.hostMemoryAccess a) s = .next u := by
  change execHostMemoryAccess a s = _
  simp only [execHostMemoryAccess, hlink, hfn, hup, hw, hok, Via.state, ne_eq, not_true_eq_false, Bool.not_true, Bool.false_eq_true,
    if_false]

end Accesses

/-! ## Offline bays, bridges (R222, R324) -/

section Marks

variable {s : State}

theorem mem_insertNat {j k : Nat} {l : List Nat} : j ∈ insertNat k l ↔ j = k ∨ j ∈ l := by
  induction l with
  | nil => simp [insertNat]
  | cons i l ih =>
    unfold insertNat
    split
    · simp
    · split
      · rename_i hk
        simp [hk]
      · simp [ih, or_left_comm]

/-- The bays offline once one is marked. -/
def markBay (b : Nat) (off : Bool) (l : List Nat) : List Nat := if off then insertNat b l else l.filter fun c => c != b

theorem mem_markBay_self {b : Nat} {off : Bool} {l : List Nat} : b ∈ markBay b off l ↔ off = true := by
  cases off <;> simp [markBay, mem_insertNat]

theorem mem_markBay_ne {b c : Nat} {off : Bool} {l : List Nat} (h : c ≠ b) : c ∈ markBay b off l ↔ c ∈ l := by
  cases off <;> simp [markBay, mem_insertNat, h]

theorem exec_markOffline {b : Nat} (off : Bool) (hb : b < Config.bays) :
    exec (.markOffline b off) s = .next { s with offline := markBay b off s.offline } := by
  change execMarkOffline b off s = _
  rw [execMarkOffline, if_neg (Nat.not_le.2 hb)]
  rfl

theorem exec_bridgeLinkDown {col : Nat} (hcol : col < 8) (hnew : col ∉ s.bridgeLost) :
    let t := { s with bridgeLost := insertNat col s.bridgeLost }
    exec (.bridgeLinkDown col) s = .next (linkLoss t (17 + col) (bridgeUsers t col)) := by
  have hgo : ¬ (8 ≤ col ∨ s.bridgeLost.contains col = true) := not_or.2 ⟨Nat.not_le.2 hcol, by rwa [List.contains_iff_mem]⟩
  change execBridgeLinkDown col s = _
  rw [execBridgeLinkDown, if_neg hgo]
  rfl

end Marks

/-- Settles O45: the link's two ways, a record by its kind, an access by its function, a bay that is marked, a bridge that is lost. -/
theorem linkAndRecords : Obligations.LinkAndRecords := by
  unfold Obligations.LinkAndRecords
  refine ⟨fun s => exec_linkDown, fun s => exec_linkUp, fun n d s r hlink hr hready => ?record,
    fun a s hlink => ⟨exec_hostMemoryAccess_pf hlink, fun bs poi v hfn hup => exec_hostMemoryAccess_write hlink hfn hup,
      fun bs poi u hfn hup => exec_hostMemoryAccess_read hlink hfn hup⟩, fun b off s hb => ?offline, fun col s => exec_bridgeLinkDown⟩
  case record =>
    intro p kept puts
    obtain rfl : r.dseq = d := by simpa using List.find?_some hr
    have hexec := exec_recordWrite hlink hr hready
    exact ⟨fun x hk => hexec.trans (congrArg _ (performRec_of_fault hk)),
      fun x lost hk => hexec.trans (congrArg _ (performRec_of_event hk)),
      fun x hk => hexec.trans (congrArg _ (performRec_of_comp hk))⟩
  case offline =>
    have hexec := exec_markOffline (s := s) off hb
    refine ⟨_, hexec, mem_markBay_self, fun c hc => mem_markBay_ne hc, fun f hf => (exec_untouched hexec).same f ?_⟩
    simpa [untouched, touches] using hf

end Sys2Proof.Machine

/-!
Proof of the statement about group accesses (GroupAccesses): a member's home, a combine unit, the requester's reduction buffer and its
end.
-/
namespace Sys2Proof.Machine

open Sys2Proof

/-! ## A member at its home (R222, R231) -/

section Member

variable {home : Nat} {p : Packet} {s : State}

/-- The elements of a group access: 32 lanes, or one. -/
def memberLanes (p : Packet) : Nat := if p.body 210 1 = 1 then 32 else 1

/-- The element type that a group packet names. -/
def memberTy (p : Packet) : Ty := Ty.ofCode (BitVec.ofNat 4 (p.body 212 4))

/-- The bytes that a group access has at a member. -/
def memberSize (p : Packet) : Nat := memberLanes p * (memberTy p).size

/-- The partial that a member answers: its status, its elements unless it is void, and the positions it leaves out. -/
def memberAnswer (home : Nat) (p : Packet) (stat : Nat) (v : Option (List Word)) (om : Nat) : Packet :=
  echoOf p (gpartPacket p.src home p.ctx (p.body 216 4) (p.body 212 4) (p.body 211 1) (p.body 210 1) p.rqid (p.body 203 6) 0 stat v om)

/-- A member's elements widened to the accumulation type. -/
def memberElements (home : Nat) (p : Packet) (s : State) : List Word :=
  (List.range (memberLanes p)).map fun i => word ((packetRed p).widen
    (leNat (((s.readBytes (memberKey home p) (memberSize p)).drop (i * (memberTy p).size)).take (memberTy p).size)))

theorem exec_gread_offline (hoff : home ∈ s.offline) :
    exec (.gread home p) s = .next (s.emit (memberAnswer home p 2 none (2 ^ p.body 203 6))) := by
  change execGread home p s = _
  simp only [execGread, List.contains_iff_mem, hoff, if_true]
  rfl

variable (hoff : home ∉ s.offline)

include hoff

theorem exec_gread_poisoned (hpoi : s.poisoned (memberKey home p) (memberSize p) = true) :
    exec (.gread home p) s = .next (s.emit (memberAnswer home p 1 none (2 ^ p.body 203 6))) := by
  rw [memberSize, memberLanes, memberTy] at hpoi
  change execGread home p s = _
  simp only [execGread, List.contains_iff_mem, hoff, hpoi, if_false, if_true]
  rfl

theorem exec_gread_sound (hpoi : s.poisoned (memberKey home p) (memberSize p) = false) :
    exec (.gread home p) s = .next (s.emit (memberAnswer home p 0 (some (memberElements home p s)) 0)) := by
  rw [memberSize, memberLanes, memberTy] at hpoi
  change execGread home p s = _
  simp only [execGread, List.contains_iff_mem, hoff, hpoi, Bool.false_eq_true, if_false, if_true]
  rfl

end Member

section Write

variable {home : Nat} {p : Packet} {s : State}

/-- The bytes that a group write brings. -/
def memberData (p : Packet) : List Byte :=
  if p.body 210 1 = 1 then p.bytes else leBytes (memberTy p).size (p.body 0 64)

/-- A member's acknowledgement, with its position where it is absent. -/
def memberAck (home : Nat) (p : Packet) (off : Bool) : Packet :=
  echoOf p (mkPacket 3 p.src home p.ctx
    (fieldAt 220 4 3 + fieldAt 216 4 (p.body 216 4) + fieldAt 212 4 (p.body 212 4) + fieldAt 211 1 (p.body 211 1) +
      fieldAt 210 1 (p.body 210 1) + fieldAt 188 12 p.rqid + fieldAt 72 64 (if off then 2 ^ p.body 203 6 else 0) +
      fieldAt 68 4 (if off then 2 else 0)) [] false)

theorem exec_gwrite_offline (hoff : home ∈ s.offline) :
    exec (.gwrite home p) s = .next (s.emit (memberAck home p true)) := by
  have hoff' : s.offline.contains home = true := List.contains_iff_mem.2 hoff
  change execGwrite home p s = _
  simp only [execGwrite, hoff', if_true]
  rfl

theorem exec_gwrite_present (hoff : home ∉ s.offline) : exec (.gwrite home p) s = .next
    ((noteDirty (homeWrite s none (memberKey home p) (memberData p) (p.badBytes (memberData p).length)) p.ctx
      ⟨memberKey home p, home, 0, 0, 0, 0, none⟩ (memberData p).length).emit (memberAck home p false)) := by
  have hoff' : s.offline.contains home = false := by simpa using hoff
  change execGwrite home p s = _
  simp only [execGwrite, hoff', Bool.false_eq_true, if_false]
  rfl

end Write

/-! ## Partials and acknowledgements (R232) -/

/-- A buffer takes in a sound partial: the positions it covers are no longer awaited. -/
def RedBuf.join (r : RedBuf) (p : Packet) : RedBuf :=
  { r with
    pend := r.pend &&& ~~~coverMask (p.body 203 6) (p.body 200 3)
    parts := putPartial r.red 6 r.parts ⟨p.body 203 6, p.body 200 3, gpartVal p, BitVec.ofNat 64 (p.body 72 64)⟩ }

theorem exec_gpart_sound {b : Nat} {p : Packet} {s : State} (hpoi : p.poi = false) (hstat : p.body 68 4 = 0) :
    exec (.gpart (.requester b) p) s = .next (modRed s b p.ctx p.rqid fun r => r.join p) := by
  change execGpart (.requester b) p s = _
  simp [execGpart, hpoi, hstat, RedBuf.join]

theorem exec_gpart_merge {e : LinkEnd} {p q : Packet} {s : State} {i j : Nat} {d : Dir}
    (hi : placeOf (fun q => q == p) ((s.stopAt e.ring e.bay).port e.dir) 0 = some i)
    (hj : siblingIn (s.stopAt e.ring e.bay) e.dir i p = some (d, j)) (hq : ((s.stopAt e.ring e.bay).port d)[j]? = some q) :
    let t := (s.stopAt e.ring e.bay).setPort e.dir (setAt ((s.stopAt e.ring e.bay).port e.dir) i (mergeParts e.bay p q))
    exec (.gpart (.stop e) p) s = .next (settle (returnCredits
      (s.modStop e.ring e.bay fun _ => t.setPort d (dropAt (t.port d) j)) e.ring e.bay d q) e.bay) := by
  have hget : ((s.stopAt e.ring e.bay).port d).getD j default = q := by rw [List.getD, hq, Option.getD_some]
  change execGpart (.stop e) p s = _
  simp only [execGpart, combineAt, hi, hj, hget]

/-- The buffer that a GACK names changes by `f`, at the position that the packet's source had at issue (log 71). -/
def ackBy (s : State) (b : Nat) (p : Packet) (f : RedBuf → Nat → RedBuf) : State :=
  modRed s b p.ctx p.rqid fun r =>
    match placeOf (fun d => d == p.src) r.map 0 with
    | none => r
    | some pos => f r pos

theorem RedBuf.ack_eq {r : RedBuf} {pos n : Nat} : r.ack pos (n == 2) =
    { r with pend := r.pend &&& ~~~(1#64 <<< pos), gone := r.gone ||| if n = 2 then 1#64 <<< pos else 0 } := by
  simp only [RedBuf.ack, beq_iff_eq]

theorem exec_gack {b : Nat} {p : Packet} {s : State} : exec (.gack b p) s = .next (ackBy s b p fun r pos =>
    { r with pend := r.pend &&& ~~~(1#64 <<< pos), gone := r.gone ||| if p.body 68 4 = 2 then 1#64 <<< pos else 0 }) :=
  calc exec (.gack b p) s = .next (ackBy s b p fun r pos => r.ack pos (p.body 68 4 == 2)) := rfl
    _ = _ := by simp only [RedBuf.ack_eq]

/-! ## The end of an access (R224, R225, R227, R233) -/

section End

variable {b n : Nat} {s : State} {r : RedBuf} {o : MemOp} {om : BitVec 64} (hr : AMap.get? (s.bay b).reds n = some r)
  (hpend : r.pend = 0) (hdead : r.dead = false) (ho : opOf (dropRed s b n) b ⟨r.gate, r.ix, r.lsid⟩ = some o)
  (hom : groupStatus r = .ok om)

include hr hpend hdead ho hom

/-- A buffer of this direction that awaits nobody goes, and its access ends. -/
theorem groupEnd_of_ok {store : Bool} (hstore : r.store = store) (go : RedBuf → MemOp → BitVec 64 → State → State) :
    groupEnd s b n store go = kick (go r o om (dropRed s b n)) b := by
  simp [groupEnd, hr, hpend, hdead, hstore, ho, hom]

/-- What an ldg delivers: the tree of what came, the operator's identity where nothing did. -/
def groupValue (r : RedBuf) (o : MemOp) : Val :=
  let v := ((subtree r.red r.parts 6 0).getD (List.replicate (if o.c.w then 32 else 1) (word r.red.identity))).map (·.toNat)
  if o.c.w then .vec (ofLanes 32 v) else .sc (extendRes r.red.ty 32 (v.headD 0))

theorem exec_ldgResult (hstore : r.store = false) : exec (.ldgResult b n) s = .next (kick (opValue
    (groupOmit (if o.acq then acquireActions (dropRed s b n) b r.ctx o.scope else dropRed s b n) b r o om) b r.gate r.ix o
    ⟨groupValue r o, false, false⟩ (scTok om)) b) :=
  congrArg Host.Outcome.next (groupEnd_of_ok hr hpend hdead ho hom hstore _)

theorem exec_stgDone (hstore : r.store = true) : exec (.stgDone b n) s =
    .next (kick (opDone (dropRed s b n) b r.gate r.ix o (ctTok true) (scTok om)) b) :=
  congrArg Host.Outcome.next (groupEnd_of_ok hr hpend hdead ho hom hstore _)

end End

/-- Settles O40: a member's home by its state, a partial at the requester and at a stop, an acknowledgement, and the end of an access
by its direction. -/
theorem groupAccesses : Obligations.GroupAccesses := by
  unfold Obligations.GroupAccesses
  refine ⟨fun home p s => ⟨exec_gread_offline, exec_gread_poisoned, exec_gread_sound⟩,
    fun home p s => ⟨exec_gwrite_offline, exec_gwrite_present⟩, fun b p s r _ hpoi hstat => exec_gpart_sound hpoi hstat,
    fun e p s i d j q => exec_gpart_merge, fun b p s => exec_gack, fun b n s r o hr hpend hdead => ?done⟩
  case done =>
    intro u ho om hom
    exact ⟨exec_ldgResult hr hpend hdead ho hom, exec_stgDone hr hpend hdead ho hom⟩

end Sys2Proof.Machine

/-!
Proof of the statement about the commands of the matrix island (MatrixIsland): what an island leaves alone as it serves a port, the feeds of
an mma, the accumulator's words, and the moves of a drain.
-/
namespace Sys2Proof.Machine

open Sys2Proof

/-! ## An island serves a port (R235) -/

/-- An update of a bay that leaves the bay's island ports as they were. -/
theorem State.port_modBay {s : State} {b c i q : Nat} {f : Bay → Bay} (hf : ∀ y, (f y).ports = y.ports) :
    (s.modBay b f).port c i q = s.port c i q := by
  unfold State.port
  by_cases hc : c = b
  · rw [hc, State.bay_modBay, hf]
  · rw [State.bay_modBay_ne hc]

@[simp] theorem ctx?_modPort {s : State} {b c i q n : Nat} {f : IslPort → IslPort} : (s.modPort b i q f).ctx? c n = s.ctx? c n :=
  State.ctx?_modBay fun _ => rfl

section Served

variable {s : State} {b isl p c n i q : Nat} {k : IslCmd}

@[simp] theorem served_chans : (served s b isl p).chans = s.chans := rfl

@[simp] theorem ctx?_served : (served s b isl p).ctx? c n = s.ctx? c n := State.ctx?_modBay fun _ => rfl

@[simp] theorem site?_served : (served s b isl p).site? c n = s.site? c n := State.site?_modBay fun _ => rfl

@[simp] theorem gate_served : (served s b isl p).gate c n = s.gate c n := State.gate_modBay fun _ => rfl

@[simp] theorem elem_served : (served s b isl p).elem c n = s.elem c n := State.elem_modBay fun _ => rfl

@[simp] theorem port_served : (served s b isl p).port c i q = s.port c i q := State.port_modBay fun _ => rfl

@[simp] theorem partOf_served : (served s b isl p).partOf c n = s.partOf c n := by simp only [State.partOf, ctx?_served]

@[simp] theorem nbvOf_served : nbvOf (served s b isl p) c n = nbvOf s c n := by simp only [nbvOf, ctx?_served]

@[simp] theorem cmdRecipe_served : cmdRecipe (served s b isl p) c k = cmdRecipe s c k := by simp only [cmdRecipe, ctx?_served]

@[simp] theorem cmdWidths_served : cmdWidths (served s b isl p) c k = cmdWidths s c k := by
  simp only [cmdWidths, State.hitch?, State.slot, gate_served, elem_served]

@[simp] theorem drainRoute_modPort {f : IslPort → IslPort} : drainRoute (s.modPort b i q f) c k = drainRoute s c k := by
  simp only [drainRoute, cmdRecipe, ctx?_modPort]

@[simp] theorem drainRoute_served : drainRoute (served s b isl p) c k = drainRoute s c k := by simp only [drainRoute, cmdRecipe_served]

@[simp] theorem rowPieces_served {t : Tile} : rowPieces (served s b isl p) c k t = rowPieces s c k t := by
  simp only [rowPieces, drainRoute_served]

theorem bay_served : (served s b isl p).bay b = { s.bay b with turns := AMap.set (s.bay b).turns isl ((p + 1) % 4) } :=
  State.bay_modBay

@[simp] theorem feedTile_served {f tag : Nat} : feedTile (served s b isl p) b n f tag = feedTile s b n f tag := by
  simp only [feedTile, bay_served]

end Served

/-! ## Acceptance and retirement (R235, R258) -/

section Accept

variable {s : State} {b isl p i : Nat} {k : IslCmd}

theorem exec_islandCommandAccept (hi : acceptNo (s.port b isl p) = some i) (hk : (s.port b isl p).net[i]? = some k)
    (hrun : isl = 0 ∨ ∀ x, s.ctx? b k.ctx = some x → x.halted = false) :
    exec (.islandCommandAccept b isl p) s = .next (traceIsland (s.modPort b isl p fun q =>
      { q with
        net := dropAt q.net i
        queue := (if k.op = 0xBA then q.queue.map fun j => { j with stop := true } else q.queue) ++ [k] }) b k 0) := by
  have hgo : (isl != 0 && (s.ctx? b k.ctx).any (·.halted)) = false := by
    obtain h0 | hall := hrun
    · simp [h0]
    · cases hx : s.ctx? b k.ctx with
      | none => simp
      | some x => simp [hall x hx]
  change execIslandCommandAccept b isl p s = _
  simp only [execIslandCommandAccept, hi, hk, hgo, Bool.or_false]

theorem exec_sstopExecute (hk : headCmd s b isl p = some k) (hop : k.op = 0xBA) :
    exec (.sstopExecute b isl p) s = .next (retire (served s b isl p) b isl p k (.ct 1)) := by
  change execSstopExecute b isl p s = _
  simp only [execSstopExecute, hk, hop, if_true]

theorem exec_aclrExecute (hk : headCmd s b 0 p = some k) (hop : k.op = 0xB2) : exec (.aclrExecute b p) s =
    .next (retire ((served s b 0 p).modBay b fun y => { y with acc := AMap.set y.acc (k.f.aux11.toNat % 4) ⟨[], []⟩ }) b 0 p k (.ct 1)) := by
  change execAclrExecute b p s = _
  simp [execAclrExecute, hk, hop]

end Accept

/-! ## The feeds of an mma (R242, R243) -/

section Mma

variable {s : State} {b p : Nat} {k : IslCmd}

/-- The tile that an mma takes from a feed: the oldest with its tag; with none there, an empty one. -/
def takenTile (s : State) (b : Nat) (k : IslCmd) (f : Nat) : FeedTile :=
  (feedTile s b k.ctx f (k.a.toNat % 2 ^ 32)).getD ⟨0, 0, [], false⟩

/-- The feeds that a command reads. -/
def cmdFeeds (s : State) (b : Nat) (k : IslCmd) : List (Nat × Nat) := mmaFeeds (cmdRecipe s b k) (k.op == 0xB1)

/-- The accumulator of an mma's recipe as the bay holds it after the mma. -/
def accAfterMma (s : State) (b : Nat) (k : IslCmd) (tile : Nat → FeedTile) (t : AccTile) : AccTile :=
  matTile (nbvOf s b k.ctx) (cmdRecipe s b k) (tile 0).data (tile 1).data (tile 2).data (tile 3).data t

theorem mmaLacks_eq_nil (hthere : ∀ f ∈ cmdFeeds s b k, (feedTile s b k.ctx f.1 (k.a.toNat % 2 ^ 32)).isSome) : mmaLacks s b k = [] := by
  refine List.filter_eq_nil_iff.2 fun f hf => ?_
  obtain ⟨e, he, rfl⟩ := List.mem_map.1 hf
  rw [Option.isNone_eq_false_iff.2 (hthere e he)]
  exact Bool.false_ne_true

theorem exec_mmaExecute_of_feeds (hk : headCmd s b 0 p = some k) (hop : k.op = 0xB0 ∨ k.op = 0xB1) (hstall : (s.port b 0 p).stall = none)
    (hthere : ∀ f ∈ cmdFeeds s b k, (feedTile s b k.ctx f.1 (k.a.toNat % 2 ^ 32)).isSome)
    (hlen : ∀ f ∈ cmdFeeds s b k, (takenTile s b k f.1).data.length = f.2)
    (hsound : ∀ f ∈ cmdFeeds s b k, (takenTile s b k f.1).poi = false) :
    exec (.mmaExecute b p) s = .next (retire (dropTiles ((served s b 0 p).modBay b fun y =>
      { y with
        acc := AMap.set y.acc (cmdRecipe s b k).mmaAcc
          (accAfterMma s b k (takenTile s b k) (AMap.getD y.acc (cmdRecipe s b k).mmaAcc ⟨[], []⟩)) })
      b k.ctx (k.a.toNat % 2 ^ 32) ((cmdFeeds s b k).map (·.1))) b 0 p k (.ct 1)) := by
  have hgo : ((k.op != 0xB0 && k.op != 0xB1) || (s.port b 0 p).stall.isSome || !(mmaLacks s b k).isEmpty) = false := by
    obtain h | h := hop <;> simp [h, hstall, mmaLacks_eq_nil hthere]
  have hlen' : (cmdFeeds s b k).find? (fun f => (takenTile s b k f.1).data.length != f.2) = none :=
    List.find?_eq_none.2 fun f hf => by simp [hlen f hf]
  have hsound' : (cmdFeeds s b k).find? (fun f => (takenTile s b k f.1).poi) = none :=
    List.find?_eq_none.2 fun f hf => by simp [hsound f hf]
  unfold cmdFeeds takenTile at hlen' hsound'
  change execMmaExecute b p s = _
  simp only [execMmaExecute, hk, hgo, cmdRecipe_served, feedTile_served, nbvOf_served, hlen', hsound', Bool.false_eq_true, if_false]
  rfl

/-- The tiles named for an mma are those it takes: an mma of two feeds takes what scales stand in the others, which it does not use. -/
theorem accAfterMma_congr {tile : Nat → FeedTile} {t : AccTile} (hop : k.op = 0xB0 ∨ k.op = 0xB1)
    (htile : ∀ f ∈ cmdFeeds s b k, takenTile s b k f.1 = tile f.1)
    (hrest : k.op = 0xB0 → tile 2 = takenTile s b k 2 ∧ tile 3 = takenTile s b k 3) :
    accAfterMma s b k (takenTile s b k) t = accAfterMma s b k tile t := by
  have h0 : takenTile s b k 0 = tile 0 := htile (0, _) (by simp [cmdFeeds, mmaFeeds]; rfl)
  have h1 : takenTile s b k 1 = tile 1 := htile (1, _) (by simp [cmdFeeds, mmaFeeds]; rfl)
  have h23 : takenTile s b k 2 = tile 2 ∧ takenTile s b k 3 = tile 3 := by
    obtain h | h := hop
    · exact ⟨(hrest h).1.symm, (hrest h).2.symm⟩
    · exact ⟨htile (2, _) (by simp [cmdFeeds, mmaFeeds, h]; rfl), htile (3, _) (by simp [cmdFeeds, mmaFeeds, h]; rfl)⟩
  simp only [accAfterMma, h0, h1, h23.1, h23.2]

end Mma

/-! ## The words of an accumulator (R243) -/

section Words

variable {t : AccTile} {i j m n x v : Nat}

theorem AMap.get?_erase {α : Type} {a : AMap α} : AMap.get? (AMap.erase a i) j = if j = i then none else AMap.get? a j := by
  induction a with
  | nil => simp [AMap.erase, AMap.get?]
  | cons e a ih =>
    obtain ⟨k, y⟩ := e
    rw [AMap.erase] at ih ⊢
    by_cases hk : k = i
    · rw [List.filter_cons_of_neg (by simpa using hk), ih, AMap.get?]
      split
      · rfl
      · rename_i hj
        rw [if_neg fun h => hj (h.symm.trans hk)]
    · rw [List.filter_cons_of_pos (by simpa using hk), AMap.get?, ih, AMap.get?]
      split
      · rename_i hj
        rw [if_neg fun h => hk (hj.trans h)]
      · rfl

theorem AccTile.at'_put : (t.put i v).at' j = if j = i then v % 2 ^ 32 else t.at' j := by
  unfold AccTile.at' AccTile.put AMap.getD
  dsimp only
  split
  · rename_i hv
    rw [AMap.get?_erase, hv]
    split <;> rfl
  · split
    · rename_i hj
      rw [hj, AMap.get?_set_self, Option.getD_some, BitVec.toNat_ofNat]
    · rename_i hj
      rw [AMap.get?_set_ne hj]

@[simp] theorem AccTile.at'_poi {l : List Nat} : ({ t with poi := l } : AccTile).at' i = t.at' i := rfl

/-- A fold that puts each place of a list without repeats once. -/
theorem AccTile.at'_foldl_put (f : Nat → Nat → Nat) {l : List Nat} (hl : l.Nodup) : ∀ t : AccTile,
    (l.foldl (fun t i => t.put i (f i (t.at' i))) t).at' x = if x ∈ l then f x (t.at' x) % 2 ^ 32 else t.at' x := by
  induction l with
  | nil => simp
  | cons i l ih =>
    intro t
    obtain ⟨hi, hl⟩ := List.nodup_cons.1 hl
    rw [List.foldl_cons, ih hl, AccTile.at'_put]
    by_cases hx : x = i
    · subst hx
      simp [hi]
    · simp [hx]

theorem mem_corner (hn : n ≤ 128) (hj : j < 128) : 128 * i + j ∈ corner m n ↔ i < m ∧ j < n := by
  simp only [corner, List.mem_flatMap, List.mem_map, List.mem_range]
  constructor
  · rintro ⟨a, ha, c, hc, heq⟩
    obtain ⟨rfl, rfl⟩ : a = i ∧ c = j := by omega
    exact ⟨ha, hc⟩
  · rintro ⟨hi, hj'⟩
    exact ⟨i, hi, j, hj', rfl⟩

theorem corner_nodup (hn : n ≤ 128) : (corner m n).Nodup := by
  refine List.nodup_flatMap.2 ⟨fun i _ => List.nodup_range.map fun a c h => by simpa using h, ?_⟩
  refine List.nodup_range.imp fun {a c} hac => ?_
  rw [Function.onFun, List.disjoint_left]
  intro y ha hc
  simp only [List.mem_map, List.mem_range] at ha hc
  obtain ⟨⟨d, hd, rfl⟩, e, he, heq⟩ := And.intro ha hc
  omega

/-- A fold over a corner that puts at each row and column what `g` makes of the word there. -/
theorem AccTile.at'_foldl_corner (g : Nat → Nat → Nat → Nat) (hn : n ≤ 128) (hj : j < 128) :
    ((corner m n).foldl (fun t i => t.put i (g (t.at' i) (i / 128) (i % 128))) t).at' (128 * i + j) =
      if i < m ∧ j < n then g (t.at' (128 * i + j)) i j % 2 ^ 32 else t.at' (128 * i + j) := by
  have hrow : (128 * i + j) / 128 = i := by omega
  have hcol : (128 * i + j) % 128 = j := by omega
  rw [AccTile.at'_foldl_put (fun i old => g old (i / 128) (i % 128)) (corner_nodup hn)]
  exact if_congr (mem_corner hn hj) (by rw [hrow, hcol]) rfl

theorem Recipe.n_le (r : Recipe) : r.n ≤ 128 := by
  have h := (r.c0.extractLsb' 46 7).isLt
  simp only [Recipe.n, bits]
  omega

theorem matTile_at' (nbv : Nat) (r : Recipe) (a b sa sb : List Byte) (hj : j < 128) :
    (matTile nbv r a b sa sb t).at' (128 * i + j) =
      if i < r.m ∧ j < r.n then matWord nbv r a b sa sb (t.at' (128 * i + j)) i j % 2 ^ 32 else t.at' (128 * i + j) := by
  rw [matTile, apply_ite (AccTile.at' · (128 * i + j)), AccTile.at'_poi, ite_self]
  exact AccTile.at'_foldl_corner (matWord nbv r a b sa sb) r.n_le hj

end Words

/-! ## The moves of a drain (R246, R262) -/

section Drain

variable {s : State} {b p : Nat} {k : IslCmd} {x : Pipe} {t : Tile} {l : List Tile} (hk : headCmd s b 0 p = some k) (hop : k.op = 0xB3)
  (hstall : (s.port b 0 p).stall = none) (hdst : dstStalled s b 0 p k = false)

/-- May the running pipeline of a drain move, no stall aside? -/
def drainMoves (s : State) (b p : Nat) (k : IslCmd) (x : Pipe) : Bool :=
  if routeKind (drainRoute s b k) = 1 then !tokenOut s b k x && (x.tiles.isEmpty || !routeWaits s b k (drainRoute s b k))
  else if x.tiles.isEmpty then !landOut s b 0 p
  else !ioParked s b 0 p true

theorem drainMoves_of_done (htiles : x.tiles = [])
    (hout : if routeKind (drainRoute s b k) = 1 then tokenOut s b k x = false else landOut s b 0 p = false) :
    drainMoves s b p k x = true := by
  unfold drainMoves
  split at hout <;> simp [*]

theorem drainMoves_of_token (hroute : routeKind (drainRoute s b k) = 1) (hout : tokenOut s b k x = false)
    (hwaits : routeWaits s b k (drainRoute s b k) = false) : drainMoves s b p k x = true := by
  rw [drainMoves, if_pos hroute, hout, hwaits, Bool.not_false, Bool.or_true, Bool.and_true]

theorem drainMoves_of_row (htiles : x.tiles = t :: l) (hroute : routeKind (drainRoute s b k) ≠ 1)
    (hparked : ioParked s b 0 p true = false) : drainMoves s b p k x = true := by
  rw [drainMoves, if_neg hroute, htiles, hparked, List.isEmpty_cons, if_neg Bool.false_ne_true, Bool.not_false]

include hk hop hstall hdst

theorem drainReady_eq : drainReady s b p = ((s.port b 0 p).run.elim true fun x => drainMoves s b p k x) := by
  simp only [drainReady, drainMoves, hk, hop, hstall, hdst, Option.any_some, Option.isNone_none, beq_self_eq_true, Bool.not_false,
    Bool.true_and]
  cases (s.port b 0 p).run with
  | none => rw [Option.elim_none]
  | some x => rw [Option.elim_some]

theorem exec_drainExecute_start (hrun : (s.port b 0 p).run = none) :
    exec (.drainExecute b p) s = .next (drainStart (served s b 0 p) b p k) := by
  have hready : drainReady s b p = true := by rw [drainReady_eq hk hop hstall hdst, hrun, Option.elim_none]
  change execDrainExecute b p s = _
  simp only [execDrainExecute, hk, hready, port_served, hrun, Bool.not_true, Bool.false_eq_true, if_false]

variable (hrun : (s.port b 0 p).run = some x) (hmoves : drainMoves s b p k x = true)

include hrun hmoves

theorem drainReady_of_moves : drainReady s b p = true := by rw [drainReady_eq hk hop hstall hdst, hrun, Option.elim_some, hmoves]

theorem exec_drainExecute_end (htiles : x.tiles = []) :
    exec (.drainExecute b p) s = .next (retire (drainClear (served s b 0 p) b (cmdRecipe s b k)) b 0 p k (.ct 1)) := by
  have hready := drainReady_of_moves hk hop hstall hdst hrun hmoves
  change execDrainExecute b p s = _
  simp only [execDrainExecute, hk, hready, port_served, hrun, htiles, drainEnd, cmdRecipe_served, Bool.not_true, Bool.false_eq_true, if_false]

theorem exec_drainExecute_token (htiles : x.tiles = t :: l) (hroute : routeKind (drainRoute s b k) = 1) :
    exec (.drainExecute b p) s = .next (routeToken
      ((dropTile (served s b 0 p) b 0 p).modPort b 0 p fun q => { q with run := q.run.map fun x => { x with asked := t.idx + 1 } }) b 0 p k
      (drainRoute s b k) t.idx (.vec (bytesVec t.data)) (t.poi.any id)) := by
  have hready := drainReady_of_moves hk hop hstall hdst hrun hmoves
  change execDrainExecute b p s = _
  simp only [execDrainExecute, hk, hready, port_served, hrun, htiles, dropTile, drainRoute_modPort, drainRoute_served, hroute, Bool.not_true,
    Bool.false_eq_true, if_false, if_true]

theorem exec_drainExecute_row (htiles : x.tiles = t :: l) (hroute : routeKind (drainRoute s b k) ≠ 1) :
    let q := writeTile (served s b 0 p) b 0 p k t.data.length t (rowPieces s b k t)
    exec (.drainExecute b p) s = .next (if q.1 then dropTile q.2 b 0 p else q.2) := by
  have hready := drainReady_of_moves hk hop hstall hdst hrun hmoves
  change execDrainExecute b p s = _
  simp only [execDrainExecute, hk, hready, port_served, hrun, htiles, drainRoute_served, rowPieces_served, hroute, Bool.not_true, Bool.false_eq_true,
    if_false]

end Drain

/-- The start of a drain that names a route its steering has, and a line of memory where that is where it goes. -/
theorem drainStart_of_route {s : State} {b p : Nat} {k : IslCmd} (hst : k.a.toNat % 2 ^ 32 < 8)
    (hmem : routeKind (drainRoute s b k) = 2 → k.f.aux11.getLsbD 0 = true ∧ k.b.toNat % 16 = 0) :
    let r := cmdRecipe s b k
    let t := AMap.getD (s.bay b).acc r.drainAcc ⟨[], []⟩
    let image := drainImage (nbvOf s b k.ctx) r t
    drainStart s b p k = s.modPort b 0 p fun q => { q with run := some { newPipe with
      tiles := if routeKind (drainRoute s b k) = 1 then drainTokens r t image
        else if routeKind (drainRoute s b k) = 2 then drainRows r t image else [] } } := by
  have hst' : ¬ 8 ≤ k.a.toNat % 2 ^ 32 := Nat.not_le.2 hst
  have hsteer : (8 ≤ k.a.toNat % 2 ^ 32 || (routeKind (drainRoute s b k) == 2 && !k.f.aux11.getLsbD 0)) = false := by
    by_cases hkind : routeKind (drainRoute s b k) = 2
    · rw [decide_eq_false hst', (hmem hkind).1, Bool.not_true, Bool.and_false, Bool.or_false]
    · rw [decide_eq_false hst', beq_false_of_ne hkind, Bool.false_and, Bool.or_false]
  have hline : ¬ (routeKind (drainRoute s b k) = 2 ∧ k.b.toNat % 16 ≠ 0) := fun h => h.2 (hmem h.1).2
  intro r t image
  simp only [drainStart, hsteer, Bool.false_eq_true, if_false, if_neg hline]
  rfl

/-- Settles O41: acceptance, an mma by its feeds and word by word, an aclr, a drain by what it has to do next, an sstop. -/
theorem matrixIsland : Obligations.MatrixIsland := by
  unfold Obligations.MatrixIsland
  refine ⟨fun b isl p s i k => exec_islandCommandAccept, fun b p s k hk hop hstall => ?mma,
    fun nbv r a b sa sb t i _ j hj => matTile_at' nbv r a b sa sb hj, fun b p s k => exec_aclrExecute,
    fun b p s k hk hop hstall hdst => ?drain, fun b isl p s k => exec_sstopExecute⟩
  case mma =>
    intro u r tag fs tile htiles hrest
    have htaken : ∀ f ∈ cmdFeeds s b k, takenTile s b k f.1 = tile f.1 := fun f hf => by
      rw [takenTile, (htiles f hf).1, Option.getD_some]
    rw [exec_mmaExecute_of_feeds hk hop hstall (fun f hf => Option.isSome_iff_exists.2 ⟨_, (htiles f hf).1⟩)
      (fun f hf => (congrArg (·.data.length) (htaken f hf)).trans (htiles f hf).2.1)
      (fun f hf => (congrArg (·.poi) (htaken f hf)).trans (htiles f hf).2.2)]
    simp only [accAfterMma_congr hop htaken hrest]
    rfl
  case drain =>
    intro u r st e t image
    refine ⟨fun hrun hst hmem => ?start, fun x hrun => ⟨fun htiles hout => ?finish, fun y l htiles =>
      ⟨fun hroute hout hwaits => ?token, fun hroute hparked => ?row⟩⟩⟩
    case start =>
      rw [exec_drainExecute_start hk hop hstall hdst hrun, drainStart_of_route hst (by rwa [drainRoute_served])]
      simp only [cmdRecipe_served, nbvOf_served, drainRoute_served, bay_served]
      rfl
    case finish => exact exec_drainExecute_end hk hop hstall hdst hrun (drainMoves_of_done htiles hout) htiles
    case token => exact exec_drainExecute_token hk hop hstall hdst hrun (drainMoves_of_token hroute hout hwaits) htiles hroute
    case row => exact exec_drainExecute_row hk hop hstall hdst hrun (drainMoves_of_row htiles hroute hparked) htiles hroute

end Sys2Proof.Machine

/-!
Proof of the statement about the pipelines of the streamers (Streamers): the start by its destination, the index list, a tile's read and its
arrival by its destination, the end.
-/
namespace Sys2Proof.Machine

open Sys2Proof

/-! ## What a served port leaves of a pipeline's command -/

section Served

variable {s : State} {b isl p c : Nat} {k : IslCmd}

@[simp] theorem speerUp_served : speerUp (served s b isl p) c k = speerUp s c k := by
  simp only [speerUp, chanState, served_chans, partOf_served]

@[simp] theorem destSite_served : destSite (served s b isl p) c k = destSite s c k := by
  simp only [destSite, ctx?_served, cmdRecipe_served]

@[simp] theorem startKey_served {x : Site} : startKey (served s b isl p) c k x = startKey s c k x := by
  simp only [startKey, cmdWidths_served]

end Served

/-! ## Starts (R250, R258) -/

section Start

variable {s : State} {b isl p : Nat} {k : IslCmd} (hk : headCmd s b isl p = some k) (hready : startReady s b isl p = true)

/-- The pipeline at the head of a port runs. -/
def goPipe (b isl p : Nat) (s : State) : State := s.modPort b isl p fun q => { q with run := some newPipe }

include hk hready

theorem exec_pipelineStart_stopped (hstop : k.stop = true) :
    exec (.pipelineStart b isl p) s = .next (goPipe b isl p (served s b isl p)) := by
  change execPipelineStart b isl p s = _
  simp only [execPipelineStart, hk, hready, hstop, Bool.not_true, Bool.false_eq_true, if_false, if_true]
  rfl

variable (hstop : k.stop = false) (hline : (cmdRecipe s b k).kind = 4 ∨ k.a.toNat % 16 = 0) (hup : speerUp s b k = true)

include hstop hline hup

/-- A pipeline that no check stops: its destination alone says what its start does. -/
theorem exec_pipelineStart_eq : exec (.pipelineStart b isl p) s = .next (
    if (cmdRecipe s b k).dk = 0 then
      match s.site? b (destSite s b k) with
      | none => goPipe b isl p (served s b isl p)
      | some x =>
        if x.poison then siteStall (served s b isl p) b isl p k true x
        else goPipe b isl p (kick (openLife ((served s b isl p).modSite b (destSite s b k) fun x => { x with started := true }) b
          (destSite s b k) (startKey s b k x)) b)
    else if (cmdRecipe s b k).dk = 1 then goPipe b isl p ((served s b isl p).modBay b fun y =>
      { y with feedBy := AMap.set y.feedBy ((cmdRecipe s b k).dsite % 4) (isl, p) })
    else goPipe b isl p (served s b isl p)) := by
  have haligned : ((cmdRecipe s b k).kind != 4 && k.a.toNat % 16 != 0) = false := by
    obtain h | h := hline <;> simp [h]
  change execPipelineStart b isl p s = _
  simp only [execPipelineStart, hk, hready, hstop, cmdRecipe_served, haligned, speerUp_served, hup, destSite_served, site?_served,
    startKey_served, Bool.not_true, Bool.false_eq_true, if_false]
  rfl

end Start

/-! ## The index list (R252) -/

section Index

variable {s v : State} {b isl p : Nat} {k : IslCmd} {x : Site} {ls : List (Loc × (Nat × Nat × Nat))}

/-- The site of a command's index list. -/
def indexSite (s : State) (b : Nat) (k : IslCmd) : Nat := ((s.ctx? b k.ctx).map (·.siteBase)).getD 0 + (cmdRecipe s b k).isite

/-- An index list of `n` bytes that waits for what `left` reads bring. -/
def blankList (n left : Nat) : Tile := ⟨0, List.replicate n 0, List.replicate n false, 0, [], left, 0⟩

theorem exec_indexListRead (hk : headCmd s b isl p = some k) (hready : indexReady s b isl p = true)
    (hx : s.site? b (indexSite s b k) = some x) (hpoi : x.poison = false) (hlo : x.wbase ≤ k.b.toNat)
    (hhi : k.b.toNat + 4 * (cmdRecipe s b k).nidx ≤ x.wbase + x.wsize) (hword : k.b.toNat % 4 = 0)
    (hls : ioTranslate b isl p k x.phys (4 * (cmdRecipe s b k).nidx)
      (cutRun (4 * (cmdRecipe s b k).nidx / 64 + 2) k.b.toNat 0 (4 * (cmdRecipe s b k).nidx)) (served s b isl p) = .ok ls v) :
    exec (.indexListRead b isl p) s = .next (issueReads b isl p k x.phys 0 ls (v.modPort b isl p fun q =>
      { q with run := q.run.map fun x => { x with listing := some (blankList (4 * (cmdRecipe s b k).nidx) ls.length) } })) := by
  have hin : (k.b.toNat < x.wbase || x.wbase + x.wsize < k.b.toNat + 4 * (cmdRecipe s b k).nidx : Bool) = false := by
    simp [hlo, hhi]
  have hword' : (k.b.toNat % 4 != 0) = false := by simp [hword]
  unfold indexSite at hx
  change execIndexListRead b isl p s = _
  simp only [execIndexListRead, hk, hready, cmdRecipe_served, ctx?_served, site?_served, hx, hpoi, hin, hword', hls, Bool.not_true,
    Bool.false_eq_true, if_false]
  rfl

theorem Pipe.listed_of_whole {x : Pipe} {t : Tile} (hx : x.listing = some t) (hleft : t.left = 0) : x.listed = { x with
    listing := none
    index := some ((List.range (t.data.length / 4)).map fun i =>
      (leNat ((t.data.drop (4 * i)).take 4), ((t.poi.drop (4 * i)).take 4).any id)) } := by
  simp [Pipe.listed, hx, hleft]

end Index

/-! ## Reads (R248 to R257) -/

section Read

variable {s : State} {b isl p : Nat} {k : IslCmd}

theorem exec_tileRead {x : Pipe} (hk : headCmd s b isl p = some k) (hx : (s.port b isl p).run = some x)
    (hready : readReady s b isl p = true) (hup : speerUp s b k = true) : exec (.tileRead b isl p) s = .next (
      if speerIn k then askTile (served s b isl p) b isl p k (cmdRecipe s b k) x
      else if (cmdRecipe s b k).kind = 4 then readGather (served s b isl p) b isl p k (cmdRecipe s b k) x
      else readCopy (served s b isl p) b isl p k (cmdRecipe s b k) x) := by
  change execTileRead b isl p s = _
  simp only [execTileRead, hk, hx, hready, cmdRecipe_served, speerUp_served, hup, Bool.not_true, Bool.false_eq_true, if_false]

theorem readLines_of_ok {v : State} {len : Nat} {as : List (Nat × Nat)} {t : Tile} {ls : List (Loc × (Nat × Nat × Nat))}
    (h : ioTranslate b isl p k false len (as.flatMap fun a => cutRun (len / 64 + 2) a.1 a.2 len) s = .ok ls v) :
    readLines s b isl p k len as t = issueReads b isl p k false (t.idx + 1) ls (holdTile v b isl p { t with left := ls.length }) := by
  simp only [readLines, h]

end Read

/-! ## Arrivals and ends (R250, R252) -/

section Arrive

variable {s : State} {b isl p : Nat} {k : IslCmd} {x : Pipe} {t : Tile} {l : List Tile} (hk : headCmd s b isl p = some k)
  (hx : (s.port b isl p).run = some x)

/-- The tile of shape `t` arrives in a slot of its feed port. -/
def feedArrive (s : State) (b : Nat) (k : IslCmd) (r : Recipe) (t : Tile) : State :=
  s.modBay b fun y =>
    { y with
      feeds := AMap.set y.feeds (r.dsite % 4)
        (AMap.getD y.feeds (r.dsite % 4) [] ++ [⟨k.ctx, (destOp k + t.idx) % 2 ^ 32, t.data, t.poi.any id⟩]) }

include hk hx

section Ready

variable (htiles : x.tiles = t :: l) (hready : arriveReady s b isl p = true)

include htiles hready

theorem exec_tileArrive_site (hdk : (cmdRecipe s b k).dk = 0) : exec (.tileArrive b isl p) s = .next
    (tileDone (fedArrive s b (destSite s b k) (t.shaped (cmdRecipe s b k))) b isl p k (cmdRecipe s b k) (t.shaped (cmdRecipe s b k))) := by
  change execTileArrive b isl p s = _
  simp only [execTileArrive, hk, hx, hready, htiles, hdk, Bool.not_true, Bool.false_eq_true, if_false]

theorem exec_tileArrive_feed (hdk : (cmdRecipe s b k).dk = 1) : exec (.tileArrive b isl p) s = .next
    (tileDone (feedArrive s b k (cmdRecipe s b k) (t.shaped (cmdRecipe s b k))) b isl p k (cmdRecipe s b k)
      (t.shaped (cmdRecipe s b k))) := by
  change execTileArrive b isl p s = _
  simp only [execTileArrive, hk, hx, hready, htiles, hdk, Bool.not_true, Bool.false_eq_true, if_false]
  rfl

theorem exec_tileArrive_memory (hdk : (cmdRecipe s b k).dk = 2) :
    let r := cmdRecipe s b k
    let q := writeTile s b isl p k (outLen r (t.shaped r)) (t.shaped r) (tilePieces k r (t.shaped r))
    exec (.tileArrive b isl p) s =
      .next (if q.1 ∧ landOut q.2 b isl p = false then tileDone q.2 b isl p k r (t.shaped r) else q.2) := by
  change execTileArrive b isl p s = _
  simp only [execTileArrive, hk, hx, hready, htiles, hdk, Bool.not_true, Bool.false_eq_true, if_false, Bool.and_eq_true,
    Bool.not_eq_true']

theorem exec_tileArrive_peer (hdk : (cmdRecipe s b k).dk = 3)
    (hdone : ((t.shaped (cmdRecipe s b k)).idx + 1) *
      (peerFrames (cmdRecipe s b k) k.b.toNat (t.shaped (cmdRecipe s b k))).length ≤ x.confirmed) :
    exec (.tileArrive b isl p) s = .next (tileDone s b isl p k (cmdRecipe s b k) (t.shaped (cmdRecipe s b k))) := by
  change execTileArrive b isl p s = _
  simp only [execTileArrive, hk, hx, hready, htiles, hdk, hdone, Bool.not_true, Bool.false_eq_true, if_false, if_true]

end Ready

theorem exec_pipelineEnd (hready : endReady s b isl p = true) : exec (.pipelineEnd b isl p) s = .next (retire
    (s.modBay b fun y => { y with feedBy := y.feedBy.filter fun e => e.2 != (isl, p) }) b isl p k
    (if k.op = 0xB5 ∨ k.op = 0xB6 then .sc (word x.zeroed) else .ct 1)) := by
  change execPipelineEnd b isl p s = _
  simp only [execPipelineEnd, hk, hx, hready, Bool.not_true, Bool.false_eq_true, if_false]

end Arrive

/-- Settles O42: a start by its destination, the index list, a read by what its command asks, an arrival by its destination, an end. -/
theorem streamers : Obligations.Streamers := by
  unfold Obligations.Streamers
  refine ⟨fun b isl p s k hk hready => ?start, fun b isl p s k x hk hready => ?index, fun x t => Pipe.listed_of_whole,
    fun b isl p s k x hk hx hready hup => ?read, fun s b isl p k len as t ls v => readLines_of_ok,
    fun b isl p s k x y l hk hx htiles hready => ?arrive, fun b isl p s k x => exec_pipelineEnd⟩
  case start =>
    refine ⟨exec_pipelineStart_stopped hk hready, fun hstop hline hup => ?_⟩
    have hexec := exec_pipelineStart_eq hk hready hstop hline hup
    refine ⟨fun hdk => ?away, fun hdk => ?feed, fun x hdk hx hpoi => ?site⟩
    case away =>
      rw [hexec, if_neg (by omega), if_neg (by omega)]
      rfl
    case feed =>
      rw [hexec, if_neg (by omega), if_pos hdk]
      rfl
    case site =>
      rw [hexec, if_pos hdk, hx]
      simp only [hpoi, Bool.false_eq_true, if_false]
      rfl
  case index => exact fun hx hpoi hlo hhi hword ls v => exec_indexListRead hk hready hx hpoi hlo hhi hword
  case read =>
    have hexec := exec_tileRead hk hx hready hup
    refine ⟨fun hin => ?_, fun hin hkind => ?_, fun hin hkind => ?_⟩
    · rw [hexec, if_pos hin]
    · rw [hexec, if_neg (ne_true_of_eq_false hin), if_pos hkind]
    · rw [hexec, if_neg (ne_true_of_eq_false hin), if_neg hkind]
  case arrive =>
    exact ⟨exec_tileArrive_site hk hx htiles hready, exec_tileArrive_feed hk hx htiles hready, exec_tileArrive_memory hk hx htiles hready,
      exec_tileArrive_peer hk hx htiles hready⟩

end Sys2Proof.Machine

/-!
Proof of the statement about splice frames, channel bindings and splice links (SpliceFrames): a frame that is not for its channel, each kind
of frame that is, a binding, a link's two ways.
-/
namespace Sys2Proof.Machine

open Sys2Proof

/-! ## Frames (R320, R321) -/

section Frames

variable {s v : State} {f : SpliceFrame} {e : Nat × Nat × Nat} {bs : List Byte} {poi : List Bool}

/-- A frame is dropped, and counted at its port. -/
def dropFrame (s : State) (port : Nat) : State :=
  { s with spliceDrop := AMap.set s.spliceDrop port (AMap.getD s.spliceDrop port 0 + 1) }

theorem withFrame_of_bad {kind : Nat} {go : State → State} (h : frameOk s kind f = false) :
    withFrame kind f go s = .next (dropFrame s f.port) := by
  rw [withFrame, h]
  rfl

theorem withFrame_of_ok {kind : Nat} {go : State → State} (h : frameOk s kind f = true) : withFrame kind f go s = .next (go s) := by
  rw [withFrame, if_pos h]

theorem exec_spliceTile_dropped (h : frameOk s 0 f = false) : exec (.spliceTile f) s = .next (dropFrame s f.port) := by
  change execSpliceTile f s = _
  rw [execSpliceTile, withFrame_of_bad h]

theorem exec_spliceNotice_dropped (h : frameOk s 1 f = false) : exec (.spliceNotice f) s = .next (dropFrame s f.port) := by
  change execSpliceNotice f s = _
  rw [execSpliceNotice, withFrame_of_bad h]

theorem exec_spliceRead_dropped (h : frameOk s 2 f = false) : exec (.spliceRead f) s = .next (dropFrame s f.port) := by
  change execSpliceRead f s = _
  rw [execSpliceRead, withFrame_of_bad h]

theorem exec_spliceDone_dropped (h : frameOk s 3 f = false) : exec (.spliceDone f) s = .next (dropFrame s f.port) := by
  change execSpliceDone f s = _
  rw [execSpliceDone, withFrame_of_bad h]

/-- The tile that a frame brings, numbered `n`. -/
def frameBytes (f : SpliceFrame) (n : Nat) : Tile := ⟨n, f.data, List.replicate f.data.length f.poi, 0, [], 0, 0⟩

theorem exec_spliceTile_asked {x : Pipe} (hok : frameOk s 0 f = true) (he : speerOn s f.port (frameChan f) true = some e)
    (hx : (s.port e.1 e.2.1 e.2.2).run = some x) (hasked : x.next < x.asked) (htile : x.next % 2 ^ 32 = frameTile f) :
    exec (.spliceTile f) s = .next (holdTile s e.1 e.2.1 e.2.2 (frameBytes f x.next)) := by
  change execSpliceTile f s = _
  rw [execSpliceTile, withFrame_of_ok hok]
  have hmine : ((speerOn s f.port (frameChan f) true).filter fun e =>
      ((s.port e.1 e.2.1 e.2.2).run).any fun x => x.next < x.asked && x.next % 2 ^ 32 == frameTile f) = some e := by
    rw [he]
    simp [Option.filter, hx, hasked, ← htile]
  simp only [hmine, hx, Option.map_some, Option.getD_some]
  rfl

theorem exec_spliceTile_write (hok : frameOk s 0 f = true) (he : speerOn s f.port (frameChan f) true = none)
    (hw : partWrite (frameOwner s f) f.data f.poi (runPieces (frameAddr f) f.data.length) s = .ok bs poi v) :
    exec (.spliceTile f) s = .next (sendFrame v f.port (frameChan f) 3 (frameTile f) 0 [] false) := by
  change execSpliceTile f s = _
  rw [execSpliceTile, withFrame_of_ok hok]
  simp only [he, Option.filter_none, hw]

theorem exec_spliceRead_read (hok : frameOk s 2 f = true)
    (hr : partRead (frameOwner s f) (runPieces (frameAddr f) f.data.length) s = .ok bs poi v) :
    exec (.spliceRead f) s = .next (sendFrame v f.port (frameChan f) 0 (frameTile f) (frameAddr f) bs (poi.any id)) := by
  change execSpliceRead f s = _
  rw [execSpliceRead, withFrame_of_ok hok]
  simp only [hr]

variable (he : speerOn s f.port (frameChan f) false = some e)

include he

theorem exec_spliceNotice_count (hok : frameOk s 1 f = true) :
    exec (.spliceNotice f) s = .next (modPipe s e fun x => { x with notices := x.notices + 1 }) := by
  change execSpliceNotice f s = _
  rw [execSpliceNotice, withFrame_of_ok hok]
  simp only [he]

theorem exec_spliceDone_count (hok : frameOk s 3 f = true) (hpoi : f.poi = false) :
    exec (.spliceDone f) s = .next (modPipe s e fun x => { x with confirmed := x.confirmed + 1 }) := by
  change execSpliceDone f s = _
  rw [execSpliceDone, withFrame_of_ok hok]
  simp only [he, hpoi, Bool.false_eq_true, if_false]

end Frames

/-! ## Bindings and links (R319) -/

section Links

variable {s : State} {port chan : Nat} {v : Word}

/-- The channel that a binding's word describes: it waits for its far end. -/
def boundChan (s : State) (port : Nat) (v : Word) : Chan :=
  { en := v.getLsbD 63, owner := bits v 58 5, dev := bits v 38 20, port := bits v 34 4, chan := bits v 30 4
    lost := s.spliceDown.contains port, up := false }

theorem exec_spliceBindingWrite (hport : port < 16) (hchan : chan < 16) : exec (.spliceBindingWrite port chan v) s = .next (
    if bits v 0 28 ≠ 0 ∨ (v.getLsbD 63 = true ∧ (s.part (bits v 58 5)).en = false) then s
    else chanBroken { s with chans := AMap.set s.chans (16 * port + chan) (boundChan s port v) } port chan) := by
  change execSpliceBindingWrite port chan v s = _
  rw [execSpliceBindingWrite]
  refine congrArg Host.Outcome.next (if_congr ?_ rfl rfl)
  simp [Nat.not_le.2 hport, Nat.not_le.2 hchan]

/-- A port's channels are lost. -/
def loseChan (port : Nat) (e : Nat × Chan) : Nat × Chan :=
  if e.1 / 16 = port then (e.1, { e.2 with lost := true, up := false }) else e

/-- A port's link is down. -/
def loseLink (s : State) (port : Nat) : State :=
  { s with spliceDown := insertNat port s.spliceDown, chans := s.chans.map (loseChan port) }

theorem exec_spliceLinkDown (hport : port < 16) (hup : port ∉ s.spliceDown) : exec (.spliceLinkDown port) s =
    .next ((List.range 16).foldl (fun u c => chanBroken u port c)
      (linkLoss (loseLink s port) (1 + port) (chanOwners (loseLink s port) port))) := by
  have hgo : ¬ (16 ≤ port ∨ s.spliceDown.contains port = true) := not_or.2 ⟨Nat.not_le.2 hport, by rwa [List.contains_iff_mem]⟩
  change execSpliceLinkDown port s = _
  rw [execSpliceLinkDown, if_neg (by simpa using hgo)]
  rfl

theorem AMap.get?_map_loseChan {m : AMap Chan} {k : Nat} : AMap.get? (m.map (loseChan port)) k =
    (AMap.get? m k).map fun x => if k / 16 = port then { x with lost := true, up := false } else x := by
  induction m with
  | nil => rfl
  | cons e m ih =>
    obtain ⟨j, x⟩ := e
    have hhead : loseChan port (j, x) = (j, if j / 16 = port then { x with lost := true, up := false } else x) := by
      unfold loseChan
      split <;> rfl
    rw [List.map_cons, hhead, AMap.get?, AMap.get?]
    split
    · rename_i hj
      rw [hj, Option.map_some]
    · exact ih

/-- A channel that is bound is LOST while its port's link is down. -/
theorem chanState_loseLink {c : Nat} {x : Chan} (hc : c < 16) (hx : AMap.get? s.chans (16 * port + c) = some x) (hen : x.en = true) :
    chanState (loseLink s port) port c = 3 := by
  have hkey : (16 * port + c) / 16 = port := by omega
  have hget : AMap.get? (loseLink s port).chans (chanKey port c) = some { x with lost := true, up := false } := by
    rw [loseLink, chanKey, AMap.get?_map_loseChan, hx, Option.map_some, if_pos hkey]
  simp [chanState, hget, hen]

end Links

/-- Settles O43: a frame by its check and its kind, a binding by its word, a link's loss and return. -/
theorem spliceFrames : Obligations.SpliceFrames := by
  unfold Obligations.SpliceFrames
  refine ⟨fun f s => ?frames, fun port chan v s hport hchan => ?binding,
    fun port s hport hup => ⟨exec_spliceLinkDown hport hup, fun c hc x => chanState_loseLink hc⟩, fun port s => rfl⟩
  case frames =>
    exact ⟨exec_spliceTile_dropped, exec_spliceNotice_dropped, exec_spliceRead_dropped, exec_spliceDone_dropped,
      fun b i p x hok he => exec_spliceTile_asked hok he,
      fun bs poi v hok he => exec_spliceTile_write hok he, fun bs poi u hok => exec_spliceRead_read hok,
      fun b i p he => ⟨exec_spliceNotice_count he, exec_spliceDone_count he⟩⟩
  case binding =>
    have hexec := exec_spliceBindingWrite (s := s) (v := v) hport hchan
    refine ⟨fun hzero hpart => ?takes, fun hrefused => ?dropped⟩
    case takes =>
      rw [hexec, if_neg (by simpa [hzero] using hpart)]
      rfl
    case dropped => rw [hexec, if_pos hrefused]

end Sys2Proof.Machine

/-!
Proof of the statement about trap, brk, mark and halt (SystemSlots): what each leaves of a whole set, by whether a session is open and by
whether the partition's breakpoints are enabled.
-/
namespace Sys2Proof.Machine

open Sys2Proof

/-- The BREAK record of a set that asks for a precise stop (R271). -/
def breakRec (s : State) (b : Nat) (m : MSet) (code : Nat) : RecBody :=
  { s.recOf b m.ctx 0x31 2 with
    gate := m.gate, hnum := hnumOf s b m, ix := m.ix, elem := some m.el, slot := m.slot, tag := ownTag s b m
    d0 := word code, d1 := valWord (valA m) }

/-! ## trap, mark and halt (R270, R272, R273) -/

section SystemSlots

variable {c : Common} {f : FormS} {b : Nat} {m : MSet} {s : State} (h : Ready c b m s)

include h

/-- A trap sends nothing: the instance keeps its set until the driver resumes or discards it (R270). -/
theorem exec_trap : exec (.trap c f) s = .next
    (s.taken.takeFault b m.gate m.ix 0x30 (some m.el) m.slot (word f.imm15.toNat, valWord (valA m), 0, 0) (.trap m)) := by
  change execTrap c f s = _
  rw [execTrap, fireSlot_ready h, portWord_a]

/-- The code of a halt that came before stays (R273). -/
theorem exec_halt : exec (.halt c f) s = .next
    (s.taken.modInst b m.gate m.ix fun i => { i with halt := some (i.halt.getD f.imm15.toNat) }) := by
  change execHalt c f s = _
  rw [execHalt, fireSlot_ready h]

theorem exec_mark_of_untraced (hw : traceWants s.taken b m.ctx none = false) :
    exec (.mark c f) s = .next (deliver c (.sc (valWord (valA m))) b m s.taken) := by
  change execMark c f s = _
  simp only [execMark, fireSlot_ready h, hw, portWord_a, Bool.false_eq_true, if_false]

theorem exec_mark_of_traced (hw : traceWants s.taken b m.ctx none = true) :
    exec (.mark c f) s = .next (deliver c (.sc (valWord (valA m))) b m (putTrace s.taken b m.ctx 6 (traceAtOf s.taken b m)
      [word f.imm15.toNat, traceValue s.taken b m.ctx (valWord (valA m))])) := by
  change execMark c f s = _
  simp only [execMark, fireSlot_ready h, hw, portWord_a, if_true]

/-! ## brk (R271) -/

variable {x : CtxRt} (hx : s.ctx? b m.ctx = some x)

include hx

/-- With breakpoints disabled, and while a stop runs or the region is frozen, brk acts as mov. -/
theorem exec_brk_of_barred (hb : (s.part x.part).brkEn = false ∨ stopBars x = true) :
    exec (.brk c f) s = .next (deliver c (valA m) b m s.taken) := by
  have hbarred : (!(s.part x.part).brkEn || stopBars x) = true := by
    obtain hb | hb := hb <;> simp [hb]
  change execBrk c f s = _
  simp only [execBrk, fireSlot_ready h, State.taken_ctx?, State.taken_part, hx, hbarred, if_true]

/-- With breakpoints enabled, and no stop that bars it, brk holds its set and begins a precise stop. -/
theorem exec_brk_of_enabled (he : (s.part x.part).brkEn = true) (hfree : stopBars x = false) :
    exec (.brk c f) s = .next
      (beginStop (s.taken.modCtx b m.ctx fun x => { x with heldSet := some (m, f.imm15.toNat) }) b m.ctx m.gate m.ix
        (breakRec s.taken b m f.imm15.toNat)) := by
  have hgo : (!(s.part x.part).brkEn || stopBars x) = false := by simp [he, hfree]
  change execBrk c f s = _
  simp only [execBrk, fireSlot_ready h, State.taken_ctx?, State.taken_part, hx, hgo, portWord_a, Bool.false_eq_true, if_false]
  rfl

end SystemSlots

/-- Settles O30: each slot is its work on a whole set; a mark by whether its context is traced, a brk by whether it is enabled. -/
theorem systemSlots : Obligations.SystemSlots := by
  unfold Obligations.SystemSlots
  intro c f b m s h t a
  refine ⟨exec_trap h, exec_halt h, exec_mark_of_untraced h, exec_mark_of_traced h, fun x hx =>
    ⟨fun hoff => exec_brk_of_barred h hx (.inl hoff), fun hon hrun hfrozen => ?stop⟩⟩
  case stop => exact exec_brk_of_enabled h hx hon (by simp [stopBars, hrun, hfrozen])

end Sys2Proof.Machine

/-!
Proofs of the statements about the memory's form (MemoryKept) and about power-on (ResetState).
-/
namespace Sys2Proof.Machine

open Sys2Proof

/-! ## Every step keeps the memory's form (R404) -/

/-- No field is held to agree: of `Kept` only the memory's form is left. -/
def noField (_ : Field) : Bool := false

theorem freeAll_noField (l : List Field) : FreeAll noField l := freeAll_of fun _ _ => rfl

/-- Time, the taking up of a candidate, the instruction it runs and what follows it each keep the form. -/
theorem step_kept_form {s t : State} (h : step s = .next t) : Kept noField s t := by
  obtain ⟨_, _, _, _, _, _, _, _, _, _, _, _, _, _⟩ := freeAll_noField
    [.poison, .pkgBad, .bays, .parts, .pf, .chans, .ecc, .flight, .inputs, .picks, .upsets, .fire, .freeCtr]
  have hstart {c : Cand} {i : Option Instr} {u : State} (hu : Cand.start (tick s) c = (i, u)) : Kept noField s u :=
    start_kept kept_self hu
  obtain ⟨-, rfl⟩ | ⟨c, u, -, hu, rfl⟩ | ⟨c, i, u, v, -, hu, hv, rfl⟩ := step_cases h
  · exact tick_kept kept_self
  · exact Cand.finish_kept (hstart hu)
  · exact Cand.finish_kept (exec_kept (freeAll_noField _) (hstart hu) v hv)

/-- Settles O58: every part of a step keeps the form (`step_kept_form`). -/
theorem memoryKept : Obligations.MemoryKept := by
  unfold Obligations.MemoryKept
  exact fun s t hwf h => (step_kept_form h).form hwf

/-! ## Power-on (R378) -/

theorem part_reset (n : Nat) : State.reset.part n = Part.reset := by
  unfold State.part
  split <;> rfl

theorem byte_reset_of_onDie {a : Nat} (h : onDie a = true) : State.reset.byte a = 0 := by
  simp [State.byte, State.reset, memGet?, unlisted, h]

/-- Before boot, boot is all that can happen. -/
theorem cands_reset : cands State.reset = [.own .boot] := rfl

theorem choose_reset : choose State.reset = some (.own .boot) := by
  change (cands State.reset)[Config.freePick State.reset.freeCtr % (cands State.reset).length]? = _
  rw [cands_reset, List.length_singleton, Nat.mod_one]
  rfl

theorem chosen_reset : chosen State.reset = some (.own .boot) := by
  rw [chosen_of_choose choose_reset, tieBreak_of_not_faults (.inl rfl)]

/-- Settles O57: nothing is listed, so on-die bytes and partitions read as at reset, and the one candidate is boot. -/
theorem resetState : Obligations.ResetState := by
  unfold Obligations.ResetState
  refine ⟨rfl, rfl, rfl, rfl, rfl, fun a ha => byte_reset_of_onDie ha, fun n => ?parts, chosen_reset⟩
  case parts =>
    rw [part_reset]
    exact ⟨rfl, rfl⟩

end Sys2Proof.Machine

/-!
Proof of the statement about the launch port, the seed ports, priority changes and a virtual function's window (HostPorts).
-/
namespace Sys2Proof.Machine

open Sys2Proof

/-! ## Sequence numbers (R310, R311) -/

section Sequence

variable {p : Part} {h : Nat}

theorem acceptSeq_next (hnext : h = (p.hacc + 1) % 2 ^ 32) : p.acceptSeq h = (true, { p with hacc := h }) := by
  rw [Part.acceptSeq, if_pos hnext]

theorem acceptSeq_repeat (hnew : h ≠ (p.hacc + 1) % 2 ^ 32) (hold : h = p.hacc ∨ serialBefore h p.hacc = true) :
    p.acceptSeq h = (false, { p with hdup := (p.hdup + 1) % 2 ^ 32 }) := by
  rw [Part.acceptSeq, if_neg hnew, if_pos hold]

theorem acceptSeq_gap (hnew : h ≠ (p.hacc + 1) % 2 ^ 32) (hne : h ≠ p.hacc) (hlate : serialBefore h p.hacc = false) :
    p.acceptSeq h = (false, { p with hgapCnt := (p.hgapCnt + 1) % 2 ^ 32, hgapSeq := h }) := by
  rw [Part.acceptSeq, if_neg hnew, if_neg (by simp [hne, hlate])]

end Sequence

/-! ## The launch port (R308, R314, R315, R332) -/

section LaunchPort

variable {n : Nat} {w : PortWrite} {s : State} {p : Part} {r : LaunchRec}

/-- What a partition makes of a record at its launch port. -/
def Part.takeRec (p : Part) (r : LaunchRec) : Part :=
  let q := p.acceptSeq r.hseq
  if !q.1 then q.2 else if r.cfg = noHandle then q.2.takeChange r else q.2.takeLaunch r

/-- Both instructions are a write to the launch port. -/
theorem exec_launchPort {i : Instr} (hi : i ∈ [Instr.launchRecordWrite n w, .priorityChange n w]) :
    exec i s = .next (launchPort n w s) := by
  simp only [List.mem_cons, List.not_mem_nil, or_false] at hi
  obtain rfl | rfl := hi <;> rfl

theorem launchPort_of_bad (hup : vfUp s n = true) (hbad : w.size ≠ 64 ∨ w.aligned = false) :
    launchPort n w s = s.modPart n fun p => { p with hbad := (p.hbad + 1) % 2 ^ 32 } := by
  simp only [launchPort, hup, Bool.not_true, Bool.false_eq_true, if_false]
  exact if_pos (by simpa using hbad)

theorem launchPort_of_good (hup : vfUp s n = true) (hsize : w.size = 64) (hal : w.aligned = true) :
    launchPort n w s = s.modPart n fun _ => (s.part n).takeRec (launchRec w.data) := by
  simp [launchPort, hup, hsize, hal, Part.takeRec]

theorem takeRec_of_unaccepted {q : Part} (h : p.acceptSeq r.hseq = (false, q)) : p.takeRec r = q := by
  simp [Part.takeRec, h]

variable (hseq : r.hseq = (p.hacc + 1) % 2 ^ 32)

include hseq

theorem takeRec_launch (hcfg : r.cfg ≠ noHandle) : p.takeRec r = { p with hacc := r.hseq }.takeLaunch r := by
  simp only [Part.takeRec, acceptSeq_next hseq, hcfg, Bool.not_true, Bool.false_eq_true, if_false]

theorem takeRec_change (hcfg : r.cfg = noHandle) : p.takeRec r = { p with hacc := r.hseq }.takeChange r := by
  simp only [Part.takeRec, acceptSeq_next hseq, hcfg, Bool.not_true, Bool.false_eq_true, if_false, if_true]

end LaunchPort

section Records

variable {p : Part} {r : LaunchRec}

theorem takeLaunch_of_ok {c : Loaded} (h : launchCheck p r = .ok c) :
    p.takeLaunch r = { p with launches := p.launches ++ [r.launch c.ctx] }.refreshReady := by
  rw [Part.takeLaunch, h]

theorem takeLaunch_of_error {k : Nat} (h : launchCheck p r = .error k) : p.takeLaunch r = p.refuseRec r k := by
  rw [Part.takeLaunch, h]

theorem takeChange_of_ok (hok : r.changeOk = true) (hwaits : r.waitsOk = true) : p.takeChange r = p.setPrio (r.waits.headD 0) r.prio := by
  simp [Part.takeChange, hok, hwaits]

/-- A change that may not be made is refused for its fields before its wait. -/
theorem takeChange_of_refused (h : r.changeOk = false ∨ r.waitsOk = false) :
    p.takeChange r = p.refuseRec r (if r.changeOk then 4 else 1) := by
  cases hok : r.changeOk with
  | false => simp [Part.takeChange, hok]
  | true =>
    have hwaits : r.waitsOk = false := h.resolve_left (by simp [hok])
    simp [Part.takeChange, hok, hwaits]

theorem setPrio_of_found {h prio : Nat} {l : Launch} (hl : p.launches.find? (fun l => l.hseq == h) = some l) :
    let u := p.modLaunch h fun l => if l.st == .finished then l else { l with prio := prio }
    p.setPrio h prio = if l.st = .queued ∨ l.st = .ready then u.toTailOf h else u := by
  intro u
  simp only [Part.setPrio, hl]
  exact if_congr (by simp) rfl rfl

end Records

/-! ## The window (R308) -/

section Window

variable {n off size : Nat} {d : BitVec 1280} {s : State}

theorem vfWrite_launch (h : vfPlace off = .launch) : vfWrite n off size d s = launchPort n ⟨size, off == 0x1000, d⟩ s := by
  rw [vfWrite, h]

theorem vfWrite_reserved (h : vfPlace off = .reserved) : vfWrite n off size d s = s := by
  rw [vfWrite, h]

theorem vfReadByte_reserved (h : vfPlace off = .reserved) : vfReadByte s n off = some 0 := by
  rw [vfReadByte, h]

theorem vfPlace_reserved (h : 0x40 ≤ off ∧ off < 0x1000 ∨ 0x1040 ≤ off ∧ off < 0x100000 ∨ 0x200000 ≤ off) :
    vfPlace off = .reserved := by
  rw [vfPlace, if_neg (by omega), if_neg (by omega), if_neg (by omega)]

end Window

/-! ## The seed ports (R317, R318) -/

/-- The token of a seed write: a vector, or a scalar. -/
def portToken (d : BitVec 1280) : Token :=
  ⟨if d.getLsbD 192 then .vec (d.extractLsb' 256 1024) else .sc (word (bits d 128 64)), false, false⟩

/-- A launch that has taken one more seed. -/
def Launch.seeded (l : Launch) : Launch := { l with seeds := l.seeds + 1 }

theorem exec_seedWrite {n k : Nat} {w : PortWrite} {s : State} {l : Launch} (hup : vfUp s n = true) (hk : k < 4096)
    (hsize : w.size = if w.data.getLsbD 192 then 160 else 32) (hal : w.aligned = true)
    (hseq : bits w.data 0 32 = ((s.part n).hacc + 1) % 2 ^ 32)
    (hl : seedCheck { s.part n with hacc := bits w.data 0 32 } k w.data = .ok l) :
    exec (.seedWrite n k w) s = .next (takeSeed
      ((s.modPart n fun _ => { s.part n with hacc := bits w.data 0 32 }).modLaunch n l.hseq fun _ => l.seeded) n l.seeded
      (some (bits w.data 0 32)) k (word (bits w.data 64 64)) (portToken w.data)) := by
  have hpresent : ¬ ((!vfUp s n) = true ∨ 4096 ≤ k) := by simp [hup, Nat.not_le.2 hk]
  have hfits : ¬ (w.size ≠ (if w.data.getLsbD 192 = true then 160 else 32) ∨ (!w.aligned) = true) := by simp [hsize, hal]
  change execSeedWrite n k w s = _
  rw [execSeedWrite, seedWrite]
  simp only [if_neg hpresent, if_neg hfits, acceptSeq_next hseq, hl, Bool.not_true, Bool.false_eq_true, if_false]
  rfl

/-- Settles O44: a record by its number, its check and its handle; a place of the window by its offset; a seed by its check. -/
theorem hostPorts : Obligations.HostPorts := by
  unfold Obligations.HostPorts
  refine ⟨fun n w s hup hsize hal => ?launch, fun n w s hup hbad i hi => ?bad, fun n off size d s => ?window,
    fun n k w s l hup hk hsize hal => exec_seedWrite hup hk hsize hal⟩
  case launch =>
    intro r p gives
    have hgives {q : Part} (h : p.takeRec r = q) : gives q := fun i hi => by
      rw [exec_launchPort hi, launchPort_of_good hup hsize hal, h]
    refine ⟨fun hold hnew => hgives (takeRec_of_unaccepted (acceptSeq_repeat hnew hold)),
      fun hne hlate hnew => hgives (takeRec_of_unaccepted (acceptSeq_gap hnew hne hlate)), fun hseq => ?next⟩
    intro q
    refine ⟨fun c hcfg hc => hgives ?_, fun k hcfg hk => hgives ?_, fun hcfg hok hwaits l hl => hgives ?_,
      fun hcfg hno => hgives ?_⟩
    · rw [takeRec_launch hseq hcfg, takeLaunch_of_ok hc]
    · rw [takeRec_launch hseq hcfg, takeLaunch_of_error hk]
      rfl
    · rw [takeRec_change hseq hcfg, takeChange_of_ok hok hwaits, setPrio_of_found hl]
    · rw [takeRec_change hseq hcfg, takeChange_of_refused hno]
      rfl
  case bad => rw [exec_launchPort hi, launchPort_of_bad hup hbad]
  case window =>
    exact ⟨vfWrite_launch, fun h => ⟨vfWrite_reserved h, vfReadByte_reserved h⟩, vfPlace_reserved⟩

end Sys2Proof.Machine

/-!
Proof of the statement about LOAD, its completion and UNLOAD (Loading).
-/
namespace Sys2Proof.Machine

open Sys2Proof

/-! ## LOAD (R285, R289, R323) -/

section Load

variable {n : Nat} {cmd : Word} {s : State}

/-- The load block has taken a LOAD: it is BUSY, and what it will complete with is known. -/
def loadBegun (n : Nat) (cmd : Word) (s : State) (st : Nat) (e : Word) (c : Option Loaded) : State :=
  s.modPart n fun p => { p with ldStat := p.ldStat ||| 1, job := some ⟨bits cmd 32 32, st, e, c⟩ }

/-- The bytes of the object that a LOAD reads. -/
def loadBytes (n : Nat) (s : State) : List Byte :=
  s.readBytes (hostKey Config.parts (s.part n).ldAddr.toNat) (s.part n).ldLen.toNat

/-- A configuration installed on every bay of the partition, its images and descriptors written, its CONST pages sealed. -/
def loadInstalled (n ctx : Nat) (s : State) (c : Loaded) (f : ObjFile) (t : State) : State :=
  readBackOf (s.part n) ctx ((s.part n).bayList.foldl (installOn c n (s.part n).ldBayWin.toNat)
    (writeGroups (sealConst n f (writeImages n f t)) n c))

variable (hcmd : loadCmdOk s n cmd 1 = true)

include hcmd

theorem exec_load_early {st : Nat} (h : loadEarly s n (bits cmd 8 3) = some st) :
    exec (.load n cmd) s = .next (loadBegun n cmd s st 0 none) := by
  change execLoad n cmd s = _
  simp only [execLoad, hcmd, h, Bool.not_true, Bool.false_eq_true, if_false]
  rfl

variable (hearly : loadEarly s n (bits cmd 8 3) = none)

include hearly

theorem exec_load_refused {st : Nat} {e : Word} (h : loadObject s n (bits cmd 8 3) (loadBytes n s) = (st, e, none)) :
    exec (.load n cmd) s = .next (loadBegun n cmd s st e none) := by
  unfold loadBytes at h
  change execLoad n cmd s = _
  simp only [execLoad, hcmd, hearly, h, Bool.not_true, Bool.false_eq_true, if_false]
  rfl

theorem exec_load_installs {st : Nat} {e : Word} {c : Loaded} {f : ObjFile} {t : State}
    (h : loadObject s n (bits cmd 8 3) (loadBytes n s) = (st, e, some (c, f, t))) (hstill : (imagesFate s n f.datas).2 = false) :
    exec (.load n cmd) s = .next (loadBegun n cmd (loadInstalled n (bits cmd 8 3) s c f t) 0 0 (some c)) := by
  unfold loadBytes at h
  change execLoad n cmd s = _
  simp only [execLoad, hcmd, hearly, h, hstill, Bool.not_true, Bool.false_eq_true, if_false]
  rfl

end Load

/-- A partition whose LOAD has completed: the handle names what it has installed. -/
def Part.loaded (p : Part) (j : LoadJob) : Part :=
  match j.cfg with
  | none => p.loadDone j.cseq j.status j.err
  | some c => { p.loadDone j.cseq j.status j.err with configs := AMap.set (p.loadDone j.cseq j.status j.err).configs c.ctx c }

/-- A LOAD completes once no bay that it needs is being zeroised (R323, R374). -/
theorem exec_loadComplete {n : Nat} {s : State} {j : LoadJob} (hj : (s.part n).job = some j)
    (hbays : j.cfg ≠ none → ∀ b ∈ (s.part n).bayList, (s.bay b).zero = false) :
    exec (.loadComplete n) s = .next (s.modPart n fun p => p.loaded j) := by
  have hdue : loadDue s n = true := by
    unfold loadDue
    rw [hj, Option.any_some]
    cases hc : j.cfg with
    | none => rfl
    | some c => simpa using hbays (by simp [hc])
  change execLoadComplete n s = _
  simp only [execLoadComplete, hdue, hj, Bool.not_true, Bool.false_eq_true, if_false]
  rfl

/-! ## UNLOAD (R323) -/

section Unload

variable {n : Nat} {cmd : Word} {s : State} (hcmd : loadCmdOk s n cmd 2 = true) (hpart : noPart s (s.part n) = false)

/-- An UNLOAD that ends with a status and does nothing. -/
def unloadFails (n : Nat) (cmd : Word) (s : State) (st : Nat) : State :=
  s.modPart n fun p => p.loadDone (bits cmd 32 32) st p.ldErr

include hcmd hpart

theorem exec_unload_unnamed (hnone : (s.part n).byHandle (s.part n).ldHandle.toNat = none) :
    exec (.unload n cmd) s = .next (unloadFails n cmd s 3) := by
  change execUnload n cmd s = _
  simp only [execUnload, hcmd, hpart, hnone, Bool.not_true, Bool.false_eq_true, if_false]
  rfl

variable {c : Loaded} (hc : (s.part n).byHandle (s.part n).ldHandle.toNat = some c)

include hc

theorem exec_unload_elsewhere (hctx : c.ctx ≠ bits cmd 8 3) : exec (.unload n cmd) s = .next (unloadFails n cmd s 3) := by
  change execUnload n cmd s = _
  simp only [execUnload, hcmd, hpart, hc, hctx, ne_eq, not_false_eq_true, or_true, Bool.not_true, Bool.false_eq_true, if_false, if_true]
  rfl

variable (hh : (s.part n).ldHandle.toNat ≠ 0xFFFFFFFF) (hctx : c.ctx = bits cmd 8 3)

include hh hctx

theorem exec_unload_inUse (huse : (s.part n).inUse (s.part n).ldHandle.toNat = true) :
    exec (.unload n cmd) s = .next (unloadFails n cmd s 4) := by
  change execUnload n cmd s = _
  simp only [execUnload, hcmd, hpart, hc, hh, hctx, huse, ne_eq, not_true_eq_false, or_false, Bool.not_true, Bool.false_eq_true, if_false,
    if_true]
  rfl

theorem exec_unload_frees (huse : (s.part n).inUse (s.part n).ldHandle.toNat = false) :
    exec (.unload n cmd) s = .next (((s.part n).bayList.foldl (unloadBay (bits cmd 8 3)) s).modPart n fun p =>
      { p.loadDone (bits cmd 32 32) 0 p.ldErr with configs := AMap.erase p.configs (bits cmd 8 3) }) := by
  change execUnload n cmd s = _
  simp only [execUnload, hcmd, hpart, hc, hh, hctx, huse, ne_eq, not_true_eq_false, or_false, Bool.not_true, Bool.false_eq_true, if_false]

end Unload

/-- Settles O46: a LOAD by what stops it, its completion, an UNLOAD by what its handle names. -/
theorem loading : Obligations.Loading := by
  unfold Obligations.Loading
  refine ⟨fun n cmd s hcmd => ?load, fun n s j hj hbays => ?complete, fun n cmd s hcmd hpart => ?unload⟩
  case load =>
    exact ⟨fun st => exec_load_early hcmd, fun hearly => ⟨fun st e => exec_load_refused hcmd hearly,
      fun st e c f t => exec_load_installs hcmd hearly⟩⟩
  case complete => exact exec_loadComplete hj hbays
  case unload =>
    exact ⟨exec_unload_unnamed hcmd hpart, fun c hc hh => ⟨exec_unload_elsewhere hcmd hpart hc, exec_unload_inUse hcmd hpart hc hh,
      exec_unload_frees hcmd hpart hc hh⟩⟩

end Sys2Proof.Machine

/-!
Proof of the statement about selection, binding, configuration and turns (Distributor).
-/
namespace Sys2Proof.Machine

open Sys2Proof

/-! ## Selection (R325, R328) -/

/-- One more launch is looked at: it is kept if it is greater in priority than what was kept before. -/
def keepGreater (a : Option Launch) (l : Launch) : Option Launch :=
  match a with
  | none => some l
  | some k => if k.prio < l.prio then some l else a

theorem keepGreater_eq_some {a : Option Launch} {x l : Launch} (h : keepGreater a x = some l) : l = x ∨ a = some l := by
  cases a with
  | none => exact .inl (Option.some.inj h).symm
  | some k =>
    change (if k.prio < x.prio then some x else some k) = some l at h
    split at h
    · exact .inl (Option.some.inj h).symm
    · exact .inr h

/-- What is kept is no less in priority than the launch looked at, nor than what was kept before. -/
theorem le_keepGreater {a : Option Launch} {x k : Launch} (hk : k = x ∨ a = some k) :
    ∃ j, keepGreater a x = some j ∧ k.prio ≤ j.prio := by
  cases a with
  | none =>
    obtain rfl : k = x := hk.resolve_right (by simp)
    exact ⟨k, rfl, le_rfl⟩
  | some i =>
    by_cases hlt : i.prio < x.prio
    · refine ⟨x, if_pos hlt, ?_⟩
      obtain rfl | hk := hk
      · exact le_rfl
      · cases hk
        exact hlt.le
    · refine ⟨i, if_neg hlt, ?_⟩
      obtain rfl | hk := hk
      · exact Nat.not_lt.1 hlt
      · cases hk
        exact le_rfl

/-- The launch kept is one of those looked at, or the one kept before, and no launch of either has a greater priority. -/
theorem foldl_keepGreater {l : Launch} : ∀ (ls : List Launch) (a : Option Launch), ls.foldl keepGreater a = some l →
    (l ∈ ls ∨ a = some l) ∧ ∀ k, k ∈ ls ∨ a = some k → k.prio ≤ l.prio
  | [], a, h => ⟨.inr h, fun k hk => by
      obtain rfl : k = l := Option.some.inj ((hk.resolve_left List.not_mem_nil).symm.trans h)
      exact le_rfl⟩
  | x :: ls, a, h => by
    obtain ⟨hmem, hle⟩ := foldl_keepGreater ls (keepGreater a x) h
    have hfirst {k : Launch} (hk : k = x ∨ a = some k) : k.prio ≤ l.prio := by
      obtain ⟨j, hj, hkj⟩ := le_keepGreater hk
      exact hkj.trans (hle j (.inr hj))
    constructor
    · obtain hmem | hkeep := hmem
      · exact .inl (.tail _ hmem)
      · exact (keepGreater_eq_some hkeep).imp_left fun hx => List.mem_cons.2 (.inl hx)
    · rintro k (hk | hk)
      · obtain rfl | hk := List.mem_cons.1 hk
        · exact hfirst (.inl rfl)
        · exact hle k (.inl hk)
      · exact hfirst (.inr hk)

/-- The launches that may be selected: READY and within the quota. -/
def Part.selectable (p : Part) : List Launch := p.launches.filter fun l => l.st == .ready && p.eligible l

theorem mem_selectable {p : Part} {l : Launch} : l ∈ p.selectable ↔ l ∈ p.launches ∧ l.st = .ready ∧ p.eligible l = true := by
  simp [Part.selectable]

theorem foldl_of_choice {p : Part} {l : Launch} (h : p.choice = some l) : p.selectable.foldl keepGreater none = some l := by
  unfold Part.choice at h
  split at h
  · cases h
  · exact h

theorem exec_selectLaunch {n : Nat} {s : State} {l : Launch} (h : (s.part n).choice = some l) :
    exec (.selectLaunch n) s = .next (s.modPart n fun p => { p with launches := p.launches.map fun k =>
      if k.hseq = l.hseq then { k with st := .selected, marked := false } else { k with marked := false } }) := by
  change execSelectLaunch n s = _
  rw [execSelectLaunch, h]

/-! ## Fitting and binding (R324, R329, R335, R370) -/

section Bind

variable {n : Nat} {s : State} {l : Launch} {m free : List Nat}

theorem length_rectangle {o rows cols : Nat} (h : rectangle o rows cols = some m) : m.length = rows * cols := by
  unfold rectangle at h
  split at h
  · cases h
    simp
  · cases h

/-- A rectangle found is one, and each of its bays fits. -/
theorem firstRect_spec (h : firstRect s n l free = some m) :
    m.length = l.rows * l.cols ∧ ∀ b ∈ m, bayFits s n l free b = true := by
  obtain ⟨o, -, ho⟩ := List.exists_of_findSome?_eq_some h
  cases hr : rectangle o l.rows l.cols with
  | none => simp [hr] at ho
  | some bs =>
    simp only [hr] at ho
    split at ho
    · rename_i hall
      cases ho
      exact ⟨length_rectangle hr, List.all_eq_true.1 hall⟩
    · cases ho

theorem firstRect_of_fitting (h : fitting s n l free = some m) : firstRect s n l free = some m := by
  unfold fitting at h
  dsimp only at h
  split at h
  · exact h
  · cases h

/-- A bay of the partition, in use and not being zeroised, that has a launch's context loaded and not bound. -/
def BayFree (s : State) (n : Nat) (l : Launch) (b : Nat) : Prop :=
  (s.part n).hasBay b = true ∧ b ∉ s.offline ∧ (s.bay b).zero = false ∧ ∃ c, s.ctx? b l.ctx = some c ∧ c.part = n ∧ c.bound = none

/-- When no launch is taken as gone, a bay that fits is free. -/
theorem bayFree_of_bayFits {b : Nat} (h : bayFits s n l [] b = true) : BayFree s n l b := by
  unfold BayFree
  unfold bayFits at h
  cases hc : s.ctx? b l.ctx with
  | none => simp [hc] at h
  | some c =>
    cases hb : c.bound with
    | none => simpa [hc, hb, and_assoc] using h
    | some k => simp [hc, hb] at h

theorem fitting_spec (h : fitting s n l [] = some m) : m.length = l.rows * l.cols ∧ ∀ b ∈ m, BayFree s n l b := by
  obtain ⟨hlen, hfits⟩ := firstRect_spec (firstRect_of_fitting h)
  exact ⟨hlen, fun b hb => bayFree_of_bayFits (hfits b hb)⟩

theorem makingRoom_of_bindsTo (h : bindsTo s n l = some m) : (s.part n).makingRoom l = [] := by
  unfold bindsTo at h
  split at h
  · cases h
  · rename_i hroom
    simpa using hroom

theorem fitting_of_bindsTo (h : bindsTo s n l = some m) : fitting s n l [] = some m := by
  unfold bindsTo at h
  split at h
  · cases h
  · exact (Option.filter_eq_some_iff.1 h).1

variable (hsel : (s.part n).selected = some l) (hbind : bindsTo s n l = some m)

include hsel hbind

theorem exec_bind_fresh (hi : l.image = none) : exec (.bind n) s = .next (bindTo s n l m) := by
  change execBind n s = _
  simp only [execBind, hsel, hbind, hi]

theorem exec_bind_restores {i : Image} (hi : l.image = some i) (hok : imageFails s n l i = none) :
    exec (.bind n) s = .next (bindTo s n l m) := by
  change execBind n s = _
  simp only [execBind, hsel, hbind, hi, hok]

theorem exec_bind_holds {i : Image} {off : Nat} (hi : l.image = some i) (hbad : imageFails s n l i = some off) :
    exec (.bind n) s = .next (holdLaunch s n l off) := by
  change execBind n s = _
  simp only [execBind, hsel, hbind, hi, hbad]

end Bind

/-! ## The configuration-complete wave (R357) -/

theorem exec_cfg {b : Nat} {p : Packet} {s : State} {c : CtxRt} (hc : s.ctx? b p.ctx = some c) (hb : c.bound ≠ none) :
    exec (.cfg b p) s = .next (s.emit (wavePacket 3 p.src b p.ctx (p.body 212 8) c.position 0 0 0)) := by
  have hbound : c.bound.isNone = false := Option.isNone_eq_false_iff.2 (Option.isSome_iff_ne_none.2 hb)
  change execCfg b p s = _
  simp only [execCfg, hc, hbound, Bool.false_eq_true, if_false]

section Acks

variable {b n : Nat} {p : Packet} {s : State} {l : Launch} (hl : originLaunch s b p.ctx = some (n, l)) (hst : l.st = .binding)
  (hw : p.body 212 8 = l.wseq)

include hl hst hw

theorem exec_cfgack_waits (hless : (insertNat (p.body 205 7) l.acks).length < l.rows * l.cols) :
    exec (.cfgack b p) s = .next (s.modLaunch n l.hseq fun k => { k with acks := insertNat (p.body 205 7) l.acks }) := by
  change execCfgack b p s = _
  simp only [execCfgack, hl, hst, hw, Launch.area, hless, bne_self_eq_false, Bool.or_self, Bool.false_eq_true, if_false, if_true]

theorem exec_cfgack_last (hall : l.rows * l.cols ≤ (insertNat (p.body 205 7) l.acks).length) :
    exec (.cfgack b p) s = .next (releaseSeeds (s.modPart n fun q =>
      { q.modLaunch l.hseq (fun l => { l with st := .bound, acks := [], turns := 0, boundAt := q.bindNo + 1 }) with
        bindNo := q.bindNo + 1 }) n l) := by
  change execCfgack b p s = _
  simp only [execCfgack, hl, hst, hw, Launch.area, Nat.not_lt.2 hall, bne_self_eq_false, Bool.or_self, Bool.false_eq_true, if_false]

end Acks

/-! ## Turns (R331) -/

theorem exec_turnNotice {b ctx : Nat} {s : State} {c : CtxRt} (hc : s.ctx? b ctx = some c) (hb : c.bound ≠ none)
    (hdue : c.fireStart + 2 ^ 24 ≤ c.fires) :
    exec (.turnNotice b ctx) s = .next ((s.modCtx b ctx fun c => { c with fireStart := c.fireStart + 2 ^ 24 }).emit
      (wavePacket 4 c.origin b ctx 0 c.position 0 0 0)) := by
  have hnotice : noticeDue s b ctx = true := by
    rw [noticeDue, hc, Option.any_some, Option.isSome_iff_ne_none.2 hb, turnFires, decide_eq_true hdue, Bool.and_self]
  change execTurnNotice b ctx s = _
  simp only [execTurnNotice, hc, hnotice, turnFires, Bool.not_true, Bool.false_eq_true, if_false]

section Turn

variable {b n : Nat} {p : Packet} {s : State} {l : Launch} (hl : originLaunch s b p.ctx = some (n, l))

include hl

theorem exec_turn_counts (hless : l.turns < 255) :
    exec (.turn b p) s = .next (s.modLaunch n l.hseq fun l => { l with cancelled := false, turns := l.turns + 1 }) := by
  have hmore : ¬ 256 ≤ l.turns + 1 := by omega
  change execTurn b p s = _
  simp only [execTurn, hl, hmore, decide_false, Bool.false_and, Bool.or_false, if_false]

theorem exec_turn_ends (hlast : 255 ≤ l.turns) :
    let mark := l.st == .bound && (s.part n).selected.any fun k => k.prio == l.prio
    exec (.turn b p) s =
      .next (s.modLaunch n l.hseq fun l => { l with cancelled := false, turns := 0, marked := l.marked || mark }) := by
  have hdone : 256 ≤ l.turns + 1 := by omega
  change execTurn b p s = _
  simp only [execTurn, hl, hdone, decide_true, Bool.true_and, if_true]

end Turn

/-- Settles O47: the choice by induction on what is looked at, a binding by its image, an acknowledgement and a turn by their count. -/
theorem distributor : Obligations.Distributor := by
  unfold Obligations.Distributor
  refine ⟨fun n s l => exec_selectLaunch, fun n s l hl => ?choice, fun n s l m hsel hbind => ?bind, fun s n l m => fitting_spec,
    fun b p s c => exec_cfg, fun b p s n l hl hst hw => ⟨exec_cfgack_waits hl hst hw, exec_cfgack_last hl hst hw⟩,
    fun b ctx s c => exec_turnNotice, fun b p s n l hl => ⟨exec_turn_counts hl, exec_turn_ends hl⟩⟩
  case choice =>
    obtain ⟨hmem, hgreatest⟩ := foldl_keepGreater _ _ (foldl_of_choice hl)
    obtain ⟨hin, hready, hquota⟩ := mem_selectable.1 (hmem.resolve_right (by simp))
    exact ⟨hin, hready, hquota, fun k hk hst hel => hgreatest k (.inl (mem_selectable.2 ⟨hk, hst, hel⟩))⟩
  case bind =>
    exact ⟨makingRoom_of_bindsTo hbind, fitting_of_bindsTo hbind, exec_bind_fresh hsel hbind,
      fun i hi => ⟨exec_bind_restores hsel hbind hi, fun off => exec_bind_holds hsel hbind hi⟩⟩

end Sys2Proof.Machine

/-!
Proof of the statement about the pre-emption cut (Cuts): markers, the snapshot, the second stage, the image as it grows, cancelling.
-/
namespace Sys2Proof.Machine

open Sys2Proof

/-! ## Markers (R359, R360) -/

section Marker

variable {b n : Nat} {p : Packet} {s : State} {l : Launch} {c : CtxRt}

/-- The first marker of the cut numbered `k` stops the bay for a context. -/
def cutStop (b ctx k : Nat) (s : State) : State :=
  s.modBay b fun y =>
    { y with
      noReply := insertNat ctx y.noReply
      ctxs := AMap.upd y.ctxs ctx fun c => { c with cut := some ⟨k, true, false, [], false⟩ } }

/-- A channel's marker brings its count. -/
def cutCount (b : Nat) (p : Packet) (s : State) : State :=
  s.modCtx b p.ctx fun c =>
    { c with cut := c.cut.map fun q => { q with marks := q.marks ++ [(p.body 205 7, p.body 128 32)] } }

variable (hl : boundLaunch s b p.ctx = some (n, l)) (hst : l.st = .saving) (hk : l.cutNo = p.body 212 8)
  (hc : s.ctx? b p.ctx = some c)

include hl hst hk hc

theorem exec_marker_first (hcut : c.cut = none) : exec (.marker b p) s =
    .next (if p.body 200 1 = 1 then cutStop b p.ctx l.cutNo s else cutCount b p (cutStop b p.ctx l.cutNo s)) := by
  change execMarker b p s = _
  simp only [execMarker, hl, hst, hk, hc, hcut, Option.bind_some, Option.any_none, Option.isSome_none, bne_self_eq_false, Bool.or_self,
    Bool.false_eq_true, if_false]
  rfl

theorem exec_marker_later {q : Cut} (hcut : c.cut = some q) (hq : q.wseq = l.cutNo) : exec (.marker b p) s =
    .next (if p.body 200 1 = 1 then s else cutCount b p s) := by
  change execMarker b p s = _
  simp only [execMarker, hl, hst, hk, hc, hcut, hq, Option.bind_some, Option.any_some, beq_self_eq_true, bne_self_eq_false, Bool.or_self,
    Bool.false_eq_true, if_false, if_true]
  rfl

end Marker

/-! ## The snapshot and the bay's save (R360, R361, R399) -/

section Snapshot

variable {b ctx : Nat} {s : State} {c : CtxRt} (hc : s.ctx? b ctx = some c)

include hc

section Spill

/-- The cut that a bay's context is in. -/
def CtxRt.cutSeq (c : CtxRt) : Nat := (c.cut.map (·.wseq)).getD 0

/-- The bay's waiting tokens are gathered and its wait counters spilled, and whether none of the spills waits. -/
def cutSpill (b ctx : Nat) (c : CtxRt) (s : State) : Bool × State := spillAll ctx (true, gatherTokens b ctx c.position s) b

/-- The bay's snapshot is taken and saved. -/
def cutSnap (b ctx : Nat) (c : CtxRt) (s : State) : State :=
  saveFirst (s.modCtx b ctx fun c => { c with cut := c.cut.map fun q => { q with snapped := true } }) b ctx c.cutSeq

/-- A bay's count goes to a position that it has a channel to. -/
def sendMark (b ctx : Nat) (c : CtxRt) (s : State) (p : Nat) : State :=
  match c.bayAt p with
  | none => s
  | some d => s.emit (wavePacket 5 d b ctx c.cutSeq c.position 0 0 (AMap.getD c.sent p 0))

variable (hready : snapReady s b ctx = true)

include hready

theorem exec_snapshot_waits (hspill : (cutSpill b ctx c s).1 = false) : exec (.snapshot b ctx) s = .next (cutSpill b ctx c s).2 := by
  unfold cutSpill at hspill
  change execSnapshot b ctx s = _
  simp only [execSnapshot, hc, hready, hspill, Bool.not_true, Bool.not_false, Bool.false_eq_true, if_false, if_true]
  rfl

theorem exec_snapshot_taken (hspill : (cutSpill b ctx c s).1 = true) :
    exec (.snapshot b ctx) s = .next (c.chansOut.foldl (sendMark b ctx c) (cutSnap b ctx c (cutSpill b ctx c s).2)) := by
  unfold cutSpill at hspill
  change execSnapshot b ctx s = _
  simp only [execSnapshot, hc, hready, hspill, Bool.not_true, Bool.false_eq_true, if_false]
  rfl

end Spill

theorem exec_baySaveComplete {q : Cut} (hcut : c.cut = some q) (hsnap : q.snapped = true) (hsaved : q.saved = false)
    (hall : ∀ a ∈ c.chansIn, ∃ m ∈ q.marks, m.1 = a ∧ m.2 % 2 ^ 32 = AMap.getD c.rcvd a 0 % 2 ^ 32) :
    exec (.baySaveComplete b ctx) s = .next ((s.modCtx b ctx fun c => { c with cut := c.cut.map fun q => { q with saved := true } }).emit
      (wavePacket 6 c.origin b ctx q.wseq c.position 0 0 0)) := by
  have hcounts : (c.chansIn.all fun a => q.marks.any fun m => m.1 == a && m.2 % 2 ^ 32 == AMap.getD c.rcvd a 0 % 2 ^ 32) = true := by
    simpa only [List.all_eq_true, List.any_eq_true, Bool.and_eq_true, beq_iff_eq] using hall
  have hready : saveReady s b ctx = true := by
    rw [saveReady, hc, Option.any_some, hcut, Option.any_some, hsnap, hsaved, hcounts]
    rfl
  change execBaySaveComplete b ctx s = _
  simp only [execBaySaveComplete, hc, hready, hcut, Option.map_some, Option.getD_some, Bool.not_true, Bool.false_eq_true, if_false]

end Snapshot

/-! ## The second stage (R360) -/

theorem length_insertNat {k : Nat} {l : List Nat} (h : k ∉ l) : (insertNat k l).length = l.length + 1 := by
  induction l with
  | nil => rfl
  | cons j l ih =>
    obtain ⟨hj, hl⟩ := not_or.1 (mt List.mem_cons.2 h)
    simp only [insertNat, if_neg hj]
    split
    · rfl
    · rw [List.length_cons, ih hl, List.length_cons]

section Origin

variable {b n : Nat} {p : Packet} {s : State} {l : Launch} (hl : cutOf s b p = some (n, l))

include hl

section Saved

/-- The positions that have reported their save, with the one that reports now. -/
def savedNow (p : Packet) (l : Launch) : List Nat := insertNat (p.body 205 7) l.savedBy

theorem exec_saved_waits (hless : (savedNow p l).length < l.rows * l.cols) :
    exec (.saved b p) s = .next (s.modLaunch n l.hseq fun k => { k with savedBy := savedNow p l }) := by
  have hwait : (insertNat (p.body 205 7) l.savedBy).length < l.area ∨ (insertNat (p.body 205 7) l.savedBy).length = l.savedBy.length :=
    .inl hless
  change execSaved b p s = _
  simp only [execSaved, hl, hwait, if_true]
  rfl

theorem exec_saved_last (hall : l.rows * l.cols ≤ (savedNow p l).length) (hnew : p.body 205 7 ∉ l.savedBy) :
    let t := s.modLaunch n l.hseq fun k => { k with savedBy := savedNow p l }
    exec (.saved b p) s = .next ((t.regionMap n l).foldl (fun u d => u.emit (wavePacket 8 d b l.ctx l.cutNo 0 0 0 0)) t) := by
  have hgo : ¬ ((insertNat (p.body 205 7) l.savedBy).length < l.area ∨
      (insertNat (p.body 205 7) l.savedBy).length = l.savedBy.length) := by
    refine not_or.2 ⟨Nat.not_lt.2 hall, ?_⟩
    rw [length_insertNat hnew]
    omega
  change execSaved b p s = _
  simp only [execSaved, hl, hgo, if_false]
  rfl

end Saved

theorem exec_lsaved_waits (hless : (insertNat (p.body 205 7) l.lsavedBy).length < l.rows * l.cols) :
    exec (.lsaved b p) s = .next (s.modLaunch n l.hseq fun k => { k with lsavedBy := insertNat (p.body 205 7) l.lsavedBy }) := by
  change execLsaved b p s = _
  simp only [execLsaved, hl, Launch.area, hless, if_true]

theorem exec_lsaved_last (hall : l.rows * l.cols ≤ (insertNat (p.body 205 7) l.lsavedBy).length) :
    exec (.lsaved b p) s = .next (completeImage s n l) := by
  change execLsaved b p s = _
  simp only [execLsaved, hl, Launch.area, Nat.not_lt.2 hall, if_false]

end Origin

theorem exec_lsave {b n : Nat} {p : Packet} {s : State} {c : CtxRt} {l : Launch} (hc : s.ctx? b p.ctx = some c)
    (hl : boundLaunch s b p.ctx = some (n, l)) (hst : l.st = .saving) (hk : l.cutNo = p.body 212 8) :
    exec (.lsave b p) s = .next ((growImage s n (l.saved s n) fun i =>
      { i with bays := AMap.upd i.bays c.position (saveRest s b p.ctx) }).emit (wavePacket 9 p.src b p.ctx l.cutNo c.position 0 0 0)) := by
  change execLsave b p s = _
  simp only [execLsave, hc, hl, hst, hk, bne_self_eq_false, Bool.or_self, Bool.false_eq_true, if_false]

/-! ## The image (R361, R364) -/

theorem saveFirst_eq {b ctx n : Nat} {s : State} {c : CtxRt} {l : Launch} (hc : s.ctx? b ctx = some c)
    (hl : boundLaunch s b ctx = some (n, l)) (hst : l.st = .saving) : saveFirst s b ctx l.cutNo =
      growImage s n (l.saved s n) fun i => { i with bays := AMap.set i.bays c.position ⟨saveBay (s.bay b) ctx, [], []⟩ } := by
  simp only [saveFirst, hc, hl, hst, bne_self_eq_false, Bool.or_self, Bool.false_eq_true, if_false]

section Grow

variable {s : State} {n : Nat} {l : Launch} {f : Image → Image} {i : Image} {bs : List Byte} (hi : l.image = some i)
  (hbs : imageBytes l ((s.part n).nbvOf l) (f i) (posIn (s.regionMap n l)) = bs)

include hi hbs

theorem growImage_of_past (h : (s.part n).runEnd (f i).off < (f i).off + bs.length) : growImage s n l f = cancelCut s n l 2 := by
  simp only [growImage, hi, hbs, h, if_true]

theorem growImage_of_fits (h : (f i).off + bs.length ≤ (s.part n).runEnd (f i).off) : growImage s n l f =
    homeWrite (s.modLaunch n l.hseq fun l => { l with image := some { f i with len := bs.length } })
      (imageEnc (s.part n) n) (imageKey (s.part n) (f i)) bs (List.replicate bs.length false) := by
  simp only [growImage, hi, hbs, Nat.not_lt.2 h, if_false]

end Grow

/-! ## Cancelling (R362) -/

theorem exec_cancel {b : Nat} {p : Packet} {s : State} {q : Cut} (hq : (s.ctx? b p.ctx).bind (·.cut) = some q)
    (hk : q.wseq = p.body 212 8) : exec (.cancel b p) s = .next (kick (leaveCut p.ctx s b) b) := by
  change execCancel b p s = _
  simp only [execCancel, hq, hk, beq_self_eq_true, if_true]

/-- Settles O48: a marker by whether it is the first, a snapshot by whether a spill waits, a report by its count, an image by its end. -/
theorem cuts : Obligations.Cuts := by
  unfold Obligations.Cuts
  refine ⟨fun b p s n l c hl hst hk hc => ?marker, fun b ctx s c hc hready => ?snapshot,
    fun b ctx s c q hc => exec_baySaveComplete hc, fun b p s n l hl => ⟨exec_saved_waits hl, exec_saved_last hl⟩,
    fun b p s c n l => exec_lsave, fun b ctx s c n l => saveFirst_eq, fun s n l f i hi => ?image,
    fun b p s n l hl => ⟨exec_lsaved_waits hl, exec_lsaved_last hl⟩, fun b p s q => exec_cancel⟩
  case marker =>
    refine ⟨fun hcut hbit => ?_, fun hcut hbit => ?_, fun q hcut hq hbit => ?_⟩
    · rw [exec_marker_first hl hst hk hc hcut, if_pos hbit]
      rfl
    · rw [exec_marker_first hl hst hk hc hcut, if_neg (by omega)]
      rfl
    · rw [exec_marker_later hl hst hk hc hcut hq, if_neg (by omega)]
      rfl
  case image =>
    intro p bs
    exact ⟨growImage_of_past hi rfl, growImage_of_fits hi rfl⟩
  case snapshot => exact ⟨exec_snapshot_waits hc hready, exec_snapshot_taken hc hready⟩

end Sys2Proof.Machine

/-!
Proof of the statement about commands on faults and the end of a precise stop (FaultCommands).
-/
namespace Sys2Proof.Machine

open Sys2Proof

/-! ## A command on an outstanding fault (R353, R363) -/

section Commands

variable {n : Nat} {cmd : Word} {s : State} {f : OutFault}

/-- A command's result stands in FCSTAT. -/
def fcmdReports (n : Nat) (cmd : Word) (s : State) (r : Nat) : State := s.modPart n fun p => p.fcResult (bits cmd 32 32) r

/-- The fault that a command is on has ended. -/
def fcmdEnds (n : Nat) (cmd : Word) (s : State) : State :=
  s.modPart n fun p => { p with faults := p.faults.filter fun g => g.dseq != bits cmd 32 32 }

variable {o : FOpc} {again : Instr} (hn : n ≤ Config.parts) (hzero : bitsZero cmd 0 30 = true) (hopc : bits cmd 30 2 = o.code)
  (hf : (s.part n).faults.find? (fun f => f.dseq == bits cmd 32 32 && f.body.frz != 0) = some f)

include hn hzero hopc hf

/-- A command that is well formed comes to its fault: it waits for the restore, or it has its result. -/
theorem fcmd_eq : fcmd o again n cmd s =
    if (o != .endLaunch && faultWaits s n f) = true then { s with flight := again :: s.flight }
    else if fcmdResult s o f ≠ 0 then fcmdReports n cmd s (fcmdResult s o f)
    else fcmdReports n cmd (fcmdAct n o f (fcmdEnds n cmd s)) 0 := by
  have hgo : (!fcmdOk cmd o || decide (Config.parts < n)) = false := by simp [fcmdOk, hzero, hopc, hn]
  simp only [fcmd, hgo, hf, Bool.false_eq_true, if_false]
  rfl

theorem fcmd_of_waits (ho : o ≠ .endLaunch) (hw : faultWaits s n f = true) :
    fcmd o again n cmd s = { s with flight := again :: s.flight } := by
  rw [fcmd_eq hn hzero hopc hf, if_pos (by simp [ho, hw])]

variable (hgo : o = .endLaunch ∨ faultWaits s n f = false)

include hgo

theorem fcmd_eq_now : fcmd o again n cmd s = if fcmdResult s o f ≠ 0 then fcmdReports n cmd s (fcmdResult s o f)
    else fcmdReports n cmd (fcmdAct n o f (fcmdEnds n cmd s)) 0 := by
  rw [fcmd_eq hn hzero hopc hf, if_neg]
  obtain rfl | hw := hgo
  · simp
  · simp [hw]

theorem fcmd_of_done (hr : fcmdResult s o f = 0) :
    fcmd o again n cmd s = fcmdReports n cmd (fcmdAct n o f (fcmdEnds n cmd s)) 0 := by
  rw [fcmd_eq_now hn hzero hopc hf hgo, if_neg (not_not.2 hr)]

theorem fcmd_of_unsuited {r : Nat} (hr : fcmdResult s o f = r) (hne : r ≠ 0) : fcmd o again n cmd s = fcmdReports n cmd s r := by
  rw [fcmd_eq_now hn hzero hopc hf hgo, hr, if_pos hne]

end Commands

/-! ## What a command comes to (R353, R354) -/

section Results

variable {n b g ix : Nat} {s : State} {f : OutFault}

theorem fcmdResult_discard_inst {i : Inst} (hu : f.unit = .inst b g ix) (hi : s.inst? b g ix = some i) :
    fcmdResult s .discard f = if i.pinned then 2 else 0 := by
  simp only [fcmdResult, hu, hi, Option.any_some]

theorem fcmdResult_discard_other (hu : ∀ b g ix, f.unit ≠ .inst b g ix) : fcmdResult s .discard f = 3 := by
  cases hf : f.unit with
  | inst b g ix => exact absurd hf (hu b g ix)
  | _ => simp only [fcmdResult, hf]

theorem fcmdAct_discard (hu : f.unit = .inst b g ix) : fcmdAct n .discard f s = discardInst (purgeInst s b g ix) b g ix := by
  simp only [fcmdAct, hu]

theorem fcmdResult_zfill_none (hz : zfillRow f = none) : fcmdResult s .zfill f = 4 := by
  simp [fcmdResult, hz]

variable {i p row : Nat} (hz : zfillRow f = some (b, i, p, row))

include hz

theorem fcmdResult_zfill_some : fcmdResult s .zfill f = 0 := by
  simp [fcmdResult, hz]

theorem fcmdAct_zfill : fcmdAct n .zfill f s = s.modPort b i p fun q =>
    { q with stall := q.stall.filter (· != f.dseq), run := q.run.map fun x => { x with zfill := insertNat row x.zfill } } := by
  simp only [fcmdAct, hz]
  rfl

end Results

theorem resumeUnit_inst {n b g ix : Nat} {i : Inst} {s : State} {f : OutFault} (hu : f.unit = .inst b g ix)
    (hi : s.inst? b g ix = some i) : resumeUnit n f s = kick (takeReplies b g ix i.replies
      (goAgain b i.again ((s.unfreeze b g ix).modInst b g ix fun i => { i with replies := [] }))) b := by
  simp only [resumeUnit, hu, resumeInst, hi]

/-! ## A precise stop (R390) -/

theorem exec_preciseStopComplete {n h : Nat} {s : State} {l : Launch} {r : RecBody} (hl : s.launch? n h = some l) (hr : l.brk = some r)
    (hst : l.st = .bound) (hall : ∀ b ∈ s.regionBays n l.ctx l.hseq, othersAll s b l.ctx (fun _ _ i => i.st == .frozen) = true) :
    exec (.preciseStopComplete n h) s = .next (((s.fault n r (.region h true)).freezeRegion n l.ctx h true).modLaunch n h fun l =>
      { l with brk := none, quiet := false }) := by
  have hfrozen : ((s.regionBays n l.ctx l.hseq).all fun b => othersAll s b l.ctx fun _ _ i => i.st == .frozen) = true :=
    List.all_eq_true.2 hall
  have hdone : stopDone s n l = true := by
    simp only [stopDone, hr, hst, hfrozen, Option.isSome_some, beq_self_eq_true, Bool.and_self, Bool.true_or]
  change execPreciseStopComplete n h s = _
  simp only [execPreciseStopComplete, hl, hr, hdone, Bool.not_true, Bool.false_eq_true, if_false]

/-- Settles O49: a command by whether its fault waits for a restore and by what it comes to there. -/
theorem faultCommands : Obligations.FaultCommands := by
  unfold Obligations.FaultCommands
  refine ⟨fun n cmd s f hn hzero hf => ?commands, fun n h s => rfl, fun n b g ix i s f => resumeUnit_inst,
    fun n h s l r => exec_preciseStopComplete⟩
  case commands =>
    intro d result t
    obtain ⟨hdseq, -⟩ : f.dseq = d ∧ f.body.frz ≠ 0 := by simpa using List.find?_some hf
    have hnext {u v : State} (h : u = v) : (Host.Outcome.next u : Res) = .next v := congrArg _ h
    refine ⟨fun hopc hw => hnext ?resumes, fun hopc hw => hnext ?waits, fun hopc => hnext ?ends, fun hopc hw =>
      ⟨fun b g ix i hu hi => ⟨fun hpin => hnext ?discards, fun hpin => hnext ?pinned⟩, fun hu => hnext ?noInst⟩, fun hopc hw =>
        ⟨fun hz => hnext ?noGather, fun b i p row hz => hnext ?zeroFills⟩⟩
    case resumes => exact fcmd_of_done (o := .resume) hn hzero hopc hf (.inr hw) rfl
    case waits => exact fcmd_of_waits (o := .resume) hn hzero hopc hf (by decide) hw
    case ends => exact fcmd_of_done (o := .endLaunch) hn hzero hopc hf (.inl rfl) rfl
    case discards =>
      have hres : fcmdResult s .discard f = 0 := by
        rw [fcmdResult_discard_inst hu hi, hpin]
        rfl
      rw [fcmd_of_done (o := .discard) hn hzero hopc hf (.inr hw) hres, fcmdAct_discard hu]
      rfl
    case pinned =>
      have hres : fcmdResult s .discard f = 2 := by
        rw [fcmdResult_discard_inst hu hi, hpin]
        rfl
      exact fcmd_of_unsuited (o := .discard) hn hzero hopc hf (.inr hw) hres (by decide)
    case noInst =>
      exact fcmd_of_unsuited (o := .discard) hn hzero hopc hf (.inr hw) (fcmdResult_discard_other hu) (by decide)
    case noGather =>
      exact fcmd_of_unsuited (o := .zfill) hn hzero hopc hf (.inr hw) (fcmdResult_zfill_none hz) (by decide)
    case zeroFills =>
      rw [fcmd_of_done (o := .zfill) hn hzero hopc hf (.inr hw) (fcmdResult_zfill_some hz), fcmdAct_zfill hz, hdseq]
      rfl

end Sys2Proof.Machine

/-!
Proof of the statement about scrubbers, corrected errors, monitors and operating points (ErrorsAndMonitors).
-/
namespace Sys2Proof.Machine

open Sys2Proof

/-! ## Scrubbers (R355, R381) -/

section Scrub

variable {s : State}

/-- What a bay's scrubber makes of one wrong word of the configuration. -/
def scrubConfig (b : Nat) (s : State) (e : ConfigErr) : State :=
  if e.correctable then eccCorrected s e.loc (configIndex s b e) (some b) 0
  else eccDeferred (poisonConfig s b e) e.loc (configIndex s b e) (some b) 0

theorem exec_configScrub (b : Nat) (es : List ConfigErr) (s : State) :
    exec (.configScrub b es) s = .next (es.foldl (scrubConfig b) s) := rfl

theorem exec_configScrub_cons {b : Nat} {e : ConfigErr} {es : List ConfigErr} {t : State}
    (h : exec (.configScrub b [e]) s = .next t) : exec (.configScrub b (e :: es)) s = exec (.configScrub b es) t := by
  rw [exec_configScrub] at h
  cases h
  rfl

theorem exec_loftScrub_skips {b off : Nat} (err : UnitErr) (h : writePending s (loftKey b (off / 8 * 8)) 8 = true) :
    exec (.loftScrub b off err) s = .next s := by
  change execLoftScrub b off err s = _
  rw [execLoftScrub, if_pos (.inr (.inr h))]

theorem exec_lpddrScrub_skips {a : Nat} (err : UnitErr) (h : writePending s (a / 32 * 32) 32 = true) :
    exec (.lpddrScrub a err) s = .next s := by
  change execLpddrScrub a err s = _
  rw [execLpddrScrub, if_pos (.inr h)]

/-- A loft word as the scrubber finds it. -/
def scrubLoft (s : State) (b a : Nat) : UnitErr → State
  | .clean => s
  | .corrected => eccCorrected s 9 (a / 0x10000) (some b) a
  | .uncorrectable => eccDeferred { s with poison := insertNat a s.poison } 9 (a / 0x10000) (some b) a

theorem exec_loftScrub {b off : Nat} (hoff : off < Config.slice) (hb : b < Config.bays)
    (h : writePending s (loftKey b (off / 8 * 8)) 8 = false) (err : UnitErr) :
    exec (.loftScrub b off err) s = .next (scrubLoft s b (loftKey b (off / 8 * 8)) err) := by
  have hgo : ¬ (Config.slice ≤ off ∨ Config.bays ≤ b ∨ writePending s (loftKey b (off / 8 * 8)) 8 = true) := by
    simp [Nat.not_le.2 hoff, Nat.not_le.2 hb, h]
  change execLoftScrub b off err s = _
  rw [execLoftScrub, if_neg hgo]
  cases err <;> rfl

/-- A sector of LPDDR as the scrubber finds it; no bay reports it. -/
def scrubLpddr (s : State) (a : Nat) : UnitErr → State
  | .clean => s
  | .corrected => eccCorrected s 10 (a / 0x10000) none a
  | .uncorrectable => eccDeferred { s with pkgBad := insertNat a s.pkgBad } 10 (a / 0x10000) none a

theorem exec_lpddrScrub {a : Nat} (ha : a < Config.lpddr) (h : writePending s (a / 32 * 32) 32 = false) (err : UnitErr) :
    exec (.lpddrScrub a err) s = .next (scrubLpddr s (a / 32 * 32) err) := by
  have hgo : ¬ (Config.lpddr ≤ a ∨ writePending s (a / 32 * 32) 32 = true) := by simp [Nat.not_le.2 ha, h]
  change execLpddrScrub a err s = _
  rw [execLpddrScrub, if_neg hgo]
  cases err <;> rfl

end Scrub

/-! ## Corrected errors (R382) -/

section Corrected

variable {s : State} {loc k : Nat} {e : EccCnt}

theorem exec_eccCorrectedInterval (h : s.ecc.find? (fun e => e.loc == loc && e.key == k) = some e) :
    exec (.eccCorrectedInterval loc k) s = .next (if e.over s then endInterval s e else s) := by
  change execEccCorrectedInterval loc k s = _
  rw [execEccCorrectedInterval, h]

/-- The interval that ends is that of the location named. -/
theorem endInterval_of_found (h : s.ecc.find? (fun e => e.loc == loc && e.key == k) = some e) :
    let t := { s with ecc := s.ecc.filter fun e => !(e.loc == loc && e.key == k) }
    endInterval s e = if e.more = 0 then t else logEcc t 0x81 loc e.idx e.bay 0 e.more := by
  obtain ⟨rfl, rfl⟩ : e.loc = loc ∧ e.key = k := by simpa using List.find?_some h
  rfl

theorem over_iff {b : Nat} (hb : e.bay = some b) : e.over s = true ↔ e.since + 2 ^ 24 ≤ (s.bay b).clk := by
  rw [EccCnt.over, hb, Option.all_some, decide_eq_true_iff]

theorem eccCorrected_first {idx b addr : Nat} (h : s.ecc.find? (fun e => e.loc == loc && e.key == eccKey idx (some b)) = none) :
    eccCorrected s loc idx (some b) addr =
      logEcc { s with ecc := s.ecc ++ [⟨loc, idx, some b, 0, (s.bay b).clk⟩] } 0x81 loc idx (some b) addr 1 := by
  rw [eccCorrected]
  simp only [h]
  rfl

end Corrected

/-! ## Monitors (R383, R384) -/

section Monitors

variable {b : Nat} {s : State}

/-- A bay's monitor as it stands after an update. -/
def State.setMon (s : State) (b : Nat) (m : Monitor) : State := s.modBay b fun y => { y with mon := m }

theorem State.modMon_eq (f : Monitor → Monitor) : s.modMon b f = s.setMon b (f (s.bay b).mon) := rfl

@[simp] theorem State.setMon_setMon (m m' : Monitor) : (s.setMon b m).setMon b m' = s.setMon b m' := State.modBay_modBay

@[simp] theorem State.mon_setMon (m : Monitor) : ((s.setMon b m).bay b).mon = m := by
  rw [State.setMon, State.bay_modBay]

variable (hb : b < Config.bays)

include hb

section Temp

variable {r : BitVec 32}

/-- A bay's monitor once a reading has come, its alarm armed or not. -/
def tempRead (s : State) (b : Nat) (r : BitVec 32) (armed : Bool) : State :=
  s.setMon b { (s.bay b).mon with temp := r, armed := armed }

theorem exec_tempSample_hot (hhot : (s.bay b).mon.tempThr.toInt ≤ r.toInt) : exec (.tempSample b r) s =
    .next (if (s.bay b).mon.armed then
      alarm (tempRead s b r false) b 0x84 (r.signExtend 64) ((s.bay b).mon.tempThr.signExtend 64)
      else tempRead s b r (s.bay b).mon.armed) := by
  change execTempSample b r s = _
  simp only [execTempSample, Nat.not_le.2 hb, hhot, State.modMon_eq, State.setMon_setMon, State.mon_setMon, if_false, if_true]
  rfl

theorem exec_tempSample_cool (hcool : r.toInt < (s.bay b).mon.tempThr.toInt) : exec (.tempSample b r) s =
    .next (if r.toInt < (s.bay b).mon.tempThr.toInt - (s.bay b).mon.tempHys.toNat then tempRead s b r true
      else tempRead s b r (s.bay b).mon.armed) := by
  change execTempSample b r s = _
  simp only [execTempSample, Nat.not_le.2 hb, Int.not_le.2 hcool, State.modMon_eq, State.setMon_setMon, State.mon_setMon, if_false]
  rfl

end Temp

/-- A bay's monitor once a droop has counted. -/
def droopCounted (s : State) (b : Nat) (since : BitVec 32) : State :=
  s.setMon b { (s.bay b).mon with droopCnt := (s.bay b).mon.droopCnt + 1, droopAt := since }

theorem exec_voltageDroop {depth : Nat} (hdeep : bits (s.bay b).mon.droopCfg 0 16 < depth) :
    let m := (s.bay b).mon
    exec (.voltageDroop b depth) s =
      .next (if bits m.droopCfg 16 16 = 0 ∨ (m.droopCnt + 1 - m.droopAt).toNat < bits m.droopCfg 16 16 then droopCounted s b m.droopAt
        else alarm (droopCounted s b (m.droopCnt + 1)) b 0x85 ((m.droopCnt + 1).setWidth 64) (word (bits m.droopCfg 16 16))) := by
  change execVoltageDroop b depth s = _
  simp only [execVoltageDroop, Nat.not_le.2 hb, Nat.not_le.2 hdeep, State.modMon_eq, State.setMon_setMon, State.mon_setMon, if_false]
  rfl

theorem exec_processInterval (c : BitVec 32) :
    let t := s.modBay b fun y => { y with mon := { y.mon with procNow := c } }
    let lo := (s.bay b).mon.procMin
    exec (.processInterval b c) s = .next (if c.toNat < lo.toNat then alarm t b 0x86 (c.setWidth 64) (lo.setWidth 64) else t) := by
  change execProcessInterval b c s = _
  simp only [execProcessInterval, Nat.not_le.2 hb, State.modMon, State.bay_modBay, if_false]

end Monitors

/-! ## Operating points (R385) -/

section OperatingPoints

variable {d : Nat} {s : State}

theorem onlyIn_op : ∀ op < 4, onlyIn (word op) [(63, 1), (0, 2)] = true ∧ bits (word op) 0 8 = op := by decide

theorem exec_dieopWrite {op : Nat} (hd : d < 2) (hop : op < 4) (hidle : (s.dieOp d).busy = false) :
    exec (.dieopWrite d (word op)) s = .next { s with dieop := AMap.set s.dieop d ⟨op, true⟩ } := by
  obtain ⟨honly, hbits⟩ := onlyIn_op op hop
  have hgo : ¬ (2 ≤ d ∨ (s.dieOp d).busy = true ∨ (!onlyIn (word op) [(63, 1), (0, 2)]) = true) := by
    simp [Nat.not_le.2 hd, hidle, honly]
  change execDieopWrite d (word op) s = _
  rw [execDieopWrite, if_neg hgo, hbits]

theorem dieOp_set_ne {e : Nat} {x : DieOp} (he : e ≠ d) : State.dieOp { s with dieop := AMap.set s.dieop d x } e = s.dieOp e :=
  AMap.getD_set_ne he

theorem dieOp_upd {x : DieOp} (hx : AMap.get? s.dieop d = some x) (f : DieOp → DieOp) :
    State.dieOp { s with dieop := AMap.upd s.dieop d f } d = f x := by
  simp [State.dieOp, AMap.getD, hx]

end OperatingPoints

/-- Settles O51: a scrub by what it finds, an interval by whether it is over, a reading by where it lies, a droop by what it makes due. -/
theorem errorsAndMonitors : Obligations.ErrorsAndMonitors := by
  unfold Obligations.ErrorsAndMonitors
  refine ⟨fun b e s => rfl, fun b e es s t => exec_configScrub_cons, fun b off err s => exec_loftScrub_skips err,
    fun a err s => exec_lpddrScrub_skips err, fun b off s hoff hb => ?loft, fun a s ha => ?lpddr, fun loc k s e he => ?interval,
    fun s loc idx b addr => eccCorrected_first, fun b r s hb => ?temp, fun b depth s hb hdeep => ?droop,
    fun b c s hb => exec_processInterval hb c, fun d op s hd hop hidle => ?writes, fun d s x hx => ?settles⟩
  case loft =>
    intro a hfree
    have hexec := exec_loftScrub hoff hb hfree
    exact ⟨hexec .clean, hexec .corrected, hexec .uncorrectable⟩
  case lpddr =>
    intro q hfree
    have hexec := exec_lpddrScrub ha hfree
    exact ⟨hexec .clean, hexec .corrected, hexec .uncorrectable⟩
  case interval =>
    intro t
    have hexec := exec_eccCorrectedInterval he
    exact ⟨fun hover => by rw [hexec, if_pos hover, endInterval_of_found he],
      fun hover => hexec.trans (congrArg _ (if_neg (ne_true_of_eq_false hover))), fun b => over_iff⟩
  case temp =>
    intro m t
    refine ⟨fun hhot harm => ?_, fun hhot harm => ?_, fun hcold => ?_, fun hcool hwarm => ?_⟩
    · rw [exec_tempSample_hot hb hhot, if_pos harm]
      rfl
    · have hoff : (s.bay b).mon.armed = false := harm
      rw [exec_tempSample_hot hb hhot, hoff]
      rfl
    · have hcool : r.toInt < m.tempThr.toInt := hcold.trans_le (Int.sub_le_self _ (Int.natCast_nonneg _))
      rw [exec_tempSample_cool hb hcool, if_pos hcold]
      rfl
    · rw [exec_tempSample_cool hb hcool, if_neg (Int.not_lt.2 hwarm)]
      rfl
  case droop =>
    intro m lim t
    have hexec := exec_voltageDroop hb hdeep
    exact ⟨fun hfew => hexec.trans (congrArg _ (if_pos hfew)),
      fun hpos hdue => hexec.trans (congrArg _ (if_neg (not_or.2 ⟨hpos.ne', Nat.not_lt.2 hdue⟩)))⟩
  case writes => exact ⟨_, exec_dieopWrite hd hop hidle, AMap.getD_set_self, fun e => dieOp_set_ne⟩
  case settles => exact ⟨_, rfl, dieOp_upd hx _⟩

end Sys2Proof.Machine

/-!
Proof of the statement about partitions, zeroisation, policies, sealed blobs, attestation, boot and registers (Partitions).
-/
namespace Sys2Proof.Machine

open Sys2Proof

@[simp] theorem State.part_modPart {s : State} {n : Nat} {f : Part → Part} : (s.modPart n f).part n = f (s.part n) := by
  unfold State.part State.modPart
  split
  · rfl
  · exact AMap.getD_set_self

/-! ## Creation and teardown (R372) -/

section Pctl

variable {n : Nat} {v : Word} {s : State} (hn : n < Config.parts) (honly : onlyIn v [(60, 4), (44, 16), (1, 1)] = true)
  (hstill : (s.part n).still = true)

theorem getLsbD_pctl {k : Nat} (hk : 1 < k) (hk' : k < 64) : (putBits v 1 1 0).getLsbD k = v.getLsbD k := by
  rw [getLsbD_putBits (by omega) hk', if_neg (by omega)]

theorem en_create0 (p : Part) (k : Nat) : (p.create0 v k).en = v.getLsbD 63 := getLsbD_pctl (by omega) (by omega)

theorem encl_create0 (p : Part) (k : Nat) : (p.create0 v k).encl = (v.getLsbD 63 && v.getLsbD 62) :=
  congrArg₂ and (getLsbD_pctl (by omega) (by omega)) (getLsbD_pctl (by omega) (by omega))

/-- A partition whose EN ends. -/
def Part.closed (p : Part) : Part := { p with pctl := putBits p.pctl 63 1 0 }

theorem en_closed (p : Part) : p.closed.en = false := by
  unfold Part.closed Part.en
  rw [getLsbD_putBits (by omega) (by omega), if_pos (by omega), Nat.zero_testBit]

include hn honly hstill

theorem pctl_goes : ¬ (Config.parts ≤ n ∨ (!onlyIn v [(60, 4), (44, 16), (1, 1)]) = true ∨ (!(s.part n).still) = true) := by
  simp [Nat.not_le.2 hn, honly, hstill]

theorem exec_pctlWrite_creates (hv : v.getLsbD 63 = true) (hoff : (s.part n).en = false) (hfree : bayTaken s n (s.part n) = false) :
    let t := s.modPart n fun p => p.create0 v (nextEpoch s)
    exec (.pctlWrite n v) s = .next (if v.getLsbD 62 then wipeBays t n (s.part n).bayList else t) := by
  change execPctlWrite n v s = _
  simp only [execPctlWrite, if_neg (pctl_goes hn honly hstill), hv, hoff, hfree, State.part_modPart, encl_create0, Bool.true_and,
    Bool.or_self, Bool.false_eq_true, if_false, if_true]

theorem exec_pctlWrite_closes (hv : v.getLsbD 63 = false) (hon : (s.part n).en = true) :
    let t := s.modPart n Part.closed
    exec (.pctlWrite n v) s = .next (if (s.part n).encl then wipeBays t n (s.part n).bayList else t) := by
  have hclosed : (s.modPart n fun p => { p with pctl := if p.en then putBits p.pctl 63 1 0 else putBits v 1 1 0 }) =
      s.modPart n Part.closed := State.modPart_congr (by simp only [hon, if_true]; rfl)
  change execPctlWrite n v s = _
  simp only [execPctlWrite, if_neg (pctl_goes hn honly hstill), hv, hclosed, hon, Bool.true_and, Bool.false_eq_true, if_false]

end Pctl

theorem exec_baysWrite {n k : Nat} {v : Word} {s : State} (hn : n < Config.parts) (hk : k < 3) (hzero : k = 2 → bitsZero v 32 32 = true)
    (hstill : (s.part n).still = true) (hfree : (s.part n).en = true → bayTaken s n ((s.part n).setBays k v) = false) :
    let p := s.part n
    let q := p.setBays k v
    exec (.baysWrite n k v) s = .next (if p.en && p.encl then
      wipeBays (s.modPart n fun _ => q) n ((List.range Config.bays).filter fun b => p.hasBay b != q.hasBay b)
      else s.modPart n fun _ => q) := by
  have hgo : ¬ (Config.parts ≤ n ∨ 3 ≤ k ∨ (k = 2 ∧ (!bitsZero v 32 32) = true) ∨ (!(s.part n).still) = true) := by
    rintro (h | h | ⟨h, hz⟩ | h)
    · omega
    · omega
    · simp [hzero h] at hz
    · simp [hstill] at h
  have hnew : ((s.part n).en && bayTaken s n ((s.part n).setBays k v)) = false := by
    cases hen : (s.part n).en with
    | false => rfl
    | true => rw [hfree hen, Bool.and_false]
  change execBaysWrite n k v s = _
  simp only [execBaysWrite, if_neg hgo, hnew, Bool.false_eq_true, if_false]

/-! ## Zeroisation ends (R374) -/

section Zeroise

variable {n : Nat} {s : State}

/-- A bay that is no longer being zeroised. -/
def freeBay (s : State) (b : Nat) : State := s.modBay b fun y => { y with zero := false }

theorem zero_foldl_freeBay (bs : List Nat) (b : Nat) (s : State) :
    ((bs.foldl freeBay s).bay b).zero = if b ∈ bs then false else (s.bay b).zero := by
  induction bs generalizing s with
  | nil => rfl
  | cons c bs ih =>
    rw [List.foldl_cons, ih]
    by_cases hb : b ∈ bs
    · rw [if_pos hb, if_pos (List.mem_cons_of_mem _ hb)]
    · by_cases hc : b = c
      · subst hc
        rw [if_neg hb, if_pos List.mem_cons_self, freeBay, State.bay_modBay]
      · rw [if_neg hb, if_neg (by simp [hc, hb]), freeBay, State.bay_modBay_ne hc]

/-- What is still being zeroised when a partition's zeroisation has ended. -/
def zeroRest (n : Nat) (s : State) : List (Nat × Nat) := s.zeroQ.filter fun e => e.1 != n

/-- The bays that were being zeroised for a partition and for no other. -/
def zeroFreed (n : Nat) (s : State) : List Nat :=
  ((s.zeroQ.filter fun e => e.1 == n).map (·.2)).filter fun b => !(zeroRest n s).any fun e => e.2 == b

theorem mem_zeroRest {e : Nat × Nat} : e ∈ zeroRest n s ↔ e ∈ s.zeroQ ∧ e.1 ≠ n := by
  simp [zeroRest]

theorem mem_zeroFreed {e : Nat × Nat} (he : e ∈ s.zeroQ) (hn : e.1 = n) :
    e.2 ∈ zeroFreed n s ↔ ∀ z ∈ s.zeroQ, z.2 = e.2 → z.1 = n := by
  have hmine : e.2 ∈ (s.zeroQ.filter fun e => e.1 == n).map (·.2) :=
    List.mem_map.2 ⟨e, List.mem_filter.2 ⟨he, by simp [hn]⟩, rfl⟩
  rw [zeroFreed, List.mem_filter]
  constructor
  · rintro ⟨-, hnone⟩ z hz hze
    by_contra hne
    simp only [Bool.not_eq_true', List.any_eq_false, beq_iff_eq] at hnone
    exact hnone z (mem_zeroRest.2 ⟨hz, hne⟩) hze
  · intro hall
    refine ⟨hmine, ?_⟩
    simp only [Bool.not_eq_true', List.any_eq_false, beq_iff_eq]
    exact fun z hz hze => (mem_zeroRest.1 hz).2 (hall z (mem_zeroRest.1 hz).1 hze)

/-- The machine once a partition's zeroisation has ended. -/
def zeroised (n : Nat) (s : State) : State :=
  { (zeroFreed n s).foldl freeBay s with zeroQ := zeroRest n s }.modPart n fun p => { p with zbusy := false }

theorem exec_zeroiseComplete (n : Nat) (s : State) : exec (.zeroiseComplete n) s = .next (zeroised n s) := rfl

@[simp] theorem State.bay_modPart {b : Nat} {f : Part → Part} : (s.modPart n f).bay b = s.bay b := by
  unfold State.modPart
  split <;> rfl

@[simp] theorem State.zeroQ_modPart {f : Part → Part} : (s.modPart n f).zeroQ = s.zeroQ := by
  unfold State.modPart
  split <;> rfl

theorem zero_zeroised (b : Nat) : ((zeroised n s).bay b).zero = if b ∈ zeroFreed n s then false else (s.bay b).zero := by
  rw [zeroised, State.bay_modPart]
  exact zero_foldl_freeBay _ b s

end Zeroise

/-! ## Policies (R212, R373, R377) -/

section Policies

variable {n : Nat} {s : State} (hn : n < Config.parts)

/-- A policy's word, read field by field. -/
theorem scope_word : ∀ k < 6, 3 ≤ k → ∀ sat < 2, onlyIn (word (8 * sat + k)) [(0, 4)] = true ∧
    bits (word (8 * sat + k)) 0 3 = k ∧ bits (word (8 * sat + k)) 0 4 = 8 * sat + k := by decide

include hn

theorem exec_scopepolWrite {k sat : Nat} (hlo : 3 ≤ k) (hhi : k ≤ 5) (hsat : sat < 2) :
    exec (.scopepolWrite n (word (8 * sat + k))) s = .next (s.modPart n fun p => { p with scopePol := 8 * sat + k }) := by
  obtain ⟨honly, hk, hall⟩ := scope_word k (by omega) hlo sat hsat
  have hgo : ¬ (Config.parts ≤ n ∨ (!onlyIn (word (8 * sat + k)) [(0, 4)]) = true ∨ bits (word (8 * sat + k)) 0 3 < 3 ∨
      5 < bits (word (8 * sat + k)) 0 3) := by
    simp [Nat.not_le.2 hn, honly, hk, hlo, hhi]
  change execScopepolWrite n _ s = _
  rw [execScopepolWrite, if_neg hgo, hall]

theorem exec_dbgctlWrite_zero : exec (.dbgctlWrite n 0) s = .next (s.modPart n fun p => { p with dbgctl := false }) := by
  have hgo : ¬ (Config.parts ≤ n ∨ (!onlyIn 0 [(0, 1)]) = true ∨ ((0 : Word).getLsbD 0 = true ∧ (s.part n).hidesBrk = true)) := by
    simpa [Nat.not_le.2 hn] using (by decide : onlyIn 0 [(0, 1)] = true)
  change execDbgctlWrite n 0 s = _
  rw [execDbgctlWrite, if_neg hgo]
  rfl

theorem exec_dbgctlWrite_one : exec (.dbgctlWrite n 1) s =
    .next (if (s.part n).hidesBrk then s else s.modPart n fun p => { p with dbgctl := true }) := by
  have honly : onlyIn 1#64 [(0, 1)] = true := by decide
  change execDbgctlWrite n 1 s = _
  rw [execDbgctlWrite]
  refine congrArg Host.Outcome.next (if_congr ?_ rfl rfl)
  simp [Nat.not_le.2 hn, honly]

end Policies

/-! ## Sealed blobs (R376) -/

section Unseal

variable {n : Nat} {v : Word} {s : State}

/-- An unseal has its status in SEALCMD. -/
def sealAnswers (n : Nat) (v : Word) (s : State) (st : Nat) : State := s.modPart n fun p => p.sealDone (bits v 32 32) st

/-- A blob's header, and the length of what it seals. -/
def sealHeader (n : Nat) (s : State) : List Byte := s.readBytes (s.part n).sealSrc.toNat 1664
def sealLen (n : Nat) (s : State) : Nat := fieldOf (sealHeader n s) 4 4

/-- The secret that a blob's ciphertext carries, and the keys drawn from it. -/
def sealSecret (n : Nat) (s : State) : List Byte := sharedSecret (s.part n).epochNo (((sealHeader n s).drop 72).take 1568)
def sealKeys (n : Nat) (s : State) : BitVec 512 := sha3Val (sealSecret n s ++ (sealHeader n s).take 8)

/-- What a blob seals, in units of 32 bytes, decrypted. -/
def sealPlain (n : Nat) (s : State) : List (List Byte) :=
  (List.range (sealLen n s / 32)).map fun u =>
    xtsUnit true ((sealKeys n s).extractLsb' 256 256) ((sealKeys n s).extractLsb' 0 256) u
      (s.readBytes ((s.part n).sealSrc.toNat + 1664 + 32 * u) 32)

variable (hn : n < Config.parts) (honly : onlyIn v [(32, 32)] = true) (hpark : sealParked s n = false) (hst : (s.part n).sealSt ≠ 1)
  (hseq : bits v 32 32 = ((s.part n).sealSeq + 1) % 2 ^ 32)

include hn honly hpark hst hseq

theorem unseal_goes : ¬ (Config.parts ≤ n ∨ (!onlyIn v [(32, 32)]) = true ∨ sealParked s n = true ∨
    bits v 32 32 ≠ ((s.part n).sealSeq + (if (s.part n).sealSt = 1 then 0 else 1)) % 2 ^ 32) := by
  simp [Nat.not_le.2 hn, honly, hpark, hst, hseq]

theorem exec_unsealBlob_plain (hencl : (s.part n).encl = false) : exec (.unsealBlob n v) s = .next (sealAnswers n v s 2) := by
  change execUnsealBlob n v s = _
  simp only [execUnsealBlob, if_neg (unseal_goes hn honly hpark hst hseq), hencl, Bool.not_false, if_true]
  rfl

variable (hencl : (s.part n).encl = true)

include hencl

theorem exec_unsealBlob_malformed (hbad : blobOk (sealHeader n s) (sealLen n s) = false) :
    exec (.unsealBlob n v) s = .next (sealAnswers n v s 3) := by
  unfold sealLen sealHeader at hbad
  change execUnsealBlob n v s = _
  simp only [execUnsealBlob, if_neg (unseal_goes hn honly hpark hst hseq), hencl, hbad, Bool.not_true, Bool.not_false, Bool.false_eq_true,
    if_false, if_true]
  rfl

theorem exec_unsealBlob_written (hok : blobOk (sealHeader n s) (sealLen n s) = true) {loc : Loc} {u t : State}
    (hw : sealWrite n ((sealPlain n s).zipIdx.map fun e => ((s.part n).sealDst.toNat + 32 * e.2, e.1)) s = (.ok loc u, t)) :
    exec (.unsealBlob n v) s =
      .next (if sha3 (sealSecret n s ++ (sealPlain n s).flatten) = ((sealHeader n s).drop 8).take 64 then sealAnswers n v t 0
        else sealAnswers n v (sealWrite n ((sealPlain n s).zipIdx.map fun e =>
          ((s.part n).sealDst.toNat + 32 * e.2, List.replicate 32 0)) t).2 4) := by
  simp only [sealPlain, sealKeys, sealSecret, sealLen, sealHeader] at hok hw ⊢
  change execUnsealBlob n v s = _
  simp only [execUnsealBlob, if_neg (unseal_goes hn honly hpark hst hseq), hencl, hok, hw, Bool.not_true, Bool.false_eq_true, if_false]
  rfl

end Unseal

/-! ## Attestation and boot (R378, R404) -/

theorem exec_attest {n : Nat} {v : Word} {s : State} (honly : onlyIn v [(6, 46)] = true) (hup : vfUp s n = true) :
    let a := hostKey n v.toNat
    let r := reportBody s n (s.readBytes a 64)
    exec (.attest n v) s = .next (s.writeBytes a
      (r ++ dsaSign identityXi (leBytes 32 (Config.signRnd s.freeCtr).toNat) (sha3 r) ++ List.replicate 29 0) false) := by
  have hgo : ¬ ((!onlyIn v [(6, 46)]) = true ∨ (!vfUp s n) = true) := by simp [honly, hup]
  change execAttest n v s = _
  simp only [execAttest, if_neg hgo]

section Boot

variable {s : State} {a : Nat}

/-- A device that has booted: its on-die storage holds zero. -/
def booted (s : State) (m : BitVec 512) : State :=
  { s with boot := .up m, bays := [], mem := s.mem.filter fun c => !onDie c.1, poison := s.poison.filter fun a => !onDie a }

theorem exec_boot {m : BitVec 512} (hoff : s.boot = .off) (hup : bootStages Config.stages 1 (sha3 Config.romImage) = .up m) :
    exec .boot s = .next (booted s m) := by
  change execBoot s = _
  simp only [execBoot, hoff, hup, bne_self_eq_false, Bool.false_eq_true, if_false]
  rfl

/-- Of a memory list without some addresses, the others read as before. -/
theorem memGet?_filter (p : Nat → Bool) (m : List Host.Cell) (a : Nat) :
    memGet? (m.filter fun c => p c.1) a = if p a then memGet? m a else none := by
  induction m with
  | nil => simp [memGet?]
  | cons c m ih =>
    obtain ⟨b, x⟩ := c
    by_cases hb : b = a
    · subst hb
      by_cases hp : p b <;> simp [memGet?, hp, ih]
    · by_cases hp : p b <;> simp [memGet?, hp, hb, ih]

theorem byte_booted_onDie (m : BitVec 512) (ha : onDie a = true) : (booted s m).byte a = 0 := by
  have hmem : memGet? (booted s m).mem a = none := by
    rw [booted, memGet?_filter fun a => !onDie a]
    simp [ha]
  rw [State.byte, hmem, unlisted, if_pos ha]
  rfl

theorem byte_booted_elsewhere (m : BitVec 512) (ha : onDie a = false) : (booted s m).byte a = s.byte a := by
  have hmem : memGet? (booted s m).mem a = memGet? s.mem a := by
    rw [booted, memGet?_filter fun a => !onDie a]
    simp [ha]
  rw [State.byte, hmem, State.byte]

theorem not_mem_poison_booted (m : BitVec 512) (ha : onDie a = true) : a ∉ (booted s m).poison := by
  simp [booted, ha]

end Boot

/-! ## Registers (R325, R339, R347) -/

section Registers

variable {n off base step count o : Nat} {v : Word} {s : State}

theorem blockAt_of_mem (ho : o < step) (hn : n < count) (hoff : off = base + (step * n + o)) :
    blockAt off base step count = some (n, o) := by
  have hlt : step * n + o < step * count := by
    calc step * n + o < step * n + step := by omega
      _ = step * (n + 1) := by ring
      _ ≤ step * count := Nat.mul_le_mul_left _ hn
  have hstep : 0 < step := by omega
  rw [blockAt, if_pos (by omega), hoff, Nat.add_sub_cancel_left, Nat.mul_add_div hstep, Nat.div_eq_of_lt ho, Nat.mul_add_mod,
    Nat.mod_eq_of_lt ho, Nat.add_zero]

theorem blockAt_of_past (h : base + step * count ≤ off) : blockAt off base step count = none := by
  rw [blockAt, if_neg (by omega)]

theorem storeIn_of_only {fs : List (Nat × Nat)} {f : Part → Part} (h : onlyIn v fs = true) : storeIn n v fs f s = s.modPart n f := by
  rw [storeIn, if_pos h]

variable (hn : n < Config.parts)

include hn

theorem exec_registerWrite_quota (hv : v.toNat ≤ Config.bays) :
    exec (.registerWrite (0x380000 + 8 * n) v) s = .next (s.modPart n fun p => { p with quota := v.toNat }) := by
  have hdev : ¬ 0x380000 + 8 * n = devnumOff := by unfold devnumOff; omega
  have hblock : blockAt (0x380000 + 8 * n) 0x380000 8 Config.parts = some (n, 0) := blockAt_of_mem (by omega) hn (by omega)
  change execRegisterWrite _ v s = _
  rw [execRegisterWrite, storeRegister, if_neg hdev, hblock]
  exact congrArg _ (if_pos hv)

/-- A register of the translation block is written through it. -/
theorem storeRegister_xlat (ho : o < 64) (hoff : off = 0x381000 + (64 * n + o)) : storeRegister off v s = writeXlatReg n o v s := by
  have hdev : ¬ off = devnumOff := by unfold devnumOff; omega
  have hlow : blockAt off 0x380000 8 Config.parts = none := blockAt_of_past (by unfold Config.parts; omega)
  rw [storeRegister, if_neg hdev, hlow, blockAt_of_mem ho hn hoff]

/-- A register of the queue block is written through it. -/
theorem storeRegister_ring (ho : o < 64) (hoff : off = 0x383000 + (64 * n + o)) : storeRegister off v s = writeRingReg n o v s := by
  have hdev : ¬ off = devnumOff := by unfold devnumOff; omega
  have hlow : blockAt off 0x380000 8 Config.parts = none := blockAt_of_past (by unfold Config.parts; omega)
  have hxlat : blockAt off 0x381000 64 Config.parts = none := blockAt_of_past (by unfold Config.parts; omega)
  rw [storeRegister, if_neg hdev, hlow, hxlat, blockAt_of_mem ho (by omega) hoff]

theorem exec_registerWrite_troot (h : onlyIn v [(20, 32), (0, 1)] = true) :
    exec (.registerWrite (0x381000 + 64 * n) v) s = .next (s.modPart n fun p => { p with troot := v }) := by
  change execRegisterWrite _ v s = _
  rw [execRegisterWrite, storeRegister_xlat (o := 0) hn (by omega) (by omega)]
  exact congrArg _ (storeIn_of_only h)

theorem exec_registerWrite_gdtBase (h : onlyIn v [(16, 36)] = true) :
    exec (.registerWrite (0x381008 + 64 * n) v) s = .next (s.modPart n fun p => { p with gdtBase := v }) := by
  change execRegisterWrite _ v s = _
  rw [execRegisterWrite, storeRegister_xlat (o := 8) hn (by omega) (by omega)]
  exact congrArg _ (storeIn_of_only h)

theorem exec_registerWrite_fqCons (h : onlyIn v [(0, 32)] = true) :
    exec (.registerWrite (0x383008 + 64 * n) v) s = .next (s.modPart n fun p => { p with fqCons := v.toNat }) := by
  change execRegisterWrite _ v s = _
  rw [execRegisterWrite, storeRegister_ring (o := 8) hn (by omega) (by omega)]
  exact congrArg _ (storeIn_of_only h)

end Registers

/-- Settles O52: a partition's write by EN, an unseal by what fails it, boot by where an address lies, a register by its block. -/
theorem partitions : Obligations.Partitions := by
  unfold Obligations.Partitions
  refine ⟨fun n v s hn honly hstill => ⟨fun hv hoff hfree => ?created, fun hv hon => ?closed⟩,
    fun n k v s hn hk hzero hstill hfree => exec_baysWrite hn hk hzero hstill hfree, fun n s => ?zeroised, fun n v s hn => ?policies,
    fun n v s hn honly hpark hst hseq => ?blob, fun n v s => exec_attest, fun s m hoff hup => ?boot, fun n v s hn =>
      ⟨exec_registerWrite_quota hn, exec_registerWrite_troot hn, exec_registerWrite_gdtBase hn, exec_registerWrite_fqCons hn⟩⟩
  case created =>
    refine ⟨exec_pctlWrite_creates hn honly hstill hv hoff hfree, ?_⟩
    rw [State.part_modPart, en_create0, hv]
    exact ⟨rfl, rfl, rfl, rfl, rfl⟩
  case closed =>
    refine ⟨exec_pctlWrite_closes hn honly hstill hv hon, ?_⟩
    rw [State.part_modPart]
    exact en_closed _
  case zeroised =>
    refine ⟨_, exec_zeroiseComplete n s, fun e he => ?_, ?_, fun e he hen => ⟨fun hall => ?_, fun ⟨z, hz, hze, hzn⟩ => ?_⟩⟩
    · rw [zeroised, State.zeroQ_modPart] at he
      exact (mem_zeroRest.1 he).symm
    · rw [zeroised, State.part_modPart]
    · rw [zero_zeroised, if_pos ((mem_zeroFreed he hen).2 hall)]
    · rw [zero_zeroised, if_neg fun hfreed => hzn ((mem_zeroFreed he hen).1 hfreed z hz hze)]
  case policies =>
    refine ⟨fun k hlo hhi sat hsat hv => ?_, fun hv => ?_, fun hv hshow => ?_, fun hv hhide => ?_⟩ <;> subst hv
    · exact exec_scopepolWrite hn hlo hhi hsat
    · exact exec_dbgctlWrite_zero hn
    · rw [exec_dbgctlWrite_one hn, hshow]
      rfl
    · rw [exec_dbgctlWrite_one hn, if_pos hhide]
  case blob =>
    refine ⟨exec_unsealBlob_plain hn honly hpark hst hseq, exec_unsealBlob_malformed hn honly hpark hst hseq,
      fun hencl hok loc u t hw => ?_⟩
    have hexec := exec_unsealBlob_written hn honly hpark hst hseq hencl hok hw
    exact ⟨fun heq => hexec.trans (congrArg _ (if_pos heq)), fun hne => hexec.trans (congrArg _ (if_neg hne))⟩
  case boot =>
    exact ⟨_, exec_boot hoff hup, rfl, rfl, fun a ha => ⟨byte_booted_onDie m ha, not_mem_poison_booted m ha⟩,
      fun a ha => byte_booted_elsewhere m ha⟩

end Sys2Proof.Machine

/-!
Proof of the statement about trace sessions, their writer and queue-level reset (TraceSessions).
-/
namespace Sys2Proof.Machine

open Sys2Proof

/-! ## Sessions (R392) -/

section Sessions

variable {n ctx : Nat} {v : Word} {s : State}

/-- A trace buffer at the start of a session. -/
def TraceBuf.opened (t : TraceBuf) (v : Word) : TraceBuf :=
  { t with ctl := v, wptr := 0, lost := 0, queue := [], owedQ := [], owed := [], closing := none, since := 0, sinceBay := 0, logged := 0 }

section Tbctl

variable (hn : n < Config.parts) (hctx : ctx < 8)
  (honly : onlyIn v [(63, 1), (62, 1), (7, 1), (6, 1), (5, 1), (4, 1), (0, 4)] = true)

include hn hctx honly

theorem tbctl_goes :
    ¬ (Config.parts ≤ n ∨ 8 ≤ ctx ∨ (!onlyIn v [(63, 1), (62, 1), (7, 1), (6, 1), (5, 1), (4, 1), (0, 4)]) = true) := by
  simp [Nat.not_le.2 hn, Nat.not_le.2 hctx, honly]

theorem writeTbctl_opens (hv : v.getLsbD 63 = true) (hshut : ((s.part n).tbuf ctx).isOpen = false) : writeTbctl n ctx v s =
    beginTrace n ctx (s.modPart n fun p => p.setTbuf ctx (((s.part n).tbuf ctx).opened v)) := by
  simp only [writeTbctl, if_neg (tbctl_goes hn hctx honly), hv, hshut, Bool.false_eq_true, if_false, if_true]
  rfl

theorem writeTbctl_closes (hv : v.getLsbD 63 = false) (hopen : ((s.part n).tbuf ctx).isOpen = true)
    (hnone : ((s.part n).tbuf ctx).closing = none) : writeTbctl n ctx v s =
      closeIfDrained n ctx (s.modPart n fun p => p.setTbuf ctx { (s.part n).tbuf ctx with closing := some false }) := by
  simp only [writeTbctl, if_neg (tbctl_goes hn hctx honly), hv, hopen, hnone, Option.isSome_none, Bool.false_eq_true, if_false, if_true]

end Tbctl

theorem exec_traceRecordWrite (hopen : ((s.part n).tbuf ctx).isOpen = true) :
    exec (.traceRecordWrite n ctx) s = .next (closeIfDrained n ctx (writeTrace n ctx s)) := by
  change execTraceRecordWrite n ctx s = _
  rw [execTraceRecordWrite, if_pos hopen]

/-! ## The writer (R393, R395, R396) -/

/-- A record of at most a sample buffer's size lies in one sample buffer, and within the trace buffer. -/
theorem placeFor_spec {t : TraceBuf} {len pad w : Nat} (h : t.placeFor len = some (pad, w)) (hlen : len ≤ 4096) :
    w % 4096 + len ≤ 4096 ∧ w + len ≤ t.bytes := by
  unfold TraceBuf.placeFor at h
  dsimp only at h
  generalize hq : (if len ≤ 4096 - t.wptr % 4096 then 0 else 4096 - t.wptr % 4096) = q at h
  have hplace : (t.wptr + q) % 4096 + len ≤ 4096 := by
    rw [← hq]
    split <;> omega
  split at h
  · rename_i hfits
    cases h
    exact ⟨hplace, hfits⟩
  · split at h
    · rename_i hwrap
      cases h
      have hfits : len ≤ t.bytes := by simpa using (Bool.and_eq_true_iff.1 hwrap).2
      omega
    · cases h

/-- A trace record stands in the buffer at an offset, and the writer after it. -/
def recordAt (n ctx w : Nat) (r : TraceRec) (s : State) : State :=
  (s.writeBytes (bits ((s.part n).tbuf ctx).base 16 36 * 0x10000 + w) (wordsBytes r) false).modPart n
    fun p => p.setTbuf ctx { p.tbuf ctx with wptr := w + 8 * r.length }

theorem appendRecords_one {r : TraceRec} {w : Nat} (hw : ((s.part n).tbuf ctx).placeFor (8 * r.length) = some (0, w)) :
    appendRecords n ctx [r] s = some (recordAt n ctx w r s) := by
  simp only [appendRecords, hw, true_or, if_true]
  rfl

theorem putRecord_of_room {o src w : Nat} {r : TraceRec} (howed : AMap.getD ((s.part n).tbuf ctx).owed src 0 = 0)
    (hw : ((s.part n).tbuf ctx).placeFor (8 * r.length) = some (0, w)) : putRecord n ctx o src r s =
      (recordAt n ctx w r s).modPart n fun p => p.setTbuf ctx { p.tbuf ctx with owed := AMap.erase (p.tbuf ctx).owed src } := by
  have hlost : withLost r 0 = [r] := rfl
  simp only [putRecord, howed, hlost, appendRecords_one hw]

end Sessions

/-! ## Queue-level reset (R397) -/

theorem exec_cqreset {n : Nat} {v : Word} {s : State} (hn : n < Config.parts) (honly : onlyIn v [(0, 8)] = true) :
    exec (.cqreset n v) s = .next ((setBits (v.setWidth 8)).foldl (resetCtx n) s) := by
  have hgo : ¬ (Config.parts ≤ n ∨ (!onlyIn v [(0, 8)]) = true) := by simp [Nat.not_le.2 hn, honly]
  change execCqreset n v s = _
  rw [execCqreset, if_neg hgo]

theorem exec_traceResetEnd {n ctx : Nat} {s : State} (hclosing : ((s.part n).tbuf ctx).closing = some true)
    (hdrained : traceDrained s n ctx = true) : exec (.traceResetEnd n ctx) s = .next (endTrace n ctx 1 s) := by
  have hdue : resetDue s n ctx = true := by simp [resetDue, hclosing, hdrained]
  change execTraceResetEnd n ctx s = _
  rw [execTraceResetEnd, if_pos hdue]

/-- Settles O53: a write to TBCTL by OPEN, a record's place by its sample buffer, a reset by its contexts. -/
theorem traceSessions : Obligations.TraceSessions := by
  unfold Obligations.TraceSessions
  refine ⟨fun n ctx v s hn hctx honly => ?tbctl, fun n ctx s => exec_traceRecordWrite, fun t len pad w => placeFor_spec,
    fun n ctx o src r s w => putRecord_of_room, fun n v s => exec_cqreset, fun n ctx s => exec_traceResetEnd⟩
  case tbctl =>
    exact ⟨fun hv hshut => congrArg Host.Outcome.next (writeTbctl_opens hn hctx honly hv hshut),
      fun hv hopen hnone => congrArg Host.Outcome.next (writeTbctl_closes hn hctx honly hv hopen hnone)⟩

end Sys2Proof.Machine
